-- ==== Sys2Proof/Word.lean ====
section
/-! DEFINITION. Words of the machine (R15) and the names of cores and contexts (R33, R40). -/

namespace Sys2Proof

/-- A 64-bit register, fat pointer or address (R20, R53). -/
abbrev Word := BitVec 64

/-- A halfword of an instruction line (R67). -/
abbrev Half := BitVec 16

/-- A byte of memory. -/
abbrev Byte := BitVec 8

/-- A core, named by its virtual tile and its position number y × 12 + x (R33). -/
structure CoreId where
  vt : Nat
  pos : Nat
deriving DecidableEq, Repr, Inhabited

/-- A context of a core: 0 is the control context, 1–10 the helpers (R19). -/
structure CtxId where
  core : CoreId
  ctx : Nat
deriving DecidableEq, Repr, Inhabited

/-- Key of a core in the tables of the state. -/
def CoreId.key (c : CoreId) : Nat := c.vt * 192 + c.pos

/-- Key of a context in the tables of the state. -/
def CtxId.key (c : CtxId) : Nat := c.core.key * 16 + c.ctx

/-- Bits [lo + w − 1 : lo] of a number. -/
def natBits (n lo w : Nat) : Nat := n / 2 ^ lo % 2 ^ w

/-- A number of w bits read as two's complement (R99). -/
def signedOf (w n : Nat) : Int :=
  if n % 2 ^ w < 2 ^ (w - 1) then (n % 2 ^ w : Nat) else ((n % 2 ^ w : Nat) : Int) - (2 ^ w : Nat)

/-- The low w bits of an integer, as a natural number. -/
def wrapTo (w : Nat) (v : Int) : Nat := (v % (2 ^ w : Nat)).toNat

end Sys2Proof
end

