-- ==== Sys2Proof/Syntax.lean ====
section
/-! DEFINITION. The syntax: one constructor for every row of the opcode table, the raw operand fields of the forms A, B and C
(R76–R79) and the arguments of the rows that are steps of the hardware. An instruction is a row with its operand fields
(`Inst`). Lean's compiled code cannot hold 417 constructors that carry fields, so the constructors carry none: the machine
keeps the operand fields of the instruction now executing beside it (`State.op`, `State.ev`; log 1). -/

namespace Sys2Proof

/-- The operand fields of an encoded instruction, of all three forms (Tables 30–34). A field that the form of the
instruction does not have is zero. `fn` is the function code; `s1` is BASE of form B; `imm` is IMM[31:0], OFS[31:0] or
IMM16 as supplied by T. -/
structure Fields where
  r0 : BitVec 1
  t : BitVec 2
  d : BitVec 5
  pg : BitVec 3
  fn : BitVec 6
  s1 : BitVec 5
  s2 : BitVec 5
  s3 : BitVec 5
  sz : BitVec 2
  sc : BitVec 3
  md : BitVec 3
  imm : BitVec 32
  sync : Option Half
deriving DecidableEq, Repr

/-- All fields zero and no sync halfword: a head with T = 0, Y = 0. -/
def Fields.zero : Fields :=
  { r0 := 0, t := 0, d := 0, pg := 0, fn := 0, s1 := 0, s2 := 0, s3 := 0, sz := 0, sc := 0, md := 0, imm := 0, sync := none }

/-- The element type of a form C instruction: ET = SZ × 8 + MOD (R79). -/
def Fields.et (o : Fields) : Nat := o.sz.toNat * 8 + o.md.toNat

/-- IMM or OFS sign-extended to 64 bits, from bit 15 when T = 2 and from bit 31 when T = 3 (R77, R78). -/
def Fields.immS (o : Fields) : Word :=
  if o.t = 3 then o.imm.signExtend 64 else (o.imm.extractLsb' 0 16).signExtend 64

/-- IMM16 of form C (R79). -/
def Fields.imm16 (o : Fields) : Half := o.imm.extractLsb' 0 16

/-- What a step of the hardware acts on: the virtual die, virtual tile, core or context it concerns, an index `k` into the
list the row speaks of (a packet, a message, a launch, a slot), and what arrives from outside the machine (numbers, bytes,
flags). A row reads only the arguments its meaning names. -/
structure EvArgs where
  vd : Nat
  vt : Nat
  core : CoreId
  ctx : CtxId
  k : Nat
  j : Nat
  m : Nat
  w : Word
  ofs : Int
  flag : Bool
  flag2 : Bool
  nums : List Nat
  pairs : List (Nat × List Nat)
  bytes : List Byte
  enables : List Bool
deriving DecidableEq, Repr

/-- No arguments. -/
def EvArgs.zero : EvArgs :=
  { vd := 0, vt := 0, core := ⟨0, 0⟩, ctx := ⟨⟨0, 0⟩, 0⟩, k := 0, j := 0, m := 0, w := 0, ofs := 0, flag := false, flag2 := false,
    nums := [], pairs := [], bytes := [], enables := [] }

/-- One constructor for every row of spec/opcode_table.json. -/
inductive Instr where
  /-- ADD (R129) -/
  | add
  /-- ADD_W (R129) -/
  | addW
  /-- ADD_SS (R129) -/
  | addSs
  /-- ADD_US (R129) -/
  | addUs
  /-- SUB (R129) -/
  | sub
  /-- SUB_W (R129) -/
  | subW
  /-- SUB_SS (R129) -/
  | subSs
  /-- SUB_US (R129) -/
  | subUs
  /-- MUL (R129) -/
  | mul
  /-- MUL_W (R129) -/
  | mulW
  /-- MULH_SS (R129) -/
  | mulhSs
  /-- MULH_UU (R129) -/
  | mulhUu
  /-- MULH_SU (R129) -/
  | mulhSu
  /-- DIV (R129) -/
  | div
  /-- DIV_U (R129) -/
  | divU
  /-- DIV_W (R129) -/
  | divW
  /-- DIV_UW (R129) -/
  | divUw
  /-- REM (R129) -/
  | rem
  /-- REM_U (R129) -/
  | remU
  /-- REM_W (R129) -/
  | remW
  /-- REM_UW (R129) -/
  | remUw
  /-- AND (R129) -/
  | andR
  /-- OR (R129) -/
  | orR
  /-- XOR (R129) -/
  | xor
  /-- ANDN (R129) -/
  | andn
  /-- SHL (R129) -/
  | shl
  /-- SHL_W (R129) -/
  | shlW
  /-- SHR (R129) -/
  | shr
  /-- SHR_A (R129) -/
  | shrA
  /-- SHR_W (R129) -/
  | shrW
  /-- SHR_AW (R129) -/
  | shrAw
  /-- ROT (R129) -/
  | rot
  /-- ROT_L (R129) -/
  | rotL
  /-- ROT_W (R129) -/
  | rotW
  /-- ROT_LW (R129) -/
  | rotLw
  /-- MIN (R129) -/
  | min
  /-- MIN_U (R129) -/
  | minU
  /-- MAX (R129) -/
  | max
  /-- MAX_U (R129) -/
  | maxU
  /-- BCNT_CLZ (R129) -/
  | bcntClz
  /-- BCNT_CTZ (R129) -/
  | bcntCtz
  /-- BCNT_POPC (R129) -/
  | bcntPopc
  /-- EXT_S8 (R129) -/
  | extS8
  /-- EXT_S16 (R129) -/
  | extS16
  /-- EXT_S32 (R129) -/
  | extS32
  /-- EXT_Z8 (R129) -/
  | extZ8
  /-- EXT_Z16 (R129) -/
  | extZ16
  /-- EXT_Z32 (R129) -/
  | extZ32
  /-- BFX_U (R129) -/
  | bfxU
  /-- BFX_S (R129) -/
  | bfxS
  /-- BFI (R129) -/
  | bfi
  /-- SEL (R129) -/
  | sel
  /-- CMP_EQ (R130) -/
  | cmpEq
  /-- CMP_NE (R130) -/
  | cmpNe
  /-- CMP_LT (R130) -/
  | cmpLt
  /-- CMP_GE (R130) -/
  | cmpGe
  /-- CMP_LTU (R130) -/
  | cmpLtu
  /-- CMP_GEU (R130) -/
  | cmpGeu
  /-- LI_LO (R131) -/
  | liLo
  /-- LI_HI (R131) -/
  | liHi
  /-- MOV (R132) -/
  | mov
  /-- MOV_P (R132) -/
  | movP
  /-- MOV_SP (R132) -/
  | movSp
  /-- MOV_PS (R132) -/
  | movPs
  /-- MOV_PAND (R132) -/
  | movPand
  /-- MOV_POR (R132) -/
  | movPor
  /-- MOV_PNOT (R132) -/
  | movPnot
  /-- ADDP (R134) -/
  | addp
  /-- ADDP_B (R134) -/
  | addpB
  /-- SUBP (R135) -/
  | subp
  /-- SUBP_B (R135) -/
  | subpB
  /-- MKP (R136) -/
  | mkp
  /-- PSET_FMT (R137) -/
  | psetFmt
  /-- PSET_BLK (R137) -/
  | psetBlk
  /-- PSET_SPC (R137) -/
  | psetSpc
  /-- PSET_REL (R137) -/
  | psetRel
  /-- PSET_TILE (R137) -/
  | psetTile
  /-- PSET_DIE (R137) -/
  | psetDie
  /-- PSET_OFF (R137) -/
  | psetOff
  /-- PSET_CORE (R137) -/
  | psetCore
  /-- PGET_FMT (R137) -/
  | pgetFmt
  /-- PGET_BLK (R137) -/
  | pgetBlk
  /-- PGET_SPC (R137) -/
  | pgetSpc
  /-- PGET_REL (R137) -/
  | pgetRel
  /-- PGET_TILE (R137) -/
  | pgetTile
  /-- PGET_DIE (R137) -/
  | pgetDie
  /-- PGET_OFF (R137) -/
  | pgetOff
  /-- PGET_CORE (R137) -/
  | pgetCore
  /-- PABS (R138) -/
  | pabs
  /-- WAITDEP (R161) -/
  | waitdep
  /-- TRIGGER (R162) -/
  | trigger
  /-- BR (R145) -/
  | br
  /-- BRP_ANY (R145) -/
  | brpAny
  /-- BRP_ALL (R145) -/
  | brpAll
  /-- BRP_NONE (R145) -/
  | brpNone
  /-- BRP_NALL (R145) -/
  | brpNall
  /-- JAL (R146) -/
  | jal
  /-- JALR (R146) -/
  | jalr
  /-- LOOP (R147) -/
  | loop
  /-- FORK (R148) -/
  | fork
  /-- JOIN (R150) -/
  | join
  /-- SPAWN (R151) -/
  | spawn
  /-- EXIT (R152) -/
  | exit
  /-- YIELD (R155) -/
  | yield
  /-- SLEEP (R156) -/
  | sleep
  /-- TRAP (R157) -/
  | trap
  /-- TRAP_BKPT (R157) -/
  | trapBkpt
  /-- UPRET (R158) -/
  | upret
  /-- ERET (R159) -/
  | eret
  /-- NOP (R160) -/
  | nop
  /-- NOP_SPIN (R160) -/
  | nopSpin
  /-- NOP_PHASE (R160) -/
  | nopPhase
  /-- FADD (R140) -/
  | fadd
  /-- FSUB (R140) -/
  | fsub
  /-- FMUL (R140) -/
  | fmul
  /-- FFMA (R140) -/
  | ffma
  /-- FMINMAX_MIN (R141) -/
  | fminmaxMin
  /-- FMINMAX_MAX (R141) -/
  | fminmaxMax
  /-- FCVT_I64_F32 (R142) -/
  | fcvtI64F32
  /-- FCVT_F32_I64 (R142) -/
  | fcvtF32I64
  /-- FCVT_U64_F32 (R142) -/
  | fcvtU64F32
  /-- FCVT_F32_U64 (R142) -/
  | fcvtF32U64
  /-- FCVT_F16_F32 (R142) -/
  | fcvtF16F32
  /-- FCVT_F32_F16 (R142) -/
  | fcvtF32F16
  /-- FCVT_BF16_F32 (R142) -/
  | fcvtBf16F32
  /-- FCVT_F32_BF16 (R142) -/
  | fcvtF32Bf16
  /-- FCMP_EQ (R143) -/
  | fcmpEq
  /-- FCMP_LT (R143) -/
  | fcmpLt
  /-- FCMP_LE (R143) -/
  | fcmpLe
  /-- FCMP_UN (R143) -/
  | fcmpUn
  /-- FSPEC_RCP (R144) -/
  | fspecRcp
  /-- FSPEC_RSQRT (R144) -/
  | fspecRsqrt
  /-- FSPEC_SQRT (R144) -/
  | fspecSqrt
  /-- FSPEC_DIV (R144) -/
  | fspecDiv
  /-- FSPEC_EXP2 (R144) -/
  | fspecExp2
  /-- FSPEC_LOG2 (R144) -/
  | fspecLog2
  /-- LD_U8 (R172) -/
  | ldU8
  /-- LD_S8 (R172) -/
  | ldS8
  /-- LD_U16 (R172) -/
  | ldU16
  /-- LD_S16 (R172) -/
  | ldS16
  /-- LD_U32 (R172) -/
  | ldU32
  /-- LD_S32 (R172) -/
  | ldS32
  /-- LD_64 (R172) -/
  | ld64
  /-- LD_FMT (R173) -/
  | ldFmt
  /-- ST_8 (R172) -/
  | st8
  /-- ST_16 (R172) -/
  | st16
  /-- ST_32 (R172) -/
  | st32
  /-- ST_64 (R172) -/
  | st64
  /-- ST_FMT (R174) -/
  | stFmt
  /-- LDA (R178) -/
  | lda
  /-- STL (R178) -/
  | stl
  /-- AMO_ADD (R181) -/
  | amoAdd
  /-- AMO_AND (R181) -/
  | amoAnd
  /-- AMO_OR (R181) -/
  | amoOr
  /-- AMO_XOR (R181) -/
  | amoXor
  /-- AMO_SMIN (R181) -/
  | amoSmin
  /-- AMO_SMAX (R181) -/
  | amoSmax
  /-- AMO_UMIN (R181) -/
  | amoUmin
  /-- AMO_UMAX (R181) -/
  | amoUmax
  /-- AMO_SWAP (R181) -/
  | amoSwap
  /-- CAS (R182) -/
  | cas
  /-- FENCE (R179) -/
  | fence
  /-- FENCE_ACQ (R179) -/
  | fenceAcq
  /-- FENCE_REL (R179) -/
  | fenceRel
  /-- XFENCE (R180) -/
  | xfence
  /-- LDFE_TAKE (R184) -/
  | ldfeTake
  /-- LDFE_PEEK (R184) -/
  | ldfePeek
  /-- STFE_FILL (R184) -/
  | stfeFill
  /-- STFE_FORCE (R184) -/
  | stfeForce
  /-- STFE_CLEAR (R184) -/
  | stfeClear
  /-- GET (R186) -/
  | get
  /-- PUT (R187) -/
  | put
  /-- RAMO_ADD (R187) -/
  | ramoAdd
  /-- RAMO_AND (R187) -/
  | ramoAnd
  /-- RAMO_OR (R187) -/
  | ramoOr
  /-- RAMO_XOR (R187) -/
  | ramoXor
  /-- RAMO_SMIN (R187) -/
  | ramoSmin
  /-- RAMO_SMAX (R187) -/
  | ramoSmax
  /-- RAMO_UMIN (R187) -/
  | ramoUmin
  /-- RAMO_UMAX (R187) -/
  | ramoUmax
  /-- RAMO_SWAP (R187) -/
  | ramoSwap
  /-- RAMO_FADD (R191) -/
  | ramoFadd
  /-- FLUSH_WB (R193) -/
  | flushWb
  /-- FLUSH_WBI (R193) -/
  | flushWbi
  /-- FLUSH_INV (R193) -/
  | flushInv
  /-- FLUSH_CODE (R193) -/
  | flushCode
  /-- PREF_R (R194) -/
  | prefR
  /-- PREF_W (R194) -/
  | prefW
  /-- PREF_GW (R194) -/
  | prefGw
  /-- CWAIT (R195) -/
  | cwait
  /-- CSIG (R195) -/
  | csig
  /-- CSET (R195) -/
  | cset
  /-- CRD (R195) -/
  | crd
  /-- BAR (R196) -/
  | bar
  /-- BAR_ARRIVE (R196) -/
  | barArrive
  /-- BAR_WAIT (R196) -/
  | barWait
  /-- BARRIER_TOKEN (R197) -/
  | barrierToken
  /-- BARRIER_RELEASE (R197) -/
  | barrierRelease
  /-- VADD (R207) -/
  | vadd
  /-- VADD_SAT (R207) -/
  | vaddSat
  /-- VSUB (R207) -/
  | vsub
  /-- VSUB_SAT (R207) -/
  | vsubSat
  /-- VMUL (R207) -/
  | vmul
  /-- VMUL_HI (R207) -/
  | vmulHi
  /-- VMUL_SAT (R207) -/
  | vmulSat
  /-- VFMA (R207) -/
  | vfma
  /-- VFMA_MS (R207) -/
  | vfmaMs
  /-- VFMA_NM (R207) -/
  | vfmaNm
  /-- VMINMAX_MIN (R207) -/
  | vminmaxMin
  /-- VMINMAX_MAX (R207) -/
  | vminmaxMax
  /-- VNEGABS_NEG (R207) -/
  | vnegabsNeg
  /-- VNEGABS_ABS (R207) -/
  | vnegabsAbs
  /-- VCVT (R209) -/
  | vcvt
  /-- VCVT_SAT (R209) -/
  | vcvtSat
  /-- VCMP_EQ (R208) -/
  | vcmpEq
  /-- VCMP_NE (R208) -/
  | vcmpNe
  /-- VCMP_LT (R208) -/
  | vcmpLt
  /-- VCMP_GE (R208) -/
  | vcmpGe
  /-- VCMP_LE (R208) -/
  | vcmpLe
  /-- VCMP_GT (R208) -/
  | vcmpGt
  /-- VCMP_UN (R208) -/
  | vcmpUn
  /-- VSEL (R207) -/
  | vsel
  /-- VRED_SUM (R210) -/
  | vredSum
  /-- VRED_MIN (R210) -/
  | vredMin
  /-- VRED_MAX (R210) -/
  | vredMax
  /-- VRED_AND (R210) -/
  | vredAnd
  /-- VRED_OR (R210) -/
  | vredOr
  /-- VRED_XOR (R210) -/
  | vredXor
  /-- VSHUF_IDX (R211) -/
  | vshufIdx
  /-- VSHUF_ROT (R211) -/
  | vshufRot
  /-- VSHUF_LO (R211) -/
  | vshufLo
  /-- VSHUF_HI (R211) -/
  | vshufHi
  /-- VSHUF_REV (R211) -/
  | vshufRev
  /-- VBCAST_S (R212) -/
  | vbcastS
  /-- VBCAST_LANE (R212) -/
  | vbcastLane
  /-- VLD (R220) -/
  | vld
  /-- VLD_STR (R220) -/
  | vldStr
  /-- VST (R220) -/
  | vst
  /-- VST_STR (R220) -/
  | vstStr
  /-- VGTH (R222) -/
  | vgth
  /-- VSCT (R222) -/
  | vsct
  /-- VSPEC_RCP (R213) -/
  | vspecRcp
  /-- VSPEC_RSQRT (R213) -/
  | vspecRsqrt
  /-- VSPEC_SQRT (R213) -/
  | vspecSqrt
  /-- VSPEC_DIV (R213) -/
  | vspecDiv
  /-- VSPEC_EXP2 (R213) -/
  | vspecExp2
  /-- VSPEC_LOG2 (R213) -/
  | vspecLog2
  /-- VSPEC_TANH (R213) -/
  | vspecTanh
  /-- VDOT_Q (R214) -/
  | vdotQ
  /-- VDOT_P (R214) -/
  | vdotP
  /-- VAMAX (R216) -/
  | vamax
  /-- VSCALE (R217) -/
  | vscale
  /-- VQUANT (R218) -/
  | vquant
  /-- VTBL (R219) -/
  | vtbl
  /-- VENC (R219) -/
  | venc
  /-- VINT_AND (R207) -/
  | vintAnd
  /-- VINT_OR (R207) -/
  | vintOr
  /-- VINT_XOR (R207) -/
  | vintXor
  /-- VINT_ANDN (R207) -/
  | vintAndn
  /-- VINT_SHL (R207) -/
  | vintShl
  /-- VINT_SHR (R207) -/
  | vintShr
  /-- VINT_SRA (R207) -/
  | vintSra
  /-- VINT_POPC (R207) -/
  | vintPopc
  /-- VSEQ (R227) -/
  | vseq
  /-- VSEQE (R227) -/
  | vseqe
  /-- GANG_2 (R230) -/
  | gang2
  /-- GANG_4 (R230) -/
  | gang4
  /-- GANG_8 (R230) -/
  | gang8
  /-- GANG_FORMATION (R231) -/
  | gangFormation
  /-- UNGANG (R233) -/
  | ungang
  /-- VECTOR_SEQUENCER_EXECUTE (R224) -/
  | vectorSequencerExecute
  /-- MLAT (R242) -/
  | mlat
  /-- MMA (R243) -/
  | mma
  /-- MMAS (R243) -/
  | mmas
  /-- MATRIX_QUEUE_ISSUE (R237) -/
  | matrixQueueIssue
  /-- MATRIX_OPERAND_READ_END (R241) -/
  | matrixOperandReadEnd
  /-- MATRIX_ACCUMULATOR_WRITE (R241) -/
  | matrixAccumulatorWrite
  /-- CONSUMED_SIGNAL (R245) -/
  | consumedSignal
  /-- MACC_ZERO (R248) -/
  | maccZero
  /-- MACC_LD (R248) -/
  | maccLd
  /-- MACC_ST (R248) -/
  | maccSt
  /-- MACC_CVT (R248) -/
  | maccCvt
  /-- GAITL (R251) -/
  | gaitl
  /-- MGAIT (R252) -/
  | mgait
  /-- SPUR_CFG (R256) -/
  | spurCfg
  /-- SPUR_POST (R264) -/
  | spurPost
  /-- SPUR_TICK (R264) -/
  | spurTick
  /-- SPUR_READ (R264) -/
  | spurRead
  /-- SPUR_DRAIN (R264) -/
  | spurDrain
  /-- SPUR_EVENT_ARRIVAL (R262) -/
  | spurEventArrival
  /-- SPUR_EVENT_RETRY (R263) -/
  | spurEventRetry
  /-- PACE_TICK_CLOSE (R258) -/
  | paceTickClose
  /-- CLOSE_RESUME (R261) -/
  | closeResume
  /-- SEND_UNI (R279) -/
  | sendUni
  /-- SEND_MULTI (R279) -/
  | sendMulti
  /-- SEND_REPLY (R279) -/
  | sendReply
  /-- TASK_ARRIVAL (R273) -/
  | taskArrival
  /-- MESSAGE_RETRY (R273) -/
  | messageRetry
  /-- OVERFLOW_REENTRY (R31) -/
  | overflowReentry
  /-- REPLY_DELIVERY (R280) -/
  | replyDelivery
  /-- WORK_START (R350) -/
  | workStart
  /-- DEQUE_STEAL_PROBE (R351) -/
  | dequeStealProbe
  /-- CPY (R286) -/
  | cpy
  /-- GTH (R287) -/
  | gth
  /-- GTH_LATCH (R287) -/
  | gthLatch
  /-- COPY_COMMAND (R286) -/
  | copyCommand
  /-- GATHER_COMMAND (R287) -/
  | gatherCommand
  /-- COMMAND_RETIRE (R283) -/
  | commandRetire
  /-- COLL_REDUCE (R291) -/
  | collReduce
  /-- COLL_REGISTER (R292) -/
  | collRegister
  /-- COLL_BCAST (R290) -/
  | collBcast
  /-- COLL_JOIN (R290) -/
  | collJoin
  /-- COLL_DIGEST (R293) -/
  | collDigest
  /-- COLLECTIVE_EPISODE (R289) -/
  | collectiveEpisode
  /-- CLASS_MASK (R294) -/
  | classMask
  /-- CLASS_UNMASK (R294) -/
  | classUnmask
  /-- CLASS_TEST (R294) -/
  | classTest
  /-- LAUNCH (R295) -/
  | launch
  /-- LAUNCH_STEAL (R295) -/
  | launchSteal
  /-- LAUNCH_PREEMPT (R369) -/
  | launchPreempt
  /-- LAUNCH_RESUME (R372) -/
  | launchResume
  /-- LAUNCH_CANCEL (R373) -/
  | launchCancel
  /-- PREEMPTION_SAVE (R370) -/
  | preemptionSave
  /-- LAUNCH_ENTRY (R337) -/
  | launchEntry
  /-- CORE_LEAVE (R153) -/
  | coreLeave
  /-- UNIT_REFILL (R343) -/
  | unitRefill
  /-- STEAL_REQUEST (R345) -/
  | stealRequest
  /-- STEAL_ANSWER (R345) -/
  | stealAnswer
  /-- LAUNCH_END (R338) -/
  | launchEnd
  /-- GRAPH_DECREMENT (R349) -/
  | graphDecrement
  /-- SYS_CSRR (R296) -/
  | sysCsrr
  /-- SYS_CSRW (R296) -/
  | sysCsrw
  /-- SYS_CSRX (R296) -/
  | sysCsrx
  /-- REGISTER_WRITE (R37) -/
  | registerWrite
  /-- DECTAB_STORE (R47) -/
  | dectabStore
  /-- DECTAB_SELECT (R47) -/
  | dectabSelect
  /-- PLB_WRITE (R59) -/
  | plbWrite
  /-- DETMODE_WRITE (R50) -/
  | detmodeWrite
  /-- FEATACK_WRITE (R52) -/
  | featackWrite
  /-- CTLPRIO_WRITE (R49) -/
  | ctlprioWrite
  /-- TANDEM_ON (R297) -/
  | tandemOn
  /-- TANDEM_OFF (R298) -/
  | tandemOff
  /-- TANDEM_FORMATION (R297) -/
  | tandemFormation
  /-- OWN_GIVE (R299) -/
  | ownGive
  /-- OWN_QUERY (R300) -/
  | ownQuery
  /-- LEASE_RENEW (R301) -/
  | leaseRenew
  /-- STACK_CLOSE_END (R395) -/
  | stackCloseEnd
  /-- STACK_DRAIN_END (R395) -/
  | stackDrainEnd
  /-- STACK_WRITE_BACK_END (R395) -/
  | stackWriteBackEnd
  /-- STACK_LEASE_WAIT_END (R395) -/
  | stackLeaseWaitEnd
  /-- STACK_SWITCH (R395) -/
  | stackSwitch
  /-- REMOTE_ACCESS_AT_HOME (R189) -/
  | remoteAccessAtHome
  /-- REMOTE_ACK_ARRIVAL (R189) -/
  | remoteAckArrival
  /-- GET_VALUE_RETURN (R186) -/
  | getValueReturn
  /-- GATEWAY_LINE_FILL (R177) -/
  | gatewayLineFill
  /-- GATEWAY_LINE_EXPIRY (R390) -/
  | gatewayLineExpiry
  /-- TRANSLATION_EXPIRY (R388) -/
  | translationExpiry
  /-- ENGINE_LEASE_RENEW (R391) -/
  | engineLeaseRenew
  /-- REMAP_NACK (R445) -/
  | remapNack
  /-- PAGER_SERVICE (R366) -/
  | pagerService
  /-- CONTEXT_WAKE (R84) -/
  | contextWake
  /-- WAIT_LIMIT (R84) -/
  | waitLimit
  /-- SLEEP_TIMEOUT (R156) -/
  | sleepTimeout
  /-- HANG (R359) -/
  | hang
  /-- ROTATION_ARM (R403) -/
  | rotationArm
  /-- DRAIN (R406) -/
  | drain
  /-- ABORT (R405) -/
  | abort
  /-- NEW (R407) -/
  | newMap
  /-- COPY (R408) -/
  | copyState
  /-- RESUME (R409) -/
  | resumeTile
  /-- RETIRE (R405) -/
  | retire
  /-- TEST (R411) -/
  | test
  /-- MAINT (R414) -/
  | maint
  /-- MAINT_END (R414) -/
  | maintEnd
  /-- FARRIER_HOLD (R404) -/
  | farrierHold
  /-- CKOFF (R418) -/
  | ckoff
  /-- SUSPECT_CLEAR (R416) -/
  | suspectClear
  /-- COUNTER_CLEAR (R429) -/
  | counterClear
  /-- FAULT_COUNT_CLEAR (R365) -/
  | faultCountClear
  /-- EXPOSURE_COUNT (R412) -/
  | exposureCount
  /-- WEAR_FUSE_WRITE (R412) -/
  | wearFuseWrite
  /-- CHECKPOINT_EPOCH (R418) -/
  | checkpointEpoch
  /-- SITE_LOSS (R420) -/
  | siteLoss
  /-- FINGERPRINT_EXCHANGE (R426) -/
  | fingerprintExchange
  /-- FLIT_FORWARD (R435) -/
  | flitForward
  /-- LINK_REPLAY (R430) -/
  | linkReplay
  /-- INJECTOR_ARM (R431) -/
  | injectorArm
  /-- INJECTOR_TRIGGER (R432) -/
  | injectorTrigger
  /-- LINK_CONTROL_WRITE (R454) -/
  | linkControlWrite
  /-- LINK_CHANGE_DONE (R454) -/
  | linkChangeDone
  /-- TETHER_ARRIVAL (R457) -/
  | tetherArrival
  /-- PACE_BEACON (R385) -/
  | paceBeacon
  /-- BEACON_MISS (R386) -/
  | beaconMiss
  /-- CLOCK_STRETCH (R449) -/
  | clockStretch
  /-- REFERENCE_LOSS (R451) -/
  | referenceLoss
  /-- PANEL_RESET (R461) -/
  | panelReset
  /-- BRIDGE_LAUNCH_WRITE (R459) -/
  | bridgeLaunchWrite
  /-- BRIDGE_DATA_WRITE (R459) -/
  | bridgeDataWrite
  /-- BRIDGE_DATA_READ (R459) -/
  | bridgeDataRead
  /-- BRIDGE_CONTROL_WRITE (R458) -/
  | bridgeControlWrite
  /-- UNSUPPORTED_REQUEST (R458) -/
  | unsupportedRequest
  /-- ATTESTATION_REQUEST (R462) -/
  | attestationRequest
  /-- ATTESTATION_REPORT_READY (R462) -/
  | attestationReportReady
  /-- DEBUG_UNLOCK (R465) -/
  | debugUnlock
  /-- DEBUG_HALT (R465) -/
  | debugHalt
  /-- DEBUG_OBSERVE (R465) -/
  | debugObserve
  /-- LIFE_CYCLE_MOVE (R466) -/
  | lifeCycleMove
  /-- DIE_DROWSY (R463) -/
  | dieDrowsy
  /-- PANEL_PARK (R463) -/
  | panelPark
  /-- ACTIVE (R463) -/
  | active
  /-- TILE_IDLE (R463) -/
  | tileIdle
  /-- REFUSED_CLEAR (R464) -/
  | refusedClear
  /-- PROTECTION_DESCRIPTOR_STORE (R376) -/
  | protectionDescriptorStore
  /-- REFERENCE_RETURN (R451) -/
  | referenceReturn
  /-- DELIVERY_ANSWER (R276) -/
  | deliveryAnswer
  /-- SCRUB (R424) -/
  | scrub
  /-- DEBUG_RELOCK (R465) -/
  | debugRelock
deriving DecidableEq, Repr

/-- An encoded instruction: a row with its operand fields. -/
structure Inst where
  row : Instr
  o : Fields
deriving DecidableEq, Repr

end Sys2Proof
end

