-- ==== Sys2Proof/WellFormed.lean ====
section
/-! DEFINITION. Which fields each row uses (Table 36, R76–R83 and the field tables of chapters 04–08) and when an
instruction's fields are well-formed: no violation of R77, R79, R80, R81, Table 35 or of the field limits an instruction states. -/

namespace Sys2Proof

/-- The class of a register field (R80); `z`: the field is not used and must be zero (R81). -/
inductive Cls where
  | z | s | p | v | a | g | k
deriving DecidableEq, Repr

/-- How a form A instruction uses S2 and IMM (R125): not at all, as operand B, as a displacement or constant, as a predicate. -/
inductive BUse where
  | none | reg | disp | pred
deriving DecidableEq, Repr

/-- How SZ is used: zero, a size, a size of 4 or 8 bytes, 4 bytes only, or part of ET. -/
inductive SzUse where
  | z | any | wide | word | et
deriving DecidableEq, Repr

/-- How SC is used: zero, a scope, a rounding override, an override when ET is a float, an override when the
destination code of VCVT is a float. -/
inductive ScUse where
  | z | scope | rnd | rndF | rndX
deriving DecidableEq, Repr

/-- How MOD is used: zero, an ordering, or part of ET. -/
inductive MdUse where
  | z | ord | et
deriving DecidableEq, Repr

/-- How FN is used: a fixed function code, any code (SEL, VSEL), a VCVT destination without or with .sat, a gait number. -/
inductive FnUse where
  | code (n : Nat) | any | cvt | cvtSat | gait
deriving DecidableEq, Repr

/-- The decoding data of a row: form, major, function code, the class of each field. `event` marks a step no program encodes. -/
inductive Info where
  | A (major : Nat) (fn : FnUse) (d s1 : Cls) (b : BUse)
  | B (major : Nat) (fn : FnUse) (d s2 : Cls)
  | C (major : Nat) (fn : FnUse) (d s1 s2 s3 : Cls) (sz : SzUse) (sc : ScUse) (md : MdUse) (immz : Half)
  | event
deriving DecidableEq, Repr

/-- The decoding data of every row (Table 36). -/
def Instr.info : Instr → Info
  | .add => .A 0x01 (.code 0) .s .s .reg
  | .addW => .A 0x01 (.code 1) .s .s .reg
  | .addSs => .A 0x01 (.code 2) .s .s .reg
  | .addUs => .A 0x01 (.code 3) .s .s .reg
  | .sub => .A 0x02 (.code 0) .s .s .reg
  | .subW => .A 0x02 (.code 1) .s .s .reg
  | .subSs => .A 0x02 (.code 2) .s .s .reg
  | .subUs => .A 0x02 (.code 3) .s .s .reg
  | .mul => .A 0x03 (.code 0) .s .s .reg
  | .mulW => .A 0x03 (.code 1) .s .s .reg
  | .mulhSs => .A 0x04 (.code 0) .s .s .reg
  | .mulhUu => .A 0x04 (.code 1) .s .s .reg
  | .mulhSu => .A 0x04 (.code 2) .s .s .reg
  | .div => .A 0x05 (.code 0) .s .s .reg
  | .divU => .A 0x05 (.code 1) .s .s .reg
  | .divW => .A 0x05 (.code 2) .s .s .reg
  | .divUw => .A 0x05 (.code 3) .s .s .reg
  | .rem => .A 0x06 (.code 0) .s .s .reg
  | .remU => .A 0x06 (.code 1) .s .s .reg
  | .remW => .A 0x06 (.code 2) .s .s .reg
  | .remUw => .A 0x06 (.code 3) .s .s .reg
  | .andR => .A 0x07 (.code 0) .s .s .reg
  | .orR => .A 0x08 (.code 0) .s .s .reg
  | .xor => .A 0x09 (.code 0) .s .s .reg
  | .andn => .A 0x0a (.code 0) .s .s .reg
  | .shl => .A 0x0b (.code 0) .s .s .reg
  | .shlW => .A 0x0b (.code 1) .s .s .reg
  | .shr => .A 0x0c (.code 0) .s .s .reg
  | .shrA => .A 0x0c (.code 1) .s .s .reg
  | .shrW => .A 0x0c (.code 2) .s .s .reg
  | .shrAw => .A 0x0c (.code 3) .s .s .reg
  | .rot => .A 0x0d (.code 0) .s .s .reg
  | .rotL => .A 0x0d (.code 1) .s .s .reg
  | .rotW => .A 0x0d (.code 2) .s .s .reg
  | .rotLw => .A 0x0d (.code 3) .s .s .reg
  | .min => .A 0x0e (.code 0) .s .s .reg
  | .minU => .A 0x0e (.code 1) .s .s .reg
  | .max => .A 0x0f (.code 0) .s .s .reg
  | .maxU => .A 0x0f (.code 1) .s .s .reg
  | .bcntClz => .A 0x10 (.code 0) .s .s .none
  | .bcntCtz => .A 0x10 (.code 1) .s .s .none
  | .bcntPopc => .A 0x10 (.code 2) .s .s .none
  | .extS8 => .A 0x11 (.code 0) .s .s .none
  | .extS16 => .A 0x11 (.code 1) .s .s .none
  | .extS32 => .A 0x11 (.code 2) .s .s .none
  | .extZ8 => .A 0x11 (.code 3) .s .s .none
  | .extZ16 => .A 0x11 (.code 4) .s .s .none
  | .extZ32 => .A 0x11 (.code 5) .s .s .none
  | .bfxU => .A 0x12 (.code 0) .s .s .reg
  | .bfxS => .A 0x12 (.code 1) .s .s .reg
  | .bfi => .A 0x13 (.code 0) .s .s .reg
  | .sel => .A 0x14 .any .s .s .reg
  | .cmpEq => .A 0x15 (.code 0) .p .s .reg
  | .cmpNe => .A 0x15 (.code 1) .p .s .reg
  | .cmpLt => .A 0x15 (.code 2) .p .s .reg
  | .cmpGe => .A 0x15 (.code 3) .p .s .reg
  | .cmpLtu => .A 0x15 (.code 4) .p .s .reg
  | .cmpGeu => .A 0x15 (.code 5) .p .s .reg
  | .liLo => .A 0x16 (.code 0) .s .z .reg
  | .liHi => .A 0x16 (.code 1) .s .z .reg
  | .mov => .A 0x17 (.code 0) .s .s .none
  | .movP => .A 0x17 (.code 1) .p .p .none
  | .movSp => .A 0x17 (.code 2) .s .p .none
  | .movPs => .A 0x17 (.code 3) .p .s .none
  | .movPand => .A 0x17 (.code 4) .p .p .pred
  | .movPor => .A 0x17 (.code 5) .p .p .pred
  | .movPnot => .A 0x17 (.code 6) .p .p .none
  | .addp => .A 0x18 (.code 0) .s .s .reg
  | .addpB => .A 0x18 (.code 1) .s .s .reg
  | .subp => .A 0x19 (.code 0) .s .s .reg
  | .subpB => .A 0x19 (.code 1) .s .s .reg
  | .mkp => .A 0x1a (.code 0) .s .s .reg
  | .psetFmt => .A 0x1b (.code 0) .s .s .reg
  | .psetBlk => .A 0x1b (.code 1) .s .s .reg
  | .psetSpc => .A 0x1b (.code 2) .s .s .reg
  | .psetRel => .A 0x1b (.code 3) .s .s .reg
  | .psetTile => .A 0x1b (.code 4) .s .s .reg
  | .psetDie => .A 0x1b (.code 5) .s .s .reg
  | .psetOff => .A 0x1b (.code 6) .s .s .reg
  | .psetCore => .A 0x1b (.code 7) .s .s .reg
  | .pgetFmt => .A 0x1c (.code 0) .s .s .none
  | .pgetBlk => .A 0x1c (.code 1) .s .s .none
  | .pgetSpc => .A 0x1c (.code 2) .s .s .none
  | .pgetRel => .A 0x1c (.code 3) .s .s .none
  | .pgetTile => .A 0x1c (.code 4) .s .s .none
  | .pgetDie => .A 0x1c (.code 5) .s .s .none
  | .pgetOff => .A 0x1c (.code 6) .s .s .none
  | .pgetCore => .A 0x1c (.code 7) .s .s .none
  | .pabs => .A 0x1d (.code 0) .s .s .none
  | .waitdep => .A 0x1e (.code 0) .z .z .none
  | .trigger => .A 0x1f (.code 0) .z .z .none
  | .br => .A 0x20 (.code 0) .z .z .disp
  | .brpAny => .A 0x21 (.code 0) .p .z .disp
  | .brpAll => .A 0x21 (.code 1) .p .z .disp
  | .brpNone => .A 0x21 (.code 2) .p .z .disp
  | .brpNall => .A 0x21 (.code 3) .p .z .disp
  | .jal => .A 0x22 (.code 0) .s .z .disp
  | .jalr => .A 0x23 (.code 0) .s .s .disp
  | .loop => .A 0x24 (.code 0) .z .z .disp
  | .fork => .A 0x25 (.code 0) .z .s .disp
  | .join => .A 0x26 (.code 0) .z .s .disp
  | .spawn => .A 0x27 (.code 0) .s .s .disp
  | .exit => .A 0x28 (.code 0) .z .z .none
  | .yield => .A 0x29 (.code 0) .z .z .none
  | .sleep => .A 0x2a (.code 0) .z .z .disp
  | .trap => .A 0x2b (.code 0) .z .z .reg
  | .trapBkpt => .A 0x2b (.code 1) .z .z .reg
  | .upret => .A 0x2c (.code 0) .z .s .none
  | .eret => .A 0x2d (.code 0) .z .z .none
  | .nop => .A 0x2e (.code 0) .z .z .none
  | .nopSpin => .A 0x2e (.code 1) .z .z .none
  | .nopPhase => .A 0x2e (.code 2) .z .z .disp
  | .fadd => .A 0x30 (.code 0) .s .s .reg
  | .fsub => .A 0x31 (.code 0) .s .s .reg
  | .fmul => .A 0x32 (.code 0) .s .s .reg
  | .ffma => .A 0x33 (.code 0) .s .s .reg
  | .fminmaxMin => .A 0x34 (.code 0) .s .s .reg
  | .fminmaxMax => .A 0x34 (.code 1) .s .s .reg
  | .fcvtI64F32 => .A 0x35 (.code 0) .s .s .none
  | .fcvtF32I64 => .A 0x35 (.code 1) .s .s .none
  | .fcvtU64F32 => .A 0x35 (.code 2) .s .s .none
  | .fcvtF32U64 => .A 0x35 (.code 3) .s .s .none
  | .fcvtF16F32 => .A 0x35 (.code 4) .s .s .none
  | .fcvtF32F16 => .A 0x35 (.code 5) .s .s .none
  | .fcvtBf16F32 => .A 0x35 (.code 6) .s .s .none
  | .fcvtF32Bf16 => .A 0x35 (.code 7) .s .s .none
  | .fcmpEq => .A 0x36 (.code 0) .p .s .reg
  | .fcmpLt => .A 0x36 (.code 1) .p .s .reg
  | .fcmpLe => .A 0x36 (.code 2) .p .s .reg
  | .fcmpUn => .A 0x36 (.code 3) .p .s .reg
  | .fspecRcp => .A 0x37 (.code 0) .s .s .none
  | .fspecRsqrt => .A 0x37 (.code 1) .s .s .none
  | .fspecSqrt => .A 0x37 (.code 2) .s .s .none
  | .fspecDiv => .A 0x37 (.code 3) .s .s .reg
  | .fspecExp2 => .A 0x37 (.code 4) .s .s .none
  | .fspecLog2 => .A 0x37 (.code 5) .s .s .none
  | .ldU8 => .B 0x38 (.code 0) .s .z
  | .ldS8 => .B 0x38 (.code 1) .s .z
  | .ldU16 => .B 0x38 (.code 2) .s .z
  | .ldS16 => .B 0x38 (.code 3) .s .z
  | .ldU32 => .B 0x38 (.code 4) .s .z
  | .ldS32 => .B 0x38 (.code 5) .s .z
  | .ld64 => .B 0x38 (.code 6) .s .z
  | .ldFmt => .B 0x38 (.code 7) .s .s
  | .st8 => .B 0x39 (.code 0) .s .z
  | .st16 => .B 0x39 (.code 1) .s .z
  | .st32 => .B 0x39 (.code 2) .s .z
  | .st64 => .B 0x39 (.code 3) .s .z
  | .stFmt => .B 0x39 (.code 7) .s .s
  | .lda => .C 0x3a (.code 0) .s .s .z .z .any .scope .z 0x0000
  | .stl => .C 0x3b (.code 0) .s .s .z .z .any .scope .z 0x0000
  | .amoAdd => .C 0x3c (.code 0) .s .s .s .z .wide .scope .ord 0x0000
  | .amoAnd => .C 0x3c (.code 1) .s .s .s .z .wide .scope .ord 0x0000
  | .amoOr => .C 0x3c (.code 2) .s .s .s .z .wide .scope .ord 0x0000
  | .amoXor => .C 0x3c (.code 3) .s .s .s .z .wide .scope .ord 0x0000
  | .amoSmin => .C 0x3c (.code 4) .s .s .s .z .wide .scope .ord 0x0000
  | .amoSmax => .C 0x3c (.code 5) .s .s .s .z .wide .scope .ord 0x0000
  | .amoUmin => .C 0x3c (.code 6) .s .s .s .z .wide .scope .ord 0x0000
  | .amoUmax => .C 0x3c (.code 7) .s .s .s .z .wide .scope .ord 0x0000
  | .amoSwap => .C 0x3c (.code 8) .s .s .s .z .wide .scope .ord 0x0000
  | .cas => .C 0x3d (.code 0) .s .s .s .s .wide .scope .ord 0x0000
  | .fence => .C 0x3e (.code 0) .z .z .z .z .z .scope .z 0xffff
  | .fenceAcq => .C 0x3e (.code 1) .z .z .z .z .z .scope .z 0xffff
  | .fenceRel => .C 0x3e (.code 2) .z .z .z .z .z .scope .z 0xffff
  | .xfence => .C 0x3f (.code 0) .z .z .z .z .z .scope .z 0xc0c0
  | .ldfeTake => .B 0x40 (.code 0) .s .z
  | .ldfePeek => .B 0x40 (.code 1) .s .z
  | .stfeFill => .B 0x41 (.code 0) .s .z
  | .stfeForce => .B 0x41 (.code 1) .s .z
  | .stfeClear => .B 0x41 (.code 2) .z .z
  | .get => .C 0x42 (.code 0) .s .s .z .z .any .z .z 0x0000
  | .put => .C 0x43 (.code 0) .s .s .z .z .any .z .z 0x0000
  | .ramoAdd => .C 0x44 (.code 0) .s .s .s .z .wide .scope .ord 0x0000
  | .ramoAnd => .C 0x44 (.code 1) .s .s .s .z .wide .scope .ord 0x0000
  | .ramoOr => .C 0x44 (.code 2) .s .s .s .z .wide .scope .ord 0x0000
  | .ramoXor => .C 0x44 (.code 3) .s .s .s .z .wide .scope .ord 0x0000
  | .ramoSmin => .C 0x44 (.code 4) .s .s .s .z .wide .scope .ord 0x0000
  | .ramoSmax => .C 0x44 (.code 5) .s .s .s .z .wide .scope .ord 0x0000
  | .ramoUmin => .C 0x44 (.code 6) .s .s .s .z .wide .scope .ord 0x0000
  | .ramoUmax => .C 0x44 (.code 7) .s .s .s .z .wide .scope .ord 0x0000
  | .ramoSwap => .C 0x44 (.code 8) .s .s .s .z .wide .scope .ord 0x0000
  | .ramoFadd => .C 0x44 (.code 9) .s .s .s .z .word .scope .ord 0x0000
  | .flushWb => .B 0x45 (.code 0) .z .z
  | .flushWbi => .B 0x45 (.code 1) .z .z
  | .flushInv => .B 0x45 (.code 2) .z .z
  | .flushCode => .B 0x45 (.code 3) .z .z
  | .prefR => .B 0x46 (.code 0) .z .z
  | .prefW => .B 0x46 (.code 1) .z .z
  | .prefGw => .B 0x46 (.code 2) .z .z
  | .cwait => .C 0x47 (.code 0) .z .s .z .z .z .z .z 0xff00
  | .csig => .C 0x48 (.code 0) .z .s .z .z .z .z .z 0xff00
  | .cset => .C 0x49 (.code 0) .z .s .z .z .z .z .z 0xff00
  | .crd => .C 0x4a (.code 0) .s .z .z .z .z .z .z 0xff00
  | .bar => .A 0x4b (.code 0) .z .z .none
  | .barArrive => .A 0x4b (.code 1) .z .z .none
  | .barWait => .A 0x4b (.code 2) .z .z .none
  | .barrierToken => .event
  | .barrierRelease => .event
  | .vadd => .C 0x50 (.code 0) .v .v .v .z .et .rndF .et 0xffff
  | .vaddSat => .C 0x50 (.code 1) .v .v .v .z .et .z .et 0xffff
  | .vsub => .C 0x51 (.code 0) .v .v .v .z .et .rndF .et 0xffff
  | .vsubSat => .C 0x51 (.code 1) .v .v .v .z .et .z .et 0xffff
  | .vmul => .C 0x52 (.code 0) .v .v .v .z .et .rndF .et 0xffff
  | .vmulHi => .C 0x52 (.code 1) .v .v .v .z .et .z .et 0xffff
  | .vmulSat => .C 0x52 (.code 2) .v .v .v .z .et .z .et 0xffff
  | .vfma => .C 0x53 (.code 0) .v .v .v .v .et .rndF .et 0xffff
  | .vfmaMs => .C 0x53 (.code 1) .v .v .v .v .et .rndF .et 0xffff
  | .vfmaNm => .C 0x53 (.code 2) .v .v .v .v .et .rndF .et 0xffff
  | .vminmaxMin => .C 0x54 (.code 0) .v .v .v .z .et .rndF .et 0xffff
  | .vminmaxMax => .C 0x54 (.code 1) .v .v .v .z .et .rndF .et 0xffff
  | .vnegabsNeg => .C 0x55 (.code 0) .v .v .z .z .et .rndF .et 0xffff
  | .vnegabsAbs => .C 0x55 (.code 1) .v .v .z .z .et .rndF .et 0xffff
  | .vcvt => .C 0x56 .cvt .v .v .z .z .et .rndX .et 0xf8f8
  | .vcvtSat => .C 0x56 .cvtSat .v .v .z .z .et .rndX .et 0xf8f8
  | .vcmpEq => .C 0x57 (.code 0) .p .v .v .z .et .z .et 0xffff
  | .vcmpNe => .C 0x57 (.code 1) .p .v .v .z .et .z .et 0xffff
  | .vcmpLt => .C 0x57 (.code 2) .p .v .v .z .et .z .et 0xffff
  | .vcmpGe => .C 0x57 (.code 3) .p .v .v .z .et .z .et 0xffff
  | .vcmpLe => .C 0x57 (.code 4) .p .v .v .z .et .z .et 0xffff
  | .vcmpGt => .C 0x57 (.code 5) .p .v .v .z .et .z .et 0xffff
  | .vcmpUn => .C 0x57 (.code 6) .p .v .v .z .et .z .et 0xffff
  | .vsel => .C 0x58 .any .v .v .v .z .et .z .et 0xffff
  | .vredSum => .C 0x59 (.code 0) .v .v .z .z .et .rndF .et 0xffff
  | .vredMin => .C 0x59 (.code 1) .v .v .z .z .et .rndF .et 0xffff
  | .vredMax => .C 0x59 (.code 2) .v .v .z .z .et .rndF .et 0xffff
  | .vredAnd => .C 0x59 (.code 3) .v .v .z .z .et .z .et 0xffff
  | .vredOr => .C 0x59 (.code 4) .v .v .z .z .et .z .et 0xffff
  | .vredXor => .C 0x59 (.code 5) .v .v .z .z .et .z .et 0xffff
  | .vshufIdx => .C 0x5a (.code 0) .v .v .v .z .et .z .et 0xffff
  | .vshufRot => .C 0x5a (.code 1) .v .v .z .z .et .z .et 0x0000
  | .vshufLo => .C 0x5a (.code 2) .v .v .v .z .et .z .et 0xffff
  | .vshufHi => .C 0x5a (.code 3) .v .v .v .z .et .z .et 0xffff
  | .vshufRev => .C 0x5a (.code 4) .v .v .z .z .et .z .et 0xffff
  | .vbcastS => .C 0x5b (.code 0) .v .s .z .z .et .z .et 0xffff
  | .vbcastLane => .C 0x5b (.code 1) .v .v .z .z .et .z .et 0x0000
  | .vld => .C 0x5c (.code 0) .v .s .s .s .et .z .et 0x0000
  | .vldStr => .C 0x5c (.code 1) .v .s .s .s .et .z .et 0x0000
  | .vst => .C 0x5d (.code 0) .v .s .s .s .et .z .et 0x0000
  | .vstStr => .C 0x5d (.code 1) .v .s .s .s .et .z .et 0x0000
  | .vgth => .C 0x5e (.code 0) .v .s .v .s .et .z .et 0x0000
  | .vsct => .C 0x5f (.code 0) .v .s .v .s .et .z .et 0x0000
  | .vspecRcp => .C 0x60 (.code 0) .v .v .z .z .et .rndF .et 0xffff
  | .vspecRsqrt => .C 0x60 (.code 1) .v .v .z .z .et .rndF .et 0xffff
  | .vspecSqrt => .C 0x60 (.code 2) .v .v .z .z .et .rndF .et 0xffff
  | .vspecDiv => .C 0x60 (.code 3) .v .v .v .z .et .rndF .et 0xffff
  | .vspecExp2 => .C 0x60 (.code 4) .v .v .z .z .et .rndF .et 0xffff
  | .vspecLog2 => .C 0x60 (.code 5) .v .v .z .z .et .rndF .et 0xffff
  | .vspecTanh => .C 0x60 (.code 6) .v .v .z .z .et .rndF .et 0xffff
  | .vdotQ => .C 0x61 (.code 0) .v .v .v .z .et .z .et 0xffff
  | .vdotP => .C 0x61 (.code 1) .v .v .v .z .et .rndF .et 0xffff
  | .vamax => .C 0x62 (.code 0) .v .v .z .z .et .rndF .et 0xfff8
  | .vscale => .C 0x63 (.code 0) .v .v .z .z .et .rnd .et 0xfff8
  | .vquant => .C 0x64 (.code 0) .v .v .v .z .et .rnd .et 0xfff8
  | .vtbl => .C 0x65 (.code 0) .v .v .z .z .et .rnd .et 0xfffc
  | .venc => .C 0x66 (.code 0) .v .v .z .z .et .z .et 0xfffc
  | .vintAnd => .C 0x67 (.code 0) .v .v .v .z .et .z .et 0xffff
  | .vintOr => .C 0x67 (.code 1) .v .v .v .z .et .z .et 0xffff
  | .vintXor => .C 0x67 (.code 2) .v .v .v .z .et .z .et 0xffff
  | .vintAndn => .C 0x67 (.code 3) .v .v .v .z .et .z .et 0xffff
  | .vintShl => .C 0x67 (.code 4) .v .v .v .z .et .z .et 0xffff
  | .vintShr => .C 0x67 (.code 5) .v .v .v .z .et .z .et 0xffff
  | .vintSra => .C 0x67 (.code 6) .v .v .v .z .et .z .et 0xffff
  | .vintPopc => .C 0x67 (.code 7) .v .v .z .z .et .z .et 0xffff
  | .vseq => .A 0x68 (.code 0) .z .s .disp
  | .vseqe => .A 0x69 (.code 0) .z .s .disp
  | .gang2 => .A 0x6a (.code 0) .z .z .none
  | .gang4 => .A 0x6a (.code 1) .z .z .none
  | .gang8 => .A 0x6a (.code 2) .z .z .none
  | .gangFormation => .event
  | .ungang => .A 0x6b (.code 0) .z .z .none
  | .vectorSequencerExecute => .event
  | .mlat => .C 0x6c (.code 0) .g .s .v .s .et .z .et 0x0000
  | .mma => .C 0x6d (.code 0) .a .s .s .z .et .rnd .et 0x00f8
  | .mmas => .C 0x6e (.code 0) .a .s .s .v .et .rnd .et 0x00f8
  | .matrixQueueIssue => .event
  | .matrixOperandReadEnd => .event
  | .matrixAccumulatorWrite => .event
  | .consumedSignal => .event
  | .maccZero => .C 0x6f (.code 0) .a .z .z .z .et .z .et 0xffff
  | .maccLd => .C 0x6f (.code 1) .a .s .z .z .et .z .et 0x0000
  | .maccSt => .C 0x6f (.code 2) .a .s .z .z .et .z .et 0x0000
  | .maccCvt => .C 0x6f (.code 3) .a .s .z .z .et .rnd .et 0x0000
  | .gaitl => .C 0x70 (.code 0) .k .s .z .z .z .z .z 0x0000
  | .mgait => .C 0x71 .gait .a .s .s .z .et .rnd .et 0x00f8
  | .spurCfg => .C 0x78 (.code 0) .s .s .z .z .z .z .z 0x0000
  | .spurPost => .C 0x78 (.code 1) .z .s .s .z .z .z .z 0xffff
  | .spurTick => .C 0x78 (.code 2) .s .s .z .z .z .z .z 0xffff
  | .spurRead => .C 0x78 (.code 3) .s .s .z .z .z .z .z 0xffff
  | .spurDrain => .C 0x78 (.code 4) .s .z .z .z .z .z .z 0xffff
  | .spurEventArrival => .event
  | .spurEventRetry => .event
  | .paceTickClose => .event
  | .closeResume => .event
  | .sendUni => .C 0x74 (.code 0) .s .s .s .s .z .z .z 0x0080
  | .sendMulti => .C 0x74 (.code 1) .s .s .s .s .z .z .z 0x0080
  | .sendReply => .C 0x74 (.code 2) .s .s .z .z .z .z .z 0xfff0
  | .taskArrival => .event
  | .messageRetry => .event
  | .overflowReentry => .event
  | .replyDelivery => .event
  | .workStart => .event
  | .dequeStealProbe => .event
  | .cpy => .C 0x75 (.code 0) .s .s .s .s .z .z .z 0xfe00
  | .gth => .C 0x76 (.code 0) .s .s .s .s .z .z .z 0xc400
  | .gthLatch => .C 0x76 (.code 0) .z .s .s .s .z .z .z 0xc000
  | .copyCommand => .event
  | .gatherCommand => .event
  | .commandRetire => .event
  | .collReduce => .C 0x77 (.code 0) .s .s .s .s .z .z .z 0xfe00
  | .collRegister => .C 0x77 (.code 0) .s .s .s .s .z .z .z 0xfe00
  | .collBcast => .C 0x77 (.code 1) .s .s .s .s .z .z .z 0xfe00
  | .collJoin => .C 0x77 (.code 2) .z .z .s .s .z .z .z 0xfe00
  | .collDigest => .C 0x77 (.code 3) .s .s .s .z .z .z .z 0xfe00
  | .collectiveEpisode => .event
  | .classMask => .C 0x79 (.code 0) .s .s .z .z .z .z .z 0xffff
  | .classUnmask => .C 0x79 (.code 1) .s .s .z .z .z .z .z 0xffff
  | .classTest => .C 0x79 (.code 2) .s .s .z .z .z .z .z 0xffff
  | .launch => .C 0x7a (.code 0) .s .s .z .z .z .z .z 0xffff
  | .launchSteal => .C 0x7a (.code 1) .z .s .z .z .z .z .z 0xffff
  | .launchPreempt => .event
  | .launchResume => .event
  | .launchCancel => .event
  | .preemptionSave => .event
  | .launchEntry => .event
  | .coreLeave => .event
  | .unitRefill => .event
  | .stealRequest => .event
  | .stealAnswer => .event
  | .launchEnd => .event
  | .graphDecrement => .event
  | .sysCsrr => .C 0x7b (.code 0) .s .z .z .z .z .z .z 0xff00
  | .sysCsrw => .C 0x7b (.code 1) .z .s .z .z .z .z .z 0xff00
  | .sysCsrx => .C 0x7b (.code 2) .s .s .z .z .z .z .z 0xff00
  | .registerWrite => .event
  | .dectabStore => .event
  | .dectabSelect => .event
  | .plbWrite => .event
  | .detmodeWrite => .event
  | .featackWrite => .event
  | .ctlprioWrite => .event
  | .tandemOn => .C 0x7c (.code 0) .s .z .z .z .z .z .z 0xffff
  | .tandemOff => .C 0x7c (.code 1) .s .z .z .z .z .z .z 0xffff
  | .tandemFormation => .event
  | .ownGive => .C 0x7d (.code 0) .s .s .z .z .z .z .z 0xfe00
  | .ownQuery => .C 0x7d (.code 1) .s .s .z .z .z .z .z 0xffff
  | .leaseRenew => .C 0x7e (.code 0) .s .s .s .z .z .z .z 0x0000
  | .stackCloseEnd => .event
  | .stackDrainEnd => .event
  | .stackWriteBackEnd => .event
  | .stackLeaseWaitEnd => .event
  | .stackSwitch => .event
  | .remoteAccessAtHome => .event
  | .remoteAckArrival => .event
  | .getValueReturn => .event
  | .gatewayLineFill => .event
  | .gatewayLineExpiry => .event
  | .translationExpiry => .event
  | .engineLeaseRenew => .event
  | .remapNack => .event
  | .pagerService => .event
  | .contextWake => .event
  | .waitLimit => .event
  | .sleepTimeout => .event
  | .hang => .event
  | .rotationArm => .event
  | .drain => .event
  | .abort => .event
  | .newMap => .event
  | .copyState => .event
  | .resumeTile => .event
  | .retire => .event
  | .test => .event
  | .maint => .event
  | .maintEnd => .event
  | .farrierHold => .event
  | .ckoff => .event
  | .suspectClear => .event
  | .counterClear => .event
  | .faultCountClear => .event
  | .exposureCount => .event
  | .wearFuseWrite => .event
  | .checkpointEpoch => .event
  | .siteLoss => .event
  | .fingerprintExchange => .event
  | .flitForward => .event
  | .linkReplay => .event
  | .injectorArm => .event
  | .injectorTrigger => .event
  | .linkControlWrite => .event
  | .linkChangeDone => .event
  | .tetherArrival => .event
  | .paceBeacon => .event
  | .beaconMiss => .event
  | .clockStretch => .event
  | .referenceLoss => .event
  | .panelReset => .event
  | .bridgeLaunchWrite => .event
  | .bridgeDataWrite => .event
  | .bridgeDataRead => .event
  | .bridgeControlWrite => .event
  | .unsupportedRequest => .event
  | .attestationRequest => .event
  | .attestationReportReady => .event
  | .debugUnlock => .event
  | .debugHalt => .event
  | .debugObserve => .event
  | .lifeCycleMove => .event
  | .dieDrowsy => .event
  | .panelPark => .event
  | .active => .event
  | .tileIdle => .event
  | .refusedClear => .event
  | .protectionDescriptorStore => .event
  | .referenceReturn => .event
  | .deliveryAnswer => .event
  | .scrub => .event
  | .debugRelock => .event

/-- The major opcode of an encoded instruction. -/
def Instr.major (i : Instr) : Nat :=
  match i.info with
  | .A m _ _ _ _ => m
  | .B m _ _ _ => m
  | .C m _ _ _ _ _ _ _ _ _ => m
  | .event => 0

/-- A register field lies in its class (R80) or is zero where it is not used (R81). -/
def Cls.ok (c : Cls) (x : BitVec 5) : Bool :=
  match c with
  | .z => x == 0
  | .s => true
  | .v => true
  | .p => decide (x.toNat < 8)
  | .a => decide (x.toNat < 8)
  | .g => decide (x.toNat < 2)
  | .k => decide (x.toNat < 4)

/-- The sync halfword is allowed: mode 11 on counter 255 is not (Table 35). -/
def syncOk : Option Half → Bool
  | none => true
  | some h => !(h.extractLsb' 14 2 == 3 && h.extractLsb' 6 8 == 255)

/-- Halfwords T does not supply read as zero (R76); fields form A does not have are zero. -/
def Fields.shapeA (o : Fields) : Bool :=
  o.fn.extractLsb' 3 3 == 0 && o.s3 == 0 && o.sz == 0 && o.sc == 0 && o.md == 0 &&
  (o.t != 0 || (o.pg == 0 && o.s1 == 0 && o.s2 == 0 && o.fn == 0)) &&
  (decide (2 ≤ o.t.toNat) || o.imm == 0) && (o.t == 3 || o.imm.extractLsb' 16 16 == 0)

/-- Form B has the fields of form A and accepts T = 1–3 (R76). -/
def Fields.shapeB (o : Fields) : Bool := o.shapeA && o.t != 0

/-- Form C accepts T = 2–3 (R76). -/
def Fields.shapeC (o : Fields) : Bool :=
  decide (2 ≤ o.t.toNat) && (o.t == 3 || o.imm == 0) && o.imm.extractLsb' 16 16 == 0

/-- The S2 and IMM fields of a form A instruction (R77, R81, R132). -/
def BUse.ok (b : BUse) (o : Fields) : Bool :=
  match b with
  | .none => o.s2 == 0 && o.imm == 0
  | .reg => decide (o.t.toNat < 2) || o.s2 == 0
  | .disp => o.s2 == 0
  | .pred => decide (o.s2.toNat < 8) && o.imm == 0 && (decide (o.t.toNat < 2) || o.s2 == 0)

/-- SZ (R79, R181, R191). -/
def SzUse.ok (u : SzUse) (o : Fields) : Bool :=
  match u with
  | .z => o.sz == 0
  | .any => true
  | .wide => decide (2 ≤ o.sz.toNat)
  | .word => o.sz == 2
  | .et => decide (o.et < 22)

/-- MOD (R79, R181): an ordering of 0 goes with scope 0. -/
def MdUse.ok (u : MdUse) (o : Fields) : Bool :=
  match u with
  | .z => o.md == 0
  | .ord => decide (o.md.toNat < 4) && (o.md != 0 || o.sc == 0)
  | .et => true

/-- SC (R79, R204): codes 6 and 7 are reserved; where SC is not used it is zero. -/
def ScUse.ok (u : ScUse) (dst : Nat) (o : Fields) : Bool :=
  match u with
  | .z => o.sc == 0
  | .scope => decide (o.sc.toNat < 6)
  | .rnd => decide (o.sc.toNat < 6)
  | .rndF => decide (o.sc.toNat < 6) && (o.sc == 0 || (decide (6 ≤ o.et) && decide (o.et ≤ 8)))
  | .rndX => decide (o.sc.toNat < 6) && (o.sc == 0 || (decide (6 ≤ dst) && decide (dst ≤ 13)))

/-- Number of elements of one register under an element type (Table 66). -/
def elemCount (et : Nat) : Nat :=
  if et = 5 then 8 else if et = 0 ∨ et = 4 ∨ et = 6 then 16 else if et = 3 ∨ et = 7 ∨ et = 8 then 32
  else if et = 11 ∨ et = 12 then 84 else if et = 13 then 128 else 64

/-- Element width in bits (Table 66, and the element format of the MX types, R105). -/
def elemWidth (et : Nat) : Nat :=
  if et = 5 then 64 else if et = 0 ∨ et = 4 ∨ et = 6 then 32 else if et = 3 ∨ et = 7 ∨ et = 8 then 16
  else if et = 11 ∨ et = 12 ∨ et = 18 ∨ et = 19 then 6 else if et = 13 ∨ et = 20 then 4 else 8

/-- Elements of a block by BLK (R54): 8, 16, 32, 64, 128 for codes 1–5. -/
def blockLen (blk : Nat) : Nat := 2 ^ (blk + 2)

/-- Bytes of a block frame: 1 + n × w / 8 (R106, Table 43). -/
def frameBytes (et blk : Nat) : Nat := 1 + blockLen blk * elemWidth et / 8

/-- The part and group limits of VCVT that its encoding decides (R205, R209). A BLK that is not zero with an
ET below 16 fails first; a pair of types that is not accepted has no other limits and traps FORMAT: DESIGN CHOICE (log 48). -/
def vcvtOk (dst : Nat) (o : Fields) : Bool :=
  let p := (o.imm.extractLsb' 0 3).toNat
  let blk := (o.imm.extractLsb' 8 3).toNat
  if 16 ≤ o.et then
    -- MX source: elements 16p .. 16p + 15 of consecutive frames within at most 4 registers
    if dst ≠ 6 then true
    else if blk = 0 ∨ 5 < blk then false
    else
      let last := (16 * p + 15) / blockLen blk
      let g := ((last + 1) * frameBytes o.et blk + 63) / 64
      decide (g ≤ 4) && decide (o.s1.toNat + g ≤ 32)
  else if blk ≠ 0 then false
  else if o.et = 0 ∨ o.et = 15 ∨ 14 ≤ dst ∨ (o.et = 14 ∧ dst ≠ 6) then true
  else
    let cs := elemCount o.et
    let cd := elemCount dst
    decide (p < (max cs cd + min cs cd - 1) / min cs cd)

/-- Registers of the input group of a block instruction, max(1, n / 16) (R215). -/
def blockRegs (blk : Nat) : Nat := max 1 (blockLen blk / 16)

/-- Blocks of one block instruction, max(1, 16 / n) (R215). -/
def blockNum (blk : Nat) : Nat := max 1 (16 / blockLen blk)

/-- Registers of the frame image VSCALE and VQUANT write (R217). -/
def frameRegs (et blk : Nat) : Nat := (blockNum blk * frameBytes et blk + 63) / 64

/-- BLK 1–5 and both register groups within v31 (R205, R215, R217); `img`: a frame image is written. DESIGN CHOICE (log 48): BLK and the input
group are checked before FORMAT of an ET that is not accepted, the output group only for an MX type. -/
def blockOk (img : Bool) (o : Fields) : Bool :=
  let blk := (o.imm.extractLsb' 0 3).toNat
  decide (1 ≤ blk) && decide (blk ≤ 5) && decide (o.s1.toNat + blockRegs blk ≤ 32) &&
    (!img || decide (o.et < 16) || decide (o.d.toNat + frameRegs o.et blk ≤ 32))

/-- The consumed counter field is zero when CS = 0 (Table 71). -/
def consumedOk (o : Fields) : Bool := o.imm.getLsbD 2 || o.imm.extractLsb' 8 8 == 0

/-- Field limits of single instructions that no class expresses. -/
def Inst.extraOk (i : Inst) : Bool :=
  let o := i.o
  match i.row with
  | .sleep => !(o.t == 3 && o.imm.getLsbD 31) && !(o.t == 2 && o.imm.getLsbD 15)
  | .nopPhase => decide (o.imm.toNat < 256)
  | .xfence => o.imm.extractLsb' 0 6 != 0 && o.imm.extractLsb' 8 6 != 0
  | .vsel => o.fn.extractLsb' 3 3 == 0
  | .vcvt => vcvtOk (o.fn.toNat % 32) o
  | .vcvtSat => vcvtOk (o.fn.toNat % 32) o
  | .vamax => blockOk false o
  | .vscale => blockOk true o
  | .vquant => blockOk true o
  | .vld => decide (16 ≤ o.et) || o.s3 == 0
  | .vst => decide (16 ≤ o.et) || o.s3 == 0
  | .mma => consumedOk o
  | .mmas => consumedOk o && decide (o.s3.toNat ≤ 30)
  | .mgait => consumedOk o
  | .sendUni => decide (o.s1.toNat ≤ 26) && (o.imm.getLsbD 6 || (o.s3 == 0 && o.imm.extractLsb' 8 8 == 0))
  | .sendMulti => decide (o.s1.toNat ≤ 27) && (o.imm.getLsbD 6 || o.imm.extractLsb' 8 8 == 0)
  | .sendReply => decide (o.s1.toNat ≤ 26)
  | .gthLatch => o.imm.extractLsb' 11 3 == 1
  | _ => true

/-- No field of the instruction breaks R77, R79, R80, R81, Table 35 or its own limits: step 3 of R86 finds nothing. -/
def Inst.fieldsOk (i : Inst) : Bool :=
  let o := i.o
  o.r0 == 0 && syncOk o.sync && i.extraOk &&
  match i.row.info with
  | .A _ _ d s1 b => d.ok o.d && s1.ok o.s1 && b.ok o
  | .B _ _ d s2 => d.ok o.d && s2.ok o.s2
  | .C _ _ d s1 s2 s3 sz sc md immz =>
      d.ok o.d && s1.ok o.s1 && s2.ok o.s2 && s3.ok o.s3 && sz.ok o && md.ok o &&
        sc.ok (o.fn.toNat % 32) o && o.imm16 &&& immz == 0
  | .event => true

/-- The operand tail has a length its form accepts and no halfword beyond it (R76). -/
def Inst.shapeOk (i : Inst) : Bool :=
  match i.row.info with
  | .A _ _ _ _ _ => i.o.shapeA
  | .B _ _ _ _ => i.o.shapeB
  | .C _ _ _ _ _ _ _ _ _ _ => i.o.shapeC
  | .event => true

/-- The function code is one the row lists: VCVT destinations 1–15; of MGAIT the codes 0 to 3, so that a nonzero FN[5:2], which Table 71 calls zero,
is ILLEGAL as every unlisted code is (R85; log 19). -/
def FnUse.ok (u : FnUse) (fn : BitVec 6) : Bool :=
  match u with
  | .code n => fn.toNat == n
  | .any => true
  | .cvt => fn != 0 && decide (fn.toNat < 16)
  | .cvtSat => decide (32 < fn.toNat) && decide (fn.toNat < 48)
  | .gait => decide (fn.toNat < 4)

/-- The function-code use of a row; an event has none. -/
def Info.fnUse : Info → Option FnUse
  | .A _ u _ _ _ => some u
  | .B _ u _ _ => some u
  | .C _ u _ _ _ _ _ _ _ _ => some u
  | .event => none

/-- The row is an encoded one and its function code is listed; a GTH names its latch form by IMM16 [9] (R287); a COLL.reduce
word names COLL_REDUCE, and what its parameter word registers is found when it runs (R292). -/
def Inst.listed (i : Inst) : Bool :=
  (match i.row.info.fnUse with | some u => u.ok i.o.fn | none => false) &&
  match i.row with
  | .gth => !i.o.imm.getLsbD 9
  | .gthLatch => i.o.imm.getLsbD 9
  | .collRegister => false
  | _ => true

/-- A well-formed instruction: listed, of an accepted shape, with no reserved field set. -/
def Inst.wellFormed (i : Inst) : Bool := i.listed && i.shapeOk && i.fieldsOk

end Sys2Proof
end

