-- ==== Sys2Proof/Machine/Flags.lean ====
section
/-! DEFINITION. Number formats, rounding, flags and NaN payloads (chapter Number Formats and Arithmetic, R96–R124).
Every unit decodes and rounds through these definitions. A finite value is an exact magnitude m × 2^e, so each operation is
computed exactly and narrowed once by `roundTo`. -/

namespace Sys2Proof.Machine

/-- FFLAGS [4:0] (Table 21). -/
abbrev FFlags := BitVec 5

/-- NX, UF, OF, DZ and NV (Table 21). -/
def fNX : FFlags := 1
def fUF : FFlags := 2
def fOF : FFlags := 4
def fDZ : FFlags := 8
def fNV : FFlags := 16

/-- A flag raised when a condition holds. -/
def flagIf (f : FFlags) (b : Bool) : FFlags := if b then f else 0

/-- How a format codes its special values (Table 42). -/
inductive Specials where
  /-- Infinities and NaNs as IEEE 754. -/
  | ieee
  /-- No infinity; S.1111.111 is the NaN (FP8 E4M3). -/
  | e4m3
  /-- Every code is finite (FP6, FP4). -/
  | finite
deriving DecidableEq, Repr

/-- A floating-point format of Table 42: fraction bits, exponent bits, bias, special values. -/
structure Fmt where
  mb : Nat
  eb : Nat
  bias : Nat
  sp : Specials
deriving DecidableEq, Repr

def Fmt.f32 : Fmt := ⟨23, 8, 127, .ieee⟩
def Fmt.f16 : Fmt := ⟨10, 5, 15, .ieee⟩
def Fmt.bf16 : Fmt := ⟨7, 8, 127, .ieee⟩
def Fmt.e8m10 : Fmt := ⟨10, 8, 127, .ieee⟩
def Fmt.e4m3 : Fmt := ⟨3, 4, 7, .e4m3⟩
def Fmt.e5m2 : Fmt := ⟨2, 5, 15, .ieee⟩
def Fmt.e3m2 : Fmt := ⟨2, 3, 3, .finite⟩
def Fmt.e2m3 : Fmt := ⟨3, 2, 1, .finite⟩
def Fmt.e2m1 : Fmt := ⟨1, 2, 1, .finite⟩

/-- Width of an encoding in bits. -/
def Fmt.width (f : Fmt) : Nat := f.mb + f.eb + 1

/-- Magnitude code of the largest finite value (Table 42). -/
def Fmt.maxFin (f : Fmt) : Nat :=
  match f.sp with
  | .ieee => (2 ^ f.eb - 1) * 2 ^ f.mb - 1
  | .e4m3 => 2 ^ (f.eb + f.mb) - 2
  | .finite => 2 ^ (f.eb + f.mb) - 1

/-- Magnitude code of infinity. -/
def Fmt.infCode (f : Fmt) : Nat := (2 ^ f.eb - 1) * 2 ^ f.mb

/-- A magnitude code with a sign. -/
def Fmt.signed (f : Fmt) (neg : Bool) (code : Nat) : Nat := if neg then 2 ^ (f.mb + f.eb) + code else code

/-- A decoded value: a NaN as its FP32 bits with its signalling mark, an infinity, or (−1)^neg × m × 2^e. -/
inductive FVal where
  | nan (b : Nat) (sig : Bool)
  | inf (neg : Bool)
  | fin (neg : Bool) (m : Nat) (e : Int)
deriving DecidableEq, Repr

/-- The quiet bit of FP32. -/
def quietBit : Nat := 0x400000

/-- Set the quiet bit of an FP32 NaN (R119 rule 1). -/
def quieten (b : Nat) : Nat := b ||| quietBit

/-- A generated NaN with the payload of Table 45 (R116): sign 0, quiet. -/
def genNaN (cls idx ctxn unit : Nat) : Nat :=
  0x7fc00000 + cls % 16 * 2 ^ 18 + idx % 1024 * 2 ^ 8 + ctxn % 16 * 2 ^ 4 + unit % 16

/-- Who generates a NaN (R116): unit, context number, index. -/
structure NanId where
  unit : Nat
  ctxn : Nat
  idx : Nat
deriving DecidableEq, Repr

/-- A NaN of a class of Table 46. -/
def NanId.gen (n : NanId) (cls : Nat) : Nat := genNaN cls n.idx n.ctxn n.unit

/-- Decode an encoding. An FP8 NaN widens to `n8` (R119 rule 5); other NaNs widen by appending zeros (R119 rule 4);
the signalling mark follows R103. -/
def Fmt.decode (f : Fmt) (n8 : Nat) (x : Nat) : FVal :=
  let frac := x % 2 ^ f.mb
  let ex := x / 2 ^ f.mb % 2 ^ f.eb
  let neg := x / 2 ^ (f.mb + f.eb) % 2 == 1
  let fin : FVal :=
    if ex = 0 then .fin neg frac (1 - f.bias - f.mb) else .fin neg (2 ^ f.mb + frac) ((ex : Int) - f.bias - f.mb)
  match f.sp with
  | .finite => fin
  | .e4m3 => if ex = 2 ^ f.eb - 1 ∧ frac = 2 ^ f.mb - 1 then .nan n8 false else fin
  | .ieee =>
    if ex < 2 ^ f.eb - 1 then fin
    else if frac = 0 then .inf neg
    else
      let sig := frac / 2 ^ (f.mb - 1) % 2 == 0
      if f.eb = 5 ∧ f.mb = 2 then .nan n8 sig
      else .nan ((if neg then 2 ^ 31 else 0) + 0x7f800000 + frac * 2 ^ (23 - f.mb)) sig

/-- An FP32 encoding decoded. -/
def f32 (x : Nat) : FVal := Fmt.f32.decode 0 x

/-- Narrow an FP32 NaN (R119 rule 3, Table 47). -/
def Fmt.narrowNaN (f : Fmt) (b : Nat) : Nat :=
  let neg := b / 2 ^ 31 % 2 == 1
  match f.sp with
  | .finite => 0
  | .e4m3 => f.signed neg 0x7f
  | .ieee =>
    if f.mb = 2 then f.signed neg (f.infCode + 3)
    else f.signed neg (f.infCode + (quieten b % 2 ^ 23 / 2 ^ (23 - f.mb)))

/-- Number of bits of a magnitude. -/
def bitLen (m : Nat) : Nat := if m = 0 then 0 else Nat.log2 m + 1

/-- Whether the part of a magnitude below one unit rounds away from zero (R110, R112): `n` the whole units, `r / 2^sh` the
rest, `st` a nonzero rest below it; mode 0 RNE, 1 RTZ, 2 RUP, 3 RDN, 4 stochastic with the 24 bits `rnd`. -/
def roundsUp (mode rnd : Nat) (neg : Bool) (n r sh : Nat) (st : Bool) : Bool :=
  let inexact := r != 0 || st
  match mode with
  | 0 => decide (2 ^ sh < 2 * r) || (2 * r == 2 ^ sh && sh != 0 && (st || n % 2 == 1))
  | 1 => false
  | 2 => inexact && !neg
  | 3 => inexact && neg
  | _ => inexact && decide (2 ^ 24 ≤ r * 2 ^ 24 / 2 ^ sh + rnd)

/-- A magnitude m × 2^e rounded to whole units of 2^q: the units and whether a rest was dropped. -/
def roundUnits (mode rnd : Nat) (neg : Bool) (m : Nat) (e : Int) (st : Bool) (q : Int) : Nat × Bool :=
  if q ≤ e then (m * 2 ^ (e - q).toNat, st)
  else
    let sh := (q - e).toNat
    let n := m / 2 ^ sh
    let r := m % 2 ^ sh
    (if roundsUp mode rnd neg n r sh st then n + 1 else n, r != 0 || st)

/-- The result of an overflow (Tables 44 and 47). -/
def Fmt.overflow (f : Fmt) (mode : Nat) (sat neg : Bool) : Nat :=
  match f.sp with
  | .finite => f.signed neg f.maxFin
  | .e4m3 => if sat then f.signed neg f.maxFin else f.signed neg 0x7f
  | .ieee =>
    if sat then f.signed neg f.maxFin
    else if mode = 1 ∨ (mode = 2 ∧ neg = true) ∨ (mode = 3 ∧ neg = false) then f.signed neg f.maxFin
    else f.signed neg f.infCode

/-- Round a magnitude m × 2^e (with a further nonzero rest when `st`) to a format: the encoding and the flags of
R111, R114 and R115. -/
def roundTo (f : Fmt) (mode rnd : Nat) (sat neg : Bool) (m : Nat) (e : Int) (st : Bool) : Nat × FFlags :=
  if m = 0 then (f.signed neg 0, 0)
  else
    let qmin : Int := 1 - f.bias - f.mb
    let qfree : Int := e + bitLen m - 1 - f.mb
    let q := max qmin qfree
    let (n, inexact) := roundUnits mode rnd neg m e st q
    let code := (q - qmin).toNat * 2 ^ f.mb + n
    if f.maxFin < code then (f.overflow mode sat neg, fOF ||| fNX)
    else
      let (n', _) := roundUnits mode rnd neg m e st qfree
      let tiny := decide (qfree < qmin) && decide ((n' : Int) * 2 ^ (qfree - (qmin - 1200)).toNat < 2 ^ (f.mb + 1200))
      (f.signed neg code, flagIf fNX inexact ||| flagIf fUF (tiny && inexact))

/-- An exact result before its single rounding: a NaN in FP32 bits, an infinity, or a magnitude with a sign and a mark for a
nonzero rest below it. -/
inductive Exact where
  | nan (b : Nat)
  | inf (neg : Bool)
  | fin (neg : Bool) (m : Nat) (e : Int) (st : Bool)
deriving DecidableEq, Repr

/-- An exact result with the flags its operation raised. -/
abbrev ExactF := Exact × FFlags

/-- The operand read as an exact value; a NaN is made quiet. -/
def FVal.exact : FVal → Exact
  | .nan b _ => .nan (quieten b)
  | .inf n => .inf n
  | .fin n m e => .fin n m e false

/-- The value is a NaN. -/
def FVal.isNaN : FVal → Bool
  | .nan _ _ => true
  | _ => false

/-- The value is a signalling NaN. -/
def FVal.isSig : FVal → Bool
  | .nan _ s => s
  | _ => false

/-- The value is a zero. -/
def FVal.isZero : FVal → Bool
  | .fin _ m _ => m == 0
  | _ => false

/-- The value is an infinity. -/
def FVal.isInf : FVal → Bool
  | .inf _ => true
  | _ => false

/-- The sign of a value. -/
def FVal.neg : FVal → Bool
  | .nan b _ => b / 2 ^ 31 % 2 == 1
  | .inf n => n
  | .fin n _ _ => n

/-- Change the sign of a value. -/
def FVal.negate : FVal → FVal
  | .nan b s => .nan b s
  | .inf n => .inf (!n)
  | .fin n m e => .fin (!n) m e

/-- The first NaN in operand order, made quiet, with NV when any operand signals (R119 rule 1, R115). -/
def firstNaN : List FVal → Option ExactF
  | [] => none
  | .nan b s :: r => some (.nan (quieten b), flagIf fNV (s || r.any FVal.isSig))
  | x :: r => (firstNaN r).map (fun y => (y.1, y.2 ||| flagIf fNV x.isSig))

/-- A signed whole number of units 2^e for the finite value. -/
def signedMant (neg : Bool) (m : Nat) : Int := if neg then -(m : Int) else m

/-- Exact sum of two finite values; an exact zero has the sign of R102. -/
def sumFin (mode : Nat) (n1 : Bool) (m1 : Nat) (e1 : Int) (n2 : Bool) (m2 : Nat) (e2 : Int) : Exact :=
  let e := min e1 e2
  let t := signedMant n1 (m1 * 2 ^ (e1 - e).toNat) + signedMant n2 (m2 * 2 ^ (e2 - e).toNat)
  if t = 0 then .fin (if n1 == n2 then n1 else mode == 3) 0 e false
  else .fin (decide (t < 0)) t.natAbs e false

/-- x + y for operands that are no NaN; ∞ − ∞ generates `gn`. -/
def addNum (mode gn : Nat) (x y : FVal) : ExactF :=
  match x, y with
  | .inf a, .inf b => if a == b then (.inf a, 0) else (.nan gn, fNV)
  | .inf a, _ => (.inf a, 0)
  | _, .inf b => (.inf b, 0)
  | .fin n1 m1 e1, .fin n2 m2 e2 => (sumFin mode n1 m1 e1 n2 m2 e2, 0)
  | x, _ => (x.exact, 0)

/-- x + y (R102, R119). -/
def opAdd (mode gn : Nat) (x y : FVal) : ExactF :=
  match firstNaN [x, y] with
  | some r => r
  | none => addNum mode gn x y

/-- The exact product of operands that are no NaN; none for 0 × ∞. -/
def mulNum (x y : FVal) : Option FVal :=
  match x, y with
  | .fin n1 m1 e1, .fin n2 m2 e2 => some (.fin (n1 != n2) (m1 * m2) (e1 + e2))
  | x, y => if x.isZero || y.isZero then none else some (.inf (x.neg != y.neg))

/-- x × y. -/
def opMul (gn : Nat) (x y : FVal) : ExactF :=
  match firstNaN [x, y] with
  | some r => r
  | none =>
    match mulNum x y with
    | none => (.nan gn, fNV)
    | some p => (p.exact, 0)

/-- x × y + c, fused; 0 × ∞ sets NV even with a quiet NaN addend (R140). -/
def opFma (mode gn : Nat) (x y c : FVal) : ExactF :=
  let zi := (x.isInf && y.isZero) || (y.isInf && x.isZero)
  match firstNaN [x, y, c] with
  | some r => (r.1, r.2 ||| flagIf fNV zi)
  | none =>
    match mulNum x y with
    | none => (.nan gn, fNV)
    | some p => addNum mode gn p c

/-- x ÷ y (Table 55, R115). -/
def opDiv (gn : Nat) (x y : FVal) : ExactF :=
  match firstNaN [x, y] with
  | some r => r
  | none =>
    let neg := x.neg != y.neg
    match x, y with
    | .inf _, .inf _ => (.nan gn, fNV)
    | .inf _, _ => (.inf neg, 0)
    | _, .inf _ => (.fin neg 0 0 false, 0)
    | .fin _ m1 e1, .fin _ m2 e2 =>
      if m2 = 0 then (if m1 = 0 then (.nan gn, fNV) else (.inf neg, fDZ))
      else
        let k := bitLen m2 + 80
        let num := m1 * 2 ^ k
        (.fin neg (num / m2) (e1 - e2 - k) (num % m2 != 0), 0)
    | x, _ => (x.exact, 0)

/-- One binary digit of an integer square root per unit of fuel. -/
def isqrtAux : Nat → Nat → Nat
  | 0, _ => 0
  | k + 1, n =>
    let r := 2 * isqrtAux k (n / 4)
    if (r + 1) * (r + 1) ≤ n then r + 1 else r

/-- Floor of the square root. -/
def isqrt (n : Nat) : Nat := isqrtAux (bitLen n / 2 + 1) n

/-- √x (Table 55). -/
def opSqrt (gn : Nat) (x : FVal) : ExactF :=
  match firstNaN [x] with
  | some r => r
  | none =>
    match x with
    | .fin neg m e =>
      if m = 0 then (.fin neg 0 0 false, 0)
      else if neg then (.nan gn, fNV)
      else
        let (m, e) := if e % 2 = 0 then (m * 2 ^ 160, e - 160) else (m * 2 ^ 161, e - 161)
        let r := isqrt m
        (.fin false r (e / 2) (r * r != m), 0)
    | .inf neg => if neg then (.nan gn, fNV) else (.inf false, 0)
    | x => (x.exact, 0)

/-- 1 ÷ √x (Table 55). -/
def opRsqrt (gn : Nat) (x : FVal) : ExactF :=
  match firstNaN [x] with
  | some r => r
  | none =>
    match x with
    | .fin neg m e =>
      if m = 0 then (.inf neg, fDZ)
      else if neg then (.nan gn, fNV)
      else
        let (m, e) := if e % 2 = 0 then (m, e) else (m * 2, e - 1)
        let k := 2 * (bitLen m + 80)
        let r := isqrt (2 ^ k / m)
        (.fin false r (-(e / 2) - (k / 2 : Nat)) (r * r * m != 2 ^ k), 0)
    | .inf neg => if neg then (.nan gn, fNV) else (.fin false 0 0 false, 0)
    | x => (x.exact, 0)

/-- 1 ÷ x (Table 55). -/
def opRcp (gn : Nat) (x : FVal) : ExactF := opDiv gn (.fin false 1 0) x

/-! Transcendental functions. Fixed-point numbers carry `fixP` fraction bits; the low `fixG` of them absorb the truncation of
the series, so the exact value, which is never representable, lies strictly between the kept bits and their successor (log 13). -/

/-- Fraction bits of the series and guard bits dropped from it. -/
def fixP : Nat := 420
def fixG : Nat := 40

/-- The sum of 1 ÷ (k × 2^k) for k from n down to 1, in fixed point: ln 2. -/
def ln2Sum : Nat → Nat
  | 0 => 0
  | n + 1 => ln2Sum n + 2 ^ fixP / ((n + 1) * 2 ^ (n + 1))

/-- ln 2 in fixed point. -/
def ln2Fix : Nat := ln2Sum fixP

/-- The series of e^t by Horner's rule over the last n terms ending at 1. -/
def expSum (t : Nat) : Nat → Nat → Nat
  | 0, _ => 2 ^ fixP
  | n + 1, k => 2 ^ fixP + t * expSum t n (k + 1) / 2 ^ fixP / k

/-- e^t for 0 ≤ t < 1 in fixed point. -/
def expFix (t : Nat) : Nat := expSum t 100 1

/-- The series of atanh z = z + z³/3 + …, over n terms; `p` is the running power of z. -/
def atanhSum (z2 : Nat) : Nat → Nat → Nat → Nat
  | 0, _, _ => 0
  | n + 1, p, k => p / k + atanhSum z2 n (p * z2 / 2 ^ fixP) (k + 2)

/-- ln f for 1 ≤ f < 2 given as num ÷ den, in fixed point. -/
def lnFix (num den : Nat) : Nat :=
  let z := (num - den) * 2 ^ fixP / (num + den)
  2 * atanhSum (z * z / 2 ^ fixP) 150 z 1

/-- A fixed-point magnitude as an inexact exact-result. -/
def ofFix (neg : Bool) (v : Nat) (sc : Int) : Exact := .fin neg (v / 2 ^ fixG) (sc - (fixP - fixG : Nat)) true

/-- 2^x (Table 55, R144): exact for integers. -/
def opExp2 (x : FVal) : ExactF :=
  match firstNaN [x] with
  | some r => r
  | none =>
    match x with
    | .inf neg => (if neg then .fin false 0 0 false else .inf false, 0)
    | .fin neg m e =>
      if m = 0 then (.fin false 1 0 false, 0)
      else if 12 < e + bitLen m then (.fin false (2 ^ 80) (if neg then -6000 else 6000) true, 0)
      else if 0 ≤ e then
        let k : Int := signedMant neg (m * 2 ^ e.toNat)
        (.fin false 1 k false, 0)
      else
        let d : Nat := 2 ^ (-e).toNat
        let t := signedMant neg m
        let k := t / (d : Int)
        let r := (t % (d : Int)).toNat
        if r = 0 then (.fin false 1 k false, 0)
        else (ofFix false (expFix (r * ln2Fix / d)) k, 0)
    | x => (x.exact, 0)

/-- log2 x (Table 55, R144): exact for powers of two. -/
def opLog2 (gn : Nat) (x : FVal) : ExactF :=
  match firstNaN [x] with
  | some r => r
  | none =>
    match x with
    | .inf neg => if neg then (.nan gn, fNV) else (.inf false, 0)
    | .fin neg m e =>
      if m = 0 then (.inf true, fDZ)
      else if neg then (.nan gn, fNV)
      else
        let l := bitLen m - 1
        let k : Int := e + l
        if m = 2 ^ l then (.fin (decide (k < 0)) k.natAbs 0 false, 0)
        else
          let v : Int := k * 2 ^ fixP + (lnFix m (2 ^ l) * 2 ^ fixP / ln2Fix : Nat)
          (ofFix (decide (v < 0)) v.natAbs 0, 0)
    | x => (x.exact, 0)

/-- tanh x (R213): just below |x| for tiny x and just below 1 for large x. -/
def opTanh (x : FVal) : ExactF :=
  match firstNaN [x] with
  | some r => r
  | none =>
    match x with
    | .inf neg => (.fin neg 1 0 false, 0)
    | .fin neg m e =>
      if m = 0 then (.fin neg 0 0 false, 0)
      else if e + bitLen m < -40 then (.fin neg (m * 2 ^ 200 - 1) (e - 200) true, 0)
      else if 6 < e + bitLen m then (.fin neg (2 ^ 200 - 1) (-200) true, 0)
      else
        let y := if 0 ≤ e + 1 then m * 2 ^ (e + 1).toNat * 2 ^ fixP else m * 2 ^ fixP / 2 ^ (-(e + 1)).toNat
        let k := y / ln2Fix
        let ex := expFix (y - k * ln2Fix) * 2 ^ k
        (ofFix neg ((ex - 2 ^ fixP) * 2 ^ fixP / (ex + 2 ^ fixP)) 0, 0)
    | x => (x.exact, 0)

/-! Comparison. -/

/-- Sign of x − y for values that are no NaN; −0 equals +0. -/
def cmpNum (x y : FVal) : Ordering :=
  match x, y with
  | .inf a, .inf b => if a == b then .eq else if a then .lt else .gt
  | .inf a, _ => if a then .lt else .gt
  | _, .inf b => if b then .gt else .lt
  | .fin n1 m1 e1, .fin n2 m2 e2 =>
    let e := min e1 e2
    compare (signedMant n1 (m1 * 2 ^ (e1 - e).toNat)) (signedMant n2 (m2 * 2 ^ (e2 - e).toNat))
  | _, _ => .eq

/-- x is below y in the order of FMINMAX, −0 below +0 (R141). -/
def totalLt (x y : FVal) : Bool :=
  match cmpNum x y with
  | .lt => true
  | .gt => false
  | .eq => x.neg && !y.neg

/-- The lesser or greater of two encodings of one format, or the first NaN made quiet (R141): encoding and flags. -/
def Fmt.minMax (f : Fmt) (mx : Bool) (x y : Nat) : Nat × FFlags :=
  let a := f.decode 0 x
  let b := f.decode 0 y
  match firstNaN [a, b] with
  | some (.nan n, fl) => (f.narrowNaN n, fl)
  | _ => (if totalLt a b != mx then x else y, 0)

/-- The relations of FCMP and VCMP on floats (R143, R208): 0 eq, 1 lt, 2 le, 3 un. -/
def fcmp (rel : Nat) (x y : FVal) : Bool × FFlags :=
  let un := x.isNaN || y.isNaN
  let sig := flagIf fNV (x.isSig || y.isSig || (un && (rel == 1 || rel == 2)))
  if un then (rel == 3, sig)
  else
    match rel with
    | 0 => (cmpNum x y == .eq, 0)
    | 1 => (cmpNum x y == .lt, 0)
    | 2 => (cmpNum x y != .gt, 0)
    | _ => (false, 0)

/-! The stochastic seed and the final rounding. -/

/-- One advance of SEED (R112). -/
def seedNext (sd : BitVec 32) : BitVec 32 :=
  let st : BitVec 32 := if sd = 0 then 1 else sd
  let st := st ^^^ (st <<< 13)
  let st := st ^^^ (st >>> 17)
  st ^^^ (st <<< 5)

/-- A rounded element: encoding, flags, SEED after it. -/
structure FpOut where
  bits : Nat
  fl : FFlags
  seed : BitVec 32
deriving DecidableEq, Repr

/-- Round an exact result to a format (R110–R119). Under mode 4 SEED advances once, whatever the value (R113). -/
def finish (f : Fmt) (mode : Nat) (sat : Bool) (sd : BitVec 32) (x : ExactF) : FpOut :=
  let sd' := if mode = 4 then seedNext sd else sd
  match x.1 with
  | .nan b =>
    { bits := f.narrowNaN b, fl := x.2 ||| flagIf fNV (f.sp == .finite), seed := sd' }
  | .inf neg =>
    match f.sp with
    | .ieee => { bits := f.signed neg f.infCode, fl := x.2, seed := sd' }
    | .e4m3 => { bits := f.signed neg (if sat then f.maxFin else 0x7f), fl := x.2 ||| fNV, seed := sd' }
    | .finite => { bits := f.signed neg f.maxFin, fl := x.2 ||| fNV, seed := sd' }
  | .fin neg m e st =>
    let r := roundTo f mode (sd'.extractLsb' 8 24).toNat sat neg m e st
    { bits := r.1, fl := x.2 ||| r.2, seed := sd' }

/-- Round RNE with no flag and no seed: the matrix unit, gaits, spur units and the collective engine (R110). -/
def finishRne (f : Fmt) (x : Exact) : Nat := (finish f 0 false 0 (x, 0)).bits

/-- A conversion of a value to a format (R117, R119): a signalling input sets NV. -/
def convert (f : Fmt) (mode : Nat) (sat : Bool) (sd : BitVec 32) (x : FVal) : FpOut :=
  finish f mode (sat && decide (f.mb ≤ 3)) sd (x.exact, flagIf fNV x.isSig)

/-- Widen an encoding to FP32 exactly (R115, R119 rules 4 and 5): bits and flags. -/
def Fmt.widen (f : Fmt) (n8 x : Nat) : Nat × FFlags :=
  let v := f.decode n8 x
  let r := convert Fmt.f32 0 false 0 v
  (r.bits, r.fl)

/-- A float rounded to an integer in [lo, hi] (R118): the value, flags and SEED. -/
def toInt (mode : Nat) (sd : BitVec 32) (lo hi : Int) (x : FVal) : Int × FFlags × BitVec 32 :=
  let sd' := if mode = 4 then seedNext sd else sd
  match x with
  | .nan _ _ => (0, fNV, sd')
  | .inf neg => (if neg then lo else hi, fNV, sd')
  | .fin neg m e =>
    let r := roundUnits mode (sd'.extractLsb' 8 24).toNat neg m e false 0
    let v := signedMant neg r.1
    if v < lo then (lo, fNV, sd') else if hi < v then (hi, fNV, sd') else (v, flagIf fNX r.2, sd')

/-- An integer as an exact value. -/
def ofInt (v : Int) : FVal := .fin (decide (v < 0)) v.natAbs 0

/-! Formats by ET or FMT code (Table 41). -/

/-- The floating-point format of an element type, when it is one. -/
def fmtOf (et : Nat) : Option Fmt :=
  match et with
  | 6 => some .f32
  | 7 => some .f16
  | 8 => some .bf16
  | 9 => some .e4m3
  | 10 => some .e5m2
  | 11 => some .e3m2
  | 12 => some .e2m3
  | 13 => some .e2m1
  | 16 => some .e4m3
  | 17 => some .e5m2
  | 18 => some .e3m2
  | 19 => some .e2m3
  | 20 => some .e2m1
  | _ => none

/-- Element x of an MX block before its scale (R105): MXINT8 elements are c × 2^−6. -/
def mxElem (et n8 x : Nat) : FVal :=
  match fmtOf et with
  | some f => f.decode n8 x
  | none =>
    let c := signedOf 8 x
    .fin (decide (c < 0)) c.natAbs (-6)

/-- Scale a value by 2^(code − 127) (R105). -/
def scaleVal (code : Nat) : FVal → FVal
  | .fin n m e => .fin n m (e + code - 127)
  | x => x

/-- Element value of a block with a scale code: NAN_SCALE when the code is 0xff (R105, R108, R116). -/
def mxVal (et code nScale n8 x : Nat) : FVal :=
  if code = 255 then .nan nScale false else scaleVal code (mxElem et n8 x)

/-! TBL8 (R108, R109). -/

/-- The table entry is at or below x; a NaN entry is not. -/
def tblLe (t : Nat) (x : FVal) : Bool :=
  let v := Fmt.e8m10.decode 0 t
  !v.isNaN && cmpNum v x != .gt

/-- |t − x|, none for a NaN or infinite distance. -/
def tblDist (t : Nat) (x : FVal) : Option FVal :=
  match Fmt.e8m10.decode 0 t, x with
  | .fin n m e, .fin n2 m2 e2 =>
    match sumFin 0 n m e (!n2) m2 e2 with
    | .fin _ k q _ => some (.fin false k q)
    | _ => none
  | _, _ => none

/-- The entry at i + 1 is strictly nearer to x than the entry at i (AbsDiff against a NaN counts as infinite). -/
def tblNearer (t1 t0 : Nat) (x : FVal) : Bool :=
  match tblDist t1 x, tblDist t0 x with
  | some a, some b => cmpNum a b == .lt
  | some _, none => (Fmt.e8m10.decode 0 t0 != x)
  | none, _ => (Fmt.e8m10.decode 0 t1 == x) && x.isInf && (Fmt.e8m10.decode 0 t0 != x)

/-- The eight search steps of TblEncode. -/
def tblSearch (tab : Nat → Nat) (x : FVal) : Nat → Nat → Nat
  | 0, i => i
  | k + 1, i => tblSearch tab x k (if tblLe (tab (i + 2 ^ k)) x then i + 2 ^ k else i)

/-- The lowest index in [255 − k, 255] … whose entry is a NaN, searching up from index `i`. -/
def tblFirstNaN (tab : Nat → Nat) : Nat → Nat → Option Nat
  | 0, _ => none
  | k + 1, i => if (Fmt.e8m10.decode 0 (tab i)).isNaN then some i else tblFirstNaN tab k (i + 1)

/-- Encode an FP32 value to TBL8 (R109): code and flags. -/
def tblEncode (tab : Nat → Nat) (v : FVal) : Nat × FFlags :=
  let r := convert Fmt.e8m10 0 false 0 v
  let x := Fmt.e8m10.decode 0 r.bits
  if x.isNaN then
    match tblFirstNaN tab 256 0 with
    | some i => (i, r.fl)
    | none => (0, r.fl ||| fNV)
  else
    let i := tblSearch tab x 8 0
    let i := if decide (i < 255) && tblNearer (tab (i + 1)) (tab i) x then i + 1 else i
    let t := Fmt.e8m10.decode 0 (tab i)
    (i, r.fl ||| flagIf fNX (t.isNaN || cmpNum t x != .eq))

/-- MONO of a decode table (Table 22): non-decreasing in value order with no NaN. -/
def tblMono (tab : Nat → Nat) : Nat → Bool
  | 0 => !(Fmt.e8m10.decode 0 (tab 0)).isNaN
  | n + 1 => tblMono tab n && tblLe (tab n) (Fmt.e8m10.decode 0 (tab (n + 1))) && !(Fmt.e8m10.decode 0 (tab (n + 1))).isNaN

/-! Scales (R120) and the matrix unit (R121–R124). -/

/-- Exponent of the largest normal of an element format (R120). -/
def emaxOf (et : Nat) : Nat :=
  match et with
  | 16 => 8
  | 17 => 15
  | 18 => 4
  | 19 => 2
  | 20 => 2
  | _ => 0

/-- ComputeScale of R120 on the FP32 bits of amax: scale code and flags. -/
def computeScale (amax emax : Nat) : Nat × FFlags :=
  match f32 amax with
  | .nan _ sig => (255, flagIf fNV sig)
  | .inf _ => (255, fNV)
  | .fin _ m e =>
    if m = 0 then (0, 0)
    else
      let x : Int := e + bitLen m - 1 - emax
      if x < -127 then (0, fUF) else if 127 < x then (254, 0) else ((x + 127).toNat, 0)

/-- FP32 rounding of the matrix unit: saturating mode turns an overflow into ±FLT_MAX (R123). -/
def roundAcc (sat : Bool) (x : Exact) : Nat :=
  match x with
  | .fin n m e st => (roundTo Fmt.f32 0 0 sat n m e st).1
  | x => finishRne Fmt.f32 x

/-- The exact sum of products of a group of finite values, as units of 2^−1400. -/
def dotUnits : List (FVal × FVal) → Int
  | [] => 0
  | (.fin n1 m1 e1, .fin n2 m2 e2) :: r =>
    signedMant (n1 != n2) (m1 * m2 * 2 ^ (e1 + e2 + 1400).toNat) + dotUnits r
  | _ :: r => dotUnits r

/-- The signs of the infinite products of a group. -/
def infSigns : List (FVal × FVal) → List Bool
  | [] => []
  | (x, y) :: r => if x.isInf || y.isInf then (x.neg != y.neg) :: infSigns r else infSigns r

/-- GroupProduct of R122, scaled by 2^sc. -/
def groupProduct (sat : Bool) (nid : NanId) (scaleNaN : Bool) (ab : List (FVal × FVal)) (sc : Int) : Nat :=
  if scaleNaN then nid.gen 2
  else if ab.any (fun p => p.1.isNaN || p.2.isNaN) then nid.gen 3
  else if ab.any (fun p => (p.1.isInf && p.2.isZero) || (p.2.isInf && p.1.isZero)) then nid.gen 4
  else
    let s := infSigns ab
    if s.contains true && s.contains false then nid.gen 4
    else if s.contains true then 0xff800000
    else if s.contains false then 0x7f800000
    else
      let t := dotUnits ab
      if t = 0 then 0 else roundAcc sat (.fin (decide (t < 0)) t.natAbs (sc - 1400) false)

/-- One accumulation step: the accumulator first in NaN order (R119, R122). -/
def accumulate (sat : Bool) (nid : NanId) (acc p : Nat) : Nat := roundAcc sat (opAdd 0 (nid.gen 4) (f32 acc) (f32 p)).1

end Sys2Proof.Machine
end

