-- ==== Sys2Proof/Config.lean ====
section
/-! DEFINITION. What is fixed for the machine, the boot choices the model makes (log 5, log 6) and the type of a turn: one
step of the machine is one turn, and which turn comes next the spec leaves open (R308, R352). Free values are opaque. -/

namespace Sys2Proof

/-- What happens next: a core's issue slot (`ahead`: vector and matrix instructions are handed to the sequencer or the matrix
queue and performed by later events, R224, R237), one event of the opcode table, or time passing: `ns` nanoseconds of the
reference pace and `edges` core clock edges. -/
inductive Turn where
  | issue (core : CoreId) (ahead : Bool)
  | event (row : Instr) (a : EvArgs)
  | tick (ns edges : Nat)
deriving DecidableEq, Repr

namespace Config

/-- The turn that comes next when `State.inputs` names none: a free value (log 2). -/
opaque turn : Nat → Option Turn

/-- Words the spec leaves open: the bytes of an attestation signature, which interface received a space 5 access (log 2). -/
opaque freeWord : Nat → Word

/-- Bytes of the panel's public key, and of the debug challenge, which differ from panel to panel (R462, R465; log 2). -/
opaque deviceKey : Nat → Byte
opaque challenge : Nat → Byte

/-- Digests of an attestation report: over the Farrier firmware of the good sites, and of the panel firmware image (R462; log 2). -/
opaque farrierDigest : List Nat → Nat → Byte
opaque imageDigest : Nat → Byte

/-- Bytes of a core's TCM (R9). -/
def tcmBytes : Nat := 0x20000

/-- Bytes of a tile's pool (R9). -/
def poolBytes : Nat := 0x3000000

/-- CKBASE of every tile, firmware's choice (R43; log 6). -/
def ckbase : Nat := 760

/-- Root of every die tree, firmware's choice (R378; log 6). -/
def dieRoot : Nat := 0

/-- Table arena of every die, firmware's choice (R378; log 6). -/
def arena : Nat := 0

/-- Capacity in frames of MSEL 0 of a Gallop die (R377). -/
def gddrFrames : Nat := 488281

/-- Capacity in frames of an HBM4E stack (R377). -/
def hbmFrames : Nat := 976562

/-- FEAT0 and FEAT1 as offered: every feature of Table 25 (R52; log 5). -/
def feat0 : BitVec 32 := 0xff
def feat1 : BitVec 32 := 0xf

/-- The skew bound of PACESTAT in nanoseconds (R51). -/
def skew : Nat := 20

end Config
end Sys2Proof
end

