-- ==== Sys2Proof/Decode.lean ====
section
/-! DEFINITION. The decoder (R67–R71, R76–R81, R85) and, after it, the encoder, both from Table 36 and the form tables.
Decoding an instruction takes its head and its tail halfwords; decoding a line finds them (R69). A word that names no
instruction is rejected by name; the machine turns each rejection into the trap the spec gives it (R70, R86). -/

namespace Sys2Proof

/-- Why a head is no instruction: both trap ILLEGAL at step 1 of R86. -/
inductive DecodeError where
  /-- Major 0x00, 0x7f or unassigned (R85). -/
  | illegalMajor
  /-- A function code Table 36 does not list (R85). -/
  | illegalFunction
  /-- T below the minimum of the form (R76). -/
  | shortTail
deriving DecidableEq, Repr

/-- Operand form of a major (Table 36). -/
inductive Form where
  | A | B | C
deriving DecidableEq, Repr

/-- The form of an assigned major; none for 0x00, 0x2f, 0x4c–0x4f, 0x72, 0x73 and 0x7f (R85, R88). -/
def formOf (m : Nat) : Option Form :=
  if m = 0 ∨ m = 0x2f ∨ (0x4c ≤ m ∧ m ≤ 0x4f) ∨ m = 0x72 ∨ m = 0x73 ∨ 0x7f ≤ m then none
  else if m ≤ 0x37 ∨ m = 0x4b ∨ (0x68 ≤ m ∧ m ≤ 0x6b) then some .A
  else if m = 0x38 ∨ m = 0x39 ∨ m = 0x40 ∨ m = 0x41 ∨ m = 0x45 ∨ m = 0x46 then some .B
  else some .C

/-- Majors with their function codes and rows (Table 36), part 1. -/
def rowTable1 : List (Nat × Nat × Instr) := [
  (0x01, 0, .add), (0x01, 1, .addW), (0x01, 2, .addSs), (0x01, 3, .addUs), (0x02, 0, .sub),
  (0x02, 1, .subW), (0x02, 2, .subSs), (0x02, 3, .subUs), (0x03, 0, .mul), (0x03, 1, .mulW),
  (0x04, 0, .mulhSs), (0x04, 1, .mulhUu), (0x04, 2, .mulhSu), (0x05, 0, .div), (0x05, 1, .divU),
  (0x05, 2, .divW), (0x05, 3, .divUw), (0x06, 0, .rem), (0x06, 1, .remU), (0x06, 2, .remW),
  (0x06, 3, .remUw), (0x07, 0, .andR), (0x08, 0, .orR), (0x09, 0, .xor), (0x0a, 0, .andn),
  (0x0b, 0, .shl), (0x0b, 1, .shlW), (0x0c, 0, .shr), (0x0c, 1, .shrA), (0x0c, 2, .shrW),
  (0x0c, 3, .shrAw), (0x0d, 0, .rot), (0x0d, 1, .rotL), (0x0d, 2, .rotW), (0x0d, 3, .rotLw),
  (0x0e, 0, .min), (0x0e, 1, .minU), (0x0f, 0, .max), (0x0f, 1, .maxU), (0x10, 0, .bcntClz),
  (0x10, 1, .bcntCtz), (0x10, 2, .bcntPopc), (0x11, 0, .extS8), (0x11, 1, .extS16), (0x11, 2, .extS32),
  (0x11, 3, .extZ8), (0x11, 4, .extZ16), (0x11, 5, .extZ32), (0x12, 0, .bfxU), (0x12, 1, .bfxS)]

/-- Majors with their function codes and rows (Table 36), part 2. -/
def rowTable2 : List (Nat × Nat × Instr) := [
  (0x13, 0, .bfi), (0x15, 0, .cmpEq), (0x15, 1, .cmpNe), (0x15, 2, .cmpLt), (0x15, 3, .cmpGe),
  (0x15, 4, .cmpLtu), (0x15, 5, .cmpGeu), (0x16, 0, .liLo), (0x16, 1, .liHi), (0x17, 0, .mov),
  (0x17, 1, .movP), (0x17, 2, .movSp), (0x17, 3, .movPs), (0x17, 4, .movPand), (0x17, 5, .movPor),
  (0x17, 6, .movPnot), (0x18, 0, .addp), (0x18, 1, .addpB), (0x19, 0, .subp), (0x19, 1, .subpB),
  (0x1a, 0, .mkp), (0x1b, 0, .psetFmt), (0x1b, 1, .psetBlk), (0x1b, 2, .psetSpc), (0x1b, 3, .psetRel),
  (0x1b, 4, .psetTile), (0x1b, 5, .psetDie), (0x1b, 6, .psetOff), (0x1b, 7, .psetCore), (0x1c, 0, .pgetFmt),
  (0x1c, 1, .pgetBlk), (0x1c, 2, .pgetSpc), (0x1c, 3, .pgetRel), (0x1c, 4, .pgetTile), (0x1c, 5, .pgetDie),
  (0x1c, 6, .pgetOff), (0x1c, 7, .pgetCore), (0x1d, 0, .pabs), (0x1e, 0, .waitdep), (0x1f, 0, .trigger),
  (0x20, 0, .br), (0x21, 0, .brpAny), (0x21, 1, .brpAll), (0x21, 2, .brpNone), (0x21, 3, .brpNall),
  (0x22, 0, .jal), (0x23, 0, .jalr), (0x24, 0, .loop), (0x25, 0, .fork), (0x26, 0, .join)]

/-- Majors with their function codes and rows (Table 36), part 3. -/
def rowTable3 : List (Nat × Nat × Instr) := [
  (0x27, 0, .spawn), (0x28, 0, .exit), (0x29, 0, .yield), (0x2a, 0, .sleep), (0x2b, 0, .trap),
  (0x2b, 1, .trapBkpt), (0x2c, 0, .upret), (0x2d, 0, .eret), (0x2e, 0, .nop), (0x2e, 1, .nopSpin),
  (0x2e, 2, .nopPhase), (0x30, 0, .fadd), (0x31, 0, .fsub), (0x32, 0, .fmul), (0x33, 0, .ffma),
  (0x34, 0, .fminmaxMin), (0x34, 1, .fminmaxMax), (0x35, 0, .fcvtI64F32), (0x35, 1, .fcvtF32I64), (0x35, 2, .fcvtU64F32),
  (0x35, 3, .fcvtF32U64), (0x35, 4, .fcvtF16F32), (0x35, 5, .fcvtF32F16), (0x35, 6, .fcvtBf16F32), (0x35, 7, .fcvtF32Bf16),
  (0x36, 0, .fcmpEq), (0x36, 1, .fcmpLt), (0x36, 2, .fcmpLe), (0x36, 3, .fcmpUn), (0x37, 0, .fspecRcp),
  (0x37, 1, .fspecRsqrt), (0x37, 2, .fspecSqrt), (0x37, 3, .fspecDiv), (0x37, 4, .fspecExp2), (0x37, 5, .fspecLog2),
  (0x38, 0, .ldU8), (0x38, 1, .ldS8), (0x38, 2, .ldU16), (0x38, 3, .ldS16), (0x38, 4, .ldU32),
  (0x38, 5, .ldS32), (0x38, 6, .ld64), (0x38, 7, .ldFmt), (0x39, 0, .st8), (0x39, 1, .st16),
  (0x39, 2, .st32), (0x39, 3, .st64), (0x39, 7, .stFmt), (0x3a, 0, .lda), (0x3b, 0, .stl)]

/-- Majors with their function codes and rows (Table 36), part 4. -/
def rowTable4 : List (Nat × Nat × Instr) := [
  (0x3c, 0, .amoAdd), (0x3c, 1, .amoAnd), (0x3c, 2, .amoOr), (0x3c, 3, .amoXor), (0x3c, 4, .amoSmin),
  (0x3c, 5, .amoSmax), (0x3c, 6, .amoUmin), (0x3c, 7, .amoUmax), (0x3c, 8, .amoSwap), (0x3d, 0, .cas),
  (0x3e, 0, .fence), (0x3e, 1, .fenceAcq), (0x3e, 2, .fenceRel), (0x3f, 0, .xfence), (0x40, 0, .ldfeTake),
  (0x40, 1, .ldfePeek), (0x41, 0, .stfeFill), (0x41, 1, .stfeForce), (0x41, 2, .stfeClear), (0x42, 0, .get),
  (0x43, 0, .put), (0x44, 0, .ramoAdd), (0x44, 1, .ramoAnd), (0x44, 2, .ramoOr), (0x44, 3, .ramoXor),
  (0x44, 4, .ramoSmin), (0x44, 5, .ramoSmax), (0x44, 6, .ramoUmin), (0x44, 7, .ramoUmax), (0x44, 8, .ramoSwap),
  (0x44, 9, .ramoFadd), (0x45, 0, .flushWb), (0x45, 1, .flushWbi), (0x45, 2, .flushInv), (0x45, 3, .flushCode),
  (0x46, 0, .prefR), (0x46, 1, .prefW), (0x46, 2, .prefGw), (0x47, 0, .cwait), (0x48, 0, .csig),
  (0x49, 0, .cset), (0x4a, 0, .crd), (0x4b, 0, .bar), (0x4b, 1, .barArrive), (0x4b, 2, .barWait),
  (0x50, 0, .vadd), (0x50, 1, .vaddSat), (0x51, 0, .vsub), (0x51, 1, .vsubSat), (0x52, 0, .vmul)]

/-- Majors with their function codes and rows (Table 36), part 5. -/
def rowTable5 : List (Nat × Nat × Instr) := [
  (0x52, 1, .vmulHi), (0x52, 2, .vmulSat), (0x53, 0, .vfma), (0x53, 1, .vfmaMs), (0x53, 2, .vfmaNm),
  (0x54, 0, .vminmaxMin), (0x54, 1, .vminmaxMax), (0x55, 0, .vnegabsNeg), (0x55, 1, .vnegabsAbs), (0x57, 0, .vcmpEq),
  (0x57, 1, .vcmpNe), (0x57, 2, .vcmpLt), (0x57, 3, .vcmpGe), (0x57, 4, .vcmpLe), (0x57, 5, .vcmpGt),
  (0x57, 6, .vcmpUn), (0x59, 0, .vredSum), (0x59, 1, .vredMin), (0x59, 2, .vredMax), (0x59, 3, .vredAnd),
  (0x59, 4, .vredOr), (0x59, 5, .vredXor), (0x5a, 0, .vshufIdx), (0x5a, 1, .vshufRot), (0x5a, 2, .vshufLo),
  (0x5a, 3, .vshufHi), (0x5a, 4, .vshufRev), (0x5b, 0, .vbcastS), (0x5b, 1, .vbcastLane), (0x5c, 0, .vld),
  (0x5c, 1, .vldStr), (0x5d, 0, .vst), (0x5d, 1, .vstStr), (0x5e, 0, .vgth), (0x5f, 0, .vsct),
  (0x60, 0, .vspecRcp), (0x60, 1, .vspecRsqrt), (0x60, 2, .vspecSqrt), (0x60, 3, .vspecDiv), (0x60, 4, .vspecExp2),
  (0x60, 5, .vspecLog2), (0x60, 6, .vspecTanh), (0x61, 0, .vdotQ), (0x61, 1, .vdotP), (0x62, 0, .vamax),
  (0x63, 0, .vscale), (0x64, 0, .vquant), (0x65, 0, .vtbl), (0x66, 0, .venc), (0x67, 0, .vintAnd)]

/-- Majors with their function codes and rows (Table 36), part 6. -/
def rowTable6 : List (Nat × Nat × Instr) := [
  (0x67, 1, .vintOr), (0x67, 2, .vintXor), (0x67, 3, .vintAndn), (0x67, 4, .vintShl), (0x67, 5, .vintShr),
  (0x67, 6, .vintSra), (0x67, 7, .vintPopc), (0x68, 0, .vseq), (0x69, 0, .vseqe), (0x6a, 0, .gang2),
  (0x6a, 1, .gang4), (0x6a, 2, .gang8), (0x6b, 0, .ungang), (0x6c, 0, .mlat), (0x6d, 0, .mma),
  (0x6e, 0, .mmas), (0x6f, 0, .maccZero), (0x6f, 1, .maccLd), (0x6f, 2, .maccSt), (0x6f, 3, .maccCvt),
  (0x70, 0, .gaitl), (0x78, 0, .spurCfg), (0x78, 1, .spurPost), (0x78, 2, .spurTick), (0x78, 3, .spurRead),
  (0x78, 4, .spurDrain), (0x74, 0, .sendUni), (0x74, 1, .sendMulti), (0x74, 2, .sendReply), (0x75, 0, .cpy),
  (0x77, 0, .collReduce), (0x77, 1, .collBcast), (0x77, 2, .collJoin), (0x77, 3, .collDigest), (0x79, 0, .classMask),
  (0x79, 1, .classUnmask), (0x79, 2, .classTest), (0x7a, 0, .launch), (0x7a, 1, .launchSteal), (0x7b, 0, .sysCsrr),
  (0x7b, 1, .sysCsrw), (0x7b, 2, .sysCsrx), (0x7c, 0, .tandemOn), (0x7c, 1, .tandemOff), (0x7d, 0, .ownGive),
  (0x7d, 1, .ownQuery), (0x7e, 0, .leaseRenew)]

/-- Majors with their function codes and rows (Table 36); SEL, VSEL, VCVT, MGAIT and GTH are decoded apart. -/
def rowTable : List (Nat × Nat × Instr) :=
  rowTable1 ++ rowTable2 ++ rowTable3 ++ rowTable4 ++ rowTable5 ++ rowTable6

/-- The row that a major and function code select (R85). `latch` is IMM16 [9], the LATCH bit of a GTH. -/
def rowOf (major fn : Nat) (latch : Bool) : Except DecodeError Instr :=
  if major = 0x14 then .ok .sel
  else if major = 0x58 then .ok .vsel
  else if major = 0x56 then
    if 1 ≤ fn ∧ fn < 16 then .ok .vcvt else if 33 ≤ fn ∧ fn < 48 then .ok .vcvtSat else .error .illegalFunction
  else if major = 0x71 then (if fn < 4 then .ok .mgait else .error .illegalFunction)
  else if major = 0x76 then
    if fn = 0 then (if latch then .ok .gthLatch else .ok .gth) else .error .illegalFunction
  else match rowTable.find? (fun r => r.1 == major && r.2.1 == fn) with
    | some r => .ok r.2.2
    | none => .error .illegalFunction

/-- Halfword k of a tail; absent halfwords read as zero (R76). -/
def tailAt (tl : List Half) (k : Nat) : Half := tl.getD k 0

/-- The sync halfword: the one after the T operand halfwords, present when Y = 1 (R68). -/
def syncOf (h : Half) (tl : List Half) : Option Half :=
  if h.getLsbD 13 then some (tailAt tl (h.extractLsb' 14 2).toNat) else none

/-- Operand tail halfword k, zero when T does not supply it. -/
def operandAt (h : Half) (tl : List Half) (k : Nat) : Half :=
  if k < (h.extractLsb' 14 2).toNat then tailAt tl k else 0

/-- The fields of forms A and B (Tables 30, 31, 32). -/
def fieldsAB (h : Half) (tl : List Half) : Fields :=
  let h0 := operandAt h tl 0
  { r0 := h.extractLsb' 0 1, t := h.extractLsb' 14 2, d := h.extractLsb' 1 5, pg := h0.extractLsb' 13 3,
    fn := (h0.extractLsb' 10 3).setWidth 6, s1 := h0.extractLsb' 5 5, s2 := h0.extractLsb' 0 5, s3 := 0, sz := 0, sc := 0,
    md := 0, imm := operandAt h tl 2 ++ operandAt h tl 1, sync := syncOf h tl }

/-- The fields of form C (Tables 30, 33). -/
def fieldsC (h : Half) (tl : List Half) : Fields :=
  let h0 := operandAt h tl 0
  let h1 := operandAt h tl 1
  { r0 := h.extractLsb' 0 1, t := h.extractLsb' 14 2, d := h.extractLsb' 1 5, pg := h0.extractLsb' 13 3,
    fn := h0.extractLsb' 7 6, s1 := h0.extractLsb' 2 5, sz := h0.extractLsb' 0 2, s2 := h1.extractLsb' 11 5,
    s3 := h1.extractLsb' 6 5, sc := h1.extractLsb' 3 3, md := h1.extractLsb' 0 3,
    imm := (operandAt h tl 2).setWidth 32, sync := syncOf h tl }

/-- The smallest T a form accepts (R76). -/
def Form.minT : Form → Nat
  | .A => 0
  | .B => 1
  | .C => 2

/-- The fields of an instruction of a form. -/
def Form.fields (f : Form) (h : Half) (tl : List Half) : Fields :=
  match f with
  | .A => fieldsAB h tl
  | .B => fieldsAB h tl
  | .C => fieldsC h tl

/-- Decode one instruction from its head and its tail halfwords in ascending address order. Total: a head that names no
instruction is rejected by the name of its error. A COLL.reduce word decodes to collReduce; whether it registers a buffer
is decided by its parameter word when it runs (R292). -/
def decodeInstr (h : Half) (tl : List Half) : Except DecodeError Inst :=
  let major := (h.extractLsb' 6 7).toNat
  match formOf major with
  | none => .error .illegalMajor
  | some f =>
    if (h.extractLsb' 14 2).toNat < f.minT then .error .shortTail
    else
      let o := f.fields h tl
      match rowOf major o.fn.toNat (o.imm.getLsbD 9) with
      | .error e => .error e
      | .ok r => .ok { row := r, o := o }

/-- Tail length of a head: T + Y (R68). -/
def tailLen (h : Half) : Nat := (h.extractLsb' 14 2).toNat + (h.extractLsb' 13 1).toNat

/-- Halfword k of a line of bytes, little-endian (R67). -/
def halfAt (line : List Byte) (k : Nat) : Half := line.getD (2 * k + 1) 0 ++ line.getD (2 * k) 0

/-- The head count H of a line (Table 29). -/
def headCount (line : List Byte) : Nat := ((halfAt line 0).extractLsb' 0 5).toNat

/-- Sum of the tail lengths of the first n heads. -/
def tailSum (line : List Byte) : Nat → Nat
  | 0 => 0
  | n + 1 => tailSum line n + tailLen (halfAt line (n + 1))

/-- What is wrong with a line as a whole (R70). -/
inductive LineError where
  /-- Header bits [15:5] nonzero: RESERVED_FIELD. -/
  | header
  /-- 1 + H + tails exceed 32 halfwords: ILLEGAL. -/
  | overflow
deriving DecidableEq, Repr

/-- The check of a whole line on entry, first failure first (R70). -/
def lineError (line : List Byte) : Option LineError :=
  if (halfAt line 0).extractLsb' 5 11 ≠ 0 then some .header
  else if 32 < 1 + headCount line + tailSum line (headCount line) then some .overflow
  else none

/-- The head and tail halfwords of head k of a valid line (R69). -/
def headParts (line : List Byte) (k : Nat) : Half × List Half :=
  let h := halfAt line (1 + k)
  let start := 32 - tailSum line (k + 1)
  (h, (List.range (tailLen h)).map (fun j => halfAt line (start + j)))

/-- Decode head k of a line. -/
def decodeHead (line : List Byte) (k : Nat) : Except DecodeError Inst :=
  decodeInstr (headParts line k).1 (headParts line k).2

/-! The encoder, from the same tables. -/

/-- The head halfword (Table 30). -/
def encodeHead (o : Fields) (major : Nat) : Half :=
  o.t ++ BitVec.ofBool o.sync.isSome ++ BitVec.ofNat 7 major ++ o.d ++ o.r0

/-- The tail: T operand halfwords and the sync halfword (R68). -/
def encodeTail (o : Fields) (h0 h1 h2 : Half) : List Half := [h0, h1, h2].take o.t.toNat ++ o.sync.toList

/-- Operand halfword 0 of forms A and B (Tables 31, 32). -/
def halfAB (o : Fields) : Half := o.pg ++ o.fn.extractLsb' 0 3 ++ o.s1 ++ o.s2

/-- Operand halfword 0 of form C (Table 33). -/
def halfC0 (o : Fields) : Half := o.pg ++ o.fn ++ o.s1 ++ o.sz

/-- Operand halfword 1 of form C (Table 33). -/
def halfC1 (o : Fields) : Half := o.s2 ++ o.s3 ++ o.sc ++ o.md

/-- The head and tail halfwords of an instruction of forms A and B. -/
def encodeAB (major : Nat) (o : Fields) : Half × List Half :=
  (encodeHead o major, encodeTail o (halfAB o) (o.imm.extractLsb' 0 16) (o.imm.extractLsb' 16 16))

/-- The head and tail halfwords of an instruction of form C. -/
def encodeC (major : Nat) (o : Fields) : Half × List Half :=
  (encodeHead o major, encodeTail o (halfC0 o) (halfC1 o) (o.imm.extractLsb' 0 16))

/-- The head and tail halfwords of an instruction; an event has no encoding. -/
def encode (i : Inst) : Option (Half × List Half) :=
  match i.row.info with
  | .A m _ _ _ _ => some (encodeAB m i.o)
  | .B m _ _ _ => some (encodeAB m i.o)
  | .C m _ _ _ _ _ _ _ _ _ => some (encodeC m i.o)
  | .event => none

/-- The two bytes of a halfword, lowest address first (R67). -/
def halfBytes (h : Half) : List Byte := [h.extractLsb' 0 8, h.extractLsb' 8 8]

/-- A line that holds one instruction: header H = 1, its head, gap zeros, its tail at the top (R67, R69). -/
def lineOf (h : Half) (tl : List Half) : List Byte :=
  ([1, h] ++ List.replicate (30 - tl.length) 0 ++ tl).flatMap halfBytes

/-- Halfword k of a number of bits, bit 0 first. -/
def halfOfNat (w k : Nat) : Half := BitVec.ofNat 16 (w / 2 ^ (16 * k))

/-- The head and tail halfwords of an instruction whose bits are w: the first halfword is the head, the halfwords after it
its tail in ascending address order, every bit above nbits zero. -/
def partsOfNat (nbits w : Nat) : Half × List Half :=
  let v := w % 2 ^ nbits
  let h := halfOfNat v 0
  (h, (List.range (tailLen h)).map (fun j => halfOfNat v (1 + j)))

/-- The row the decoder reads from an instruction whose bits are w. -/
def decodeTableWord (nbits w : Nat) : Option Instr :=
  match decodeInstr (partsOfNat nbits w).1 (partsOfNat nbits w).2 with
  | .ok i => some i.row
  | .error _ => none

end Sys2Proof
end

