-- ==== Sys2Proof/Machine/State.lean ====
section
/-! DEFINITION. The state of the machine: everything the spec lets a program, the host or the hardware's own steps observe or
change, as plain data, and the state after hardware reset. Sparse tables list only the parts that differ from their reset value. -/

namespace Sys2Proof.Machine

open Sys2Proof

/-- Why the machine stops. Safe: the hardware goes on where the model stops. -/
inductive Fault where
  /-- Raised by no meaning: every access the spec gives no effect takes the trap the spec names. Kept so that the type of
  faults is not empty of names; safe. -/
  | noSuchMemory
deriving DecidableEq, Repr

/-- Why a step is refused. -/
inductive Refusal where
  /-- An instruction the model gives no meaning; raised by `exec` only; safe. -/
  | notModelled (mnemonic : String)
deriving DecidableEq, Repr

/-- A sparse table: keys in rising order, each at most once. -/
abbrev Tab (α : Type) := List (Nat × α)

/-- The entry at a key. -/
def Tab.find {α : Type} (t : Tab α) (k : Nat) : Option α :=
  match t with
  | [] => none
  | (j, x) :: r => if j = k then some x else Tab.find r k

/-- The entry at a key, or a default. -/
def Tab.get {α : Type} (t : Tab α) (k : Nat) (d : α) : α := (t.find k).getD d

/-- Write an entry, keeping the keys in rising order. -/
def Tab.set {α : Type} (t : Tab α) (k : Nat) (x : α) : Tab α :=
  match t with
  | [] => [(k, x)]
  | (j, y) :: r => if k < j then (k, x) :: (j, y) :: r else if j = k then (k, x) :: r else (j, y) :: Tab.set r k x

/-- Remove an entry. -/
def Tab.erase {α : Type} (t : Tab α) (k : Nat) : Tab α := t.filter (fun p => p.1 != k)

/-- A vector register (R20). -/
abbrev VReg := BitVec 512

/-- An accumulator: element (row, column) at row × 16 + column, FP32 (R23). -/
abbrev Acc := Vector (BitVec 32) 256

/-- An operand latch: 16 rows of 128 bytes (R23). -/
abbrev Latch := Vector (BitVec 1024) 16

/-- A wait a context stands in: the listed waits of Table 110 and the stops that are not listed (R357). -/
inductive Wait where
  /-- Sync halfword or CWAIT: counter and threshold. -/
  | counter (n thr : Nat)
  /-- LDFE or STFE at a word. -/
  | fullEmpty (word : Nat)
  /-- BAR or bar.wait. -/
  | bar
  /-- SLEEP with IMM = 0; `woken` when an event has ended it. -/
  | sleep (woken : Bool)
  /-- SLEEP with IMM > 0 cycles. -/
  | timed (cycles : Nat) (woken : Bool)
  | exit
  | forkFull
  | waitdep
  /-- GANG reservation, by size code 0, 1, 2. -/
  | gang (code : Nat)
  | tandem
  /-- Engine inbox full: engine number. -/
  | inbox (engine : Nat)
  /-- Range scoreboard stall: the bytes and whether they are written, the address; an empty range waits for a free entry (R183). -/
  | range (lo hi : Nat) (write : Bool) (ea : Word)
  | drain
  /-- GET or returning RAMO in flight: packet number. -/
  | value (pk : Nat)
  /-- Sixteen posted remote accesses outstanding (R188). -/
  | posted
  /-- A gateway line is fetched: its key, the address that asks for it, whether it is a fetch of code (R177, R382). -/
  | gateway (line : Nat) (ea : Word) (code : Bool)
  /-- An event sent by spur.post, or a message sent by an unbuffered SEND, whose answer has not come: its number (R264, R276). -/
  | answer (id : Nat)
  /-- spur.tick while the outgoing buffer of the unit is full (R261). -/
  | spur
  /-- Earlier work of the context must end first (EXIT, JOIN, a release): remote accesses, engine commands, the sequencer. -/
  | earlier
  /-- A matrix unit interlock or a full queue (R237, R241). -/
  | matrix
  /-- own.give waits for the end of close (R395). -/
  | close (pair st : Nat)
deriving DecidableEq, Repr

/-- Wait kind of Table 110; 0 for a stop that is not listed. -/
def Wait.kind : Wait → Nat
  | .counter _ _ => 1
  | .fullEmpty _ => 2
  | .bar => 3
  | .sleep _ => 4
  | .exit => 5
  | .forkFull => 6
  | .waitdep => 7
  | .gang _ => 8
  | .tandem => 9
  | .inbox _ => 10
  | .range _ _ _ _ => 11
  | .drain => 12
  | _ => 0

/-- States of Table 107. SLEEPING is a listed wait, WAITING an unlisted one; SUPERVISOR is the supervisor bit; SAVED contexts
stand in the save area in memory. -/
inductive CState where
  | outside
  | free
  | reserved
  | ready
  | waiting (w : Wait) (since : Nat)
  | halted (cause : Nat)
deriving DecidableEq, Repr

/-- How the context was started (R275, R149, R151). -/
inductive Origin where
  | control
  | task
  | spawn
  | deque
  | follower
deriving DecidableEq, Repr

/-- How control stands at the PC: within a line already fetched; entering by a transfer from a head (0 for a start or a
launch, R72); entering through TRAPVEC or UPCALLVEC (R39); entering by fall-through (R71); or entering the line after an empty line that
a fall-through has skipped (R71, R74). -/
inductive Entry where
  | inLine
  | from_ (src : Word)
  | vector
  | fall
  | skipped
deriving DecidableEq, Repr

/-- The remote error record of a context (R190). -/
structure RemErr where
  ctr : Option Nat
  cause : Nat
  addr : Word
  tag : BitVec 32
  ident : Nat
deriving DecidableEq, Repr

/-- A gang role: all members, leader first (R230, R235); `keep`: the scalar registers of this member before the stream instruction of which a
part is done while another member's answer is awaited, which a trap of that member gives back (R234). -/
structure GangRole where
  members : List CtxId
  keep : Option (Vector Word 32)
deriving DecidableEq, Repr

/-- Accesses that have happened before (R313): the numbers of their records, rising. -/
abbrev HbInfo := List Nat

/-- Released knowledge: scope, releasing context, what it covers (R312). -/
structure Released where
  scope : Nat
  by_ : CtxId
  info : HbInfo
deriving DecidableEq, Repr

/-- A write in memory that carries released knowledge (R310, R312). -/
structure RelRec where
  lo : Nat
  hi : Nat
  rel : Released
deriving DecidableEq, Repr

/-- A performed access on the core path: launch, flat bytes [lo, hi), whether it writes, whether the conflict detector still holds it
(R323, R324: a plain access of the present interval), its context, the accesses ordered before it, its tag and address. -/
structure AccRec where
  id : Nat
  launch : Nat
  lo : Nat
  hi : Nat
  write : Bool
  plain : Bool
  ctx : CtxId
  pre : HbInfo
  tag : BitVec 32
  addr : Word
deriving DecidableEq, Repr

/-- What a context knows of the orders of R307 and R312: what is ordered before every later access (`info`) and before every later write or
remote access (`winfo`); every access ordered before or made by an earlier instruction (`all`), and by an earlier read (`rds`); the same of the
present instruction (`ev`), with whether it made an access (`acc`) and read (`rd`), and what was ordered before it (`pre`); what release
fences let later writes release (`relF`) and what its reads met (`reads`, R310); what stood before the values that registers hold
(`deps`: s0 up at 0, p0 at 32, v0 at 64, a0 at 96, g0 at 104), that decided branches (`ctl`), and before the later accesses of an engine path
(`paths`, R180). -/
structure Hb where
  info : HbInfo
  winfo : HbInfo
  all : HbInfo
  rds : HbInfo
  pre : HbInfo
  ev : HbInfo
  acc : Bool
  rd : Bool
  relF : List Released
  reads : List Released
  deps : Tab HbInfo
  ctl : HbInfo
  paths : Tab HbInfo
deriving DecidableEq, Repr

/-- Nothing known. -/
def Hb.none_ : Hb :=
  { info := [], winfo := [], all := [], rds := [], pre := [], ev := [], acc := false, rd := false, relF := [], reads := [], deps := [],
    ctl := [], paths := [] }

/-- One overwritten run of bytes of an activation: flat address and old bytes (R421, R422). -/
structure Undo where
  addr : Nat
  old : List Byte
deriving DecidableEq, Repr

/-- The value a fabric packet, a message or a command is known by. -/
abbrev Ident := Nat

/-- A message or engine command (Tables 82–91): header fields, payload bytes, the launch it belongs to. `hdr` is HANDLER. -/
structure Msg where
  hdr : BitVec 40
  vt : Nat
  pos : Nat
  reply : BitVec 41
  src : Nat
  mc : Bool
  kind : Nat
  prio : Nat
  cls : Nat
  payload : List Byte
  dests : Word
  launch : Nat
  hb : HbInfo
deriving DecidableEq, Repr

/-- A run-queue entry (Table 11). -/
structure Task where
  handler : Word
  payload : List Byte
  reply : Word
  src : Nat
  cls : Nat
  prio : Nat
  seq : Nat
  passed : Nat
  replays : Nat
  launch : Nat
  hb : HbInfo
deriving DecidableEq, Repr

/-- A deque entry (R32, R148) with the knowledge its start acquires. -/
structure DqEntry where
  cont : Word
  frame : Word
  join : Word
  src : Nat
  hb : HbInfo
deriving DecidableEq, Repr

/-- The activation a context runs: the triggering task, the buffered messages with their tags, the undo log, whether its limits hold (R275, R421). -/
structure Activation where
  task : Option Task
  buf : List (Msg × BitVec 32)
  log : List Undo
  within : Bool
deriving DecidableEq, Repr

/-- One context (Table 9, R20–R26, R44–R46, R190, R354). `yieldTo`: contexts that issue before it after a YIELD (R155); `joined`:
context 0 has made the decrement of the JOIN at which it waits (R150); `gdone`: its part of the gang's present instruction is done, 1, posted, 2,
or on its way, 3 (R199); `wlog`:
memory writes of the present instruction, for the fingerprint (R425); `framed`: a trap came while a pre-emption is pending, which is taken with its frame (R154);
`joins`: counters that retired coll.join commands of it have signalled (R324); `body`: the lines of the checked body of a sequenced loop that it
runs (R227); `gbad`: latches with an error that cannot be corrected (R244, R423). -/
structure Ctx where
  s : Vector Word 32
  p : Vector Half 8
  v : Vector VReg 32
  a : Vector Acc 8
  g : Vector Latch 2
  pc : Word
  entry : Entry
  line : List Byte
  lpct : Word
  mode : BitVec 3
  seed : BitVec 32
  ff : BitVec 5
  kept : BitVec 5
  cause : Word
  trapPc : Word
  trapVal : Word
  trapTag : Word
  sup : Bool
  st : CState
  count : Nat
  cls : Nat
  prio : Nat
  origin : Origin
  err : Option RemErr
  posted : Nat
  remote : Nat
  commands : Nat
  act : Activation
  gang : Option GangRole
  yieldTo : List Nat
  joined : Bool
  gdone : Nat
  wlog : List (Word × List Byte)
  framed : Bool
  joins : List Nat
  body : List (Word × List Byte)
  gbad : BitVec 2
  hb : Hb
deriving DecidableEq, Repr

/-- A rein counter (R27). -/
structure Rein where
  v : Half
  e : Bool
deriving DecidableEq, Repr

/-- A gait (R30, R249). -/
structure Gait where
  len : Nat
  ops : List (BitVec 32)
  k : List (BitVec 32)
deriving DecidableEq, Repr

/-- A scoreboard entry (R183): line ranges of destination and source with the command they belong to. -/
structure SbEntry where
  cmd : Ident
  dst : Option (Nat × Nat)
  src : Option (Nat × Nat)
deriving DecidableEq, Repr

/-- Barrier state of a core (R196–R198): arrival of the current episode recorded, phase, tokens from west and south, the row
to the west complete, release passing. -/
structure BarState where
  arrived : Bool
  phase : Bool
  west : Bool
  south : Bool
  sentEast : Bool
  sentNorth : Bool
  release : Bool
  hb : HbInfo
deriving DecidableEq, Repr

/-- A vector instruction handed to the sequencer (R224): context, instruction, its PC, line and rounding state; what its sync wait took (R307);
since when the range scoreboard holds its access (R183, R223). -/
structure SeqEntry where
  ctx : Nat
  inst : Inst
  pc : Word
  entry : Entry
  line : List Byte
  count : Nat
  mode : BitVec 3
  info : HbInfo
  held : Option Nat
deriving DecidableEq, Repr

/-- Stages of a matrix instruction in the queue: issued, and its operand read ended (R237, R241). -/
inductive MStage where
  | issued
  | read
deriving DecidableEq, Repr

/-- Bytes of an access that has passed its checks: effective address, length, flat address. -/
structure Seg where
  ea : Word
  n : Nat
  a : Nat
deriving DecidableEq, Repr

/-- A matrix instruction in the matrix queue (R237): what was handed over, its stage, what its issue has read and checked (rows to update, R239,
flat address of the B block, A scales, gait, the bytes of each row), its accesses so far (R307), and its result once the operand read has ended. -/
structure MEntry where
  q : SeqEntry
  stage : MStage
  m : Nat
  base : Nat
  scales : List Byte
  gait : Gait
  segs : List (List Seg)
  made : HbInfo
  res : Option Acc
deriving DecidableEq, Repr

/-- Tandem state of a core (R297): its partner, and whether it is the primary. The entries of the shadow core hold what it set aside;
its working copy is the primary's, with which it agrees at every agreed point (R426; log 15). -/
structure Tandem where
  partner : Nat
  primary : Bool
deriving DecidableEq, Repr

/-- Open interval of a context of a tandem pair (R425–R428): fingerprint, retired instructions, consecutive disagreements, the context,
fingerprint and count at the agreed point, and the window stores made since. -/
structure Finger where
  fp : BitVec 64
  len : Nat
  bad : Nat
  base : Option Ctx
  fp0 : BitVec 64
  len0 : Nat
  log : List Undo
deriving DecidableEq, Repr

/-- Launch parameters a core holds while it belongs to a launch (R63, R64, R336). -/
structure CoreLaunch where
  id : Nat
  h : Nat
  stack : Nat
  vec : Bool
  mode : Nat
  seed : Nat
  leader : Nat
  unit : List Nat
  notice : Word
  nclass : Nat
deriving DecidableEq, Repr

/-- A line of code that a core has fetched: where it lay, unless it came through a gateway, and its bytes (R75). -/
structure CodeLine where
  place : Option Nat
  bytes : List Byte
deriving DecidableEq, Repr

/-- One core; `thru`: the tokens of barrier sweeps of launches it is not in, which pass it (R197, R344); `pending`: released messages without a final answer (R153); `report`: cause, TRAPVAL and tag of a refused buffered message
that context 0 has not taken (R276); `reinHb`, `reinAcq`: what the signals of each counter have carried, and released (R307, R290); `consumed`: consumed signals to be raised, as context, counter and the tags of the instructions whose operand read has to
end (R245) (R27–R32, R36–R50, R183, R196, R224, R237, R297). -/
structure Core where
  rein : Tab Rein
  dec : Tab (BitVec 19)
  decIdx : BitVec 8
  gaits : Tab Gait
  runq : List Task
  arrivals : Nat
  deque : List DqEntry
  trapVec : Word
  upcallVec : Word
  classEn : Half
  waitLim : BitVec 32
  barRect : Half
  detmode : BitVec 3
  ctlPrio : Bool
  cycle0 : Nat
  launch : Option CoreLaunch
  bar : BarState
  thru : Tab BarState
  sb : List SbEntry
  code : Tab CodeLine
  vseq : List SeqEntry
  mq : List MEntry
  consumed : List (Nat × Nat × List Nat)
  last : Nat
  tandem : Option Tandem
  fingers : Tab Finger
  pending : Nat
  report : Option (Nat × Word × Nat)
  reinHb : Tab HbInfo
  reinAcq : Tab HbInfo
deriving DecidableEq, Repr

/-- A cached translation of a tile's network interface (R388): tree (die, or 64 + stack number of the pair), first page address,
page bytes, frame base, rights bits of the entry, lease code, expiry pace. -/
structure TransEntry where
  tree : Nat
  base : Nat
  size : Nat
  frame : Nat
  entry : Word
  expiry : Nat
deriving DecidableEq, Repr

/-- A line of a gateway cache (R390, R446): whose memory it is, a die's or, from 64 on, a pair's shared stacks; line address (with the pair-window
bit), bytes, expiry on the issuing die's pace, the entry it was fetched under; `grant`: held for the one access that fetched it; `port`: the edge,
in the codes of the route tables, by which the route to its home leaves. -/
structure GwLine where
  home : Nat
  port : Nat
  va : Nat
  bytes : List Byte
  expiry : Nat
  entry : Word
  grant : Option Nat
deriving DecidableEq, Repr

/-- Copy of a stack's state word (Table 95, R394). -/
structure StackWord where
  gen : Nat
  flight : Bool
  owner : Nat
deriving DecidableEq, Repr

/-- A request waiting at the home of a full/empty word (R185): word, context, what it waits for. -/
inductive FeKind where
  | take
  | peek
  | fill (v : Word)
deriving DecidableEq, Repr

structure FeReq where
  word : Nat
  ea : Word
  ctx : CtxId
  kind : FeKind
  d : BitVec 5
deriving DecidableEq, Repr

/-- The launch descriptor (Table 101). -/
structure Desc where
  entry : Word
  args : Word
  upcall : Word
  dies : Word
  groups : Nat
  waitlim : Nat
  seed : Nat
  classen : Nat
  rect : Nat
  slots : Nat
  helpers : Nat
  unit : Nat
  vec : Bool
  deal : Nat
  rmode : Nat
  detmode : Nat
  stack : Nat
  static_ : Nat
  plb0 : Nat
  plb1 : Nat
  plb2 : Nat
  dep : Nat
  cop : Nat
  depptr : Word
  target : Nat
  reply : Word
  notice : Word
  nclass : Nat
deriving DecidableEq, Repr

/-- Dispatcher states of Table 109. -/
inductive DState where
  | validating
  | waiting
  | entering
  | dealing
  | stealing
  | drained
  | ending
  | done
  | preempted
deriving DecidableEq, Repr

/-- What one named die's dispatcher holds for a launch (R340–R346, R356): state, undispatched ranges in ascending order (first group and
number), size of the share, weight, the first wave once the die has entered, tiles entered and tiles pre-empted, dies tried in the present
sweep, whether it is over, and the die whose answer is awaited. -/
structure Share where
  vd : Nat
  st : DState
  ranges : List (Nat × Nat)
  size : Nat
  weight : Nat
  wave : Option Nat
  entered : List Nat
  saved : List Nat
  tried : List Nat
  swept : Bool
  asking : Option Nat
deriving DecidableEq, Repr

/-- A registered reduction buffer (R292): home die, tile of the registering command, base pointer, element type, elements. -/
structure Registration where
  home : Nat
  vt : Nat
  ptr : Word
  et : Nat
  len : Nat
deriving DecidableEq, Repr

/-- A declared digest region (R293); no result pointer: nothing is written. -/
structure DigestDecl where
  vt : Nat
  region : Word
  len : Nat
  result : Option Word
  sup : Bool
  issuer : CtxId
  tag : BitVec 32
deriving DecidableEq, Repr

/-- A pending exact sum of a registered element (R327): the element's pointer and index, the tile of the registering command, the home
die, and the FP32 contributions. -/
structure PendSum where
  ptr : Word
  idx : Nat
  vt : Nat
  home : Nat
  terms : List (BitVec 32)
deriving DecidableEq, Repr

/-- What stays with a saved context beside its image: a frame is held, the instructions it has issued (R26), errors of its latches, the state it
was saved from and the cycles it had waited, with its line (R354, R372), the decrement of its JOIN is made, what it knows (R313), the members of
a gang it leads (R235). -/
structure Parked where
  key : Nat
  frame : Bool
  count : Nat
  gbad : BitVec 2
  st : CState
  waited : Nat
  line : List Byte
  joined : Bool
  hb : Hb
  joins : List Nat
  gang : List CtxId
deriving DecidableEq, Repr

/-- A launch as its dispatchers hold it (R331–R349, R356); `stage`: how far its end is, 1 with steps 1 and 2 of R338 done, 2 with its
status sent; `closing`: its buffers are settled and its digests are being computed, with the entry (die, slot) the digest unit waits for and the
cause with which a pager core ended that wait (R293); `failed`: cores that failed at entry (R335); `parked`, `parkedCores`: what a pre-emption keeps beside its records (R370); `idleSince` and `hangArmed` serve the detector of R359. -/
structure Launch where
  id : Nat
  die : Nat
  desc : Desc
  producers : List Nat
  shares : List Share
  triggered : List Nat
  node : Option Nat
  succ : List Nat
  ended : Bool
  stage : Nat
  cancelled : Bool
  failCause : Nat
  failDetail : Nat
  failTile : Option Nat
  failed : List Nat
  parked : List Parked
  parkedCores : Tab Core
  closing : Bool
  dtoken : Option (Nat × Nat)
  dfail : Option (Nat × Word)
  digestFail : Nat
  settleFail : Nat
  dealt : Nat
  regs : List Registration
  digests : List DigestDecl
  sums : List PendSum
  idleSince : Nat
  hangArmed : Bool
  hb : HbInfo
deriving DecidableEq, Repr

/-- A control operation on a launch in progress (R368–R373): operation, target, tiles still to do and all it names, save area,
reply, whether it has begun, the dispatcher that takes it. -/
structure Control where
  op : Nat
  target : Nat
  tiles : List Nat
  all : List Nat
  save : Word
  reply : Word
  begun : Bool
  die : Nat
deriving DecidableEq, Repr

/-- A graph node entry of a dispatcher (R348). -/
structure GraphNode where
  index : Nat
  launch : Nat
  counter : Nat
deriving DecidableEq, Repr

/-- A steal answer in flight (R345, R346): launch, thief, victim, the groups it gives. -/
structure Answer where
  launch : Nat
  thief : Nat
  victim : Nat
  ranges : List (Nat × Nat)
deriving DecidableEq, Repr

/-- A good virtual die (R1, R33, R447): physical site, kind, pair number, virtual partner, positions not presented, the
dead positions of each tile site, the sites retired before the panel reset (R413), and by class the route codes that firmware supplied (R439). -/
structure DieInfo where
  phys : Nat
  canter : Bool
  pair : Nat
  mate : Option Nat
  hidden : List Nat
  dead : List (Nat × List Nat)
  retired : List Nat
  routes : Tab (List Nat)
deriving DecidableEq, Repr

/-- A spur event (Table 77) with its source tile (R257). -/
structure SpurEvent where
  tick : Nat
  src : Nat
  seq : Nat
  kind : Nat
  vt : Nat
  neuron : Nat
  value : BitVec 32
deriving DecidableEq, Repr

/-- What remains of a fire whose emission has stopped (R261): neuron, tick, recorded state, next record index and records left; `hdr`: the
header is still to be read. -/
structure Emit where
  neuron : Nat
  tick : Nat
  state : BitVec 32
  next : Nat
  left : Nat
  hdr : Bool
deriving DecidableEq, Repr

/-- A spur bank (R254–R264): configuration (Table 76), gait copy, mode, P0, handler core, issuer and its mode, open tick, counters,
sequence, queue, a stopped close, the fault entry of an absent page it waits for, and the cause a pager core left for it (R260). `gen` tells the
events this bank has emitted from those of an earlier one; the outgoing buffer is the unit's events in the fabric that have no answer (R261). -/
structure Bank where
  base : Nat
  count : Nat
  cls : Nat
  fire : Bool
  trapLate : Bool
  refr : Nat
  thr : BitVec 32
  reset : BitVec 32
  period : Nat
  table : Word
  handler : Word
  t0 : Nat
  p0 : Nat
  logical : Bool
  gait : Gait
  core : CoreId
  issuer : CtxId
  sup : Bool
  launch : Nat
  h : Nat
  late : Nat
  dropped : Nat
  fires : Nat
  errors : Nat
  lastDrop : Nat
  seq : Nat
  queue : List SpurEvent
  gen : Nat
  pend : Option Emit
  token : Option (Nat × Nat)
  tokFail : Option Nat
deriving DecidableEq, Repr

/-- Kinds of engine commands (Table 88). -/
inductive CmdKind where
  | copy
  | gather
  | latch
  | reduce
  | register
  | bcast
  | join
  | digest
deriving DecidableEq, Repr

/-- An engine command (R281–R293): issuer with its launch, mode and tag, pointers with coordinates resolved, the third operand word,
rows, counter, latch number, row size code, contributor; `row` counts the rows performed, `token` names the fault entry of an absent
page it waits for, `fail` the cause, its detail and the address of what failed; `hb` is what its issue released; `gone`: its context was
cancelled (R373). -/
structure Cmd where
  id : Ident
  kind : CmdKind
  issuer : CtxId
  vt : Nat
  launch : Nat
  sup : Bool
  tag : BitVec 32
  dst : Word
  src : Word
  w : Word
  m : Nat
  ctr : Option Nat
  latch : Nat
  z : Nat
  who : Nat
  row : Nat
  token : Option (Nat × Nat)
  fail : Option (Nat × Nat × Word)
  hb : HbInfo
  gone : Bool
deriving DecidableEq, Repr

/-- A SEND or spur.post whose answers are awaited (R276, R265): its context, tag, destinations without an answer, the lowest refusing
tile with its cause; for an event whether it was late and its bank traps it, and what TRAPVAL takes; `gone`: its context was cancelled. -/
structure SendRec where
  id : Ident
  ctx : CtxId
  tag : BitVec 32
  spur : Bool
  buffered : Bool
  launch : Nat
  pos : Nat
  left : Nat
  fail : Option (Nat × Nat)
  late : Bool
  val : Word
  gone : Bool
deriving DecidableEq, Repr

/-- A remote access on its way (R186–R191): kind 0 GET, 1 PUT, 2 RAMO; stage 0 toward its home, 1 waiting for a pager core, 2 on
its way back. `fault` and `detail` are what the home answers, 0 when it did not fail; `ident` is the interface that answered; `gone`: its
context was cancelled; `hb`: the accesses ordered before it, and its own on the way back; `rels`: what its write releases, and on the way
back what its read met (R310, R318). -/
structure Remote where
  kind : Nat
  returning : Bool
  size : Nat
  fn : Nat
  md : Nat
  sc : Nat
  data : Word
  ea : Word
  abs : Word
  issuer : CtxId
  tag : BitVec 32
  d : BitVec 5
  ctr : Option (Nat × Nat)
  sup : Bool
  launch : Nat
  stage : Nat
  fault : Nat
  detail : Nat
  ident : Nat
  value : Word
  gone : Bool
  taken : Bool
  hb : HbInfo
  rels : List Released
deriving DecidableEq, Repr

/-- What a packet carries: a message with its refused tries and the send it belongs to; a spur event with its refused tries, the unit
and bank it comes from or the post it belongs to; or a remote access. -/
inductive Payload where
  | msg (m : Msg) (tries : Nat) (send : Option Nat)
  | spur (e : SpurEvent) (tries : Nat) (unit : Option (Nat × Nat)) (send : Option Nat) (launch : Nat)
  | remote (r : Remote)
deriving DecidableEq, Repr

/-- A packet in the fabric: the virtual tile at whose router it is latched, the tile it goes to, its site there once fixed (R402); of a multicast
message in a die, the slot and the fixed site of each of its tiles there; whether it waits at its sender for a retry, its class, its place in the
order in which packets reached their routers (R436), and what it carries. -/
structure Packet where
  id : Nat
  at_ : Nat
  dst : Nat
  site : Option Nat
  sites : List (Nat × Nat)
  retry : Option Nat
  cls : Nat
  seq : Nat
  pl : Payload
deriving DecidableEq, Repr

/-- What the fuses of a tile site hold (R412, R413): retired, and bytes 16 to 87 of its site record. -/
structure Fuse where
  retired : Bool
  bins : List Byte
deriving DecidableEq, Repr

/-- Progress of a stack hand-over (R395): the stack, the issuing core with its counter, the tile that serves it, the steps ended. -/
structure Hand where
  st : Nat
  issuer : CoreId
  ctr : Option Nat
  closed : Bool
  drained : Bool
  written : Bool
  leased : Bool
deriving DecidableEq, Repr

/-- A rotation in progress (R405): slot, the sites it leaves and takes, pace at which it was armed. -/
structure Rot where
  slot : Nat
  victim : Nat
  target : Nat
  since : Nat
deriving DecidableEq, Repr

/-- One tile: pool bounds and CKBASE (R43), its clock region (R385, R386, R449–R451: uncertain, offset of its pace from the reference,
its rate while it counts from its own clock in parts of 10,000, beacons missed and good beacons in a row, reference lost, core periods since
the last stretched one, and how far its core clock is behind the nominal edges, in 10,000ths of a period), the phase mark (R160), whether a
rotation drains it or has drained it, debug has halted it, its slot is lost or under maintenance (R406, R414, R415, R465), idle (R463), translation
cache (R388), register backing reserved (R337: launch, offset, bytes), overflow area (R31: position and task), spur bank, engine
inboxes (R281), and the contributions the collective engine has taken from its inbox, whose episodes are not complete (R289). Entry 512 + d holds
the clock region of the site of die d that has no slot. -/
structure Tile where
  plb0 : Nat
  plb1 : Nat
  plb2 : Nat
  ckbase : Nat
  uncertain : Bool
  ofs : Int
  drift : Int
  missed : Nat
  good : Nat
  refLost : Bool
  sinceStretch : Nat
  lag : Int
  phase : Nat
  draining : Bool
  stopped : Bool
  halted : Bool
  lost : Bool
  maint : Bool
  idle : Bool
  tcache : List TransEntry
  backing : List (Nat × Nat × Nat)
  overflow : List (Nat × Task)
  bank : Option Bank
  copyQ : List Cmd
  gatherQ : List Cmd
  collQ : List Cmd
  digestQ : List Cmd
  collHeld : List Cmd
deriving DecidableEq, Repr

/-- The sending end of a lane (R430, R452): the sequence number of its next frame, and the last 64 frames it sent. -/
structure Lane where
  next : Nat
  sent : List (List Byte)
deriving DecidableEq, Repr

/-- The journal of a site's epoch (R418): line numbers of the scratchpad with their copies and check codes, the words of it that were poisoned, and
whether it has been read back and checked, and committed. -/
structure Journal where
  lines : List (Nat × List Byte × BitVec 32)
  bad : List Nat
  checked : Bool
  committed : Bool
deriving DecidableEq, Repr

/-- One die: launches validated (R334), the die named by the latest launch.steal (R345), graph nodes and pending decrements with what their launches released (R348, R349, R321),
stack words and hand-overs (R394, R395), gateway lines (R446), bridle table (R401), rotation (R405), the site to be rotated first
(R412, R428), periods in which a rotation has been armed or skipped (R403), moment of each site's last epoch (R418), seconds counted into exposure bins and hours written to fuses
(R412), what pager cores in service resolved, by entry (R366), journals of the sites' epochs (R418), consecutive failed replays by lane, senders of the lanes and removed
lanes of its Tether ports (R430, R452; edge × 32 + lane, the ports as edge 4), flits counted by its injectors (R432), unlocked debug level and slots (R465). Its
memory-mapped words lie in memory. -/
structure Die where
  launches : Nat
  stealFirst : Option Nat
  nodes : List GraphNode
  pendDec : Tab Nat
  pendHb : Tab HbInfo
  stackWords : List StackWord
  hands : List Hand
  gw : List GwLine
  bridle : List (BitVec 16)
  rot : Option Rot
  first : Option Nat
  armed : Nat
  epochs : Tab Nat
  secs : Nat
  hours : Nat
  service : Tab Nat
  journals : Tab Journal
  fails : Tab Nat
  lanes : Tab Lane
  portDown : Nat
  inj : List Nat
  dbgLevel : Nat
  dbgMask : Nat
deriving DecidableEq, Repr

/-- The host bridge (R458, R459): completion base, window die, dropped-write count, writes to the host, interrupts raised, the bytes the
latest read returned; the PUTs that are not performed (pointer and bytes), the entry (die, slot) the first waits for, and the cause with which a pager
core ended that wait (R188). -/
structure Bridge where
  base : Word
  win : Nat
  dropped : Nat
  out : List (Nat × List Byte)
  irqs : Nat
  data : List Byte
  held : List (Word × List Byte)
  token : Option (Nat × Nat)
  tokFail : Option Nat
deriving DecidableEq, Repr

/-- Identity and life-cycle (R462, R466): device key held, life-cycle state of Table 137, highest debug level since panel reset, below
floor, and without a site that holds firmware and bridge (R448). -/
structure Attest where
  key : Bool
  life : Nat
  high : Nat
  below : Bool
  dark : Bool
deriving DecidableEq, Repr

/-- A context before it is entered: registers zero (log 3), PC in no program, helpers free, context 0 outside (R63). -/
def Ctx.reset (ctx : Nat) : Ctx :=
  { s := Vector.replicate 32 0, p := Vector.replicate 8 0, v := Vector.replicate 32 0,
    a := Vector.replicate 8 (Vector.replicate 256 0), g := Vector.replicate 2 (Vector.replicate 16 0),
    pc := 0, entry := .from_ 0, line := [], lpct := 0, mode := 0, seed := 0, ff := 0, kept := 0,
    cause := 0, trapPc := 0, trapVal := 0, trapTag := 0, sup := false,
    st := if ctx = 0 then .outside else .free, count := 0, cls := 0, prio := 0, origin := .control,
    err := none, posted := 0, remote := 0, commands := 0,
    act := { task := none, buf := [], log := [], within := true },
    gang := none, yieldTo := [], joined := false, gdone := 0, wlog := [], framed := false, joins := [], body := [], gbad := 0,
    hb := Hb.none_ }

/-- A core after reset: outside every launch, registers of Table 13 (R63). -/
def Core.reset : Core :=
  { rein := [], dec := [], decIdx := 0, gaits := [], runq := [], arrivals := 0, deque := [],
    trapVec := 0, upcallVec := 0, classEn := 0, waitLim := 0x01000000, barRect := 0, detmode := 0, ctlPrio := false,
    cycle0 := 0, launch := none,
    bar := { arrived := false, phase := false, west := false, south := false, sentEast := false, sentNorth := false,
             release := false, hb := [] },
    thru := [], sb := [], code := [], vseq := [], mq := [], consumed := [], last := 0, tandem := none, fingers := [], pending := 0, report := none, reinHb := [], reinAcq := [] }

/-- A tile after reset (Table 13; CKBASE: log 6). -/
def Tile.reset : Tile :=
  { plb0 := 0, plb1 := 0, plb2 := Config.ckbase, ckbase := Config.ckbase, uncertain := false, ofs := 0, drift := 0, missed := 0, good := 0, refLost := false,
    sinceStretch := 4, lag := 0, phase := 0, draining := false, stopped := false, halted := false, lost := false, maint := false, idle := false,
    tcache := [], backing := [], overflow := [], bank := none, copyQ := [], gatherQ := [], collQ := [], digestQ := [], collHeld := [] }

/-- A bridle entry: slot held by a site, no rotation yet (Table 123). -/
def bridleOf (site : Nat) : BitVec 16 := BitVec.ofNat 16 (0xf0 + site)

/-- A die after reset; `owner` is the Gallop of its pair, or the Canter when the Gallop site is not good (R394). Slot s is held by site s
(log 6). -/
def Die.reset (owner : Nat) : Die :=
  { launches := 0, stealFirst := none, nodes := [], pendDec := [], pendHb := [], stackWords := [⟨0, false, owner⟩, ⟨0, false, owner⟩], hands := [],
    gw := [], bridle := (List.range 8).map bridleOf, rot := none, first := none, armed := 0, epochs := [], secs := 0, hours := 0, service := [], journals := [], fails := [], lanes := [], portDown := 0,
    inj := [0, 0, 0, 0, 0], dbgLevel := 0, dbgMask := 0 }

/-- Virtual die d of a panel with every site good and every core live (R1, R33, R447; log 5). -/
def DieInfo.full (d : Nat) : DieInfo :=
  { phys := d % 32 / 4 * 8 + d % 4 * 2 + d / 32, canter := decide (32 ≤ d), pair := d % 32,
    mate := some (if d < 32 then d + 32 else d - 32), hidden := [], dead := [], retired := [], routes := [] }

/-- The machine. -/
structure State where
  /-- Model's own: the context and operand fields of the instruction, or the arguments of the event, now executing (log 1). -/
  cur : CtxId
  op : Fields
  ev : EvArgs
  ahead : Bool
  /-- Model's own: the turns to come, and the counters that draw free values (log 2). -/
  inputs : List Turn
  turns : Nat
  free : Nat
  /-- Memory: rising flat addresses, no byte equal to the background (R9, R62, R63). -/
  mem : List Host.Cell
  /-- Words whose full/empty tag is full, rising (R184); waiting requests in arrival order (R185); poisoned words (R419). -/
  full : List Nat
  feq : List FeReq
  poison : List Nat
  /-- Lines of home memory that a cache slice has written and not written back, by flat address ÷ 64, with the bytes behind them (R58, R193). -/
  dirty : Tab (List Byte)
  /-- Lines of scratchpads that the present epochs have marked, by flat address ÷ 64 (R418); control words that were stored and on which hardware
  acts at the next turn, by flat address (R418, R453). -/
  marks : List Nat
  acts : List Nat
  ctxs : Tab Ctx
  cores : Tab Core
  tiles : Tab Tile
  dies : Tab Die
  panel : List DieInfo
  featAck : Word
  featSet : Bool
  pace : Nat
  edges : Nat
  launches : List Launch
  controls : List Control
  answers : List Answer
  nextId : Nat
  recs : List AccRec
  rels : List RelRec
  net : List Packet
  sends : List SendRec
  retiring : List Cmd
  bridge : Bridge
  attest : Attest
  /-- Fuses by physical site × 16 + tile site (R412). -/
  fuses : Tab Fuse
deriving DecidableEq, Repr

/-- The machine right after hardware reset, before firmware accepts a feature or a launch enters (R63, R461; logs 2–6). -/
def State.reset : State :=
  { cur := ⟨⟨0, 0⟩, 0⟩, op := Fields.zero, ev := EvArgs.zero, ahead := false, inputs := [], turns := 0, free := 0,
    mem := [], full := [], feq := [], poison := [], dirty := [], marks := [], acts := [], ctxs := [], cores := [], tiles := [], dies := [],
    panel := (List.range 64).map DieInfo.full, featAck := 0, featSet := false, pace := 0, edges := 0,
    launches := [], controls := [], answers := [], nextId := 0, recs := [], rels := [], net := [],
    sends := [], retiring := [], bridge := { base := 0, win := 0, dropped := 0, out := [], irqs := 0, data := [], held := [], token := none, tokFail := none },
    attest := { key := true, life := 2, high := 0, below := false, dark := false }, fuses := [] }

end Sys2Proof.Machine
end

