-- ==== Sys2Proof/Machine/Panel.lean ====
section
/-! DEFINITION. What boot makes of the good die sites (R33, R400, R439, R443, R447, R461): neighbours and routes on the grid, the sites
of a die, and the control blocks that firmware leaves in die commons. -/

namespace Sys2Proof.Machine

open Sys2Proof

/-! The grid (R1) and routes (R438, R439). -/

/-- The physical site beyond an edge: 1 east, 2 north, 3 west, 4 south. -/
def neighbour (site dir : Nat) : Option Nat :=
  match dir with
  | 1 => if site % 8 < 7 then some (site + 1) else none
  | 2 => if site / 8 < 7 then some (site + 8) else none
  | 3 => if 0 < site % 8 then some (site - 1) else none
  | 4 => if 0 < site / 8 then some (site - 8) else none
  | _ => none

/-- The edge of the neighbour that faces back. -/
def opposite (dir : Nat) : Nat := if dir = 1 then 3 else if dir = 3 then 1 else if dir = 2 then 4 else 2

/-- The virtual die on a physical site, when the site is good. -/
def dieAt (panel : List DieInfo) (site : Nat) : Option Nat := panel.findIdx? (fun i => i.phys == site)

/-- Good sites. -/
def goodSites (panel : List DieInfo) : List Nat := panel.map (fun i => i.phys)

/-- A distance that no route has. -/
def far : Nat := 1000

/-- Distances on the grid, improved n times: `f` gives a site's distance from those of all sites. -/
def improve (f : List Nat → Nat → Nat) : Nat → List Nat → List Nat
  | 0, l => l
  | n + 1, l => improve f n ((List.range 64).map (f l))

/-- Good neighbours of a site with the edge to them. -/
def goodNext (good : List Nat) (site : Nat) : List (Nat × Nat) :=
  [1, 2, 3, 4].filterMap (fun d => match neighbour site d with
    | some n => if good.contains n then some (d, n) else none
    | none => none)

def minOf (l : List Nat) : Nat := l.foldl min far

/-- The level of every good site: its hop distance from the site of virtual die 0 (R439). -/
def levels (good : List Nat) : List Nat :=
  improve (fun l site => if good.head? = some site then 0 else minOf ((goodNext good site).map (fun n => 1 + l.getD n.2 far))) 64
    (List.replicate 64 far)

/-- A hop is "up". -/
def isUp (lv : List Nat) (a b : Nat) : Bool :=
  decide (lv.getD b far < lv.getD a far) || (lv.getD b far == lv.getD a far && decide (b < a))

/-- Lengths of the shortest routes to a site that hop down only. -/
def downTo (good lv : List Nat) (dst : Nat) : List Nat :=
  improve (fun l site => if site = dst then 0
    else minOf (((goodNext good site).filter (fun n => !isUp lv site n.2)).map (fun n => 1 + l.getD n.2 far))) 64 (List.replicate 64 far)

/-- Lengths of the shortest legal routes to a site. -/
def legalTo (good lv : List Nat) (dst : Nat) : List Nat :=
  let dn := downTo good lv dst
  improve (fun l site => if site = dst then 0
    else minOf ((goodNext good site).map (fun n => 1 + (if isUp lv site n.2 then l.getD n.2 far else dn.getD n.2 far)))) 64
    (List.replicate 64 far)

/-- The entry of the computed route table (R439): 0 local, 1 east, 2 north, 3 west, 4 south, 7 no route. -/
def routeCode (panel : List DieInfo) (src dst : Nat) : Nat :=
  if panel.length ≤ dst ∨ panel.length ≤ src then 7
  else if src = dst then 0
  else
    let good := goodSites panel
    let lv := levels good
    let a := good.getD src 0
    let b := good.getD dst 0
    let dn := downTo good lv b
    let up := legalTo good lv b
    let best := up.getD a far
    match (goodNext good a).find? (fun n => best == 1 + (if isUp lv a n.2 then up.getD n.2 far else dn.getD n.2 far)) with
    | some n => if best < far then n.1 else 7
    | none => 7

/-- The entry of a class's route table: as firmware supplied it, else as computed (R438, R439). -/
def routeAt (panel : List DieInfo) (cls src dst : Nat) : Nat :=
  match panel[src]?.bind (fun i => i.routes.find cls) with
  | some l => if dst < panel.length then l.getD dst 7 else 7
  | none => routeCode panel src dst

/-- A route of a table from a die to another hops up, then down, and ends there. -/
def legalFrom (panel : List DieInfo) (lv : List Nat) (code : Nat → Nat) (dst : Nat) : Nat → Nat → Bool → Bool
  | 0, d, _ => d == dst
  | n + 1, d, down =>
    if d = dst then code d == 0
    else
      let a := (goodSites panel).getD d 0
      match (neighbour a (code d)).bind (fun b => (dieAt panel b).map (fun x => (b, x))) with
      | some (b, x) => !(down && isUp lv a b) && legalFrom panel lv code dst n x (down || !isUp lv a b)
      | none => false

/-- Route tables that signed firmware supplies: `tables class die` gives a die's codes for a class. Boot accepts a class's tables when every route in
them is legal (R439). -/
def acceptRoutes (panel : List DieInfo) (tables : Nat → Nat → Option (List Nat)) : List DieInfo :=
  let lv := levels (goodSites panel)
  let dies := List.range panel.length
  let legal := fun (c : Nat) => dies.all (fun d => (tables c d).isSome) && dies.all (fun dst => dies.all (fun src =>
    legalFrom panel lv (fun d => ((tables c d).getD []).getD dst 7) dst 64 src false))
  let cs := (List.range 16).filter legal
  panel.mapIdx (fun d i => { i with routes := cs.map (fun c => (c, (tables c d).getD [])) })

/-- Tether ports of a die: one on each outer side (R456). -/
def tetherPorts (site : Nat) : Nat := ([1, 2, 3, 4].filter (fun d => (neighbour site d).isNone)).length

/-! Tile sites of a die (R33, R400). -/

def DieInfo.deadAt (i : DieInfo) (k : Nat) : List Nat := match i.dead.find? (fun x => x.1 == k) with | some x => x.2 | none => []

/-- The site is fit for service: not retired, with at least 184 live cores. -/
def DieInfo.fit (i : DieInfo) (k : Nat) : Bool := !i.retired.contains k && decide ((i.deadAt k).length ≤ 8)

def DieInfo.fitSites (i : DieInfo) : List Nat := (List.range 9).filter i.fit

/-- Boot puts the slots on the fit sites in ascending order; the ninth is the spare (log 6). -/
def DieInfo.siteOf (i : DieInfo) (slot : Nat) : Nat := i.fitSites.getD slot 0xf
def DieInfo.slotAt (i : DieInfo) (site : Nat) : Nat :=
  match ((List.range 8).find? (fun s => i.siteOf s == site)) with | some s => s | none => 0xf
def DieInfo.spare (i : DieInfo) : Nat := i.siteOf 8

/-- The presented positions: those of the lowest-numbered fit site with the fewest live cores (R33). -/
def DieInfo.present (i : DieInfo) : DieInfo :=
  let n := i.fitSites.foldl (fun m k => max m (i.deadAt k).length) 0
  { i with hidden := match i.fitSites.find? (fun k => (i.deadAt k).length == n) with | some k => i.deadAt k | none => [] }

/-- The map of a site: each presented position with the site's own live core that serves it (R33). It follows from the presented set and the
site's live cores, so a core that a test fuses off makes it again, and it goes with the site's place in the bridle table at a rotation. -/
def DieInfo.siteMap (i : DieInfo) (site : Nat) : List (Nat × Nat) :=
  let live := (List.range 192).filter (fun p => !(i.deadAt site).contains p)
  let shown := (List.range 192).filter (fun p => !i.hidden.contains p)
  (shown.filter live.contains).map (fun p => (p, p)) ++ (shown.filter (fun p => !live.contains p)).zip (live.filter (fun p => !shown.contains p))

/-- The core of a site that serves a presented position (R33). -/
def DieInfo.ownCore (i : DieInfo) (site pos : Nat) : Option Nat := ((i.siteMap site).find? (fun x => x.1 == pos)).map (fun x => x.2)

/-! Control blocks that boot leaves in the commons of a die. -/

/-- Byte k of a number, little-endian (R15). -/
def byteOf (n k : Nat) : Byte := BitVec.ofNat 8 (n / 2 ^ (8 * k))

/-- Word 0 of a site record (Table 129). -/
def DieInfo.siteWord (i : DieInfo) (k : Nat) : Nat :=
  let fit := i.fit k
  let sst := if !fit then 3 else if i.slotAt k = 0xf then 1 else 0
  (192 - (i.deadAt k).length) * 2 ^ 12 + i.slotAt k * 2 ^ 8 + (if !fit && !i.retired.contains k then 8 else 0) + sst

/-- The Farrier block (Tables 126–129): no wear limit is set (log 6). -/
def farrierByte (i : DieInfo) (o : Nat) : Byte :=
  if o < 8 then 0
  else if o < 0x10 then byteOf (0xf00 + i.spare * 16 + (if i.spare = 0xf then 2 ^ 13 else 0)) (o - 8)
  else if o < 0x18 then BitVec.ofNat 8 (i.siteOf (o - 0x10))
  else if o < 0x20 then 0xff
  else if 0x100 ≤ o ∧ o < 0x100 + 9 * 128 ∧ o % 128 < 8 then byteOf (i.siteWord ((o - 0x100) / 128)) (o % 128)
  else 0

/-- The slice map for the reset pool bounds: eight equal slices (Table 134). -/
def sliceByte (o : Nat) : Byte := if o = 1 then 0xff else if 8 ≤ o ∧ o < 72 then BitVec.ofNat 8 ((o - 8) / 8) else 0

/-- A byte of the route tables of a die, 32 bytes for each class (R438). -/
def routeByte (panel : List DieInfo) (vd o : Nat) : Byte :=
  let i := o % 32
  if 24 ≤ i then 0
  else
    let v := 8 * i / 3
    let r := fun (x : Nat) => routeAt panel (o / 32) vd x
    let n := r v + 8 * r (v + 1) + 64 * r (v + 2) + 512 * r (v + 3)
    BitVec.ofNat 8 (n / 2 ^ (8 * i - 3 * v))

/-- The panel information block (Table 12). -/
def infoByte (panel : List DieInfo) (vd o : Nat) : Byte :=
  let hidden := match panel[vd]? with | some i => i.hidden | none => []
  let live := fun n => !hidden.contains n
  if o < 24 then BitVec.ofNat 8 ((List.range 8).foldl (fun n b => if live (8 * o + b) then n + 2 ^ b else n) 0)
  else if 0x20 ≤ o ∧ o < 0xe0 then BitVec.ofNat 8 (((List.range 192).filter live).getD (o - 0x20) 0xff)
  else if 0x100 ≤ o ∧ o < 0x140 then
    (match panel[o - 0x100]? with | some i => (match i.mate with | some m => BitVec.ofNat 8 m | none => 0xff) | none => 0xff)
  else if o = 0x140 then BitVec.ofNat 8 panel.length
  else if o = 0x141 then BitVec.ofNat 8 (panel.filter (fun i => !i.canter)).length
  else 0

/-- The translation control block (Table 118; log 6). -/
def tcbByte (canter : Bool) (o : Nat) : Byte :=
  let w := match o / 8 with
    | 0 => Config.dieRoot
    | 1 => Config.arena
    | 2 => if canter then Config.hbmFrames else Config.gddrFrames
    | 3 => if canter then Config.hbmFrames else 0
    | 4 => Config.hbmFrames
    | _ => 0
  byteOf w (o % 8)

/-- What firmware leaves at an offset of a die's commons at boot (R34, R377, R378, R401, R416, R438, R443, R462); zero elsewhere. -/
def bootByte (panel : List DieInfo) (vd off : Nat) : Byte :=
  if off < 0x7fe2000 then 0
  else if 0x7ff0000 ≤ off then infoByte panel vd (off - 0x7ff0000)
  else
    let i := panel.getD vd (DieInfo.full vd)
    if off < 0x7fe2040 then tcbByte i.canter (off - 0x7fe2000)
    else if off < 0x7fe8000 then 0
    else if off < 0x7fe9000 then farrierByte i (off - 0x7fe8000)
    else if off < 0x7fea000 then 0
    else if off < 0x7fea400 then sliceByte (off - 0x7fea000)
    else if off < 0x7fea600 then routeByte panel vd (off - 0x7fea400)
    else if vd = 0 ∧ 0x7feb040 ≤ off ∧ off < 0x7feb060 then Config.challenge (off - 0x7feb040)
    else if vd = 0 ∧ 0x7feb200 ≤ off ∧ off < 0x7feb240 then Config.deviceKey (off - 0x7feb200)
    else 0

/-- The panel with every site good (log 5). -/
def fullPanel : List DieInfo := (List.range 64).map DieInfo.full

/-- Offsets of a die's commons that boot writes: first offset and length. -/
def bootBlocks : List (Nat × Nat) :=
  [(0x7fe2000, 0x40), (0x7fe8000, 0x1000), (0x7fea000, 0x48), (0x7fea400, 0x200), (0x7feb040, 0x20), (0x7feb200, 0x40), (0x7ff0000, 0x142)]

end Sys2Proof.Machine
end

