-- ==== Sys2Proof/Machine/Base.lean ====
section
/-! DEFINITION. Access to the parts of the state: contexts, cores, tiles and dies, registers, the flat memory, the panel's
make-up, and the identities the hardware reads from them. -/

namespace Sys2Proof.Machine

open Sys2Proof

/-! Parts of the machine. -/

def State.ctx (s : State) (c : CtxId) : Ctx := s.ctxs.get c.key (Ctx.reset c.ctx)
def State.setCtx (s : State) (c : CtxId) (x : Ctx) : State := { s with ctxs := s.ctxs.set c.key x }
def State.modCtx (s : State) (c : CtxId) (f : Ctx → Ctx) : State := s.setCtx c (f (s.ctx c))
def State.core (s : State) (c : CoreId) : Core := s.cores.get c.key Core.reset
def State.setCore (s : State) (c : CoreId) (x : Core) : State := { s with cores := s.cores.set c.key x }
def State.modCore (s : State) (c : CoreId) (f : Core → Core) : State := s.setCore c (f (s.core c))
def State.tile (s : State) (vt : Nat) : Tile := s.tiles.get vt Tile.reset
def State.setTile (s : State) (vt : Nat) (x : Tile) : State := { s with tiles := s.tiles.set vt x }
def State.modTile (s : State) (vt : Nat) (f : Tile → Tile) : State := s.setTile vt (f (s.tile vt))

def State.modLaunch (s : State) (id : Nat) (f : Launch → Launch) : State :=
  { s with launches := s.launches.map (fun l => if l.id = id then f l else l) }

/-- The fabric of a launch is used: its idle time starts again (R359). -/
def State.useFabric (s : State) (id : Nat) : State := s.modLaunch id (fun l => { l with idleSince := s.edges })

/-- The information on a virtual die. -/
def State.info (s : State) (vd : Nat) : DieInfo := s.panel.getD vd (DieInfo.full vd)

/-- Owner of a pair's stacks at reset, named from one of its dies (R394). -/
def State.firstOwner (s : State) (vd : Nat) : Nat :=
  let i := s.info vd
  if i.canter then i.mate.getD vd else vd

/-- A die as boot leaves it: each slot on the site boot gave it. -/
def State.bootDie (s : State) (vd : Nat) : Die :=
  { Die.reset (s.firstOwner vd) with bridle := (List.range 8).map (fun k => bridleOf ((s.info vd).siteOf k)) }

def State.die (s : State) (vd : Nat) : Die := s.dies.get vd (s.bootDie vd)
def State.setDie (s : State) (vd : Nat) (x : Die) : State := { s with dies := s.dies.set vd x }
def State.modDie (s : State) (vd : Nat) (f : Die → Die) : State := s.setDie vd (f (s.die vd))

/-- Virtual dies N and Gallops G of the panel (Table 12). -/
def State.nDies (s : State) : Nat := s.panel.length
def State.nGallops (s : State) : Nat := (s.panel.filter (fun d => !d.canter)).length

/-- Virtual die and slot of a virtual tile (R2). -/
def dieOf (vt : Nat) : Nat := vt / 8
def slotOf (vt : Nat) : Nat := vt % 8

/-- Position x and y of a core (R33). -/
def posX (pos : Nat) : Nat := pos % 12
def posY (pos : Nat) : Nat := pos / 12

/-- A position of a die is presented as live (R33). -/
def State.livePos (s : State) (vd pos : Nat) : Bool := decide (pos < 192) && !(s.info vd).hidden.contains pos

/-- The number L of presented live positions of a die (R33). -/
def State.liveCount (s : State) (vd : Nat) : Nat := 192 - (s.info vd).hidden.length

/-- Logical core number of a position (R33). -/
def State.logical (s : State) (vd pos : Nat) : Nat := ((List.range pos).filter (s.livePos vd)).length

/-- Identity of a context in the CTXID [20:0] layout (Table 14). -/
def identOf (vt pos ctx : Nat) : Nat := vt * 4096 + pos * 16 + ctx
def identC (c : CtxId) : Nat := identOf c.core.vt c.core.pos c.ctx
def ctxOfIdent (n : Nat) : CtxId := ⟨⟨n / 4096 % 512, n / 16 % 256⟩, n % 16⟩

/-- A panel feature bit of FEAT0 is accepted (R52). -/
def State.feat0 (s : State) (b : Nat) : Bool := s.featAck.getLsbD b
def State.feat1 (s : State) (b : Nat) : Bool := s.featAck.getLsbD (32 + b)

/-- A context slot that is given up: as at reset, but that its next use follows in program order (R307). -/
def Ctx.cleared (k : Ctx) (c : CtxId) : Ctx := { Ctx.reset c.ctx with hb := { Hb.none_ with all := k.hb.all } }

/-! Registers (R20, R21). -/

def State.rs (s : State) (c : CtxId) (r : BitVec 5) : Word := if r = 0 then 0 else (s.ctx c).s.toArray.getD r.toNat 0
def State.ws (s : State) (c : CtxId) (r : BitVec 5) (x : Word) : State :=
  if r = 0 then s else s.modCtx c (fun k => { k with s := k.s.setIfInBounds r.toNat x })
def State.rp (s : State) (c : CtxId) (r : BitVec 5) : Half :=
  if r = 0 then 0xffff else (s.ctx c).p.toArray.getD r.toNat 0
def State.wp (s : State) (c : CtxId) (r : BitVec 5) (x : Half) : State :=
  if r = 0 then s else s.modCtx c (fun k => { k with p := k.p.setIfInBounds r.toNat x })
def State.rv (s : State) (c : CtxId) (r : Nat) : VReg := (s.ctx c).v.toArray.getD r 0
def State.wv (s : State) (c : CtxId) (r : Nat) (x : VReg) : State :=
  s.modCtx c (fun k => { k with v := k.v.setIfInBounds r x })
def State.ra (s : State) (c : CtxId) (r : Nat) : Acc := (s.ctx c).a.toArray.getD r (Vector.replicate 256 0)
def State.wa (s : State) (c : CtxId) (r : Nat) (x : Acc) : State :=
  s.modCtx c (fun k => { k with a := k.a.setIfInBounds r x })
def State.rg (s : State) (c : CtxId) (r : Nat) : Latch := (s.ctx c).g.toArray.getD r (Vector.replicate 16 0)
def State.wg (s : State) (c : CtxId) (r : Nat) (x : Latch) : State :=
  s.modCtx c (fun k => { k with g := k.g.setIfInBounds r x, gbad := k.gbad &&& ~~~((1 : BitVec 2) <<< r) })

/-- Flags become sticky in the issuing context (R115). -/
def State.raise (s : State) (c : CtxId) (f : FFlags) : State := s.modCtx c (fun k => { k with ff := k.ff ||| f })

/-- Bit i of a predicate. -/
def predBit (p : Half) (i : Nat) : Bool := p.getLsbD i

/-! Rein counters (R27, R28). -/

def Core.reinAt (k : Core) (n : Nat) : Rein := k.rein.get n ⟨0, false⟩

/-- Add to a counter, saturating at 0xffff; an arriving error bit sets E (R27). -/
def Rein.add (r : Rein) (n : Nat) (err : Bool) : Rein :=
  { v := BitVec.ofNat 16 (min (r.v.toNat + n) 0xffff), e := r.e || err }

/-! Flat memory. A flat address is (kind × 2^20 + owner) × 2^44 + offset: 0 TCM of core vt × 192 + pos, 1 pool of a tile,
2 commons of a die, 3 private memory of a die by physical address, 4 shared stack pair × 2 + s by offset (R9, R62, R377). -/

def flat (kind owner off : Nat) : Nat := (kind * 2 ^ 20 + owner) * 2 ^ 44 + off
def flatTcm (c : CoreId) (off : Nat) : Nat := flat 0 (c.vt * 192 + c.pos) off
def flatPool (vt off : Nat) : Nat := flat 1 vt off
def flatCommons (vd off : Nat) : Nat := flat 2 vd off
def flatKind (a : Nat) : Nat := a / 2 ^ 64
def flatOwner (a : Nat) : Nat := a / 2 ^ 44 % 2 ^ 20
def flatOff (a : Nat) : Nat := a % 2 ^ 44

/-- What a byte that the memory does not list reads as: what the boot wipe and firmware left (R63, R461). -/
def background (a : Nat) : Byte := if flatKind a = 2 then bootByte fullPanel (flatOwner a) (flatOff a) else 0

/-- The byte at an address. -/
def memByte (m : List Host.Cell) (a : Nat) : Byte :=
  match m with
  | [] => background a
  | (b, x) :: r => if a < b then background a else if a = b then x else memByte r a

/-- Write a byte, keeping addresses rising and no byte equal to the background. -/
def memSet (m : List Host.Cell) (a : Nat) (x : Byte) : List Host.Cell :=
  match m with
  | [] => if x = background a then [] else [(a, x)]
  | (b, y) :: r =>
    if a < b then (if x = background a then (b, y) :: r else (a, x) :: (b, y) :: r)
    else if a = b then (if x = background a then r else (a, x) :: r)
    else (b, y) :: memSet r a x

/-- The canonical form: addresses strictly rising above `lo`, no byte equal to the background. -/
def memWfFrom (lo : Nat) : List Host.Cell → Bool
  | [] => true
  | (a, x) :: r => decide (lo ≤ a) && x != background a && memWfFrom (a + 1) r

def Memory.wf (m : List Host.Cell) : Bool := memWfFrom 0 m

def State.byte (s : State) (a : Nat) : Byte := memByte s.mem a

/-- n bytes from an address, lowest first. -/
def State.bytes (s : State) (a n : Nat) : List Byte := (List.range n).map (fun i => s.byte (a + i))

/-- A list of bytes as a little-endian number (R15). -/
def leNat : List Byte → Nat
  | [] => 0
  | b :: r => b.toNat + 256 * leNat r

/-- n bytes of a number, little-endian. -/
def natLe (n x : Nat) : List Byte := (List.range n).map (byteOf x)

def memStore (m : List Host.Cell) (a : Nat) : List Byte → List Host.Cell
  | [] => m
  | b :: r => memStore (memSet m a b) (a + 1) r

def State.load (s : State) (a n : Nat) : Nat := leNat (s.bytes a n)
def State.storeBytes (s : State) (a : Nat) (l : List Byte) : State := { s with mem := memStore s.mem a l }
def State.store (s : State) (a n x : Nat) : State := s.storeBytes a (natLe n x)

/-- The full/empty tag of a word is full (R184); words are named by flat address ÷ 8. -/
def State.isFull (s : State) (w : Nat) : Bool := s.full.contains w

/-- Insert into a rising list without repeats. -/
def insertNat (l : List Nat) (x : Nat) : List Nat :=
  match l with
  | [] => [x]
  | y :: r => if x < y then x :: y :: r else if x = y then y :: r else y :: insertNat r x

def State.setFull (s : State) (w : Nat) (b : Bool) : State :=
  { s with full := if b then insertNat s.full w else s.full.filter (fun x => x != w) }

/-- A byte of a range is poisoned by a failed check (R419). -/
def State.poisoned (s : State) (a n : Nat) : Bool :=
  s.poison.any (fun w => decide (a / 8 ≤ w) && decide (w ≤ (a + n - 1) / 8))

/-- Draw a free value: the number of the draw (log 2). -/
def State.draw (s : State) : Nat × State := (s.free, { s with free := s.free + 1 })

/-- PACE as a clock region reads it (R39, R385). -/
def State.paceAt (s : State) (vt : Nat) : Nat := ((s.pace : Int) + (s.tile vt).ofs).toNat

/-- Edges that a tile's core clock has counted since reset (R5, R449): the nominal edges less those its stretched periods, and its own rate while
it runs without a reference, have cost it. -/
def State.edgesAt (s : State) (vt : Nat) : Nat := (((s.edges : Int) * 10000 - (s.tile vt).lag) / 10000).toNat

/-- A pre-emption of the launch of a core is pending on its tile (R369). -/
def State.preempting (s : State) (c : CoreId) : Bool :=
  s.controls.any (fun x => x.op == 0 && x.begun && x.tiles.contains c.vt && (match (s.core c).launch with | some l => l.id == x.target | none => false))

/-! Causes (Table 111). -/

inductive Cause where
  | illegal | reservedField | privilege | featureOff | misalign | offsetOverflow | space | protect | pageAbsent | pagePerm
  | tablePlacement | leaseSkew | stackNotOwned | remoteStore | waitLimit | hang | detconf | uncorrectable | format
  | spurLate | spurOverflow | inboxFull | gang | software | breakpoint | launchResource
deriving DecidableEq, Repr

def Cause.code : Cause → Nat
  | .illegal => 0x01 | .reservedField => 0x02 | .privilege => 0x03 | .featureOff => 0x04 | .misalign => 0x05
  | .offsetOverflow => 0x06 | .space => 0x07 | .protect => 0x08 | .pageAbsent => 0x09 | .pagePerm => 0x0a
  | .tablePlacement => 0x0b | .leaseSkew => 0x0c | .stackNotOwned => 0x0d | .remoteStore => 0x0e | .waitLimit => 0x0f
  | .hang => 0x10 | .detconf => 0x11 | .uncorrectable => 0x12 | .format => 0x13 | .spurLate => 0x14 | .spurOverflow => 0x15
  | .inboxFull => 0x16 | .gang => 0x17 | .software => 0x18 | .breakpoint => 0x19 | .launchResource => 0x1a

/-- What a trap reports (R44, R364): cause, DETAIL, TRAPVAL, OTHER and OBYTE of TRAPTAG. -/
structure Tr where
  cause : Cause
  val : Word
  detail : Nat
  other : Nat
  obyte : Nat
deriving DecidableEq, Repr

/-- A trap with a value and no further detail. -/
def Cause.at_ (c : Cause) (v : Word) : Tr := { cause := c, val := v, detail := 0, other := 0, obyte := 0 }

/-- Why an instruction does not complete: a trap, a wait, or the undoing of its activation (R423). The state carries what the
hardware did besides: walker bits, fault queue records, withdrawn or recorded requests. -/
inductive Stop where
  | trap (t : Tr) (s : State)
  | wait (w : Wait) (s : State)
deriving DecidableEq, Repr

def trapIf (b : Bool) (t : Tr) (s : State) : Except Stop Unit := if b then .error (.trap t s) else .ok ()

end Sys2Proof.Machine
end

