-- ==== Sys2Proof/Machine/Pointer.lean ====
section
/-! DEFINITION. Fat pointers (R53–R57, R96, R133–R138): fields, unit sizes, the arithmetic of ADDP, resolution of relative
coordinates, and the checks of an address that need no memory. -/

namespace Sys2Proof.Machine

open Sys2Proof

/-- Fields of a fat pointer (R53). -/
def pFmt (p : Word) : Nat := (p.extractLsb' 59 5).toNat
def pBlk (p : Word) : Nat := (p.extractLsb' 56 3).toNat
def pSpc (p : Word) : Nat := (p.extractLsb' 53 3).toNat
def pRel (p : Word) : Bool := p.getLsbD 52
def pTile (p : Word) : Nat := (p.extractLsb' 43 9).toNat
def pDie (p : Word) : Nat := (p.extractLsb' 46 6).toNat
def pX (p : Word) : Nat := (p.extractLsb' 39 4).toNat
def pY (p : Word) : Nat := (p.extractLsb' 35 4).toNat

/-- Replace bits [lo + w − 1 : lo] of a word. -/
def setField (p : Word) (lo w : Nat) (x : Nat) : Word :=
  let mask : Word := BitVec.ofNat 64 ((2 ^ w - 1) * 2 ^ lo)
  (p &&& ~~~mask) ||| (BitVec.ofNat 64 (x % 2 ^ w * 2 ^ lo))

/-- Width of the offset field used by ADDP, SUBP and MKP (Table 52, first column); 0 for SPC 6 and 7. -/
def offWidth (spc : Nat) : Nat :=
  match spc with
  | 0 => 17 | 1 => 26 | 2 => 17 | 3 => 27 | 4 => 20 | 5 => 45 | _ => 0

/-- Width of the offset field of PSET.off and PGET.off (Table 52, second column). -/
def offWidth2 (spc : Nat) : Nat :=
  match spc with
  | 4 => 23 | 5 => 46 | n => offWidth n

/-- The offset field of a pointer. -/
def pOff (p : Word) : Nat := p.toNat % 2 ^ offWidth (pSpc p)

/-- Field assignment bits of a space that must be zero (Table 26). -/
def unassigned (p : Word) : Nat :=
  let n := p.toNat % 2 ^ 52
  match pSpc p with
  | 0 => n / 2 ^ 17
  | 1 => n / 2 ^ 26 % 2 ^ 17
  | 2 => n / 2 ^ 17 % 2 ^ 18
  | 3 => n / 2 ^ 27 % 2 ^ 19
  | 4 => n / 2 ^ 23 % 2 ^ 20
  | _ => 0

/-- FMT and BLK agree (R54). -/
def fmtOk (p : Word) : Bool :=
  if pFmt p < 16 then pBlk p == 0 else decide (pFmt p < 22) && decide (1 ≤ pBlk p) && decide (pBlk p ≤ 5)

/-- Bytes of the addressing unit of a format (Table 41), a block frame for FMT 16–21 (Table 43). -/
def unitSize (fmt blk : Nat) : Nat :=
  if 16 ≤ fmt then frameBytes fmt blk
  else match fmt with
    | 3 => 2 | 4 => 4 | 5 => 8 | 6 => 4 | 7 => 2 | 8 => 2 | 11 => 3 | 12 => 3 | _ => 1

/-- Alignment of an addressing unit (Table 41). -/
def unitAlign (fmt : Nat) : Nat :=
  match fmt with
  | 3 => 2 | 4 => 4 | 5 => 8 | 6 => 4 | 7 => 2 | 8 => 2 | _ => 1

/-- The unit ADDP counts in (R134): neurons in space 4. -/
def ptrUnit (p : Word) (scaled : Bool) : Nat :=
  if pSpc p = 4 then 1 else if scaled then unitSize (pFmt p) (pBlk p) else 1

/-- The checks ADDP and SUBP make on a pointer (R134): FMT 15 without its feature, FORMAT, SPACE. -/
def ptrFault (s : State) (p : Word) : Option Cause :=
  if pFmt p = 15 ∧ s.feat0 5 = false then some .featureOff
  else if fmtOk p = false then some .format
  else if 6 ≤ pSpc p then some .space
  else none

/-- Advance the offset field by d; none when it leaves the field. -/
def offAdd (p : Word) (d : Int) : Option Word :=
  let w := offWidth (pSpc p)
  let o : Int := (pOff p : Int) + d
  if o < 0 ∨ (2 ^ w : Nat) ≤ o then none else some (setField p 0 w o.toNat)

/-- AddP of R134. -/
def addP (s : State) (p : Word) (n : Int) (scaled : Bool) : Except Cause Word :=
  match ptrFault s p with
  | some c => .error c
  | none =>
    match offAdd p (n * ptrUnit p scaled) with
    | some q => .ok q
    | none => .error .offsetOverflow

/-- A signed field of w bits added to a base, when the sum lies in [0, hi] (R55). -/
def relAdd (base w field hi : Nat) : Option Nat :=
  let t : Int := (base : Int) + signedOf w field
  if t < 0 ∨ (hi : Int) < t then none else some t.toNat

/-- Resolve the relative coordinates of a pointer for a core (R55); none: SPACE. -/
def resolveRel (c : CoreId) (p : Word) : Option Word :=
  if pRel p = false then some p
  else
    let q := setField p 52 1 0
    match pSpc p with
    | 1 | 4 => (relAdd c.vt 9 (pTile p) 511).map (fun t => setField q 43 9 t)
    | 2 => do
      let t ← relAdd c.vt 9 (pTile p) 511
      let x ← relAdd (posX c.pos) 4 (pX p) 11
      let y ← relAdd (posY c.pos) 4 (pY p) 15
      some (setField (setField (setField q 43 9 t) 39 4 x) 35 4 y)
    | 3 | 5 => (relAdd (dieOf c.vt) 6 (pDie p) 63).map (fun t => setField q 46 6 t)
    | _ => none

/-- The form of a pointer that other cores can use (R138); the error names SPACE. -/
def absPtr (c : CoreId) (p : Word) : Option Word :=
  if 6 ≤ pSpc p then none
  else
    match resolveRel c p with
    | none => none
    | some q =>
      if pSpc q = 0 then
        some (setField (setField (setField (setField q 53 3 2) 43 9 c.vt) 39 4 (posX c.pos)) 35 4 (posY c.pos))
      else some q

/-- Bytes of a tile's scratchpad (R59). -/
def State.scratchBytes (s : State) (vt : Nat) : Nat := ((s.tile vt).plb1 - (s.tile vt).plb0) * 65536

/-- The die a resolved pointer names (R165); for the pair window, the die of the address, before ownership is asked. -/
def namedDie (c : CoreId) (p : Word) : Nat :=
  match pSpc p with
  | 0 => dieOf c.vt
  | 3 | 5 => pDie p
  | _ => dieOf (pTile p)

/-- The pair window bit of a space 5 pointer and the stack it selects (R165, R378). -/
def pPair (p : Word) : Bool := p.getLsbD 45
def pStack (p : Word) : Nat := if p.getLsbD 44 then 1 else 0

/-- The copy of a stack's state word that a die holds (R394). -/
def State.stack (s : State) (vd st : Nat) : StackWord := (s.die vd).stackWords.getD st ⟨0, false, vd⟩

/-- The home die of a resolved pointer (R165). -/
def State.home (s : State) (c : CoreId) (p : Word) : Nat :=
  if pSpc p = 5 ∧ pPair p = true then (s.stack (pDie p) (pStack p)).owner else namedDie c p

/-- The site that holds a slot, by its bridle entry. -/
def State.curSite (s : State) (vd slot : Nat) : Nat := ((s.die vd).bridle.getD slot 0).toNat % 16

/-- The next die of a class's route between two dies, and the edge it leaves by. -/
def State.nextDie (s : State) (cls src dst : Nat) : Option (Nat × Nat) :=
  let code := routeAt s.panel cls src dst
  match (neighbour (s.info src).phys code).bind (dieAt s.panel) with
  | some d => some (code - 1, d)
  | none => none

/-! Clock regions (R409, R449): of each virtual tile, and at 512 + d of the site of die d that holds no slot. -/

def regionDie (vt : Nat) : Nat := if vt < 512 then dieOf vt else vt - 512

/-- The site of a region. The region of a drained tile is its target's (R409; log 33). -/
def State.regionSite (s : State) (vt : Nat) : Nat :=
  let vd := regionDie vt
  let now := fun (slot : Nat) => match (s.die vd).rot with
    | some r => if slot = r.slot ∧ (s.tile (8 * vd + slot)).stopped = true then r.target else s.curSite vd slot
    | none => s.curSite vd slot
  if vt < 512 then now (slotOf vt)
  else ((List.range 9).find? (fun k => !(List.range 8).any (fun i => now i == k))).getD 8

/-- Edges of the die whose ports lie in a region, in the codes of the route tables: those its site borders (R386; log 45). -/
def State.edgesOf (s : State) (vt : Nat) : List Nat :=
  let k := s.regionSite vt
  (if k % 3 = 2 then [1] else []) ++ (if k / 3 = 2 then [2] else []) ++ (if k % 3 = 0 then [3] else []) ++ (if k / 3 = 0 then [4] else [])

/-- The port of a die, in the codes of the route tables, by which class 0's route to a home leaves (R446). -/
def State.gwPort (s : State) (vd home : Nat) : Nat := routeAt s.panel 0 vd home

/-- A region in which the port of a die lies is uncertain (R392). -/
def State.portUncertain (s : State) (vd port : Nat) : Bool :=
  ((512 + vd) :: (List.range 8).map (fun k => 8 * vd + k)).any (fun r => (s.tile r).uncertain && (s.edgesOf r).contains port)

/-- The memory that a gateway line of a space 5 pointer is part of: a die's, or the shared stacks of a pair, whichever of its dies is named. -/
def State.gwHome (s : State) (p : Word) : Nat := if pPair p then 64 + (s.info (pDie p)).pair else pDie p

/-- Position a space 2 pointer names. -/
def pPos (p : Word) : Nat := pY p * 12 + pX p

/-- SPACE checks that the issuing die makes from the pointer alone (R189): unassigned bits, the reserved spaces, a die or tile
the panel lacks, x beyond 11. The pointer is resolved. -/
def State.spaceFault (s : State) (p : Word) : Bool :=
  unassigned p != 0 ||
  match pSpc p with
  | 0 => false
  | 1 | 4 => decide (8 * s.nDies ≤ pTile p)
  | 2 => decide (8 * s.nDies ≤ pTile p) || decide (11 < pX p)
  | 3 | 5 => decide (s.nDies ≤ pDie p)
  | _ => true

/-- SPACE checks that depend on the home die's state (R56, R189): a position that is not live, a byte beyond the scratchpad. -/
def State.spaceHomeFault (s : State) (p : Word) (n : Nat) : Bool :=
  match pSpc p with
  | 1 => decide (s.scratchBytes (pTile p) < pOff p + n)
  | 2 => !s.livePos (dieOf (pTile p)) (pPos p)
  | _ => false

/-- The flat address of a byte of a resolved pointer in spaces 0 to 3. -/
def State.flatOf (s : State) (c : CoreId) (p : Word) : Nat :=
  match pSpc p with
  | 0 => flatTcm c (pOff p)
  | 1 => flatPool (pTile p) ((s.tile (pTile p)).plb0 * 65536 + pOff p)
  | 2 => flatTcm ⟨pTile p, pPos p⟩ (pOff p)
  | _ => flatCommons (pDie p) (pOff p)

/-- Virtual address of a space 5 pointer (R378). -/
def pVa (p : Word) : Nat := p.toNat % 2 ^ 46

end Sys2Proof.Machine
end

