-- ==== Sys2Proof/Machine/Translate.lean ====
section
/-! DEFINITION. The die's fault queue (R365), the protection unit (R374–R376), translation trees, walks and cached
translations (R377–R384, R387–R389). -/

namespace Sys2Proof.Machine

open Sys2Proof

/-! The fault queue. -/

/-- What a fault queue entry records (Table 112). -/
structure FaultRec where
  addr : Word
  tag : Nat
  ident : Nat
  cause : Nat
  kind : Nat
  launch : Nat
deriving DecidableEq, Repr

def faultSlot (vd slot : Nat) : Nat := flatCommons vd (0x7fe0000 + 32 * slot)

/-- The lowest free slot among the next n from `slot`. -/
def State.freeSlot (s : State) (vd : Nat) : Nat → Nat → Option Nat
  | 0, _ => none
  | n + 1, slot => if s.byte (faultSlot vd slot + 17) = 0 then some slot else State.freeSlot s vd n (slot + 1)

def FaultRec.image (r : FaultRec) (pace : Nat) : List Byte :=
  natLe 8 r.addr.toNat ++ natLe 4 r.tag ++ natLe 3 r.ident ++ natLe 1 r.cause ++ natLe 1 r.kind ++ natLe 1 1 ++
  natLe 2 r.launch ++ natLe 4 0 ++ natLe 8 pace

/-- Record in the lowest free slot, or count in slot 255; the token is the slot, 0xff when none was free (R365). -/
def State.record (s : State) (vd : Nat) (r : FaultRec) : Nat × State :=
  match s.freeSlot vd 255 0 with
  | some slot => (slot, s.storeBytes (faultSlot vd slot) (r.image (s.paceAt (8 * vd))))
  | none =>
    let n := s.load (faultSlot vd 255) 8
    (255, s.store (faultSlot vd 255) 8 (min (n + 1) (2 ^ 64 - 1)))

/-! The protection unit. -/

/-- What an access does, for rights (R375, R382). -/
inductive AKind where
  | read | write | rmw | fetch
deriving DecidableEq, Repr

def AKind.reads : AKind → Bool
  | .read | .rmw => true
  | _ => false

def AKind.writes : AKind → Bool
  | .write | .rmw => true
  | _ => false

/-- Region descriptor i of a tile: word 0 and word 1 (Tables 115, 116). -/
def State.region (s : State) (vt i : Nat) : Word × Word :=
  let a := flatCommons (dieOf vt) (0x7fe4000 + 0x100 * slotOf vt + 16 * i)
  (BitVec.ofNat 64 (s.load a 8), BitVec.ofNat 64 (s.load (a + 8) 8))

/-- A descriptor grants a user access to bytes [off, off + n) of a space (R374, R375). -/
def regionGrants (d : Word × Word) (spc off n : Nat) (k : AKind) : Bool :=
  let (w0, w1) := d
  let base := (w0.extractLsb' 6 21).toNat
  let lim := (w1.extractLsb' 6 21).toNat
  w0.getLsbD 63 && w0.extractLsb' 27 29 == 0 && w0.extractLsb' 0 6 == 0 && w1.extractLsb' 27 37 == 0 &&
    w1.extractLsb' 0 6 == 0 && decide (base ≤ lim) && (w0.extractLsb' 60 3).toNat == spc && decide (spc < 4) &&
    w0.getLsbD 56 && decide (base * 64 ≤ off) && decide (off + n ≤ (lim + 1) * 64) &&
    (!k.reads || w0.getLsbD 57) && (!k.writes || w0.getLsbD 58) && (k != .fetch || w0.getLsbD 59)

/-- The access is permitted (R34, R374, R375): `vt` is the checking unit's tile. Spaces 4 and 5 are never checked; no write reaches the panel
information block, and a read within it needs no region. -/
def State.permitted (s : State) (vt : Nat) (sup : Bool) (spc off n : Nat) (k : AKind) : Bool :=
  if 4 ≤ spc then true
  else if spc = 3 ∧ 0x7ff0000 < off + n ∧ k.writes = true then false
  else if spc = 3 ∧ 0x7ff0000 ≤ off ∧ k = .read then true
  else if sup then true
  else if spc = 3 ∧ 0x7fe0000 < off + n ∧ off < 0x7ff0000 then false
  else (List.range 16).any (fun i => regionGrants (s.region vt i) spc off n k)

/-- The bytes [off, off + n) of a tile's scratchpad touch its configured spur bank (R254). -/
def State.bankHit (s : State) (vt off n : Nat) : Bool :=
  match (s.tile vt).bank with
  | some b => decide (off < b.base + 16 * b.count) && decide (b.base < off + n)
  | none => false

/-- The slot of a virtual tile has no site, or is under maintenance (R414, R415). -/
def State.slotGone (s : State) (vt : Nat) : Bool := (s.tile vt).lost || (s.tile vt).maint

/-! Translation. -/

/-- Fields of a page-table entry (Table 119). -/
def pteV (e : Word) : Bool := e.getLsbD 0
def pteR (e : Word) : Bool := e.getLsbD 1
def pteW (e : Word) : Bool := e.getLsbD 2
def pteX (e : Word) : Bool := e.getLsbD 3
def pteA (e : Word) : Bool := e.getLsbD 4
def pteD (e : Word) : Bool := e.getLsbD 5
def pteGw (e : Word) : Bool := e.getLsbD 6
def ptePin (e : Word) : Bool := e.getLsbD 7
def pteLease (e : Word) : Nat := (e.extractLsb' 8 4).toNat
def pteLeaf (e : Word) : Bool := e.getLsbD 12
def pteFrame (e : Word) : Nat := (e.extractLsb' 16 24).toNat
def pteNode (e : Word) : Nat := (e.extractLsb' 13 27).toNat * 8192
def pteSize (e : Word) : Nat := (e.extractLsb' 62 2).toNat

/-- Bytes of a page by SIZE (Table 119). -/
def pageBytes (size : Nat) : Nat := if size = 0 then 2 ^ 16 else if size = 1 then 2 ^ 21 else 2 ^ 30

/-- Nanoseconds a lease code grants (R387). -/
def leaseNs (n : Nat) : Nat := 2 ^ n * 1000

/-- A valid entry at a level is malformed (R380). -/
def malformed (e : Word) (level : Nat) : Bool :=
  e.extractLsb' 40 22 != 0 ||
  (if pteLeaf e then
     level == 2 || (level == 1 && pteSize e != 2) || (level == 0 && pteSize e != 0 && pteSize e != 1) ||
       e.extractLsb' 13 3 != 0 || (pteSize e == 1 && pteFrame e % 32 != 0) || (pteSize e == 2 && pteFrame e % 16384 != 0)
   else level == 0 || e.extractLsb' 1 11 != 0 || pteSize e != 0)

/-- The translation control block of a die (Table 118). -/
def State.tcb (s : State) (vd k : Nat) : Nat := s.load (flatCommons vd (0x7fe2000 + 8 * k)) 8

/-- Capacity in frames of a memory by MSEL (R377). -/
def State.capacity (s : State) (vd msel : Nat) : Nat :=
  if msel = 0 then s.tcb vd 2 else if msel = 1 then s.tcb vd 3 else if msel < 4 then s.tcb vd 4 else 0

/-- The flat address of a physical address of a die (R377). -/
def State.flatPhys (s : State) (vd pa : Nat) : Nat :=
  let msel := pa / 2 ^ 37
  if msel = 2 ∨ msel = 3 then flat 4 ((s.info vd).pair * 2 + (msel - 2)) (pa % 2 ^ 37) else flat 3 vd pa

/-- The tree a virtual address is translated in: none for the die tree, or the stack of a pair tree (R378). -/
def treeOf (va : Nat) : Option Nat := if va / 2 ^ 45 % 2 = 1 then some (va / 2 ^ 44 % 2) else none

/-- A node may be read by the walker (R381). -/
def State.nodePlaced (s : State) (vd node : Nat) (tree : Option Nat) : Bool :=
  let msel := node / 2 ^ 37
  let inMem := decide (node % 2 ^ 37 / 65536 < s.capacity vd msel)
  match tree with
  | none =>
    let base := s.tcb vd 1
    decide (msel < 2) && decide (base ≤ node) && decide (node < base + 2 ^ 28) && inMem
  | some st => msel == 2 + st && decide (node % 2 ^ 37 < 2 ^ 26) && inMem

/-- Every frame a leaf maps exists in a memory of its tree (R381). -/
def State.framePlaced (s : State) (vd : Nat) (e : Word) (tree : Option Nat) : Bool :=
  let msel := pteFrame e / 2 ^ 21
  let last := pteFrame e % 2 ^ 21 + pageBytes (pteSize e) / 65536
  decide (last ≤ s.capacity vd msel) && (match tree with | none => decide (msel < 2) | some st => msel == 2 + st)

/-- What the walk is for (R381, R382): a kind of access, through a gateway or at home. -/
structure WKind where
  k : AKind
  gw : Bool
deriving DecidableEq, Repr

def WKind.rights (w : WKind) (e : Word) : Bool :=
  (!w.gw || pteGw e) && (!w.k.reads || pteR e) && (!w.k.writes || pteW e) && (w.k != .fetch || pteX e)

/-- Indexes of a walk, level 2 first (R380). -/
def walkIdx (va : Nat) : List Nat :=
  [(if va / 2 ^ 45 % 2 = 1 then va / 2 ^ 36 % 256 else va / 2 ^ 36 % 512), va / 2 ^ 26 % 1024, va / 2 ^ 16 % 1024]

/-- The levels of a walk from a node: the leaf entry and its flat address, or the cause (R381). -/
def State.walkFrom (s : State) (vd : Nat) (tree : Option Nat) : List Nat → Nat → Nat → Except Cause (Nat × Word)
  | [], _, _ => .error .pagePerm
  | i :: rest, level, node =>
    if !s.nodePlaced vd node tree then .error .tablePlacement
    else
      let a := s.flatPhys vd (node + 8 * i)
      let e : Word := BitVec.ofNat 64 (s.load a 8)
      if s.poisoned a 8 then .error .uncorrectable
      else if !pteV e then .error .pageAbsent
      else if malformed e level then .error .pagePerm
      else if pteLeaf e then .ok (a, e)
      else State.walkFrom s vd tree rest (level - 1) (pteNode e)

/-- The walk of R381 at die vd: the leaf after A and D are set, with the state that holds them. -/
def State.walk (s : State) (vd va : Nat) (w : WKind) : Except Cause (Word × State) := do
  let tree := treeOf va
  let root := match tree with
    | none => s.tcb vd 0
    | some st => (2 + st) * 2 ^ 37
  let (a, e) ← s.walkFrom vd tree (walkIdx va) 2 root
  if !s.framePlaced vd e tree then .error .tablePlacement
  else if !w.rights e then .error .pagePerm
  else
    let e' := e ||| 0x10 ||| (if w.k.writes then 0x20 else 0)
    .ok (e', if e' = e then s else s.store a 8 e'.toNat)

/-- The flat address a leaf gives a virtual address. -/
def State.leafFlat (s : State) (vd va : Nat) (e : Word) : Nat :=
  s.flatPhys vd (pteFrame e * 65536 + va % pageBytes (pteSize e))

def TransEntry.covers (t : TransEntry) (tree va : Nat) : Bool :=
  t.tree == tree && decide (t.base ≤ va) && decide (va < t.base + t.size)

/-- The key of a tree in a tile's translation cache. -/
def treeKey (va : Nat) : Nat := match treeOf va with | none => 0 | some st => 1 + st

/-- Translate at a home interface: an unexpired cached entry with the rights and A (and D for a write), or a walk, whose leaf is cached
for its lease unless its code is 0 or the interface's tile is uncertain (R383, R387, R388, R392; log 14). -/
def State.translate (s : State) (ifc vd va : Nat) (w : WKind) : Except Cause (Nat × Word × State) := do
  let t := s.tile ifc
  match t.tcache.find? (fun c => c.covers (treeKey va) va && decide (s.paceAt ifc ≤ c.expiry) && w.rights c.entry &&
      pteA c.entry && (!w.k.writes || pteD c.entry) && !t.uncertain) with
  | some c => .ok (s.leafFlat vd va c.entry, c.entry, s)
  | none =>
    let (e, s) ← s.walk vd va w
    let size := pageBytes (pteSize e)
    let keep := (s.tile ifc).tcache.filter (fun c => !c.covers (treeKey va) va)
    let new : List TransEntry :=
      if pteLease e = 0 ∨ (s.tile ifc).uncertain = true then keep
      else { tree := treeKey va, base := va / size * size, size := size, frame := pteFrame e, entry := e,
             expiry := s.paceAt ifc + leaseNs (pteLease e) } :: keep
    let s := s.modTile ifc (fun t => { t with tcache := new })
    .ok (s.leafFlat vd va e, e, s)

end Sys2Proof.Machine
end

