-- ==== Sys2Proof/Machine/Order.lean ====
section
/-! DEFINITION. The orders of R307, R310–R313 as far as the conflict detector asks for them, and the detector itself (R323–R326). Both act only
in a launch whose DETMODE has CONF set. The model performs the accesses of a context in program order, so every order of R307 holds of
what it performs; what is tracked here is which accesses are ordered, and so which pairs conflict. -/

namespace Sys2Proof.Machine

open Sys2Proof

/-- Union of two rising lists of access numbers. -/
def HbInfo.join (a b : HbInfo) : HbInfo := b.foldl insertNat a

def HbInfo.joinAll (l : List HbInfo) : HbInfo := l.foldl HbInfo.join []

/-- The conflict detector runs for the context (R50, R322). -/
def State.confOn (s : State) (c : CtxId) : Bool := (s.core c.core).detmode.getLsbD 0 && s.feat0 6

/-- Context d lies within scope S of context c (R311). -/
def State.inScope (s : State) (scope : Nat) (c d : CtxId) : Bool :=
  match scope with
  | 0 => c == d
  | 1 => c.core == d.core
  | 2 => c.core.vt == d.core.vt
  | 3 => dieOf c.core.vt == dieOf d.core.vt
  | 4 => (s.info (dieOf c.core.vt)).pair == (s.info (dieOf d.core.vt)).pair
  | _ => true

def State.modHb (s : State) (c : CtxId) (f : Hb → Hb) : State := s.modCtx c (fun k => { k with hb := f k.hb })

/-- What the context releases now: its earlier accesses and all that was ordered before them (R307 rule 6, R313). -/
def State.release (s : State) (c : CtxId) : HbInfo := (s.ctx c).hb.all.join (s.ctx c).hb.info

/-- Take released knowledge in. -/
def State.acquireInfo (s : State) (c : CtxId) (i : HbInfo) : State :=
  s.modHb c (fun h => { h with info := h.info.join i, all := h.all.join i })

/-- What an acquire at a scope takes from what releasing contexts released (R312). -/
def State.acquired (s : State) (c : CtxId) (scope : Nat) (l : List Released) : HbInfo :=
  HbInfo.joinAll ((l.filter (fun r => s.inScope r.scope r.by_ c && s.inScope scope c r.by_)).map (fun r => r.info))

/-- Ordering strength of an access: does it acquire, does it release, at which scope. -/
structure Ord where
  acq : Bool
  rel : Bool
  scope : Nat
deriving DecidableEq, Repr

def Ord.plain : Ord := ⟨false, false, 0⟩

/-- Ordering by MOD and SC (R79, R181). -/
def Ord.ofMod (md sc : Nat) : Ord := ⟨md == 1 || md == 3, md == 2 || md == 3, sc⟩

/-! Dependencies (R307 rules 3 to 5). -/

/-- The key of a register among the dependencies. -/
def depKey (cl : Cls) (r : BitVec 5) : Option Nat :=
  match cl with
  | .s => if r = 0 then none else some r.toNat
  | .p => if r = 0 then none else some (32 + r.toNat)
  | .v => some (64 + r.toNat)
  | .a => some (96 + r.toNat)
  | .g => some (104 + r.toNat)
  | _ => none

/-- Classes of the fields D, S1, S2, S3 of a row, and whether S2 is read (R125). -/
def infoRegs (o : Fields) : Info → Cls × Cls × Cls × Cls
  | .A _ _ d s1 b => (d, s1, (match b with | .reg => if o.t.toNat < 2 then .s else .z | .pred => .p | _ => .z), .z)
  | .B _ _ d s2 => (d, .s, s2, .z)
  | .C _ _ d s1 s2 s3 _ _ _ _ => (d, s1, s2, s3)
  | .event => (.z, .z, .z, .z)

/-- The row writes the register its D field names (for the others D is a source or unused). -/
def writesD (row : Instr) : Bool :=
  !([0x21, 0x39, 0x3b, 0x41, 0x43, 0x5d, 0x5f, 0x74, 0x75, 0x76, 0x77].contains row.major) && row != .maccSt && row != .maccCvt

/-- The row reads the register its D field names: it does not write it, it adds to it, or it keeps the elements that its predicate leaves out. -/
def readsD (row : Instr) : Bool :=
  !writesD row || [Instr.bfi, .liHi, .ffma, .mma, .mmas, .mgait, .vdotQ, .vdotP].contains row || decide (0x50 ≤ row.major ∧ row.major ≤ 0x67)

/-- The row makes accesses that its control dependencies order: a write, an atomic, a remote or full/empty access, an engine command, a SEND
or a SPUR function (R307 rule 5). -/
def ctlOrders (row : Instr) : Bool :=
  let m := row.major
  decide (0x39 ≤ m ∧ m ≤ 0x44 ∧ m ≠ 0x3a ∧ m ≠ 0x3e ∧ m ≠ 0x3f) || m == 0x5d || m == 0x5f || row == .maccSt || row == .maccCvt ||
    decide (0x74 ≤ m ∧ m ≤ 0x78)

/-- The row makes accesses that a release fence orders: stores, atomics, PUT and RAMO (R179). -/
def fenceOrders (row : Instr) : Bool :=
  let m := row.major
  decide (0x39 ≤ m ∧ m ≤ 0x44 ∧ m ≠ 0x3a ∧ m ≠ 0x3e ∧ m ≠ 0x3f ∧ m ≠ 0x42) || m == 0x5d || m == 0x5f || row == .maccSt || row == .maccCvt

/-- Registers of the group at the D field of an instruction (R205, R215, R221). -/
def State.groupSize (s : State) (c : CtxId) (row : Instr) (o : Fields) : Nat :=
  let blk := (o.imm.extractLsb' 0 3).toNat
  match row with
  | .vscale | .vquant => (blockRegs blk * 16 / blockLen blk * frameBytes o.et blk + 63) / 64
  | .vld | .vst => if o.et < 16 then 1 else ((s.rs c o.s3).toNat * frameBytes o.et (pBlk (s.rs c o.s1)) + 63) / 64
  | _ => 1

/-- Registers of the group at its S1 field: the inputs of a block instruction, a frame image, the payload of a message (R205, R209, R215, R279). -/
def groupAt1 (row : Instr) (o : Fields) : Nat :=
  let blk := (o.imm.extractLsb' 8 3).toNat
  match row with
  | .vamax | .vscale | .vquant => blockRegs (o.imm.extractLsb' 0 3).toNat
  | .vcvt | .vcvtSat =>
    if o.et < 16 then 1 else min 4 ((((o.imm.extractLsb' 0 3).toNat * 16 + 15) / blockLen blk + 1) * frameBytes o.et blk / 64 + 1)
  | .sendUni | .sendReply => if o.s1 = 0 then 1 else 6
  | .sendMulti => if o.s1 = 0 then 1 else 5
  | _ => 1

/-- The keys of a group of n registers. -/
def depKeys (cl : Cls) (r : BitVec 5) (n : Nat) : List Nat := (List.range n).filterMap (fun i => depKey cl (r + BitVec.ofNat 5 i))

/-- The register that holds the advance of a base, when the row has one (R220). -/
def advanceReg (row : Instr) (o : Fields) : Option (BitVec 5) :=
  match row with
  | .vld | .vst => some o.s2
  | .vldStr | .vstStr | .vgth | .vsct => some o.s3
  | _ => none

/-- The row writes the register its S1 field names: a base that advances by a register that is not zero (R220), or a loop count. -/
def State.writesS1 (s : State) (c : CtxId) (row : Instr) (o : Fields) : Bool :=
  match advanceReg row o with
  | some r => s.rs c r != 0
  | none => row == .vseqe

/-- What stood before the values in registers. -/
def State.stood (s : State) (c : CtxId) (keys : List Nat) : HbInfo := HbInfo.joinAll (keys.map (fun n => (s.ctx c).hb.deps.get n []))

/-- What stood before the values an instruction computes with. -/
def State.sources (s : State) (c : CtxId) (row : Instr) (o : Fields) : HbInfo :=
  let (d, s1, s2, s3) := infoRegs o row.info
  let pg := if o.pg = 0 ∨ !(decide (0x50 ≤ row.major ∧ row.major ≤ 0x67)) then [] else [32 + o.pg.toNat]
  s.stood c ((if readsD row then depKeys d o.d (s.groupSize c row o) else []) ++ depKeys s1 o.s1 (groupAt1 row o) ++ (depKey s2 o.s2).toList ++
    (depKey s3 o.s3).toList ++ pg)

/-- The accesses ordered before those of an instruction, but for overlap (R307 rules 2 to 7); `took`: by its sync wait. -/
def State.orderedBefore (s : State) (c : CtxId) (row : Instr) (o : Fields) (took : HbInfo) : HbInfo :=
  let h := (s.ctx c).hb
  HbInfo.joinAll [h.info, s.sources c row o, took,
    (if ctlOrders row then h.ctl.join (if o.pg = 0 then [] else h.deps.get (32 + o.pg.toNat) []) else []),
    (if fenceOrders row then h.winfo else [])]

/-- An instruction that may access memory is about to be performed: what is ordered before its accesses. -/
def State.beginAccess (s : State) (c : CtxId) (row : Instr) (o : Fields) (took : HbInfo) : State :=
  if !s.confOn c then s
  else
    let i := s.orderedBefore c row o took
    s.modHb c (fun h => { h with pre := i, ev := [], acc := false, rd := false })

/-- A branch, a loop end or an indirect jump: the values that decide it, its predicate's among them, stand in a control dependency with what
follows (R307 rule 5). -/
def decides (row : Instr) : Bool := [0x20, 0x21, 0x22, 0x23, 0x24, 0x68, 0x69].contains row.major

def State.decided (s : State) (c : CtxId) (row : Instr) (o : Fields) : HbInfo :=
  if !decides row then []
  else (s.sources c row o).join (if o.pg = 0 then [] else (s.ctx c).hb.deps.get (32 + o.pg.toNat) [])

/-- An instruction has been performed: what its accesses and sources were ordered after goes on with its result (R307 rules 3 to 5). -/
def State.endAccess (s : State) (c : CtxId) (row : Instr) (o : Fields) (off : Bool) : State :=
  if !s.confOn c then s
  else if off then
    let d := s.decided c row o
    s.modHb c (fun h => { h with pre := [], ev := [], acc := false, rd := false, ctl := h.ctl.join d })
  else
    let src := s.sources c row o
    let h := (s.ctx c).hb
    let out := if h.rd then src.join h.ev else src
    let write := fun (t : Tab HbInfo) (k : Nat) (i : HbInfo) => if i = [] ∧ (t.find k).isNone then t else t.set k i
    let deps := (if writesD row then depKeys (infoRegs o row.info).1 o.d (s.groupSize c row o) else []).foldl (fun t k => write t k out) h.deps
    let moved := s.stood c (depKeys .s o.s1 1 ++ (match advanceReg row o with | some r => depKeys .s r 1 | none => []))
    let deps := if s.writesS1 c row o then (depKeys .s o.s1 1).foldl (fun t k => write t k moved) deps else deps
    let d := s.decided c row o
    s.modHb c (fun h => { h with deps := deps, all := h.all.join h.ev, rds := if h.rd then h.rds.join h.ev else h.rds, ctl := h.ctl.join d })

/-! Accesses. -/

/-- What a plain write or an engine's write of bytes [lo, hi) leaves of a record of released knowledge. -/
def RelRec.trim (lo hi : Nat) (r : RelRec) : List RelRec :=
  if r.hi ≤ lo ∨ hi ≤ r.lo then [r]
  else (if r.lo < lo then [{ r with hi := lo }] else []) ++ (if hi < r.hi then [{ r with lo := hi }] else [])

/-- Bytes [lo, hi) are overwritten by a write that carries nothing on (R312). -/
def State.trimRels (s : State) (lo hi : Nat) : State := { s with rels := s.rels.flatMap (RelRec.trim lo hi) }

/-- Released knowledge that a read of bytes [lo, hi) meets (R312). -/
def State.met (s : State) (lo hi : Nat) : List Released :=
  (s.rels.filter (fun r => decide (r.lo < hi) && decide (lo < r.hi))).map (fun r => r.rel)

/-- Accesses of the context to bytes of [lo, hi), with what was ordered before them (R307 rule 1). -/
def State.overlapping (s : State) (c : CtxId) (lo hi : Nat) : HbInfo :=
  HbInfo.joinAll ((s.recs.filter (fun r => r.ctx == c && decide (r.lo < hi) && decide (lo < r.hi))).map (fun r => HbInfo.join r.pre [r.id]))

/-- An access of a context takes its place in the order: its record is made, a read meets what is released there and an acquire takes it in,
a write carries what it releases, and an atomic passes on what it read (R310, R312). The answer: what is ordered before the accesses that
follow it by R307, itself included. -/
def State.place (s : State) (c : CtxId) (ea : Word) (tag : BitVec 32) (lo hi : Nat) (k : AKind) (plain : Bool) (o : Ord) (pre : HbInfo)
    (own : List Released) : HbInfo × State :=
  let met := s.met lo hi
  let pre := HbInfo.joinAll [pre, s.overlapping c lo hi, if k.reads && o.acq then s.acquired c o.scope met else []]
  let r : AccRec := { id := s.nextId, launch := (match (s.core c.core).launch with | some l => l.id | none => 0), lo := lo, hi := hi,
                      write := k.writes, plain := plain, ctx := c, pre := pre, tag := tag, addr := ea }
  let s := { s with recs := r :: s.recs, nextId := s.nextId + 1 }
  let s := if k = .write then s.trimRels lo hi else s
  let own := own.map (fun x => if o.rel then { x with info := x.info.join pre } else x)
  (pre.join [r.id], if k.writes then { s with rels := own.map (fun x => ⟨lo, hi, x⟩) ++ s.rels } else s)

/-- What a write of the context releases: all that came before a release; else what its release fences cover (R310). -/
def State.publishes (s : State) (c : CtxId) (o : Ord) : List Released :=
  if o.rel then [⟨o.scope, c, (s.release c).join (s.ctx c).hb.pre⟩] else (s.ctx c).hb.relF

/-- What is ordered before an access of the present instruction, but for overlap. -/
def State.accessPre (s : State) (c : CtxId) (o : Ord) : HbInfo :=
  if o.rel then (s.ctx c).hb.pre.join (s.release c) else (s.ctx c).hb.pre

/-- The context learns what one of its accesses was ordered after. -/
def State.learn (s : State) (c : CtxId) (reads acq : Bool) (met : List Released) (i : HbInfo) : State :=
  s.modHb c (fun h => { h with ev := h.ev.join i, acc := true, rd := h.rd || reads, reads := if reads then met ++ h.reads else h.reads,
                               info := if acq then h.info.join i else h.info })

/-- An access of the present instruction to bytes [lo, hi) is performed. -/
def State.access (s : State) (c : CtxId) (ea : Word) (lo hi : Nat) (k : AKind) (plain : Bool) (o : Ord) : State :=
  if !s.confOn c then (if k = .write then s.trimRels lo hi else s)
  else
    let met := s.met lo hi
    let (i, s) := s.place c ea (BitVec.ofNat 32 (s.ctx c).count) lo hi k plain o (s.accessPre c o) (s.publishes c o)
    s.learn c k.reads o.acq met i

/-- FENCE and its forms (R179, R310): FN 0 full, 1 acquire, 2 release. -/
def State.fenceOrder (s : State) (c : CtxId) (fn scope : Nat) : State :=
  if !s.confOn c then s
  else
    let h := (s.ctx c).hb
    let all := s.release c
    let take := s.acquired c scope h.reads
    let rel : List Released := ⟨scope, c, all⟩ :: h.relF.filter (fun r => r.scope != scope)
    match fn with
    | 0 => (s.acquireInfo c (take.join all)).modHb c (fun h => { h with relF := rel })
    | 1 => s.acquireInfo c (take.join h.rds)
    | _ => s.modHb c (fun h => { h with winfo := h.winfo.join all, relF := rel })

/-- XFENCE (R180, R316): P and Q as sets of paths. What is ordered is the context's core path, when P has it, and the accesses of P's other
paths that the context has observed; each is ordered before the later accesses of the paths in Q. -/
def State.crossOrder (s : State) (c : CtxId) (p q : Nat) : State :=
  if !s.confOn c then s
  else
    let w := if p % 2 = 1 then s.release c else (s.ctx c).hb.info
    let s := if q % 2 = 1 then s.acquireInfo c w else s
    s.modHb c (fun h => { h with paths := (List.range 5).foldl (fun t k => if q / 2 ^ (k + 1) % 2 = 1 then t.set (k + 1) ((t.get (k + 1) []).join w) else t) h.paths })

/-- What is ordered before the accesses of an engine command the context issues now: what an XFENCE ordered before the path, and the
dependencies of the command (R307, R316). -/
def State.engineInfo (s : State) (c : CtxId) (path : Nat) : HbInfo := (s.ctx c).hb.pre.join ((s.ctx c).hb.paths.get path [])

/-- The signal of an instruction that made an access reaches a counter of its core: what it carries (R307 rule 2). -/
def State.reinCarry (s : State) (core : CoreId) (n : Nat) (i : HbInfo) : State :=
  if i = [] then s else s.modCore core (fun k => { k with reinHb := k.reinHb.set n ((k.reinHb.get n []).join i) })

/-- A counter is set: no earlier signal stands in its value any more (R307 rule 2). -/
def State.reinClear (s : State) (core : CoreId) (n : Nat) : State :=
  s.modCore core (fun k => { k with reinHb := k.reinHb.erase n, reinAcq := k.reinAcq.erase n })

def State.reinSignal (s : State) (c : CtxId) (n : Nat) : State :=
  if !s.confOn c || !(s.ctx c).hb.acc then s else s.reinCarry c.core n (s.ctx c).hb.ev

/-- A new conflict interval of a context: the detector discards its records (R324). -/
def State.newInterval (s : State) (c : CtxId) : State :=
  { s with recs := s.recs.map (fun r => if r.ctx = c then { r with plain := false } else r) }

/-- A signal whose observation acquires reaches a counter: a collective's retirement or a reply (R280, R290). -/
def State.reinRelease (s : State) (core : CoreId) (n : Nat) (i : HbInfo) : State :=
  if i = [] then s else s.modCore core (fun k => { k with reinAcq := k.reinAcq.set n ((k.reinAcq.get n []).join i) })

/-- A satisfied wait on a counter: what its signals release is acquired, and one that observes the retirement of a coll.join of the context
begins a new interval (R324). -/
def State.reinTaken (s : State) (c : CtxId) (n : Nat) : State :=
  if !s.confOn c then s
  else
    let s := s.acquireInfo c ((s.core c.core).reinAcq.get n [])
    if (s.ctx c).joins.contains n then (s.newInterval c).modCtx c (fun k => { k with joins := k.joins.filter (fun x => x != n) }) else s

/-- A satisfied CWAIT orders what the counter's signals carried before everything that follows (R307 rule 2). -/
def State.reinWait (s : State) (c : CtxId) (n : Nat) : State :=
  if !s.confOn c then s else (s.acquireInfo c ((s.core c.core).reinHb.get n [])).reinTaken c n

/-! The conflict detector. -/

/-- Contexts that the detector takes as one: a tandem pair (R323). -/
def State.sameParty (s : State) (c d : CtxId) : Bool :=
  c == d || (c.core.vt == d.core.vt && c.ctx == d.ctx &&
    match (s.core c.core).tandem with | some t => t.partner == d.core.pos | none => false)

def lineSpan (lo hi : Nat) : List Nat := (List.range ((hi - 1) / 64 + 1 - lo / 64)).map (fun i => lo / 64 + i)

/-- The unit that records an access of a context: the die for spaces 3 and 5, else the tile of its bytes (R326). -/
def recUnit (c : CtxId) (lo : Nat) : Bool × Nat :=
  if 2 ≤ flatKind lo then (true, dieOf c.core.vt) else (false, if flatKind lo = 0 then flatOwner lo / 192 else flatOwner lo)

/-- Lines the detector of one tile or die holds for a launch (R326). -/
def State.recLines (s : State) (launch : Nat) (unit : Bool × Nat) : List Nat :=
  ((s.recs.filter (fun r => r.plain && r.launch == launch && recUnit r.ctx r.lo == unit)).flatMap (fun r => lineSpan r.lo r.hi)).eraseDups

/-- The check of a plain access to bytes [lo, hi) (R323, R325, R326); DETCONF, or the access may be performed. -/
def State.confCheck (s : State) (c : CtxId) (ea : Word) (lo hi : Nat) (write : Bool) : Except Stop Unit :=
  if !s.confOn c then .ok ()
  else
    let pre := (s.ctx c).hb.pre.join (s.overlapping c lo hi)
    match s.recs.find? (fun r => r.plain && decide (r.lo < hi) && decide (lo < r.hi) && (write || r.write) && !s.sameParty c r.ctx &&
        !pre.contains r.id) with
    | some r =>
      let common := max lo r.lo / 64 * 64
      let t : Tr := { cause := .detconf, val := ea, detail := 0, other := identC r.ctx, obyte := max r.lo common - common }
      let rec_ : FaultRec := { addr := r.addr, tag := r.tag.toNat, ident := identC r.ctx, cause := Cause.detconf.code, kind := 2,
                               launch := r.launch }
      .error (.trap t (s.record (dieOf c.core.vt) rec_).2)
    | none =>
      let launch := match (s.core c.core).launch with | some l => l.id | none => 0
      let unit := recUnit c lo
      let held := s.recLines launch unit
      let new := (lineSpan lo hi).filter (fun x => !held.contains x)
      if (if unit.1 then 262144 else 32768) < held.length + new.length then
        .error (.trap { cause := .detconf, val := ea, detail := 1, other := 0, obyte := 0 } s)
      else .ok ()

/-- Note an access that has passed its check and is not performed yet, so that the checks that follow count its lines (R223, R326). -/
def State.confHold (s : State) (c : CtxId) (lo hi : Nat) (write : Bool) : State :=
  if !s.confOn c then s
  else
    let r : AccRec := { id := s.nextId, launch := (match (s.core c.core).launch with | some l => l.id | none => 0), lo := lo, hi := hi,
                        write := write, plain := true, ctx := c, pre := [], tag := 0, addr := 0 }
    { s with recs := r :: s.recs }

end Sys2Proof.Machine
end

