-- ==== Sys2Proof/Machine/Blocks.lean ====
section
/-! DEFINITION. Writes to memory: the rules of the control blocks in die commons, poisoned words (R419), and the undo window of an
activation with its commit and rollback (R275, R421–R424). -/

namespace Sys2Proof.Machine

open Sys2Proof

/-! Stores to the control blocks (R365, R378, R416, R431, R438, R443, R453, R462, R464): what an aligned word reads as after a store that
would make it `new`. -/

/-- A number with a field replaced. -/
def putBits (n lo w x : Nat) : Nat := n - natBits n lo w * 2 ^ lo + x % 2 ^ w * 2 ^ lo

/-- Words of the Farrier block, by offset in it: control, status, wear limit and counters (Tables 126–128, 131). -/
def farrierWord (o old new : Nat) : Nat :=
  if o = 0 then (if new / 256 ≠ 0 ∨ natBits new 3 1 = 1 ∨ 8 < natBits new 4 4 then old else new)
  else if o = 8 then (if new / 2 ^ 54 ≠ 0 ∨ natBits new 12 1 = 1 ∨ natBits new 14 1 = 1 then old else putBits old 14 1 0)
  else if o = 0x18 then new
  else if 0x20 ≤ o ∧ o < 0x60 then (if new = 0 then 0 else old)
  else old

/-- Link control word of an edge of a die: 0 east, 1 north, 2 west, 3 south (Table 135). -/
def State.linkControl (s : State) (vd e : Nat) : Nat := s.load (flatCommons vd (0x7fe9200 + 8 * e)) 8

/-- The other end of a link: die and edge. -/
def State.farEnd (s : State) (vd e : Nat) : Option (Nat × Nat) :=
  match (neighbour (s.info vd).phys (e + 1)).bind (dieAt s.panel) with
  | some d => some (d, opposite (e + 1) - 1)
  | none => none

/-- The die has injector i (R431). -/
def State.hasInjector (s : State) (vd i : Nat) : Bool :=
  s.feat1 2 && (decide (i < 4) || (i == 4 && tetherPorts (s.info vd).phys != 0))

/-- A store of word 0 that is ignored as a whole (R431). -/
def injectorBad (new : Nat) : Bool := natBits new 53 6 != 0 || natBits new 61 2 == 3 || (new % 2 ^ 32 == 0 && natBits new 63 1 == 1)

/-- Words of an injector (Table 132). -/
def injectorWord (w old new : Nat) : Nat :=
  match w with
  | 0 => if injectorBad new then old else new
  | 1 => new
  | _ => old

/-- A link control word (Table 135): a new request starts a change; `scaling`: FEAT1 bit 1 is accepted (R454). -/
def linkWord (scaling : Bool) (old new : Nat) : Nat :=
  if natBits new 12 20 ≠ 0 ∨ natBits new 4 2 ≠ 0 ∨ natBits new 2 2 = 3 ∨ new % 4 = 3 then old
  else
    let req := natBits new 2 2 * 4 + if scaling then new % 4 else 0
    if req = old % 16 then old else putBits (putBits old 0 4 req) 7 1 1

/-- A power and debug word (Table 138). -/
def powerWord (vd old new : Nat) : Nat :=
  if natBits new 48 16 ≠ 0 ∨ natBits new 34 6 ≠ 0 ∨ natBits new 17 15 ≠ 0 ∨ natBits new 10 6 ≠ 0 ∨ natBits new 2 6 ≠ 0 ∨ new % 4 = 3 ∨
      (new % 4 = 2 ∧ vd ≠ 0) then old
  else putBits (if natBits new 16 1 = 0 then putBits old 16 1 0 else old) 0 2 new

/-- The word at an offset of a die's commons. -/
def State.blockWord (s : State) (vd off old new : Nat) : Nat :=
  if off < 0x7fe1fe0 then new
  else if off < 0x7fe2000 then (if off = 0x7fe1fe0 ∧ new = 0 then 0 else old)
  else if off < 0x7fe2028 then new
  else if off < 0x7fe2040 then old
  else if off < 0x7fe8000 then new
  else if off < 0x7fe9000 then farrierWord (off - 0x7fe8000) old new
  else if off < 0x7fe9140 then
    (if s.hasInjector vd ((off - 0x7fe9000) / 0x40) then injectorWord ((off - 0x7fe9000) % 0x40 / 8) old new else old)
  else if 0x7fe9200 ≤ off ∧ off < 0x7fe9220 then linkWord (s.feat1 1) old new
  else if 0x7fea000 ≤ off ∧ off < 0x7fea600 then old
  else if vd = 0 ∧ off = 0x7feb020 then (if new = 1 ∧ old ≠ 1 ∧ s.attest.dark = false then 1 else old)
  else if vd = 0 ∧ (0x7feb040 ≤ off ∧ off < 0x7feb060 ∨ 0x7feb200 ≤ off ∧ off < 0x7feb240) then old
  else if off = 0x7fec000 then powerWord vd old new
  else new

/-- A store of n bytes at a flat address reaches the control blocks of a die. -/
def inBlocks (a n : Nat) : Bool := flatKind a == 2 && decide (0x7fe0000 < flatOff a + n) && decide (flatOff a < 0x7ff0000)

/-- What a store of bytes l at a flat address would make of the aligned word at w. -/
def State.overlaid (s : State) (a : Nat) (l : List Byte) (w : Nat) : Nat :=
  leNat ((List.range 8).map (fun j => if a ≤ w + j ∧ w + j < a + l.length then l.getD (w + j - a) 0 else s.byte (w + j)))

/-- What byte i of a store of bytes l at a flat address leaves there. -/
def State.blockByte (s : State) (a : Nat) (l : List Byte) (i : Nat) : Byte :=
  let w := (a + i) / 8 * 8
  byteOf (s.blockWord (flatOwner a) (flatOff w) (s.load w 8) (s.overlaid a l w)) (a + i - w)

/-- The bytes that a store leaves: those stored, but in the control blocks. -/
def State.blockBytes (s : State) (a : Nat) (l : List Byte) : List Byte :=
  if inBlocks a l.length then (List.range l.length).map (s.blockByte a l) else l

/-- A store of n bytes at a flat address touches the word at w. -/
def touches (a n w : Nat) : Bool := decide (a ≤ w + 7) && decide (w < a + n)

/-- An injector whose word 0 is stored starts its count again, unless the store is ignored (R431, R432). -/
def State.rearm (s : State) (a : Nat) (l : List Byte) : State :=
  if inBlocks a l.length then
    (List.range 5).foldl (fun s i =>
      let w := flatCommons (flatOwner a) (0x7fe9000 + 0x40 * i)
      if touches a l.length w && s.hasInjector (flatOwner a) i && !injectorBad (s.overlaid a l w) then
        s.modDie (flatOwner a) (fun d => { d with inj := d.inj.set i 0 })
      else s) s
  else s

/-- Hardware will act on a stored Farrier control word or link control word, at the next turn (`State.follow`). -/
def State.noteActs (s : State) (a n : Nat) : State :=
  if inBlocks a n then
    let ws := (0x7fe8000 :: (List.range 4).map (fun e => 0x7fe9200 + 8 * e)).map (flatCommons (flatOwner a))
    { s with acts := s.acts ++ ws.filter (touches a n) }
  else s

/-! Power (Table 138, R463). -/

def State.power (s : State) (vd lo w : Nat) : Nat := natBits (s.load (flatCommons vd 0x7fec000) 8) lo w
def State.setPower (s : State) (vd lo w x : Nat) : State :=
  s.store (flatCommons vd 0x7fec000) 8 (putBits (s.load (flatCommons vd 0x7fec000) 8) lo w x)

/-- An access that goes from a die by the routes of class 0 wakes the drowsy dies it reaches, within n hops. -/
def State.rousePath (s : State) (dst : Nat) : Nat → Nat → State
  | 0, _ => s
  | n + 1, d =>
    if d = dst then s
    else
      match s.nextDie 0 d dst with
      | none => s
      | some (_, x) => (if s.power x 8 2 = 1 then s.setPower x 8 2 0 else s).rousePath dst n x

/-! Cache slices (R58, R193, R443). -/

/-- The physical address of a flat address of home memory (R377). -/
def flatPa (a : Nat) : Nat := if flatKind a = 4 then (2 + flatOwner a % 2) * 2 ^ 37 + flatOff a else flatOff a

/-- The die whose slices hold the lines of a flat address of home memory: of a shared stack, the die that owns it. -/
def State.lineDie (s : State) (a : Nat) : Nat :=
  if flatKind a = 4 then
    match s.panel.findIdx? (fun i => i.pair == flatOwner a / 2) with
    | some d => (s.stack d (flatOwner a % 2)).owner
    | none => 0
  else flatOwner a

/-- The entry of the slice map that a physical address belongs to. -/
def sliceHash (pa : Nat) : Nat :=
  [6, 12, 18, 24, 30].foldl (fun h lo => h ^^^ natBits pa lo 6) (natBits pa 36 4)

/-- The slot whose slice owns a line of a die, when a slice is active. -/
def State.sliceOf (s : State) (vd pa : Nat) : Option Nat :=
  let b := (s.byte (flatCommons vd (0x7fea008 + sliceHash pa))).toNat
  if b = 0xff then none else some b

/-- Lines of home memory that a write of n bytes touches are dirty in their slices, with the bytes that stood behind them. -/
def State.markDirty (s : State) (a n : Nat) : State :=
  if n = 0 ∨ flatKind a < 3 ∨ 4 < flatKind a then s
  else
    (lineSpan a (a + n)).foldl (fun s x =>
      if (s.dirty.find x).isSome ∨ (s.sliceOf (s.lineDie (x * 64)) (flatPa (x * 64))).isNone = true then s
      else { s with dirty := s.dirty.set x (s.bytes (x * 64) 64) }) s

/-- Slices write lines back to memory. -/
def State.writeBack (s : State) (lines : Nat → Bool) : State := { s with dirty := s.dirty.filter (fun x => !lines x.1) }

/-- A slice drops a line it has written without writing it back, unless its own replacement has done so before, which is a free value (R418, log 2):
the bytes behind it stand again. -/
def State.dropLine (s : State) (x : Nat) : State :=
  match s.dirty.find x with
  | none => s
  | some old =>
    let (n, s) := s.draw
    let s := if (Config.freeWord n).getLsbD 0 then s else s.storeBytes (x * 64) old
    { s with dirty := s.dirty.erase x }

/-- Address of a site record (Table 129), and its fields. -/
def siteAddr (vd k : Nat) : Nat := flatCommons vd (0x7fe8100 + 128 * k)

def State.siteField (s : State) (vd k lo w : Nat) : Nat := natBits (s.load (siteAddr vd k) 8) lo w
def State.setSite (s : State) (vd k lo w x : Nat) : State := s.store (siteAddr vd k) 8 (putBits (s.load (siteAddr vd k) 8) lo w x)

/-- The checkpoint of a site is no longer covered: its partner, or the bounds of its scratchpad, have changed (R417). Its journal goes with it. -/
def State.uncover (s : State) (vd k : Nat) : State := (s.setSite vd k 4 1 0).modDie vd (fun d => { d with journals := d.journals.erase k })

/-- Lines of a scratchpad that a write of n bytes touches are marked for the tile's epoch (R418). -/
def State.markLines (s : State) (a n : Nat) : State :=
  let t := s.tile (flatOwner a)
  if n = 0 ∨ flatKind a ≠ 1 ∨ flatOff a + n ≤ t.plb0 * 65536 ∨ t.plb1 * 65536 ≤ flatOff a then s
  else { s with marks := s.marks ++ (lineSpan a (a + n)).filter (fun x => !s.marks.contains x) }

/-- Write bytes, as a store does. A store that covers a whole aligned word clears its poison (R419). -/
def State.poke (s : State) (a : Nat) (l : List Byte) : State :=
  let b := s.blockBytes a l
  let s := { s with poison := s.poison.filter (fun w => decide (w * 8 < a) || decide (a + l.length < w * 8 + 8)) }
  ((((s.rearm a l).noteActs a l.length).markDirty a l.length).markLines a l.length).storeBytes a b

/-- The sites that are fixed where a flit is injected or enters a die (R402): of its tile, or of each tile of a multicast message there. -/
def State.fixSite (s : State) (p : Packet) (vd : Nat) : Packet :=
  match p.pl with
  | .msg m _ _ =>
    if m.mc then
      let slots := (List.range 64).filter (fun i => m.dests.getLsbD i && dieOf (m.vt % 64 * 8 + i) == vd)
      { p with sites := slots.map (fun i => (slotOf (m.vt % 64 * 8 + i), s.curSite vd (slotOf (m.vt % 64 * 8 + i)))) }
    else if dieOf p.dst = vd ∧ p.site.isNone = true then { p with site := some (s.curSite vd (slotOf p.dst)) } else p
  | _ => if dieOf p.dst = vd ∧ p.site.isNone = true then { p with site := some (s.curSite vd (slotOf p.dst)) } else p

/-- The launch that what a packet carries belongs to. -/
def Payload.launch : Payload → Nat
  | .msg m _ _ => m.launch
  | .spur _ _ _ _ l => l
  | .remote r => r.launch

/-- Put a packet with a new number into the fabric at a tile's router, where its site is fixed (R402). -/
def State.inject (s : State) (src dst cls : Nat) (pl : Payload) : State :=
  let p : Packet := { id := s.nextId, at_ := src, dst := dst, site := none, sites := [], retry := none, cls := cls, seq := s.nextId, pl := pl }
  ({ s with net := s.net ++ [s.fixSite p (dieOf src)], nextId := s.nextId + 1 } : State).useFabric pl.launch

/-- Where a message goes first: the tile named, or the lowest tile of a multicast's vector (R272). -/
def lowBit (w : Word) : Nat := ((List.range 64).find? (fun i => w.getLsbD i)).getD 0
def Msg.target (m : Msg) : Nat := if m.mc then m.vt % 64 * 8 + lowBit m.dests else m.vt

/-- Number of destinations of a message. -/
def Msg.fan (m : Msg) : Nat := if m.mc then ((List.range 64).filter (fun i => m.dests.getLsbD i)).length else 1

/-- Send a message of a context: a record of its answers and a packet. A buffered reply needs no record: it is never refused, and its SEND has
completed (R276, R280). -/
def State.post (s : State) (c : CtxId) (buffered : Bool) (tag : BitVec 32) (m : Msg) : State :=
  if m.kind = 1 ∧ buffered = true then s.inject c.core.vt m.target m.cls (.msg m 0 none)
  else
    let r : SendRec := { id := s.nextId, ctx := c, tag := tag, spur := false, buffered := buffered, launch := m.launch, pos := m.pos,
                         left := m.fan, fail := none, late := false, val := 0, gone := false }
    ({ s with sends := s.sends ++ [r], nextId := s.nextId + 1 }).inject c.core.vt m.target m.cls (.msg m 0 (some r.id))

/-- Release the buffered messages of an activation in send order; the core counts them until each is answered (R153, R275). -/
def State.sendAll (s : State) (c : CtxId) : List (Msg × BitVec 32) → State
  | [] => s
  | (m, tag) :: r =>
    let s := if m.kind = 1 then s else s.modCore c.core (fun q => { q with pending := q.pending + 1 })
    (s.post c true tag m).sendAll c r

/-- The context runs an activation that is still within its limits (R421). -/
def Ctx.isWithin (k : Ctx) : Bool := k.act.within && k.act.task.isSome && k.st != .free

/-- A commit event of an activation, before the event is performed (R421): the undo log is discarded and the buffered messages are
released. -/
def State.commit (s : State) (c : CtxId) : State :=
  let k := s.ctx c
  if !k.isWithin then s
  else
    let s := s.setCtx c { k with act := { k.act with buf := [], log := [], within := false } }
    s.sendAll c k.act.buf

/-- The undo window of a context (R422): TCM offsets [lo, hi). -/
def State.window (s : State) (c : CtxId) : Nat × Nat :=
  match (s.core c.core).launch with
  | none => (0, 0)
  | some l =>
    let b := 0x1ffc0 - c.ctx * l.stack
    (b - min l.stack 4096, b)

/-- Aligned words of [a, a + n). -/
def wordsOf (a n : Nat) : List Nat := (List.range ((a + n + 7) / 8 - a / 8)).map (fun i => (a / 8 + i) * 8)

/-- Log the old values of window words at their first store (R422). -/
def State.logWords (s : State) (c : CtxId) : List Nat → State
  | [] => s
  | w :: r =>
    let k := s.ctx c
    if k.act.log.any (fun u => u.addr == w) then s.logWords c r
    else (s.setCtx c { k with act := { k.act with log := k.act.log ++ [⟨w, s.bytes w 8⟩] } }).logWords c r

/-- Contexts of the core whose window another context's access to [a, a + n) touches: each commits (R421). -/
def State.commitOthers (s : State) (c : CtxId) (a n : Nat) : List Nat → State
  | [] => s
  | i :: r =>
    let d : CtxId := ⟨⟨flatOwner a / 192, flatOwner a % 192⟩, i⟩
    let (lo, hi) := s.window d
    let s := if d ≠ c ∧ (s.ctx d).isWithin = true ∧ flatOff a < hi ∧ lo < flatOff a + n then s.commit d else s
    s.commitOthers c a n r

/-- An access to [a, a + n) of a TCM by context c: windows of other contexts commit. -/
def State.touch (s : State) (c : CtxId) (a n : Nat) : State :=
  if flatKind a = 0 then s.commitOthers c a n [1, 2, 3, 4, 5, 6, 7, 8, 9, 10] else s

/-- Before a store of n bytes at a flat address (R421, R422): a store within the activation's window is logged, any other store
commits the activation. `plain`: the store may stay within the window (ST and vector stores). -/
def State.undoLog (s : State) (c : CtxId) (a n : Nat) (plain : Bool) : State :=
  let s := s.touch c a n
  if !(s.ctx c).isWithin then s
  else
    let (lo, hi) := s.window c
    if plain ∧ a / 2 ^ 44 = flatTcm c.core 0 / 2 ^ 44 ∧ lo ≤ flatOff a ∧ flatOff a + n ≤ hi then s.logWords c (wordsOf a n)
    else s.commit c

/-- Write an undo log back, latest entry first. -/
def State.unwind (s : State) : List Undo → State
  | [] => s
  | u :: r => (s.storeBytes u.addr u.old).unwind r

/-- A counter of the Farrier block rises, saturating (Table 131). -/
def State.bump (s : State) (vd o : Nat) : State :=
  let a := flatCommons vd (0x7fe8000 + o)
  s.store a 8 (min (s.load a 8 + 1) (2 ^ 64 - 1))

/-! Wakes. -/

/-- Mark a sleeping context as woken (R156). -/
def Wait.wake : Wait → Wait
  | .sleep _ => .sleep true
  | .timed n _ => .timed n true
  | w => w

def Ctx.wake (k : Ctx) : Ctx :=
  match k.st with
  | .waiting w since => { k with st := .waiting w.wake since }
  | _ => k

/-- Wake the sleepers among the listed contexts of a core. -/
def State.wakeFrom (s : State) (core : CoreId) : List Nat → State
  | [] => s
  | i :: r => ((match (s.ctx ⟨core, i⟩).st with
      | .waiting _ _ => s.modCtx ⟨core, i⟩ Ctx.wake
      | _ => s) : State).wakeFrom core r

def allCtx : List Nat := [0, 1, 2, 3, 4, 5, 6, 7, 8, 9, 10]
def helperCtx : List Nat := [1, 2, 3, 4, 5, 6, 7, 8, 9, 10]

/-- Wake every context of a core that sleeps. -/
def State.wakeCore (s : State) (core : CoreId) : State := s.wakeFrom core allCtx

/-- Roll an activation back (R423): its helper becomes free, which wakes the sleepers of the core (R156). -/
def State.rollback (s : State) (c : CtxId) : State :=
  let k := s.ctx c
  let s := s.unwind k.act.log.reverse
  let s := { s with recs := s.recs.filter (fun r => r.ctx != c), feq := s.feq.filter (fun r => r.ctx != c) }
  let s := s.setCtx c (k.cleared c)
  let s := (s.bump (dieOf c.core.vt) 0x38).wakeCore c.core
  match k.act.task with
  | none => s
  | some t =>
    let t := { t with replays := t.replays + 1 }
    let q := (s.core c.core).runq
    let before := q.filter (fun x => decide (x.seq < t.seq))
    let after := q.filter (fun x => decide (t.seq ≤ x.seq))
    s.modCore c.core (fun k => { k with runq := before ++ t :: after })

/-- An uncorrectable error of the context is rolled back rather than reported: within limits, and at most twice per message
(R423, R424). -/
def Ctx.mayRollback (k : Ctx) : Bool :=
  k.isWithin && (match k.act.task with | some t => decide (t.replays < 2) | none => false)

end Sys2Proof.Machine
end

