-- ==== Sys2Proof/Machine/Access.lean ====
section
/-! DEFINITION. The core access path: forming and checking an address in the order of R170, and performing reads and writes
(R164–R170, R183, R323). -/

namespace Sys2Proof.Machine

open Sys2Proof

/-- An access to be checked: the pointer operand and offset, bytes, alignment, kind, the spaces its instruction accepts
(Table 58), whether it is a plain access (R323) and whether the range scoreboard holds it back (R183). -/
structure Req where
  base : Word
  ofs : Int
  n : Nat
  align : Nat
  k : AKind
  spaces : List Nat
  plain : Bool
  held : Bool
deriving DecidableEq, Repr

/-- The effective address as formed (R164), when the offset stays in the field; otherwise the pointer operand. -/
def Req.ea (q : Req) : Word := (offAdd q.base q.ofs).getD q.base

/-- Steps 1 to 3 of R170: FEATURE_OFF, FORMAT, OFFSET_OVERFLOW; a space without an offset field is SPACE. OFFSET_OVERFLOW puts the pointer
operand into TRAPVAL, for a carry and for a byte beyond the field alike (Table 111, R78). -/
def State.formEa (s : State) (q : Req) : Except Tr Word :=
  if pFmt q.base = 15 ∧ s.feat0 5 = false then .error (Cause.at_ .featureOff q.ea)
  else if fmtOk q.base = false then .error (Cause.at_ .format q.ea)
  else if 6 ≤ pSpc q.base then .error (Cause.at_ .space q.base)
  else
    match offAdd q.base q.ofs with
    | none => .error (Cause.at_ .offsetOverflow q.base)
    | some ea =>
      if pSpc ea ≠ 4 ∧ 2 ^ offWidth (pSpc ea) < pOff ea + q.n then .error (Cause.at_ .offsetOverflow q.base) else .ok ea

/-- The SPACE checks that need only the pointer, and the relative coordinates resolved (R55, R56, R166, R189). -/
def State.absolute (s : State) (c : CoreId) (spaces : List Nat) (ea : Word) : Except Tr Word :=
  match resolveRel c ea with
  | none => .error (Cause.at_ .space ea)
  | some p =>
    if s.spaceFault p || !spaces.contains (pSpc p) then .error (Cause.at_ .space ea) else .ok p

/-- A misaligned offset (R169, R57). -/
def misaligned (p : Word) (align : Nat) : Bool := pSpc p != 4 && decide (pOff p % align ≠ 0)

/-- Where the scoreboard sees an access: flat bytes for spaces 0–3, virtual addresses for space 5 (R183). -/
def State.sbAddr (s : State) (c : CoreId) (p : Word) : Nat :=
  if pSpc p = 5 then 2 ^ 90 + pDie p * 2 ^ 46 + pVa p else s.flatOf c p

def overlaps (r : Option (Nat × Nat)) (lo hi : Nat) : Bool :=
  match r with
  | some (a, b) => decide (a < hi) && decide (lo < b)
  | none => false

/-- The range scoreboard of the core holds the access back (R183). -/
def State.sbHolds (s : State) (c : CoreId) (lo hi : Nat) (write : Bool) : Bool :=
  (s.core c).sb.any (fun e => overlaps e.dst lo hi || (write && overlaps e.src lo hi))

def stop (t : Tr) (s : State) : Except Stop α := .error (.trap t s)

/-- The memory a pointer that other cores can use names, and its offset there: a pair window is one memory whichever of its two dies the
pointer names (R165, R187). -/
def State.byteKey (s : State) (p : Word) : Nat :=
  if pSpc p = 5 ∧ pPair p = true then 2 ^ 60 + (s.info (pDie p)).pair else p.toNat % 2 ^ 56 / 2 ^ offWidth2 (pSpc p)
def byteOff (p : Word) : Nat := if pSpc p = 5 ∧ pPair p = true then pVa p % 2 ^ 45 else p.toNat % 2 ^ offWidth2 (pSpc p)

/-- The address of a remote access in the form other cores use (R138). -/
def Remote.target (r : Remote) : Word := (absPtr r.issuer.core r.abs).getD r.abs

/-- Two pointers in that form name a common byte. -/
def State.sameBytes (s : State) (p : Word) (n : Nat) (q : Word) (m : Nat) : Bool :=
  s.byteKey p == s.byteKey q && decide (byteOff p < byteOff q + m) && decide (byteOff q < byteOff p + n)

/-- A remote access of the context that has not been performed satisfies f. -/
def State.unperformed (s : State) (c : CtxId) (f : Remote → Bool) : Bool :=
  s.net.any (fun p => match p.pl with | .remote x => x.issuer == c && decide (x.stage < 2) && f x | _ => false)

/-- A posted RAMO of the context that acquires is on its way: no later access is performed before it has been (R167). -/
def State.acquiring (s : State) (c : CtxId) : Bool :=
  s.net.any (fun p => match p.pl with
    | .remote x => x.issuer == c && x.kind == 2 && !x.returning && !x.gone && (x.md == 1 || x.md == 3)
    | _ => false)

/-- An access of the context to n bytes at a resolved pointer has to wait for a remote access of it: one that acquires, or one to a byte of
them (R167, R307 rule 1). -/
def State.behindRemote (s : State) (c : CtxId) (p : Word) (n : Nat) : Bool :=
  s.acquiring c || s.unperformed c (fun x => s.sameBytes x.target x.size ((absPtr c.core p).getD p) n)

/-- Lift a check that changes nothing. -/
def State.lift {α : Type} (s : State) : Except Tr α → Except Stop α
  | .ok x => .ok x
  | .error t => .error (.trap t s)

/-- A translation fault as the issuer sees it: PAGE_ABSENT records a kind 0 entry whose token is DETAIL, and names the home
interface in OTHER (R362, R365). -/
def State.transFault (s : State) (c : CtxId) (ea : Word) (home ifc : Nat) (cause : Cause) : Tr × State :=
  if cause = .pageAbsent then
    let r : FaultRec := { addr := ea, tag := (s.ctx c).count % 2 ^ 32, ident := identC c, cause := cause.code, kind := 0,
                          launch := match (s.core c.core).launch with | some l => l.id | none => 0 }
    let (tok, s) := s.record home r
    ({ cause := cause, val := ea, detail := tok, other := identOf ifc 0xfe 0xf, obyte := 0 }, s)
  else (Cause.at_ cause ea, s)

/-- The checks of R170 up to DETCONF and the scoreboard on an access whose home must be the issuing die: its flat address, or the first
failure. -/
def State.coreAddr0 (s : State) (c : CtxId) (q : Req) : Except Stop (Nat × State) := do
  let ea ← s.lift (s.formEa q)
  let p ← s.lift (s.absolute c.core q.spaces ea)
  let die := dieOf c.core.vt
  trapIf (s.home c.core p != die) { cause := .space, val := ea, detail := 1, other := 0, obyte := 0 } s
  trapIf ((pSpc p == 1 || pSpc p == 2) && s.slotGone (pTile p)) { cause := .space, val := ea, detail := 2, other := 0, obyte := 0 } s
  trapIf (s.spaceHomeFault p q.n) (Cause.at_ .space ea) s
  trapIf (misaligned p q.align) (Cause.at_ .misalign ea) s
  trapIf (pSpc p == 5 && pPair p && (s.stack (pDie p) (pStack p)).flight) (Cause.at_ .stackNotOwned ea) s
  trapIf (!s.permitted c.core.vt (s.ctx c).sup (pSpc p) (pOff p) q.n q.k || (pSpc p == 1 && s.bankHit (pTile p) (pOff p) q.n))
    (Cause.at_ .protect ea) s
  let (a, s) ← (if pSpc p = 5 then
      match s.translate c.core.vt die (pVa p) ⟨q.k, false⟩ with
      | .ok (a, _, s') => .ok (a, s')
      | .error e => let (t, s') := s.transFault c ea die c.core.vt e; .error (.trap t s')
    else .ok (s.flatOf c.core p, s) : Except Stop (Nat × State))
  if q.plain then s.confCheck c ea a (a + q.n) q.k.writes else pure ()
  let lo := s.sbAddr c.core p
  if q.held && s.sbHolds c.core lo (lo + q.n) q.k.writes then .error (.wait (.range lo (lo + q.n) q.k.writes ea) s) else pure ()
  if s.behindRemote c p q.n then .error (.wait .earlier s) else pure ()
  pure (a, s)

/-- All checks of R170 on an access whose home must be the issuing die. -/
def State.coreAddr (s : State) (c : CtxId) (q : Req) : Except Stop (Nat × State) := do
  let (a, s) ← s.coreAddr0 c q
  trapIf (s.poisoned a q.n && q.k.reads) (Cause.at_ .uncorrectable q.ea) s
  pure (a, s)

/-- An access of space 5 that crosses a 64 KiB boundary, where its page may end, is checked and translated in two parts. -/
def Req.split (q : Req) : List Req :=
  match offAdd q.base q.ofs with
  | some ea =>
    let k := 65536 - pVa ea % 65536
    if pSpc ea = 5 ∧ k < q.n then [{ q with n := k }, { q with ofs := q.ofs + k, n := q.n - k }] else [q]
  | none => [q]

/-- All checks of a list of accesses, in order, before any is performed: each with the flat address of its bytes. The lines of those checked
count for those that follow (R326). -/
def State.checkEach (s : State) (c : CtxId) : List Req → Except Stop (List (Req × Nat) × State)
  | [] => .ok ([], s)
  | q :: r => do
    let (a, s) ← s.coreAddr c q
    let (l, s) ← (if q.plain then s.confHold c a (a + q.n) q.k.writes else s).checkEach c r
    pure ((q, a) :: l, s)

/-- The state of a stop with the detector's records as they were. -/
def Stop.withRecs (l : List AccRec) : Stop → Stop
  | .trap t s => .trap t { s with recs := l }
  | .wait w s => .wait w { s with recs := l }

/-- Run checks that hold lines of the detector, and let those lines go (R223, R325). -/
def State.holding {α : Type} (s : State) : Except Stop (α × State) → Except Stop (α × State)
  | .ok (x, t) => .ok (x, { t with recs := s.recs })
  | .error e => .error (e.withRecs s.recs)

def State.checkAll (s : State) (c : CtxId) (l : List Req) : Except Stop (List (Req × Nat) × State) := s.holding (s.checkEach c l)

/-- A trap of a part of an access names the address of the whole (R223, R242, R333). -/
def Stop.valAt (ea : Word) : Stop → Stop
  | .trap t s => .trap { t with val := ea } s
  | .wait w s => .wait w s

/-- The checks of the parts of one access. -/
def State.checkParts (s : State) (c : CtxId) (q : Req) : Except Stop (List (Req × Nat) × State) :=
  match s.checkEach c q.split with
  | .ok x => .ok x
  | .error e => .error (e.valAt q.ea)

/-- All checks of one access that may cross pages: that the whole stays in its offset field first (R78), then those of its parts. -/
def State.checkWhole (s : State) (c : CtxId) (q : Req) : Except Stop (List (Req × Nat) × State) := do
  let _ ← s.lift (s.formEa q)
  s.holding (s.checkParts c q)

/-- Perform a checked read of n bytes (R305, R314). -/
def State.readAt (s : State) (c : CtxId) (ea : Word) (a n : Nat) (plain : Bool) (o : Ord) : Nat × State :=
  let s := s.touch c a n
  (s.load a n, s.access c ea a (a + n) .read plain o)

/-- Perform checked reads in order: the bytes of all of them. -/
def State.readSegs (s : State) (c : CtxId) (o : Ord) : List (Req × Nat) → List Byte × State
  | [] => ([], s)
  | (q, a) :: r =>
    let b := s.bytes a q.n
    let (_, s) := s.readAt c q.ea a q.n q.plain o
    let (l, s) := s.readSegs c o r
    (b ++ l, s)

/-- The open interval of a context of a pair. -/
def Core.finger (k : Core) (n : Nat) : Finger :=
  k.fingers.get n { fp := 0, len := 0, bad := 0, base := none, fp0 := 0, len0 := 0, log := [] }

/-- In a tandem pair a write is noted for the fingerprint of its instruction (R425). -/
def State.noteData (s : State) (c : CtxId) (ea : Word) (l : List Byte) : State :=
  if (s.core c.core).tandem.isNone then s else s.modCtx c (fun k => { k with wlog := k.wlog ++ [(ea, l)] })

/-- In a tandem pair a store is noted for the fingerprint and for the replay of its interval (R425, R426). -/
def State.noteWrite (s : State) (c : CtxId) (ea : Word) (a : Nat) (l : List Byte) : State :=
  match (s.core c.core).tandem with
  | none => s
  | some _ =>
    let old := s.bytes a l.length
    (s.noteData c ea l).modCore c.core (fun k =>
      let f := k.finger c.ctx
      { k with fingers := k.fingers.set c.ctx { f with log := f.log ++ [⟨a, old⟩] } })

/-- Perform a checked write: the undo log of the activation first (R421), then the bytes. -/
def State.writeAt (s : State) (c : CtxId) (ea : Word) (a : Nat) (l : List Byte) (plain : Bool) (o : Ord) : State :=
  let s := s.undoLog c a l.length true
  let s := s.access c ea a (a + l.length) .write plain o
  (s.noteWrite c ea a l).poke a l

/-- Perform checked writes of consecutive parts of a byte string. -/
def State.writeSegs (s : State) (c : CtxId) (o : Ord) : List (Req × Nat) → List Byte → State
  | [], _ => s
  | (q, a) :: r, l => (s.writeAt c q.ea a (l.take q.n) q.plain o).writeSegs c o r (l.drop q.n)

/-- Perform a checked read-modify-write of n bytes: the old value. -/
def State.updateAt (s : State) (c : CtxId) (ea : Word) (a n : Nat) (o : Ord) (f : Nat → Nat) : Nat × State :=
  let s := s.undoLog c a n false
  let s := s.access c ea a (a + n) .rmw false o
  let old := s.load a n
  let new := natLe n (f old)
  (old, (s.noteWrite c ea a new).poke a new)

/-- A gateway line of the port of the issuing die that may serve an access now (R177, R390): unexpired, or granted to this context. -/
def State.gwLine (s : State) (c : CtxId) (p : Word) : Option GwLine :=
  (s.die (dieOf c.core.vt)).gw.find? (fun l => l.home == s.gwHome p && l.va == pVa p / 64 * 64 &&
    (match l.grant with | some k => k == c.key | none => decide (s.paceAt c.core.vt < l.expiry)))

/-- Lines of a gateway cache that were granted for one access of a context are given up, when its instruction ends otherwise (R390). -/
def State.dropGrants (s : State) (c : CtxId) : State :=
  let die := dieOf c.core.vt
  if (s.die die).gw.any (fun l => l.grant == some c.key) then
    s.modDie die (fun d => { d with gw := d.gw.filter (fun l => l.grant != some c.key) })
  else s

/-- The number a context waits for while a gateway line is fetched. -/
def gwKey (p : Word) : Nat := pDie p * 2 ^ 46 + pVa p / 64 * 64

/-! Loads (R172–R177). -/

/-- Fields of a space 4 pointer (Table 26, R57). -/
def pNeuron (p : Word) : Nat := p.toNat % 2 ^ 20
def pField (p : Word) : Nat := p.toNat / 2 ^ 20 % 8

/-- The field code or the neuron index of a space 4 pointer does not exist (R56). -/
def State.neuronFault (s : State) (p : Word) : Bool :=
  decide (4 ≤ pField p) || (match (s.tile (pTile p)).bank with | some b => decide (b.count ≤ pNeuron p) | none => true)

/-- The flat address of a neuron's record (R254). -/
def State.neuronAddr (s : State) (vt : Nat) (b : Bank) (n : Nat) : Nat := flatPool vt ((s.tile vt).plb0 * 65536 + b.base + 16 * n)

/-- Where the four bytes lie that a space 4 pointer names: state, last fire, refractory end or last update (R57). -/
def State.neuronPlace (s : State) (p : Word) : Nat :=
  match (s.tile (pTile p)).bank with
  | some b => s.neuronAddr (pTile p) b (pNeuron p) + 4 * pField p
  | none => 0

def State.neuronBytes (s : State) (p : Word) : List Byte := if (s.tile (pTile p)).bank.isNone then [] else s.bytes (s.neuronPlace p) 4

/-- A memory error stands in the bytes a space 4 pointer names (R170, R419). -/
def State.neuronPoisoned (s : State) (p : Word) : Bool := s.poisoned (s.neuronPlace p) 4

/-- Pointers to the 64-byte lines that hold n bytes from a space 5 pointer. -/
def gwLinesOf (p : Word) (n : Nat) : List Word :=
  (List.range ((pVa p % 64 + n + 63) / 64)).map (fun i => setField p 0 46 (pVa p / 64 * 64 + 64 * i))

/-- Work of a tile that rests on gateway leases fails: the tile, or the region of the port that the route to a home leaves by, is uncertain
(R392). -/
def State.gwSkew (s : State) (vt home : Nat) : Bool := (s.tile vt).uncertain || s.portUncertain (dieOf vt) (s.gwPort (dieOf vt) home)

/-- Bytes read through the gateway cache of the issuing die (R177): the lines, or the wait for one that is not held. Lines granted for
this one access are given up. -/
def State.gwRead (s : State) (c : CtxId) (ea p : Word) (n : Nat) : Except Stop (List Byte × State) :=
  let ps := gwLinesOf p n
  match ps.find? (fun q => (s.gwLine c q).isNone) with
  | some q => .error (.wait (.gateway (gwKey q) ea false) s)
  | none =>
    let ls := ps.filterMap (fun q => s.gwLine c q)
    if ls.any (fun l => !(WKind.rights ⟨.read, true⟩ l.entry)) then .error (.trap (Cause.at_ .pagePerm ea) s)
    else
      let s' := s.modDie (dieOf c.core.vt) (fun d => { d with gw := d.gw.filter (fun x => !(ls.contains x) || x.grant.isNone) })
      .ok (((ls.flatMap (fun l => l.bytes)).drop (pVa p % 64)).take n, s')

/-- A load of n bytes (R172–R177): space 4, the gateway for space 5 of another die, else the core path. -/
def State.loadBytes (s : State) (c : CtxId) (q : Req) : Except Stop (List Byte × State) := do
  let ea ← s.lift (s.formEa q)
  let p ← s.lift (s.absolute c.core q.spaces ea)
  let away := s.home c.core p != dieOf c.core.vt
  if pSpc p = 4 then
    trapIf away { cause := .space, val := ea, detail := 1, other := 0, obyte := 0 } s
    trapIf (s.slotGone (pTile p)) { cause := .space, val := ea, detail := 2, other := 0, obyte := 0 } s
    trapIf (s.neuronFault p) (Cause.at_ .space ea) s
    trapIf (s.neuronPoisoned p) (Cause.at_ .uncorrectable ea) s
    if s.acquiring c then .error (.wait .earlier s) else pure (s.neuronBytes p, s)
  else if pSpc p = 5 ∧ away = true then
    trapIf (misaligned p q.align) (Cause.at_ .misalign ea) s
    trapIf (pPair p && (s.stack (pDie p) (pStack p)).flight) (Cause.at_ .stackNotOwned ea) s
    trapIf (s.gwSkew c.core.vt (s.home c.core p)) (Cause.at_ .leaseSkew ea) s
    trapIf (!s.feat0 7) (Cause.at_ .pagePerm ea) s
    if s.acquiring c then .error (.wait .earlier s) else s.gwRead c ea p q.n
  else
    let (l, s) ← s.checkWhole c q
    pure (s.readSegs c Ord.plain l)

/-- Spaces of Table 58. -/
def spLoad : List Nat := [0, 1, 2, 3, 4, 5]
def spStore : List Nat := [0, 1, 2, 3, 5]
def spTag : List Nat := [0, 1, 2, 3]

end Sys2Proof.Machine
end

