-- ==== Sys2Proof/Machine/Gate.lean ====
section
/-! DEFINITION. The checks made when a head is about to issue, in the order of R86: illegal uses, features that are not accepted
(R87), reserved fields (R77–R81, Table 35) and rights. -/

namespace Sys2Proof.Machine

open Sys2Proof

/-- Access codes of Table 13 (R36). -/
inductive RegAcc where
  | ro | rw | cw | sw | so | c0
deriving DecidableEq, Repr

/-- The access code of a system register number; none where the number is unassigned (R35, Table 13). -/
def regAcc (n : Nat) : Option RegAcc :=
  match n with
  | 0x01 | 0x02 | 0x03 | 0x04 | 0x05 | 0x06 | 0x07 => some .ro
  | 0x08 | 0x09 | 0x0a | 0x0b | 0x0c | 0x0d | 0x0e => some .sw
  | 0x0f => some .so
  | 0x10 => some .cw
  | 0x11 | 0x12 | 0x13 | 0x14 | 0x15 => some .rw
  | 0x16 => some .ro
  | 0x17 | 0x18 => some .cw
  | 0x19 => some .sw
  | 0x1a => some .c0
  | 0x1b | 0x1c => some .ro
  | 0x1d => some .sw
  | _ => none

def RegAcc.mayRead (a : RegAcc) (sup : Bool) : Bool := a != .so || sup

def RegAcc.mayWrite (a : RegAcc) (ctx : Nat) (sup : Bool) : Bool :=
  match a with
  | .ro => false
  | .rw => true
  | .cw => ctx == 0 || sup
  | .sw => sup
  | .so => sup
  | .c0 => ctx == 0

/-- The context may issue vector, matrix and latch instructions: a helper of a launch that declares vector state (R20, R60). -/
def State.vecOk (s : State) (c : CtxId) : Bool :=
  c.ctx != 0 && (match (s.core c.core).launch with | some l => l.vec | none => false)

/-- Step 1 of R86 for a decoded instruction. -/
def State.illegalUse (s : State) (c : CtxId) (i : Inst) : Bool :=
  let m := i.row.major
  (decide (0x50 ≤ m ∧ m ≤ 0x71) && !s.vecOk c) ||
  (decide (m = 0x7b) && (regAcc (i.o.imm.toNat % 256)).isNone) ||
  (i.row == .gthLatch && !s.vecOk c)

/-- Whether SC of the row is a rounding override. -/
def rowRounds (r : Instr) : Bool :=
  match r.info with
  | .C _ _ _ _ _ _ _ .rnd _ _ => true
  | .C _ _ _ _ _ _ _ .rndF _ _ => true
  | .C _ _ _ _ _ _ _ .rndX _ _ => true
  | _ => false

/-- Whether SZ and MOD of the row form an element type. -/
def rowHasEt (r : Instr) : Bool :=
  match r.info with
  | .C _ _ _ _ _ _ .et _ _ _ => true
  | _ => false

/-- Step 2 of R86: the encoding needs a feature that is not accepted (R87). -/
def State.featureOff (s : State) (i : Inst) : Bool :=
  let m := i.row.major
  (m == 0x78 && !s.feat0 0) || ((m == 0x70 || m == 0x71) && !s.feat0 1) || (m == 0x7c && !s.feat0 2) ||
  (i.row == .collDigest && !s.feat0 3) || (rowRounds i.row && i.o.sc == 5 && !s.feat0 4) ||
  ((m == 0x65 || m == 0x66 || (rowHasEt i.row && i.o.et == 15)) && !s.feat0 5) || (m == 0x7e && !s.feat0 7)

/-- Step 3 of R86. -/
def reservedField (i : Inst) : Bool := !i.fieldsOk

/-- Step 4 of R86: rights the instruction needs (R36, R151, R159, R193, Table 97). -/
def State.noRight (s : State) (c : CtxId) (i : Inst) : Bool :=
  let sup := (s.ctx c).sup
  let acc := regAcc (i.o.imm.toNat % 256)
  match i.row with
  | .spawn | .tandemOn | .tandemOff => c.ctx != 0
  | .launch | .launchSteal | .ownGive => c.ctx != 0 && !sup
  | .eret | .flushInv => !sup
  | .sysCsrr => match acc with | some a => !a.mayRead sup | none => false
  | .sysCsrw => match acc with | some a => !a.mayWrite c.ctx sup | none => false
  | .sysCsrx => match acc with | some a => !(a.mayRead sup && a.mayWrite c.ctx sup) | none => false
  | _ => false

/-- The first failure of steps 1 to 4 of R86. -/
def State.gate (s : State) (c : CtxId) (i : Inst) : Option Cause :=
  if s.illegalUse c i then some .illegal
  else if s.featureOff i then some .featureOff
  else if reservedField i then some .reservedField
  else if s.noRight c i then some .privilege
  else none

/-! The sync halfword (Tables 34, 35). -/

def syncMode (h : Half) : Nat := (h.extractLsb' 14 2).toNat
def syncCtr (h : Half) : Nat := (h.extractLsb' 6 8).toNat
def syncVal (h : Half) : Nat := (h.extractLsb' 0 6).toNat

/-- Counter and threshold the instruction waits for. -/
def syncWait (o : Fields) : Option (Nat × Nat) :=
  match o.sync with
  | none => none
  | some h => if syncMode h = 1 then none else some (syncCtr h, syncVal h)

/-- Counter and increment signalled at completion. -/
def syncSignal (o : Fields) : Option (Nat × Nat) :=
  match o.sync with
  | none => none
  | some h =>
    match syncMode h with
    | 0 => none
    | 1 => some (syncCtr h, syncVal h + 1)
    | 2 => some (syncCtr h, 1)
    | _ => some (syncCtr h + 1, 1)

/-- The predicate governs the instruction off (R82): bit 0 of p[PG], for every instruction but the vector instructions. -/
def State.predicatedOff (s : State) (c : CtxId) (i : Inst) : Bool :=
  !(decide (0x50 ≤ i.row.major ∧ i.row.major ≤ 0x67)) && !predBit (s.rp c (i.o.pg.setWidth 5)) 0

end Sys2Proof.Machine
end

