-- ==== Sys2Proof/Machine/Ops.lean ====
section
/-! DEFINITION. Shared operations: taking a trap or an upcall and returning from it (R158, R159, R360–R363), signals of rein
counters, completing an instruction, fetching a line (R70–R75), and issuing an instruction (R84–R86, R234). -/

namespace Sys2Proof.Machine

open Sys2Proof

/-! Taking an exception. -/

/-- CAUSE of TRAPCAUSE, 0 when no frame is held (Table 18). -/
def Ctx.causeCode (k : Ctx) : Nat := (k.cause.extractLsb' 0 8).toNat
def Ctx.upcallBit (k : Ctx) : Bool := k.cause.getLsbD 9

/-- TRAPCAUSE of a frame (Table 18). -/
def causeWord (t : Tr) (upcall imprecise : Bool) : Word :=
  BitVec.ofNat 64 (t.detail % 256 * 2 ^ 16 + (if upcall then 2 ^ 9 else 0) + (if imprecise then 2 ^ 8 else 0) + t.cause.code)

/-- TRAPTAG of a frame (Table 19). -/
def tagWord (t : Tr) (tag : Nat) : Word :=
  BitVec.ofNat 64 (t.obyte % 64 * 2 ^ 53 + t.other % 2 ^ 21 * 2 ^ 32 + tag % 2 ^ 32)

def Core.launchId (k : Core) : Nat := match k.launch with | some l => l.id | none => 0

/-- A double trap (R361): the context halts, the first frame stays, the die's fault queue records the new cause and PC. -/
def State.doubleTrap (s : State) (c : CtxId) (pc : Word) (t : Tr) : State :=
  let k := s.ctx c
  let s := s.setCtx c { k with st := .halted t.cause.code }
  (s.record (dieOf c.core.vt) { addr := pc, tag := k.count % 2 ^ 32, ident := identC c, cause := t.cause.code, kind := 4,
                                launch := (s.core c.core).launchId }).2

/-- The store of doubleword i of an upcall's frame below s2 (R362). -/
def State.frameReq (s : State) (c : CtxId) (i : Nat) : Req :=
  { base := s.rs c 2, ofs := (i : Int) * 8 - 32, n := 8, align := 8, k := .write, spaces := spStore, plain := true, held := true }

/-- A trap that has to store the frame of a running upcall waits while its bytes are held back, as the context's own stores do (R183, R362). -/
def State.pushHeld (s : State) (c : CtxId) : Option Wait :=
  if !(s.ctx c).upcallBit || (s.ctx c).sup then none
  else [0, 1, 2, 3].findSome? (fun i => match s.coreAddr c (s.frameReq c i) with | .error (.wait w _) => some w | _ => none)

/-- Store four doublewords from s2 − 32 up, as the context's own stores (R362); none when one fails. -/
def State.pushFrame (s : State) (c : CtxId) : List (Nat × Word) → Option State
  | [] => some s
  | (i, w) :: r =>
    let q := s.frameReq c i
    match s.coreAddr c q with
    | .ok (a, s') => (s'.writeAt c q.ea a (natLe 8 w.toNat) true Ord.plain).pushFrame c r
    | .error _ => none

/-- Write a trap frame and continue at TRAPVEC in supervisor mode (R360). -/
def State.enterTrap (s : State) (c : CtxId) (pc : Word) (imprecise : Bool) (tag : Nat) (t : Tr) : State :=
  let vec := (s.core c.core).trapVec
  let p := s.preempting c.core
  s.modCtx c (fun k => { k with framed := p, cause := causeWord t false imprecise, trapPc := pc, trapVal := t.val, trapTag := tagWord t tag, sup := true,
                                pc := vec, entry := .vector, line := [], body := [], st := .ready })

/-- Write an upcall frame and continue at UPCALLVEC in the mode the context has (R362). -/
def State.enterUpcall (s : State) (c : CtxId) (pc : Word) (tag : Nat) (t : Tr) : State :=
  let vec := (s.core c.core).upcallVec
  let p := s.preempting c.core
  s.modCtx c (fun k => { k with framed := p, cause := causeWord t true false, trapPc := pc, trapVal := t.val, trapTag := tagWord t tag, pc := vec,
                                entry := .vector, line := [], body := [], st := .ready })

/-- Take a trap at `pc`: the one operation that delivers every cause (R360–R363). An upcall when PAGE_ABSENT arises precisely in user
mode with UPCALLVEC nonzero and UPCALL 0; a double trap in supervisor mode with a frame held; otherwise through TRAPVEC, the
frame of a running upcall first stored below s2. `upcalls` is false where R234 denies the upcall. -/
def State.takeTrapTag (s : State) (c : CtxId) (pc : Word) (imprecise upcalls : Bool) (tag : Nat) (t : Tr) : State :=
  let s := ({ s with feq := s.feq.filter (fun r => r.ctx != c) } : State).dropGrants c
  let s := if t.cause = .uncorrectable then s.bump (dieOf c.core.vt) 0x50 else s
  let k := s.ctx c
  if t.cause = .pageAbsent ∧ imprecise = false ∧ upcalls = true ∧ k.sup = false ∧ (s.core c.core).upcallVec ≠ 0 ∧ k.upcallBit = false then
    s.enterUpcall c pc tag t
  else if k.sup = true ∧ k.causeCode ≠ 0 then s.doubleTrap c pc t
  else if k.upcallBit = true then
    match s.pushFrame c [(0, k.cause), (1, k.trapPc), (2, k.trapVal), (3, k.trapTag)] with
    | some s' => (s'.ws c 2 (setField (s.rs c 2) 0 64 ((s.rs c 2).toNat - 32))).enterTrap c pc imprecise tag t
    | none => s.doubleTrap c pc t
  else s.enterTrap c pc imprecise tag t

/-- A trap that carries the tag of the context's next instruction (R26). -/
def State.takeTrap (s : State) (c : CtxId) (pc : Word) (imprecise : Bool) (t : Tr) : State :=
  s.takeTrapTag c pc imprecise true (s.ctx c).count t

/-- A core set aside as a pager core: one of four of a tile, outside the mesh (R366). DESIGN CHOICE (log 36): those of tile t are positions 0 to 3
of entry 1024 + t. -/
def isPagerCore (c : CoreId) : Bool := decide (1024 ≤ c.vt ∧ c.pos < 4)

/-- Return from a trap: the frame is given up and the mode becomes user, on a pager core it stays supervisor; control goes on at TRAPPC (R159). -/
def State.returnTrap (s : State) (c : CtxId) : State := s.modCtx c (fun k => { k with cause := 0, sup := isPagerCore c.core })

/-- Resume from an upcall: the frame is given up in the mode the context has (R158). -/
def State.returnUpcall (s : State) (c : CtxId) : State := s.modCtx c (fun k => { k with cause := 0 })

/-! Rein counters and wakes. -/

/-- Add to a rein counter of a core (R27); an increment wakes the sleepers of the core (R156). -/
def State.signal (s : State) (core : CoreId) (n inc : Nat) (err : Bool) : State :=
  let s := s.modCore core (fun k => { k with rein := k.rein.set n ((k.reinAt n).add inc err) })
  if inc = 0 then s else s.wakeCore core

/-- A local signal of a completing instruction (R84): it never carries the error bit, and it is a commit event. -/
def State.signalLocal (s : State) (c : CtxId) : Option (Nat × Nat) → State
  | none => s
  | some (n, inc) => ((s.commit c).reinSignal c n).signal c.core n inc false

/-! Completing an instruction. -/

/-- The base of the line that holds an address. -/
def lineBase (pc : Word) : Word := pc &&& ~~~(63 : Word)

/-- The head index of an address in its line (R71). -/
def headIndex (pc : Word) : Nat := ((pc.extractLsb' 0 6).toNat - 2) / 2

/-- The offset of a PC within its space; its width w (Table 52). -/
def pcAdd (pc : Word) (d : Int) : Option Word := offAdd pc d

/-- The address of the line after a line base, where its head 0 is entered by fall-through. A line base at the top of the offset field has no
next line: the spec states none, and the model goes on at offset 2 of the same space (log 39). -/
def nextLine (base : Word) : Word := (pcAdd base 66).getD (setField base 0 (offWidth (pSpc base)) 2)

/-- The address after the head at `pc` and how control reaches it (R71). -/
def nextHead (line : List Byte) (pc : Word) : Word × Entry :=
  if headIndex pc + 1 < headCount line then (pc + 2, .inLine) else (nextLine (lineBase pc), .fall)

/-- How an instruction leaves its context: on to the next head, to a target, ended, or complete later (posted accesses, whose signal
comes with the acknowledgement). -/
inductive Ctl where
  | next
  | jump (target : Word)
  | ended
  | async
deriving DecidableEq, Repr

/-- Advance the PC of a context. -/
def Ctx.advance (k : Ctx) (ctl : Ctl) : Ctx :=
  match ctl with
  | .next => let (pc, e) := nextHead k.line k.pc; { k with pc := pc, entry := e }
  | .async => let (pc, e) := nextHead k.line k.pc; { k with pc := pc, entry := e }
  | .jump t => { k with pc := t, entry := .from_ k.pc, line := [] }
  | .ended => k

/-! Fingerprints of a tandem pair (R425, R426). -/

/-- CRC-64 of ECMA-182, one byte. -/
def crcByte (crc : BitVec 64) (x : Byte) : BitVec 64 :=
  (List.range 8).foldl (fun r _ => if r.getLsbD 63 then (r <<< 1) ^^^ 0x42f0e1eba9ea3693 else r <<< 1) (crc ^^^ (x.setWidth 64 <<< 56))

def crcBytes (crc : BitVec 64) (l : List Byte) : BitVec 64 := l.foldl crcByte crc

/-- Register number and bytes of a register of a class. -/
def State.regImage (s : State) (c : CtxId) (cl : Cls) (r : BitVec 5) : List Byte :=
  let n := r.toNat
  let code := BitVec.ofNat 8 n
  match cl with
  | .s => if n = 0 then [] else code :: natLe 8 (s.rs c r).toNat
  | .p => if n = 0 then [] else code :: natLe 2 (s.rp c r).toNat
  | .v => code :: natLe 64 (s.rv c n).toNat
  | .a => code :: (s.ra c n).toList.flatMap (fun x => natLe 4 x.toNat)
  | .g => code :: (s.rg c n).toList.flatMap (fun x => natLe 128 x.toNat)
  | _ => []

/-- The class of the D field. -/
def infoD : Info → Cls
  | .A _ _ d _ _ => d
  | .B _ _ d _ => d
  | .C _ _ d _ _ _ _ _ _ _ => d
  | .event => .z

/-- The record of a retired instruction (R425). -/
def State.fingerRecord (s : State) (c : CtxId) (pc : Word) (row : Instr) (o : Fields) (off : Bool) (sig : Option (Nat × Nat)) : List Byte :=
  let head := natLe 8 pc.toNat
  if off then head
  else
    head ++ (if writesD row then (List.range (s.groupSize c row o)).flatMap (fun i => s.regImage c (infoD row.info) (o.d + BitVec.ofNat 5 i)) else []) ++
      (if s.writesS1 c row o then s.regImage c .s o.s1 else []) ++
      (s.ctx c).wlog.flatMap (fun (a, l) => natLe 8 a.toNat ++ l) ++
      (match sig with | some (n, inc) => natLe 2 n ++ natLe 2 inc | none => [])

/-- The core is the primary of a coupled pair. -/
def State.coupled (s : State) (c : CoreId) : Bool := match (s.core c).tandem with | some t => t.primary | none => false

/-- The stores of ST, VST, VSCT, macc.st and macc.cvt: byte offsets from s[S1] and bytes of every part that is written. -/
def State.storeParts (s : State) (c : CtxId) (row : Instr) (o : Fields) : List (Int × Nat) :=
  let w := elemWidth o.et
  let p := s.rp c (o.pg.setWidth 5)
  let act := (List.range (elemCount o.et)).filter (fun i => p.getLsbD (w * i / 32))
  let lane := fun (n i : Nat) => signedOf 32 ((s.rv c n).toNat / 2 ^ (32 * i))
  let b := s.rs c o.s1
  match row with
  | .st8 => [(o.immS.toInt, 1)]
  | .st16 => [(o.immS.toInt, 2)]
  | .st32 => [(o.immS.toInt, 4)]
  | .st64 => [(o.immS.toInt, 8)]
  | .stFmt => [(o.immS.toInt, unitSize (pFmt b) (pBlk b))]
  | .maccSt | .maccCvt => [(o.imm16.toInt, 256 * w / 8)]
  | .vst =>
    if 16 ≤ o.et then (if p.getLsbD 0 then [(o.imm16.toInt, (s.rs c o.s3).toNat * frameBytes o.et (pBlk b))] else [])
    else if w = 6 then act.map (fun i => (o.imm16.toInt + (i / 4 * 3 : Nat), 3))
    else act.map (fun i => (o.imm16.toInt + (i * w / 8 : Nat), (w + 7) / 8))
  | .vstStr => act.map (fun (i : Nat) => (o.imm16.toInt + (i : Int) * (s.rs c o.s2).toInt, w / 8))
  | .vsct => act.map (fun i => (o.imm16.toInt + lane o.s2.toNat (if w = 64 then 2 * i else i) * (w / 8 : Nat), w / 8))
  | _ => []

/-- A byte range lies within the undo window of the context, in space 0 or through space 2 (R200, R422). -/
def State.inWindow (s : State) (c : CtxId) (ofs : Int) (n : Nat) (base : Word) : Bool :=
  match (offAdd base ofs).bind (resolveRel c.core) with
  | some ea =>
    (pSpc ea == 0 || (pSpc ea == 2 && pTile ea == c.core.vt && pPos ea == c.core.pos)) && decide ((s.window c).1 ≤ pOff ea) &&
      decide (pOff ea + n ≤ (s.window c).2)
  | none => false

/-- Every byte the instruction stores lies within the undo window of an activation within its limits (R200, R422). -/
def State.windowStore (s : State) (c : CtxId) (row : Instr) (o : Fields) : Bool :=
  (s.ctx c).isWithin && (s.storeParts c row o).all (fun x => s.inWindow c x.1 x.2 (s.rs c o.s1))

/-- The instruction ends the fingerprint interval before it is performed (R128, R200, R236, R253, R268, R303). -/
def State.endsInterval (s : State) (c : CtxId) (row : Instr) (o : Fields) : Bool :=
  let m := row.major
  if [0x25, 0x26, 0x1f, 0x28].contains m then true
  else if m = 0x39 ∨ m = 0x5d ∨ m = 0x5f ∨ row = .maccSt ∨ row = .maccCvt then !(s.windowStore c row o)
  else if 0x38 ≤ m ∧ m ≤ 0x4b then !([0x38, 0x3a, 0x46, 0x4a].contains m)
  else decide (0x74 ≤ m ∧ m ≤ 0x7e) && row != .classTest && row != .sysCsrr

/-- Account for a retired instruction of a coupled pair; one that ended an interval belongs to the agreed point (R426). -/
def State.fingerAdd (s : State) (c : CtxId) (pc : Word) (row : Instr) (o : Fields) (off ends : Bool) (sig : Option (Nat × Nat)) : State :=
  if !s.coupled c.core then s
  else
    let rec_ := s.fingerRecord c pc row o off sig
    let s := s.modCtx c (fun k => { k with wlog := [] })
    let x := s.ctx c
    s.modCore c.core (fun k =>
      let f := k.finger c.ctx
      let f := { f with fp := crcBytes f.fp rec_, len := f.len + 1 }
      let f := if ends && !off then { f with base := some x, fp0 := f.fp, len0 := f.len, log := [] } else f
      { k with fingers := k.fingers.set c.ctx f })

/-- The consumed signal of MMA, MMAS and MGAIT (R243, R245). -/
def consumedOf (row : Instr) (o : Fields) : Option (Nat × Nat) :=
  match row with
  | .mma | .mmas | .mgait => if o.imm.getLsbD 2 then some ((o.imm.extractLsb' 8 8).toNat, 1) else none
  | _ => none

/-- A JOIN whose decrement context 0 has made stays made while the context only runs a handler and returns from it (R150). -/
def Ctx.keepsJoin (k : Ctx) (row : Instr) : Bool := k.joined && row != .join && (k.sup || k.causeCode != 0 || row == .eret || row == .upret)

/-- The context completes an instruction: PC, count of issued instructions, fingerprint, signal. A posted access signals with its
acknowledgement (R168); `off`: its governing predicate switched it off as it issued (R82). -/
def State.complete (s : State) (c : CtxId) (row : Instr) (o : Fields) (off : Bool) (ctl : Ctl) (sig : Option (Nat × Nat)) : State :=
  let pc := (s.ctx c).pc
  let ends := s.endsInterval c row o
  let s := s.endAccess c row o off
  let s := if ctl = .ended then s else
    s.modCtx c (fun k => { k.advance ctl with count := k.count + 1, st := .ready, joined := k.keepsJoin row, gdone := 0,
                                              gang := k.gang.map (fun g => { g with keep := none }) })
  let s := if ctl = .ended then s else s.fingerAdd c pc row o off ends sig
  let s := if s.coupled c.core && decide (16384 < (s.ctx c).count) then s.commit c else s
  if ctl = .async then s else (s.signalLocal c (consumedOf row o)).signalLocal c sig

/-- A waiting instruction is completed by the step that answers it: an instruction alone completes; a gang member's part is done, and
its leader looks again (R199). -/
def State.finishWaiting (s : State) (c : CtxId) : State :=
  let k := s.ctx c
  match k.gang with
  | some g =>
    let lead := g.members.headD c
    (s.modCtx c (fun k => { k with gdone := 1, st := .ready })).modCtx lead (fun k => { k with st := .ready })
  | none =>
    match decodeHead k.line (headIndex k.pc) with
    | .ok i => s.complete c i.row i.o false .next (syncSignal i.o)
    | .error _ => s

/-- A waiting instruction is completed with a value in s[D]. -/
def State.answerD (s : State) (c : CtxId) (x : Word) : State :=
  match decodeHead (s.ctx c).line (headIndex (s.ctx c).pc) with
  | .ok i => (s.ws c i.o.d x).finishWaiting c
  | .error _ => s

/-- Let a waiting context look again at its instruction, and the gang it belongs to. -/
def State.rouse (s : State) (c : CtxId) : State :=
  let s := s.modCtx c (fun k => { k with st := .ready })
  match (s.ctx c).gang with
  | some g => s.modCtx (g.members.headD c) (fun k => { k with st := .ready })
  | none => s

/-! Gangs. -/

/-- Members that execute the stream of a context: itself, or its gang, leader first (R231). -/
def State.members (s : State) (c : CtxId) : List CtxId :=
  match (s.ctx c).gang with
  | some g => g.members
  | none => [c]

/-- A helper's slot becomes free; `keep`: it keeps its flags (R46). -/
def State.freeHelper (s : State) (c : CtxId) (keep : Bool) : State :=
  let k := s.ctx c
  let s := s.setCtx c { k.cleared c with kept := if keep then k.ff else 0 }
  let s := ({ s with feq := s.feq.filter (fun r => r.ctx != c) } : State).dropGrants c
  s.wakeCore c.core

/-- E of a counter after a record that named it is gone: cleared unless another context's valid record names it (R190). -/
def State.clearE (s : State) (c : CtxId) (n : Nat) : State :=
  if allCtx.any (fun i => i != c.ctx && (match (s.ctx ⟨c.core, i⟩).err with | some e => e.ctr == some n | none => false)) then s
  else s.modCore c.core (fun k => { k with rein := k.rein.set n { k.reinAt n with e := false } })

/-- Use up the remote error record of a context that is reported (R190, R234). -/
def State.dropErr (s : State) (c : CtxId) : State :=
  match (s.ctx c).err with
  | none => s
  | some e =>
    let s := s.modCtx c (fun k => { k with err := none })
    match e.ctr with
    | some n => s.clearE c n
    | none => s

/-- Free the followers of a gang, whose error records go with their state and leave E as it is (R27); the leader goes on alone (R233, R234), with
the scalar registers it had when a part of its instruction was done. -/
def State.freeFollowers (s : State) (lead : CtxId) : List CtxId → State
  | [] => s.modCtx lead (fun k => { k with gang := none, gdone := 0, s := (k.gang.bind (fun g => g.keep)).getD k.s })
  | m :: r => (if m = lead then s else s.freeHelper m false).freeFollowers lead r

/-! Running an instruction. -/

/-- What a meaning sees: its context, the instruction, and the state before the instruction, in which a gang's other members still
hold their sources (R232). -/
structure Env where
  me : CtxId
  row : Instr
  o : Fields
  s0 : State
deriving DecidableEq, Repr

/-- The effect of an instruction in one context. -/
abbrev Body := Env → State → Except Stop (Ctl × State)

/-- Why a stream instruction does not complete: a trap of a member (its number), or a wait of the whole. -/
inductive GStop where
  | trap (m : Nat) (who : CtxId) (t : Tr) (s : State)
  | wait (w : Wait) (s : State)

/-- What the sync wait of an instruction takes when it is satisfied now: what the signals of its counter carried (R307 rule 2). -/
def State.waited (s : State) (c : CtxId) (o : Fields) : HbInfo :=
  match syncWait o with
  | some (n, _) => if s.confOn c then (s.core c.core).reinHb.get n [] else []
  | none => []

/-- One context's part of an instruction whose sync wait took what is given; a governed-off instruction changes nothing (R82). -/
def memberRun (body : Body) (row : Instr) (o : Fields) (took : HbInfo) (s0 : State) (c : CtxId) (s : State) : Except Stop (Ctl × State) :=
  if s0.predicatedOff c ⟨row, o⟩ then .ok (.next, s) else body ⟨c, row, o, s0⟩ (s.beginAccess c row o took)

/-- One context's part of an instruction that is performed as it issues. -/
def memberStep (body : Body) (row : Instr) (o : Fields) (s0 : State) (c : CtxId) (s : State) : Except Stop (Ctl × State) :=
  memberRun body row o (s.waited c o) s0 c s

/-- The lowest-numbered member whose part traps, every member seen in the state before the instruction (R234). -/
def firstTrap (body : Body) (row : Instr) (o : Fields) (s : State) : Nat → List CtxId → Option (Nat × CtxId × Tr × State)
  | _, [] => none
  | m, c :: r =>
    match memberStep body row o s c s with
    | .error (.trap t s') => some (m, c, t, s')
    | _ => firstTrap body row o s (m + 1) r

/-- A wait that an answer ends: the member's request is on its way, and its part has begun (R186, R196, R264, R276). -/
def Wait.begun (row : Instr) : Wait → Bool
  | .value _ => true
  | .answer _ => true
  | .bar => row != .barArrive
  | _ => false

/-- A part of a gang's instruction: done, or on its way. -/
inductive Part where
  | did (ctl : Ctl)
  | sent (w : Wait)
deriving DecidableEq, Repr

/-- The parts of the members one after another; `trap`: the state is the one before the part that traps, with what the lower members did. -/
def gangRun (body : Body) (row : Instr) (o : Fields) (s0 : State) : Nat → List CtxId → State → Except GStop (List (CtxId × Part) × State)
  | _, [], s => .ok ([], s)
  | m, c :: r, s =>
    match memberStep body row o s0 c s with
    | .error (.trap t _) => .error (.trap m c t s)
    | .error (.wait w s') =>
      if w.begun row then
        match gangRun body row o s0 (m + 1) r s' with
        | .ok (l, s') => .ok ((c, .sent w) :: l, s')
        | .error e => .error e
      else .error (.wait w s)
    | .ok (ctl, s') =>
      match gangRun body row o s0 (m + 1) r s' with
      | .ok (l, s') => .ok ((c, .did ctl) :: l, s')
      | .error e => .error e

/-- What a part that may be done looks like in its member until the others' are (R199). -/
def Part.mark (s0 : State) (s : State) (c : CtxId) : Part → State
  | .did .ended => s
  | .did .async => s.modCtx c (fun k => { k with gdone := 2, st := .ready })
  | .did _ => s.modCtx c (fun k => { k with gdone := 1, st := .ready })
  | .sent w => s.modCtx c (fun k => { k with gdone := 3, st := .waiting w (s0.edgesAt c.core.vt) })

def State.markParts (s0 : State) (s : State) : List (CtxId × Part) → State
  | [] => s
  | (c, p) :: r => State.markParts s0 (Part.mark s0 s c p) r

/-- What waiting members leave behind: requests in the order of the wait, and where each member stands. Nothing of a part that could be done is
performed (R234). -/
def gangHold (body : Body) (row : Instr) (o : Fields) (s0 : State) : List CtxId → State → State
  | [], s => s
  | c :: r, s =>
    match memberStep body row o s0 c s with
    | .error (.wait w s') => gangHold body row o s0 r (if w.begun row then s else s'.modCtx c (fun k => { k with st := .waiting w (s0.edgesAt c.core.vt) }))
    | _ => gangHold body row o s0 r s

/-- A conflict that only the parts of lower members cause: the trap is taken from the state before the instruction, in which only the
detector's records are theirs (R234, R325). -/
def gangConflict (body : Body) (row : Instr) (o : Fields) (m : Nat) (c : CtxId) (t : Tr) (after s : State) : GStop :=
  match memberStep body row o s c { s with recs := after.recs } with
  | .error (.trap t s') => .trap m c t { s' with recs := s.recs }
  | _ => .trap m c t s

/-- The first member whose answer is still to come. -/
def State.sentBy (s : State) (ms : List CtxId) : Option Wait :=
  ms.findSome? (fun c => match (s.ctx c).gdone, (s.ctx c).st with | 3, .waiting w _ => some w | 3, _ => some .earlier | _, _ => none)

/-- Some part of the gang's present instruction is done or on its way. -/
def State.partsBegun (s : State) (ms : List CtxId) : Bool := decide (1 < ms.length) && ms.any (fun c => (s.ctx c).gdone != 0)

/-- Run a body in the context alone, or in every member of a gang: every check of every member first, then all effects, and none while a
member waits for something other than the answer to what it sent (R127, R199, R234). -/
def runMembers (body : Body) (row : Instr) (o : Fields) (ms : List CtxId) (s : State) : Except GStop (List (CtxId × Ctl) × State) :=
  match ms with
  | [c] =>
    match memberStep body row o s c s with
    | .error (.trap t s') => .error (.trap 0 c t s')
    | .error (.wait w s') => .error (.wait w s')
    | .ok (ctl, s') => .ok ([(c, ctl)], s')
  | _ =>
    if s.partsBegun ms then
      match s.sentBy ms with
      | some w => .error (.wait w s)
      | none => .ok (ms.map (fun c => (c, if (s.ctx c).gdone = 2 then .async else .next)), s)
    else
      match firstTrap body row o s 0 ms with
      | some (m, c, t, s') => .error (.trap m c t s')
      | none =>
        match gangRun body row o s 0 ms s with
        | .error (.trap m c t s') => .error (gangConflict body row o m c t s' s)
        | .error (.wait w _) => .error (.wait w (gangHold body row o s ms s))
        | .ok (l, s') =>
          match l.findSome? (fun x => match x.2 with | .sent w => some w | .did _ => none) with
          | some w =>
            let keep := fun (c : CtxId) => (s.ctx c).s
            let s' := ms.foldl (fun t c => t.modCtx c (fun k => { k with gang := k.gang.map (fun g => { g with keep := some (keep c) }) })) s'
            .error (.wait w (State.markParts s s' l))
          | none => .ok (l.map (fun x => (x.1, match x.2 with | .did ctl => ctl | .sent _ => .next)), s')

/-- Complete an instruction in every member; `s0` is the state in which it issued. -/
def completeAll (s0 s : State) (row : Instr) (o : Fields) (sig : Option (Nat × Nat)) : List (CtxId × Ctl) → State
  | [] => s
  | (c, ctl) :: r => completeAll s0 (s.complete c row o (s0.predicatedOff c ⟨row, o⟩) ctl sig) row o sig r

/-- The remote error record of a context as the trap that reports it (R190). -/
def RemErr.trap (e : RemErr) : Tr :=
  { cause := .remoteStore, val := e.addr, detail := e.cause, other := e.ident, obyte := 0 }

/-- A trap of a member ends a gang (R234): followers become free and the leader takes its own cause, or GANG with the member's. `late`: the cause
does not stem from the instruction at which it is taken (R363, R424); a REMOTE_STORE never does. -/
def State.gangTrap (s : State) (lead : CtxId) (members : List CtxId) (m : Nat) (who : CtxId) (t : Tr) (pc : Word) (late : Bool) : State :=
  let report := decide (t.cause = .remoteStore)
  let imprecise := late || report
  let tag := match (if report then (s.ctx lead).err else none) with | some e => e.tag.toNat | none => (s.ctx lead).count
  let s := if report then s.dropErr who else s
  let s := s.freeFollowers lead members
  if m = 0 then s.takeTrapTag lead pc imprecise false tag t
  else s.takeTrapTag lead pc false false (s.ctx lead).count (Cause.at_ .gang (BitVec.ofNat 64 (t.cause.code + m * 256)))

/-- Deliver the trap of an instruction at its head: a rollback where R423 gives one, the end of a gang, or the trap. A REMOTE_STORE
reported at an instruction is imprecise, carries the failed access's tag and uses the record up (R190). Callers let a trap wait while its
frame's stores are held back (`pushHeld`). -/
def State.deliver (s : State) (c : CtxId) (members : List CtxId) (m : Nat) (who : CtxId) (t : Tr) : State :=
  let k := s.ctx c
  if 1 < members.length then
    (s.gangTrap c members m who t k.pc false).modCtx c (fun x => { x with count := k.count + 1 })
  else if t.cause = .uncorrectable ∧ k.mayRollback = true then (s.dropGrants c).rollback c
  else if t.cause = .remoteStore then
    let tag := match k.err with | some e => e.tag.toNat | none => 0
    ((s.dropErr c).takeTrapTag c k.pc true true tag t).modCtx c (fun x => { x with count := k.count + 1 })
  else (s.takeTrap c k.pc false t).modCtx c (fun x => { x with count := k.count + 1 })

/-- The state in which a context waits at its instruction since this edge. -/
def State.waitAt (s : State) (c : CtxId) (w : Wait) : State :=
  s.modCtx c (fun k => { k with st := .waiting w (s.edgesAt c.core.vt) })

/-- Deliver a trap, or let it wait while the stores of its frame are held back (R183, R362). -/
def State.deliverOr (s : State) (c : CtxId) (members : List CtxId) (m : Nat) (who : CtxId) (t : Tr) : State :=
  match s.pushHeld c with
  | some w => s.waitAt c w
  | none => s.deliver c members m who t

/-- A member whose sync wait is not satisfied, with the counter and threshold (R84). -/
def State.syncHeld (s : State) (o : Fields) : List CtxId → Option (CtxId × Nat × Nat)
  | [] => none
  | c :: r =>
    match syncWait o with
    | none => none
    | some (n, v) => if ((s.core c.core).reinAt n).v.toNat < v then some (c, n, v) else s.syncHeld o r

/-- The first member whose checks of R86 steps 1–4 fail. -/
def State.gateAll (s : State) (i : Inst) : Nat → List CtxId → Option (Nat × CtxId × Cause)
  | _, [] => none
  | m, c :: r => match s.gate c i with | some e => some (m, c, e) | none => s.gateAll i (m + 1) r

/-- A satisfied sync wait may observe the retirement of a coll.join (R324); what its signals carried is ordered before this instruction's
accesses alone (R307 rule 2, `beginAccess`). -/
def State.syncTaken (s : State) (o : Fields) : List CtxId → State
  | [] => s
  | c :: r => match syncWait o with | none => s | some (n, _) => (s.reinTaken c n).syncTaken o r

/-- A pair waits for its exchange: 256 instructions, or an instruction that ends the interval (R426). -/
def State.exchangeDue (s : State) (c : CtxId) (row : Instr) (o : Fields) : Bool :=
  s.coupled c.core &&
    (let f := (s.core c.core).finger c.ctx
     decide (f.len0 + 256 ≤ f.len) || (decide (f.len0 < f.len) && !s.predicatedOff c ⟨row, o⟩ && s.endsInterval c row o))

/-- What precedes an instruction's own effect: the checks of R86 steps 1–4 in every member, the exchange of a tandem pair, the sync wait.
`none` when the instruction may be performed. -/
def State.held (s : State) (row : Instr) (o : Fields) (c : CtxId) (ms : List CtxId) : Option State :=
  match s.gateAll ⟨row, o⟩ 0 ms with
  | some (m, who, e) => some (s.deliverOr c ms m who (Cause.at_ e 0))
  | none =>
    match s.syncHeld o ms with
    | some (who, n, v) => some ((s.waitAt who (.counter n v)).waitAt c (.counter n v))
    | none => if s.exchangeDue c row o then some (s.waitAt c .earlier) else none

/-- Issue an instruction in the current context, which for a gang is the leader (R86): what may hold it, then the body; then
completion, a trap or a wait. -/
def issue (row : Instr) (body : Body) (s : State) : State :=
  let c := s.cur
  let o := s.op
  let ms := s.members c
  match (if s.partsBegun ms then none else s.held row o c ms) with
  | some s' => s'
  | none =>
    let s := s.syncTaken o ms
    match runMembers body row o ms s with
    | .ok (l, s') => completeAll s s' row o (syncSignal o) l
    | .error (.wait w s') => s'.waitAt c w
    | .error (.trap m who t s') => if (s.pushHeld c).isSome then s.deliverOr c ms m who t else s'.deliver c ms m who t

/-! Fetch. -/

/-- A line as a fetch finds it: its bytes, or why not. -/
inductive Fetched where
  | line (b : List Byte) (s : State)
  | fault (t : Tr) (s : State)
  | wait (w : Wait) (s : State)

/-- The name of a fetched line in a core: its flat address, in space 5 its virtual address, which the pair window has under either of its dies. -/
def State.lineKey (s : State) (c : CoreId) (base : Word) : Nat :=
  if pSpc base = 5 then 2 ^ 120 + s.byteKey base * 2 ^ 46 + byteOff base else s.flatOf c base

/-- Take a line the core already holds, or the bytes in memory, which the core then holds (R75). -/
def State.takeLine (s : State) (c : CtxId) (ea : Word) (place : Option Nat) (bytes : List Byte) (poisoned : Bool) : Fetched :=
  let key := s.lineKey c.core ea
  match (s.core c.core).code.find key with
  | some l => .line l.bytes s
  | none =>
    if poisoned then .fault (Cause.at_ .uncorrectable ea) s
    else .line bytes (s.modCore c.core (fun k => { k with code := k.code.set key ⟨place, bytes⟩ }))

/-- Fetch the line at a line base (R73, R74): core-local code, die commons, or global memory, through the gateway when another die is
its home. Three points are the model's choice (log 47): a base with unassigned bits or an absent die (R53, R56), and die commons of another die,
trap SPACE here, at step 3 of R72, with the line base in TRAPVAL. -/
def State.fetchLine (s : State) (c : CtxId) (base : Word) : Fetched :=
  let k := s.ctx c
  let die := dieOf c.core.vt
  if s.spaceFault base then .fault (Cause.at_ .space base) s
  else if pSpc base = 5 ∧ s.home c.core base ≠ die then
    if s.gwSkew c.core.vt (s.home c.core base) then .fault (Cause.at_ .leaseSkew base) s
    else
      match s.gwLine c base with
      | none => .wait (.gateway (gwKey base) base true) s
      | some l =>
        if !(WKind.rights ⟨.fetch, true⟩ l.entry) then .fault (Cause.at_ .pagePerm base) s
        else
          let s := s.modDie die (fun d => { d with gw := d.gw.filter (fun x => x != l || x.grant.isNone) })
          s.takeLine c base none l.bytes false
  else if s.home c.core base ≠ die then .fault { cause := .space, val := base, detail := 1, other := 0, obyte := 0 } s
  else if pSpc base = 5 ∧ pPair base = true ∧ (s.stack (pDie base) (pStack base)).flight = true then
    .fault (Cause.at_ .stackNotOwned base) s
  else if !s.permitted c.core.vt k.sup (pSpc base) (pOff base) 64 .fetch then .fault (Cause.at_ .protect base) s
  else if pSpc base = 5 then
    match s.translate c.core.vt die (pVa base) ⟨.fetch, false⟩ with
    | .ok (a, _, s') => s'.takeLine c base (some a) (s'.bytes a 64) (s'.poisoned a 64)
    | .error e => let (t, s') := s.transFault c base die c.core.vt e; .fault t s'
  else
    let a := s.flatOf c.core base
    s.takeLine c base (some a) (s.bytes a 64) (s.poisoned a 64)

/-- How entering a line ends: at a head of it, a trap, or a wait. -/
inductive Entered where
  | at_ (s : State)
  | trap (t : Tr) (pc : Word) (s : State)
  | wait (w : Wait) (s : State)

/-- TRAPVAL of a target that fails R72: the transferring head, or zero. -/
def Entry.source : Entry → Word
  | .from_ w => w
  | _ => 0

/-- The checks of an entered line and head (R70, R72 steps 4 and 5); `none`: control stands at a head. -/
def lineFault (line : List Byte) (pc : Word) (e : Entry) : Option Tr :=
  match lineError line with
  | some .header => some (Cause.at_ .reservedField (lineBase pc))
  | some .overflow => some (Cause.at_ .illegal (lineBase pc))
  | none => if headCount line ≤ headIndex pc then some (Cause.at_ .illegal e.source) else none

/-- Stand at a head of a fetched line. -/
def State.stand (s : State) (c : CtxId) (pc : Word) (line : List Byte) : State :=
  s.modCtx c (fun k => { k with pc := pc, entry := .inLine, line := line })

/-- The line at a line base for a context that enters it: a line of the checked body that it runs, as its check found it (R227), or a fetch. -/
def State.lineAt (s : State) (c : CtxId) (base : Word) : Fetched :=
  match (s.ctx c).body.find? (fun x => x.1 == base) with
  | some x => .line x.2 s
  | none => s.fetchLine c base

/-- Enter the line after a skipped empty line (R71); while it is fetched the context stands at its head 0. -/
def State.enterSecond (s : State) (c : CtxId) (pc : Word) : Entered :=
  match s.lineAt c (lineBase pc) with
  | .wait w s => .wait w (s.modCtx c (fun k => { k with pc := pc, entry := .skipped }))
  | .fault t s => .trap t pc s
  | .line b s =>
    match lineError b with
    | none => if headCount b = 0 then .trap (Cause.at_ .illegal (lineBase pc)) pc s else .at_ (s.stand c pc b)
    | some _ => match lineFault b pc .fall with | some t => .trap t pc s | none => .at_ (s.stand c pc b)

/-- Enter the line at the PC of a context (R70–R74). -/
def State.enterLine (s : State) (c : CtxId) : Entered :=
  let k := s.ctx c
  let pc := k.pc
  let o := (pc.extractLsb' 0 6).toNat
  if (pSpc pc ≠ 0 ∧ pSpc pc ≠ 3 ∧ pSpc pc ≠ 5) ∨ pFmt pc ≠ 0 ∨ pBlk pc ≠ 0 ∨ pRel pc = true then
    .trap (Cause.at_ .space k.entry.source) pc s
  else if k.entry = .skipped then s.enterSecond c pc
  else if o = 0 ∨ o % 2 = 1 then .trap (Cause.at_ .illegal k.entry.source) pc s
  else
    match s.lineAt c (lineBase pc) with
    | .wait w s => .wait w s
    | .fault t s => .trap t pc s
    | .line b s =>
      if k.entry = .fall ∧ lineError b = none ∧ headCount b = 0 then
        s.enterSecond c (nextLine (lineBase pc))
      else
        match lineFault b pc k.entry with
        | some t => .trap t pc s
        | none => .at_ (s.stand c pc b)

end Sys2Proof.Machine
end

