-- ==== Sys2Proof/Machine/Operands.lean ====
section
/-! DEFINITION. Operand forms: A and B of form A (R125), the base and offset of forms B and C (R164), predicates of a body, and the
bodies most instructions of one shape share. -/

namespace Sys2Proof.Machine

open Sys2Proof

/-- The outcome type of a meaning. -/
abbrev Out := Host.Outcome State Fault Refusal

/-- Operand A: s[S1] (R125). -/
def Env.a (e : Env) (s : State) : Word := s.rs e.me e.o.s1

/-- Operand B: the immediate when T ≥ 2, else s[S2] (R125). -/
def Env.b (e : Env) (s : State) : Word := if decide (2 ≤ e.o.t.toNat) then e.o.immS else s.rs e.me e.o.s2

/-- s[D] as a source. -/
def Env.dv (e : Env) (s : State) : Word := s.rs e.me e.o.d

def Env.s2v (e : Env) (s : State) : Word := s.rs e.me e.o.s2
def Env.s3v (e : Env) (s : State) : Word := s.rs e.me e.o.s3

/-- The context of the executing instruction. -/
def Env.k (e : Env) (s : State) : Ctx := s.ctx e.me

/-- The tag of the executing instruction (R26). -/
def Env.tag (e : Env) (s : State) : BitVec 32 := BitVec.ofNat 32 (s.ctx e.me).count

/-- Write s[D] and go on. -/
def Env.put (e : Env) (s : State) (x : Word) : Except Stop (Ctl × State) := .ok (.next, s.ws e.me e.o.d x)

/-- Write p[D] and go on. -/
def Env.putP (e : Env) (s : State) (x : Half) : Except Stop (Ctl × State) := .ok (.next, s.wp e.me e.o.d x)

/-- All bits of a predicate (R130). -/
def allBits (b : Bool) : Half := if b then 0xffff else 0

/-- s[D] ← f(A, B). -/
def bodyAB (f : Word → Word → Word) : Body := fun e s => e.put s (f (e.a s) (e.b s))

/-- s[D] ← f(A). -/
def bodyA (f : Word → Word) : Body := fun e s => e.put s (f (e.a s))

/-- s[D] ← f(s[D], A, B). -/
def bodyDAB (f : Word → Word → Word → Word) : Body := fun e s => e.put s (f (e.dv s) (e.a s) (e.b s))

/-- p[D] ← the relation of A and B in every bit (R130). -/
def bodyCmp (f : Word → Word → Bool) : Body := fun e s => e.putP s (allBits (f (e.a s) (e.b s)))

/-- The byte offset of forms B and C as an integer (R78, R79). -/
def ofsB (o : Fields) : Int := o.immS.toInt
def ofsC (o : Fields) : Int := o.imm16.toInt

/-- Trap with TRAPVAL v. -/
def Env.trap (_e : Env) (s : State) (c : Cause) (v : Word) : Except Stop α := .error (.trap (Cause.at_ c v) s)

/-- Nothing but the PC changes. -/
def bodyNop : Body := fun _ s => .ok (.next, s)

/-- The branch target: line base + 2 × IMM within the offset field; none on a carry (R77). -/
def branchTarget (pc imm : Word) : Option Word := offAdd (lineBase pc) (imm.toInt * 2)

/-- A release or fence at any scope beyond the context waits for the acknowledgements of the context's posted accesses: one that its home has not
acknowledged may be seen by the context alone (R167, R306, R318). -/
def Env.relWait (e : Env) (s : State) (scope : Nat) : Except Stop Unit :=
  if 1 ≤ scope ∧ 0 < (e.k s).posted then .error (.wait .earlier s) else .ok ()

/-- In a gang: execution trap GANG (Table 49). -/
def Env.noGang (e : Env) (s : State) : Except Stop Unit :=
  trapIf (e.k s).gang.isSome (Cause.at_ .gang 0) s

/-- The launch the context's core belongs to. -/
def State.launchOf (s : State) (c : CoreId) : Option Launch :=
  match (s.core c).launch with
  | none => none
  | some l => s.launches.find? (fun x => x.id == l.id)

end Sys2Proof.Machine
end

