-- ==== Sys2Proof/Machine/Control.lean ====
section
/-! DEFINITION. Control majors 0x1e–0x2e (R145–R162): branches, tasks and contexts, waits, traps and returns. -/

namespace Sys2Proof.Machine

open Sys2Proof

/-! Branches. -/

/-- The context whose PC the stream follows: the leader of a gang (R231). -/
def State.leadOf (s : State) (c : CtxId) : CtxId := (s.members c).headD c

/-- The core takes no turn: the shadow of a pair (R298), a halted or drained tile (R406, R465). -/
def State.coreStopped (s : State) (c : CoreId) : Bool :=
  (match (s.core c).tandem with | some t => !t.primary | none => false) || (s.core c).launch.isNone || (s.tile c.vt).stopped || (s.tile c.vt).halted

/-- The instruction at which a context, or the gang it belongs to, stands in a line it has fetched. -/
def State.standing (s : State) (c : CtxId) : Option Inst :=
  let k := s.ctx (s.leadOf c)
  match decodeHead k.line (headIndex k.pc) with
  | .ok i => some i
  | .error _ => none

/-- A vector instruction (majors 0x50–0x67). -/
def isVector (row : Instr) : Bool := decide (0x50 ≤ row.major ∧ row.major ≤ 0x67)

/-- A row that may be handed over to the sequencer (R224, R237). -/
def handedRow (row : Instr) : Bool := isVector row || decide (0x6c ≤ row.major ∧ row.major ≤ 0x71)

/-- An entry of the context stands in the vector sequencer. -/
def State.vseqHas (s : State) (c : CtxId) : Bool := (s.core c.core).vseq.any (fun v => v.ctx == c.ctx)

/-- An entry of the context stands in the matrix queue. -/
def State.mqHas (s : State) (c : CtxId) : Bool := (s.core c.core).mq.any (fun m => m.q.ctx == c.ctx)

/-- Vector or matrix instructions of the context are handed over and not complete. Only further ones of it may issue then, while the sequencer has
room; everything else of it waits (R224, R225, R237). -/
def State.busy (s : State) (c : CtxId) : Bool := s.vseqHas c || s.mqHas c

/-- The state in which a context has entered the line of its next instruction, when its fetch neither waits nor fails. -/
def State.entered (s : State) (c : CtxId) : Option State :=
  if (s.ctx c).entry = .inLine then some s else match s.enterLine c with | .at_ t => some t | _ => none

/-- The instruction that a context issues next, when its line can be entered. -/
def State.nextInst (s : State) (c : CtxId) : Option Inst := (s.entered c).bind (fun t => t.standing c)

/-- The context's next instruction is held by an interlock, so that it is not ready (R352): it stands behind work that was handed over. A line that
cannot be entered, and a head that is no instruction, are held as well: their trap comes once that work is complete. -/
def State.interlocked (s : State) (c : CtxId) : Bool :=
  s.busy c && (match s.nextInst c with
    | some i => !handedRow i.row || decide (16 ≤ (s.core c.core).vseq.length)
    | none => true)

/-- A JOIN of the context, which would issue now, ends it: its counter does not come to 0, or it has made its decrement (R150). -/
def State.joinEnds (s : State) (c : CtxId) (i : Inst) : Bool :=
  let q : Req := { base := s.rs c i.o.s1, ofs := 0, n := 8, align := 8, k := .rmw, spaces := [0, 1, 2], plain := false, held := true }
  (s.ctx c).joined || (match s.coreAddr0 c q with | .ok (a, t) => t.load a 8 != 1 | .error _ => false)

/-- A context stands before an EXIT that it has still to issue, or a JOIN that ends it (R150, R154). -/
def State.atExit (s : State) (c : CtxId) : Bool :=
  match s.nextInst (s.leadOf c) with
  | some i => i.row == .exit || (i.row == .join && s.joinEnds c i)
  | none => false

/-- A context is ready: a follower is when its leader's stream is, and neither is held by an interlock (R231, R352, R354). -/
def State.ready (s : State) (c : CtxId) : Bool :=
  (s.ctx c).st == .ready && (s.ctx (s.leadOf c)).st == .ready && !s.interlocked (s.leadOf c)

/-- The contexts that a context yielded to have issued, or stopped being ready (R155). -/
def State.yieldOver (s : State) (c : CtxId) : Bool := (s.ctx c).yieldTo.all (fun i => !s.ready ⟨c.core, i⟩)

/-- Contexts that others yielded to and that are no longer ready count as having had their turn (R155). -/
def State.pruneYields (s : State) : State :=
  if s.ctxs.all (fun x => x.2.yieldTo.isEmpty) then s
  else
    { s with ctxs := s.ctxs.map (fun x =>
        (x.1, if x.2.yieldTo.isEmpty then x.2 else { x.2 with yieldTo := x.2.yieldTo.filter (fun i => s.ready ⟨⟨x.1 / 16 / 192, x.1 / 16 % 192⟩, i⟩) })) }

/-- A context may take the issue slot: every member of its gang may (R155, R231, R352). A pending pre-emption leaves it only the handler of an earlier
trap, or an EXIT, which completes before it (R154); a tile that drains leaves it only an instruction of which parts are done (R406). -/
def State.mayIssue (s : State) (c : CtxId) : Bool :=
  let k := s.ctx c
  k.st == .ready && s.leadOf c == c && (!s.preempting c.core || (k.sup && !k.framed) || s.atExit c) &&
    (!(s.tile c.core.vt).draining || s.partsBegun (s.members c)) &&
    (s.members c).all (fun m => (!(s.core m.core).ctlPrio || m.ctx == 0) && s.yieldOver m)

/-- The head address of the executing instruction. -/
def Env.pc (e : Env) (s : State) : Word := (s.ctx (s.leadOf e.me)).pc

/-- The target of IMM; a carry traps OFFSET_OVERFLOW with the base of the branch's line (R77, R145). -/
def Env.target (e : Env) (s : State) : Except Stop Word :=
  match branchTarget (e.pc s) e.o.immS with
  | some t => .ok t
  | none => e.trap s .offsetOverflow (lineBase (e.pc s))

/-- BR (R145). -/
def bodyBr : Body := fun e s => do
  let t ← e.target s
  .ok (.jump t, s)

/-- The conditions of BRP (R145). -/
def brpHolds (cc : Nat) (p : Half) : Bool :=
  match cc with
  | 0 => p != 0
  | 1 => p == 0xffff
  | 2 => p == 0
  | _ => p != 0xffff

/-- BRP (R145): the carry check is made whether or not the branch is taken; in a gang the condition is the leader's (Table 49). -/
def bodyBrp (cc : Nat) : Body := fun e s => do
  let t ← e.target s
  .ok (if brpHolds cc (e.s0.rp (e.s0.leadOf e.me) e.o.d) then .jump t else .next, s)

/-- The link value (R146): the next head of the line, or the fall-through address. -/
def Env.link (e : Env) (s : State) : Except Stop Word :=
  let k := s.ctx (s.leadOf e.me)
  if headIndex k.pc + 1 < headCount k.line then .ok (k.pc + 2)
  else
    match offAdd (lineBase k.pc) 66 with
    | some l => .ok l
    | none => e.trap s .offsetOverflow (lineBase k.pc)

/-- JAL (R146). -/
def bodyJal : Body := fun e s => do
  let t ← e.target s
  let l ← e.link s
  .ok (.jump t, s.ws e.me e.o.d l)

/-- JALR (R146): in a gang the target comes from the leader's register (Table 49). -/
def bodyJalr : Body := fun e s => do
  let a := e.s0.rs (e.s0.leadOf e.me) e.o.s1
  let t ← (if 6 ≤ pSpc a then (if e.o.immS = 0 then .ok a else e.trap s .space a)
    else match offAdd a (e.o.immS.toInt * 2) with
      | some t => .ok t
      | none => e.trap s .offsetOverflow a : Except Stop Word)
  let l ← e.link s
  .ok (.jump t, s.ws e.me e.o.d l)

/-- LOOP (R147). -/
def bodyLoop : Body := fun e s => do
  let t ← e.target s
  let n := (e.k s).lpct
  let s := s.modCtx e.me (fun k => { k with lpct := if n = 0 then 0 else n - 1 })
  .ok (if n = 0 ∨ n - 1 = 0 then .next else .jump t, s)

/-! Starting contexts. -/

/-- What a started helper receives besides the values common to all starts (R65): the head that started it, s20 and up. -/
structure Start where
  pc : Word
  src : Word
  regs : List Word
  origin : Origin
  cls : Nat
  prio : Nat
  task : Option Task
  info : HbInfo

/-- Registers s20 and up from a list, s2 the stack pointer, all others zero (R65). -/
def startRegs (sp : Nat) (regs : List Word) : Vector Word 32 :=
  Vector.ofFn (fun i : Fin 32 => if i.val = 2 then BitVec.ofNat 64 sp else if 20 ≤ i.val then regs.getD (i.val - 20) 0 else 0)

/-- A new agreed point of a context of a coupled pair (R426). -/
def State.fingerBase (s : State) (c : CtxId) : State :=
  if s.coupled c.core then
    let x := s.ctx c
    s.modCore c.core (fun k => { k with fingers := k.fingers.set c.ctx { fp := 0, len := 0, bad := 0, base := some x, fp0 := 0, len0 := 0, log := [] } })
  else s

/-- Start a helper (R65, R149, R151). The knowledge passed on is acquired. -/
def State.startHelper (s : State) (c : CtxId) (x : Start) : State :=
  match (s.core c.core).launch with
  | none => s
  | some l =>
    let s := s.modCore c.core (fun k => { k with fingers := k.fingers.erase c.ctx })
    let s := s.setCtx c { Ctx.reset c.ctx with
      pc := x.pc, entry := .from_ x.src, s := startRegs (0x1ffc0 - c.ctx * l.stack) x.regs, mode := BitVec.ofNat 3 l.mode,
      seed := BitVec.ofNat 32 l.seed ^^^ BitVec.ofNat 32 (identC c), st := .ready, origin := x.origin, cls := x.cls, prio := x.prio,
      act := { task := x.task, buf := [], log := [], within := true },
      hb := { Hb.none_ with info := x.info, all := (s.ctx c).hb.all.join x.info } }
    s.fingerBase c

/-- Helpers of a launch's core (1 to H). -/
def State.helperCount (s : State) (core : CoreId) : Nat := match (s.core core).launch with | some l => l.h | none => 0

/-- Columns and rows of a gang by size code (R230). -/
def gangShape (code : Nat) : Nat × Nat := if code = 0 then (2, 1) else if code = 1 then (2, 2) else (4, 2)

/-- The positions of a gang whose leader stands at a position, member 0 first (R230). -/
def gangBlock (code pos : Nat) : List Nat :=
  let (w, h) := gangShape code
  (List.range (w * h)).map (fun m => pos + m % w + 12 * (m / w))

/-- The lowest-numbered leader on the tile that waits to reserve a helper (R231). -/
def State.claimant (s : State) (c : CtxId) : Option CtxId :=
  let corner (w h : Nat) : Nat := posX c.core.pos / w * w + 12 * (posY c.core.pos / h * h)
  let claims (pos code : Nat) : Bool := pos != c.core.pos && (match (s.ctx ⟨⟨c.core.vt, pos⟩, c.ctx⟩).st with
    | .waiting (.gang n) _ => n == code
    | _ => false)
  let l := [(corner 2 1, 0), (corner 2 2, 1), (corner 4 2, 2)].filter (fun x => claims x.1 x.2)
  (l.foldl (fun m x => match m with | some p => some (min p x.1) | none => some x.1) (none : Option Nat)).map
    (fun p => ⟨⟨c.core.vt, p⟩, c.ctx⟩)

/-- Helpers reserved for a leader's gang become free (R231), which wakes the sleepers of their cores (R156). -/
def State.unreserve (s : State) (lead : CtxId) : State :=
  (List.range 192).foldl (fun s p =>
    let d : CtxId := ⟨⟨lead.core.vt, p⟩, lead.ctx⟩
    match (s.ctx d).st, (s.ctx d).gang with
    | .reserved, some g => if g.members.head? = some lead then (s.modCtx d (fun k => { k with st := .free, gang := none })).wakeCore d.core else s
    | _, _ => s) s

/-- The lowest-numbered free helper among 1 to H (R151, R350). -/
def State.freeHelperOf (s : State) (core : CoreId) : Option Nat :=
  helperCtx.find? (fun i => decide (i ≤ s.helperCount core) && (s.ctx ⟨core, i⟩).st == .free && (s.claimant ⟨core, i⟩).isNone)

/-- Contexts of a core that are ready, other than one. -/
def State.readyOthers (s : State) (c : CtxId) : List Nat := allCtx.filter (fun i => i != c.ctx && s.ready ⟨c.core, i⟩)

/-- A run-queue task may start: its class is enabled (R48, R350). -/
def Core.eligible (k : Core) (t : Task) : Bool := k.classEn.getLsbD t.cls

/-- Tasks that stay eligible while other work starts are passed over once more (R350, R353). -/
def Core.pass (k : Core) (started : Option Nat) : Core :=
  { k with runq := k.runq.map (fun t => if k.eligible t && started != some t.seq then { t with passed := t.passed + 1 } else t) }

/-- FORK (R148), a release at tile scope. -/
def bodyFork : Body := fun e s => do
  e.noGang s
  let t ← e.target s
  let fp := s.rs e.me 2
  let frame ← (match absPtr e.me.core fp with | some p => .ok p | none => e.trap s .space fp : Except Stop Word)
  let join ← (match absPtr e.me.core (e.a s) with | some p => .ok p | none => e.trap s .space (e.a s) : Except Stop Word)
  if 16 ≤ (s.core e.me.core).deque.length then .error (.wait .forkFull s)
  else
    e.relWait s 2
    let s := s.commit e.me
    let d : DqEntry := { cont := t, frame := frame, join := join, src := identC e.me, hb := s.release e.me }
    .ok (.next, s.modCore e.me.core (fun k => { k with deque := d :: k.deque }))

/-- The work of a context before its end is complete (R152 step 1): vector and matrix instructions, remote accesses, engine commands. -/
def State.settled (s : State) (c : CtxId) : Bool :=
  let k := s.ctx c
  let q := s.core c.core
  k.posted == 0 && k.remote == 0 && k.commands == 0 && !q.vseq.any (fun v => v.ctx == c.ctx) && !q.mq.any (fun m => m.q.ctx == c.ctx)

/-- A valid remote error record is reported as an imprecise REMOTE_STORE at this instruction (R190). -/
def Env.reportErr (e : Env) (s : State) : Except Stop Unit :=
  match (e.k s).err with
  | some r => .error (.trap r.trap s)
  | none => .ok ()

/-- Context 0 may leave (R153): helpers free, run queue, overflow entries and deque empty, released messages answered, and no refusal left to report. -/
def State.mayLeave (s : State) (core : CoreId) : Bool :=
  let k := s.core core
  helperCtx.all (fun i => (s.ctx ⟨core, i⟩).st == .free) && k.runq.isEmpty && k.deque.isEmpty && k.pending == 0 && k.report.isNone &&
    !(s.tile core.vt).overflow.any (fun o => o.1 == core.pos)

/-- A tandem pair ends (R298): the shadow goes on as it stood, its tandem.on completing with 2. -/
def State.uncouple (s : State) (core : CoreId) : State :=
  match (s.core core).tandem with
  | none => s
  | some t =>
    let other : CoreId := ⟨core.vt, t.partner⟩
    let s := (s.modCore core (fun k => { k with tandem := none, fingers := [] })).modCore other (fun k => { k with tandem := none, fingers := [] })
    let shadow : CtxId := ⟨if t.primary then other else core, 0⟩
    match (s.ctx shadow).st with
    | .waiting .tandem _ => s.answerD shadow 2
    | _ => s

/-- No core of a tile holds a token of a launch that is on it no more. -/
def State.dropTokens (s : State) (vt id : Nat) : State :=
  { s with cores := s.cores.map (fun p => if p.1 / 192 = vt then (p.1, { p.2 with thru := p.2.thru.erase id }) else p) }

/-- The core leaves its launch, while the tokens of its sweep that have reached it pass on (R153, R343, R344): context 0 is outside; register backing and the spur bank of the launch are given back with
its last core on the tile (R254, R337). -/
def State.leave (s : State) (core : CoreId) : State :=
  let id := (s.core core).launchId
  let s := s.uncouple core
  let k0 := s.ctx ⟨core, 0⟩
  let s := s.setCtx ⟨core, 0⟩ (k0.cleared ⟨core, 0⟩)
  let left : BarState := { (s.core core).bar with arrived := false, phase := false }
  let s := s.modCore core (fun k => { k with launch := none, bar := Core.reset.bar,
                                             thru := if left = Core.reset.bar then k.thru else k.thru.set id left })
  if (List.range 192).any (fun p => match (s.core ⟨core.vt, p⟩).launch with | some l => l.id == id | none => false) then s
  else
    (s.modTile core.vt (fun t => { t with backing := t.backing.filter (fun b => b.1 != id), bank := t.bank.filter (fun b => b.launch != id) })).dropTokens
      core.vt id

/-- The launch of a context that ends covers what the context knows: its end releases that (R321, R338). -/
def State.covered (s : State) (c : CtxId) : State :=
  if !s.confOn c then s else s.modLaunch (s.core c.core).launchId (fun l => { l with hb := l.hb.join (s.release c) })

/-- Steps 3 to 5 of R152 for a context that has nothing outstanding; context 0 leaves under R153 or waits. -/
def State.endContext (s : State) (c : CtxId) : Except Stop (Ctl × State) :=
  if c.ctx = 0 then (if s.mayLeave c.core then .ok (.ended, (s.covered c).leave c.core) else .error (.wait .exit s))
  else .ok (.ended, ((s.covered c).commit c).freeHelper c true)

/-- JOIN (R150). It completes with its decrement, and its signal is applied then (R126). Context 0 stays at the JOIN until it may leave, which the
event of its core's leaving ends; `joined` marks the decrement as made. -/
def bodyJoin : Body := fun e s => do
  e.noGang s
  let t ← e.target s
  let a := e.a s
  if (e.k s).joined then .error (.wait .exit s)
  else
    let q : Req := { base := a, ofs := 0, n := 8, align := 8, k := .rmw, spaces := [0, 1, 2], plain := false, held := true }
    let (ad, s) ← s.coreAddr0 e.me q
    if !s.settled e.me then .error (.wait .earlier s)
    else
      e.reportErr s
      trapIf (s.poisoned ad 8) (Cause.at_ .uncorrectable a) s
      let (old, s) := (s.commit e.me).updateAt e.me a ad 8 ⟨true, true, 2⟩ (fun m => (m + (2 ^ 64 - 1)) % 2 ^ 64)
      if old = 1 then .ok (.jump t, s)
      else if e.me.ctx ≠ 0 then s.endContext e.me
      else .error (.wait .exit ((s.modCtx e.me (fun k => { k with joined := true })).signalLocal e.me (syncSignal e.o)))

/-- SPAWN (R151), a release at core scope when it starts a helper (Table 98); eligible tasks are passed over by the start (R350). -/
def bodySpawn : Body := fun e s => do
  let t ← e.target s
  match s.freeHelperOf e.me.core with
  | none => .ok (.next, s.ws e.me e.o.d 0)
  | some h =>
    e.relWait s 1
    let s := s.modCore e.me.core (fun k => k.pass none)
    let x : Start := { pc := t, src := e.pc s, regs := [e.a s, 0, 0, 0, 0, 0, 0, BitVec.ofNat 64 (identC e.me)], origin := .spawn, cls := 0,
                       prio := 0, task := none, info := s.release e.me }
    .ok (.next, (s.startHelper ⟨e.me.core, h⟩ x).ws e.me e.o.d (BitVec.ofNat 64 h))

/-- EXIT (R152, R153): no member of a gang ends before every member may. -/
def bodyExit : Body := fun e s => do
  if !(e.s0.members e.me).all (fun c => e.s0.settled c) then .error (.wait .earlier s)
  else
    e.reportErr s
    s.endContext e.me

/-- YIELD (R155). -/
def bodyYield : Body := fun e s => .ok (.next, s.modCtx e.me (fun k => { k with yieldTo := s.readyOthers e.me }))

/-- SLEEP (R156): it completes by the event that wakes it. -/
def bodySleep : Body := fun e s => do
  e.noGang s
  let n := e.o.immS
  .error (.wait (if n = 0 then .sleep false else .timed n.toNat false) s)

/-- TRAP (R157). -/
def bodyTrap (c : Cause) : Body := fun e s => e.trap s c (e.b s)

/-- UPRET (R158). -/
def bodyUpret : Body := fun e s => do
  e.noGang s
  let k := e.k s
  if !k.upcallBit then e.trap s .illegal 0
  else .ok (.jump (if e.o.s1 = 0 then k.trapPc else e.a s), s.returnUpcall e.me)

/-- ERET (R159). No context of a core is a pager core's (R366). -/
def bodyEret : Body := fun e s => do
  e.noGang s
  .ok (.jump (e.k s).trapPc, s.returnTrap e.me)

/-- NOP.phase (R160). -/
def bodyPhase : Body := fun e s => .ok (.next, s.modTile e.me.core.vt (fun t => { t with phase := e.o.immS.toNat }))

/-! Launch dependence. -/

/-- Dies and tiles a descriptor names, ascending. -/
def Desc.dieList (d : Desc) : List Nat := (List.range 64).filter (fun i => d.dies.getLsbD i)
def Desc.tiles (d : Desc) (vd : Nat) : List Nat := ((List.range 8).filter (fun i => decide (d.slots / 2 ^ i % 2 = 1))).map (fun i => 8 * vd + i)
def Desc.allTiles (d : Desc) : List Nat := d.dieList.flatMap d.tiles

/-- Cores of a launch that are in it now. -/
def State.coresOf (s : State) (id : Nat) : List Nat :=
  (s.cores.filter (fun p => match p.2.launch with | some l => l.id == id | none => false)).map (fun p => p.1)

/-- A launch has triggered (R162): every tile is entered, and every core in it, those that a pre-emption has saved among them, is marked. -/
def State.hasTriggered (s : State) (l : Launch) : Bool :=
  l.shares.all (fun h => (l.desc.tiles h.vd).all h.entered.contains) &&
    (s.coresOf l.id ++ l.parkedCores.map (fun x => x.1)).all (fun k => l.triggered.contains k)

/-- A producer counts as done: triggered, ended, cancelled, or held by no dispatcher (R347). -/
def State.producerDone (s : State) (id : Nat) : Bool :=
  match s.launches.find? (fun l => l.id == id) with
  | none => true
  | some l => l.ended || l.cancelled || s.hasTriggered l

/-- Producers of the launch of a core that are not yet done (R161); none in graph mode. -/
def State.producersLeft (s : State) (c : CoreId) : List Nat :=
  match s.launchOf c with
  | none => []
  | some l => if l.desc.dep = 1 then l.producers.filter (fun p => !s.producerDone p) else []

/-- WAITDEP (R161): an acquire at panel scope of what the producers released. -/
def bodyWaitdep : Body := fun e s => do
  e.noGang s
  if !(s.producersLeft e.me.core).isEmpty then .error (.wait .waitdep s)
  else
    let l := match s.launchOf e.me.core with | some l => l.producers | none => []
    .ok (.next, (s.launches.filter (fun x => l.contains x.id)).foldl (fun s x => s.acquireInfo e.me x.hb) s)

/-- TRIGGER (R162): a release at panel scope; the mark, unless in graph mode. -/
def bodyTrigger : Body := fun e s => do
  e.relWait s 5
  let s := s.commit e.me
  let i := s.release e.me
  match s.launchOf e.me.core with
  | none => .ok (.next, s)
  | some l =>
    let mark := fun (t : List Nat) => insertNat t e.me.core.key
    .ok (.next, s.modLaunch l.id (fun x => { x with hb := x.hb.join i, triggered := if x.desc.dep = 2 then x.triggered else mark x.triggered }))

/-- WAITDEP (R161). -/
def execWaitdep (s : State) : Out := .next (issue .waitdep bodyWaitdep s)

/-- TRIGGER (R162). -/
def execTrigger (s : State) : Out := .next (issue .trigger bodyTrigger s)

/-- BR (R145). -/
def execBr (s : State) : Out := .next (issue .br bodyBr s)

/-- BRP.any (R145). -/
def execBrpAny (s : State) : Out := .next (issue .brpAny (bodyBrp 0) s)

/-- BRP.all (R145). -/
def execBrpAll (s : State) : Out := .next (issue .brpAll (bodyBrp 1) s)

/-- BRP.none (R145). -/
def execBrpNone (s : State) : Out := .next (issue .brpNone (bodyBrp 2) s)

/-- BRP.nall (R145). -/
def execBrpNall (s : State) : Out := .next (issue .brpNall (bodyBrp 3) s)

/-- JAL (R146). -/
def execJal (s : State) : Out := .next (issue .jal bodyJal s)

/-- JALR (R146). -/
def execJalr (s : State) : Out := .next (issue .jalr bodyJalr s)

/-- LOOP (R147). -/
def execLoop (s : State) : Out := .next (issue .loop bodyLoop s)

/-- FORK (R148). -/
def execFork (s : State) : Out := .next (issue .fork bodyFork s)

/-- JOIN (R150). -/
def execJoin (s : State) : Out := .next (issue .join bodyJoin s)

/-- SPAWN (R151). -/
def execSpawn (s : State) : Out := .next (issue .spawn bodySpawn s)

/-- EXIT (R152, R153). -/
def execExit (s : State) : Out := .next (issue .exit bodyExit s)

/-- YIELD (R155). -/
def execYield (s : State) : Out := .next (issue .yield bodyYield s)

/-- SLEEP (R156). -/
def execSleep (s : State) : Out := .next (issue .sleep bodySleep s)

/-- TRAP (R157). -/
def execTrap (s : State) : Out := .next (issue .trap (bodyTrap .software) s)

/-- TRAP.bkpt (R157). -/
def execTrapBkpt (s : State) : Out := .next (issue .trapBkpt (bodyTrap .breakpoint) s)

/-- UPRET (R158). -/
def execUpret (s : State) : Out := .next (issue .upret bodyUpret s)

/-- ERET (R159). -/
def execEret (s : State) : Out := .next (issue .eret bodyEret s)

/-- NOP (R160). -/
def execNop (s : State) : Out := .next (issue .nop bodyNop s)

/-- NOP.spin (R160): the issue share it may lower is the choice of turns (log 2). -/
def execNopSpin (s : State) : Out := .next (issue .nopSpin bodyNop s)

/-- NOP.phase (R160): the power control of the tile holds the mark. -/
def execNopPhase (s : State) : Out := .next (issue .nopPhase bodyPhase s)

end Sys2Proof.Machine
end

