-- ==== Sys2Proof/Machine/Home.lean ====
section
/-! DEFINITION. Accesses as their home performs them (R165, R188–R192, R327, R375): the checks at the home, the read-modify-writes of
Table 62, exact sums of registered elements, and the acknowledgement. -/

namespace Sys2Proof.Machine

open Sys2Proof

/-! Read-modify-writes (Table 62). -/

/-- The new memory value of n bits. -/
def amoOp (fn n m b : Nat) : Nat :=
  match fn with
  | 0 => (m + b) % 2 ^ n
  | 1 => m &&& b
  | 2 => m ||| b
  | 3 => m ^^^ b
  | 4 => if signedOf n m ≤ signedOf n b then m else b
  | 5 => if signedOf n m ≤ signedOf n b then b else m
  | 6 => min m b
  | 7 => max m b
  | 8 => b
  | _ => finishRne .f32 (opAdd 0 (genNaN 1 0 15 6) (f32 m) (f32 b)).1

/-- An old value as it is written to a register: sign-extended for 4 bytes (R181, R187). -/
def oldValue (n v : Nat) : Word := if n = 4 then (BitVec.ofNat 32 v).signExtend 64 else BitVec.ofNat 64 v

/-! Registered reduction buffers (R192, R292, R327). -/

/-- The space and coordinates of a resolved pointer, and its offset. -/
def ptrKey (p : Word) : Nat := p.toNat % 2 ^ 56 / 2 ^ offWidth2 (pSpc p)
def ptrOff (p : Word) : Nat := p.toNat % 2 ^ offWidth2 (pSpc p)

/-- Bytes of an element type of COLL (Table 91). -/
def collBytes (et : Nat) : Nat := if et = 5 then 8 else if et = 8 then 2 else 4

def Registration.holds (r : Registration) (p : Word) : Bool :=
  ptrKey r.ptr == ptrKey p && decide (ptrOff r.ptr ≤ ptrOff p) && decide (ptrOff p < ptrOff r.ptr + r.len * collBytes r.et)

def State.launchById (s : State) (id : Nat) : Option Launch := s.launches.find? (fun l => l.id == id)

/-- The registered buffer of a launch that holds an address. -/
def State.regOf (s : State) (id : Nat) (p : Word) : Option Registration :=
  match s.launchById id with
  | none => none
  | some l => l.regs.find? (fun r => r.holds p)

/-- Keep a contribution to element e of a registered buffer for the next settle (R327). -/
def addTerm (sums : List PendSum) (g : Registration) (e : Nat) (v : BitVec 32) : List PendSum :=
  let p := (offAdd g.ptr (4 * e)).getD g.ptr
  match sums with
  | [] => [⟨p, e, g.vt, g.home, [v]⟩]
  | x :: r => if x.ptr = p then { x with terms := x.terms ++ [v] } :: r else x :: addTerm r g e v

/-! The home. -/

/-- The virtual tile whose network interface receives an access at its home (R190, R375): the tile named, the tile of slot 0 for die
commons, and for space 5 any tile of the home die, a free value (log 2). -/
def State.receiver (s : State) (home : Nat) (p : Word) : Nat × State :=
  if pSpc p = 5 then
    let (n, s) := s.draw
    (8 * home + (Config.freeWord n).toNat % 8, s)
  else (if pSpc p = 3 then 8 * home else pTile p, s)

/-- What a home answers when it does not perform an access. -/
structure HomeFault where
  cause : Cause
  detail : Nat

/-- The checks that depend on the home's state (R189), made by the protection unit of tile `unit` and the interface `ifc` of the home
die: the flat address. `own` is the core whose TCM space 0 is; `taken`: the access was accepted before its stack's hand-over closed (R395). -/
def State.homeAddr (s : State) (own : CoreId) (unit ifc home : Nat) (sup taken : Bool) (p : Word) (n : Nat) (k : AKind) : Except (HomeFault × State) (Nat × State) := do
  if (pSpc p == 1 || pSpc p == 2) && s.slotGone (pTile p) then .error (⟨.space, 2⟩, s)
  else if s.spaceHomeFault p n then .error (⟨.space, 0⟩, s)
  else if pSpc p == 5 && pPair p && (((s.stack home (pStack p)).flight && !taken) || (s.stack home (pStack p)).owner != home) then
    .error (⟨.stackNotOwned, 0⟩, s)
  else if !s.permitted unit sup (pSpc p) (pOff p) n k || (pSpc p == 1 && s.bankHit (pTile p) (pOff p) n) then .error (⟨.protect, 0⟩, s)
  else
    let (a, s) ← (if pSpc p = 5 then
        match s.translate ifc home (pVa p) ⟨k, false⟩ with
        | .ok (a, _, s') => .ok (a, s')
        | .error e => .error (⟨e, 0⟩, s)
      else .ok (s.flatOf own p, s) : Except (HomeFault × State) (Nat × State))
    if s.poisoned a n && (k.reads || decide (a % 8 ≠ 0) || decide (n % 8 ≠ 0)) then .error (⟨.uncorrectable, 0⟩, s) else .ok (a, s)

/-- Perform a remote access at its home: the value read, zero for a PUT (R186, R187, R191, R327), and the access as it goes back, with what was
ordered before it and what it met (R318). -/
def State.performRemote (s : State) (r : Remote) (a : Nat) : Nat × Remote × State :=
  let k : AKind := if r.kind = 0 then .read else if r.kind = 1 then .write else .rmw
  let met := s.met a (a + r.size)
  let (hb, s) := (if s.confOn r.issuer then s.place r.issuer r.ea r.tag a (a + r.size) k false (Ord.ofMod r.md r.sc) r.hb r.rels
    else ([], if k = .write then s.trimRels a (a + r.size) else s) : HbInfo × State)
  let s := s.touch r.issuer a r.size
  let back : Remote := { r with hb := hb, rels := met }
  let old := s.load a r.size
  match r.kind with
  | 0 => (old, back, s)
  | 1 => (0, back, s.poke a (natLe r.size r.data.toNat))
  | _ =>
    match (if r.fn = 9 then s.regOf r.launch r.target else none) with
    | some g =>
      if g.et = 6 then
        (old, back, s.modLaunch r.launch (fun l => { l with sums := addTerm l.sums g ((ptrOff r.target - ptrOff g.ptr) / 4) (r.data.setWidth 32) }))
      else (old, back, s.poke a (natLe r.size (amoOp r.fn (8 * r.size) old (r.data.toNat % 2 ^ (8 * r.size)))))
    | none => (old, back, s.poke a (natLe r.size (amoOp r.fn (8 * r.size) old (r.data.toNat % 2 ^ (8 * r.size)))))

/-! Links between dies (R438, R453, R455). -/

/-- The link has lost every 8-lane group. -/
def State.linkLost (s : State) (vd e : Nat) : Bool := natBits (s.linkControl vd e) 6 1 == 1

/-- The route of class 0 from die d to another crosses a lost link, within n hops. -/
def State.routeLost (s : State) (dst : Nat) : Nat → Nat → Bool
  | 0, _ => false
  | n + 1, d =>
    if d = dst then false
    else
      match s.nextDie 0 d dst with
      | none => true
      | some (e, x) => s.linkLost d e || s.routeLost dst n x

/-- The route of class 0 between two dies, or that of the answer, crosses a lost link (R455). A lane is lost only after failed replays (R430). -/
def State.pathLost (s : State) (src dst : Nat) : Bool :=
  s.dies.any (fun d => !d.2.fails.isEmpty) && (s.routeLost dst 64 src || s.routeLost src 64 dst)

/-- A context learns what a remote access of it was ordered after, when its value or acknowledgement comes (R307, R318). -/
def State.learnRemote (s : State) (r : Remote) : State :=
  if !s.confOn r.issuer then s
  else
    let acq := r.kind == 2 && (Ord.ofMod r.md r.sc).acq
    if r.returning then s.learn r.issuer true acq r.rels r.hb
    else s.modHb r.issuer (fun h => { h with all := h.all.join r.hb, info := if acq then h.info.join r.hb else h.info,
                                             rds := if r.kind = 2 then h.rds.join r.hb else h.rds,
                                             reads := if r.kind = 2 then r.rels ++ h.reads else h.reads })

/-- The identity of a network interface (R190). -/
def ifcIdent (vt : Nat) : Nat := identOf vt 0xfe 0xf

/-- A home records a failed remote access or command row (Table 112 kind 1). -/
def State.recordFail (s : State) (home : Nat) (addr : Word) (tag ident cause launch : Nat) : State :=
  (s.record home { addr := addr, tag := tag, ident := ident, cause := cause, kind := 1, launch := launch }).2

/-- The context's remote error record takes the first failure (R190). A CWAIT on the counter it names, at which the context already waits,
reports it (R195). -/
def State.fillErr (s : State) (c : CtxId) (e : RemErr) : State :=
  let s := s.modCtx c (fun k => if k.err.isNone then { k with err := some e } else k)
  match (s.ctx c).st with
  | .waiting (.counter n _) _ =>
    if (s.ctx c).err == some e && e.ctr == some n && (match s.standing c with | some i => i.row == .cwait | none => false) then s.rouse c else s
  | _ => s

/-- The acknowledgement of a posted access reaches its core (R168, R189): the signal carries the error bit of a failure. -/
def State.ackPosted (s : State) (r : Remote) : State :=
  let err := decide (r.fault ≠ 0)
  let s := s.modCtx r.issuer (fun k => { k with posted := k.posted - 1 })
  let s := if err then
      s.fillErr r.issuer { ctr := r.ctr.map (fun x => x.1), cause := r.fault, addr := r.ea, tag := r.tag, ident := r.ident }
    else s
  let s := s.learnRemote r
  match r.ctr with
  | some (n, inc) => (if s.confOn r.issuer then s.reinCarry r.issuer.core n r.hb else s).signal r.issuer.core n inc err
  | none => s

/-- A trap of a waiting instruction at its head (R171, R360); in a gang it ends the gang (R234). -/
def State.trapAt (s : State) (c : CtxId) (t : Tr) : State :=
  let lead := s.leadOf c
  let ms := s.members lead
  s.deliver lead ms (ms.idxOf c) c t

/-- A trap of a waiting context cannot be taken yet, because the stores of its frame are held back (R183, R362). -/
def State.trapHeld (s : State) (c : CtxId) : Bool := (s.pushHeld (s.leadOf c)).isSome

end Sys2Proof.Machine
end

