-- ==== Sys2Proof/Machine/LoadStore.lean ====
section
/-! DEFINITION. Loads and stores: majors 0x38, 0x39 (R164–R177). -/

namespace Sys2Proof.Machine

open Sys2Proof

/-- The request of a form B access. -/
def Env.reqB (e : Env) (s : State) (n align : Nat) (k : AKind) (spaces : List Nat) (plain : Bool) : Req :=
  { base := e.a s, ofs := ofsB e.o, n := n, align := align, k := k, spaces := spaces, plain := plain, held := true }

/-- The request of a form C access. -/
def Env.reqC (e : Env) (s : State) (n align : Nat) (k : AKind) (spaces : List Nat) (plain : Bool) : Req :=
  { base := e.a s, ofs := ofsC e.o, n := n, align := align, k := k, spaces := spaces, plain := plain, held := true }

/-- LD of a size (R172, R176): space 4 is accepted by the 4-byte forms. -/
def bodyLd (n : Nat) (ext : Nat → Word) : Body := fun e s => do
  let (b, s) ← s.loadBytes e.me (e.reqB s n n .read (if n = 4 then [0, 1, 2, 3, 4, 5] else [0, 1, 2, 3, 5]) true)
  e.put s (ext (leNat b))

/-- Sign extension of n bits. -/
def sext (n v : Nat) : Word := BitVec.ofInt 64 (signedOf n v)
def zext (v : Nat) : Word := BitVec.ofNat 64 v

/-- ST of a size (R172). -/
def bodySt (n : Nat) : Body := fun e s => do
  let q := e.reqB s n n .write spStore true
  let (a, s) ← s.coreAddr e.me q
  .ok (.next, s.writeAt e.me q.ea a (natLe n (e.dv s).toNat) true Ord.plain)

/-! Typed accesses (R173–R175). -/

/-- Elements in the addressing unit or frame of a format (R175); 1 where s[S2] is not read. -/
def unitElems (p : Word) : Nat :=
  match pFmt p with
  | 11 => 4 | 12 => 4 | 13 => 2
  | f => if 16 ≤ f then blockLen (pBlk p) else 1

/-- The element index j (R175). -/
def Env.elemIdx (e : Env) (s : State) : Nat := if unitElems (e.a s) = 1 then 0 else (e.s2v s).toNat

/-- FORMAT and OFFSET_OVERFLOW of a typed access beyond those of the pointer (R173–R175), in the order of R170. -/
def Env.typedFault (e : Env) (s : State) (q : Req) (bad : List Nat) : Except Stop Unit := do
  let p := e.a s
  if pFmt p = 15 ∧ s.feat0 5 = false then e.trap s .featureOff q.ea
  else if fmtOk p = false ∨ bad.contains (pFmt p) then e.trap s .format q.ea
  else if unitElems p ≤ e.elemIdx s then e.trap s .offsetOverflow p
  else .ok ()

/-- The w-bit element j of packed bytes (R97). -/
def packed (b : List Byte) (w j : Nat) : Nat := leNat b / 2 ^ (w * j) % 2 ^ w

/-- The decode table entry of a code (R108). -/
def State.decEntry (s : State) (c : CoreId) (n : Nat) : Nat := ((s.core c).dec.get n 0).toNat

/-- Where a typed load of the context finds NaN payload fields (R116). -/
def Env.nan6 (e : Env) (cls idx : Nat) : Nat := genNaN cls idx e.me.ctx 6

/-- The value LD.fmt writes for the unit's bytes (Table 61), with flags and SEED. -/
def Env.typedValue (e : Env) (s : State) (b : List Byte) : Word × FFlags × BitVec 32 :=
  let p := e.a s
  let sd := (e.k s).seed
  let j := e.elemIdx s
  let v := leNat b
  match pFmt p with
  | 1 => (sext 8 v, 0, sd)
  | 2 => (zext v, 0, sd)
  | 3 => (sext 16 v, 0, sd)
  | 4 => (sext 32 v, 0, sd)
  | 5 => (zext v, 0, sd)
  | 6 => (zext v, 0, sd)
  | 14 => (zext (if v = 255 then e.nan6 2 0 else finishRne .f32 (.fin false 1 ((v : Int) - 127) false)), 0, sd)
  | 15 => (zext (s.decEntry e.me.core v * 2 ^ 13), 0, sd)
  | f =>
    if 16 ≤ f then
      let x := mxVal f (v % 256) (e.nan6 2 j) (e.nan6 3 j) (packed (b.drop 1) (elemWidth f) j)
      let r := convert .f32 (e.k s).mode.toNat false sd x
      (zext r.bits, r.fl, r.seed)
    else
      match fmtOf f with
      | some g => let r := g.widen (e.nan6 3 0) (packed b g.width j); (zext r.1, r.2, sd)
      | none => (0, 0, sd)

/-- LD.fmt (R173). -/
def bodyLdFmt : Body := fun e s => do
  let p := e.a s
  let n := unitSize (pFmt p) (pBlk p)
  let q := e.reqB s n (unitAlign (pFmt p)) .read (if pFmt p = 6 ∨ pFmt p = 4 then spLoad else spStore) true
  e.typedFault s q [0]
  let (b, s) ← s.loadBytes e.me q
  let (v, fl, sd) := e.typedValue s b
  e.put (s.modCtx e.me (fun k => { k with ff := k.ff ||| fl, seed := sd })) v

/-- Replace the w-bit element j of packed bytes. -/
def repack (b : List Byte) (w j x : Nat) : List Byte :=
  let v := leNat b
  let old := v / 2 ^ (w * j) % 2 ^ w
  natLe b.length (v - old * 2 ^ (w * j) + x % 2 ^ w * 2 ^ (w * j))

/-- The bytes ST.fmt writes over the unit's old bytes (R174), with flags and SEED. -/
def Env.typedStore (e : Env) (s : State) (old : List Byte) : List Byte × FFlags × BitVec 32 :=
  let p := e.a s
  let k := e.k s
  let x := e.dv s
  let sat (lo hi : Int) (n : Nat) : List Byte := natLe n (wrapTo (8 * n) (max lo (min hi x.toInt)))
  match pFmt p with
  | 1 => (sat (-128) 127 1, 0, k.seed)
  | 2 => (sat 0 255 1, 0, k.seed)
  | 3 => (sat (-32768) 32767 2, 0, k.seed)
  | 4 => (sat (-2147483648) 2147483647 4, 0, k.seed)
  | 5 => (natLe 8 x.toNat, 0, k.seed)
  | 6 => (natLe 4 x.toNat, 0, k.seed)
  | 15 => let r := tblEncode (s.decEntry e.me.core) (f32 (fbits32 x)); (natLe 1 r.1, r.2, k.seed)
  | f =>
    match fmtOf f with
    | some g =>
      let r := convert g k.mode.toNat false k.seed (f32 (fbits32 x))
      (if g.width < 8 then repack old g.width (e.elemIdx s) r.bits else natLe (g.width / 8) r.bits, r.fl, r.seed)
    | none => (old, 0, k.seed)
where
  fbits32 (x : Word) : Nat := x.toNat % 2 ^ 32

/-- ST.fmt (R174): a sub-byte element is written into its unit, whose other elements are read (R170 step 12). -/
def bodyStFmt : Body := fun e s => do
  let p := e.a s
  let n := unitSize (pFmt p) (pBlk p)
  let q := e.reqB s n (unitAlign (pFmt p)) .write spStore true
  e.typedFault s q [0, 14, 16, 17, 18, 19, 20, 21]
  let (l, s) ← s.checkWhole e.me q
  trapIf ((pFmt p == 11 || pFmt p == 12 || pFmt p == 13) && l.any (fun x => s.poisoned x.2 x.1.n)) (Cause.at_ .uncorrectable q.ea) s
  let (b, fl, sd) := e.typedStore s (l.flatMap (fun x => s.bytes x.2 x.1.n))
  let s := s.modCtx e.me (fun k => { k with ff := k.ff ||| fl, seed := sd })
  .ok (.next, s.writeSegs e.me Ord.plain l b)

/-- LD.u8 (R172). -/
def execLdU8 (s : State) : Out := .next (issue .ldU8 (bodyLd 1 zext) s)

/-- LD.s8 (R172). -/
def execLdS8 (s : State) : Out := .next (issue .ldS8 (bodyLd 1 (sext 8)) s)

/-- LD.u16 (R172). -/
def execLdU16 (s : State) : Out := .next (issue .ldU16 (bodyLd 2 zext) s)

/-- LD.s16 (R172). -/
def execLdS16 (s : State) : Out := .next (issue .ldS16 (bodyLd 2 (sext 16)) s)

/-- LD.u32 (R172). -/
def execLdU32 (s : State) : Out := .next (issue .ldU32 (bodyLd 4 zext) s)

/-- LD.s32 (R172). -/
def execLdS32 (s : State) : Out := .next (issue .ldS32 (bodyLd 4 (sext 32)) s)

/-- LD.64 (R172). -/
def execLd64 (s : State) : Out := .next (issue .ld64 (bodyLd 8 zext) s)

/-- LD.fmt (R173). -/
def execLdFmt (s : State) : Out := .next (issue .ldFmt bodyLdFmt s)

/-- ST.8 (R172). -/
def execSt8 (s : State) : Out := .next (issue .st8 (bodySt 1) s)

/-- ST.16 (R172). -/
def execSt16 (s : State) : Out := .next (issue .st16 (bodySt 2) s)

/-- ST.32 (R172). -/
def execSt32 (s : State) : Out := .next (issue .st32 (bodySt 4) s)

/-- ST.64 (R172). -/
def execSt64 (s : State) : Out := .next (issue .st64 (bodySt 8) s)

/-- ST.fmt (R174). -/
def execStFmt (s : State) : Out := .next (issue .stFmt bodyStFmt s)

end Sys2Proof.Machine
end

