-- ==== Sys2Proof/Machine/Atomic.lean ====
section
/-! DEFINITION. Acquire, release, fences and atomics within a die, full/empty words: majors 0x3a–0x41 (R178–R185). -/

namespace Sys2Proof.Machine

open Sys2Proof

/-- Bytes of SZ (R79). -/
def szBytes (o : Fields) : Nat := 2 ^ o.sz.toNat

/-- LDA (R178). -/
def bodyLda : Body := fun e s => do
  let n := szBytes e.o
  let q := e.reqC s n n .read spStore false
  let (a, s) ← s.coreAddr e.me q
  let (v, s) := s.readAt e.me q.ea a n false ⟨true, false, e.o.sc.toNat⟩
  e.put s (zext v)

/-- STL (R178). -/
def bodyStl : Body := fun e s => do
  let n := szBytes e.o
  let q := e.reqC s n n .write spStore false
  let (a, s) ← s.coreAddr e.me q
  e.relWait s e.o.sc.toNat
  .ok (.next, s.writeAt e.me q.ea a (natLe n (e.dv s).toNat) false ⟨false, true, e.o.sc.toNat⟩)

/-- The ordering MOD and SC give an atomic. -/
def Env.ord (e : Env) : Ord := Ord.ofMod e.o.md.toNat e.o.sc.toNat

/-- AMO (R181, Table 62). -/
def bodyAmo (fn : Nat) : Body := fun e s => do
  let n := szBytes e.o
  let q := e.reqC s n n .rmw spStore false
  let (a, s) ← s.coreAddr e.me q
  if e.ord.rel then e.relWait s e.ord.scope else pure ()
  let b := (e.s2v s).toNat % 2 ^ (8 * n)
  let (old, s) := s.updateAt e.me q.ea a n e.ord (fun m => amoOp fn (8 * n) m b)
  e.put s (oldValue n old)

/-- CAS (R182): a failed comparison writes nothing and orders as MOD states; it is a read (R304), so it publishes nothing. -/
def bodyCas : Body := fun e s => do
  let n := szBytes e.o
  let q := e.reqC s n n .rmw spStore false
  let (a, s) ← s.coreAddr e.me q
  if e.ord.rel then e.relWait s e.ord.scope else pure ()
  let cmp := (e.s2v s).toNat % 2 ^ (8 * n)
  let new := (e.s3v s).toNat % 2 ^ (8 * n)
  if s.load a n = cmp then
    let (old, s) := s.updateAt e.me q.ea a n e.ord (fun _ => new)
    e.put s (oldValue n old)
  else
    let s := (s.undoLog e.me a n false).access e.me q.ea a (a + n) .read false e.ord
    e.put s (oldValue n (s.load a n))

/-- FENCE (R179): FN 0 full, 1 acquire, 2 release. The acquire form orders the loads within posted RAMOs. -/
def bodyFence (fn : Nat) : Body := fun e s => do
  if fn = 1 then
    if 1 ≤ e.o.sc.toNat ∧ s.unperformed e.me (fun x => x.kind == 2) = true then .error (.wait .earlier s) else pure ()
  else e.relWait s e.o.sc.toNat
  .ok (.next, s.fenceOrder e.me fn e.o.sc.toNat)

/-- XFENCE (R180): every access of the paths of P that it orders is performed before it in the model; with the core path in P the
context's posted accesses are waited for as in a fence. -/
def bodyXfence : Body := fun e s => do
  if e.o.imm.getLsbD 0 then e.relWait s e.o.sc.toNat else pure ()
  .ok (.next, s.crossOrder e.me (e.o.imm.toNat % 64) (e.o.imm.toNat / 256 % 64))

/-! Full/empty words (R184, R185). -/

/-- The tag lets a request be performed. -/
def feReady (full : Bool) : FeKind → Bool
  | .fill _ => !full
  | _ => full

/-- The ordering of LDFE and STFE (R184). -/
def feOrd : Ord := ⟨true, true, 3⟩

/-- A word is filled by a context: its data, then its tag. -/
def State.feFill (s : State) (c : CtxId) (ea : Word) (w : Nat) (v : Word) : State :=
  let b := natLe 8 v.toNat
  ((s.noteWrite c ea (w * 8) b).poke (w * 8) b).setFull w true

/-- Perform a full/empty request at its word (R184): a peek is one read, a take and a fill read and write (R304). -/
def State.fePerform (s : State) (r : FeReq) : State :=
  let a := r.word * 8
  match r.kind with
  | .peek =>
    let s := (s.touch r.ctx a 8).access r.ctx r.ea a (a + 8) .read false feOrd
    s.ws r.ctx r.d (zext (s.load a 8))
  | .take =>
    let s := (s.undoLog r.ctx a 8 false).access r.ctx r.ea a (a + 8) .rmw false feOrd
    (s.ws r.ctx r.d (zext (s.load a 8))).setFull r.word false
  | .fill v => ((s.undoLog r.ctx a 8 false).access r.ctx r.ea a (a + 8) .rmw false feOrd).feFill r.ctx r.ea r.word v

def FeKind.isPeek : FeKind → Bool
  | .peek => true
  | _ => false

/-- The next request a word's tag lets be performed: every peek first, then the earliest take, or the earliest fill. -/
def State.feNext (s : State) (w : Nat) : Option FeReq :=
  let q := s.feq.filter (fun r => r.word == w && feReady (s.isFull w) r.kind)
  match q.find? (fun r => r.kind.isPeek && (s.ctx r.ctx).gang.isNone) with
  | some r => some r
  | none => match q.find? (fun r => r.kind.isPeek) with | some r => some r | none => q.head?

/-- Complete the waiting requests that a changed tag lets be performed (R185); each completion removes a request. The request of a gang's
member is performed with those of the other members, when its leader looks again (R199, R234); until then it keeps its turn. -/
def State.feServe (s : State) (w : Nat) : Nat → State
  | 0 => s
  | n + 1 =>
    match s.feNext w with
    | none => s
    | some r =>
      if (s.ctx r.ctx).gang.isSome then s.rouse r.ctx
      else ((({ s with feq := s.feq.erase r } : State).fePerform r).finishWaiting r.ctx).feServe w n

/-- The request of LDFE and STFE (R184): 8 bytes, die-local, spaces 0–3; its checks, and the word. The release at die scope waits for the
context's posted accesses. -/
def Env.feWord (e : Env) (s : State) (k : AKind) : Except Stop (Nat × State) := do
  let (a, s) ← s.coreAddr e.me (e.reqB s 8 8 k spTag false)
  e.relWait s 3
  pure (a / 8, s)

/-- LDFE and STFE.fill: perform when the tag allows and no earlier request has its turn, else wait in arrival order (R185). -/
def bodyFe (k : AKind) (kind : Env → State → FeKind) : Body := fun e s => do
  let (w, s) ← e.feWord s k
  let ea := (e.reqB s 8 8 k spTag false).ea
  let r : FeReq := { word := w, ea := ea, ctx := e.me, kind := kind e s, d := e.o.d }
  let s := { s with feq := if s.feq.contains r then s.feq else s.feq ++ [r] }
  if feReady (s.isFull w) r.kind && (r.kind.isPeek || s.feNext w == some r) then
    let s := ({ s with feq := s.feq.erase r } : State).fePerform r
    .ok (.next, s.feServe w s.feq.length)
  else .error (.wait (.fullEmpty ea.toNat) s)

/-- STFE.force (R184): one write of the word and its tag (R304). -/
def bodyFeForce : Body := fun e s => do
  let (w, s) ← e.feWord s .write
  let ea := (e.reqB s 8 8 .write spTag false).ea
  let s := ((s.undoLog e.me (w * 8) 8 false).access e.me ea (w * 8) (w * 8 + 8) .write false feOrd).feFill e.me ea w (e.dv s)
  .ok (.next, s.feServe w s.feq.length)

/-- STFE.clear (R184): one write, of the tag alone (R304). -/
def bodyFeClear : Body := fun e s => do
  let (w, s) ← e.feWord s .write
  let ea := (e.reqB s 8 8 .write spTag false).ea
  let s := ((s.undoLog e.me (w * 8) 8 false).access e.me ea (w * 8) (w * 8 + 8) .write false feOrd).setFull w false
  .ok (.next, s.feServe w s.feq.length)

/-- LDA (R178). -/
def execLda (s : State) : Out := .next (issue .lda bodyLda s)

/-- STL (R178). -/
def execStl (s : State) : Out := .next (issue .stl bodyStl s)

/-- AMO.add (R181). -/
def execAmoAdd (s : State) : Out := .next (issue .amoAdd (bodyAmo 0) s)

/-- AMO.and (R181). -/
def execAmoAnd (s : State) : Out := .next (issue .amoAnd (bodyAmo 1) s)

/-- AMO.or (R181). -/
def execAmoOr (s : State) : Out := .next (issue .amoOr (bodyAmo 2) s)

/-- AMO.xor (R181). -/
def execAmoXor (s : State) : Out := .next (issue .amoXor (bodyAmo 3) s)

/-- AMO.smin (R181). -/
def execAmoSmin (s : State) : Out := .next (issue .amoSmin (bodyAmo 4) s)

/-- AMO.smax (R181). -/
def execAmoSmax (s : State) : Out := .next (issue .amoSmax (bodyAmo 5) s)

/-- AMO.umin (R181). -/
def execAmoUmin (s : State) : Out := .next (issue .amoUmin (bodyAmo 6) s)

/-- AMO.umax (R181). -/
def execAmoUmax (s : State) : Out := .next (issue .amoUmax (bodyAmo 7) s)

/-- AMO.swap (R181). -/
def execAmoSwap (s : State) : Out := .next (issue .amoSwap (bodyAmo 8) s)

/-- CAS (R182). -/
def execCas (s : State) : Out := .next (issue .cas bodyCas s)

/-- FENCE (R179). -/
def execFence (s : State) : Out := .next (issue .fence (bodyFence 0) s)

/-- FENCE.acq (R179). -/
def execFenceAcq (s : State) : Out := .next (issue .fenceAcq (bodyFence 1) s)

/-- FENCE.rel (R179). -/
def execFenceRel (s : State) : Out := .next (issue .fenceRel (bodyFence 2) s)

/-- XFENCE (R180). -/
def execXfence (s : State) : Out := .next (issue .xfence bodyXfence s)

/-- LDFE.take (R184). -/
def execLdfeTake (s : State) : Out := .next (issue .ldfeTake (bodyFe .rmw (fun _ _ => .take)) s)

/-- LDFE.peek (R184). -/
def execLdfePeek (s : State) : Out := .next (issue .ldfePeek (bodyFe .read (fun _ _ => .peek)) s)

/-- STFE.fill (R184). -/
def execStfeFill (s : State) : Out := .next (issue .stfeFill (bodyFe .rmw (fun e s => .fill (e.dv s))) s)

/-- STFE.force (R184). -/
def execStfeForce (s : State) : Out := .next (issue .stfeForce bodyFeForce s)

/-- STFE.clear (R184). -/
def execStfeClear (s : State) : Out := .next (issue .stfeClear bodyFeClear s)

end Sys2Proof.Machine
end

