-- ==== Sys2Proof/Machine/Remote.lean ====
section
/-! DEFINITION. Remote accesses: majors 0x42–0x44 (R186–R192), and the steps that carry them (R188–R190). -/

namespace Sys2Proof.Machine

open Sys2Proof

/-- The pointer checks a remote access takes at issue (R189): the effective address and the resolved pointer. -/
def Env.remoteEa (e : Env) (s : State) (spaces : List Nat) : Except Stop (Word × Word) := do
  let n := szBytes e.o
  let q := e.reqC s n n .read spaces false
  let ea ← s.lift (s.formEa q)
  let p ← s.lift (s.absolute e.me.core spaces ea)
  trapIf (pSpc p == 4 && n != 4) (Cause.at_ .space ea) s
  trapIf (misaligned p n) (Cause.at_ .misalign ea) s
  pure (ea, p)

/-- The record of a remote access. -/
def Env.remote (e : Env) (s : State) (kind : Nat) (returning : Bool) (fn : Nat) (ea p : Word) : Remote :=
  { kind := kind, returning := returning, size := szBytes e.o, fn := fn, md := e.o.md.toNat, sc := e.o.sc.toNat,
    data := if kind = 1 then e.dv s else e.s2v s, ea := ea, abs := p, issuer := e.me, tag := e.tag s, d := e.o.d,
    ctr := syncSignal e.o, sup := (e.k s).sup, launch := (s.core e.me.core).launchId, stage := 0, fault := 0, detail := 0, ident := 0,
    value := 0, gone := false, taken := false, hb := if s.confOn e.me then s.accessPre e.me (Ord.ofMod e.o.md.toNat e.o.sc.toNat) else [],
    rels := if kind ≠ 0 ∧ s.confOn e.me = true then s.publishes e.me (Ord.ofMod e.o.md.toNat e.o.sc.toNat) else [] }

/-- The rights a remote access needs. -/
def Remote.akind (r : Remote) : AKind := if r.kind = 0 then .read else if r.kind = 1 then .write else .rmw

/-- A remote access checked and performed at its home: `unit` is the tile of the protection unit and the interface. The value read with the
access as it goes back, or why not. -/
def State.remoteRun (s : State) (r : Remote) (unit : Nat) : Except (HomeFault × State) (Nat × Remote × State) := do
  if pSpc r.abs = 4 then
    if s.slotGone (pTile r.abs) then .error (⟨.space, 2⟩, s)
    else if s.neuronFault r.abs then .error (⟨.space, 0⟩, s)
    else if s.neuronPoisoned r.abs then .error (⟨.uncorrectable, 0⟩, s)
    else .ok (leNat (s.neuronBytes r.abs), r, s)
  else
    let (a, s) ← s.homeAddr r.issuer.core unit unit (dieOf unit) r.sup r.taken r.abs r.size r.akind
    .ok (s.performRemote r a)

/-- What an access homed on the issuing die waits for before it is performed: the range scoreboard (R183), and an earlier remote access of the
context that has not been performed (R167, R187). -/
def State.localWait (s : State) (r : Remote) : Option Wait :=
  let c := r.issuer
  let lo := s.sbAddr c.core r.abs
  if pSpc r.abs = 4 then (if s.acquiring c then some .earlier else none)
  else if s.sbHolds c.core lo (lo + r.size) r.akind.writes then some (.range lo (lo + r.size) r.akind.writes r.ea)
  else if s.behindRemote c r.abs r.size then some .earlier
  else none

/-- The value a returning access writes to s[D]: sign-extended for a RAMO of 4 bytes, zero-extended for a GET. -/
def Remote.result (r : Remote) (v : Nat) : Word := if r.kind = 0 then zext v else oldValue r.size v

/-- The bytes it leaves at its home, where `old` stood. -/
def Remote.written (r : Remote) (old : Nat) : List Byte :=
  natLe r.size (if r.kind = 1 then r.data.toNat else amoOp r.fn (8 * r.size) (old % 2 ^ (8 * r.size)) (r.data.toNat % 2 ^ (8 * r.size)))

/-- Its write is noted for the fingerprint of the instruction, once the core knows it (R425). -/
def State.noteRemote (s : State) (r : Remote) (old : Nat) : State := if r.kind = 0 then s else s.noteData r.issuer r.ea (r.written old)

/-- Put a remote access into the fabric, toward the tile of the die named whose interface receives it (R394). -/
def State.sendRemote (s : State) (r : Remote) : Nat × State :=
  let (vt, s) := s.receiver (namedDie r.issuer.core r.abs) r.abs
  (s.nextId, s.inject r.issuer.core.vt vt 0 (.remote r))

/-- Some member of the gang makes this access to another die: then all of them make theirs by the fabric, so that every one is checked before any is
performed (R234). -/
def Env.gangAway (e : Env) (spaces : List Nat) : Bool :=
  let ms := e.s0.members e.me
  decide (1 < ms.length) && ms.any (fun m => !e.s0.predicatedOff m ⟨e.row, e.o⟩ &&
    (match ({ e with me := m } : Env).remoteEa e.s0 spaces with
     | .ok (_, p) => e.s0.home m.core p != dieOf m.core.vt
     | .error _ => false))

/-- A GET or returning RAMO (R186, R187). On the issuing die the checks of the home come first but for a memory error, then DETCONF and what a release
waits for (`pre`), and the range scoreboard, in the order of R170. It begins no earlier than a posted RAMO of the context that acquires has been
performed (R167). -/
def bodyReturning (kind fn : Nat) (spaces : List Nat) (pre : Env → State → Word → Word → Except Stop Unit) : Body := fun e s => do
  let (ea, p) ← e.remoteEa s spaces
  let r := e.remote s kind true fn ea p
  if s.home e.me.core p = dieOf e.me.core.vt ∧ e.gangAway spaces = false then
    match s.remoteRun r e.me.core.vt with
    | .ok (v, back, t) =>
      pre e s ea p
      match s.localWait r with
      | some w => .error (.wait w s)
      | none => e.put ((if kind = 0 then t else (t.commit e.me).noteRemote r v).learnRemote back) (r.result v)
    | .error (f, s') =>
      let held ← (if f.cause = .uncorrectable then (pre e s ea p).map (fun _ => s.localWait r) else .ok none : Except Stop (Option Wait))
      match held with
      | some w => .error (.wait w s)
      | none =>
        let (t, s) := s'.transFault e.me ea (dieOf e.me.core.vt) e.me.core.vt f.cause
        .error (.trap (if f.cause = .pageAbsent then t else { t with detail := f.detail }) s)
  else
    pre e s ea p
    match (if s.home e.me.core p = dieOf e.me.core.vt then s.localWait r else if s.acquiring e.me then some .earlier else none) with
    | some w => .error (.wait w s)
    | none =>
      let s := if kind = 0 then s else s.commit e.me
      let (id, s) := (s.modCtx e.me (fun k => { k with remote := k.remote + 1 })).sendRemote r
      .error (.wait (.value id) s)

/-- The interface whose identity a home names in a remote error: of the tile named in spaces 1 and 2, of slot 0 of the die in space 3, and for
space 5 of the tile that received the access (R190, R375). -/
def Remote.interface (r : Remote) (vt : Nat) : Nat :=
  if pSpc r.abs = 1 ∨ pSpc r.abs = 2 then pTile r.abs else if pSpc r.abs = 3 then 8 * pDie r.abs else vt

/-- A PUT or posted RAMO (R187–R189): at most sixteen outstanding; homed on the issuing die it is performed and acknowledged at once. -/
def bodyPosted (kind fn : Nat) (spaces : List Nat) (pre : Env → State → Word → Word → Except Stop Unit) : Body := fun e s => do
  let (ea, p) ← e.remoteEa s spaces
  pre e s ea p
  if 16 ≤ (e.k s).posted then .error (.wait .posted s)
  else
    let r := e.remote s kind false fn ea p
    let die := dieOf e.me.core.vt
    let here := decide (s.home e.me.core p = die)
    match (if here then s.localWait r else if s.acquiring e.me then some .earlier else none) with
    | some w => .error (.wait w s)
    | none =>
      let s' := (s.commit e.me).modCtx e.me (fun k => { k with posted := k.posted + 1 })
      if here then
        match s'.remoteRun r e.me.core.vt with
        | .ok (v, back, s') => .ok (.async, (s'.noteRemote r v).ackPosted back)
        | .error (f, s'') =>
          if f.cause = .pageAbsent then .ok (.async, ((if kind = 1 then s'.noteRemote r 0 else s').sendRemote r).2)
          else
            let s'' := s''.recordFail die ea r.tag.toNat (identC e.me) f.cause.code r.launch
            .ok (.async, s''.ackPosted { r with fault := f.cause.code, ident := ifcIdent (r.interface e.me.core.vt) })
      else .ok (.async, ((if kind = 1 then s'.noteRemote r 0 else s').sendRemote r).2)

def noPre (_ : Env) (_ : State) (_ _ : Word) : Except Stop Unit := .ok ()

/-- Releases of a RAMO wait as those of an AMO. -/
def preRel (e : Env) (s : State) (_ _ : Word) : Except Stop Unit := if e.ord.rel then e.relWait s e.ord.scope else .ok ()

/-- RAMO.fadd while FPAMO = 1 (R192): outside every registered buffer of the launch, or inside one with ET other than 6. -/
def preFadd (e : Env) (s : State) (ea p : Word) : Except Stop Unit := do
  let q := (absPtr e.me.core p).getD p
  let ok := match s.regOf (s.core e.me.core).launchId q with | some g => g.et == 6 | none => false
  trapIf ((s.core e.me.core).detmode.getLsbD 1 && !ok) (Cause.at_ .detconf ea) s
  preRel e s ea p

/-- RAMO with D = 0 is posted, else returning (R187). -/
def bodyRamo (fn : Nat) (pre : Env → State → Word → Word → Except Stop Unit) : Body := fun e s =>
  if e.o.d = 0 then bodyPosted 2 fn spStore pre e s else bodyReturning 2 fn spStore pre e s

/-! The steps of a remote access. -/

def State.packet (s : State) (id : Nat) : Option Packet := s.net.find? (fun p => p.id == id)
def State.setPacket (s : State) (x : Packet) : State := { s with net := s.net.map (fun p => if p.id = x.id then x else p) }
def State.dropPacket (s : State) (id : Nat) : State := { s with net := s.net.filter (fun p => p.id != id) }

/-- A packet starts from the router where it stands: it is the latest there, and its site is fixed there when it goes to a tile of that die (R402,
R436). -/
def State.restart (s : State) (p : Packet) : State :=
  ({ s with nextId := s.nextId + 1 } : State).setPacket (s.fixSite { p with site := none, sites := [], seq := s.nextId } (dieOf p.at_))

/-- The packet's site is the victim of a rotation of its slot, where it is accepted until COPY (R407). -/
def State.atVictim (s : State) (p : Packet) : Bool :=
  match (s.die (dieOf p.dst)).rot with
  | some r => slotOf p.dst == r.slot && p.site == some r.victim
  | none => false

/-- The packet waits at its destination tile, which takes arrivals (R406–R408); a multicast message has parted (R441). -/
def State.landed (s : State) (p : Packet) : Bool :=
  p.at_ == p.dst && p.retry.isNone && (!(s.tile p.dst).stopped || s.atVictim p) && (match p.pl with | .msg m _ _ => !m.mc | _ => true)

/-- An earlier remote access of the same context to overlapping bytes has not been performed (R187). -/
def State.remoteBehind (s : State) (id : Nat) (r : Remote) : Bool :=
  s.net.any (fun p => decide (p.id < id) && (match p.pl with
    | .remote x => x.issuer == r.issuer && decide (x.stage < 2) && s.sameBytes x.target x.size r.target r.size
    | _ => false))

/-- The answer of a home starts on its way back. -/
def State.answerRemote (s : State) (p : Packet) (r : Remote) : State :=
  s.restart { p with at_ := p.dst, dst := r.issuer.core.vt, pl := .remote { r with stage := 2 } }

/-- A remote access is checked and performed at its home, or fails there (R188–R190, R392). -/
def State.atHome (s : State) (p : Packet) (r : Remote) : State :=
  let home := dieOf p.dst
  let id := ifcIdent p.dst
  match s.remoteRun r p.dst with
  | .ok (v, back, s) => s.answerRemote p { back with value := r.result v, ident := id }
  | .error (f, s) =>
    if f.cause = .pageAbsent then
      let fr : FaultRec := { addr := r.ea, tag := r.tag.toNat, ident := identC r.issuer, cause := f.cause.code, kind := 0, launch := r.launch }
      let (tok, s) := s.record home fr
      if r.returning then s.answerRemote p { r with fault := f.cause.code, detail := tok, ident := id }
      else if tok = 255 then s
      else s.setPacket { p with pl := .remote { r with stage := 1, detail := tok, taken := true } }
    else
      let s := if r.returning then s else s.recordFail home r.ea r.tag.toNat (identC r.issuer) f.cause.code r.launch
      s.answerRemote p { r with fault := f.cause.code, detail := f.detail, ident := id }

/-- The trap a home's answer gives a returning access (R171, R190). -/
def Remote.trap (r : Remote) : Tr :=
  let c : Cause := match r.fault with
    | 0x07 => .space | 0x08 => .protect | 0x09 => .pageAbsent | 0x0a => .pagePerm | 0x0b => .tablePlacement | 0x0c => .leaseSkew
    | 0x0d => .stackNotOwned | _ => .uncorrectable
  { cause := c, val := r.ea, detail := r.detail, other := if c = .pageAbsent then r.ident else 0, obyte := 0 }

/-- The remote access of packet k, when it has arrived. -/
def State.arrivedRemote (s : State) (k stage : Nat) : Option (Packet × Remote) :=
  match s.packet k with
  | some p => match p.pl with
    | .remote r => if s.landed p && r.stage == stage then some (p, r) else none
    | _ => none
  | none => none

/-- The owner to which the die named forwards an access through the pair window: it does not own the stack, and no hand-over of it is in
flight, or it had accepted the access before (R394, R395). -/
def State.forwardsTo (s : State) (p : Packet) (r : Remote) : Option Nat :=
  let w := s.stack (dieOf p.dst) (pStack r.abs)
  if pSpc r.abs = 5 ∧ pPair r.abs = true ∧ w.owner ≠ dieOf p.dst ∧ (w.flight = false ∨ r.taken = true) then some w.owner else none

/-- The returning accesses of a gang's present instruction that have not been performed, with their packets, in the order of its members (R234). -/
def State.gangAccesses (s : State) (r : Remote) : List (Packet × Remote) :=
  if !r.returning || r.gone || (s.ctx r.issuer).gang.isNone then []
  else (s.members (s.leadOf r.issuer)).flatMap (fun m => s.net.filterMap (fun p => match p.pl with
    | .remote x => if x.issuer = m ∧ x.returning = true ∧ x.gone = false ∧ x.stage = 0 then some (p, x) else none
    | _ => none))

/-- The accesses of a gang meet their homes together, once each may be performed: all of them are, or none when one fails, and the lowest-numbered
member's failure is answered (R234). -/
def State.gangAtHome (s : State) (l : List (Packet × Remote)) : State :=
  if !l.all (fun x => s.landed x.1 && !s.remoteBehind x.1.id x.2 && (s.forwardsTo x.1 x.2).isNone) then s
  else
    match l.find? (fun x => match s.remoteRun x.2 x.1.dst with | .ok _ => false | .error _ => true) with
    | some (p, r) => l.foldl (fun t x => if x.1.id = p.id then t else t.answerRemote x.1 x.2) (s.atHome p r)
    | none => l.foldl (fun t x => t.atHome x.1 x.2) s

def State.remoteAtHome (s : State) (k : Nat) : State :=
  match s.arrivedRemote k 0 with
  | some (p, r) =>
    if s.remoteBehind k r then s
    else if 1 < (s.gangAccesses r).length ∧ (s.forwardsTo p r).isNone = true then s.gangAtHome (s.gangAccesses r)
    else
      match s.forwardsTo p r with
      | some d =>
        let (vt, s) := s.receiver d r.abs
        s.restart { p with dst := vt, pl := .remote { r with taken := true } }
      | none => s.atHome p r
  | none => s

def State.remoteAck (s : State) (k : Nat) : State :=
  match s.arrivedRemote k 2 with
  | some (_, r) => if r.returning then s else if r.gone then s.dropPacket k else (s.dropPacket k).ackPosted r
  | none => s

/-- The value of a GET or returning RAMO reaches its context, or the home's failure is trapped at the instruction. -/
def State.valueReturn (s : State) (k : Nat) : State :=
  match s.arrivedRemote k 2 with
  | some (_, r) =>
    if !r.returning then s
    else if r.gone then s.dropPacket k
    else if decide (r.fault ≠ 0) && s.trapHeld r.issuer then s
    else
      let s := (s.dropPacket k).modCtx r.issuer (fun x => { x with remote := x.remote - 1 })
      if r.fault ≠ 0 then s.trapAt r.issuer r.trap else (((s.noteRemote r r.value.toNat).learnRemote r).ws r.issuer r.d r.value).finishWaiting r.issuer
  | none => s

/-- GET (R186). -/
def execGet (s : State) : Out := .next (issue .get (bodyReturning 0 0 spLoad noPre) s)

/-- PUT (R187). -/
def execPut (s : State) : Out := .next (issue .put (bodyPosted 1 0 spStore noPre) s)

/-- RAMO.add (R187). -/
def execRamoAdd (s : State) : Out := .next (issue .ramoAdd (bodyRamo 0 preRel) s)

/-- RAMO.and (R187). -/
def execRamoAnd (s : State) : Out := .next (issue .ramoAnd (bodyRamo 1 preRel) s)

/-- RAMO.or (R187). -/
def execRamoOr (s : State) : Out := .next (issue .ramoOr (bodyRamo 2 preRel) s)

/-- RAMO.xor (R187). -/
def execRamoXor (s : State) : Out := .next (issue .ramoXor (bodyRamo 3 preRel) s)

/-- RAMO.smin (R187). -/
def execRamoSmin (s : State) : Out := .next (issue .ramoSmin (bodyRamo 4 preRel) s)

/-- RAMO.smax (R187). -/
def execRamoSmax (s : State) : Out := .next (issue .ramoSmax (bodyRamo 5 preRel) s)

/-- RAMO.umin (R187). -/
def execRamoUmin (s : State) : Out := .next (issue .ramoUmin (bodyRamo 6 preRel) s)

/-- RAMO.umax (R187). -/
def execRamoUmax (s : State) : Out := .next (issue .ramoUmax (bodyRamo 7 preRel) s)

/-- RAMO.swap (R187). -/
def execRamoSwap (s : State) : Out := .next (issue .ramoSwap (bodyRamo 8 preRel) s)

/-- RAMO.fadd (R191, R192). -/
def execRamoFadd (s : State) : Out := .next (issue .ramoFadd (bodyRamo 9 preFadd) s)

/-- Packet k, a remote access that has reached its home, is checked and performed or fails (R189); a die that does not own its stack forwards it (R394). -/
def execRemoteAccessAtHome (s : State) : Out := .next (s.remoteAtHome s.ev.k)

/-- The acknowledgement in packet k reaches its core (R168, R189, R190). -/
def execRemoteAckArrival (s : State) : Out := .next (s.remoteAck s.ev.k)

/-- The answer to a returning access in packet k reaches its context (R186, R187). -/
def execGetValueReturn (s : State) : Out := .next (s.valueReturn s.ev.k)

end Sys2Proof.Machine
end

