-- ==== Sys2Proof/Machine/Gateway.lean ====
section
/-! DEFINITION. Gateway lines (R177, R320, R390, R391, R446) and cache control: majors 0x45, 0x46 (R193, R194). -/

namespace Sys2Proof.Machine

open Sys2Proof

/-- Table 118 holds the latest gateway lease of each shared stack (R390). -/
def State.noteGrant (s : State) (home : Nat) (p : Word) (expiry : Nat) : State :=
  if pPair p then
    let a := flatCommons home (0x7fe2028 + 8 * pStack p)
    s.store a 8 (max (s.load a 8) expiry)
  else s

/-- Fetch a gateway line from its home by the interface of tile `ifc` (R390): the line, or the cause. `code`: for a remote fetch. -/
def State.gwFetch (s : State) (vt ifc : Nat) (p : Word) (code : Bool) (grant : Option Nat) : Except (HomeFault × State) (GwLine × State) := do
  let home := dieOf ifc
  let va := pVa p / 64 * 64
  if s.pathLost (dieOf vt) home then .error (⟨.uncorrectable, 0⟩, s)
  else if pPair p && (s.stack home (pStack p)).flight then .error (⟨.stackNotOwned, 0⟩, s)
  else if (s.tile ifc).uncertain then .error (⟨.leaseSkew, 0⟩, s)
  else if !s.feat0 7 then .error (⟨.pagePerm, 0⟩, s)
  else
    match s.translate ifc home va ⟨if code then .fetch else .read, true⟩ with
    | .error e => .error (⟨e, 0⟩, s)
    | .ok (a, e, s) =>
      if s.poisoned a 64 then .error (⟨.uncorrectable, 0⟩, s)
      else
        let n := pteLease e
        let s := if n = 0 then s else s.noteGrant home p (s.paceAt ifc + leaseNs n)
        let l : GwLine := { home := s.gwHome p, port := s.gwPort (dieOf vt) home, va := va, bytes := s.bytes a 64, expiry := s.paceAt vt + leaseNs n, entry := e,
                            grant := if n = 0 then grant else none }
        .ok (l, s)

/-- The lines one port's gateway cache holds: 4 MiB in lines of 64 bytes (R446). -/
def gwLines : Nat := 65536

/-- Hold a fetched line in place of every other copy of it; a full cache gives its oldest line up (R446). A line that is granted for one access
is not held, and stands beside those of other contexts (R390). -/
def State.keepLine (s : State) (die : Nat) (l : GwLine) : State :=
  let same := fun (x : GwLine) => x.home == l.home && x.va == l.va && (l.grant.isNone || x.grant == l.grant || x.grant.isNone)
  s.modDie die (fun d =>
    let rest := d.gw.filter (fun x => !same x)
    let held := rest.filter (fun x => x.port == l.port && x.grant.isNone)
    { d with gw := l :: (if l.grant.isNone ∧ gwLines ≤ held.length then rest.filter (fun x => some x != held.getLast?) else rest) })

/-- A trap of a fetch at an address: no instruction has issued. An entry through TRAPVEC or UPCALLVEC that fails is a double trap in either mode:
the frame it was to serve stays (R39, R361). A gang disbands (R234); an uncorrectable error rolls an activation back (R423). -/
def State.fetchTrap (s : State) (c : CtxId) (pc : Word) (t : Tr) : State :=
  let ms := s.members c
  if (s.ctx c).entry = .vector then s.doubleTrap c pc t
  else if 1 < ms.length then s.gangTrap c ms 0 c t pc false
  else if t.cause = .uncorrectable ∧ (s.ctx c).mayRollback = true then s.rollback c
  else
    match s.pushHeld c with
    | some w => s.waitAt c w
    | none => s.takeTrap c pc false t

/-- A waiting context's gateway line is fetched: it looks again at its access, or takes the home's failure (R177, R382). -/
def State.lineFill (s : State) (c : CtxId) : State :=
  match (s.ctx c).st with
  | .waiting (.gateway line ea code) _ =>
    let p : Word := BitVec.ofNat 64 (5 * 2 ^ 53 + line)
    let home := s.home c.core p
    let (ifc, s) := (s.rousePath home 64 (dieOf c.core.vt)).receiver home p
    match s.gwFetch c.core.vt ifc p code (some c.key) with
    | .ok (l, s) => (s.keepLine (dieOf c.core.vt) l).rouse c
    | .error (f, s) =>
      let (t, s) := s.transFault c ea home ifc f.cause
      if code then s.fetchTrap c (s.ctx c).pc t else if s.trapHeld c then s else s.trapAt c t
  | _ => s

/-- A gateway line of the die whose lease has run out, or whose capacity is wanted, is dropped (R390, R446). -/
def State.lineExpiry (s : State) (vd k : Nat) : State := s.modDie vd (fun d => { d with gw := d.gw.eraseIdx k })

/-- A cached translation of a tile's interface is dropped (R388). -/
def State.transExpiry (s : State) (vt k : Nat) : State := s.modTile vt (fun t => { t with tcache := t.tcache.eraseIdx k })

/-! FLUSH and PREF. -/

/-- The pointer checks of FLUSH: R170 steps 1–5 (R193), the home outside space 5 the issuing die (Table 58). FLUSH is not marked die-local, so its
SPACE has DETAIL 0 (R165). -/
def Env.lineEa (e : Env) (s : State) : Except Stop Word := do
  let q := { e.reqB s 1 1 .read spLoad false with held := false }
  let ea ← s.lift (s.formEa q)
  let p ← s.lift (s.absolute e.me.core spLoad ea)
  trapIf (pSpc p != 5 && s.home e.me.core p != dieOf e.me.core.vt) (Cause.at_ .space ea) s
  trapIf ((pSpc p == 1 || pSpc p == 2 || pSpc p == 4) && s.slotGone (pTile p)) { cause := .space, val := ea, detail := 2, other := 0, obyte := 0 } s
  trapIf (s.spaceHomeFault p 1 || (pSpc p == 4 && s.neuronFault p)) (Cause.at_ .space ea) s
  pure p

/-- The flat address of the line at a resolved pointer, when it has one: in space 5 as any leaf of its home that maps it gives it. -/
def State.lineFlat (s : State) (c : CtxId) (p : Word) : Option Nat :=
  let base := lineBase p
  if pSpc p = 4 then none
  else if pSpc p = 5 then
    let die := s.home c.core p
    let tree := treeOf (pVa base)
    let root := match tree with | none => s.tcb die 0 | some st => (2 + st) * 2 ^ 37
    match s.walkFrom die tree (walkIdx (pVa base)) 2 root with
    | .ok (_, e) => some (s.leafFlat die (pVa base) e)
    | .error _ => none
  else some (s.flatOf c.core base)

/-- FLUSH reads its line for ordering only (R304). -/
def State.flushOrder (s : State) (c : CtxId) (p : Word) : State :=
  match s.lineFlat c p with
  | some a => if s.confOn c then s.access c p a (a + 64) .read false Ord.plain else s
  | none => s

/-- The forms of FLUSH that act on cached data (R193). -/
inductive FlushKind where
  | wb | wbi | inv
deriving DecidableEq, Repr

/-- What the cache slices of the issuing die do with a line of its memory: they write it back, or drop it. -/
def State.flushSlice (s : State) (k : FlushKind) (a : Nat) : State :=
  if k = .inv then s.dropLine (a / 64) else s.writeBack (fun x => x == a / 64)

/-- FLUSH.wb, .wbi and .inv (R193). It is an access to its line (R304, R320), and waits for a remote access of the context that an access there must
follow (R167, R307 rule 1). -/
def bodyFlush (k : FlushKind) : Body := fun e s => do
  let p ← e.lineEa s
  let die := dieOf e.me.core.vt
  if s.behindRemote e.me (lineBase p) 64 then .error (.wait .earlier s)
  else
    let s := s.flushOrder e.me p
    if pSpc p ≠ 5 then .ok (.next, s)
    else if s.home e.me.core p ≠ die then
      .ok (.next, if k = .wb then s
        else s.modDie die (fun d => { d with gw := d.gw.filter (fun x => !(x.home == s.gwHome p && x.va == pVa p / 64 * 64)) }))
    else .ok (.next, match s.lineFlat e.me p with | some a => s.flushSlice k a | none => s)

/-- FLUSH.code (R75, R193): the copy of the line under its name, and one that came from the same bytes under another. -/
def bodyFlushCode : Body := fun e s => do
  let p ← e.lineEa s
  let key := s.lineKey e.me.core (lineBase p)
  let a := s.lineFlat e.me p
  let drop := fun (x : Nat × CodeLine) => x.1 == key || (a.isSome && x.2.place == a)
  .ok (.next, if pSpc p = 4 then s else s.modCore e.me.core (fun k => { k with code := k.code.filter (fun x => !drop x) }))

/-- PREF.gw (R194): brings a line of a gateway-cacheable page into the gateway cache under its lease; anything else is a no-op. -/
def bodyPrefGw : Body := fun e s =>
  match e.lineEa s with
  | .error _ => .ok (.next, s)
  | .ok p =>
    if pSpc p != 5 || s.home e.me.core p == dieOf e.me.core.vt || s.gwSkew e.me.core.vt (s.home e.me.core p) then .ok (.next, s)
    else
      let (ifc, s) := s.receiver (s.home e.me.core p) p
      match s.gwFetch e.me.core.vt ifc p false none with
      | .ok (l, s') => .ok (.next, if pteLease l.entry = 0 then s else s'.keepLine (dieOf e.me.core.vt) l)
      | .error _ => .ok (.next, s)

/-- FLUSH.wb (R193). -/
def execFlushWb (s : State) : Out := .next (issue .flushWb (bodyFlush .wb) s)

/-- FLUSH.wbi (R193). -/
def execFlushWbi (s : State) : Out := .next (issue .flushWbi (bodyFlush .wbi) s)

/-- FLUSH.inv (R193). -/
def execFlushInv (s : State) : Out := .next (issue .flushInv (bodyFlush .inv) s)

/-- FLUSH.code (R193). -/
def execFlushCode (s : State) : Out := .next (issue .flushCode bodyFlushCode s)

/-- PREF.r (R194): a local line is already where the model reads it. -/
def execPrefR (s : State) : Out := .next (issue .prefR bodyNop s)

/-- PREF.w (R194): as PREF.r. -/
def execPrefW (s : State) : Out := .next (issue .prefW bodyNop s)

/-- PREF.gw (R194). -/
def execPrefGw (s : State) : Out := .next (issue .prefGw bodyPrefGw s)

/-- The line a context waits for arrives at the gateway cache, or its fetch fails (R177, R390). -/
def execGatewayLineFill (s : State) : Out := .next (s.lineFill s.ev.ctx)

/-- Gateway line k of die vd is dropped (R390). -/
def execGatewayLineExpiry (s : State) : Out := .next (s.lineExpiry s.ev.vd s.ev.k)

/-- Cached translation k of tile vt is dropped (R388). -/
def execTranslationExpiry (s : State) : Out := .next (s.transExpiry s.ev.vt s.ev.k)

end Sys2Proof.Machine
end

