-- ==== Sys2Proof/Machine/Rein.lean ====
section
/-! DEFINITION. Rein counter instructions and barriers: majors 0x47–0x4b (R195–R198), and the steps of a barrier sweep (R197). -/

namespace Sys2Proof.Machine

open Sys2Proof

/-- The counter a rein instruction names. -/
def Env.cn (e : Env) : Nat := e.o.imm.toNat % 256

/-- s[S1][15:0]. -/
def Env.a16 (e : Env) (s : State) : Nat := (e.a s).toNat % 65536

/-- CWAIT (R195): a valid record that names the counter is reported first; an E that no valid record names is cleared. -/
def bodyCwait : Body := fun e s => do
  match (e.k s).err with
  | some r => trapIf (r.ctr == some e.cn) r.trap s
  | none => pure ()
  if ((s.core e.me.core).reinAt e.cn).v.toNat < e.a16 s then .error (.wait (.counter e.cn (e.a16 s)) s)
  else .ok (.next, (s.clearE e.me e.cn).reinWait e.me e.cn)

/-- CSIG (R195). It is no access, so its increment orders nothing (R307 rule 2). -/
def bodyCsig : Body := fun e s =>
  let n := e.a16 s
  let s := s.commit e.me
  .ok (.next, if n = 0 then s else s.signal e.me.core e.cn n false)

/-- CSET (R195). -/
def bodyCset : Body := fun e s =>
  let v := BitVec.ofNat 16 (e.a16 s)
  .ok (.next, ((s.commit e.me).modCore e.me.core (fun k => { k with rein := k.rein.set e.cn { (k.reinAt e.cn) with v := v } })).reinClear e.me.core e.cn)

/-- CRD (R195). -/
def bodyCrd : Body := fun e s =>
  let r := (s.core e.me.core).reinAt e.cn
  e.put s (BitVec.ofNat 64 (r.v.toNat + (if r.e then 65536 else 0)))

/-! Barriers. -/

/-- Corners X0, Y0, X1, Y1 of a BARRECT (Table 23). -/
def rectX0 (r : Half) : Nat := r.toNat % 16
def rectY0 (r : Half) : Nat := r.toNat / 16 % 16
def rectX1 (r : Half) : Nat := r.toNat / 256 % 16
def rectY1 (r : Half) : Nat := r.toNat / 4096

/-- The position counts as arrived in the sweeps of a launch and forwards at once: not live, outside that launch, or the shadow of a pair (R197,
R298, R344). -/
def State.passes (s : State) (id : Nat) (c : CoreId) : Bool :=
  !s.livePos (dieOf c.vt) c.pos || (s.core c).launch.isNone || (s.core c).launchId != id ||
    (match (s.core c).tandem with | some t => !t.primary | none => false)

/-- A core's part in the sweeps of a launch: its own barrier state, or the tokens that pass it. -/
def Core.barOf (k : Core) (id : Nat) : BarState :=
  match k.launch with
  | some l => if l.id = id then k.bar else k.thru.get id Core.reset.bar
  | none => k.thru.get id Core.reset.bar

def Core.setBar (k : Core) (id : Nat) (b : BarState) : Core :=
  let pass : Core := { k with thru := if b = Core.reset.bar then k.thru.erase id else k.thru.set id b }
  match k.launch with
  | some l => if l.id = id then { k with bar := b } else pass
  | none => pass

def State.modBar (s : State) (id : Nat) (c : CoreId) (f : BarState → BarState) : State :=
  s.modCore c (fun k => k.setBar id (f (k.barOf id)))

/-- Record an arrival (R196): a release at tile scope. -/
def State.arrive (s : State) (c : CtxId) : State :=
  let i := s.release c
  s.modCore c.core (fun k => { k with bar := { k.bar with arrived := true, hb := k.bar.hb.join i } })

/-- BAR (R196, R198): it completes when the release reaches the core. A remote error is reported before an arrival (R190). BAR is a commit event
whether it arrives or only waits (R421). -/
def bodyBar : Body := fun e s => do
  if (s.core e.me.core).bar.arrived then .error (.wait .bar (if e.row = .bar then s.commit e.me else s))
  else
    e.reportErr s
    e.relWait s 2
    .error (.wait .bar ((s.commit e.me).arrive e.me))

/-- BAR.arrive (R196, R198): issued before the release of its core's last arrival, it waits, once its earlier accesses are performed, and then arrives
for the next episode. -/
def bodyBarArrive : Body := fun e s => do
  if (s.core e.me.core).bar.arrived then
    e.relWait s 2
    .error (.wait .bar s)
  else
    e.reportErr s
    e.relWait s 2
    .ok (.next, (s.commit e.me).arrive e.me)

/-- BAR.wait (R196): after its core's arrival it waits for the release, else it acts as BAR. -/
def bodyBarWait : Body := bodyBar

/-- The position one column to the east or west, one row to the north or south. -/
def east (c : CoreId) : CoreId := ⟨c.vt, c.pos + 1⟩
def north (c : CoreId) : CoreId := ⟨c.vt, c.pos + 12⟩
def west (c : CoreId) : CoreId := ⟨c.vt, c.pos - 1⟩
def south (c : CoreId) : CoreId := ⟨c.vt, c.pos - 12⟩

/-- The rectangle a position forwards by: its own, or that of the neighbour which a passing position stands in (R197). -/
def State.rectOf (s : State) (id : Nat) (c : CoreId) (near : Half) : Half := if s.passes id c then near else (s.core c).barRect

/-- The core has arrived and holds the token of its western neighbour in the row, when it has one. -/
def State.rowDone (s : State) (id : Nat) (c : CoreId) (r : Half) : Bool :=
  let b := (s.core c).barOf id
  (s.passes id c || b.arrived) && (decide (posX c.pos = rectX0 r) || b.west)

/-- A core that has the tokens it needs forwards its own (R197): east within the row; north from the last column of a complete row;
the last core of the last row is complete and starts the release. `near`: the rectangle that passing positions forward by. -/
def State.forwardToken (s : State) (id : Nat) (c : CoreId) (near : Half) : State :=
  let r := s.rectOf id c near
  let x := posX c.pos
  let y := posY c.pos
  let b := (s.core c).barOf id
  if !s.rowDone id c r then s
  else if x < rectX1 r then
    if b.sentEast then s
    else (s.modBar id c (fun b => { b with sentEast := true })).modBar id (east c) (fun n => { n with west := true, hb := n.hb.join b.hb })
  else if rectY0 r < y ∧ b.south = false then s
  else if y < rectY1 r then
    if b.sentNorth then s
    else (s.modBar id c (fun b => { b with sentNorth := true })).modBar id (north c) (fun n => { n with south := true, hb := n.hb.join b.hb })
  else if b.release then s
  else s.modBar id c (fun b => { b with release := true })

/-- A BAR.arrive that has waited for the release arrives for the next episode, or reports the error record its context holds (R198). A gang's looks
again: no member arrives before every member may (R234). -/
def State.arriveLate (s : State) (d : CtxId) : State :=
  if (s.ctx d).gang.isSome then s.rouse d
  else
    match (s.ctx d).err with
    | some e => if s.trapHeld d then s.rouse d else s.trapAt d e.trap
    | none => if (s.core d.core).bar.arrived then s else ((s.commit d).arrive d).finishWaiting d

/-- Contexts of a core that wait at a barrier form: BAR and BAR.wait complete, with what the episode released; BAR.arrive arrives for the
next episode. -/
def State.releaseWaiters (s : State) (c : CoreId) (info : HbInfo) : List Nat → State
  | [] => s
  | i :: r =>
    let d : CtxId := ⟨c, i⟩
    (match (s.ctx d).st, s.standing d with
     | .waiting .bar _, some i => if i.row = Instr.barArrive then s.arriveLate d else (s.acquireInfo d info).finishWaiting d
     | _, _ => s).releaseWaiters c info r

/-- The release of a launch's episode passes a core (R197, R198): its episode ends, its waiting contexts go on, its detector intervals end (R324),
and the release goes on south along the last column and west along each row. A core of another launch only passes it on. -/
def State.passRelease (s : State) (id : Nat) (c : CoreId) (near : Half) : State :=
  let b := (s.core c).barOf id
  if !b.release then s
  else
    let r := s.rectOf id c near
    let give := fun (s : State) (d : CoreId) => s.modBar id d (fun n => { n with release := true, hb := n.hb.join b.hb })
    let s := if rectX0 r < posX c.pos then give s (west c) else s
    let s := if posX c.pos = rectX1 r ∧ rectY0 r < posY c.pos then give s (south c) else s
    let s := s.modBar id c (fun k => { Core.reset.bar with phase := !k.phase })
    if (s.core c).launchId ≠ id ∨ (s.core c).launch.isNone = true then s.modBar id c (fun _ => Core.reset.bar)
    else (allCtx.foldl (fun s i => s.newInterval ⟨c, i⟩) s).releaseWaiters c b.hb allCtx

/-- The rectangle that the positions around a passing position forward by: that of the nearest core of its tile in the launch whose rectangle holds
it. -/
def State.nearRect (s : State) (id : Nat) (c : CoreId) : Half :=
  match (List.range 192).find? (fun p =>
      let d : CoreId := ⟨c.vt, p⟩
      let r := (s.core d).barRect
      !s.passes id d && decide (rectX0 r ≤ posX c.pos ∧ posX c.pos ≤ rectX1 r ∧ rectY0 r ≤ posY c.pos ∧ posY c.pos ≤ rectY1 r)) with
  | some p => (s.core ⟨c.vt, p⟩).barRect
  | none => 0

/-- The launches whose sweeps meet a core: its own first, then those of the tile in which another core's rectangle holds its position. -/
def State.sweepsAt (s : State) (c : CoreId) : List Nat :=
  let own := match (s.core c).launch with | some l => [l.id] | none => []
  let ids := ((List.range 192).filterMap (fun p => ((s.core ⟨c.vt, p⟩).launch).map (fun l => l.id))).eraseDups
  own ++ ids.filter (fun id => !own.contains id && s.nearRect id c != 0)

/-- A core takes its part in the sweep of a launch: its own, or the k-th that meets it. -/
def State.sweep (s : State) (f : State → Nat → CoreId → Half → State) (c : CoreId) (k : Nat) : State :=
  match (s.sweepsAt c)[k]? with
  | some id => f s id c (s.nearRect id c)
  | none => s

/-- CWAIT (R195). -/
def execCwait (s : State) : Out := .next (issue .cwait bodyCwait s)

/-- CSIG (R195). -/
def execCsig (s : State) : Out := .next (issue .csig bodyCsig s)

/-- CSET (R195). -/
def execCset (s : State) : Out := .next (issue .cset bodyCset s)

/-- CRD (R195). -/
def execCrd (s : State) : Out := .next (issue .crd bodyCrd s)

/-- BAR (R196). -/
def execBar (s : State) : Out := .next (issue .bar bodyBar s)

/-- BAR.arrive (R196). -/
def execBarArrive (s : State) : Out := .next (issue .barArrive bodyBarArrive s)

/-- BAR.wait (R196). -/
def execBarWait (s : State) : Out := .next (issue .barWait bodyBarWait s)

/-- A core forwards its barrier token when it may, in the k-th sweep that meets it (R197). -/
def execBarrierToken (s : State) : Out := .next (s.sweep State.forwardToken s.ev.core s.ev.k)

/-- The release of a barrier episode passes a core, in the k-th sweep that meets it (R197, R198). -/
def execBarrierRelease (s : State) : Out := .next (s.sweep State.passRelease s.ev.core s.ev.k)

end Sys2Proof.Machine
end

