-- ==== Sys2Proof/Machine/Sched.lean ====
section
/-! DEFINITION. Starting work inside a core (R350, R351), wakes and limits of waits (R84, R156, R354, R357), and the wait table (R358). -/

namespace Sys2Proof.Machine

open Sys2Proof

/-! Starting work (R350). -/

/-- No task or deque entry starts while the core waits at tandem.on (R297), or its tile is drained, halted or outside (R406). A coupled pair that waits
at tandem.off still starts tasks (R298). -/
def State.mayStart (s : State) (c : CoreId) : Bool :=
  !s.coreStopped c && !(s.tile c.vt).draining && !s.preempting c && (match (s.ctx ⟨c, 0⟩).st with | .waiting .tandem _ => s.coupled c | _ => true)

/-- The first of two tasks by arrival. -/
def earlier (a b : Task) : Task := if b.seq < a.seq then b else a

/-- The earliest arrival among tasks. -/
def firstTask : List Task → Option Task
  | [] => none
  | t :: r => some (r.foldl earlier t)

/-- The work a core starts next (Table 106 ranks 2 to 5): a task, or the bottom deque entry. -/
inductive Work where
  | task (t : Task)
  | entry (d : DqEntry)

def Core.nextWork (k : Core) : Option Work :=
  let q := k.runq.filter k.eligible
  let top := q.foldl (fun m t => max m t.prio) 0
  match firstTask (q.filter (fun t => decide (16 ≤ t.passed))) with
  | some t => some (.task t)
  | none =>
    match firstTask (q.filter (fun t => t.prio == 3)) with
    | some t => some (.task t)
    | none =>
      match k.deque with
      | d :: _ => some (.entry d)
      | [] => (firstTask (q.filter (fun t => t.prio == top))).map .task

/-- What a helper that takes a task receives (R65). -/
def Task.start (t : Task) : Start :=
  let word := fun i => BitVec.ofNat 64 (leNat ((t.payload.drop (8 * i)).take 8))
  { pc := t.handler, src := 0, regs := [word 0, word 1, word 2, word 3, word 4, word 5, t.reply, BitVec.ofNat 64 t.src], origin := .task,
    cls := t.cls, prio := t.prio, task := some t, info := t.hb }

/-- What a helper that takes a deque entry receives (R149). -/
def DqEntry.start (d : DqEntry) : Start :=
  { pc := d.cont, src := 0, regs := [d.frame, d.join, 0, 0, 0, 0, 0, BitVec.ofNat 64 d.src], origin := .deque, cls := 0, prio := 0,
    task := none, info := d.hb }

/-- Start the next piece of work of a core on its lowest free helper. -/
def State.workStart (s : State) (c : CoreId) : State :=
  if !s.mayStart c then s
  else
    match s.freeHelperOf c, (s.core c).nextWork with
    | some h, some (.task t) =>
      let s := s.modCore c (fun k => { (k.pass (some t.seq)) with runq := (k.pass (some t.seq)).runq.filter (fun x => x.seq != t.seq) })
      s.startHelper ⟨c, h⟩ t.start
    | some h, some (.entry d) =>
      let s := s.modCore c (fun k => { (k.pass none) with deque := k.deque.drop 1 })
      s.startHelper ⟨c, h⟩ d.start
    | _, _ => s

/-- Cores of the same launch on the tile whose deque holds an entry, in the order of R351. -/
def State.stealFrom (s : State) (c : CoreId) : Option CoreId :=
  ((List.range 191).map (fun i => (⟨c.vt, (c.pos + 1 + i) % 192⟩ : CoreId))).find? (fun d =>
    decide ((s.core d).launchId = (s.core c).launchId) && (s.core d).launch.isSome && !(s.core d).deque.isEmpty)

/-- The core has a free helper that a stolen entry could use, an empty deque and no eligible task (R351). -/
def State.maySteal (s : State) (c : CoreId) : Bool :=
  let k := s.core c
  s.mayStart c && (s.freeHelperOf c).isSome && k.deque.isEmpty && !k.runq.any k.eligible

/-- Steal the top entry of the first deque that holds one and start it. -/
def State.stealProbe (s : State) (c : CoreId) : State :=
  if !s.maySteal c then s
  else
    match s.stealFrom c, s.freeHelperOf c with
    | some v, some h =>
      match (s.core v).deque.getLast? with
      | some d => (s.modCore v (fun k => { k with deque := k.deque.dropLast })).startHelper ⟨c, h⟩ d.start
      | none => s
    | _, _ => s

/-- The arrival of a task of an enabled class in the run queue wakes the sleepers of the core (R156). -/
def State.wakeFor (s : State) (c : CoreId) (cls : Nat) : State := if (s.core c).classEn.getLsbD cls then s.wakeCore c else s

/-- Tasks of the overflow area enter the run queue of their core in arrival order (R31). -/
def State.reenter (s : State) (c : CoreId) : State :=
  let k := s.core c
  match (s.tile c.vt).overflow.find? (fun o => o.1 == c.pos) with
  | some o =>
    if 32 ≤ k.runq.length ∨ (s.tile c.vt).stopped = true then s
    else
      let t := { o.2 with seq := k.arrivals % 2 ^ 32 }
      (s.setCore c { k with runq := k.runq ++ [t], arrivals := k.arrivals + 1 }).modTile c.vt
        (fun x => { x with overflow := x.overflow.erase o }) |>.wakeFor c t.cls
  | none => s

/-! Waits. -/

/-- The inbox of an engine of a tile (R281): 0 copy, 1 gather, 2 collective, 3 digest. -/
def State.inboxOf (s : State) (vt engine : Nat) : List Cmd :=
  let t := s.tile vt
  match engine with
  | 0 => t.copyQ
  | 1 => t.gatherQ
  | 2 => t.collQ
  | _ => t.digestQ

/-- Every command that a tile's engines hold. -/
def Tile.commands (t : Tile) : List Cmd := t.copyQ ++ t.gatherQ ++ t.collQ ++ t.digestQ ++ t.collHeld

/-- Change every command that a tile's engines hold. -/
def Tile.mapCommands (t : Tile) (f : Cmd → Cmd) : Tile :=
  { t with copyQ := t.copyQ.map f, gatherQ := t.gatherQ.map f, collQ := t.collQ.map f, digestQ := t.digestQ.map f, collHeld := t.collHeld.map f }

/-- The events that the unit of a tile has emitted and that have no answer: its outgoing buffer (R261). -/
def State.outgoing (s : State) (vt : Nat) : Nat :=
  (s.net.filter (fun p => match p.pl with | .spur _ _ (some u) _ _ => u.1 == vt | _ => false)).length

/-- The condition a wait of a context waits for holds (R354). Waits that another step completes never do. -/
def State.waitOver (s : State) (c : CtxId) (w : Wait) : Bool :=
  let k := s.core c.core
  match w with
  | .counter n thr => decide (thr ≤ (k.reinAt n).v.toNat)
  | .sleep woken => woken
  | .timed _ woken => woken
  | .exit => s.mayLeave c.core || k.report.isSome
  | .forkFull => decide (k.deque.length < 16)
  | .waitdep => (s.producersLeft c.core).isEmpty
  | .tandem => (match k.tandem with | some t => t.primary | none => false) && helperCtx.all (fun i => (s.ctx ⟨c.core, i⟩).st == .free)
  | .inbox e => decide ((s.inboxOf c.core.vt e).length < 16)
  | .range lo hi wr _ => if hi = 0 then decide (k.sb.length < 16) else !s.sbHolds c.core lo hi wr
  | .drain => s.outgoing c.core.vt == 0
  | .posted => decide ((s.ctx c).posted < 16)
  | .earlier => true
  | .matrix => true
  | .spur => true
  | _ => false

/-- A sleep that has been woken completes; other waits look again at their instruction. -/
def State.endWait (s : State) (c : CtxId) (w : Wait) : State :=
  match w with
  | .sleep _ => s.finishWaiting c
  | .timed _ _ => s.finishWaiting c
  | _ => s.rouse c

/-- A context whose condition is met goes on (R354). A gang goes on when a waiting follower of it may. -/
def State.contextWake (s : State) (c : CtxId) : State :=
  let held := (s.members c).filter (fun m => m != c && (s.ctx m).gdone == 0 && (match (s.ctx m).st with | .waiting _ _ => true | _ => false))
  match held.find? (fun m => match (s.ctx m).st with | .waiting w _ => s.waitOver m w | _ => false) with
  | some m => s.rouse m
  | none =>
    match (s.ctx c).st with
    | .waiting w _ => if held.isEmpty && s.waitOver c w then s.endWait c w else s
    | _ => s

/-- The wait is one that WAITLIM bounds (Table 110; R153 exempts EXIT), and what TRAPVAL then holds (Table 111). -/
def Wait.limitVal : Wait → Option Word
  | .counter n _ => some (BitVec.ofNat 64 n)
  | .fullEmpty a => some (BitVec.ofNat 64 a)
  | .range _ _ _ ea => some ea
  | .bar => some 0
  | .sleep false => some 0
  | .forkFull => some 0
  | .waitdep => some 0
  | .gang _ => some 0
  | .tandem => some 0
  | .inbox _ => some 0
  | .drain => some 0
  | _ => none

/-- The wait of a context has lasted longer than WAITLIM cycles (R49, R84): the wait, and what TRAPVAL then holds. A wait whose condition holds, and
one of a context that has instructions handed over, has not; the trap waits while the stores of its frame are held back. -/
def State.limitDue (s : State) (c : CtxId) : Option (Wait × Word) :=
  let lim := (s.core c.core).waitLim.toNat
  match (s.ctx c).st with
  | .waiting w since =>
    match w.limitVal with
    | some v =>
      if s.waitOver c w || s.trapHeld c || s.busy c || (match (s.core c.core).tandem with | some t => !t.primary | none => false) then none
      else if lim = 0 ∨ s.edgesAt c.core.vt - since ≤ lim then none
      else some (w, v)
    | none => none
  | _ => none

/-- A wait longer than WAITLIM cycles traps (R49, R84): SLEEP at the instruction after it, every other wait at its instruction. -/
def State.waitLimit (s : State) (c : CtxId) : State :=
  match s.limitDue c with
  | some (w, v) =>
    let k := s.ctx c
    let t := Cause.at_ .waitLimit v
    match w with
    | .sleep _ => (s.setCtx c { k.advance .next with count := k.count + 1, st := .ready }).takeTrapTag c (nextHead k.line k.pc).1 false true k.count t
    | .gang _ => (s.unreserve c).trapAt c t
    | _ => s.trapAt c t
  | none => s

/-- The time of a timed SLEEP has passed (R156). -/
def State.sleepTimeout (s : State) (c : CtxId) : State :=
  match (s.ctx c).st with
  | .waiting (.timed n _) since => if n ≤ s.edgesAt c.core.vt - since then s.finishWaiting c else s
  | _ => s

/-! The wait table (R357, R358). -/

/-- A context is listed in the wait table (R357), which a wait whose condition is met has left; a follower stands where its leader does. -/
def State.listed (s : State) (c : CtxId) : Bool :=
  match (s.ctx (s.leadOf c)).st with
  | .waiting w _ => w.kind != 0 && !s.waitOver (s.leadOf c) w
  | .halted _ => true
  | _ => false

def CState.live : CState → Bool
  | .outside => false
  | .free => false
  | .reserved => false
  | _ => true

/-- Work of Table 106 could start on the core. -/
def State.couldStart (s : State) (c : CoreId) : Bool :=
  s.mayStart c && (s.freeHelperOf c).isSome && ((s.core c).nextWork.isSome || (s.stealFrom c).isSome)

/-- A core of a launch is listed (R358); a shadow with its primary. -/
def State.coreListed (s : State) (c : CoreId) : Bool :=
  match (s.core c).tandem with
  | some t => if t.primary then own c else own ⟨c.vt, t.partner⟩
  | none => own c
where
  own (d : CoreId) : Bool :=
    allCtx.all (fun i => !(s.ctx ⟨d, i⟩).st.live || s.listed ⟨d, i⟩) && !s.couldStart d

/-- A core starts its next piece of work on its lowest free helper (R350). -/
def execWorkStart (s : State) : Out := .next (s.workStart s.ev.core)

/-- A core steals a deque entry of its tile (R351). -/
def execDequeStealProbe (s : State) : Out := .next (s.stealProbe s.ev.core)

/-- A task returns from the overflow area to the run queue (R31). -/
def execOverflowReentry (s : State) : Out := .next (s.reenter s.ev.core)

/-- A waiting context whose condition is met goes on (R354). -/
def execContextWake (s : State) : Out := .next (s.contextWake s.ev.ctx)

/-- A wait longer than WAITLIM traps (R49). -/
def execWaitLimit (s : State) : Out := .next (s.waitLimit s.ev.ctx)

/-- The time of a timed SLEEP has passed (R156). -/
def execSleepTimeout (s : State) : Out := .next (s.sleepTimeout s.ev.ctx)

end Sys2Proof.Machine
end

