-- ==== Sys2Proof/Machine/Vector.lean ====
section
/-! DEFINITION. Vector registers, elementwise and block instructions: majors 0x50–0x5b, 0x60–0x67 (R202–R219, R232), and the vector sequencer (R224–R226). -/

namespace Sys2Proof.Machine

open Sys2Proof

/-! Elements (R202, R203). -/

/-- Element e of width w of a register. -/
def vel (v : VReg) (w e : Nat) : Nat := v.toNat / 2 ^ (w * e) % 2 ^ w

/-- Elements packed from the least significant bit up. -/
def packEls (w : Nat) : List Nat → Nat
  | [] => 0
  | x :: r => x % 2 ^ w + 2 ^ w * packEls w r

/-- A register of elements; bits above the last element are zero. -/
def vof (w : Nat) (l : List Nat) : VReg := BitVec.ofNat 512 (packEls w l)

/-- The predicate bit that governs element e of width w, 2e for 64-bit elements. -/
def live (p : Half) (w e : Nat) : Bool := p.getLsbD (w * e / 32)

/-- The governing predicate p[PG]. -/
def Env.pgv (e : Env) (s : State) : Half := s.rp e.me (e.o.pg.setWidth 5)

def Env.et (e : Env) : Nat := e.o.et
def Env.w (e : Env) : Nat := elemWidth e.et
def Env.n (e : Env) : Nat := elemCount e.et

/-- Elements of v[S1], v[S2], v[S3] and v[D] under the element type. -/
def Env.va (e : Env) (s : State) (i : Nat) : Nat := vel (s.rv e.me e.o.s1.toNat) e.w i
def Env.vb (e : Env) (s : State) (i : Nat) : Nat := vel (s.rv e.me e.o.s2.toNat) e.w i
def Env.vc (e : Env) (s : State) (i : Nat) : Nat := vel (s.rv e.me e.o.s3.toNat) e.w i
def Env.vd (e : Env) (s : State) (i : Nat) : Nat := vel (s.rv e.me e.o.d.toNat) e.w i

/-- Element types of Table 67: I, F, and those of moves. -/
def etI (et : Nat) : Bool := decide (1 ≤ et ∧ et ≤ 5)
def etF (et : Nat) : Bool := decide (6 ≤ et ∧ et ≤ 8)
def etIF (et : Nat) : Bool := decide (1 ≤ et ∧ et ≤ 8)
def etNeg (et : Nat) : Bool := etIF et && et != 2
def etMove (et : Nat) : Bool := decide (et ≤ 10) || et == 14 || et == 15
def etMx (et : Nat) : Bool := decide (16 ≤ et ∧ et ≤ 21)

/-- FORMAT is the first execution trap of a vector instruction (R204). -/
def Env.accept (e : Env) (s : State) (ok : Nat → Bool) : Except Stop Unit := trapIf (!ok e.et) (Cause.at_ .format 0) s

/-- An integer element as a number: UINT8 unsigned, the others two's complement (R99). -/
def ival (et x : Nat) : Int := if et = 2 then (x % 256 : Nat) else signedOf (elemWidth et) x

/-- Saturation to an integer element type (R99). -/
def isat (et : Nat) (v : Int) : Int :=
  let w := elemWidth et
  if et = 2 then max 0 (min v (2 ^ w - 1 : Nat)) else max (-(2 ^ (w - 1) : Nat)) (min v ((2 ^ (w - 1) : Nat) - 1))

/-- Write v[D] element by element, inactive elements keeping their value (R203). -/
def Env.merge (e : Env) (s : State) (f : Nat → Nat) : State :=
  let p := e.pgv s
  s.wv e.me e.o.d.toNat (vof e.w ((List.range e.n).map (fun i => if live p e.w i then f i else e.vd s i)))

/-! Float elements (R206). -/

/-- The rounding mode: the override, or RMODE (R79, R110). -/
def Env.rmv (e : Env) (s : State) : Nat := if e.o.sc = 0 then (e.k s).mode.toNat else e.o.sc.toNat - 1

/-- The NaN a vector instruction of a context generates in element i (R116, R206). -/
def vgen (c : CtxId) (cls i : Nat) : Nat := genNaN cls i c.ctx 1

/-- Elements of a float result, rounded in ascending order, each active one consuming its stochastic draw (R113): encodings, flags, SEED. -/
def roundEls (f : Fmt) (mode : Nat) (act : Nat → Bool) (old : Nat → Nat) (g : Nat → ExactF) :
    List Nat → FFlags → BitVec 32 → List Nat × FFlags × BitVec 32
  | [], fl, sd => ([], fl, sd)
  | i :: r, fl, sd =>
    if act i then
      let o := finish f mode false sd (g i)
      let (l, fl, sd) := roundEls f mode act old g r (fl ||| o.fl) o.seed
      (o.bits :: l, fl, sd)
    else
      let (l, fl, sd) := roundEls f mode act old g r fl sd
      (old i :: l, fl, sd)

/-- Flags join FFLAGS and SEED is replaced. -/
def State.flagSeed (s : State) (c : CtxId) (fl : FFlags) (sd : BitVec 32) : State :=
  s.modCtx c (fun k => { k with ff := k.ff ||| fl, seed := sd })

/-- The format of a float element type. -/
def Env.fmt (e : Env) : Fmt := (fmtOf e.et).getD .f32

/-- An operand element as a value of the element format. -/
def Env.fval (e : Env) (x : Nat) : FVal := e.fmt.decode 0 x

/-- v[D] ← g, rounded, in the element format. -/
def Env.roundAll (e : Env) (s : State) (g : Nat → ExactF) : State :=
  let p := e.pgv s
  let (l, fl, sd) := roundEls e.fmt (e.rmv s) (live p e.w) (e.vd s) g (List.range e.n) 0 (e.k s).seed
  (s.flagSeed e.me fl sd).wv e.me e.o.d.toNat (vof e.w l)

/-- Write elements that may set flags and never round, inactive elements keeping their value. -/
def Env.flagAll (e : Env) (s : State) (g : Nat → Nat × FFlags) : State :=
  let p := e.pgv s
  let fl := (List.range e.n).foldl (fun fl i => if live p e.w i then fl ||| (g i).2 else fl) (0 : FFlags)
  (e.merge s (fun i => (g i).1)).raise e.me fl

/-! Table 67. -/

/-- An integer function of a and b, or a float function of them in the element format. -/
def bodyVarith (ok : Nat → Bool) (fi : Int → Int → Int) (sat : Bool) (ff : Nat → Nat → FVal → FVal → ExactF) : Body := fun e s => do
  e.accept s ok
  if etF e.et then
    .ok (.next, e.roundAll s (fun i => ff (e.rmv s) (vgen e.me 1 i) (e.fval (e.va s i)) (e.fval (e.vb s i))))
  else
    let g := fun i =>
      let v := fi (ival e.et (e.va s i)) (ival e.et (e.vb s i))
      wrapTo e.w (if sat then isat e.et v else v)
    .ok (.next, e.merge s g)

def noFloat (_ _ : Nat) (x _ : FVal) : ExactF := (x.exact, 0)

def bodyVadd : Body := bodyVarith etIF (· + ·) false opAdd
def bodyVaddSat : Body := bodyVarith etI (· + ·) true noFloat
def bodyVsub : Body := bodyVarith etIF (· - ·) false (fun m gn x y => opAdd m gn x y.negate)
def bodyVsubSat : Body := bodyVarith etI (· - ·) true noFloat
def bodyVmul : Body := bodyVarith etIF (· * ·) false (fun _ gn x y => opMul gn x y)
def bodyVmulSat : Body := bodyVarith etI (· * ·) true noFloat

/-- VMUL.hi: bits [2w−1:w] of the exact product. -/
def bodyVmulHi : Body := fun e s => do
  e.accept s etI
  .ok (.next, e.merge s (fun i => wrapTo e.w (ival e.et (e.va s i) * ival e.et (e.vb s i) / (2 ^ e.w : Nat))))

/-- VFMA: a × b + c with the signs of a × b and of c changed as asked; NaN order a, b, c. -/
def bodyVfma (nm ms : Bool) : Body := fun e s => do
  e.accept s etF
  let g := fun i =>
    let a := e.fval (e.va s i)
    let c := e.fval (e.vc s i)
    opFma (e.rmv s) (vgen e.me 1 i) (if nm then a.negate else a) (e.fval (e.vb s i)) (if ms then c.negate else c)
  .ok (.next, e.roundAll s g)

/-- VMINMAX. -/
def bodyVminmax (mx : Bool) : Body := fun e s => do
  e.accept s etIF
  if etF e.et then .ok (.next, e.flagAll s (fun i => e.fmt.minMax mx (e.va s i) (e.vb s i)))
  else
    let g := fun i =>
      let x := ival e.et (e.va s i)
      let y := ival e.et (e.vb s i)
      wrapTo e.w (if mx then max x y else min x y)
    .ok (.next, e.merge s g)

/-- VNEGABS: floats change or clear the sign bit, NaNs included, with no flag. -/
def bodyVnegabs (ab : Bool) : Body := fun e s => do
  e.accept s etNeg
  let top := 2 ^ (e.w - 1)
  let g := fun i =>
    let x := e.va s i
    if etF e.et then (if ab then x % top else if x < top then x + top else x - top)
    else wrapTo e.w (if ab then (ival e.et x).natAbs else -(ival e.et x))
  .ok (.next, e.merge s g)

/-- VSEL: FN [2:0] names the selecting predicate. -/
def bodyVsel : Body := fun e s => do
  e.accept s etMove
  let q := s.rp e.me ((e.o.fn.extractLsb' 0 3).setWidth 5)
  .ok (.next, e.merge s (fun i => if live q e.w i then e.va s i else e.vb s i))

/-- VINT of a width and two elements. -/
def bodyVint (ok : Nat → Bool) (f : Nat → Nat → Nat → Nat) : Body := fun e s => do
  e.accept s ok
  .ok (.next, e.merge s (fun i => f e.w (e.va s i) (e.vb s i)))

def etI0 (et : Nat) : Bool := decide (et ≤ 5)

/-- Number of 1 bits of w bits. -/
def popNat (w x : Nat) : Nat := ((List.range w).filter (fun i => x.testBit i)).length

/-! VCMP (R208). -/

/-- The relations of VCMP: 0 eq, 1 ne, 2 lt, 3 ge, 4 le, 5 gt, 6 un. -/
def vcmpInt (cc : Nat) (x y : Int) : Bool :=
  match cc with
  | 0 => x == y
  | 1 => x != y
  | 2 => decide (x < y)
  | 3 => decide (y ≤ x)
  | 4 => decide (x ≤ y)
  | 5 => decide (y < x)
  | _ => false

def vcmpFloat (cc : Nat) (x y : FVal) : Bool × FFlags :=
  match cc with
  | 0 => fcmp 0 x y
  | 1 => let r := fcmp 0 x y; (!r.1, r.2)
  | 2 => fcmp 1 x y
  | 3 => fcmp 2 y x
  | 4 => fcmp 2 x y
  | 5 => fcmp 1 y x
  | _ => fcmp 3 x y

/-- The predicate bits that element e of width w governs: e, or 2e and 2e + 1. -/
def cmpElem (w bit : Nat) : Nat := if w = 64 then bit / 2 else bit

/-- VCMP.cc: inactive bits of p[D] keep their value. -/
def bodyVcmp (cc : Nat) : Body := fun e s => do
  e.accept s (fun et => if cc = 6 then et == 6 else et == 4 || et == 5 || et == 6)
  let p := e.pgv s
  let rel := fun i : Nat =>
    if e.et = 6 then vcmpFloat cc (f32 (e.va s i)) (f32 (e.vb s i))
    else (vcmpInt cc (ival e.et (e.va s i)) (ival e.et (e.vb s i)), 0)
  let old := s.rp e.me e.o.d
  let bits := (List.range 16).map (fun b =>
    let i := cmpElem e.w b
    if live p e.w i then (rel i).1 else old.getLsbD b)
  let fl := (List.range e.n).foldl (fun fl i => if live p e.w i then fl ||| (rel i).2 else fl) (0 : FFlags)
  .ok (.next, (s.raise e.me fl).wp e.me e.o.d (BitVec.ofNat 16 (packEls 1 (bits.map (fun b => if b then 1 else 0)))))

/-! VCVT (R209). -/

/-- Every value of the source format is a value of the destination: a widening conversion, exact and never stochastic (R113, R115).
DESIGN CHOICE (log 48): E2M3 to E5M2, which R209 counts as widening, is not exact; it rounds under the mode and draws SEED. -/
def widens (src dst : Fmt) : Bool :=
  decide (src.width < dst.width) && decide (src.mb ≤ dst.mb) &&
    (decide (src.eb < dst.eb) || (src.eb == dst.eb && src.bias == dst.bias))

/-- Conv of R209 on one element: encoding, flags, SEED. Index i names the destination element in a generated NaN; a NaN that goes from FP8 to
FP8 keeps its sign (Table 47). With `.sat` an integer of the same width saturates as a narrowed one does (log 40). -/
def vconv (c : CtxId) (mode : Nat) (sat : Bool) (et dst i x : Nat) (sd : BitVec 32) : Nat × FFlags × BitVec 32 :=
  let toF := fun (f : Fmt) (m : Nat) (v : FVal) => let r := convert f m sat sd v; (r.bits, r.fl, r.seed)
  if etI et then
    let v := ival et x
    if etI dst then (wrapTo (elemWidth dst) (if sat then isat dst v else v), 0, sd)
    else toF ((fmtOf dst).getD .f32) mode (ofInt v)
  else if et = 14 then
    (if x = 255 then vgen c 2 i else finishRne .f32 (.fin false 1 ((x : Int) - 127) false), 0, sd)
  else
    let src := (fmtOf et).getD .f32
    let neg := x / 128 % 2 = 1 ∧ (dst = 9 ∨ dst = 10)
    let v := src.decode (if neg then vgen c 3 i ||| 2 ^ 31 else vgen c 3 i) x
    if etI dst then
      let w := elemWidth dst
      let lo : Int := if dst = 2 then 0 else -(2 ^ (w - 1) : Nat)
      let hi : Int := if dst = 2 then 255 else (2 ^ (w - 1) : Nat) - 1
      let (r, fl, sd) := toInt mode sd lo hi v
      (wrapTo w r, fl, sd)
    else
      let f := (fmtOf dst).getD .f32
      toF f (if widens src f then 0 else mode) v

/-- One step per converted element: source index (none beyond the source), destination index, governing bit. The part of an FP4 source that ends
before an FP6 destination is full leaves +0 there, as the last part of an FP6 source does (log 40). -/
def vcvtPlan (et dst p : Nat) : List (Option Nat × Nat × Nat) :=
  let cs := elemCount et
  let cd := elemCount dst
  let n := min cs cd
  if cd ≤ cs then
    (List.range n).map (fun i => (if p * n + i < cs then some (p * n + i) else none, i, elemWidth dst * i / 32))
  else
    ((List.range n).filter (fun i => decide (p * n + i < cd))).map (fun i => (some i, p * n + i, elemWidth et * i / 32))

/-- Perform conversions in ascending order: (destination index, encoding) of the active ones. -/
def vcvtRun (conv : Nat → Option Nat → BitVec 32 → Nat × FFlags × BitVec 32) (p : Half) :
    List (Option Nat × Nat × Nat) → FFlags → BitVec 32 → List (Nat × Nat) × FFlags × BitVec 32
  | [], fl, sd => ([], fl, sd)
  | (src, d, b) :: r, fl, sd =>
    if p.getLsbD b then
      let (x, f, sd) := conv d src sd
      let (l, fl, sd) := vcvtRun conv p r (fl ||| f) sd
      ((d, x) :: l, fl, sd)
    else vcvtRun conv p r fl sd

/-- The bytes of a register group, v[k] lowest (R205). -/
def State.groupBytes (s : State) (c : CtxId) (k g : Nat) : List Byte := (List.range g).flatMap (fun i => natLe 64 (s.rv c (k + i)).toNat)

/-- Write a byte string to a register group from v[k] on, zeros after its end (R205). -/
def State.setGroup (s : State) (c : CtxId) (k : Nat) (l : List Byte) : State :=
  (List.range ((l.length + 63) / 64)).foldl (fun s i => s.wv c (k + i) (BitVec.ofNat 512 (leNat ((l.drop (64 * i)).take 64)))) s

/-- Element j of consecutive block frames: scale code and element code (R106). -/
def frameElem (et blk : Nat) (b : List Byte) (j : Nat) : Nat × Nat :=
  let f := frameBytes et blk
  let fr := b.drop (j / blockLen blk * f)
  ((fr.headD 0).toNat, packed ((fr.drop 1).take (f - 1)) (elemWidth et) (j % blockLen blk))

/-- VCVT. -/
def bodyVcvt (sat : Bool) : Body := fun e s => do
  let dst := e.o.fn.toNat % 32
  let part := (e.o.imm.extractLsb' 0 3).toNat
  e.accept s (fun et => !(et == 0 || et == 15 || decide (14 ≤ dst) || ((et == 14 || decide (16 ≤ et)) && dst != 6)))
  let mode := e.rmv s
  let p := e.pgv s
  let old := s.rv e.me e.o.d.toNat
  let w := elemWidth dst
  let (l, fl, sd) :=
    if 16 ≤ e.et then
      let blk := (e.o.imm.extractLsb' 8 3).toNat
      let g := (((16 * part + 15) / blockLen blk + 1) * frameBytes e.et blk + 63) / 64
      let b := s.groupBytes e.me e.o.s1.toNat g
      let conv := fun (d : Nat) (_ : Option Nat) (sd : BitVec 32) =>
        let j := part * 16 + d
        let (sc, x) := frameElem e.et blk b j
        let r := convert .f32 mode false sd (mxVal e.et sc (vgen e.me 2 j) (vgen e.me 3 j) x)
        (r.bits, r.fl, r.seed)
      vcvtRun conv p ((List.range 16).map (fun i => (none, i, i))) 0 (e.k s).seed
    else
      let conv := fun (d : Nat) (src : Option Nat) (sd : BitVec 32) =>
        match src with
        | some j => vconv e.me mode sat e.et dst d (e.va s j) sd
        | none => (0, 0, sd)
      vcvtRun conv p (vcvtPlan e.et dst part) 0 (e.k s).seed
  let els := (List.range (elemCount dst)).map (fun i => match l.find? (fun x => x.1 == i) with | some x => x.2 | none => vel old w i)
  .ok (.next, (s.flagSeed e.me fl sd).wv e.me e.o.d.toNat (vof w els))

/-! VRED (R210, R232). -/

/-- The identity of a reduction (Table 68): 0 sum, 1 min, 2 max, 3 and, 4 or, 5 xor. -/
def vredIdent (fn et : Nat) : Nat :=
  let w := elemWidth et
  if etF et then
    let f := (fmtOf et).getD .f32
    match fn with
    | 0 => f.signed true 0
    | 1 => f.infCode
    | _ => f.signed true f.infCode
  else
    match fn with
    | 1 => if et = 2 then 2 ^ w - 1 else 2 ^ (w - 1) - 1
    | 2 => if et = 2 then 0 else 2 ^ (w - 1)
    | 3 => 2 ^ w - 1
    | _ => 0

/-- One step of the tree, the left operand first. A NaN that a step generates has INDEX 0: the spec gives it none (log 40). -/
def vredStep (c : CtxId) (fn et mode x y : Nat) (sd : BitVec 32) : Nat × FFlags × BitVec 32 :=
  let w := elemWidth et
  if etF et then
    let f := (fmtOf et).getD .f32
    if fn = 0 then
      let r := finish f mode false sd (opAdd mode (vgen c 1 0) (f.decode 0 x) (f.decode 0 y))
      (r.bits, r.fl, r.seed)
    else let r := f.minMax (fn == 2) x y; (r.1, r.2, sd)
  else
    let a := ival et x
    let b := ival et y
    (match fn with
     | 0 => wrapTo w (a + b)
     | 1 => wrapTo w (min a b)
     | 2 => wrapTo w (max a b)
     | 3 => x &&& y
     | 4 => x ||| y
     | _ => x ^^^ y, 0, sd)

/-- One level of the tree: neighbouring pairs in ascending order, each value with whether an active element has entered it. A step on two
identities gives the identity and rounds nothing (R113); a step with one rounds, as exact values do (log 40). -/
def vredLevel (step : Nat → Nat → BitVec 32 → Nat × FFlags × BitVec 32) :
    List (Bool × Nat) → FFlags → BitVec 32 → List (Bool × Nat) × FFlags × BitVec 32
  | (a, x) :: (b, y) :: r, fl, sd =>
    let (v, f, sd) := if a || b then step x y sd else (x, 0, sd)
    let (l, fl, sd) := vredLevel step r (fl ||| f) sd
    ((a || b, v) :: l, fl, sd)
  | l, fl, sd => (l, fl, sd)

/-- Levels until one value is left; at most 6 for 64 elements. -/
def vredTree (step : Nat → Nat → BitVec 32 → Nat × FFlags × BitVec 32) : Nat → List (Bool × Nat) → FFlags → BitVec 32 → Nat × FFlags × BitVec 32
  | 0, l, fl, sd => ((l.headD (false, 0)).2, fl, sd)
  | k + 1, l, fl, sd =>
    if l.length ≤ 1 then ((l.headD (false, 0)).2, fl, sd)
    else let (l, fl, sd) := vredLevel step l fl sd; vredTree step k l fl sd

/-- One member's own reduction in the state before the instruction: result, flags, its SEED after it. -/
def vredMember (e : Env) (fn : Nat) (m : CtxId) : Nat × FFlags × BitVec 32 :=
  let s := e.s0
  let p := s.rp m (e.o.pg.setWidth 5)
  let v := s.rv m e.o.s1.toNat
  let xs := (List.range e.n).map (fun i => if live p e.w i then (true, vel v e.w i) else (false, vredIdent fn e.et))
  let mode := if e.o.sc = 0 then (s.ctx m).mode.toNat else e.o.sc.toNat - 1
  let (r, fl, sd) := vredTree (vredStep m fn e.et mode) 6 xs 0 (s.ctx m).seed
  (if etF e.et && fn == 0 && (List.range e.n).all (fun i => !live p e.w i) then 0 else r, fl, sd)

/-- VRED: in a gang every member's result is combined by the same tree; those roundings use the leader's mode and SEED. -/
def bodyVred (fn : Nat) : Body := fun e s => do
  e.accept s (if fn < 3 then etIF else etI)
  let ms := e.s0.members e.me
  let lead := ms.headD e.me
  let rs := ms.map (vredMember e fn)
  let sd0 := match rs with | r :: _ => r.2.2 | [] => (e.k s).seed
  let mode := if e.o.sc = 0 then (e.s0.ctx lead).mode.toNat else e.o.sc.toNat - 1
  let fl0 := rs.foldl (fun f r => f ||| r.2.1) (0 : FFlags)
  let (v, fl, sd1) := vredTree (vredStep lead fn e.et mode) 6 (rs.map (fun r => (true, r.1))) fl0 sd0
  let sd := if e.me = lead then sd1 else (vredMember e fn e.me).2.2
  .ok (.next, (s.flagSeed e.me fl sd).wv e.me e.o.d.toNat (vof e.w [v]))

/-! VSHUF and VBCAST (R211, R212). -/

def bodyVshuf (f : Env → State → Nat → Nat) : Body := fun e s => do
  e.accept s etMove
  .ok (.next, e.merge s (f e s))

def shufIdx (e : Env) (s : State) (i : Nat) : Nat := e.va s (e.vb s i % e.n)
def shufRot (e : Env) (s : State) (i : Nat) : Nat := e.va s ((i + e.o.imm16.toNat) % e.n)
def shufLo (e : Env) (s : State) (i : Nat) : Nat := if i % 2 = 0 then e.va s (i / 2) else e.vb s (i / 2)
def shufHi (e : Env) (s : State) (i : Nat) : Nat := if i % 2 = 0 then e.va s (i / 2 + e.n / 2) else e.vb s (i / 2 + e.n / 2)
def shufRev (e : Env) (s : State) (i : Nat) : Nat := e.va s (e.n - 1 - i)

/-- VBCAST.s. -/
def bodyVbcastS : Body := fun e s => do
  e.accept s etMove
  .ok (.next, e.merge s (fun _ => (e.a s).toNat % 2 ^ e.w))

/-- VBCAST.lane: a lane counted across the gang (R232). -/
def bodyVbcastLane : Body := fun e s => do
  e.accept s etMove
  let ms := e.s0.members e.me
  let k := e.o.imm16.toNat % (e.n * ms.length)
  let v := vel (e.s0.rv (ms.getD (k / e.n) e.me) e.o.s1.toNat) e.w (k % e.n)
  .ok (.next, e.merge s (fun _ => v))

/-! VSPEC and VDOT (R213, R214). -/

/-- VSPEC functions by a generated NaN and the operands. -/
def bodyVspec (f : Nat → FVal → FVal → ExactF) : Body := fun e s => do
  e.accept s etF
  .ok (.next, e.roundAll s (fun i => f (vgen e.me 1 i) (e.fval (e.va s i)) (e.fval (e.vb s i))))

/-- VDOT.q: four 8-bit products added to a 32-bit lane. -/
def bodyVdotQ : Body := fun e s => do
  e.accept s (fun et => et == 1 || et == 2)
  let p := e.pgv s
  let old := s.rv e.me e.o.d.toNat
  let lane := fun l : Nat =>
    let sum := (List.range 4).foldl (fun t j => t + ival e.et (e.va s (4 * l + j)) * ival e.et (e.vb s (4 * l + j))) (0 : Int)
    if p.getLsbD l then wrapTo 32 ((vel old 32 l : Int) + sum) else vel old 32 l
  .ok (.next, s.wv e.me e.o.d.toNat (vof 32 ((List.range 16).map lane)))

/-- The exact sum of an accumulator and two products; NaN order accumulator, then each pair. -/
def dot2 (mode gn : Nat) (c a0 b0 a1 b1 : FVal) : ExactF :=
  let zi := fun (x y : FVal) => (x.isInf && y.isZero) || (y.isInf && x.isZero)
  match firstNaN [c, a0, b0, a1, b1] with
  | some r => (r.1, r.2 ||| flagIf fNV (zi a0 b0 || zi a1 b1))
  | none =>
    match mulNum a0 b0, mulNum a1 b1 with
    | some p, some q =>
      match addNum mode gn c p with
      | (.fin n m x _, fl) => let r := addNum mode gn (.fin n m x) q; (r.1, r.2 ||| fl)
      | (.inf n, fl) => let r := addNum mode gn (.inf n) q; (r.1, r.2 ||| fl)
      | r => r
    | _, _ => (.nan gn, fNV)

/-- VDOT.p: two 16-bit products added to a lane, an INT32 that wraps or an FP32 rounded once. -/
def bodyVdotP : Body := fun e s => do
  e.accept s (fun et => et == 3 || et == 7 || et == 8)
  let p := e.pgv s
  let old := s.rv e.me e.o.d.toNat
  if e.et = 3 then
    let lane := fun l : Nat =>
      let sum := (List.range 2).foldl (fun t j => t + ival 3 (e.va s (2 * l + j)) * ival 3 (e.vb s (2 * l + j))) (0 : Int)
      if p.getLsbD l then wrapTo 32 ((vel old 32 l : Int) + sum) else vel old 32 l
    .ok (.next, s.wv e.me e.o.d.toNat (vof 32 ((List.range 16).map lane)))
  else
    let g := fun l : Nat => dot2 (e.rmv s) (vgen e.me 1 l) (f32 (vel old 32 l)) (e.fval (e.va s (2 * l))) (e.fval (e.vb s (2 * l)))
      (e.fval (e.va s (2 * l + 1))) (e.fval (e.vb s (2 * l + 1)))
    let (l, fl, sd) := roundEls .f32 (e.rmv s) (fun i => p.getLsbD i) (vel old 32) g (List.range 16) 0 (e.k s).seed
    .ok (.next, (s.flagSeed e.me fl sd).wv e.me e.o.d.toNat (vof 32 l))

/-! Block scaling (R215–R218). -/

def Env.blk (e : Env) : Nat := (e.o.imm.extractLsb' 0 3).toNat

/-- Input element i of block k: active, and its FP32 bits, zero when it is inactive. -/
def Env.blkIn (e : Env) (s : State) (k i : Nat) : Bool × Nat :=
  let j := k * blockLen e.blk + i
  let on := (e.pgv s).getLsbD (j % 16)
  (on, if on then vel (s.rv e.me (e.o.s1.toNat + j / 16)) 32 (j % 16) else 0)

/-- amax of a block of FP32 bits: its first NaN, quieted and positive, else the largest magnitude; NV for a signalling NaN (R216). -/
def amaxOf (xs : List Nat) : Nat × FFlags :=
  let sig := flagIf fNV (xs.any (fun x => (f32 x).isSig))
  match xs.find? (fun x => (f32 x).isNaN) with
  | some x => (quieten x % 2 ^ 31, sig)
  | none => (xs.foldl (fun m x => max m (x % 2 ^ 31)) 0, sig)

def Env.blkBits (e : Env) (s : State) (k : Nat) : List Nat := (List.range (blockLen e.blk)).map (fun i => (e.blkIn s k i).2)

/-- VAMAX. -/
def bodyVamax : Body := fun e s => do
  e.accept s (fun et => et == 6)
  let rs := (List.range (blockNum e.blk)).map (fun k => amaxOf (e.blkBits s k))
  let fl := rs.foldl (fun f r => f ||| r.2) (0 : FFlags)
  .ok (.next, (s.raise e.me fl).wv e.me e.o.d.toNat (vof 32 (rs.map (fun r => r.1))))

/-- Quantise a scaled value to an MX element, saturating (R117, Table 47): code, flags, SEED. -/
def mxQuant (et mode : Nat) (sd : BitVec 32) (x : FVal) : Nat × FFlags × BitVec 32 :=
  match fmtOf et with
  | some f => let r := convert f mode true sd x; (r.bits, r.fl, r.seed)
  | none =>
    let y : FVal := match x with | .fin n m q => .fin n m (q + 6) | x => x
    let (v, fl, sd) := toInt mode sd (-128) 127 y
    (wrapTo 8 v, fl, sd)

/-- Divide by 2^(code − 127). -/
def unscale (code : Nat) : FVal → FVal
  | .fin n m q => .fin n m (q + 127 - code)
  | x => x

/-- The element codes of a block against a scale code; an inactive element is +0 and rounds nothing (R113, R215), and neither does an element of
a block with scale code 0xff, which is written zero (log 40). -/
def quantEls (et mode code : Nat) : List (Bool × Nat) → FFlags → BitVec 32 → List Nat × FFlags × BitVec 32
  | [], fl, sd => ([], fl, sd)
  | (on, x) :: r, fl, sd =>
    if on && code != 255 then
      let (v, f, sd) := mxQuant et mode sd (unscale code (f32 x))
      let (l, fl, sd) := quantEls et mode code r (fl ||| f) sd
      (v :: l, fl, sd)
    else
      let (l, fl, sd) := quantEls et mode code r fl sd
      (0 :: l, fl, sd)

/-- The frame of a block. -/
def frameOf (et blk code : Nat) (els : List Nat) : List Byte := natLe 1 code ++ natLe (frameBytes et blk - 1) (packEls (elemWidth et) els)

/-- Frames of all blocks: `pick` gives the scale code of a block with its flags, `keep` the flags that its elements' flags become. -/
def quantBlocks (e : Env) (s : State) (mode : Nat) (pick : Nat → Nat × FFlags) (keep : FFlags → FFlags) :
    List Nat → FFlags → BitVec 32 → List Byte × FFlags × BitVec 32
  | [], fl, sd => ([], fl, sd)
  | k :: r, fl, sd =>
    let (code, f) := pick k
    let (els, g, sd) := quantEls e.et mode code ((List.range (blockLen e.blk)).map (e.blkIn s k)) 0 sd
    let (b, fl, sd) := quantBlocks e s mode pick keep r (fl ||| f ||| keep g) sd
    (frameOf e.et e.blk code els ++ b, fl, sd)

/-- VSCALE and VQUANT. -/
def bodyBlocks (pick : Env → State → Nat → Nat × FFlags) (keep : FFlags → FFlags) : Body := fun e s => do
  e.accept s etMx
  let (b, fl, sd) := quantBlocks e s (e.rmv s) (pick e s) keep (List.range (blockNum e.blk)) 0 (e.k s).seed
  .ok (.next, (s.flagSeed e.me fl sd).setGroup e.me e.o.d.toNat b)

/-- VSCALE takes the scale from amax; an inexact or saturated element sets NX only (R217). -/
def bodyVscale : Body :=
  bodyBlocks (fun e s k =>
      let a := amaxOf (e.blkBits s k)
      let c := computeScale a.1 (emaxOf e.et)
      (c.1, a.2 ||| c.2)) (fun g => flagIf fNX (g != 0))

/-- VQUANT takes the scale code from lane k [7:0] of v[S2] (R218). -/
def bodyVquant : Body := bodyBlocks (fun e s k => (vel (s.rv e.me e.o.s2.toNat) 32 k % 256, 0)) (fun g => g)

/-! TBL8 (R219). -/

def Env.tblPart (e : Env) : Nat := (e.o.imm.extractLsb' 0 2).toNat

/-- VTBL. An entry is widened bit for bit (R104, R108); DESIGN CHOICE (log 48): rule 4 of R119 sets no quiet bit here. -/
def bodyVtbl : Body := fun e s => do
  e.accept s (fun et => et == 15)
  let p := e.pgv s
  let old := s.rv e.me e.o.d.toNat
  let lane := fun i : Nat =>
    if p.getLsbD i then s.decEntry e.me.core (vel (s.rv e.me e.o.s1.toNat) 8 (16 * e.tblPart + i)) * 2 ^ 13 else vel old 32 i
  .ok (.next, s.wv e.me e.o.d.toNat (vof 32 ((List.range 16).map lane)))

/-- VENC. -/
def bodyVenc : Body := fun e s => do
  e.accept s (fun et => et == 15)
  let p := e.pgv s
  let old := s.rv e.me e.o.d.toNat
  let enc := (List.range 16).map (fun i => tblEncode (s.decEntry e.me.core) (f32 (vel (s.rv e.me e.o.s1.toNat) 32 i)))
  let byte := fun b : Nat =>
    let i := b - 16 * e.tblPart
    if b / 16 = e.tblPart ∧ p.getLsbD i = true then (enc.getD i (0, 0)).1 else vel old 8 b
  let fl := (List.range 16).foldl (fun f i => if p.getLsbD i then f ||| (enc.getD i (0, 0)).2 else f) (0 : FFlags)
  .ok (.next, (s.raise e.me fl).wv e.me e.o.d.toNat (vof 8 ((List.range 64).map byte)))

/-! The vector sequencer (R224–R226). -/

/-- Hand a vector instruction to the sequencer: it has passed its checks and its sync wait, takes its rounding mode, and its context
goes on (R224). A check that fails traps once what was handed over before it is complete. -/
def State.handOver (s : State) (row : Instr) : State :=
  let c := s.cur
  let o := s.op
  match s.held row o c [c] with
  | some s' => if (s.gate c ⟨row, o⟩).isSome && s.busy c then s else s'
  | none =>
    if 16 ≤ (s.core c.core).vseq.length then s
    else
      let took := s.waited c o
      let s := s.syncTaken o [c]
      let k := s.ctx c
      let q : SeqEntry := { ctx := c.ctx, inst := ⟨row, o⟩, pc := k.pc, entry := k.entry, line := k.line, count := k.count, mode := k.mode,
                            info := took, held := none }
      (s.modCore c.core (fun x => { x with vseq := x.vseq ++ [q] })).setCtx c { k.advance .next with count := k.count + 1, st := .ready }

/-- A vector instruction is performed at once, or handed over when the turn says so; gangs and pairs are never run ahead. -/
def issueV (row : Instr) (body : Body) (s : State) : State :=
  if s.ahead && (s.ctx s.cur).gang.isNone && (s.core s.cur.core).tandem.isNone then s.handOver row else issue row body s

/-- What a context has handed over and not performed, oldest first: matrix instructions whose operand read has not ended, then the
sequencer's entries. -/
def State.pendingSeq (s : State) (c : CtxId) : List SeqEntry :=
  let k := s.core c.core
  ((k.mq.filter (fun m => m.stage == .issued)).map (fun m => m.q) ++ k.vseq).filter (fun q => q.ctx == c.ctx)

/-- Give up the handed-over instructions of a context that have not been performed: it stands at the oldest again (R226, R229, R247). -/
def State.unhand (s : State) (c : CtxId) : State :=
  match s.pendingSeq c with
  | [] => s
  | q :: _ =>
    (s.modCore c.core (fun x => { x with vseq := x.vseq.filter (fun y => y.ctx != c.ctx),
                                         mq := x.mq.filter (fun y => y.q.ctx != c.ctx || y.stage != .issued) })).modCtx c
      (fun k => { k with pc := q.pc, entry := q.entry, line := q.line, count := q.count })

/-- A matrix instruction of the context that may still trap is in the queue. -/
def State.mqOpen (s : State) (c : CtxId) : Bool := (s.core c.core).mq.any (fun m => m.q.ctx == c.ctx && m.stage == .issued)

/-- The context as it stood at a handed-over instruction. -/
def Ctx.at_ (k : Ctx) (q : SeqEntry) : Ctx := { k with pc := q.pc, entry := q.entry, line := q.line, count := q.count, mode := q.mode }

/-- The context after a handed-over instruction has completed: back where it stood. -/
def Ctx.back (k k0 : Ctx) : Ctx := { k with pc := k0.pc, entry := k0.entry, line := k0.line, count := k0.count, mode := k0.mode, st := k0.st }

/-- Complete a handed-over instruction. -/
def State.seqDone (s : State) (c : CtxId) (k0 : Ctx) (q : SeqEntry) (o : Fields) (off : Bool) (ctl : Ctl) : State :=
  (s.complete c q.inst.row o off ctl (syncSignal o)).modCtx c (fun k => k.back k0)

/-- A handed-over instruction traps: what was run ahead after it is undone (R226). -/
def State.seqTrap (s : State) (c : CtxId) (t : Tr) : State :=
  ((s.unhand c).modCtx c (fun k => { k with st := .ready })).deliver c [c] 0 c t

/-- The range scoreboard holds the oldest entry of the sequencer: since when, and WAIT_LIMIT with the element's address once that is longer than
WAITLIM allows (R49, R183, R223). -/
def State.seqHeld (s : State) (c : CtxId) (q : SeqEntry) (ea : Word) : State :=
  let lim := (s.core c.core).waitLim.toNat
  match q.held with
  | none => s.modCore c.core (fun x => { x with vseq := x.vseq.map (fun y => if y = q then { y with held := some (s.edgesAt c.core.vt) } else y) })
  | some since =>
    if lim = 0 ∨ s.edgesAt c.core.vt - since ≤ lim ∨ s.mqHas c = true ∨ (s.pushHeld c).isSome = true then s else s.seqTrap c (Cause.at_ .waitLimit ea)

/-- The sequencer performs the oldest instruction of a context (R224); a trap undoes what was run ahead (R226), and waits while its frame's
stores are held back. -/
def State.seqRun (s : State) (bodyOf : Instr → Body) (c : CtxId) : State :=
  match (s.core c.core).vseq.find? (fun q => q.ctx == c.ctx) with
  | none => s
  | some q =>
    if !isVector q.inst.row || s.mqOpen c then s
    else
      let k0 := s.ctx c
      let s1 := s.modCtx c (fun k => k.at_ q)
      match memberRun (bodyOf q.inst.row) q.inst.row q.inst.o q.info s1 c s1 with
      | .ok (ctl, s2) => (s2.modCore c.core (fun x => { x with vseq := x.vseq.erase q })).seqDone c k0 q q.inst.o (s1.predicatedOff c q.inst) ctl
      | .error (.wait (.range _ _ _ ea) _) => s.seqHeld c q ea
      | .error (.wait _ _) => s
      | .error (.trap t s2) => if s.mqHas c || (s.pushHeld c).isSome then s else s2.seqTrap c t

/-- VADD (R207, Table 67). -/
def execVadd (s : State) : Out := .next (issueV .vadd bodyVadd s)

/-- VADD_SAT (R207, Table 67). -/
def execVaddSat (s : State) : Out := .next (issueV .vaddSat bodyVaddSat s)

/-- VSUB (R207, Table 67). -/
def execVsub (s : State) : Out := .next (issueV .vsub bodyVsub s)

/-- VSUB_SAT (R207, Table 67). -/
def execVsubSat (s : State) : Out := .next (issueV .vsubSat bodyVsubSat s)

/-- VMUL (R207, Table 67). -/
def execVmul (s : State) : Out := .next (issueV .vmul bodyVmul s)

/-- VMUL_HI (R207, Table 67). -/
def execVmulHi (s : State) : Out := .next (issueV .vmulHi bodyVmulHi s)

/-- VMUL_SAT (R207, Table 67). -/
def execVmulSat (s : State) : Out := .next (issueV .vmulSat bodyVmulSat s)

/-- VFMA (R207, Table 67). -/
def execVfma (s : State) : Out := .next (issueV .vfma (bodyVfma false false) s)

/-- VFMA_MS (R207, Table 67). -/
def execVfmaMs (s : State) : Out := .next (issueV .vfmaMs (bodyVfma false true) s)

/-- VFMA_NM (R207, Table 67). -/
def execVfmaNm (s : State) : Out := .next (issueV .vfmaNm (bodyVfma true false) s)

/-- VMINMAX_MIN (R207, Table 67). -/
def execVminmaxMin (s : State) : Out := .next (issueV .vminmaxMin (bodyVminmax false) s)

/-- VMINMAX_MAX (R207, Table 67). -/
def execVminmaxMax (s : State) : Out := .next (issueV .vminmaxMax (bodyVminmax true) s)

/-- VNEGABS_NEG (R207, Table 67). -/
def execVnegabsNeg (s : State) : Out := .next (issueV .vnegabsNeg (bodyVnegabs false) s)

/-- VNEGABS_ABS (R207, Table 67). -/
def execVnegabsAbs (s : State) : Out := .next (issueV .vnegabsAbs (bodyVnegabs true) s)

/-- VSEL (R207, Table 67). -/
def execVsel (s : State) : Out := .next (issueV .vsel bodyVsel s)

/-- VINT_AND (R207, Table 67). -/
def execVintAnd (s : State) : Out := .next (issueV .vintAnd (bodyVint etI0 (fun _ a b => a &&& b)) s)

/-- VINT_OR (R207, Table 67). -/
def execVintOr (s : State) : Out := .next (issueV .vintOr (bodyVint etI0 (fun _ a b => a ||| b)) s)

/-- VINT_XOR (R207, Table 67). -/
def execVintXor (s : State) : Out := .next (issueV .vintXor (bodyVint etI0 (fun _ a b => a ^^^ b)) s)

/-- VINT_ANDN (R207, Table 67). -/
def execVintAndn (s : State) : Out := .next (issueV .vintAndn (bodyVint etI0 (fun _ a b => a - (a &&& b))) s)

/-- VINT_SHL (R207, Table 67). -/
def execVintShl (s : State) : Out := .next (issueV .vintShl (bodyVint etI (fun w a b => a * 2 ^ (b % w))) s)

/-- VINT_SHR (R207, Table 67). -/
def execVintShr (s : State) : Out := .next (issueV .vintShr (bodyVint etI (fun w a b => a / 2 ^ (b % w))) s)

/-- VINT_SRA (R207, Table 67). -/
def execVintSra (s : State) : Out := .next (issueV .vintSra (bodyVint etI (fun w a b => wrapTo w (signedOf w a / (2 ^ (b % w) : Nat)))) s)

/-- VINT_POPC (R207, Table 67). -/
def execVintPopc (s : State) : Out := .next (issueV .vintPopc (bodyVint etI (fun w a _ => popNat w a)) s)

/-- VCMP.eq (R208). -/
def execVcmpEq (s : State) : Out := .next (issueV .vcmpEq (bodyVcmp 0) s)

/-- VCMP.ne (R208). -/
def execVcmpNe (s : State) : Out := .next (issueV .vcmpNe (bodyVcmp 1) s)

/-- VCMP.lt (R208). -/
def execVcmpLt (s : State) : Out := .next (issueV .vcmpLt (bodyVcmp 2) s)

/-- VCMP.ge (R208). -/
def execVcmpGe (s : State) : Out := .next (issueV .vcmpGe (bodyVcmp 3) s)

/-- VCMP.le (R208). -/
def execVcmpLe (s : State) : Out := .next (issueV .vcmpLe (bodyVcmp 4) s)

/-- VCMP.gt (R208). -/
def execVcmpGt (s : State) : Out := .next (issueV .vcmpGt (bodyVcmp 5) s)

/-- VCMP.un (R208). -/
def execVcmpUn (s : State) : Out := .next (issueV .vcmpUn (bodyVcmp 6) s)

/-- VCVT (R209). -/
def execVcvt (s : State) : Out := .next (issueV .vcvt (bodyVcvt false) s)

/-- VCVT.sat (R209). -/
def execVcvtSat (s : State) : Out := .next (issueV .vcvtSat (bodyVcvt true) s)

/-- VRED.sum (R210, R232). -/
def execVredSum (s : State) : Out := .next (issueV .vredSum (bodyVred 0) s)

/-- VRED.min (R210, R232). -/
def execVredMin (s : State) : Out := .next (issueV .vredMin (bodyVred 1) s)

/-- VRED.max (R210, R232). -/
def execVredMax (s : State) : Out := .next (issueV .vredMax (bodyVred 2) s)

/-- VRED.and (R210, R232). -/
def execVredAnd (s : State) : Out := .next (issueV .vredAnd (bodyVred 3) s)

/-- VRED.or (R210, R232). -/
def execVredOr (s : State) : Out := .next (issueV .vredOr (bodyVred 4) s)

/-- VRED.xor (R210, R232). -/
def execVredXor (s : State) : Out := .next (issueV .vredXor (bodyVred 5) s)

/-- VSHUF.idx (R211). -/
def execVshufIdx (s : State) : Out := .next (issueV .vshufIdx (bodyVshuf shufIdx) s)

/-- VSHUF.rot (R211). -/
def execVshufRot (s : State) : Out := .next (issueV .vshufRot (bodyVshuf shufRot) s)

/-- VSHUF.lo (R211). -/
def execVshufLo (s : State) : Out := .next (issueV .vshufLo (bodyVshuf shufLo) s)

/-- VSHUF.hi (R211). -/
def execVshufHi (s : State) : Out := .next (issueV .vshufHi (bodyVshuf shufHi) s)

/-- VSHUF.rev (R211). -/
def execVshufRev (s : State) : Out := .next (issueV .vshufRev (bodyVshuf shufRev) s)

/-- VBCAST.s (R212). -/
def execVbcastS (s : State) : Out := .next (issueV .vbcastS bodyVbcastS s)

/-- VBCAST.lane (R212, R232). -/
def execVbcastLane (s : State) : Out := .next (issueV .vbcastLane bodyVbcastLane s)

/-- VSPEC.rcp (R213). -/
def execVspecRcp (s : State) : Out := .next (issueV .vspecRcp (bodyVspec (fun gn x _ => opRcp gn x)) s)

/-- VSPEC.rsqrt (R213). -/
def execVspecRsqrt (s : State) : Out := .next (issueV .vspecRsqrt (bodyVspec (fun gn x _ => opRsqrt gn x)) s)

/-- VSPEC.sqrt (R213). -/
def execVspecSqrt (s : State) : Out := .next (issueV .vspecSqrt (bodyVspec (fun gn x _ => opSqrt gn x)) s)

/-- VSPEC.div (R213). -/
def execVspecDiv (s : State) : Out := .next (issueV .vspecDiv (bodyVspec opDiv) s)

/-- VSPEC.exp2 (R213). -/
def execVspecExp2 (s : State) : Out := .next (issueV .vspecExp2 (bodyVspec (fun _ x _ => opExp2 x)) s)

/-- VSPEC.log2 (R213). -/
def execVspecLog2 (s : State) : Out := .next (issueV .vspecLog2 (bodyVspec (fun gn x _ => opLog2 gn x)) s)

/-- VSPEC.tanh (R213). -/
def execVspecTanh (s : State) : Out := .next (issueV .vspecTanh (bodyVspec (fun _ x _ => opTanh x)) s)

/-- VDOT.q (R214). -/
def execVdotQ (s : State) : Out := .next (issueV .vdotQ bodyVdotQ s)

/-- VDOT.p (R214). -/
def execVdotP (s : State) : Out := .next (issueV .vdotP bodyVdotP s)

/-- VAMAX (R216). -/
def execVamax (s : State) : Out := .next (issueV .vamax bodyVamax s)

/-- VSCALE (R217). -/
def execVscale (s : State) : Out := .next (issueV .vscale bodyVscale s)

/-- VQUANT (R218). -/
def execVquant (s : State) : Out := .next (issueV .vquant bodyVquant s)

/-- VTBL (R219). -/
def execVtbl (s : State) : Out := .next (issueV .vtbl bodyVtbl s)

/-- VENC (R219). -/
def execVenc (s : State) : Out := .next (issueV .venc bodyVenc s)

end Sys2Proof.Machine
end

