-- ==== Sys2Proof/Machine/VectorMem.lean ====
section
/-! DEFINITION. Vector memory, majors 0x5c–0x5f (R220–R223), sequenced loops 0x68, 0x69 (R227, R228), gangs 0x6a, 0x6b (R230–R234). -/

namespace Sys2Proof.Machine

open Sys2Proof

/-! Vector memory. -/

/-- A run of bytes that a vector access moves: bit position in v[D], byte offset from the effective address, bytes, active bits. -/
structure VChunk where
  pos : Nat
  ofs : Int
  n : Nat
  mask : Nat

/-- The active bits of the unit of `per` elements that begins at element e. -/
def unitMask (p : Half) (w e per : Nat) : Nat := packEls w ((List.range per).map (fun j => if live p w (e + j) then 2 ^ w - 1 else 0))

/-- The active chunks of the whole-register forms: an element each, or for sub-byte elements the byte or FP6 unit that holds them (R220). -/
def Env.lineChunks (e : Env) (s : State) : List VChunk :=
  let p := e.pgv s
  let w := e.w
  let per := if w = 4 then 2 else if w = 6 then 4 else 1
  let n := if w = 6 then 3 else max 1 (w / 8)
  ((List.range (e.n / per)).map (fun u => (⟨u * per * w, (u * n : Nat), n, unitMask p w (u * per) per⟩ : VChunk))).filter (fun c => c.mask != 0)

/-- The active chunks of the forms that place each element by itself; `f` gives the byte offset of an element. -/
def Env.elemChunks (e : Env) (s : State) (f : Nat → Int) : List VChunk :=
  let p := e.pgv s
  ((List.range e.n).filter (fun i => live p e.w i)).map (fun i => ⟨i * e.w, f i, e.w / 8, 2 ^ e.w - 1⟩)

/-- An element type the access does not accept: FORMAT with the pointer (R204, Table 111). -/
def Env.acceptAt (e : Env) (s : State) (ok : Bool) : Except Stop Unit :=
  trapIf (!ok) (Cause.at_ .format ((offAdd (e.a s) (ofsC e.o)).getD (e.a s))) s

/-- FEATURE_OFF, FORMAT and the pairing of pointer format and element type (R220). -/
def Env.vpair (e : Env) (s : State) (ok : Bool) : Except Stop Unit := do
  let p := e.a s
  let v := (offAdd p (ofsC e.o)).getD p
  trapIf (pFmt p == 15 && !s.feat0 5) (Cause.at_ .featureOff v) s
  trapIf (!fmtOk p || !ok) (Cause.at_ .format v) s

/-- The advanced base; a carry traps before any element is accessed (R220). -/
def Env.advanced (e : Env) (s : State) (adv : Word) : Except Stop Word :=
  let p := e.a s
  if adv = 0 then .ok p
  else if 6 ≤ pSpc p then e.trap s .space p
  else match offAdd p adv.toInt with
    | some q => .ok q
    | none => e.trap s .offsetOverflow p

/-- The effective address, when an element is accessed. -/
def Env.vea (e : Env) (s : State) (any : Bool) : Except Stop Unit :=
  let p := e.a s
  if !any then .ok ()
  else if 6 ≤ pSpc p then e.trap s .space p
  else if (offAdd p (ofsC e.o)).isNone then e.trap s .offsetOverflow p
  else .ok ()

/-- The request of a chunk. -/
def Env.vreq (e : Env) (s : State) (align : Nat) (k : AKind) (c : VChunk) : Req :=
  { base := e.a s, ofs := ofsC e.o + c.ofs, n := c.n, align := align, k := k, spaces := spStore, plain := true, held := true }

/-- Check every chunk before any is performed: per chunk the parts with their addresses, whose lines the detector holds (R223, R326). The whole of
a chunk is seen to stay in its offset field before its parts are translated (R78). -/
def Env.vcheckEach (e : Env) (align : Nat) (k : AKind) : List VChunk → State → Except Stop (List (VChunk × List (Req × Nat)) × State)
  | [], s => .ok ([], s)
  | c :: r, s => do
    let q := e.vreq s align k c
    let _ ← s.lift (s.formEa q)
    let (l, s) ← s.checkParts e.me q
    let (m, s) ← Env.vcheckEach e align k r s
    pure ((c, l) :: m, s)

def Env.vcheck (e : Env) (align : Nat) (k : AKind) (l : List VChunk) (s : State) : Except Stop (List (VChunk × List (Req × Nat)) × State) :=
  s.holding (e.vcheckEach align k l s)

/-- Replace the active bits of a chunk in a register value. -/
def VChunk.into (c : VChunk) (reg v : Nat) : Nat :=
  let m := c.mask * 2 ^ c.pos
  reg - (reg &&& m) + ((v * 2 ^ c.pos) &&& m)

/-- Load the chunks into a register value, in order. -/
def vloadRun (me : CtxId) : List (VChunk × List (Req × Nat)) → Nat → State → Nat × State
  | [], reg, s => (reg, s)
  | (c, l) :: r, reg, s =>
    let (b, s) := s.readSegs me Ord.plain l
    vloadRun me r (c.into reg (leNat b)) s

/-- The bytes a chunk stores over old ones. -/
def VChunk.out (c : VChunk) (reg : Nat) (old : List Byte) : List Byte :=
  let v := reg / 2 ^ c.pos % 2 ^ (8 * c.n)
  natLe c.n (leNat old - (leNat old &&& c.mask) + (v &&& c.mask))

/-- Store the chunks of a register value, in order. -/
def vstoreRun (me : CtxId) (reg : Nat) : List (VChunk × List (Req × Nat)) → State → State
  | [], s => s
  | (c, l) :: r, s => vstoreRun me reg r (s.writeSegs me Ord.plain l (c.out reg (l.flatMap (fun x => s.bytes x.2 x.1.n))))

/-- A vector load or store of chunks with its advance. -/
def Env.vmove (e : Env) (s : State) (store : Bool) (chunks : List VChunk) (adv : Word) : Except Stop (Ctl × State) := do
  e.vea s (!chunks.isEmpty)
  let q ← e.advanced s adv
  let align := if e.et = 0 then 4 else (e.w + 7) / 8
  let (l, s) ← e.vcheck align (if store then .write else .read) chunks s
  let reg := (s.rv e.me e.o.d.toNat).toNat
  let s :=
    if store then vstoreRun e.me reg l s
    else
      let (v, s) := vloadRun e.me l reg s
      s.wv e.me e.o.d.toNat (BitVec.ofNat 512 (if e.w = 6 then v % 2 ^ 504 else v))
  .ok (.next, if adv = 0 then s else s.ws e.me e.o.s1 q)

/-- Whole MX frames (R221). -/
def Env.vframes (e : Env) (s : State) (store : Bool) : Except Stop (Ctl × State) := do
  let p := e.a s
  e.vpair s (pFmt p == e.et && decide (1 ≤ pBlk p ∧ pBlk p ≤ 5))
  let f := frameBytes e.et (pBlk p)
  let k := (e.s3v s).toNat
  let g := (k * f + 63) / 64
  trapIf (decide (256 < k * f) || decide (32 < e.o.d.toNat + g)) (Cause.at_ .offsetOverflow p) s
  if k = 0 ∨ predBit (e.pgv s) 0 = false then .ok (.next, s)
  else
    e.vea s true
    let adv := e.s2v s
    let q ← e.advanced s adv
    let chunks : List VChunk := (List.range k).map (fun i => ⟨8 * (i * f), (i * f : Nat), f, 2 ^ (8 * f) - 1⟩)
    let (l, s) ← e.vcheck 1 (if store then .write else .read) chunks s
    let s :=
      if store then vstoreRun e.me (leNat (s.groupBytes e.me e.o.d.toNat g)) l s
      else let (v, s) := vloadRun e.me l 0 s; s.setGroup e.me e.o.d.toNat (natLe (k * f) v)
    .ok (.next, if adv = 0 then s else s.ws e.me e.o.s1 q)

/-- The pointer formats ET 0 to 15 accept (R220). -/
def pairOk (p : Word) (et : Nat) : Bool := if et = 0 then decide (pFmt p ≤ 15) else pFmt p == 0 || pFmt p == et

/-- VLD and VST (R220, R221). -/
def bodyVls (store : Bool) : Body := fun e s => do
  if 16 ≤ e.et then e.vframes s store
  else
    e.vpair s (pairOk (e.a s) e.et)
    e.vmove s store (e.lineChunks s) (e.s2v s)

/-- VLD.str and VST.str (R220). -/
def bodyVlsStr (store : Bool) : Body := fun e s => do
  e.acceptAt s (decide (e.et < 16) && [8, 16, 32, 64].contains (elemWidth e.et))
  e.vpair s (pairOk (e.a s) e.et)
  let step := (e.s2v s).toInt
  e.vmove s store (e.elemChunks s (fun i => i * step)) (e.s3v s)

/-- The signed index of element e: lane e of v[S2], lane 2e for 64-bit elements (R222). -/
def Env.vindex (e : Env) (s : State) (i : Nat) : Int := signedOf 32 (vel (s.rv e.me e.o.s2.toNat) 32 (if e.w = 64 then 2 * i else i))

/-- VGTH and VSCT (R222). -/
def bodyVgs (store : Bool) : Body := fun e s => do
  e.acceptAt s (e.et == 0 || e.et == 4 || e.et == 5 || e.et == 6)
  e.vpair s (pairOk (e.a s) e.et)
  e.vmove s store (e.elemChunks s (fun i => e.vindex s i * (e.w / 8 : Nat))) (e.s3v s)

/-! Sequenced loops (R227, R228). -/

/-- The line that holds an address, for CheckBody: the line the VSEQ stands in, or a fetched one with its checks (R70, R74). -/
def State.bodyLine (s : State) (c : CtxId) (base0 : Word) (line0 : List Byte) (a : Word) : Except Stop (List Byte × State) :=
  if lineBase a = base0 then .ok (line0, s)
  else
    match s.fetchLine c (lineBase a) with
    | .wait w s => .error (.wait w s)
    | .fault t s => .error (.trap t s)
    | .line b s =>
      match lineError b with
      | some .header => .error (.trap (Cause.at_ .reservedField (lineBase a)) s)
      | some .overflow => .error (.trap (Cause.at_ .illegal (lineBase a)) s)
      | none => .ok (b, s)

/-- A body instruction uses s[n] as a base or as an advance. -/
def usesScalar (i : Inst) (n : BitVec 5) : Bool :=
  match i.row with
  | .vld | .vst => i.o.s1 == n || i.o.s2 == n
  | .vldStr | .vstStr | .vgth | .vsct => i.o.s1 == n || i.o.s3 == n
  | _ => false

/-- The lines of a body as CheckBody finds them: the line base and bytes of each. -/
abbrev BodyLines := List (Word × List Byte)

/-- What a body head breaks (R228): a major outside 0x50 to 0x67, or a use of the loop's register as a base or an advance. -/
def badBody (b : List Byte) (a : Word) (n : BitVec 5) : Bool :=
  let m := ((headParts b (headIndex a)).1.extractLsb' 6 7).toNat
  !decide (0x50 ≤ m ∧ m ≤ 0x67) || (match decodeHead b (headIndex a) with | .ok i => usesScalar i n | .error _ => false)

/-- The head at `a` stands just before the target of the VSEQ: the target is the next head, be it behind one empty line (R71). -/
def State.endsBody (s : State) (c : CtxId) (base0 : Word) (line0 : List Byte) (target : Word) (b : List Byte) (a : Word) :
    Except Stop (Bool × State) :=
  let (next, e) := nextHead b a
  if next = target then .ok (true, s)
  else if e = .fall ∧ target = nextLine (lineBase next) then do
    let (b', s) ← s.bodyLine c base0 line0 next
    pure (headCount b' == 0, s)
  else .ok (false, s)

/-- The head that closes a body is a VSEQE with the register of the VSEQ, which goes back to the first head of the body (R228). -/
def closesBody (n : BitVec 5) (first : Word) (b : List Byte) (a : Word) : Bool :=
  match decodeHead b (headIndex a) with
  | .error _ => false
  | .ok i => i.row == .vseqe && i.o.s1 == n && branchTarget a i.o.immS == some first

/-- CheckBody of R228 from the head at `a` on, with `k` body heads before it and the lines `ls` fetched; `gap`: the line before was empty and
skipped, which one may be (R71). The fuel covers 15 heads and the VSEQE, each behind an empty line. -/
def State.checkBody (s : State) (c : CtxId) (base0 : Word) (line0 : List Byte) (n : BitVec 5) (target : Word) :
    Nat → Nat → Word → Bool → Word → BodyLines → Except Stop (BodyLines × State)
  | 0, _, _, _, a, _ => .error (.trap (Cause.at_ .illegal a) s)
  | fuel + 1, k, first, gap, a, ls => do
    let (b, s) ← s.bodyLine c base0 line0 a
    let ls := if ls.any (fun x => x.1 == lineBase a) then ls else ls ++ [(lineBase a, b)]
    if headCount b ≤ headIndex a then
      if headCount b = 0 ∧ gap = false then
        let a' := nextLine (lineBase a)
        s.checkBody c base0 line0 n target fuel k (if k = 0 then a' else first) true a' ls
      else .error (.trap (Cause.at_ .illegal (if gap then lineBase a else a)) s)
    else do
      let (ends, s) ← s.endsBody c base0 line0 target b a
      if ends then
        trapIf (k == 0 || !closesBody n first b a) (Cause.at_ .illegal a) s
        pure (ls, s)
      else
        trapIf (decide (15 ≤ k) || badBody b a n) (Cause.at_ .illegal a) s
        s.checkBody c base0 line0 n target fuel (k + 1) first false (nextHead b a).1 ls

/-- VSEQ: the check is made by the core of the leader, whose stream it is, and the checked body is kept (R227). A target past the offset field
has no head before it: that trap comes first (R77, log 41). -/
def bodyVseq : Body := fun e s => do
  let lead := s.leadOf e.me
  let k := s.ctx lead
  let first := (nextHead k.line k.pc).1
  let t ← e.target s
  let s ← (if e.me ≠ lead then .ok s
    else do
      let (ls, s) ← s.checkBody lead (lineBase k.pc) k.line e.o.s1 t 40 0 first false first []
      pure (if e.a s = 0 then s else s.modCtx lead (fun k => { k with body := ls })) : Except Stop State)
  .ok (if e.a s = 0 then .jump t else .next, s)

/-- VSEQE: a target past the offset field traps whether or not it branches, as R145 has it of other branches (log 41). The kept body is given up
when the loop ends. -/
def bodyVseqe : Body := fun e s => do
  let n := (e.a s).toNat
  let t ← e.target s
  if n ≤ 1 then .ok (.next, (s.ws e.me e.o.s1 0).modCtx (s.leadOf e.me) (fun k => { k with body := [] }))
  else .ok (.jump t, s.ws e.me e.o.s1 (BitVec.ofNat 64 (n - 1)))

/-! Gangs. -/

/-- The gang's block is at an aligned corner, within the launch's core rectangle and made of live uncoupled cores of the launch (R230). -/
def State.gangOk (s : State) (c : CoreId) (code : Nat) : Bool :=
  let (w, h) := gangShape code
  let r : Half := match s.launchOf c with | some l => BitVec.ofNat 16 l.desc.rect | none => 0
  let x := posX c.pos
  let y := posY c.pos
  decide (x % w = 0) && decide (y % h = 0) && decide (rectX0 r ≤ x) && decide (x + w ≤ rectX1 r + 1) && decide (rectY0 r ≤ y) &&
    decide (y + h ≤ rectY1 r + 1) &&
    (gangBlock code c.pos).all (fun p => s.livePos (dieOf c.vt) p && (s.core ⟨c.vt, p⟩).launch.isSome &&
      (s.core ⟨c.vt, p⟩).launchId == (s.core c).launchId && (s.core ⟨c.vt, p⟩).tandem.isNone)

/-- The members of a leader's gang, leader first. -/
def gangMembers (lead : CtxId) (code : Nat) : List CtxId := (gangBlock code lead.core.pos).map (fun p => ⟨⟨lead.core.vt, p⟩, lead.ctx⟩)

/-- Reserve the follower helpers that are free and not claimed by a leader of a lower position (R231). -/
def State.reserve (s : State) (lead : CtxId) (ms : List CtxId) : List CtxId → State
  | [] => s
  | m :: r =>
    let k := s.ctx m
    let mine := match s.claimant m with | some d => decide (lead.core.pos ≤ d.core.pos) | none => true
    (if m ≠ lead ∧ k.st = .free ∧ mine = true then s.setCtx m { k with st := .reserved, gang := some ⟨ms, none⟩ } else s).reserve lead ms r

/-- Every follower is reserved for the leader. -/
def State.allReserved (s : State) (lead : CtxId) (ms : List CtxId) : Bool :=
  ms.all (fun m => m == lead || ((s.ctx m).st == .reserved && (s.ctx m).gang.map (fun g => g.members) == some ms))

/-- The followers become live (R231), in user mode whatever the leader's (log 48). Table 98 pairs no release of GANG with them. -/
def State.formGang (s : State) (lead : CtxId) (ms : List CtxId) : State :=
  let k := s.ctx lead
  let s := ms.foldl (fun s m =>
    if m = lead then s
    else
      s.setCtx m { Ctx.reset m.ctx with
        s := k.s, p := k.p, lpct := k.lpct, mode := k.mode, seed := k.seed ^^^ BitVec.ofNat 32 (identC m), pc := k.pc, st := .ready,
        origin := .follower, gang := some ⟨ms, none⟩, hb := { Hb.none_ with all := (s.ctx m).hb.all } }) s
  s.modCtx lead (fun k => { k with gang := some ⟨ms, none⟩ })

/-- GANG (R230, R231): it completes when every follower is reserved. -/
def bodyGang (code : Nat) : Body := fun e s => do
  e.noGang s
  trapIf (!s.gangOk e.me.core code) (Cause.at_ .gang 0) s
  let ms := gangMembers e.me code
  if (s.tile e.me.core.vt).draining then .error (.wait (.gang code) s)
  else
  let s := (s.commit e.me).reserve e.me ms ms
  if s.allReserved e.me ms then .ok (.next, s.formGang e.me ms) else .error (.wait (.gang code) s)

/-- A waiting leader reserves what has become free, and forms its gang when every follower is reserved. The reservation commits, as at issue
(R421), for one that began to wait while its tile drained. -/
def State.gangStep (s : State) (lead : CtxId) : State :=
  match (s.ctx lead).st with
  | .waiting (.gang code) _ =>
    let ms := gangMembers lead code
    if (s.tile lead.core.vt).draining || (s.tile lead.core.vt).stopped then s
    else
    let s := (s.commit lead).reserve lead ms ms
    if s.allReserved lead ms then (s.finishWaiting lead).formGang lead ms else s
  | _ => s

/-- Earlier instructions of a context are complete. -/
def State.quiet (s : State) (c : CtxId) : Bool :=
  let k := s.ctx c
  k.posted == 0 && k.remote == 0 && !(s.core c.core).vseq.any (fun v => v.ctx == c.ctx) && !s.mqHas c

/-- UNGANG (R233): the leader's part ends the gang once every member is quiet. -/
def bodyUngang : Body := fun e s => do
  let ms := e.s0.members e.me
  if ms.length ≤ 1 ∨ ms.head? ≠ some e.me then .ok (.next, s)
  else if !ms.all e.s0.quiet then .error (.wait .earlier s)
  else .ok (.next, s.modCtx e.me (fun k => { k with gang := none }))

/-- The followers release at tile scope, the leader acquires, and the followers become free. -/
def State.disband (s : State) (lead : CtxId) : List CtxId → State
  | [] => s
  | m :: r =>
    (if m = lead then s else (s.acquireInfo lead (s.release m)).freeHelper m false).disband lead r

/-- VLD (R220, R221). -/
def execVld (s : State) : Out := .next (issueV .vld (bodyVls false) s)

/-- VST (R220, R221). -/
def execVst (s : State) : Out := .next (issueV .vst (bodyVls true) s)

/-- VLD.str (R220). -/
def execVldStr (s : State) : Out := .next (issueV .vldStr (bodyVlsStr false) s)

/-- VST.str (R220). -/
def execVstStr (s : State) : Out := .next (issueV .vstStr (bodyVlsStr true) s)

/-- VGTH (R222). -/
def execVgth (s : State) : Out := .next (issueV .vgth (bodyVgs false) s)

/-- VSCT (R222). -/
def execVsct (s : State) : Out := .next (issueV .vsct (bodyVgs true) s)

/-- VSEQ (R227, R228). -/
def execVseq (s : State) : Out := .next (issue .vseq bodyVseq s)

/-- VSEQE (R227). -/
def execVseqe (s : State) : Out := .next (issue .vseqe bodyVseqe s)

/-- GANG.2 (R230, R231). -/
def execGang2 (s : State) : Out := .next (issue .gang2 (bodyGang 0) s)

/-- GANG.4 (R230, R231). -/
def execGang4 (s : State) : Out := .next (issue .gang4 (bodyGang 1) s)

/-- GANG.8 (R230, R231). -/
def execGang8 (s : State) : Out := .next (issue .gang8 (bodyGang 2) s)

/-- UNGANG (R233): after the leader's part has ended the gang, its followers become free. -/
def execUngang (s : State) : Out :=
  let ms := s.members s.cur
  let t := issue .ungang bodyUngang s
  .next (if decide (1 < ms.length) && (t.ctx s.cur).gang.isNone then t.disband s.cur ms else t)

/-- The meaning of a vector instruction in the sequencer. -/
def vectorBody (row : Instr) : Body :=
  match row with
  | .vadd => bodyVadd
  | .vaddSat => bodyVaddSat
  | .vsub => bodyVsub
  | .vsubSat => bodyVsubSat
  | .vmul => bodyVmul
  | .vmulHi => bodyVmulHi
  | .vmulSat => bodyVmulSat
  | .vfma => (bodyVfma false false)
  | .vfmaMs => (bodyVfma false true)
  | .vfmaNm => (bodyVfma true false)
  | .vminmaxMin => (bodyVminmax false)
  | .vminmaxMax => (bodyVminmax true)
  | .vnegabsNeg => (bodyVnegabs false)
  | .vnegabsAbs => (bodyVnegabs true)
  | .vsel => bodyVsel
  | .vintAnd => (bodyVint etI0 (fun _ a b => a &&& b))
  | .vintOr => (bodyVint etI0 (fun _ a b => a ||| b))
  | .vintXor => (bodyVint etI0 (fun _ a b => a ^^^ b))
  | .vintAndn => (bodyVint etI0 (fun _ a b => a - (a &&& b)))
  | .vintShl => (bodyVint etI (fun w a b => a * 2 ^ (b % w)))
  | .vintShr => (bodyVint etI (fun w a b => a / 2 ^ (b % w)))
  | .vintSra => (bodyVint etI (fun w a b => wrapTo w (signedOf w a / (2 ^ (b % w) : Nat))))
  | .vintPopc => (bodyVint etI (fun w a _ => popNat w a))
  | .vcmpEq => (bodyVcmp 0)
  | .vcmpNe => (bodyVcmp 1)
  | .vcmpLt => (bodyVcmp 2)
  | .vcmpGe => (bodyVcmp 3)
  | .vcmpLe => (bodyVcmp 4)
  | .vcmpGt => (bodyVcmp 5)
  | .vcmpUn => (bodyVcmp 6)
  | .vcvt => (bodyVcvt false)
  | .vcvtSat => (bodyVcvt true)
  | .vredSum => (bodyVred 0)
  | .vredMin => (bodyVred 1)
  | .vredMax => (bodyVred 2)
  | .vredAnd => (bodyVred 3)
  | .vredOr => (bodyVred 4)
  | .vredXor => (bodyVred 5)
  | .vshufIdx => (bodyVshuf shufIdx)
  | .vshufRot => (bodyVshuf shufRot)
  | .vshufLo => (bodyVshuf shufLo)
  | .vshufHi => (bodyVshuf shufHi)
  | .vshufRev => (bodyVshuf shufRev)
  | .vbcastS => bodyVbcastS
  | .vbcastLane => bodyVbcastLane
  | .vspecRcp => (bodyVspec (fun gn x _ => opRcp gn x))
  | .vspecRsqrt => (bodyVspec (fun gn x _ => opRsqrt gn x))
  | .vspecSqrt => (bodyVspec (fun gn x _ => opSqrt gn x))
  | .vspecDiv => (bodyVspec opDiv)
  | .vspecExp2 => (bodyVspec (fun _ x _ => opExp2 x))
  | .vspecLog2 => (bodyVspec (fun gn x _ => opLog2 gn x))
  | .vspecTanh => (bodyVspec (fun _ x _ => opTanh x))
  | .vdotQ => bodyVdotQ
  | .vdotP => bodyVdotP
  | .vamax => bodyVamax
  | .vscale => bodyVscale
  | .vquant => bodyVquant
  | .vtbl => bodyVtbl
  | .venc => bodyVenc
  | .vld => (bodyVls false)
  | .vst => (bodyVls true)
  | .vldStr => (bodyVlsStr false)
  | .vstStr => (bodyVlsStr true)
  | .vgth => (bodyVgs false)
  | .vsct => (bodyVgs true)
  | _ => bodyNop

/-- A waiting leader reserves followers and forms its gang (R231). -/
def execGangFormation (s : State) : Out := .next (s.gangStep s.ev.ctx)

/-- The sequencer performs the oldest instruction of a context (R224, R226). -/
def execVectorSequencerExecute (s : State) : Out := .next (s.seqRun vectorBody s.ev.ctx)

end Sys2Proof.Machine
end

