-- ==== Sys2Proof/Machine/Matrix.lean ====
section
/-! DEFINITION. The matrix unit and gaits: majors 0x6c–0x71 (R237–R253, R121–R124), and the steps of the matrix queue. -/

namespace Sys2Proof.Machine

open Sys2Proof

/-! Gaits (R249, R250). -/

/-- Who evaluates a gait: the overflow mode and the NaN an invalid operation generates. -/
structure GaitEnv where
  sat : Bool
  gn : Nat

/-- The source operand of a code of Table 74. -/
def gaitSrc (g : Gait) (z x y t code : Nat) : Nat :=
  match code with
  | 0 => z | 1 => x | 2 => y | 3 => t
  | n => (g.k.getD (n - 4) 0).toNat

/-- PowK of R250 over the bits of n from bit q − 1 down. -/
def powK (v : GaitEnv) (b n : Nat) : Nat → Nat → Nat
  | 0, p => p
  | q + 1, p =>
    let p := roundAcc v.sat (opMul v.gn (f32 p) (f32 p)).1
    powK v b n q (if n.testBit q then roundAcc v.sat (opMul v.gn (f32 p) (f32 b)).1 else p)

/-- One operation on FP32 bits (Table 75); `d` is the old destination. -/
def gaitOp (v : GaitEnv) (opc a b d n : Nat) : Nat :=
  let x := f32 a
  let y := f32 b
  match opc with
  | 0 => roundAcc v.sat (opAdd 0 v.gn x y).1
  | 1 => roundAcc v.sat (opAdd 0 v.gn x y.negate).1
  | 2 => roundAcc v.sat (opMul v.gn x y).1
  | 3 => roundAcc v.sat (opFma 0 v.gn x y (f32 d)).1
  | 4 => (Fmt.f32.minMax false a b).1
  | 5 => (Fmt.f32.minMax true a b).1
  | 6 => match firstNaN [x, y] with
    | some r => roundAcc v.sat r.1
    | none => if cmpNum x y == .gt then a else 0
  | _ => roundAcc v.sat (opMul v.gn x (f32 (powK v b n 32 0x3f800000))).1

/-- The operations of a gait in order: z at the end. -/
def gaitRun (v : GaitEnv) (g : Gait) (x y n : Nat) : List (BitVec 32) → Nat → Nat → Nat
  | [], z, _ => z
  | w :: r, z, t =>
    let f := fun lo len => natBits w.toNat lo len
    let toZ := w.getLsbD 12
    let res := gaitOp v (f 13 3) (gaitSrc g z x y t (f 8 4)) (gaitSrc g z x y t (f 4 4)) (if toZ then z else t) n
    gaitRun v g x y n r (if toZ then res else z) (if toZ then t else res)

/-- A gait evaluation on FP32 bits. -/
def gaitEval (v : GaitEnv) (g : Gait) (z x y n : Nat) : Nat := gaitRun v g x y n (g.ops.take g.len) z 0

/-! Operands (R239, R240). -/

/-- COUNT of a guard register, or a default for s0, with the guard pointer's traps (R239, R244 steps 2 and 3, R285). An aligned word never passes
its offset field, and a misaligned pointer traps MISALIGN wherever it points. -/
def Env.guardWord (e : Env) (s : State) (r : BitVec 5) (dflt : Nat) : Except Stop (Nat × State) := do
  if r = 0 then pure (dflt, s)
  else
    let p := s.rs e.me r
    trapIf (pFmt p == 15 && !s.feat0 5) (Cause.at_ .featureOff p) s
    trapIf ((pFmt p != 0 && pFmt p != 5) || pBlk p != 0) (Cause.at_ .format p) s
    let n := if misaligned p 8 then 1 else 8
    let q : Req := { base := p, ofs := 0, n := n, align := 8, k := .read, spaces := spTag, plain := true, held := true }
    let (a, s) ← s.coreAddr e.me q
    let (v, s) := s.readAt e.me p a 8 true Ord.plain
    pure (v % 65536, s)

/-- Rows of a matrix instruction: at most 16 (R239). -/
def Env.guardCount (e : Env) (s : State) (r : BitVec 5) : Except Stop (Nat × State) := do
  let (n, s) ← e.guardWord s r 16
  pure (min n 16, s)

/-- What a matrix instruction has read and checked at issue (R237): rows, flat address of the B block, A scales, gait, and the bytes of its rows. -/
structure MPlan where
  m : Nat
  base : Nat
  scales : List Byte
  gait : Gait
  segs : List (List Seg)

def Gait.zero : Gait := ⟨0, [], []⟩

/-- The plan of an instruction that reads no operand, which m = 0 stands for, and of one that moves rows of memory. -/
def MPlan.none_ : MPlan := ⟨0, 0, [], Gait.zero, []⟩
def MPlan.ofSegs (m : Nat) (l : List (List Seg)) : MPlan := ⟨m, 0, [], Gait.zero, l⟩

/-- The accepted element types of Table 70. -/
def matEt (row : Instr) (et : Nat) : Bool :=
  match row with
  | .mma => et == 8 || et == 9 || et == 10
  | .mmas => etMx et
  | _ => et == 6 || et == 8

/-- The checks and reads made at issue (R237, R244 steps 1 to 5). -/
def Env.matIssue (e : Env) (s : State) : Except Stop (MPlan × State) := do
  e.accept s (matEt e.row)
  let (m, s) ← e.guardCount s e.o.s2
  let scaled := e.row = Instr.mmas
  let n := if scaled then 2176 else 2048
  let p := e.a s
  let gait := (s.core e.me.core).gaits.get (e.o.fn.toNat % 4) Gait.zero
  let scales := if scaled then s.groupBytes e.me e.o.s3.toNat 2 else []
  if m = 0 then pure (MPlan.none_, s)
  else
    trapIf (pFmt p == 15 && !s.feat0 5) (Cause.at_ .featureOff p) s
    trapIf (pFmt p != 0 || pBlk p != 0) (Cause.at_ .format p) s
    trapIf (pSpc p != 0 || pRel p || unassigned p != 0) (Cause.at_ .space p) s
    trapIf (decide (pOff p % 64 ≠ 0)) (Cause.at_ .misalign p) s
    trapIf (decide (0x20000 < pOff p + n)) (Cause.at_ .offsetOverflow p) s
    trapIf (!s.permitted e.me.core.vt (e.k s).sup 0 (pOff p) n .read) (Cause.at_ .protect p) s
    pure (⟨m, flatTcm e.me.core (pOff p), scales, gait, []⟩, s)

/-- K and the summation group of a matrix multiply (Table 70). -/
def matK (et : Nat) : Nat := if et = 8 then 64 else if et = 20 then 256 else 128
def matG (et : Nat) : Nat := if et = 8 then 16 else 32

/-- Element e of a row or column image as a value. -/
def matElem (et img e : Nat) : FVal :=
  let w := if et = 8 then 16 else elemWidth et
  mxElem et 0x7fc00000 (img / 2 ^ (w * e) % 2 ^ w)

/-- One accumulator element over the groups from k on (R122, R243): `ca` and `cb` give the scale codes of group k. -/
def matAcc (sat : Bool) (ctxn et row col : Nat) (ca cb : Nat → Nat) : Nat → Nat → Nat → Nat
  | 0, _, acc => acc
  | n + 1, k, acc =>
    let g := matG et
    let nid : NanId := ⟨2, ctxn, k⟩
    let ab := (List.range g).map (fun i => (matElem et row (k * g + i), matElem et col (k * g + i)))
    let p := groupProduct sat nid (ca k == 255 || cb k == 255) ab ((ca k : Int) + cb k - 254)
    matAcc sat ctxn et row col ca cb n (k + 1) (accumulate sat nid acc p)

/-- One accumulator element through the gait over k (R252). -/
def gaitAcc (sat : Bool) (ctxn et : Nat) (g : Gait) (row col : Nat) : Nat → Nat → Nat → Nat
  | 0, _, z => z
  | n + 1, k, z =>
    let w := if et = 8 then 16 else 32
    let x := fun img => img / 2 ^ (w * k) % 2 ^ w * (if et = 8 then 65536 else 1)
    gaitAcc sat ctxn et g row col n (k + 1) (gaitEval ⟨sat, genNaN 5 k ctxn 3⟩ g z (x row) (x col) k)

/-- Bytes of a column that are read (Table 70). -/
def colBytes (et : Nat) : Nat := if et = 18 ∨ et = 19 then 96 else 128

/-- An error that cannot be corrected stands in the bytes of the B block and its scales that are read. -/
def Env.blockPoisoned (e : Env) (s : State) (base : Nat) : Bool :=
  (List.range 16).any (fun j => s.poisoned (base + 128 * j) (colBytes e.et)) || (e.row == .mmas && s.poisoned (base + 2048) 128)

/-- The operand read and the result (R240, R243, R244 step 6). -/
def Env.matRead (e : Env) (s : State) (pl : MPlan) : Except Stop Acc := do
  trapIf (e.blockPoisoned s pl.base) (Cause.at_ .uncorrectable (e.a s)) s
  trapIf ((e.k s).gbad.getLsbD (if e.o.imm.getLsbD 0 then 1 else 0)) (Cause.at_ .uncorrectable 0) s
  let latch := s.rg e.me (if e.o.imm.getLsbD 0 then 1 else 0)
  let old := s.ra e.me e.o.d.toNat
  let sat := !e.o.imm.getLsbD 1
  let cols := (List.range 16).map (fun j => leNat (s.bytes (pl.base + 128 * j) 128))
  let ctxn := e.me.ctx
  let elem := fun (ix : Fin 256) =>
    let i := ix.val / 16
    let j := ix.val % 16
    let z := (old.toArray.getD ix.val 0).toNat
    let row := (latch.toArray.getD i 0).toNat
    let col := cols.getD j 0
    if pl.m ≤ i then BitVec.ofNat 32 z
    else if e.row = Instr.mgait then
      BitVec.ofNat 32 (gaitAcc sat ctxn e.et pl.gait row col (if e.et = 8 then 64 else 32) 0 z)
    else
      let scaled := e.row = Instr.mmas
      let ca := fun k => if scaled then (pl.scales.getD (8 * i + k) 0).toNat else 127
      let cb := fun k => if scaled then (s.byte (pl.base + 2048 + 8 * j + k)).toNat else 127
      BitVec.ofNat 32 (matAcc sat ctxn e.et row col ca cb (matK e.et / matG e.et) 0 z)
  pure (Vector.ofFn elem)

/-! Instructions that move rows (R237): their checks at issue, then their accesses. -/

/-- The bytes of checked parts. -/
def segsOfParts (l : List (Req × Nat)) : List Seg := l.map (fun x => ⟨x.1.ea, x.1.n, x.2⟩)

/-- The checks of rows again, as their accesses are performed: the detector looks at a plain access, and bytes that are read must hold no error
that cannot be corrected (R170). All rows pass before any is moved, and `ea` is the address of the row (R223, R325, R326). -/
def State.recheck (s : State) (c : CtxId) (plain write : Bool) (ea : Word) : List Seg → Except Stop State
  | [] => .ok s
  | x :: r => do
    if plain then s.confCheck c ea x.a (x.a + x.n) write else pure ()
    trapIf (!write && s.poisoned x.a x.n) (Cause.at_ .uncorrectable ea) s
    (if plain then s.confHold c x.a (x.a + x.n) write else s).recheck c plain write ea r

def State.recheckRows (s : State) (c : CtxId) (plain write : Bool) : List (List Seg) → Except Stop (Unit × State)
  | [] => .ok ((), s)
  | x :: r => do
    let s ← s.recheck c plain write ((x.head?.map (fun y => y.ea)).getD 0) x
    s.recheckRows c plain write r

/-- Read the parts of a row. -/
def State.readRow (s : State) (c : CtxId) (plain : Bool) : List Seg → List Byte × State
  | [] => ([], s)
  | x :: r =>
    let b := s.bytes x.a x.n
    let (_, s) := s.readAt c x.ea x.a x.n plain Ord.plain
    let (l, s) := s.readRow c plain r
    (b ++ l, s)

/-- Read rows in ascending order, once all have passed. -/
def State.readEach (s : State) (c : CtxId) (plain : Bool) : List (List Seg) → List (List Byte) × State
  | [] => ([], s)
  | x :: r =>
    let (b, s) := s.readRow c plain x
    let (l, s) := s.readEach c plain r
    (b :: l, s)

def State.readRows (s : State) (c : CtxId) (plain : Bool) (l : List (List Seg)) : Except Stop (List (List Byte) × State) := do
  let (_, s) ← s.holding (s.recheckRows c plain false l)
  pure (s.readEach c plain l)

/-- Write bytes to parts whose checks were made. -/
def State.writeRow (s : State) (c : CtxId) : List Seg → List Byte → State
  | [], _ => s
  | x :: r, b => (s.writeAt c x.ea x.a (b.take x.n) true Ord.plain).writeRow c r (b.drop x.n)

/-- Write rows in ascending order, once all have passed. -/
def State.writeRows (s : State) (c : CtxId) (l : List (List Seg)) (b : List Byte) : Except Stop State := do
  let (_, s) ← s.holding (s.recheckRows c true true l)
  pure (s.writeRow c l.flatten b)

/-! MLAT (R242). -/

/-- The base of the rows advanced to row i: E of R164, advanced again by the byte rule of ADDP.b. -/
def Env.latReq (e : Env) (s : State) (i : Nat) : Req :=
  { base := e.a s, ofs := ofsC e.o + signedOf 32 (vel (s.rv e.me e.o.s2.toNat) 32 i), n := 128, align := 64, k := .read, spaces := spStore,
    plain := false, held := false }

/-- The checks of the rows in ascending order, each in the order of R170; E itself may carry out of its offset field too. -/
def Env.latCheck (e : Env) : List Nat → State → Except Stop (List (List Seg) × State)
  | [], s => .ok ([], s)
  | i :: r, s => do
    let _ ← s.lift (s.formEa (e.latReq s i))
    trapIf (offAdd (e.a s) (ofsC e.o)).isNone (Cause.at_ .offsetOverflow (e.a s)) s
    let (l, s) ← s.checkWhole e.me (e.latReq s i)
    let (m, s) ← Env.latCheck e r s
    pure (segsOfParts l :: m, s)

/-- The checks of MLAT at issue: ET, the guard, then the rows (R242). -/
def Env.latPlan (e : Env) (s : State) : Except Stop (MPlan × State) := do
  e.accept s (fun et => et == 0)
  let (m, s) ← e.guardCount s e.o.s3
  if m = 0 then pure (MPlan.none_, s)
  else
    let (l, s) ← e.latCheck (List.range m) s
    pure (MPlan.ofSegs m l, s)

/-- MLAT: rows below the count are read, the others zero. -/
def Env.latRun (e : Env) (s : State) (pl : MPlan) : Except Stop State := do
  if pl.m = 0 then pure s
  else
    let (l, s) ← s.readRows e.me false pl.segs
    let rows := l.map leNat
    pure (s.wg e.me (e.o.d.toNat % 2) (Vector.ofFn (fun (i : Fin 16) => BitVec.ofNat 1024 (rows.getD i.val 0))))

/-! MACC (R248). -/

/-- The request of element i of a memory form, w bytes each. The address as a whole keeps to 64 bytes, which element 0 shows. -/
def Env.maccReq (e : Env) (s : State) (w : Nat) (k : AKind) (i : Nat) : Req :=
  { base := e.a s, ofs := ofsC e.o + (w * i : Nat), n := w, align := if i = 0 then 64 else w, k := k, spaces := spStore, plain := true, held := true }

/-- The checks of a form at issue: element type, then the elements in ascending order, each in the order of R170 (R223). -/
def Env.maccPlan (e : Env) (s : State) : Except Stop (MPlan × State) := do
  let (ok, w, k) : (Nat → Bool) × Nat × AKind := match e.row with
    | .maccZero => (fun et => et == 0, 0, .read)
    | .maccLd => (fun et => et == 6, 4, .read)
    | .maccSt => (fun et => et == 6, 4, .write)
    | _ => (fun et => decide (7 ≤ et ∧ et ≤ 10), e.w / 8, .write)
  e.accept s ok
  if w = 0 then pure (MPlan.ofSegs 16 [], s)
  else
    let (l, s) ← s.checkAll e.me ((List.range 256).map (e.maccReq s w k))
    pure (MPlan.ofSegs 16 (l.map (fun x => segsOfParts [x])), s)

/-- MACC.zero. -/
def Env.maccZero (e : Env) (s : State) : Except Stop State := .ok (s.wa e.me e.o.d.toNat (Vector.replicate 256 0))

/-- MACC.ld. -/
def Env.maccLd (e : Env) (s : State) (pl : MPlan) : Except Stop State := do
  let (l, s) ← s.readRows e.me true pl.segs
  let n := leNat l.flatten
  pure (s.wa e.me e.o.d.toNat (Vector.ofFn (fun (i : Fin 256) => BitVec.ofNat 32 (n / 2 ^ (32 * i.val)))))

/-- MACC.st. -/
def Env.maccSt (e : Env) (s : State) (pl : MPlan) : Except Stop State := do
  s.writeRows e.me pl.segs ((s.ra e.me e.o.d.toNat).toList.flatMap (fun x => natLe 4 x.toNat))

/-- MACC.cvt: 256 elements converted from FP32, in order. -/
def Env.maccCvt (e : Env) (s : State) (pl : MPlan) : Except Stop State := do
  let els := (s.ra e.me e.o.d.toNat).toList.map (fun x => f32 x.toNat)
  let g := fun i => let x := els.getD i (.fin false 0 0); (x.exact, flagIf fNV x.isSig)
  let (codes, fl, sd) := roundEls e.fmt (e.rmv s) (fun _ => true) (fun _ => 0) g (List.range 256) 0 (e.k s).seed
  let s ← s.writeRows e.me pl.segs (codes.flatMap (fun x => natLe (e.w / 8) x))
  pure (s.flagSeed e.me fl sd)

/-! GAITL (R249, R251). -/

/-- An operation word keeps to Table 74. -/
def opwOk (w : Nat) : Bool := decide (natBits w 8 4 < 8) && decide (natBits w 4 4 < 8) && natBits w 0 4 == 0

/-- The gait of a 32-byte image, when the image is valid. -/
def gaitOf (b : List Byte) : Option Gait :=
  let n := (b.headD 0).toNat
  let ops := (List.range 4).map (fun i => leNat ((b.drop (8 + 2 * i)).take 2))
  let k := (List.range 4).map (fun i => BitVec.ofNat 32 (leNat ((b.drop (16 + 4 * i)).take 4)))
  if decide (n ≤ 4) && leNat ((b.drop 1).take 7) == 0 && (ops.take n).all opwOk && (ops.drop n).all (fun w => w == 0) then
    some { len := n, ops := ops.map (fun w => BitVec.ofNat 32 w), k := k }
  else none

/-- The checks of GAITL at issue. -/
def Env.gaitPlan (e : Env) (s : State) : Except Stop (MPlan × State) := do
  let q := { e.reqC s 32 32 .read spStore false with held := true }
  let (a, s) ← s.coreAddr e.me q
  pure (MPlan.ofSegs 16 [[⟨q.ea, 32, a⟩]], s)

/-- GAITL: the image is read and checked, then the gait is written. -/
def Env.gaitRead (e : Env) (s : State) (pl : MPlan) : Except Stop State := do
  let (l, s) ← s.readRows e.me false pl.segs
  match gaitOf l.flatten with
  | none => e.trap s .format ((pl.segs.flatten.head?.map (fun x => x.ea)).getD 0)
  | some g => pure ((s.commit e.me).modCore e.me.core (fun k => { k with gaits := k.gaits.set (e.o.d.toNat % 4) g }))

/-! The matrix queue (R237, R241, R245). -/

/-- MMA, MMAS and MGAIT read a latch and a B block. -/
def isMat (row : Instr) : Bool := row == .mma || row == .mmas || row == .mgait

/-- The latch that a matrix multiply names. -/
def latchOf (o : Fields) : Bool := o.imm.getLsbD 0

/-- What a matrix instruction does at issue (R237). -/
def Env.matPlan (e : Env) (s : State) : Except Stop (MPlan × State) :=
  match e.row with
  | .mlat => e.latPlan s
  | .gaitl => e.gaitPlan s
  | .mma | .mmas | .mgait => e.matIssue s
  | _ => e.maccPlan s

/-- The operand read of a matrix instruction that is no multiply, and its effect. -/
def Env.matMove (e : Env) (s : State) (pl : MPlan) : Except Stop State :=
  match e.row with
  | .mlat => e.latRun s pl
  | .maccZero => e.maccZero s
  | .maccLd => e.maccLd s pl
  | .maccSt => e.maccSt s pl
  | .maccCvt => e.maccCvt s pl
  | _ => e.gaitRead s pl

/-- MMA, MMAS and MGAIT performed at once (R243, R252). -/
def bodyMat : Body := fun e s => do
  let (pl, s) ← e.matIssue s
  if pl.m = 0 then .ok (.next, s)
  else
    let r ← e.matRead s pl
    .ok (.next, s.wa e.me e.o.d.toNat r)

/-- The other matrix instructions performed at once. -/
def bodyMove (plan : Env → State → Except Stop (MPlan × State)) (run : Env → State → MPlan → Except Stop State) : Body := fun e s => do
  let (pl, s) ← plan e s
  let s ← run e s pl
  .ok (.next, s)

/-- MLAT. -/
def bodyMlat : Body := bodyMove Env.latPlan Env.latRun

/-- MACC.zero. -/
def bodyMaccZero : Body := bodyMove Env.maccPlan (fun e s _ => e.maccZero s)

/-- MACC.ld. -/
def bodyMaccLd : Body := bodyMove Env.maccPlan Env.maccLd

/-- MACC.st. -/
def bodyMaccSt : Body := bodyMove Env.maccPlan Env.maccSt

/-- MACC.cvt. -/
def bodyMaccCvt : Body := bodyMove Env.maccPlan Env.maccCvt

/-- GAITL. -/
def bodyGaitl : Body := bodyMove Env.gaitPlan Env.gaitRead

/-- When the operand read of an instruction with CS = 1 has ended: its consumed signal waits for the reads of the instructions of its
context in the queue that name the same latch (R245). -/
def State.noteConsumed (s : State) (c : CtxId) (q : SeqEntry) : State :=
  match consumedOf q.inst.row q.inst.o with
  | none => s
  | some (n, _) =>
    s.modCore c.core (fun k =>
      let l := k.mq.filter (fun m => m.q.ctx == c.ctx && m.stage == .issued && isMat m.q.inst.row && latchOf m.q.inst.o == latchOf q.inst.o && m.q != q)
      { k with consumed := k.consumed ++ [(c.ctx, n, l.map (fun m => m.q.count))] })

/-- The consumed signal goes its own way: the completion of an instruction applies its sync signal alone. -/
def SeqEntry.plainFields (q : SeqEntry) : Fields := if isMat q.inst.row then { q.inst.o with imm := q.inst.o.imm &&& 0xfffffffb } else q.inst.o

/-- A handed-over matrix instruction traps, once no earlier one of its context stands in the queue and the stores of its frame are not held
back; until then it stays where it is. -/
def State.matrixTrap (s : State) (c : CtxId) (after : State) (t : Tr) : State :=
  if s.mqOpen c || (s.pushHeld c).isSome then s else after.seqTrap c t

/-- An earlier matrix instruction of the context that has not read its operands holds back what is read at issue: a store of it the guard word,
which is read after every earlier access to its bytes (R239), a GAITL the gait that it writes (R225). -/
def State.mqBehind (s : State) (c : CtxId) (i : Inst) : Bool :=
  let open_ := fun (f : Inst → Bool) => (s.core c.core).mq.any (fun m => m.q.ctx == c.ctx && m.stage == .issued && f m.q.inst)
  let guard := if i.row == .mlat then i.o.s3 else i.o.s2
  ((i.row == .mlat || isMat i.row) && guard != 0 && open_ (fun j => j.row == .maccSt || j.row == .maccCvt)) ||
    (i.row == .mgait && open_ (fun j => j.row == .gaitl && j.o.d.toNat % 4 == i.o.fn.toNat % 4))

/-- The oldest matrix instruction in the sequencer enters the matrix queue: scalar and vector operands, guard and gait are read and
every check before the operand read is made (R237). One that is governed off or has a zero count completes here (R239), its signals once no
earlier one of its context can trap (R225). -/
def State.matrixIssue (s : State) (core : CoreId) : State :=
  match (s.core core).vseq.find? (fun q => !isVector q.inst.row) with
  | none => s
  | some q =>
    let c : CtxId := ⟨core, q.ctx⟩
    let k0 := s.ctx c
    let first := (s.core core).vseq.find? (fun x => x.ctx == q.ctx)
    if first ≠ some q ∨ 8 ≤ (s.core core).mq.length ∨ s.mqBehind c q.inst = true then s
    else
      let s1 := (s.modCtx c (fun k => k.at_ q)).beginAccess c q.inst.row q.inst.o q.info
      let e : Env := ⟨c, q.inst.row, q.inst.o, s1⟩
      let out := fun (s : State) => s.modCore core (fun x => { x with vseq := x.vseq.erase q })
      if s1.predicatedOff c q.inst then if s.mqOpen c then s else ((out s1).noteConsumed c q).seqDone c k0 q q.plainFields true .next
      else
        match e.matPlan s1 with
        | .ok (pl, s2) =>
          if pl.m = 0 then if s.mqOpen c then s else ((out s2).noteConsumed c q).seqDone c k0 q q.plainFields false .next
          else
            let made := (s2.ctx c).hb.ev
            let m : MEntry := { q := q, stage := .issued, m := pl.m, base := pl.base, scales := pl.scales, gait := pl.gait, segs := pl.segs,
                                made := made, res := none }
            ((out s2).modCore core (fun x => { x with mq := x.mq ++ [m] })).modCtx c
              (fun k => { k.back k0 with hb := { k.hb with all := k.hb.all.join made } })
        | .error (.wait (.range _ _ _ ea) _) => s.seqHeld c q ea
        | .error (.wait _ _) => s
        | .error (.trap t s2) => s.matrixTrap c s2 t

/-- The operand read of the instruction at the head of the queue ends: a multiply has its result, another has been performed. -/
def State.matrixReadEnd (s : State) (core : CoreId) : State :=
  match (s.core core).mq with
  | [] => s
  | m :: rest =>
    let c : CtxId := ⟨core, m.q.ctx⟩
    let k0 := s.ctx c
    let row := m.q.inst.row
    if m.stage ≠ .issued then s
    else
      let s1 := (s.modCtx c (fun k => k.at_ m.q)).beginAccess c row m.q.inst.o m.q.info
      let e : Env := ⟨c, row, m.q.inst.o, s1⟩
      let pl : MPlan := ⟨m.m, m.base, m.scales, m.gait, m.segs⟩
      let ended := fun (s : State) (r : Option Acc) =>
        let made := m.made.join (s.ctx c).hb.ev
        (s.modCore core (fun x => { x with mq := { m with stage := .read, made := made, res := r } :: rest })).modCtx c
          (fun k => { k.back k0 with hb := { k.hb with all := k.hb.all.join made } })
      if isMat row then
        match e.matRead s1 pl with
        | .ok r => (ended s1 (some r)).noteConsumed c m.q
        | .error (.trap t _) => if (s.pushHeld c).isSome then s else s.seqTrap c t
        | .error (.wait _ _) => s
      else
        match e.matMove s1 pl with
        | .ok s2 => ended s2 none
        | .error (.trap t s2) => if (s.pushHeld c).isSome then s else (s2.modCtx c (fun k => k.back k0)).seqTrap c t
        | .error (.wait _ _) => s

/-- The accumulator is written whole and the instruction at the head of the queue completes (R241), with the accesses it has made. -/
def State.matrixWrite (s : State) (core : CoreId) : State :=
  match (s.core core).mq with
  | [] => s
  | m :: rest =>
    let c : CtxId := ⟨core, m.q.ctx⟩
    let k0 := s.ctx c
    if m.stage ≠ .read then s
    else
      let s := match m.res with | some r => s.wa c m.q.inst.o.d.toNat r | none => s
      let s := (s.modCore core (fun x => { x with mq := rest })).modCtx c (fun k =>
        { k.at_ m.q with hb := { k.hb with pre := [], ev := m.made, acc := !m.made.isEmpty, rd := !m.made.isEmpty } })
      s.seqDone c k0 m.q m.q.plainFields false .next

/-- The operand read of the instruction with a tag has ended. -/
def State.readEnded (s : State) (c : CtxId) (tag : Nat) : Bool :=
  !(s.pendingSeq c).any (fun q => q.count == tag) && decide (tag < (s.ctx c).count)

/-- A consumed signal whose condition holds is raised (R245). -/
def State.consumedSignal (s : State) (core : CoreId) : State :=
  match (s.core core).consumed.find? (fun x => x.2.2.all (s.readEnded ⟨core, x.1⟩)) with
  | none => s
  | some x => (s.modCore core (fun k => { k with consumed := k.consumed.erase x })).signalLocal ⟨core, x.1⟩ (some (x.2.1, 1))

/-- MLAT (R242). -/
def execMlat (s : State) : Out := .next (issueV .mlat bodyMlat s)

/-- MMA (R243). -/
def execMma (s : State) : Out := .next (issueV .mma bodyMat s)

/-- MMAS (R243). -/
def execMmas (s : State) : Out := .next (issueV .mmas bodyMat s)

/-- MGAIT (R252). -/
def execMgait (s : State) : Out := .next (issueV .mgait bodyMat s)

/-- MACC.zero (R248). -/
def execMaccZero (s : State) : Out := .next (issueV .maccZero bodyMaccZero s)

/-- MACC.ld (R248). -/
def execMaccLd (s : State) : Out := .next (issueV .maccLd bodyMaccLd s)

/-- MACC.st (R248). -/
def execMaccSt (s : State) : Out := .next (issueV .maccSt bodyMaccSt s)

/-- MACC.cvt (R248). -/
def execMaccCvt (s : State) : Out := .next (issueV .maccCvt bodyMaccCvt s)

/-- GAITL (R251). -/
def execGaitl (s : State) : Out := .next (issueV .gaitl bodyGaitl s)

/-- A matrix instruction enters the matrix queue of a core (R237). -/
def execMatrixQueueIssue (s : State) : Out := .next (s.matrixIssue s.ev.core)

/-- The operand read at the head of the queue ends (R241). -/
def execMatrixOperandReadEnd (s : State) : Out := .next (s.matrixReadEnd s.ev.core)

/-- The accumulator is written and the instruction completes (R241). -/
def execMatrixAccumulatorWrite (s : State) : Out := .next (s.matrixWrite s.ev.core)

/-- A consumed signal is raised (R245). -/
def execConsumedSignal (s : State) : Out := .next (s.consumedSignal s.ev.core)

end Sys2Proof.Machine
end

