-- ==== Sys2Proof/Machine/Message.lean ====
section
/-! DEFINITION. SEND (R269–R280): building, buffering and delivering messages, and the steps of their delivery. -/

namespace Sys2Proof.Machine

open Sys2Proof

/-- The cause with a code (Table 111). -/
def causeOf (n : Nat) : Cause :=
  match n with
  | 0x01 => .illegal | 0x02 => .reservedField | 0x03 => .privilege | 0x04 => .featureOff | 0x05 => .misalign | 0x06 => .offsetOverflow
  | 0x07 => .space | 0x08 => .protect | 0x09 => .pageAbsent | 0x0a => .pagePerm | 0x0b => .tablePlacement | 0x0c => .leaseSkew
  | 0x0d => .stackNotOwned | 0x0e => .remoteStore | 0x0f => .waitLimit | 0x10 => .hang | 0x11 => .detconf | 0x12 => .uncorrectable
  | 0x13 => .format | 0x14 => .spurLate | 0x15 => .spurOverflow | 0x16 => .inboxFull | 0x17 => .gang | 0x18 => .software
  | 0x19 => .breakpoint | _ => .launchResource

/-! Building a message (R278, R279). -/

/-- The destination word resolved (Table 85): the virtual tile or base die, and the position; none: SPACE. -/
def State.destOf (s : State) (c : CoreId) (w : Word) (multi : Bool) : Option (Nat × Nat) :=
  let pos := natBits w.toNat 9 8
  let f := natBits w.toNat 0 9
  if w.toNat / 2 ^ 18 ≠ 0 ∨ 191 < pos ∨ (multi = true ∧ 64 ≤ f) then none
  else
    let n := if multi then s.nDies else 8 * s.nDies
    let t := if w.getLsbD 17 then (if multi then relAdd (dieOf c.vt) 6 f 63 else relAdd c.vt 9 f 511) else some f
    match t with
    | some t => if t < n then some (t, pos) else none
    | none => none

/-- HandlerField of R279 (Table 84); none: SPACE. -/
def handlerField (p : Word) : Option (BitVec 40) :=
  if pFmt p ≠ 0 ∨ pBlk p ≠ 0 ∨ pRel p = true then none
  else
    match pSpc p with
    | 0 => some (BitVec.ofNat 40 (p.toNat % 2 ^ 17))
    | 3 => some (BitVec.ofNat 40 (2 ^ 38 + p.toNat % 2 ^ 27))
    | 5 => if natBits p.toNat 38 8 = 0 then some (BitVec.ofNat 40 (2 * 2 ^ 38 + p.toNat % 2 ^ 38)) else none
    | _ => none

/-- The handler address rebuilt on a die (R270). -/
def handlerAddr (h : BitVec 40) (vd : Nat) : Word :=
  let ofs := h.toNat % 2 ^ 38
  BitVec.ofNat 64 (match h.toNat / 2 ^ 38 with
    | 0 => ofs
    | 1 => 3 * 2 ^ 53 + vd * 2 ^ 46 + ofs
    | _ => 5 * 2 ^ 53 + vd * 2 ^ 46 + ofs)

/-- A reply reference (Table 86). -/
def replyRef (c : CoreId) (ctr : Nat) (slot : Option Nat) : BitVec 41 :=
  BitVec.ofNat 41 (2 ^ 40 + c.vt * 2 ^ 31 + c.pos * 2 ^ 23 + ctr * 2 ^ 15 + (match slot with | some o => 2 ^ 14 + o / 64 * 8 | none => 0))

/-- Payload bytes from n registers from s[S1] on; S1 = 0 gives zeros. -/
def Env.payload (e : Env) (s : State) (n : Nat) : List Byte :=
  (List.range n).flatMap (fun j => natLe 8 (if e.o.s1 = 0 then 0 else (s.rs e.me (e.o.s1 + BitVec.ofNat 5 j)).toNat))

/-- The reply slot pointer of send.uni with its traps. -/
def Env.replySlot (e : Env) (s : State) : Except Stop (Option Nat) := do
  if e.o.s3 = 0 then pure none
  else
    let p := e.s3v s
    trapIf (pSpc p != 0 || pRel p || pFmt p != 0 || pBlk p != 0 || unassigned p != 0) (Cause.at_ .space p) s
    trapIf (decide (pOff p % 64 ≠ 0)) (Cause.at_ .misalign p) s
    trapIf (!s.permitted e.me.core.vt (e.k s).sup 0 (pOff p) 64 .write) (Cause.at_ .protect p) s
    pure (some (pOff p))

/-- Release of R277: the message carries what its start acquires, and waits for the context's posted accesses. -/
def Env.msgRelease (e : Env) (s : State) (scope : Nat) : Except Stop HbInfo := do
  e.relWait s scope
  pure (s.release e.me)

/-- Buffer a message in an activation within its limits, or send it and wait for the answers (R275, R276, R421). -/
def Env.emit (e : Env) (s : State) (m : Msg) : Except Stop (Ctl × State) :=
  let k := e.k s
  if k.isWithin ∧ k.act.buf.length < 32 then
    .ok (.next, s.modCtx e.me (fun k => { k with act := { k.act with buf := k.act.buf ++ [(m, BitVec.ofNat 32 k.count)] } }))
  else
    let s := s.commit e.me
    let id := s.nextId
    let s := s.post e.me false (e.tag s) m
    .error (.wait (.answer id) s)

/-- send.uni and send.multi (R279). -/
def bodySendTask (multi : Bool) : Body := fun e s => do
  let dw := e.dv s
  let (t, pos) ← (match s.destOf e.me.core dw multi with | some x => .ok x | none => e.trap s .space dw : Except Stop (Nat × Nat))
  let vec := if multi then e.s3v s else 0
  trapIf (multi && (List.range 64).any (fun k => vec.getLsbD k && decide (8 * s.nDies ≤ 8 * t + k))) (Cause.at_ .space dw) s
  let here := dieOf e.me.core.vt
  let sameDie := if multi then (List.range 64).all (fun k => !vec.getLsbD k || dieOf (8 * t + k) == here) else dieOf t == here
  let scope := if sameDie then 3 else 5
  if multi ∧ vec = 0 then
    e.relWait s scope
    pure (.next, s)
  else
    let h ← (match handlerField (e.s2v s) with | some h => .ok h | none => e.trap s .space (e.s2v s) : Except Stop (BitVec 40))
    let slot ← (if e.o.imm.getLsbD 6 && !multi then e.replySlot s else .ok none : Except Stop (Option Nat))
    let r := if e.o.imm.getLsbD 6 then replyRef e.me.core (e.o.imm.extractLsb' 8 8).toNat slot else 0
    let i ← e.msgRelease s scope
    let m : Msg := { hdr := h, vt := t, pos := pos, reply := r, src := identC e.me, mc := multi, kind := 0,
                     prio := (e.o.imm.extractLsb' 4 2).toNat, cls := (e.o.imm.extractLsb' 0 4).toNat,
                     payload := e.payload s (if multi then 5 else 6), dests := vec, launch := (s.core e.me.core).launchId, hb := i }
    e.emit s m

/-- send.reply (R278–R280). -/
def bodySendReply : Body := fun e s => do
  let w := e.dv s
  let n := w.toNat
  if !w.getLsbD 40 then pure (.next, s)
  else
    let vt := natBits n 31 9
    let pos := natBits n 23 8
    trapIf (decide (n / 2 ^ 41 ≠ 0) || decide (n % 8 ≠ 0) || decide (8 * s.nDies ≤ vt) || decide (191 < pos)) (Cause.at_ .space w) s
    let i ← e.msgRelease s (if dieOf vt = dieOf e.me.core.vt then 3 else 5)
    let m : Msg := { hdr := 0, vt := vt, pos := pos, reply := w.setWidth 41, src := identC e.me, mc := false, kind := 1, prio := 0,
                     cls := (e.o.imm.extractLsb' 0 4).toNat, payload := e.payload s 6, dests := 0,
                     launch := (s.core e.me.core).launchId, hb := i }
    e.emit s m

/-! Delivery (R273–R276). -/

/-- The message of packet k, when it waits at its destination tile. -/
def State.arrivedMsg (s : State) (k : Nat) : Option (Packet × Msg × Nat × Option Nat) :=
  match s.packet k with
  | some p => match p.pl with
    | .msg m tries send => if s.landed p then some (p, m, tries, send) else none
    | _ => none
  | none => none

/-- An earlier message of the same context, class and destination core has not been accepted (R274). -/
def State.msgBehind (s : State) (k : Nat) (m : Msg) (dst : Nat) : Bool :=
  (s.net.takeWhile (fun p => p.id != k)).any (fun p => match p.pl with
    | .msg x _ _ => x.kind == m.kind && x.src == m.src && x.cls == m.cls && x.pos == m.pos && (p.dst == dst || x.mc) && m.kind == 0
    | _ => false)

/-- The launch stands pre-empted on the tile (R369). -/
def State.preemptedOn (s : State) (id vt : Nat) : Bool :=
  match s.launchById id with
  | some l => l.shares.any (fun h => h.saved.contains vt)
  | none => false

/-- The task a message becomes at a core (R65, R270). -/
def Msg.task (m : Msg) (c : CoreId) (seq : Nat) : Task :=
  { handler := handlerAddr m.hdr (dieOf c.vt), payload := (m.payload ++ List.replicate 48 0).take 48, reply := m.reply.setWidth 64,
    src := m.src, cls := m.cls, prio := m.prio, seq := seq, passed := 0, replays := 0, launch := m.launch, hb := m.hb }

/-- What the receiving interface answers (R273): none for accepted, or the cause of the refusal. A slot without a site, or in a maintenance window,
has no receiver (R414, R415). A position that is not live, on a tile where the sender's launch is pre-empted, meets both refusals: the model
answers INBOX_FULL (log 42). -/
def State.refusal (s : State) (m : Msg) (c : CoreId) : Option Cause :=
  let k := s.core c
  if s.slotGone c.vt then some .space
  else if s.preemptedOn m.launch c.vt then some .inboxFull
  else if !s.livePos (dieOf c.vt) c.pos || k.launch.isNone || k.launchId != m.launch then some .space
  else if 32 ≤ k.runq.length ∧ 8192 ≤ (s.tile c.vt).overflow.length then some .inboxFull
  else none

/-- Tasks of the overflow area that a free entry of the run queue waits for come first (R31, R353). -/
def State.reenterAll (s : State) (c : CoreId) : Nat → State
  | 0 => s
  | n + 1 => (s.reenter c).reenterAll c n

/-- An accepted task enters the run queue, or the overflow area when the queue is full (R31, R355). -/
def State.acceptTask (s : State) (m : Msg) (c : CoreId) : State :=
  let k := s.core c
  if 32 ≤ k.runq.length then s.modTile c.vt (fun t => { t with overflow := t.overflow ++ [(c.pos, m.task c 0)] })
  else (s.setCore c { k with runq := k.runq ++ [m.task c (k.arrivals % 2 ^ 32)], arrivals := k.arrivals + 1 }).wakeFor c m.cls

/-- One destination of a send has its final answer: accepted, or refused by a tile with a cause. -/
def State.answerSend (s : State) (send : Option Nat) (fail : Option (Nat × Cause)) (late : Bool) : State :=
  match send with
  | none => s
  | some id =>
    { s with sends := s.sends.map (fun r =>
        if r.id = id then
          let worse : Option (Nat × Nat) := match fail, r.fail with
            | some (t, c), some (u, d) => some (if t < u then (t, c.code) else (u, d))
            | some (t, c), none => some (t, c.code)
            | none, f => f
          { r with left := r.left - 1, fail := worse, late := r.late || late }
        else r) }

/-- Core edges of 256 × a router cycles, two router cycles to an edge. -/
def retryEdges (a : Nat) : Nat := 128 * a

/-- A refused packet goes back to its sender, to be tried again later. -/
def State.sendBack (s : State) (p : Packet) (src tries : Nat) (pl : Payload) : State :=
  s.setPacket { p with at_ := src / 4096 % 512, site := none, sites := [], retry := some (s.edges + retryEdges tries), pl := pl }

/-- The dropped count of the spur bank on a tile rises (R260, R263). -/
def satInc (n : Nat) : Nat := min (n + 1) (2 ^ 32 - 1)
def State.dropSpur (s : State) (vt : Nat) : State :=
  s.modTile vt (fun t => { t with bank := t.bank.map (fun b => { b with dropped := satInc b.dropped }) })

/-- A task message with its packet, its refusals so far and its send. -/
abbrev Offer := Packet × Msg × Nat × Option Nat

/-- The unbuffered messages of a gang's present instruction, in the order of its members (R234). -/
def State.gangOffers (s : State) (send : Option Nat) : List Offer :=
  let open_ := fun (c : CtxId) (n : Option Nat) => s.sends.any (fun r => some r.id == n && r.ctx == c && !r.buffered && !r.gone && !r.spur)
  match s.sends.find? (fun r => some r.id == send) with
  | none => []
  | some r =>
    if (s.ctx r.ctx).gang.isNone || !open_ r.ctx send then []
    else (s.members (s.leadOf r.ctx)).flatMap (fun c => s.net.filterMap (fun p => match p.pl with
      | .msg m tries n => if m.kind = 0 ∧ open_ c n = true then some (p, m, tries, n) else none
      | _ => none))

/-- All of these messages are accepted, in order, or the first that is refused. -/
def State.acceptAll (s : State) : List Offer → Except (Offer × Cause) State
  | [] => .ok s
  | x :: r =>
    let c : CoreId := ⟨x.1.dst, x.2.1.pos⟩
    let s := s.reenterAll c 32
    match s.refusal x.2.1 c with
    | none => (((s.dropPacket x.1.id).acceptTask x.2.1 c).answerSend x.2.2.2 none false).acceptAll r
    | some cause => .error (x, cause)

/-- The messages of a gang's SEND are offered together, once each may be: all are accepted or none is, and what one refuses finally is the
answer to its member (R234). -/
def State.gangOffer (s : State) (l : List Offer) : State :=
  if !l.all (fun x => s.landed x.1 && !s.msgBehind x.1.id x.2.1 x.1.dst) then s
  else
    match s.acceptAll l with
    | .ok t => t
    | .error (x, cause) =>
      if cause = .inboxFull ∧ x.2.2.1 < 8 then s.sendBack x.1 x.2.1.src (x.2.2.1 + 1) (.msg x.2.1 (x.2.2.1 + 1) x.2.2.2)
      else
        let why := fun (y : Offer) =>
          if y.1.id = x.1.id then some (x.1.dst, cause)
          else if y.2.2.2 = x.2.2.2 then (s.refusal y.2.1 ⟨y.1.dst, y.2.1.pos⟩).map (fun e => (y.1.dst, e)) else none
        l.foldl (fun t y => (t.dropPacket y.1.id).answerSend y.2.2.2 (why y) false) s

/-- A message is refused, finally or for a retry (R273). -/
def State.refuseTask (s : State) (p : Packet) (m : Msg) (tries : Nat) (send : Option Nat) (cause : Cause) : State :=
  if cause = .inboxFull ∧ tries < 8 then s.sendBack p m.src (tries + 1) (.msg m (tries + 1) send)
  else
    let s := (s.dropPacket p.id).answerSend send (some (p.dst, cause)) false
    if send.isNone ∧ m.src / 16 % 256 = 0xff then s.dropSpur (m.src / 4096 % 512) else s

/-- A task message at its destination is accepted, or refused finally or for a retry (R273). -/
def State.taskArrival (s : State) (k : Nat) : State :=
  match s.arrivedMsg k with
  | some (p, m, tries, send) =>
    let c : CoreId := ⟨p.dst, m.pos⟩
    if m.kind ≠ 0 ∨ s.msgBehind k m p.dst = true then s
    else if 1 < (s.gangOffers send).length then s.gangOffer (s.gangOffers send)
    else
      let s := s.reenterAll c 32
      match s.refusal m c with
      | none => ((s.dropPacket k).acceptTask m c).answerSend send none false
      | some cause => s.refuseTask p m tries send cause
  | none => s

/-- The time before a retry has passed: the packet starts again from its sender. -/
def State.packetRetry (s : State) (k : Nat) (isMsg : Bool) : State :=
  match s.packet k with
  | some p =>
    let kind := match p.pl with | .msg _ _ _ => true | _ => false
    match p.retry with
    | some t => if t ≤ s.edges ∧ kind = isMsg then s.restart { p with retry := none } else s
    | none => s
  | none => s

/-- Context 0 can take an imprecise report at the boundary where it stands: it is live, and the stores of the frame it would have to push are not held
back. With a frame held in supervisor mode the report is a double trap (R361, R363). -/
def State.mayReport (s : State) (c : CtxId) : Bool :=
  let k := s.ctx c
  (match k.st with | .ready => true | .waiting _ _ => true | _ => false) && (s.pushHeld c).isNone

/-- It sleeps in a listed wait, which it leaves to take a report (R276, R354); at its EXIT it sleeps until it has left (R153). -/
def State.asleep (s : State) (c : CtxId) : Bool := match (s.ctx c).st with | .waiting .exit _ => true | .waiting _ _ => s.listed c | _ => false

/-- A report waits for context 0, which may take it at its next issue (R276). -/
def State.reportDue (s : State) (c : CtxId) : Bool := c.ctx == 0 && (s.core c.core).report.isSome && s.mayReport c

/-- What a refused message reports (R276). -/
def sendTrap (code : Nat) (val : Word) : Tr :=
  { cause := causeOf code, val := val, detail := if causeOf code = .space then 2 else 0, other := 0, obyte := 0 }

/-- Context 0 takes the report that waits, at the instruction where it stands (R276, R363). -/
def State.takeReport (s : State) (c0 : CtxId) : State :=
  match (s.core c0.core).report with
  | some (code, val, tag) =>
    (s.modCore c0.core (fun k => { k with report := none })).takeTrapTag c0 (s.ctx c0).pc true true tag (sendTrap code val)
  | none => s

/-- A final refusal of a buffered message: a kind 3 entry, and a report to context 0 unless one already waits. Context 0 takes it at once out of a
listed wait, else at its next issue. -/
def State.reportRefusal (s : State) (r : SendRec) (code : Nat) (val : Word) : State :=
  let c0 : CtxId := ⟨r.ctx.core, 0⟩
  let s := (s.record (dieOf r.ctx.core.vt) { addr := val, tag := r.tag.toNat, ident := identC r.ctx, cause := code, kind := 3,
                                             launch := r.launch }).2
  if (s.core c0.core).report.isSome || (s.core c0.core).launchId != r.launch then s
  else
    let s := s.modCore c0.core (fun k => { k with report := some (code, val, r.tag.toNat) })
    if s.asleep c0 && s.mayReport c0 then s.takeReport c0 else s

/-- An instruction of context 0 at which a report is due has been tried from state s: its own fault wins, and the report stays; else it has not been
performed and the report is taken (R363, R367). -/
def State.reportOr (s : State) (t : State) : State :=
  let k := t.ctx s.cur
  if k.entry == .vector || (match k.st with | .halted _ => true | _ => false) then t else s.takeReport s.cur

/-- SPUR_LATE at the head after the spur.post with a tag (R265): of one context, or of the lowest member of a gang whose event was late. -/
def State.takeLate (s : State) (c : CtxId) (tag : Nat) (val : Word) : State :=
  let t := Cause.at_ .spurLate val
  let ms := s.members c
  if 1 < ms.length then s.gangTrap (ms.headD c) ms (ms.idxOf c) c t (s.ctx (ms.headD c)).pc false
  else s.takeTrapTag c (s.ctx c).pc false true tag t

/-- A spur.post of a gang has completed: late events of its members, whose records were kept for it, are taken as the lowest member's trap. -/
def State.gangLate (s : State) (ms : List CtxId) : State :=
  let late := fun (r : SendRec) => r.spur && r.late && r.left == 0 && ms.contains r.ctx
  match ms.findSome? (fun c => s.sends.find? (fun r => late r && r.ctx == c)) with
  | none => s
  | some r => ({ s with sends := s.sends.filter (fun r => !late r) } : State).takeLate r.ctx r.tag.toNat r.val

/-- All answers of a send have come: the waiting instruction completes or traps; a buffered message is accounted for (R265, R276). In a gang a
late event waits for the completion of the whole spur.post. -/
def State.deliveryAnswer (s : State) (id : Nat) : State :=
  match s.sends.find? (fun r => r.id == id) with
  | none => s
  | some r =>
    let c := r.ctx
    if r.left ≠ 0 then s
    else if !r.gone && !r.buffered && (match (s.ctx c).st with | .waiting (.answer n) _ => n != id | _ => true) then s
    else if r.fail.isSome && !r.gone && !r.buffered && s.trapHeld c then s
    else
      let s' := { s with sends := s.sends.filter (fun x => x.id != id) }
      if r.gone then s'
      else if r.buffered then
        let s := s'.modCore c.core (fun k => { k with pending := k.pending - 1 })
        match r.fail with
        | some (t, code) => s.reportRefusal r code (BitVec.ofNat 64 (r.pos * 512 + t))
        | none => s
      else
        match r.fail with
        | some (t, code) => s'.trapAt c (sendTrap code (if r.spur then r.val else BitVec.ofNat 64 (r.pos * 512 + t)))
        | none =>
          if !r.late then s'.finishWaiting c
          else if (s.ctx c).gang.isSome then s.finishWaiting c
          else (s'.finishWaiting c).takeLate c (s.ctx c).count r.val

/-- The host bridge is live: its site is good and FEAT1 bit 0 is accepted (R458). -/
def State.bridgeLive (s : State) : Bool := s.feat1 0 && s.panel.any (fun i => i.phys == 0 || i.phys == 63)

/-- A reply at its tile writes its slot and increments its counter, or is dropped and recorded (R280); one that names the host bridge is
written to the host (R459). -/
def State.replyDelivery (s : State) (k : Nat) : State :=
  match s.arrivedMsg k with
  | some (p, m, _, send) =>
    if m.kind ≠ 1 then s
    else
      let s := (s.dropPacket k).answerSend send none false
      let r := m.reply.toNat
      let c : CoreId := ⟨p.dst, m.pos⟩
      let ctr := natBits r 15 8
      let off := natBits r 3 11 * 64
      if m.vt = 0 ∧ m.pos = 0xff then
        if !s.bridgeLive then s
        else
          let out := s.bridge.out ++ [(s.bridge.base.toNat + ctr * 64, m.payload ++ List.replicate 16 0)]
          { s with bridge := { s.bridge with out := out, irqs := s.bridge.irqs + 1 } }
      else
        let lost := fun (s : State) (cause : Cause) =>
          (s.record (dieOf c.vt) { addr := m.reply.setWidth 64, tag := 0, ident := m.src, cause := cause.code, kind := 5, launch := m.launch }).2
        if (s.core c).launch.isNone then lost s .space
        else if m.reply.getLsbD 14 && !s.permitted c.vt false 0 off 48 .write then lost s .protect
        else
          let s := if m.reply.getLsbD 14 then
              ((s.commitOthers ⟨c, 16⟩ (flatTcm c off) 48 allCtx).trimRels (flatTcm c off) (flatTcm c off + 48)).poke (flatTcm c off) m.payload
            else s
          (s.reinRelease c ctr m.hb).signal c ctr 1 false
  | none => s

/-- send.uni (R278, R279). -/
def execSendUni (s : State) : Out := .next (issue .sendUni (bodySendTask false) s)

/-- send.multi (R278, R279). -/
def execSendMulti (s : State) : Out := .next (issue .sendMulti (bodySendTask true) s)

/-- send.reply (R278–R280). -/
def execSendReply (s : State) : Out := .next (issue .sendReply bodySendReply s)

/-- Task message in packet k is accepted or refused (R273). -/
def execTaskArrival (s : State) : Out := .next (s.taskArrival s.ev.k)

/-- The refused message in packet k is sent again (R273). -/
def execMessageRetry (s : State) : Out := .next (s.packetRetry s.ev.k true)

/-- The answers of send k have come (R276). -/
def execDeliveryAnswer (s : State) : Out := .next (s.deliveryAnswer s.ev.k)

/-- The reply in packet k is delivered (R280). -/
def execReplyDelivery (s : State) : Out := .next (s.replyDelivery s.ev.k)

end Sys2Proof.Machine
end

