-- ==== Sys2Proof/Machine/EngineAccess.lean ====
section
/-! DEFINITION. Accesses of engines and spur units (R260, R284, R375): their checks at the home, in parts that lie within one page. -/

namespace Sys2Proof.Machine

open Sys2Proof

/-- Why an engine's access fails: the address, the cause and its detail. -/
structure EngFail where
  addr : Word
  cause : Cause
  detail : Nat
deriving DecidableEq, Repr

/-- The parts of n bytes at a pointer that lie within 64 KiB each in space 5 (R378); an empty range has none (R293). -/
def segsOf (p : Word) (n : Nat) : List (Word × Nat) :=
  if n = 0 then []
  else if pSpc p = 5 then
    let va := pVa p
    (List.range ((va % 65536 + n + 65535) / 65536)).map (fun i =>
      let lo := max va ((va / 65536 + i) * 65536)
      (setField p 0 46 lo, min (va + n) ((va / 65536 + i + 1) * 65536) - lo))
  else [(p, n)]

/-- One part: the checks of R170 steps 4 to 9 at its home (R284, R375); `own`: the core that issued the command. -/
def State.engPart (s : State) (own : CoreId) (sup : Bool) (k : AKind) (align : Nat) (p : Word) (n : Nat) : Except (EngFail × State) (Nat × State) :=
  if s.spaceFault p then .error (⟨p, .space, 0⟩, s)
  else
    let home := s.home own p
    let (ifc, s) := if home = dieOf own.vt then (own.vt, s) else (s.rousePath home 64 (dieOf own.vt)).receiver home p
    if (pSpc p == 1 || pSpc p == 2) && s.slotGone (pTile p) then .error (⟨p, .space, 2⟩, s)
    else if s.spaceHomeFault p n then .error (⟨p, .space, 0⟩, s)
    else if misaligned p align then .error (⟨p, .misalign, 0⟩, s)
    else if s.pathLost (dieOf own.vt) home then .error (⟨p, .uncorrectable, 0⟩, s)
    else
      match s.homeAddr own ifc ifc home sup false p n k with
      | .ok r => .ok r
      | .error (f, s) => .error (⟨p, f.cause, f.detail⟩, s)

/-- All parts in order: their flat addresses and lengths. -/
def State.engParts (s : State) (own : CoreId) (sup : Bool) (k : AKind) (align : Nat) :
    List (Word × Nat) → Except (EngFail × State) (List (Nat × Nat) × State)
  | [] => .ok ([], s)
  | (p, n) :: r =>
    match s.engPart own sup k align p n with
    | .error e => .error e
    | .ok (a, s) =>
      match s.engParts own sup k 1 r with
      | .error e => .error e
      | .ok (l, s) => .ok ((a, n) :: l, s)

/-- n bytes at d bytes beyond a pointer, by the byte rule of ADDP.b. -/
def State.engRange (s : State) (own : CoreId) (sup : Bool) (k : AKind) (align : Nat) (base : Word) (d : Int) (n : Nat) :
    Except (EngFail × State) (List (Nat × Nat) × State) :=
  match offAdd base d with
  | none => .error (⟨base, .offsetOverflow, 0⟩, s)
  | some p => if 2 ^ offWidth (pSpc p) < pOff p + n then .error (⟨p, .offsetOverflow, 0⟩, s) else s.engParts own sup k align (segsOf p n)

/-- An engine's access to a window of an activation is another's access (R421). -/
def State.engTouch (s : State) : List (Nat × Nat) → State
  | [] => s
  | (a, n) :: r => (s.touch ⟨⟨0, 0⟩, 16⟩ a n).engTouch r

/-- The bytes of checked parts. -/
def State.engBytes (s : State) (l : List (Nat × Nat)) : List Byte := l.flatMap (fun x => s.bytes x.1 x.2)

/-- Write bytes to checked parts in order; what was released there is overwritten (R312). -/
def State.engPoke (s : State) : List (Nat × Nat) → List Byte → State
  | [], _ => s
  | (a, n) :: r, b => ((s.trimRels a (a + n)).poke a (b.take n)).engPoke r (b.drop n)

/-- Read n bytes on an engine path. -/
def State.engRead (s : State) (own : CoreId) (sup : Bool) (align : Nat) (base : Word) (d : Int) (n : Nat) : Except (EngFail × State) (List Byte × State) :=
  match s.engRange own sup .read align base d n with
  | .ok (l, s) => .ok (s.engBytes l, s.engTouch l)
  | .error e => .error e

/-- Write bytes on an engine path. -/
def State.engWrite (s : State) (own : CoreId) (sup : Bool) (align : Nat) (base : Word) (d : Int) (b : List Byte) : Except (EngFail × State) State :=
  match s.engRange own sup .write align base d b.length with
  | .ok (l, s) => .ok ((s.engTouch l).engPoke l b)
  | .error (e, s) => .error (e, s)

/-- The die whose interface walks for an address: its home (R366, R381). -/
def State.pagerDie (s : State) (vt : Nat) (p : Word) : Nat := s.home ⟨vt, 0⟩ p

/-- A kind 0 entry for an absent page that an engine or unit needs: the die and the token, none when no entry was free (R365, R366). -/
def State.engAbsent (s : State) (vt : Nat) (p : Word) (tag ident launch : Nat) : Option (Nat × Nat) × State :=
  let home := s.pagerDie vt p
  let (tok, s) := s.record home { addr := p, tag := tag, ident := ident, cause := Cause.pageAbsent.code, kind := 0, launch := launch }
  (if tok = 255 then none else some (home, tok), s)

end Sys2Proof.Machine
end

