-- ==== Sys2Proof/Machine/Spur.lean ====
section
/-! DEFINITION. Spur units (R254–R268): majors 0x78, the steps that deliver events, and the closing of ticks. -/

namespace Sys2Proof.Machine

open Sys2Proof

def State.bank (s : State) (vt : Nat) : Option Bank := (s.tile vt).bank
def State.setBank (s : State) (vt : Nat) (b : Bank) : State := s.modTile vt (fun t => { t with bank := some b })
def State.modBank (s : State) (vt : Nat) (f : Bank → Bank) : State := s.modTile vt (fun t => { t with bank := t.bank.map f })

/-- Arithmetic on ticks. -/
def tickAdd (a b : Nat) : Nat := (a + b) % 2 ^ 32
def tickSub (a b : Nat) : Nat := (a + 2 ^ 32 - b) % 2 ^ 32

/-- Word i of a neuron's record (R254). -/
def State.neuronWord (s : State) (vt : Nat) (b : Bank) (n i : Nat) : Nat := s.load (s.neuronAddr vt b n + 4 * i) 4
def State.setNeuron (s : State) (vt : Nat) (b : Bank) (n i x : Nat) : State := s.poke (s.neuronAddr vt b n + 4 * i) (natLe 4 x)

/-! The queue (R258, R262). -/

/-- The order of events: tick, source virtual tile, SEQ. -/
def SpurEvent.before (a b : SpurEvent) : Bool :=
  decide (a.tick < b.tick) || (a.tick == b.tick && (decide (a.src < b.src) || (a.src == b.src && decide (a.seq < b.seq))))

def firstEvent : List SpurEvent → Option SpurEvent
  | [] => none
  | e :: r => some (r.foldl (fun m x => if x.before m then x else m) e)

/-- An accepted event enters the queue; a late one takes the open tick (R262). -/
def Bank.enqueue (b : Bank) (e : SpurEvent) : Bank :=
  if e.tick < b.h then { b with queue := b.queue ++ [{ e with tick := b.h }], late := satInc b.late } else { b with queue := b.queue ++ [e] }

/-! Fires (R260, R261). -/

/-- Identity of the unit of a tile (R260). -/
def unitIdent (vt : Nat) : Nat := identOf vt 0xff 0xf

/-- The task of a fire (code 0) or of a probe (code 3). The handler core lies on the unit's own tile, whose interface answers the unit at once:
when a close has ended, its tasks stand in the run queue or wait for a retry (R260, R487). -/
def State.spurTask (s : State) (vt : Nat) (b : Bank) (n tick st code : Nat) : State :=
  let m : Msg := { hdr := (handlerField b.handler).getD 0, vt := b.core.vt, pos := b.core.pos, reply := 0, src := unitIdent vt, mc := false,
                   kind := 0, prio := 0, cls := b.cls, payload := [n, tick, st, code, 0, 0].flatMap (natLe 8), dests := 0, launch := b.launch,
                   hb := [] }
  (s.inject vt b.core.vt b.cls (.msg m 0 none)).taskArrival s.nextId

/-- The error count rises. -/
def State.spurError (s : State) (vt : Nat) : State := s.modBank vt (fun b => { b with errors := satInc b.errors })

/-- A read of the fan-out table: its bytes, a failure that has been counted and recorded, or a page that is being brought in. -/
inductive TableRead where
  | ok (l : List Byte) (s : State)
  | failed (s : State)
  | absent (s : State)

/-- Read n bytes at an offset of the fan-out table (R260). -/
def State.tableRead (s : State) (vt : Nat) (b : Bank) (ofs n : Nat) : TableRead :=
  let lost := fun (s : State) (addr : Word) (cause : Nat) =>
    TableRead.failed ((s.recordFail (dieOf vt) addr 0 (unitIdent vt) cause b.launch).spurError vt)
  match b.tokFail with
  | some c => lost (s.modBank vt (fun b => { b with tokFail := none })) ((offAdd b.table ofs).getD b.table) c
  | none =>
    match s.engRead ⟨vt, 0⟩ b.sup 1 b.table ofs n with
    | .ok (l, s) => .ok l s
    | .error (e, s) =>
      if e.cause = .pageAbsent then
        let (tok, s) := s.engAbsent vt e.addr 0 (unitIdent vt) b.launch
        .absent (s.modBank vt (fun b => { b with token := tok }))
      else lost s e.addr e.cause.code

/-- A fan-out record: target tile, neuron, delay, KIND, weight; none when a reserved field is set. -/
def fanRecord (l : List Byte) : Option (Nat × Nat × Nat × Nat × Nat) :=
  let f := fun o n => leNat ((l.drop o).take n)
  if 4 < f 12 1 ∨ f 13 3 ≠ 0 then none else some (f 8 2, f 4 4, f 10 2, f 12 1, f 0 4)

/-- Emit an event (R261): into the unit's own queue, or into the outgoing buffer; none when the buffer is full. -/
def State.emitEvent (s : State) (vt : Nat) (b : Bank) (e : SpurEvent) : Option State :=
  let b' := { b with seq := (b.seq + 1) % 2 ^ 24 }
  if e.vt = vt ∧ b.queue.length < 8192 then
    some (s.setBank vt (if b.count ≤ e.neuron then { b' with dropped := satInc b'.dropped } else b'.enqueue e))
  else if 1024 ≤ s.outgoing vt then none
  else if 8 * s.nDies ≤ e.vt then some (s.setBank vt { b' with dropped := satInc b'.dropped })
  else some ((s.setBank vt b').inject vt e.vt b.cls (.spur e 0 (some (vt, b.gen)) none b.launch))

/-- Go on with the fire that stopped or begins: the header, then the records in ascending index, then the task. -/
def State.emitRun (s : State) (vt : Nat) : Nat → State
  | 0 => s
  | fuel + 1 =>
    match s.bank vt with
    | none => s
    | some b =>
      match b.pend with
      | none => s
      | some m =>
        if b.token.isSome then s
        else if m.hdr then
          match s.tableRead vt b (8 * m.neuron) 8 with
          | .absent s => s
          | .failed s => (s.modBank vt (fun b => { b with pend := some { m with hdr := false, left := 0 } })).emitRun vt fuel
          | .ok l s =>
            let w := leNat l
            if w / 2 ^ 48 ≠ 0 then ((s.spurError vt).modBank vt (fun b => { b with pend := some { m with hdr := false, left := 0 } })).emitRun vt fuel
            else (s.modBank vt (fun b => { b with pend := some { m with hdr := false, next := w % 2 ^ 32, left := w / 2 ^ 32 } })).emitRun vt fuel
        else if m.left = 0 then
          let s := s.modBank vt (fun b => { b with pend := none })
          if b.fire then s.spurTask vt b m.neuron m.tick m.state.toNat 0 else s
        else
          let step := fun (s : State) => s.modBank vt (fun b => { b with pend := some { m with next := m.next + 1, left := m.left - 1 } })
          match s.tableRead vt b (8 * b.count + 16 * m.next) 16 with
          | .absent s => s
          | .failed s => (step s).emitRun vt fuel
          | .ok l s =>
            match fanRecord l, s.bank vt with
            | some (tv, tn, delay, kind, weight), some b =>
              let e : SpurEvent := { tick := tickAdd m.tick (1 + delay), src := vt, seq := b.seq, kind := kind, vt := tv, neuron := tn,
                                     value := BitVec.ofNat 32 weight }
              match s.emitEvent vt b e with
              | some s => (step s).emitRun vt fuel
              | none => s
            | _, _ => (step (s.spurError vt)).emitRun vt fuel

/-- More steps than any fire takes. -/
def emitFuel : Nat := 65540

/-! Closing a tick (R258, R259). -/

/-- FP32 a > b; a NaN is never greater. -/
def fp32Gt (a b : Nat) : Bool := (firstNaN [f32 a, f32 b]).isNone && cmpNum (f32 a) (f32 b) == .gt

/-- The neuron fires (R260 steps 1 to 3); its emission is still to be made. -/
def State.fireNeuron (s : State) (vt : Nat) (b : Bank) (n t st : Nat) : State :=
  let s := ((s.setNeuron vt b n 0 b.reset.toNat).setNeuron vt b n 1 t).setNeuron vt b n 2 (tickAdd t b.refr)
  s.modBank vt (fun b => { b with fires := satInc b.fires,
                                  pend := some { neuron := n, tick := t, state := BitVec.ofNat 32 st, next := 0, left := 0, hdr := true } })

/-- Apply an event at tick t (Table 78). -/
def State.applyEvent (s : State) (vt : Nat) (b : Bank) (e : SpurEvent) (t : Nat) : State :=
  let n := e.neuron
  let z := s.neuronWord vt b n 0
  let refractory := decide (t < s.neuronWord vt b n 2)
  let upd := fun (s : State) => s.setNeuron vt b n 3 t
  let run := fun (x : Nat) =>
    if refractory then upd s
    else
      let z' := gaitEval ⟨true, genNaN 6 (n % 1024) 0xf 4⟩ b.gait z x b.thr.toNat (tickSub t (s.neuronWord vt b n 3))
      let s := upd (s.setNeuron vt b n 0 z')
      if fp32Gt z' b.thr.toNat then s.fireNeuron vt b n t z' else s
  match e.kind with
  | 0 => run e.value.toNat
  | 1 => upd (s.setNeuron vt b n 0 e.value.toNat)
  | 2 => upd ((s.setNeuron vt b n 0 b.reset.toNat).setNeuron vt b n 2 t)
  | 3 => if b.fire then s.spurTask vt b n t z 3 else s.spurError vt
  | _ => run 0

/-- Apply the queued events of the open tick in key order, as far as the close goes; when none is left the tick is closed. -/
def State.closeRun (s : State) (vt : Nat) : Nat → State
  | 0 => s
  | fuel + 1 =>
    match s.bank vt with
    | none => s
    | some b =>
      if b.pend.isSome then s
      else
        match firstEvent (b.queue.filter (fun e => e.tick == b.h)) with
        | none => s.setBank vt { b with h := tickAdd b.h 1 }
        | some e =>
          ((((s.setBank vt { b with queue := b.queue.erase e }).applyEvent vt b e b.h).emitRun vt emitFuel)).closeRun vt fuel

/-- Close the open tick, or go on with its close: a close waits while the outgoing buffer is full (R261). -/
def State.closeTick (s : State) (vt : Nat) : State :=
  match s.bank vt with
  | none => s
  | some b =>
    if b.pend.isSome then (s.emitRun vt emitFuel).closeRun vt (b.queue.length + 2)
    else if 1024 ≤ s.outgoing vt then s
    else s.closeRun vt (b.queue.length + 2)

/-- The close of the open tick has stopped within it. -/
def Bank.closing (b : Bank) : Bool := b.pend.isSome

/-- Close ticks up to a target in logical mode: ticks without events are passed, then one tick is closed (R258). -/
def State.closeToward (s : State) (vt target : Nat) : State :=
  match s.bank vt with
  | none => s
  | some b =>
    if b.closing then s.closeTick vt
    else if target ≤ b.h ∨ 1024 ≤ s.outgoing vt then s
    else
      let next := match firstEvent b.queue with | some e => max b.h (min e.tick target) | none => target
      let s := s.setBank vt { b with h := next }
      if next < target then s.closeTick vt else s

/-- In pace mode the open tick closes when its time has come (R258). -/
def State.paceClose (s : State) (vt : Nat) : State :=
  match s.bank vt with
  | none => s
  | some b =>
    if b.logical || b.closing || (s.tile vt).uncertain || (s.tile vt).stopped then s
    else if s.paceAt vt < b.p0 + (tickSub b.h b.t0 + 1) * b.period then s
    else s.closeTick vt

/-- A stopped close goes on (R261), in pace mode only while the region is certain (R258). -/
def State.closeResume (s : State) (vt : Nat) : State :=
  match s.bank vt with
  | none => s
  | some b => if b.closing && b.token.isNone && !(s.tile vt).stopped && (b.logical || !(s.tile vt).uncertain) then s.closeTick vt else s

/-! spur.cfg (R255, R256). -/

/-- The handler address lies within the limits of Table 76. -/
def spurHandlerOk (p : Word) : Bool :=
  (pSpc p == 0 || pSpc p == 3 || pSpc p == 5) && pFmt p == 0 && pBlk p == 0 && !pRel p && (pSpc p != 5 || natBits p.toNat 38 8 == 0) &&
    p.toNat % 64 != 0 && p.toNat % 2 == 0

/-- The fan-out table pointer, resolved, when it lies within the limits of Table 76. -/
def State.spurTable (s : State) (c : CoreId) (p : Word) : Option Word :=
  if pFmt p ≠ 0 ∨ pBlk p ≠ 0 ∨ !([0, 1, 2, 3, 5].contains (pSpc p)) then none
  else
    match absPtr c p with
    | some q => if s.spaceFault q || s.home c q != dieOf c.vt then none else some q
    | none => none

/-- Read the block, check its limits and configure the bank. What is left of a fire whose emission has stopped is dropped with its handler task: the
spec names only the queued events (log 42). -/
def bodySpurCfg : Body := fun e s => do
  if (s.tile e.me.core.vt).draining then .error (.wait .earlier s)
  else
  let q := { e.reqC s 64 64 .read spStore false with held := false }
  let (a, s) ← s.coreAddr e.me q
  let (_, s) := s.readAt e.me q.ea a 64 false Ord.plain
  let f := fun o n => s.load (a + o) n
  let core := e.me.core
  let vt := core.vt
  let logical := (s.core core).detmode.getLsbD 2
  let bad := f 0 4 % 64 != 0 || decide (0x100000 < f 4 4) || decide (3 < f 8 1) || f 9 1 / 16 != 0 || f 10 1 / 4 != 0 || f 11 1 != 0 ||
    (!logical && f 0x18 4 == 0) || f 0x1c 4 != 0 || f 0x34 12 != 0 || (f 10 1 % 2 == 1 && !spurHandlerOk (BitVec.ofNat 64 (f 0x28 8)))
  trapIf bad (Cause.at_ .format q.ea) s
  let table ← (match s.spurTable core (BitVec.ofNat 64 (f 0x20 8)) with
    | some p => .ok p
    | none => e.trap s .format q.ea : Except Stop Word)
  trapIf (decide (s.scratchBytes vt < f 0 4 + 16 * f 4 4)) (Cause.at_ .space q.ea) s
  let old := s.bank vt
  let gone := match old with | some b => b.queue.length | none => 0
  let gait := (s.core core).gaits.get (f 8 1) Gait.zero
  let b : Bank := { base := f 0 4, count := f 4 4, cls := f 9 1, fire := f 10 1 % 2 == 1, trapLate := f 10 1 / 2 == 1, refr := f 0xc 4,
                    thr := BitVec.ofNat 32 (f 0x10 4), reset := BitVec.ofNat 32 (f 0x14 4), period := f 0x18 4, table := table,
                    handler := BitVec.ofNat 64 (f 0x28 8), t0 := f 0x30 4, p0 := s.paceAt vt, logical := logical, gait := gait, core := core,
                    issuer := e.me, sup := (e.k s).sup, launch := (s.core core).launchId, h := f 0x30 4, late := 0, dropped := 0, fires := 0,
                    errors := 0, lastDrop := 0, seq := 0, queue := [], gen := s.nextId, pend := none,
                    token := none, tokFail := none }
  let s := s.commit e.me
  let s := s.ws e.me e.o.d (BitVec.ofNat 64 gone)
  if b.count = 0 then pure (.next, s.modTile vt (fun t => { t with bank := none }))
  else
    let rec_ := natLe 4 b.reset.toNat ++ natLe 4 0xffffffff ++ natLe 4 b.t0 ++ natLe 4 b.t0
    let s := s.poke (s.neuronAddr vt b 0) ((List.range b.count).flatMap (fun _ => rec_))
    pure (.next, { s.setBank vt b with nextId := s.nextId + 1 })

/-! The other functions (R264, R265). -/

/-- The event spur.post sends (Table 77). -/
def postEvent (vt lo hi : Nat) : SpurEvent :=
  { tick := lo % 2 ^ 32, src := vt, seq := natBits hi 32 24, kind := natBits hi 29 3, vt := natBits hi 20 9, neuron := hi % 2 ^ 20,
    value := BitVec.ofNat 32 (lo / 2 ^ 32) }

/-- spur.post: the event is sent, and the instruction completes with the answer. -/
def bodySpurPost : Body := fun e s => do
  let hi := e.s2v s
  let ev := postEvent e.me.core.vt (e.a s).toNat hi.toNat
  trapIf (decide (4 < ev.kind) || hi.toNat / 2 ^ 56 != 0) (Cause.at_ .reservedField hi) s
  trapIf (decide (8 * s.nDies ≤ ev.vt)) (Cause.at_ .space hi) s
  let s := s.commit e.me
  let launch := (s.core e.me.core).launchId
  let r : SendRec := { id := s.nextId, ctx := e.me, tag := e.tag s, spur := true, buffered := false, launch := launch, pos := 0, left := 1,
                       fail := none, late := false, val := hi, gone := false }
  let s := { s with sends := s.sends ++ [r], nextId := s.nextId + 1 }
  .error (.wait (.answer r.id) (s.inject e.me.core.vt ev.vt 0 (.spur ev 0 none (some r.id) launch)))

/-- SPACE with DETAIL 2 without a bank. -/
def Env.needBank (e : Env) (s : State) : Except Stop Bank :=
  match s.bank e.me.core.vt with
  | some b => .ok b
  | none => .error (.trap { cause := .space, val := 0, detail := 2, other := 0, obyte := 0 } s)

/-- spur.tick. -/
def bodySpurTick : Body := fun e s => do
  let vt := e.me.core.vt
  let b ← e.needBank s
  let s := s.commit e.me
  if !b.logical then e.put s (BitVec.ofNat 64 b.h)
  else
    let target := (e.a s).toNat % 2 ^ 32
    let s := s.closeToward vt target
    match s.bank vt with
    | some b => if b.closing || decide (b.h < target) then .error (.wait .spur s) else e.put s (BitVec.ofNat 64 b.h)
    | none => .error (.wait .spur s)

/-- Items of Table 80; `out`: the occupancy of the outgoing buffer. -/
def Bank.item (b : Bank) (out i : Nat) : Nat :=
  match i with
  | 0 => b.h
  | 1 => b.queue.length
  | 2 => b.late
  | 3 => b.dropped
  | 4 => b.fires
  | 5 => b.errors
  | 6 => b.count
  | _ => out

/-- spur.read. It has no pointer operand for TRAPVAL of its OFFSET_OVERFLOW (Table 111); the model gives s[S1] (log 42). -/
def bodySpurRead : Body := fun e s => do
  let i := (e.a s).toNat
  trapIf (decide (7 < i)) (Cause.at_ .offsetOverflow (e.a s)) s
  e.put s (BitVec.ofNat 64 (match s.bank e.me.core.vt with | some b => b.item (s.outgoing e.me.core.vt) i | none => 0))

/-- spur.drain. -/
def bodySpurDrain : Body := fun e s => do
  let b ← e.needBank s
  let s := s.commit e.me
  if s.outgoing e.me.core.vt ≠ 0 then .error (.wait .drain s)
  else e.put (s.modBank e.me.core.vt (fun b => { b with lastDrop := b.dropped })) (BitVec.ofNat 64 (tickSub b.dropped b.lastDrop))

/-! Delivery (R262, R263). -/

/-- An event has left the outgoing buffer of a unit: when it was dropped, the bank that emitted it counts it, and no later one (log 42). -/
def State.unitDone (s : State) (unit : Option (Nat × Nat)) (dropped : Bool) : State :=
  match unit with
  | some (vt, gen) => if dropped then s.modBank vt (fun b => if b.gen = gen then { b with dropped := satInc b.dropped } else b) else s
  | none => s

/-- An event meets a full queue: it is sent back for a retry, or refused finally (R263). -/
def State.spurFull (s : State) (p : Packet) (e : SpurEvent) (tries : Nat) (unit : Option (Nat × Nat)) (send : Option Nat) (launch : Nat) : State :=
  if tries < 8 then s.sendBack p (e.src * 4096) (tries + 1) (.spur e (tries + 1) unit send launch)
  else ((s.dropPacket p.id).unitDone unit true).answerSend send (some (p.dst, .spurOverflow)) false

/-- The event in packet k reaches its bank: accepted, refused finally, or sent back for a retry. -/
def State.spurArrival (s : State) (k : Nat) : State :=
  match s.packet k with
  | none => s
  | some p =>
    match p.pl with
    | .spur e tries unit send launch =>
      if !s.landed p then s
      else
        let refuse := fun (cause : Cause) => ((s.dropPacket k).unitDone unit true).answerSend send (some (p.dst, cause)) false
        match s.bank p.dst with
        | none => refuse .space
        | some b =>
          if b.count ≤ e.neuron then refuse .space
          else if 8192 ≤ b.queue.length then s.spurFull p e tries unit send launch
          else
            (((s.dropPacket k).setBank p.dst (b.enqueue e)).unitDone unit false).answerSend send none (decide (e.tick < b.h) && b.trapLate)
    | _ => s

/-- spur.cfg (R255, R256). -/
def execSpurCfg (s : State) : Out := .next (issue .spurCfg bodySpurCfg s)

/-- spur.post (R264, R265); in a gang SPUR_LATE follows the completion of the whole. -/
def execSpurPost (s : State) : Out :=
  let t := issue .spurPost bodySpurPost s
  .next (if 1 < (s.members s.cur).length ∧ (t.ctx s.cur).count = (s.ctx s.cur).count + 1 ∧ (t.ctx s.cur).gang.isSome = true then t.gangLate (s.members s.cur)
    else t)

/-- spur.tick (R258, R264). -/
def execSpurTick (s : State) : Out := .next (issue .spurTick bodySpurTick s)

/-- spur.read (R264). -/
def execSpurRead (s : State) : Out := .next (issue .spurRead bodySpurRead s)

/-- spur.drain (R264). -/
def execSpurDrain (s : State) : Out := .next (issue .spurDrain bodySpurDrain s)

/-- The event in packet k reaches its tile (R262, R263). -/
def execSpurEventArrival (s : State) : Out := .next (s.spurArrival s.ev.k)

/-- The refused event in packet k is sent again (R263). -/
def execSpurEventRetry (s : State) : Out := .next (s.packetRetry s.ev.k false)

/-- The open tick of the bank of tile vt closes by the pace (R258). -/
def execPaceTickClose (s : State) : Out := .next (s.paceClose s.ev.vt)

/-- A close that stopped at a full buffer goes on (R261). -/
def execCloseResume (s : State) : Out := .next (s.closeResume s.ev.vt)

end Sys2Proof.Machine
end

