-- ==== Sys2Proof/Machine/Engines.lean ====
section
/-! DEFINITION. Engines (R281–R293, R327–R329): majors 0x74–0x77, the steps of commands and collective episodes, settles, digests; CLASS (R294). -/

namespace Sys2Proof.Machine

open Sys2Proof

/-! Issue (R281, R283, R285). -/

/-- The counter of a command's signal. -/
def Env.cmdCtr (e : Env) : Option Nat := if e.o.imm.getLsbD 8 then some (e.o.imm.extractLsb' 0 8).toNat else none

/-- FORMAT under R54, and FEATURE_OFF, of a pointer operand. -/
def Env.ptrFormat (e : Env) (s : State) (p : Word) : Except Stop Unit :=
  if pFmt p = 15 ∧ s.feat0 5 = false then e.trap s .featureOff p
  else if fmtOk p = false then e.trap s .format p
  else .ok ()

/-- OFFSET_OVERFLOW when a range of n bytes passes the offset field. -/
def Env.ptrRange (e : Env) (s : State) (p : Word) (n : Nat) : Except Stop Unit :=
  if spStore.contains (pSpc p) ∧ 2 ^ offWidth (pSpc p) < pOff p + n then e.trap s .offsetOverflow p else .ok ()

/-- SPACE as far as the issuing die decides it; the pointer as the command carries it. -/
def Env.ptrSpace (e : Env) (s : State) (p : Word) : Except Stop Word :=
  match s.absolute e.me.core spStore p with
  | .ok q => .ok q
  | .error t => .error (.trap t s)

/-- The path of a command's accesses (R180): 1 copy, 2 gather, 3 collective, 5 digest. -/
def CmdKind.path : CmdKind → Nat
  | .copy => 1
  | .gather => 2
  | .latch => 2
  | .digest => 5
  | _ => 3

/-- A command of the executing instruction. -/
def Env.cmd (e : Env) (s : State) (kind : CmdKind) (dst src w : Word) (m : Nat) : Cmd :=
  { id := s.nextId, kind := kind, issuer := e.me, vt := e.me.core.vt, launch := (s.core e.me.core).launchId, sup := (e.k s).sup, tag := e.tag s,
    dst := dst, src := src, w := w, m := m, ctr := e.cmdCtr, latch := 0, z := 0, who := 0, row := 0, token := none, fail := none,
    hb := s.engineInfo e.me kind.path, gone := false }

/-- The command has been issued: its context counts it (R152). -/
def State.issued (s : State) (c : CtxId) : State :=
  (({ s with nextId := s.nextId + 1 }).modCtx c (fun k => { k with commands := k.commands + 1 })).useFabric (s.core c.core).launchId

/-- A command that retires without being performed, or with an error at once. -/
def State.retireSoon (s : State) (c : Cmd) : State := { s with retiring := s.retiring ++ [c] }

/-- The line-rounded range that the scoreboard records for n bytes on the issuing die (R183). -/
def State.sbRange (s : State) (c : CoreId) (p : Word) (n : Nat) : Option (Nat × Nat) :=
  if n = 0 ∨ s.home c p ≠ dieOf c.vt then none
  else
    let a := s.sbAddr c p
    some (a / 64 * 64, (a + n + 63) / 64 * 64)

/-- Put a command at the end of an inbox. -/
def Tile.enqueue (t : Tile) (engine : Nat) (c : Cmd) : Tile :=
  match engine with
  | 0 => { t with copyQ := t.copyQ ++ [c] }
  | 1 => { t with gatherQ := t.gatherQ ++ [c] }
  | 2 => { t with collQ := t.collQ ++ [c] }
  | _ => { t with digestQ := t.digestQ ++ [c] }

/-- Enter an inbox, with the scoreboard entry of the command; or wait for room (R183, R281). -/
def Env.submit (e : Env) (s : State) (engine : Nat) (c : Cmd) (dst src : Option (Nat × Nat)) : Except Stop (Ctl × State) :=
  let entry := dst.isSome || src.isSome
  if 16 ≤ (s.inboxOf e.me.core.vt engine).length then .error (.wait (.inbox engine) s)
  else if entry && decide (16 ≤ (s.core e.me.core).sb.length) then .error (.wait (.range 0 0 false 0) s)
  else
    let s := (s.commit e.me).issued e.me
    let s := if entry then s.modCore e.me.core (fun k => { k with sb := k.sb ++ [⟨c.id, dst, src⟩] }) else s
    .ok (.next, s.modTile e.me.core.vt (fun t => t.enqueue engine c))

/-- Fields of the shape word (Table 89). -/
def rowB (w : Word) : Nat := w.toNat % 2 ^ 24
def sStride (w : Word) : Nat := natBits w.toNat 24 20
def dStride (w : Word) : Nat := w.toNat / 2 ^ 44

/-- CPY (R285, R286). DESIGN CHOICE (log 19): the pointer checks of R54 and R98 end with D before they begin with S1. -/
def bodyCpy : Body := fun e s => do
  let (m, s) ← e.guardWord s e.o.s3 1
  let w := e.s2v s
  let dp := e.dv s
  let sp := e.a s
  if m = 0 then pure (.next, ((s.commit e.me).retireSoon (e.cmd s .copy 0 0 w 0)).issued e.me)
  else
    e.ptrFormat s dp
    e.ptrFormat s sp
    e.ptrRange s dp (if rowB w = 0 then 0 else (m - 1) * dStride w + rowB w)
    e.ptrRange s sp (if rowB w = 0 then 0 else (m - 1) * sStride w + rowB w)
    let d ← e.ptrSpace s dp
    let p ← e.ptrSpace s sp
    if rowB w = 0 then pure (.next, ((s.commit e.me).retireSoon (e.cmd s .copy d p w 0)).issued e.me)
    else
      e.submit s 0 (e.cmd s .copy d p w m) (s.sbRange e.me.core d ((m - 1) * dStride w + rowB w))
        (s.sbRange e.me.core p ((m - 1) * sStride w + rowB w))

/-- GTH (R285, R287): into memory, or into a latch. -/
def bodyGth (latch : Bool) : Body := fun e s => do
  let (m, s) ← e.guardWord s e.o.s3 16
  let z := natBits e.o.imm.toNat 11 3
  let size := 64 * 2 ^ z
  let dp := e.dv s
  let base := e.a s
  let ip := e.s2v s
  let n := if latch then min m 16 else m
  let kind : CmdKind := if latch then .latch else .gather
  let fin := fun (c : Cmd) => { c with latch := natBits e.o.imm.toNat 10 1, z := z }
  if m = 0 then e.submit s 1 (fin (e.cmd s kind 0 0 0 0)) none none
  else
    if latch then pure () else e.ptrFormat s dp
    e.ptrFormat s base
    e.ptrFormat s ip
    trapIf ((pFmt ip != 0 && pFmt ip != 4) || pBlk ip != 0) (Cause.at_ .format ip) s
    if latch then pure () else e.ptrRange s dp (m * size)
    e.ptrRange s ip (4 * n)
    let d ← (if latch then pure 0 else e.ptrSpace s dp)
    let b ← e.ptrSpace s base
    let i ← e.ptrSpace s ip
    e.submit s 1 (fin (e.cmd s kind d b i m)) (if latch then none else s.sbRange e.me.core d (m * size)) (s.sbRange e.me.core i (4 * n))

/-! Performing rows (R284, R286, R287). -/

/-- How a row ends: performed, waiting for a page, or failed. -/
inductive RowEnd where
  | ok (s : State)
  | absent (addr : Word) (s : State)
  | failed (f : EngFail) (s : State)

/-- Continue with what an access gave. -/
def rowThen {α : Type} (x : Except (EngFail × State) (α × State)) (f : α → State → RowEnd) : RowEnd :=
  match x with
  | .ok (a, s) => f a s
  | .error (e, s) => if e.cause = .pageAbsent then .absent e.addr s else .failed e s

/-- Write a row; nothing is written when a part of it fails. -/
def State.rowWrite (s : State) (c : Cmd) (d : Nat) (b : List Byte) : RowEnd :=
  rowThen (s.engRange c.issuer.core c.sup .write 1 c.dst d b.length) (fun l s => .ok ((s.engTouch l).engPoke l b))

/-- Row i of a copy. -/
def State.copyRow (s : State) (c : Cmd) (i : Nat) : RowEnd :=
  rowThen (s.engRead c.issuer.core c.sup 1 c.src (i * sStride c.w) (rowB c.w)) (fun b s => s.rowWrite c (i * dStride c.w) b)

/-- Row i of a gather. -/
def State.gatherRow (s : State) (c : Cmd) (i : Nat) : RowEnd :=
  let size : Nat := 64 * 2 ^ c.z
  rowThen (s.engRead c.issuer.core c.sup 4 c.w (4 * i) 4) (fun x s =>
    rowThen (s.engRead c.issuer.core c.sup 64 c.src (signedOf 32 (leNat x) * size) size) (fun b s =>
      if c.kind = .latch then .ok (if c.gone then s else s.wg c.issuer c.latch ((s.rg c.issuer c.latch).setIfInBounds i (BitVec.ofNat 1024 (leNat b))))
      else s.rowWrite c (i * size) b))

/-- Rows of a command: a latch has 16. -/
def Cmd.rows (c : Cmd) : Nat := if c.kind = .latch then min c.m 16 else c.m

/-- The identity of an engine (R269): 0 copy, 1 gather, 2 collective, 3 digest. -/
def CmdKind.engine : CmdKind → Nat
  | .copy => 0
  | .gather => 1
  | .latch => 1
  | .digest => 3
  | _ => 2

def engineIdent (vt engine : Nat) : Nat := identOf vt (0xf8 + engine) 0xf

/-- A command waits for an absent page (R284): the command with its token. -/
def State.cmdAbsent (s : State) (c : Cmd) (addr : Word) : Cmd × State :=
  let (tok, s) := s.engAbsent c.vt addr c.tag.toNat (identC c.issuer) c.launch
  ({ c with token := tok }, s)

/-- Perform up to n of the rows that are left; true when the command has ended. -/
def State.runRows (s : State) (c : Cmd) : Nat → Cmd × Bool × State
  | 0 => (c, decide (c.rows ≤ c.row), s)
  | n + 1 =>
    match (if c.kind = .copy then s.copyRow c c.row else s.gatherRow c c.row) with
    | .ok s => s.runRows { c with row := c.row + 1 } n
    | .failed f s => ({ c with fail := some (f.cause.code, f.detail, f.addr) }, true, s)
    | .absent a s => let (c, s) := s.cmdAbsent c a; (c, false, s)

/-- Rows of a latch beyond those filled are written zero. -/
def State.zeroRows (s : State) (c : Cmd) : State :=
  if c.kind = .latch ∧ c.fail = none ∧ c.gone = false then
    s.wg c.issuer c.latch (Vector.ofFn (fun i : Fin 16 => if i.val < c.rows then (s.rg c.issuer c.latch).toArray.getD i.val 0 else 0))
  else s

/-- The engine has read the source of a command (R183). -/
def State.sourceRead (s : State) (c : Cmd) : State :=
  s.modCore c.issuer.core (fun k => { k with sb := k.sb.map (fun x => if x.cmd = c.id then { x with src := none } else x) })

/-- Perform up to n rows of the first command of the copy or gather inbox of a tile. -/
def State.runInbox (s : State) (vt : Nat) (gather : Bool) (n : Nat) : State :=
  let t := s.tile vt
  if t.stopped then s
  else
    match (if gather then t.gatherQ else t.copyQ) with
    | [] => s
    | c :: r =>
      if c.token.isSome then s
      else
        let (c, done, s) := if c.fail.isSome then (c, true, s) else s.runRows c (min n (c.rows - c.row))
        let q := if done then r else c :: r
        let s := s.modTile vt (fun t => if gather then { t with gatherQ := q } else { t with copyQ := q })
        if done then ((s.zeroRows c).sourceRead c).retireSoon c else s

/-! Collectives (R289–R292). -/

/-- Fields of the parameter word (Table 91). -/
def collN (w : Word) : Nat := natBits w.toNat 8 10
def collOp (w : Word) : Nat := natBits w.toNat 18 4
def collEt (w : Word) : Nat := natBits w.toNat 22 5
def collAll (w : Word) : Bool := w.getLsbD 27
def collRoot (w : Word) : Nat := natBits w.toNat 28 10
def collLen (w : Word) : Nat := natBits w.toNat 38 24

/-- The parameter word of a function is out of its limits: FORMAT (R289, R290). DESIGN CHOICE (log 50): which words these are. -/
def collBad (kind : CmdKind) (w : Word) : Bool :=
  let n := collN w
  let et := collEt w
  let op := collOp w
  let listed := et == 4 || et == 5 || et == 6 || et == 8
  w.getLsbD 63 || (w.getLsbD 62 && kind != .register) || n == 0 || decide (n ≤ collRoot w) || decide (5 < op) || decide (512 < n) ||
    (if kind = .join then et != 0 || op != 0 || collLen w != 0 else !listed || (decide (3 ≤ op) && (et == 6 || et == 8))) ||
    (kind == .bcast && op != 0)

/-- Bytes of a collective's elements. -/
def collSize (w : Word) : Nat := collLen w * collBytes (collEt w)

/-- coll.reduce, coll.bcast, coll.join (R289, R290): the contribution is a release at panel scope; `z` says whether D receives a result. -/
def bodyColl (kind : CmdKind) : Body := fun e s => do
  let w := e.s2v s
  let dp := e.dv s
  let sp := e.a s
  let hasD := kind != .join && e.o.d != 0
  let hasS := kind != .join
  if hasD then e.ptrFormat s dp else pure ()
  if hasS then e.ptrFormat s sp else pure ()
  trapIf (collBad kind w) (Cause.at_ .format w) s
  let who := (e.s3v s).toNat % 1024
  trapIf (decide (collN w ≤ who)) (Cause.at_ .offsetOverflow (e.s3v s)) s
  if hasD then e.ptrRange s dp (collSize w) else pure ()
  if hasS then e.ptrRange s sp (collSize w) else pure ()
  let d ← (if hasD then e.ptrSpace s dp else pure 0)
  let p ← (if hasS then e.ptrSpace s sp else pure 0)
  let c := e.cmd s kind d p w (collLen w)
  let c := { c with z := if hasD then 1 else 0, who := who, hb := (s.release e.me).join c.hb }
  if 16 ≤ (s.inboxOf e.me.core.vt 2).length then .error (.wait (.inbox 2) s)
  else
    e.relWait s 5
    e.submit s 2 c none none

/-- The collective engine of a tile performs the next command of its inbox: it takes the contribution's place in its episode, whose other
commands may stand behind it in the same inbox (R281, R289; log 43). -/
def State.takeContribution (s : State) (vt : Nat) : State :=
  match (s.tile vt).collQ with
  | [] => s
  | c :: r => if (s.tile vt).stopped then s else s.modTile vt (fun t => { t with collQ := r, collHeld := t.collHeld ++ [c] })

/-- Commands of an identity whose contributions wait for their episode. -/
def State.collCmds (s : State) (launch ident : Nat) : List Cmd :=
  s.tiles.flatMap (fun t => t.2.collHeld.filter (fun c => c.launch == launch && c.w.toNat % 256 == ident))

/-- The command with the lowest number. -/
def firstCmd : List Cmd → Option Cmd
  | [] => none
  | c :: r => some (r.foldl (fun m x => if x.id < m.id then x else m) c)

/-- The commands of the next episode in contributor order, when every contributor's has come (R289). -/
def episodeOf (l : List Cmd) : Option (List Cmd) :=
  match firstCmd l with
  | none => none
  | some f =>
    let cs := (List.range (collN f.w)).filterMap (fun k => firstCmd (l.filter (fun c => c.who == k)))
    if cs.length = collN f.w then some cs else none

/-- Combine of R291 on element e. -/
def collCombine (op et e x y : Nat) : Nat :=
  let w := elemWidth et
  if etF et then
    let f := (fmtOf et).getD .f32
    if op = 0 then finishRne f (opAdd 0 (genNaN 1 (e % 1024) 0xf 5) (f.decode 0 x) (f.decode 0 y)).1 else (f.minMax (op == 2) x y).1
  else
    let a := signedOf w x
    let b := signedOf w y
    match op with
    | 0 => wrapTo w (a + b)
    | 1 => wrapTo w (min a b)
    | 2 => wrapTo w (max a b)
    | 3 => x &&& y
    | 4 => x ||| y
    | _ => x ^^^ y

/-- One level of the quadrille tree. -/
def quadrilleLevel (f : Nat → Nat → Nat) : List Nat → List Nat
  | x :: y :: r => f x y :: quadrilleLevel f r
  | l => l

def quadrilleTree (f : Nat → Nat → Nat) : Nat → List Nat → Nat
  | 0, l => l.headD 0
  | k + 1, l => quadrilleTree f k (quadrilleLevel f l)

/-- The lowest level whose power of two holds n values. -/
def levelsFor (n : Nat) : Nat := ((List.range 10).find? (fun k => decide (n ≤ 2 ^ k))).getD 10

/-- QuadrilleReduce of R291 over the contributions to element e. -/
def quadrille (op et e : Nat) (xs : List Nat) : Nat :=
  let k := levelsFor xs.length
  quadrilleTree (collCombine op et e) k (xs ++ List.replicate (2 ^ k - xs.length) (vredIdent op et))

/-- Element e of a byte string of n-byte elements. -/
def elemOf (n : Nat) (b : List Byte) (e : Nat) : Nat := leNat ((b.drop (n * e)).take n)

/-- A range in space 5 includes a page that is not pinned (R399), or cannot be walked: a hand-over of its stack has closed it (R395), or its walk
fails. -/
def State.unpinned (s : State) (vt : Nat) : List (Word × Nat) → Option EngFail
  | [] => none
  | (p, _) :: r =>
    if pSpc p ≠ 5 then none
    else if pPair p && (s.stack (pDie p) (pStack p)).flight then some ⟨p, .stackNotOwned, 0⟩
    else
      match s.walk (s.home ⟨vt, 0⟩ p) (pVa p) ⟨.read, false⟩ with
      | .error c => some ⟨p, c, 0⟩
      | .ok (e, _) => if ptePin e then s.unpinned vt r else some ⟨p, .pagePerm, 0⟩

/-- Why a command of an episode failed, or what the episode waits for. -/
inductive EpRead where
  | ok (bs : List (List Byte)) (s : State)
  | failed (f : Nat × Nat × Word) (s : State)
  | absent (c : Cmd) (addr : Word) (s : State)

/-- Read the contributions in contributor order. -/
def State.readAll (s : State) : List Cmd → List (List Byte) → EpRead
  | [], acc => .ok acc.reverse s
  | c :: r, acc =>
    match (if c.row = 0 then c.fail else none) with
    | some f => .failed f s
    | none =>
      match s.engRead c.issuer.core c.sup 1 c.src 0 (collSize c.w) with
      | .ok (b, s) => s.readAll r (b :: acc)
      | .error (e, s) => if e.cause = .pageAbsent then .absent c e.addr s else .failed (e.cause.code, e.detail, e.addr) s

/-- The checked destinations of an episode: each command with its parts or its failure. -/
inductive EpDest where
  | ok (l : List (Cmd × Option (List (Nat × Nat)))) (s : State)
  | absent (c : Cmd) (addr : Word) (s : State)

/-- Check every destination of a result of n bytes before any is written. -/
def State.destAll (s : State) (n root : Nat) (all : Bool) : List Cmd → EpDest
  | [] => .ok [] s
  | c :: r =>
    let next := fun (c : Cmd) (x : Option (List (Nat × Nat))) (s : State) =>
      match s.destAll n root all r with
      | .ok l s => EpDest.ok ((c, x) :: l) s
      | .absent d a s => .absent d a s
    if c.z = 0 ∨ (all = false ∧ c.who ≠ root) then next { c with fail := none } none s
    else if c.row = 1 ∧ c.fail.isSome = true then next c none s
    else
      match s.engRange c.issuer.core c.sup .write 1 c.dst 0 n with
      | .ok (l, s) => next c (some l) s
      | .error (e, s) =>
        if e.cause = .pageAbsent then .absent { c with row := 1 } e.addr s
        else next { c with fail := some (e.cause.code, e.detail, e.addr) } none s

/-- Write a result to the destinations that passed. -/
def State.writeAll (s : State) (b : List Byte) : List (Cmd × Option (List (Nat × Nat))) → State
  | [] => s
  | (_, none) :: r => s.writeAll b r
  | (_, some l) :: r => ((s.engTouch l).engPoke l b).writeAll b r

/-- The commands of an episode retire; each passes on what every contribution released (R290). -/
def State.endEpisode (s : State) (cs : List Cmd) : State :=
  let info := HbInfo.joinAll (cs.map (fun c => c.hb))
  let ids := cs.map (fun c => c.id)
  let strip := fun (t : Tile) => { t with collHeld := t.collHeld.filter (fun c => !ids.contains c.id) }
  let s : State := { s with tiles := s.tiles.map (fun t => (t.1, strip t.2)) }
  { s with retiring := s.retiring ++ cs.map (fun c => { c with hb := info }) }

/-- A command of an episode waits for a page. -/
def State.episodeWaits (s : State) (c : Cmd) (addr : Word) : State :=
  let (c, s) := s.cmdAbsent c addr
  s.modTile c.vt (fun t => { t with collHeld := t.collHeld.map (fun x => if x.id = c.id then c else x) })

/-- Write the result of an episode. -/
def State.result (s : State) (cs : List Cmd) (w : Word) (b : List Byte) : State :=
  match s.destAll b.length (collRoot w) (collAll w) cs with
  | .absent c a s => s.episodeWaits c a
  | .ok l s => (s.writeAll b l).endEpisode (l.map (fun x => x.1))

/-! Settles (R327, R328). -/

/-- The exact sum of finite FP32 values in units of 2^−149. -/
def exactUnits : List FVal → Int
  | [] => 0
  | .fin n m e :: r => signedMant n (m * 2 ^ (e + 149).toNat) + exactUnits r
  | _ :: r => exactUnits r

/-- The settled value of element e (R327). -/
def settleValue (m e : Nat) (terms : List (BitVec 32)) : Nat :=
  let mv := f32 m
  let xs := terms.map (fun t => f32 t.toNat)
  let all := mv :: xs
  if mv.isNaN then quieten m
  else if xs.any FVal.isNaN then genNaN 3 (e % 1024) 0xf 5
  else if all.any (fun x => x.isInf && x.neg) && all.any (fun x => x.isInf && !x.neg) then genNaN 1 (e % 1024) 0xf 5
  else
    match all.find? FVal.isInf with
    | some x => Fmt.f32.signed x.neg Fmt.f32.infCode
    | none =>
      let t := exactUnits all
      if t = 0 then Fmt.f32.signed (all.all FVal.neg) 0
      else (roundTo .f32 0 0 false (decide (t < 0)) t.natAbs (-149) false).1

/-- Settle the pending elements of a launch in order: those that fail keep their sums, and are recorded (R328). -/
def State.settleAll (s : State) (id : Nat) : List PendSum → List PendSum × State
  | [] => ([], s)
  | x :: r =>
    let keep := fun (s : State) (e : EngFail) =>
      let s := s.recordFail x.home x.ptr 0 (engineIdent x.vt 2) e.cause.code id
      let (l, s) := s.settleAll id r
      (x :: l, s)
    match s.engRange ⟨8 * x.home, 0⟩ true .rmw 1 x.ptr 0 4 with
    | .error (e, s) => keep s e
    | .ok (l, s) =>
      ((s.engTouch l).engPoke l (natLe 4 (settleValue (leNat (s.engBytes l)) x.idx x.terms))).settleAll id r

/-- Settle every registered buffer of a launch: how many elements failed. -/
def State.settle (s : State) (id : Nat) : Nat × State :=
  match s.launchById id with
  | none => (0, s)
  | some l =>
    let (rest, s) := s.settleAll id l.sums
    (rest.length, s.modLaunch id (fun l => { l with sums := rest }))

/-- Register the buffer of the root's command (R292, R328, R399); none when it succeeds. -/
def State.register (s : State) (c : Cmd) : Option EngFail × State :=
  match s.launchById c.launch with
  | none => (none, s)
  | some l =>
    let home := s.home c.issuer.core c.src
    let held := (l.regs.filter (fun r => r.home == home && r.et == 6)).foldl (fun n r => n + r.len) 0
    if 16 ≤ l.regs.length ∨ (collEt c.w = 6 ∧ 65536 < held + collLen c.w) then (some ⟨c.src, .launchResource, 5⟩, s)
    else
      match s.unpinned c.vt (segsOf c.src (collSize c.w)) with
      | some f => (some f, s)
      | none =>
        let g : Registration := { home := home, vt := c.vt, ptr := (absPtr c.issuer.core c.src).getD c.src, et := collEt c.w, len := collLen c.w }
        (none, s.modLaunch c.launch (fun l => { l with regs := l.regs ++ [g] }))

/-- Perform an episode whose commands have all come. Before a coll.join of it retires, even with an error, the launch's buffers settle (R328).
DESIGN CHOICE (log 50): where contributors differ, the failing address is the parameter word. -/
def State.episode (s : State) (cs : List Cmd) (f : Cmd) : State :=
  let w := f.w
  let failAll := fun (s : State) (x : Nat × Nat × Word) => s.endEpisode (cs.map (fun c => { c with fail := some x }))
  if cs.any (fun c => c.w != w || c.kind != f.kind) then
    (if cs.any (fun c => c.kind == .join) then (s.settle f.launch).2 else s).endEpisode
      (cs.map (fun c => { c with fail := some (Cause.format.code, 0, c.w) }))
  else
    match f.kind with
    | .join => (s.settle f.launch).2.endEpisode cs
    | .register =>
      let root := cs.find? (fun c => c.who == collRoot w)
      (match root with
       | none => s
       | some c =>
         let done := fun (s : State) (x : Option (Nat × Nat × Word)) => s.endEpisode (cs.map (fun y => if y.id = c.id then { y with fail := x } else y))
         if c.fail.isSome then done s c.fail
         else
           match s.register c with
           | (none, s) => done s none
           | (some e, s) => if e.cause = .pageAbsent then s.episodeWaits c e.addr else done s (some (e.cause.code, e.detail, e.addr)))
    | .bcast =>
      (match s.readAll (cs.filter (fun c => c.who == collRoot w)) [] with
       | .ok bs s => s.result cs w (bs.headD [])
       | .failed x s => failAll s x
       | .absent c a s => s.episodeWaits c a)
    | _ =>
      (match s.readAll cs [] with
       | .ok bs s =>
         let n := collBytes (collEt w)
         s.result cs w ((List.range (collLen w)).flatMap (fun e => natLe n (quadrille (collOp w) (collEt w) e (bs.map (fun b => elemOf n b e)))))
       | .failed x s => failAll s x
       | .absent c a s => s.episodeWaits c a)

/-- The next episode of an identity of a launch is performed once every contributor's command has come. -/
def State.runEpisode (s : State) (launch ident : Nat) : State :=
  match episodeOf (s.collCmds launch ident) with
  | none => s
  | some cs =>
    if cs.any (fun c => c.token.isSome || (s.tile c.vt).stopped) then s
    else
      match cs with
      | [] => s
      | f :: _ => s.episode cs f

/-! Digests (R293, R329). -/

/-! SHA-256 (FIPS 180-4). Its constants are the first 32 bits of the fractions of roots of the first primes. -/

/-- The greatest r below r0 + 2^b whose e-th power is at most n, when r0 is a multiple of 2^b with that property. -/
def rootFloor (e n : Nat) : Nat → Nat → Nat
  | 0, r => r
  | b + 1, r => rootFloor e n b (if (r + 2 ^ b) ^ e ≤ n then r + 2 ^ b else r)

/-- The primes up to the 64th, 311. -/
def shaPrimes : List Nat := (List.range 312).filter (fun p => decide (2 ≤ p) && (List.range p).all (fun d => decide (d < 2) || decide (p % d ≠ 0)))

/-- The first 32 bits of the fraction of the e-th root of p, for e = 2 or 3. -/
def rootFraction (e p : Nat) : BitVec 32 := BitVec.ofNat 32 (rootFloor e (p * 2 ^ (32 * e)) 36 0)

def shaK : List (BitVec 32) := shaPrimes.map (rootFraction 3)
def shaInit : List (BitVec 32) := (shaPrimes.take 8).map (rootFraction 2)

/-- A big-endian 32-bit word. -/
def beWord (b : List Byte) : BitVec 32 := BitVec.ofNat 32 (leNat b.reverse)

/-- The exclusive or of a word rotated right by two amounts and a third form of it. -/
def shaMix (x : BitVec 32) (i j : Nat) (y : BitVec 32) : BitVec 32 := x.rotateRight i ^^^ x.rotateRight j ^^^ y

/-- The word that follows sixteen words of the schedule, the oldest first. -/
def shaNext (w : List (BitVec 32)) : BitVec 32 :=
  let at_ := fun i => w.getD i 0
  let lo := at_ 1
  let hi := at_ 14
  at_ 0 + at_ 9 + shaMix lo 7 18 (lo >>> 3) + shaMix hi 17 19 (hi >>> 10)

/-- The eight working words of a block. -/
structure ShaRegs where
  a : BitVec 32
  b : BitVec 32
  c : BitVec 32
  d : BitVec 32
  e : BitVec 32
  f : BitVec 32
  g : BitVec 32
  h : BitVec 32

/-- One round with the sum of its constant and its word. -/
def ShaRegs.round (r : ShaRegs) (x : BitVec 32) : ShaRegs :=
  let t := r.h + shaMix r.e 6 11 (r.e.rotateRight 25) + ((r.e &&& r.f) ||| (~~~r.e &&& r.g)) + x
  let m := (r.a &&& (r.b ||| r.c)) ||| (r.b &&& r.c)
  { a := t + m + shaMix r.a 2 13 (r.a.rotateRight 22), b := r.a, c := r.b, d := r.c, e := r.d + t, f := r.e, g := r.f, h := r.g }

/-- The rounds of a block: `w` holds the next sixteen words of the schedule. -/
def shaRounds : List (BitVec 32) → List (BitVec 32) → ShaRegs → ShaRegs
  | [], _, r => r
  | k :: ks, w, r => shaRounds ks (w.drop 1 ++ [shaNext w]) (r.round (k + w.headD 0))

/-- One 64-byte block. -/
def shaBlock (h : List (BitVec 32)) (b : List Byte) : List (BitVec 32) :=
  let words := (List.range 16).map (fun i => beWord ((b.drop (4 * i)).take 4))
  let v := fun i => h.getD i 0
  let r := shaRounds shaK words ⟨v 0, v 1, v 2, v 3, v 4, v 5, v 6, v 7⟩
  [v 0 + r.a, v 1 + r.b, v 2 + r.c, v 3 + r.d, v 4 + r.e, v 5 + r.f, v 6 + r.g, v 7 + r.h]

def shaBlocks : Nat → List Byte → List (BitVec 32) → List (BitVec 32)
  | 0, _, h => h
  | n + 1, b, h => shaBlocks n (b.drop 64) (shaBlock h (b.take 64))

/-- The 32 digest bytes of a byte string, byte 0 first. -/
def sha256 (b : List Byte) : List Byte :=
  let n := b.length
  let z := (119 - n % 64) % 64
  let m := b ++ [0x80] ++ List.replicate z 0 ++ (natLe 8 (8 * n)).reverse
  (shaBlocks (m.length / 64) m shaInit).flatMap (fun x => (natLe 4 x.toNat).reverse)

/-- coll.digest (R290, R293): the digest unit makes the declaration when it takes the command from its inbox, which retires then. -/
def bodyCollDigest : Body := fun e s => do
  let n := (e.s2v s).toNat
  let dp := e.dv s
  let sp := e.a s
  if e.o.d ≠ 0 then e.ptrFormat s dp else pure ()
  e.ptrFormat s sp
  if e.o.d ≠ 0 then e.ptrRange s dp 32 else pure ()
  e.ptrRange s sp n
  let d ← (if e.o.d ≠ 0 then e.ptrSpace s dp else pure 0)
  let p ← e.ptrSpace s sp
  let c := { e.cmd s .digest d p (e.s2v s) n with z := if e.o.d ≠ 0 then 1 else 0 }
  e.submit s 3 c none none

/-- Make a declaration (R293, R399); the failure, when there is one. -/
def State.declare (s : State) (c : Cmd) : Option EngFail × State :=
  match s.launchById c.launch with
  | none => (none, s)
  | some l =>
    if 8 ≤ (l.digests.filter (fun d => d.vt == c.vt)).length then (some ⟨c.src, .launchResource, 5⟩, s)
    else
      match s.unpinned c.vt (segsOf c.src c.m) with
      | some f => (some f, s)
      | none =>
        let d : DigestDecl := { vt := c.vt, region := c.src, len := c.m, result := if c.z = 1 then some c.dst else none, sup := c.sup,
                                issuer := c.issuer, tag := c.tag }
        (none, s.modLaunch c.launch (fun l => { l with digests := l.digests ++ [d] }))

/-- Compute one digest: the fault, when there is one. -/
def State.digestOne (s : State) (d : DigestDecl) : Except (EngFail × State) State :=
  match s.engRead d.issuer.core d.sup 1 d.region 0 d.len with
  | .error e => .error e
  | .ok (b, s) =>
    match d.result with
    | none => .ok s
    | some r => s.engWrite d.issuer.core d.sup 32 r 0 (sha256 b)

/-- A digest fault is recorded, and counts in the completion status (R335, R365 kind 6). -/
def State.digestLost (s : State) (id : Nat) (d : DigestDecl) (addr : Word) (cause : Nat) : State :=
  (s.record (dieOf d.vt) { addr := addr, tag := d.tag.toNat, ident := identC d.issuer, cause := cause, kind := 6, launch := id }).2.modLaunch id
    (fun l => { l with digestFail := l.digestFail + 1 })

/-- The digest pass of a launch in declaration order; an absent page is brought in, and the unit goes on then (R284, R293). -/
def State.digestPass (s : State) (id : Nat) : List DigestDecl → State
  | [] => s.modLaunch id (fun l => { l with digests := [] })
  | d :: r =>
    match (s.launchById id).bind (fun l => l.dfail) with
    | some (c, a) => ((s.digestLost id d a c).modLaunch id (fun l => { l with dfail := none })).digestPass id r
    | none =>
      match s.digestOne d with
      | .ok s => s.digestPass id r
      | .error (e, s) =>
        if e.cause = .pageAbsent then
          let (tok, s) := s.engAbsent d.vt e.addr d.tag.toNat (identC d.issuer) id
          s.modLaunch id (fun l => { l with digests := d :: r, dtoken := tok })
        else (s.digestLost id d e.addr e.cause.code).digestPass id r

/-! Retirement (R283, R284). -/

/-- A command retires: its scoreboard entry goes, a failure is recorded and fills the context's record, its counter is signalled. -/
def State.retireCmd (s : State) (c : Cmd) : State :=
  let core := c.issuer.core
  let s := { s with retiring := s.retiring.filter (fun x => x.id != c.id) }
  let s := s.modCore core (fun k => { k with sb := k.sb.filter (fun x => x.cmd != c.id) })
  let s := match c.fail with
    | none => s
    | some (cause, _, addr) =>
      let home := s.pagerDie c.vt addr
      let s := s.recordFail (if home < s.nDies then home else dieOf c.vt) addr c.tag.toNat (identC c.issuer) cause c.launch
      if c.gone then s else s.fillErr c.issuer { ctr := c.ctr, cause := cause, addr := addr, tag := c.tag, ident := engineIdent c.vt c.kind.engine }
  let s := if c.gone then s else s.modCtx c.issuer (fun k => { k with commands := k.commands - 1 })
  match (if c.gone then none else c.ctr) with
  | none => s
  | some n =>
    let s := if c.kind.path = 3 then s.reinRelease core n c.hb else s.reinCarry core n c.hb
    let s := if c.kind = .join then s.modCtx c.issuer (fun k => { k with joins := insertNat k.joins n }) else s
    s.signal core n 1 c.fail.isSome

/-- The digest unit of a tile performs the next command of its inbox: the declaration is made, and the command retires at once (R293). -/
def State.digestStep (s : State) (c : Cmd) (rest : List Cmd) : State :=
  let out := fun (s : State) => s.modTile c.vt (fun t => { t with digestQ := rest })
  if c.fail.isSome then (out s).retireCmd c
  else
    match s.declare c with
    | (none, s) => (out s).retireCmd c
    | (some e, s) =>
      if e.cause = .pageAbsent then
        let (c, s) := s.cmdAbsent c e.addr
        s.modTile c.vt (fun t => { t with digestQ := c :: rest })
      else (out s).retireCmd { c with fail := some (e.cause.code, e.detail, e.addr) }

/-- The command at the head of a digest inbox. -/
def State.digestHead (s : State) (k : Nat) : Option (Cmd × List Cmd) :=
  s.tiles.findSome? (fun t => match t.2.digestQ with | c :: r => if c.id = k then some (c, r) else none | [] => none)

/-- Command k retires: it has ended, or it is the next of a digest inbox. -/
def State.retireStep (s : State) (k : Nat) : State :=
  match s.retiring.find? (fun c => c.id == k) with
  | some c => if (s.tile c.vt).stopped || c.token.isSome then s else s.retireCmd c
  | none =>
    match s.digestHead k with
    | some (c, r) => if (s.tile c.vt).stopped || c.token.isSome then s else s.digestStep c r
    | none => s

/-! CLASS (R48, R294). -/

/-- CLASSPEND (R48). -/
def State.classPend (s : State) (c : CoreId) : Half :=
  let cs := (s.core c).runq.map (fun t => t.cls) ++ ((s.tile c.vt).overflow.filter (fun o => o.1 == c.pos)).map (fun o => o.2.cls)
  cs.foldl (fun m k => m ||| BitVec.ofNat 16 (2 ^ k)) 0

/-- class.mask and class.unmask. -/
def bodyClassSet (unmask : Bool) : Body := fun e s =>
  let m : Half := (e.a s).setWidth 16
  let old := (s.core e.me.core).classEn
  let s := s.commit e.me
  e.put (s.modCore e.me.core (fun k => { k with classEn := if unmask then old ||| m else old &&& ~~~m })) (old.setWidth 64)

/-- class.test. -/
def bodyClassTest : Body := fun e s => e.put s ((s.classPend e.me.core &&& (e.a s).setWidth 16).setWidth 64)

/-- CPY (R285, R286). -/
def execCpy (s : State) : Out := .next (issue .cpy bodyCpy s)

/-- GTH into memory (R287). -/
def execGth (s : State) : Out := .next (issue .gth (bodyGth false) s)

/-- GTH into a latch (R287, R288). -/
def execGthLatch (s : State) : Out := .next (issue .gthLatch (bodyGth true) s)

/-- coll.reduce (R290, R291). -/
def execCollReduce (s : State) : Out := .next (issue .collReduce (bodyColl .reduce) s)

/-- coll.reduce with REG = 1 (R292). -/
def execCollRegister (s : State) : Out := .next (issue .collRegister (bodyColl .register) s)

/-- coll.bcast (R290). -/
def execCollBcast (s : State) : Out := .next (issue .collBcast (bodyColl .bcast) s)

/-- coll.join (R290). -/
def execCollJoin (s : State) : Out := .next (issue .collJoin (bodyColl .join) s)

/-- coll.digest (R293). -/
def execCollDigest (s : State) : Out := .next (issue .collDigest bodyCollDigest s)

/-- class.mask (R294). -/
def execClassMask (s : State) : Out := .next (issue .classMask (bodyClassSet false) s)

/-- class.unmask (R294). -/
def execClassUnmask (s : State) : Out := .next (issue .classUnmask (bodyClassSet true) s)

/-- class.test (R294). -/
def execClassTest (s : State) : Out := .next (issue .classTest bodyClassTest s)

/-- More rows than a command has: COUNT has 16 bits (R285). -/
def allRows : Nat := 65536

/-- The copy engine of tile vt performs its next command (R286). -/
def execCopyCommand (s : State) : Out := .next (s.runInbox s.ev.vt false allRows)

/-- The gather engine of tile vt performs its next command (R287). -/
def execGatherCommand (s : State) : Out := .next (s.runInbox s.ev.vt true allRows)

/-- Command k retires (R283, R284). -/
def execCommandRetire (s : State) : Out := .next (s.retireStep s.ev.k)

/-- The next episode of identity j of launch k is performed (R289, R290); with `flag`, the collective engine of tile vt takes the next command of
its inbox (R281). -/
def execCollectiveEpisode (s : State) : Out := .next (if s.ev.flag then s.takeContribution s.ev.vt else s.runEpisode s.ev.k s.ev.j)

end Sys2Proof.Machine
end

