-- ==== Sys2Proof/Machine/Sys.lean ====
section
/-! DEFINITION. System registers (R35–R52, R59, R296): major 0x7b, and the rows that are single register writes. -/

namespace Sys2Proof.Machine

open Sys2Proof

/-! Reading (R39–R52). -/

/-- Flags that the helper slots of a tile hold (R46). -/
def State.tileOr (s : State) (vt : Nat) : BitVec 5 :=
  (s.ctxs.filter (fun x => decide (x.1 / 16 / 192 = vt) && x.1 % 16 != 0)).foldl
    (fun f x => f ||| (if x.2.st.live then x.2.ff else x.2.kept)) 0

/-- Word k of the Farrier block of a die (R416). -/
def State.farrier (s : State) (vd k : Nat) : Nat := s.load (flatCommons vd (0x7fe8000 + 8 * k)) 8

/-- HARVEST (Table 16). -/
def State.harvest (s : State) (vd : Nat) : Nat :=
  (s.farrier vd 1 / 2 ^ 13 % 2) * 2 ^ 22 + s.liveCount vd * 2 ^ 13 + s.nGallops * 2 ^ 7 + s.nDies

/-- VDIE (Table 15). -/
def State.vdie (s : State) (vd : Nat) : Nat :=
  let i := s.info vd
  i.pair * 2 ^ 17 + (if i.canter then 2 ^ 16 else 0) + i.mate.getD 0x3f * 2 ^ 8 + vd

/-- CTXID (Table 14). -/
def State.ctxid (s : State) (c : CtxId) : Nat :=
  s.logical (dieOf c.core.vt) c.core.pos * 2 ^ 32 + (if (s.ctx c).sup then 2 ^ 24 else 0) + identC c

/-- DECTAB (Table 22). -/
def Core.dectab (k : Core) : Nat :=
  let tab := fun i => (k.dec.get i 0).toNat
  (if tblMono tab 255 then 2 ^ 62 else 0) + k.decIdx.toNat * 2 ^ 40 + tab k.decIdx.toNat

/-- The value a read of a system register returns. -/
def State.sysRead (s : State) (c : CtxId) (n : Nat) : Word :=
  let vt := c.core.vt
  let vd := dieOf vt
  let k := s.ctx c
  let q := s.core c.core
  let t := s.tile vt
  match n with
  | 0x01 => BitVec.ofNat 64 (s.paceAt vt)
  | 0x02 => BitVec.ofNat 64 (s.edgesAt c.core.vt + (2 ^ 64 - q.cycle0 % 2 ^ 64))
  | 0x03 => BitVec.ofNat 64 (Config.skew * 256 + if t.uncertain then 1 else 0)
  | 0x04 => BitVec.ofNat 64 (s.ctxid c)
  | 0x05 => BitVec.ofNat 64 vt
  | 0x06 => BitVec.ofNat 64 (s.vdie vd)
  | 0x07 => BitVec.ofNat 64 (s.harvest vd)
  | 0x08 => BitVec.ofNat 64 (t.plb0 * 2 ^ 16)
  | 0x09 => BitVec.ofNat 64 (t.plb1 * 2 ^ 16)
  | 0x0a => BitVec.ofNat 64 (t.ckbase * 2 ^ 48 + t.plb2 * 2 ^ 16)
  | 0x0b => k.cause
  | 0x0c => k.trapPc
  | 0x0d => k.trapVal
  | 0x0e => k.trapTag
  | 0x0f => q.trapVec
  | 0x10 => q.upcallVec
  | 0x11 => BitVec.ofNat 64 (k.seed.toNat * 2 ^ 32 + k.mode.toNat)
  | 0x12 => BitVec.ofNat 64 (k.ff.toNat + if c.ctx = 0 ∨ k.sup = true then (s.tileOr vt).toNat * 2 ^ 8 else 0)
  | 0x13 => k.lpct
  | 0x14 => BitVec.ofNat 64 q.dectab
  | 0x15 => q.classEn.setWidth 64
  | 0x16 => (s.classPend c.core).setWidth 64
  | 0x17 => q.waitLim.setWidth 64
  | 0x18 => q.barRect.setWidth 64
  | 0x19 => q.detmode.setWidth 64
  | 0x1a => if q.ctlPrio then 1 else 0
  | 0x1b => Config.feat0.setWidth 64
  | 0x1c => Config.feat1.setWidth 64
  | 0x1d => s.featAck
  | _ => 0

/-! Writing (R37, R296). -/

/-- The rectangle layout of BARRECT (Table 23) is in range. -/
def rectOk (w : Nat) : Bool :=
  decide (natBits w 8 4 ≤ 11) && decide (natBits w 0 4 ≤ natBits w 8 4) && decide (natBits w 4 4 ≤ natBits w 12 4)

/-- Reserved bits are set or a field is out of range (R37). -/
def sysReserved (n v : Nat) : Bool :=
  match n with
  | 0x08 | 0x09 | 0x0a => v / 2 ^ 58 != 0 || natBits v 26 22 != 0 || natBits v 0 16 != 0 || decide (768 < natBits v 16 10)
  | 0x0b => v / 2 ^ 24 != 0 || natBits v 10 6 != 0
  | 0x0e => v / 2 ^ 59 != 0
  | 0x11 => natBits v 3 29 != 0 || decide (4 < natBits v 0 3)
  | 0x12 => v / 2 ^ 13 != 0 || natBits v 5 3 != 0
  | 0x14 => natBits v 48 14 != 0 || natBits v 19 21 != 0
  | 0x15 => v / 2 ^ 16 != 0
  | 0x17 => v / 2 ^ 32 != 0
  | 0x18 => v / 2 ^ 16 != 0 || !rectOk v
  | 0x19 => v / 2 ^ 3 != 0
  | 0x1a => v / 2 != 0
  | _ => false

/-- A launch is resident on a tile: it has a core there, or stands pre-empted there (R337, R369). -/
def State.resident (s : State) (vt : Nat) : Bool :=
  s.cores.any (fun p => decide (p.1 / 192 = vt) && p.2.launch.isSome) || s.launches.any (fun l => l.shares.any (fun h => h.saved.contains vt))

/-- The boundaries of a tile with one of them replaced (R59). -/
def Tile.withPlb (t : Tile) (n b : Nat) : Tile :=
  if n = 0x08 then { t with plb0 := b } else if n = 0x09 then { t with plb1 := b } else { t with plb2 := b }

def Tile.ordered (t : Tile) : Bool := decide (t.plb0 ≤ t.plb1) && decide (t.plb1 ≤ t.plb2) && decide (t.plb2 ≤ t.ckbase)

/-- The checks of a write at step 7 of R86, in order: the trap it takes. -/
def State.sysCheck (s : State) (c : CtxId) (n : Nat) (w : Word) : Option Tr :=
  let v := w.toNat
  let res := fun (d : Nat) => some ({ cause := .launchResource, val := 0, detail := d, other := 0, obyte := 0 } : Tr)
  if (n = 0x11 ∧ v % 8 = 4 ∧ s.feat0 4 = false) ∨ (n = 0x19 ∧ v % 2 = 1 ∧ s.feat0 6 = false) then some (Cause.at_ .featureOff 0)
  else if sysReserved n v then some (Cause.at_ .reservedField 0)
  else if n = 0x08 ∨ n = 0x09 ∨ n = 0x0a then
    (if s.resident c.core.vt || !((s.tile c.core.vt).withPlb n (natBits v 16 10)).ordered then res 4 else none)
  else if n = 0x19 ∧ (s.core c.core).launch.isSome then res 9
  else if n = 0x1d ∧ s.featSet = true then some (Cause.at_ .privilege 0)
  else none

/-! The slice map (R443, R444). -/

/-- Slots of a die with an active slice, and the slice's size in 64 KiB units. -/
def State.slices (s : State) (vd : Nat) : List (Nat × Nat) :=
  (List.range 8).filterMap (fun k =>
    let t := s.tile (8 * vd + k)
    if t.draining || t.stopped || t.lost || t.plb2 ≤ t.plb1 then none else some (k, t.plb2 - t.plb1))

/-- Entries of each slice: by weight, the remaining ones to the lowest slots. -/
def sliceShares (l : List (Nat × Nat)) : List (Nat × Nat) :=
  let w := (l.map (fun x => x.2)).sum
  let q := l.map (fun x => (x.1, 64 * x.2 / w))
  let r := 64 - (q.map (fun x => x.2)).sum
  q.mapIdx (fun i x => (x.1, x.2 + if i < r then 1 else 0))

/-- The slice map of a die is written, with a generation (R443). -/
def State.writeSlices (s : State) (vd gen : Nat) : State :=
  let l := s.slices vd
  let owners := (sliceShares l).flatMap (fun x => List.replicate x.2 x.1)
  let a := flatCommons vd 0x7fea000
  (s.store a 8 (gen + (l.map (fun x => 2 ^ (8 + x.1))).sum)).storeBytes (a + 8) ((List.range 64).map (fun i => BitVec.ofNat 8 (owners.getD i 0xff)))

/-- A new slice map is installed; slices write back the lines of the entries they have lost (R444). -/
def State.remap (s : State) (vd : Nat) : State :=
  let t := s.writeSlices vd ((s.load (flatCommons vd 0x7fea000) 8 % 4 + 1) % 4)
  t.writeBack (fun x => s.lineDie (x * 64) == vd && s.sliceOf vd (flatPa (x * 64)) != t.sliceOf vd (flatPa (x * 64)))

/-- Pool bounds of a tile change, with the slice map of its die and the checkpoint of its slot (R417, R444). -/
def State.setBounds (s : State) (vt : Nat) (f : Tile → Tile) : State :=
  ((s.modTile vt f).remap (dieOf vt)).uncover (dieOf vt) (s.curSite (dieOf vt) (slotOf vt))

/-- The register takes a value that passed its checks. -/
def State.sysWrite (s : State) (c : CtxId) (n : Nat) (w : Word) : State :=
  let v := w.toNat
  match n with
  | 0x08 | 0x09 | 0x0a => s.setBounds c.core.vt (fun t => t.withPlb n (natBits v 16 10))
  | 0x0b => s.modCtx c (fun k => { k with cause := w })
  | 0x0c => s.modCtx c (fun k => { k with trapPc := w })
  | 0x0d => s.modCtx c (fun k => { k with trapVal := w })
  | 0x0e => s.modCtx c (fun k => { k with trapTag := w })
  | 0x0f => s.modCore c.core (fun k => { k with trapVec := w })
  | 0x10 => s.modCore c.core (fun k => { k with upcallVec := w })
  | 0x11 => s.modCtx c (fun k => { k with mode := w.setWidth 3, seed := w.extractLsb' 32 32 })
  | 0x12 => s.modCtx c (fun k => { k with ff := w.setWidth 5 })
  | 0x13 => s.modCtx c (fun k => { k with lpct := w })
  | 0x14 =>
    let i : BitVec 8 := w.extractLsb' 40 8
    s.modCore c.core (fun k => { k with decIdx := i, dec := if w.getLsbD 63 then k.dec.set i.toNat (w.setWidth 19) else k.dec })
  | 0x15 => s.modCore c.core (fun k => { k with classEn := w.setWidth 16 })
  | 0x17 => s.modCore c.core (fun k => { k with waitLim := w.setWidth 32 })
  | 0x18 => s.modCore c.core (fun k => { k with barRect := w.setWidth 16 })
  | 0x19 => s.modCore c.core (fun k => { k with detmode := w.setWidth 3 })
  | 0x1a => s.modCore c.core (fun k => { k with ctlPrio := w.getLsbD 0 })
  | 0x1d => { s with featAck := w &&& (Config.feat1 ++ Config.feat0), featSet := true }
  | _ => s

/-- The scope of the register is wider than the context, so that its write is a commit event (R421). -/
def sysWide (n : Nat) : Bool := !([0x0b, 0x0c, 0x0d, 0x0e, 0x11, 0x12, 0x13].contains n)

/-- The register number of a SYS. -/
def sysNum (o : Fields) : Nat := o.imm.toNat % 256

/-- Check and write. -/
def Env.sysPut (e : Env) (s : State) : Except Stop State :=
  let n := sysNum e.o
  match s.sysCheck e.me n (e.a s) with
  | some t => .error (.trap t s)
  | none => .ok ((if sysWide n then s.commit e.me else s).sysWrite e.me n (e.a s))

/-- sys.csrr. -/
def bodyCsrr : Body := fun e s => e.put s (s.sysRead e.me (sysNum e.o))

/-- sys.csrw. -/
def bodyCsrw : Body := fun e s => do
  let s ← e.sysPut s
  pure (.next, s)

/-- sys.csrx. -/
def bodyCsrx : Body := fun e s => do
  let t := s.sysRead e.me (sysNum e.o)
  let s ← e.sysPut s
  e.put s t

/-! Single register writes as rows of their own. -/

/-- The SYS write at which a context stands, when it may issue: the row and its fields. -/
def State.sysAt (s : State) (c : CtxId) : Option Inst :=
  if !s.mayIssue c || s.coreStopped c.core || s.vseqHas c || s.mqHas c || (s.ctx c).entry != .inLine then none
  else
    match decodeHead (s.ctx c).line (headIndex (s.ctx c).pc) with
    | .ok i => if i.row = .sysCsrw ∨ i.row = .sysCsrx then some i else none
    | .error _ => none

/-- A register write of a kind: the SYS write at which context `ev.ctx` stands; or, on a core outside every launch, where no context runs, a
supervisor write of register `ev.k` by system software, whole or not at all (R37). -/
def State.regEvent (s : State) (kind : Nat → Word → Bool) : State :=
  let a := s.ev
  if (s.core a.ctx.core).launch.isNone then
    if (s.tile a.ctx.core.vt).draining || (s.tile a.ctx.core.vt).stopped || (a.k == 0x1d && s.attest.dark) then s
    else if kind a.k a.w && (match regAcc a.k with | some x => x != .ro | none => false) && (s.sysCheck a.ctx a.k a.w).isNone then
      s.sysWrite a.ctx a.k a.w
    else s
  else
    match s.sysAt a.ctx with
    | some i =>
      if kind (sysNum i.o) (s.rs a.ctx i.o.s1) then
        issue i.row (if i.row = .sysCsrw then bodyCsrw else bodyCsrx) { s with cur := a.ctx, op := i.o }
      else s
    | none => s

/-- sys.csrr (R296). -/
def execSysCsrr (s : State) : Out := .next (issue .sysCsrr bodyCsrr s)

/-- sys.csrw (R296). -/
def execSysCsrw (s : State) : Out := .next (issue .sysCsrw bodyCsrw s)

/-- sys.csrx (R296). -/
def execSysCsrx (s : State) : Out := .next (issue .sysCsrx bodyCsrx s)

/-- A register without behaviour of its own is written (R37). -/
def execRegisterWrite (s : State) : Out := .next (s.regEvent (fun n _ => !([0x08, 0x09, 0x0a, 0x14, 0x19, 0x1a, 0x1d].contains n)))

/-- DECTAB is written with WR = 1 (R47). -/
def execDectabStore (s : State) : Out := .next (s.regEvent (fun n v => n == 0x14 && v.getLsbD 63))

/-- DECTAB is written with WR = 0 (R47). -/
def execDectabSelect (s : State) : Out := .next (s.regEvent (fun n v => n == 0x14 && !v.getLsbD 63))

/-- A pool boundary is written (R59). -/
def execPlbWrite (s : State) : Out := .next (s.regEvent (fun n _ => n == 0x08 || n == 0x09 || n == 0x0a))

/-- DETMODE is written (R50). -/
def execDetmodeWrite (s : State) : Out := .next (s.regEvent (fun n _ => n == 0x19))

/-- FEATACK is written (R52). -/
def execFeatackWrite (s : State) : Out := .next (s.regEvent (fun n _ => n == 0x1d))

/-- CTLPRIO is written (R49). -/
def execCtlprioWrite (s : State) : Out := .next (s.regEvent (fun n _ => n == 0x1a))

end Sys2Proof.Machine
end

