-- ==== Sys2Proof/Machine/Tandem.lean ====
section
/-! DEFINITION. Tandem pairs (R297, R298): major 0x7c and the formation of a pair. -/

namespace Sys2Proof.Machine

open Sys2Proof

/-- The position of the pair partner (R297). -/
def partnerOf (pos : Nat) : Nat := if pos % 2 = 0 then pos + 1 else pos - 1

/-- The rectangle of a core's launch in the layout of Table 23; for a core placed without a launch record, its BARRECT. -/
def State.launchRect (s : State) (c : CoreId) : Nat :=
  match s.launchOf c with
  | some l => l.desc.rect
  | none => (s.core c).barRect.toNat

/-- A position lies in a rectangle. -/
def inRect (w pos : Nat) : Bool :=
  decide (natBits w 0 4 ≤ posX pos) && decide (posX pos ≤ natBits w 8 4) && decide (natBits w 4 4 ≤ posY pos) && decide (posY pos ≤ natBits w 12 4)

/-- Every helper of a core is free. -/
def State.noHelpers (s : State) (c : CoreId) : Bool := helperCtx.all (fun i => (s.ctx ⟨c, i⟩).st == .free)

/-- tandem.on. -/
def bodyTandemOn : Body := fun e s =>
  let c := e.me.core
  let p := partnerOf c.pos
  if !s.livePos (dieOf c.vt) p || !inRect (s.launchRect c) p then e.put s 0
  else .error (.wait .tandem (s.commit e.me))

/-- tandem.off. -/
def bodyTandemOff : Body := fun e s =>
  let c := e.me.core
  if (s.core c).tandem.isNone then e.put s 0
  else if !s.noHelpers c then .error (.wait .tandem s)
  else e.put ((s.commit e.me).uncouple c) 0

/-- The context 0 of a core waits at tandem.on, and the core could form a pair. -/
def State.atTandemOn (s : State) (c : CoreId) : Bool :=
  let k := s.ctx ⟨c, 0⟩
  (match k.st with | .waiting .tandem _ => true | _ => false) && s.noHelpers c && (s.core c).tandem.isNone && !s.preempting c &&
    (match decodeHead k.line (headIndex k.pc) with | .ok i => i.row == .tandemOn | .error _ => false)

/-- Both contexts 0 wait at tandem.on: the pair couples, and the primary's tandem.on completes with 1. -/
def State.formPair (s : State) (c : CoreId) : State :=
  let d : CoreId := ⟨c.vt, c.pos + 1⟩
  if c.pos % 2 ≠ 0 ∨ (s.core c).launchId ≠ (s.core d).launchId ∨ s.atTandemOn c = false ∨ s.atTandemOn d = false ∨
      (s.tile c.vt).stopped = true ∨ (s.tile c.vt).draining = true ∨ (s.tile c.vt).halted = true then s
  else
    let s := s.modCore c (fun k => { k with tandem := some ⟨d.pos, true⟩, fingers := [] })
    let s := s.modCore d (fun k => { k with tandem := some ⟨c.pos, false⟩, fingers := [] })
    (s.answerD ⟨c, 0⟩ 1).fingerBase ⟨c, 0⟩

/-- tandem.on (R297). -/
def execTandemOn (s : State) : Out := .next (issue .tandemOn bodyTandemOn s)

/-- tandem.off (R298). -/
def execTandemOff (s : State) : Out := .next (issue .tandemOff bodyTandemOff s)

/-- The pair whose primary is `core` couples (R297). -/
def execTandemFormation (s : State) : Out := .next (s.formPair s.ev.core)

end Sys2Proof.Machine
end

