-- ==== Sys2Proof/Machine/Stacks.lean ====
section
/-! DEFINITION. Hand-over of shared stacks (R299, R300, R394–R398) and renewal of leases (R301, R391): majors 0x7d, 0x7e. -/

namespace Sys2Proof.Machine

open Sys2Proof

/-! OWN. -/

def State.modStack (s : State) (vd st : Nat) (f : StackWord → StackWord) : State :=
  s.modDie vd (fun d => { d with stackWords := d.stackWords.modify st f })

/-- Write a stack's state word in both dies of the pair (R394). -/
def State.modStacks (s : State) (vd st : Nat) (f : StackWord → StackWord) : State :=
  match (s.info vd).mate with
  | some m => (s.modStack m st f).modStack vd st f
  | none => s.modStack vd st f

/-- Table 95. -/
def StackWord.word (w : StackWord) : Word := BitVec.ofNat 64 (w.gen % 2 ^ 16 * 2 ^ 16 + (if w.flight then 2 ^ 8 else 0) + w.owner % 64)

/-- s[S1] as a stack number; one out of range is the value in TRAPVAL, for OWN has no pointer operand (log 49). -/
def Env.stackNo (e : Env) (s : State) : Except Stop Nat :=
  let n := (e.a s).toNat
  if 1 < n then e.trap s .offsetOverflow (e.a s) else .ok n

/-- own.give: the hand-over is accepted, and the context waits for the end of close (R299, R395). -/
def bodyOwnGive : Body := fun e s => do
  let st ← e.stackNo s
  let vd := dieOf e.me.core.vt
  trapIf (s.info vd).mate.isNone { cause := .space, val := 0, detail := 3, other := 0, obyte := 0 } s
  let w := s.stack vd st
  trapIf (w.owner != vd || w.flight) (Cause.at_ .stackNotOwned (e.a s)) s
  let s := s.commit e.me
  let s := s.modStacks vd st (fun w => { w with flight := true })
  let ctr := if e.o.imm.getLsbD 8 then some (e.o.imm.toNat % 256) else none
  let h : Hand := { st := st, issuer := e.me.core, ctr := ctr, closed := false, drained := false, written := false, leased := false }
  let s := s.modDie vd (fun d => { d with hands := d.hands ++ [h] })
  .error (.wait (.close vd st) (s.ws e.me e.o.d (BitVec.ofNat 64 ((w.gen + 1) % 2 ^ 16))))

/-- own.query; every OWN is a commit event (R421). -/
def bodyOwnQuery : Body := fun e s => do
  let st ← e.stackNo s
  e.put (s.commit e.me) (s.stack (dieOf e.me.core.vt) st).word

/-! The steps of a hand-over (R395). -/

/-- The hand-over of a stack by a die. -/
def State.hand (s : State) (vd st : Nat) : Option Hand := (s.die vd).hands.find? (fun h => h.st == st)
def State.modHand (s : State) (vd st : Nat) (f : Hand → Hand) : State :=
  s.modDie vd (fun d => { d with hands := d.hands.map (fun h => if h.st = st then f h else h) })

/-- The context a key of the table names. -/
def ctxOfKey (k : Nat) : CtxId := ⟨⟨k / 16 / 192, k / 16 % 192⟩, k % 16⟩

/-- A field of a fault queue entry (Table 112): o bytes in, n bytes. -/
def State.entryField (s : State) (vd slot o n : Nat) : Nat := s.load (faultSlot vd slot + o) n

/-- An accepted access to stack st that has not been performed is on its way to die vd, or waits there (R395); `edge`: it is on the shared edge. -/
def State.accepted (s : State) (vd st : Nat) (edge : Bool) : Bool :=
  s.net.any (fun p => match p.pl with
    | .remote x => x.taken && decide (x.stage < 2) && pSpc x.abs == 5 && pPair x.abs && pStack x.abs == st && dieOf p.dst == vd &&
        (!edge || dieOf p.at_ != vd)
    | _ => false) ||
  (!edge && (s.bridge.held.take 1).any (fun x => pSpc x.1 == 5 && pPair x.1 && pStack x.1 == st && s.home ⟨0, 0⟩ x.1 == vd))

/-- An entry of stack st stands in the fault queue of die vd: a pager core serves it, or it is posted and will be completed with STACK_NOT_OWNED
(R395, R396). -/
def State.pagerAt (s : State) (vd st : Nat) : Bool :=
  (List.range 255).any (fun i => s.entryField vd i 16 1 == 0 && (s.entryField vd i 17 1 == 1 || s.entryField vd i 17 1 == 2) &&
    (let a : Word := BitVec.ofNat 64 (s.entryField vd i 0 8); pSpc a == 5 && pPair a && pStack a == st))

/-- Step 1 ends, once no forwarded access is on the shared edge: own.give completes. -/
def State.closeEnd (s : State) (vd st : Nat) : State :=
  match s.hand vd st with
  | none => s
  | some h =>
    if h.closed || s.accepted vd st true then s
    else
      let s := s.modHand vd st (fun h => { h with closed := true })
      match s.ctxs.find? (fun x => match x.2.st with | .waiting w _ => w == .close vd st | _ => false) with
      | some x => s.finishWaiting (ctxOfKey x.1)
      | none => s

/-- Step 2 ends: every access accepted before close has been performed, and no entry of the stack waits for a pager core or is served by one. -/
def State.drainEnd (s : State) (vd st : Nat) : State :=
  match s.hand vd st with
  | some h => if h.closed && !s.accepted vd st false && !s.pagerAt vd st then s.modHand vd st (fun h => { h with drained := true }) else s
  | none => s

/-- Steps 3 and 4 end: the owner's slices have written every line back, and its interfaces drop the translations of the stack's tree. -/
def State.writeBackEnd (s : State) (vd st : Nat) : State :=
  match s.hand vd st with
  | some h =>
    if h.drained then
      let s := (List.range 8).foldl (fun (s : State) i =>
        s.modTile (8 * vd + i) (fun t => { t with tcache := t.tcache.filter (fun e => e.tree != 1 + st) })) s
      let s := s.writeBack (fun x => flatKind (x * 64) == 4 && flatOwner (x * 64) == 2 * (s.info vd).pair + st)
      s.modHand vd st (fun h => { h with written := true })
    else s
  | none => s

/-- Step 5 ends: the owner's pace has reached the latest gateway expiry plus 20 ns, and the serving tile is certain (R395, R397). -/
def State.leaseWaitEnd (s : State) (vd st : Nat) : State :=
  match s.hand vd st with
  | some h =>
    let t := h.issuer.vt
    if h.closed ∧ (s.tile t).uncertain = false ∧ s.load (flatCommons vd (0x7fe2028 + 8 * st)) 8 + 20 ≤ s.paceAt t then
      s.modHand vd st (fun h => { h with leased := true })
    else s
  | none => s

/-- Exact sums and registrations of buffers in the stack pass to the new owner (R396). -/
def State.moveSums (s : State) (old st new : Nat) : State :=
  let mine := fun (home : Nat) (p : Word) => home == old && pSpc p == 5 && pPair p && pStack p == st
  { s with launches := s.launches.map (fun l =>
      { l with regs := l.regs.map (fun r => if mine r.home r.ptr then { r with home := new } else r),
               sums := l.sums.map (fun r => if mine r.home r.ptr then { r with home := new } else r) }) }

/-- Step 6: the ports switch, and the issuing core's counter is signalled. -/
def State.switchStack (s : State) (vd st : Nat) : State :=
  match s.hand vd st, (s.info vd).mate with
  | some h, some m =>
    if h.written ∧ h.leased then
      let s := s.modStacks vd st (fun w => { gen := (w.gen + 1) % 2 ^ 16, flight := false, owner := m })
      let s := (s.modDie vd (fun d => { d with hands := d.hands.filter (fun x => x.st != st) })).moveSums vd st m
      match h.ctr with
      | some n => s.signal h.issuer n 1 false
      | none => s
    else s
  | _, _ => s

/-! LEASE (R301, R391). -/

/-- The leaf of a page as its home walks to it for a renewal: no access is made, and no bit is set. -/
def State.leafAt (s : State) (vd va : Nat) : Except Cause Word :=
  let tree := treeOf va
  let root := match tree with
    | none => s.tcb vd 0
    | some st => (2 + st) * 2 ^ 37
  match s.walkFrom vd tree (walkIdx va) 2 root with
  | .error c => .error c
  | .ok (_, e) => if s.framePlaced vd e tree then .ok e else .error .tablePlacement

/-- Entries that agree in frame, rights, GW, PIN and code. -/
def sameLeaf (a b : Word) : Bool := (a ||| 0x30) == (b ||| 0x30)

/-- Bytes of the page a gateway line or a cached translation was fetched from, and whether it holds an address. -/
def inPage (e : Word) (a va : Nat) : Bool := decide (a / pageBytes (pteSize e) = va / pageBytes (pteSize e))

/-- Renew one page from the die of tile vt: its new expiry, if it carries a lease, or the home's failure with the interface that received the access
(R190, R391, R392). -/
def State.renewPage (s : State) (vt : Nat) (p : Word) : Except (HomeFault × Nat × State) (Option Nat × State) :=
  let home := s.home ⟨vt, 0⟩ p
  let va := pVa p
  let die := dieOf vt
  let (ifc, s) := s.receiver home p
  if pPair p && (s.stack (pDie p) (pStack p)).flight then .error (⟨.stackNotOwned, 0⟩, ifc, s)
  else if (s.tile ifc).uncertain then .error (⟨.leaseSkew, 0⟩, ifc, s)
  else
    let cached := (s.tile ifc).tcache.filter (fun c => c.covers (treeKey va) va && decide (s.paceAt ifc ≤ c.expiry))
    let lines := (s.die die).gw.filter (fun l => l.home == s.gwHome p && inPage l.entry l.va va && l.grant.isNone && decide (s.paceAt vt < l.expiry))
    let drop := fun (s : State) =>
      (s.modTile ifc (fun t => { t with tcache := t.tcache.filter (fun c => !c.covers (treeKey va) va) })).modDie die
        (fun d => { d with gw := d.gw.filter (fun l => !lines.contains l) })
    match s.leafAt home va with
    | .error c => if cached.isEmpty && lines.isEmpty then .error (⟨c, 0⟩, ifc, s) else .ok (none, drop s)
    | .ok e =>
      let n := pteLease e
      if cached.any (fun c => !sameLeaf c.entry e) || lines.any (fun l => !sameLeaf l.entry e) then .ok (none, drop s)
      else if n = 0 then .ok (none, s)
      else
        let size := pageBytes (pteSize e)
        let t : TransEntry := { tree := treeKey va, base := va / size * size, size := size, frame := pteFrame e, entry := e,
                                expiry := s.paceAt ifc + leaseNs n }
        let s := s.modTile ifc (fun x => { x with tcache := t :: x.tcache.filter (fun c => !c.covers (treeKey va) va) })
        let till := s.paceAt vt + leaseNs n
        let s := if pteW e || lines.isEmpty then s else s.noteGrant home p (s.paceAt ifc + leaseNs n)
        .ok (some till, s.modDie die (fun d => { d with gw := d.gw.map (fun l => if lines.contains l && !pteW e then { l with expiry := till } else l) }))

/-- The least expiry, when there is one. -/
def earliest (a b : Option Nat) : Option Nat :=
  match a, b with
  | some x, some y => some (min x y)
  | some x, none => some x
  | none, y => y

/-- Renew pages in ascending order. -/
def State.renewAll (s : State) (vt : Nat) : List Word → Except (Word × HomeFault × Nat × State) (Option Nat × State)
  | [] => .ok (none, s)
  | p :: r =>
    match s.renewPage vt p with
    | .error e => .error (p, e)
    | .ok (x, s) =>
      match s.renewAll vt r with
      | .error e => .error e
      | .ok (y, s) => .ok (earliest x y, s)

/-- lease.renew. -/
def bodyLeaseRenew : Body := fun e s => do
  let n := (e.s2v s).toNat
  trapIf (decide (16 < n)) (Cause.at_ .offsetOverflow (e.a s)) s
  let q := { e.reqC s (n * 65536) 1 .read [5] false with held := false }
  let ea ← s.lift (s.formEa q)
  let p ← s.lift (s.absolute e.me.core [5] ea)
  if n = 0 then e.put s (BitVec.allOnes 64)
  else
    trapIf (pPair p && (s.stack (pDie p) (pStack p)).flight) (Cause.at_ .stackNotOwned ea) s
    trapIf (s.tile e.me.core.vt).uncertain (Cause.at_ .leaseSkew ea) s
    let ps := (segsOf p (n * 65536)).map (fun x => x.1)
    match s.renewAll e.me.core.vt ps with
    | .ok (x, s) => e.put s (match x with | some t => BitVec.ofNat 64 t | none => BitVec.allOnes 64)
    | .error (w, f, ifc, _) =>
      let (t, s) := s.transFault e.me ea (s.home e.me.core w) ifc f.cause
      .error (.trap t s)

/-- own.give (R299). -/
def execOwnGive (s : State) : Out := .next (issue .ownGive bodyOwnGive s)

/-- own.query (R300). -/
def execOwnQuery (s : State) : Out := .next (issue .ownQuery bodyOwnQuery s)

/-- lease.renew (R301). -/
def execLeaseRenew (s : State) : Out := .next (issue .leaseRenew bodyLeaseRenew s)

/-- Close of the hand-over of stack j by die vd ends (R395). -/
def execStackCloseEnd (s : State) : Out := .next (s.closeEnd s.ev.vd s.ev.j)

/-- Its drain ends (R395). -/
def execStackDrainEnd (s : State) : Out := .next (s.drainEnd s.ev.vd s.ev.j)

/-- Its lines are written back and its translations dropped (R395). -/
def execStackWriteBackEnd (s : State) : Out := .next (s.writeBackEnd s.ev.vd s.ev.j)

/-- Its lease wait ends (R395, R397). -/
def execStackLeaseWaitEnd (s : State) : Out := .next (s.leaseWaitEnd s.ev.vd s.ev.j)

/-- Its ports switch (R395). -/
def execStackSwitch (s : State) : Out := .next (s.switchStack s.ev.vd s.ev.j)

end Sys2Proof.Machine
end

