-- ==== Sys2Proof/Machine/Launching.lean ====
section
/-! DEFINITION. Launches (R295, R331–R349, R356): the descriptor and its validation, entry onto tiles, the deal and its refills, stealing
between dies, dependences and the end. -/

namespace Sys2Proof.Machine

open Sys2Proof

/-! The descriptor (Table 101). -/

/-- The fields of a descriptor's 128 bytes. -/
def descOf (b : List Byte) : Desc :=
  let f := fun o n => leNat ((b.drop o).take n)
  let w := fun o => BitVec.ofNat 64 (f o 8)
  { entry := w 0, args := w 8, upcall := w 0x10, dies := w 0x18, groups := f 0x20 4, waitlim := f 0x24 4, seed := f 0x28 4,
    classen := f 0x2c 2, rect := f 0x2e 2, slots := f 0x30 1, helpers := f 0x31 1 % 16, unit := f 0x32 1 % 4,
    vec := natBits (f 0x32 1) 2 1 == 1, deal := natBits (f 0x32 1) 3 2, rmode := natBits (f 0x32 1) 5 3, detmode := f 0x33 1 % 8,
    stack := f 0x34 2 * 64, static_ := f 0x38 4, plb0 := f 0x40 2 % 1024, plb1 := f 0x42 2 % 1024, plb2 := f 0x44 2 % 1024,
    dep := f 0x46 2 % 4, cop := natBits (f 0x46 2) 2 2, depptr := w 0x48, target := f 0x50 4, reply := w 0x58, notice := w 0x60,
    nclass := f 0x68 1 % 16 }

/-- Columns and rows of a unit (R339). -/
def unitShape (code : Nat) : Nat × Nat := if code = 0 then (1, 1) else gangShape (code - 1)

/-- The rectangle is aligned to the unit shape. -/
def rectAligned (rect code : Nat) : Bool :=
  let (w, h) := unitShape code
  natBits rect 0 4 % w == 0 && (natBits rect 8 4 + 1) % w == 0 && natBits rect 4 4 % h == 0 && (natBits rect 12 4 + 1) % h == 0

/-- Step 1 of R333, but for what the dependence pointer names. -/
def descBad (b : List Byte) (d : Desc) (nDies : Nat) : Bool :=
  let f := fun o n => leNat ((b.drop o).take n)
  f 0x31 1 / 16 != 0 || f 0x33 1 / 8 != 0 || f 0x36 2 != 0 || f 0x3c 4 != 0 || f 0x40 2 / 1024 != 0 || f 0x42 2 / 1024 != 0 ||
    f 0x44 2 / 1024 != 0 || f 0x46 2 / 16 != 0 || f 0x54 4 != 0 || f 0x68 1 / 16 != 0 || f 0x69 23 != 0 ||
    (d.dep == 3 && d.entry != 0) || (d.dep != 3 && d.target != 0) || d.dies == 0 || decide (2 ^ nDies ≤ d.dies.toNat) || d.slots == 0 ||
    !rectOk d.rect || !rectAligned d.rect d.unit || f 0x34 2 == 0 || decide (204 < f 0x34 2) || decide (4 < d.rmode) || (d.dep == 3 && d.cop == 3)

/-! Units (R339). -/

/-- Live positions of a die in a rectangle, ascending. -/
def State.rectLive (s : State) (vd rect : Nat) : List Nat := (List.range 192).filter (fun p => inRect rect p && s.livePos vd p)

/-- The positions of the aligned block that holds a position. -/
def blockOf (code p : Nat) : List Nat :=
  let (w, h) := unitShape code
  let c := posX p / w * w + 12 * (posY p / h * h)
  (List.range (w * h)).map (fun m => c + m % w + 12 * (m / w))

/-- The units of a tile of a die, leader first: whole live blocks, and the single live cores of other blocks. -/
def State.tileUnits (s : State) (vd rect code : Nat) : List (List Nat) :=
  (s.rectLive vd rect).filterMap (fun p =>
    let b := blockOf code p
    if b.all (s.livePos vd) then (if b.head? = some p then some b else none) else some [p])

/-- The units of a die's share: tile and members, ordered by virtual tile and leader. -/
def State.dieUnits (s : State) (d : Desc) (vd : Nat) : List (Nat × List Nat) :=
  let us := s.tileUnits vd d.rect d.unit
  (d.tiles vd).flatMap (fun t => us.map (fun u => (t, u)))

/-! Dependences (R347, R348). -/

/-- What a validation found beside the descriptor: producers, or the node's index, predecessor count and successors. -/
structure Deps where
  producers : List Nat
  node : Option (Nat × Nat)
  succ : List Nat
deriving DecidableEq, Repr

/-- Read the dispatcher's inputs for a submitter. -/
def State.depRead (s : State) (vt : Nat) (sup : Bool) (align : Nat) (p : Word) (o n : Nat) : Option (List Byte × State) :=
  match s.engRead ⟨vt, 0⟩ sup align p o n with
  | .ok r => some r
  | .error _ => none

/-- The producer list, when it is well formed. -/
def State.readProducers (s : State) (vt : Nat) (sup : Bool) (p : Word) : Option (Deps × State) :=
  match s.depRead vt sup 1 p 0 8 with
  | none => none
  | some (h, s) =>
    let n := leNat h
    if n = 0 ∨ 16 < n then none
    else
      match s.depRead vt sup 1 p 8 (4 * n) with
      | none => none
      | some (l, s) => some (⟨(List.range n).map (fun i => leNat ((l.drop (4 * i)).take 4)), none, []⟩, s)

/-- The node record, when validation does not refuse it (R348). -/
def State.readNode (s : State) (vt : Nat) (sup : Bool) (die : Nat) (p : Word) : Option (Deps × State) :=
  match s.depRead vt sup 64 p 0 8 with
  | none => none
  | some (h, s) =>
    let f := fun o n => leNat ((h.drop o).take n)
    let idx := f 0 2
    let n := f 4 1
    if 4095 < idx ∨ 30 < n ∨ f 5 3 ≠ 0 ∨ (s.die die).nodes.any (fun x => x.index == idx) = true then none
    else
      match s.depRead vt sup 1 p 8 (4 * n) with
      | none => none
      | some (l, s) =>
        let rs := (List.range n).map (fun i => leNat ((l.drop (4 * i)).take 4))
        if rs.any (fun r => decide (2 ^ 18 ≤ r) || decide (s.nDies ≤ r / 4096)) then none else some (⟨[], some (idx, f 2 2), rs⟩, s)

/-! Validation (R333). -/

/-- Steps 3 to 8 of R333: the DETAIL of the first that fails. -/
def State.resourceFault (s : State) (d : Desc) : Option Nat :=
  let most := d.dieList.foldl (fun m vd => max m (s.rectLive vd d.rect).length) 0
  if d.helpers = 0 ∨ 10 < d.helpers then some 3
  else if d.detmode % 2 = 1 ∧ s.feat0 6 = false then some 6
  else if d.plb1 < d.plb0 ∨ d.plb2 < d.plb1 ∨ d.allTiles.any (fun t => decide ((s.tile t).ckbase < d.plb2)) then some 4
  else if d.vec = true ∧ d.plb0 * 65536 < most * d.helpers * 14336 then some 1
  else if 0x1ffc0 < (d.helpers + 1) * d.stack + d.static_ then some 2
  else if s.attest.below || d.dieList.any (fun vd => (s.rectLive vd d.rect).isEmpty) || d.allTiles.any (fun t => (s.tile t).lost) then some 8
  else none

/-- How a validation ends: the cause and DETAIL of the refusal, or the descriptor with what it depends on. -/
def State.validate (s : State) (vt : Nat) (sup : Bool) (b : List Byte) : Except (Cause × Nat) (Desc × Deps × State) :=
  let d := descOf b
  let deps : Option (Deps × State) :=
    if d.dep = 1 then s.readProducers vt sup d.depptr
    else if d.dep = 2 then s.readNode vt sup (lowBit d.dies) d.depptr
    else some (⟨[], none, []⟩, s)
  if descBad b d s.nDies then .error (.launchResource, 7)
  else
    match deps with
    | none => .error (.launchResource, 7)
    | some (x, s) =>
      if d.dep = 3 ∧ sup = false then .error (.privilege, 0)
      else
        match s.resourceFault d with
        | some n => .error (.launchResource, n)
        | none => .ok (d, x, s)

/-! Shares (R340). -/

/-- Groups of each die from the weights: the remainder goes one each to the lowest dies. -/
def shareSizes (g : Nat) (ws : List Nat) : List Nat :=
  let w := ws.sum
  let q := ws.map (fun x => if w = 0 then 0 else g * x / w)
  let r := g - q.sum
  (List.range q.length).map (fun i => q.getD i 0 + if i < r then 1 else 0)

/-- First groups of consecutive ranges. -/
def startsOf (lo : Nat) : List Nat → List Nat
  | [] => []
  | n :: r => lo :: startsOf (lo + n) r

/-- Groups dealt at entry: ceil(N / F). -/
def firstWave (size deal : Nat) : Nat := (size + 2 ^ deal - 1) / 2 ^ deal

/-- The shares of a launch under validation. -/
def State.makeShares (s : State) (d : Desc) : List Share :=
  let ws := d.dieList.map (fun vd => ((s.dieUnits d vd).map (fun u => u.2.length)).sum)
  let ns := shareSizes d.groups ws
  let los := startsOf 0 ns
  (List.range d.dieList.length).map (fun i =>
    let n := ns.getD i 0
    { vd := d.dieList.getD i 0, st := .validating, ranges := if n = 0 then [] else [(los.getD i 0, n)], size := n, weight := ws.getD i 0,
      wave := none, entered := [], saved := [], tried := [], swept := false, asking := none })

/-- A share whose launch has passed validation (Table 109). -/
def Share.pass (h : Share) (groups : Nat) : Share := { h with st := if groups = 0 then .drained else .waiting }

/-! Submission (R334, R348, R368). -/

/-- Install a graph node at the dispatcher that holds it (R348). -/
def State.installNode (s : State) (id die : Nat) (x : Nat × Nat) : State :=
  let (idx, preds) := x
  let info := (s.die die).pendHb.get idx []
  (s.modDie die (fun q => { q with nodes := q.nodes ++ [⟨idx, id, preds - q.pendDec.get idx 0⟩], pendDec := q.pendDec.erase idx,
                                   pendHb := q.pendHb.erase idx })).modLaunch id (fun l => { l with hb := l.hb.join info })

/-- The next launch identity of a dispatcher (R334): its count skips 0 when it wraps. -/
def nextCount (n : Nat) : Nat := if (n + 1) % 2 ^ 26 = 0 then 1 else (n + 1) % 2 ^ 26

/-- Launches validated after the one of count m, up to the one of count n. -/
def countsSince (m n : Nat) : Nat := (n + (2 ^ 26 - 1) - m) % (2 ^ 26 - 1)

/-- A validated descriptor is accepted by the dispatcher of a die: the identity it answers. -/
def State.accept (s : State) (die : Nat) (d : Desc) (x : Deps) : Nat × State :=
  if d.dep = 3 then
    let ts := d.allTiles
    (d.target, { s with controls := s.controls ++ [{ op := d.cop, target := d.target, tiles := ts, all := ts, save := d.depptr, reply := d.reply,
                                                     begun := false, die := die }] })
  else
    let n := nextCount (s.die die).launches
    let id := n * 64 + die
    let l : Launch := { id := id, die := die, desc := d, producers := x.producers, shares := (s.makeShares d).map (fun h => h.pass d.groups), triggered := [],
                        node := x.node.map (fun y => y.1), succ := x.succ, ended := false, stage := 0, cancelled := false, failCause := 0,
                        failDetail := 0, failTile := none, failed := [], parked := [], parkedCores := [], closing := false, dtoken := none, dfail := none, digestFail := 0, settleFail := 0,
                        dealt := 0, regs := [], digests := [], sums := [], idleSince := s.edges, hangArmed := false,
                        hb := [] }
    let keep := s.launches.filter (fun o => !(o.ended && o.die == die && o.stage == 2 && decide (1024 ≤ countsSince (o.id / 64) n)))
    let s := { (s.modDie die (fun q => { q with launches := n })) with launches := keep ++ [l] }
    (id, match x.node with | some y => s.installNode id (lowBit d.dies) y | none => s)

/-- launch (R295, R333). -/
def bodyLaunch : Body := fun e s => do
  let p := e.a s
  let q : Req := { base := p, ofs := 0, n := 128, align := 64, k := .read, spaces := [0, 1, 2, 3, 5], plain := false, held := true }
  let (b, s) ← s.loadBytes e.me q
  match s.validate e.me.core.vt (e.k s).sup b with
  | .error (c, n) => .error (.trap { cause := c, val := if c = .privilege then 0 else p, detail := n, other := 0, obyte := 0 } s)
  | .ok (d, x, s) =>
    let (id, s) := (s.commit e.me).accept (dieOf e.me.core.vt) d x
    e.put s (BitVec.ofNat 64 id)

/-- launch.steal (R295). -/
def bodySteal : Body := fun e s =>
  let n := (e.a s).toNat % 64
  .ok (.next, (s.commit e.me).modDie (dieOf e.me.core.vt) (fun d => { d with stealFirst := if n = 0x3f then none else some n }))

/-! The deal (R341). -/

/-- Blocks of a wave of n groups from lo over units of the given weights. -/
def dealWave (lo n : Nat) (ws : List Nat) : List (Nat × Nat) :=
  let q := shareSizes n ws
  (startsOf lo q).zip q

/-- Groups of the shares of lower dies. -/
def Launch.shareBase (l : Launch) (vd : Nat) : Nat := ((l.shares.filter (fun h => decide (h.vd < vd))).map (fun h => h.size)).sum

def Launch.share (l : Launch) (vd : Nat) : Option Share := l.shares.find? (fun h => h.vd == vd)
def Launch.modShare (l : Launch) (vd : Nat) (f : Share → Share) : Launch :=
  { l with shares := l.shares.map (fun h => if h.vd = vd then f h else h) }

/-- Undispatched groups of a share. -/
def Share.held (h : Share) : Nat := (h.ranges.map (fun x => x.2)).sum

/-- Put a range among rising ranges. -/
def insertRange (x : Nat × Nat) : List (Nat × Nat) → List (Nat × Nat)
  | [] => [x]
  | y :: r => if x.1 < y.1 then x :: y :: r else y :: insertRange x r

/-- A block goes back among the undispatched groups of a share. -/
def Share.giveBack (h : Share) (lo n : Nat) : Share := if n = 0 then h else { h with ranges := insertRange (lo, n) h.ranges }

/-- The lowest k groups of rising ranges, and the others. -/
def splitRanges (k : Nat) : List (Nat × Nat) → List (Nat × Nat) × List (Nat × Nat)
  | [] => ([], [])
  | (lo, n) :: r =>
    if k = 0 then ([], (lo, n) :: r)
    else if n ≤ k then ((lo, n) :: (splitRanges (k - n) r).1, (splitRanges (k - n) r).2)
    else ([(lo, k)], (lo + k, n - k) :: r)

/-- The state of a share (Table 109), but for VALIDATING and the end: WAITING until a tile is entered, PREEMPTED while every tile it has entered is saved, ENTERING until
every named tile has been entered, then by its undispatched groups; with none it has groups to gain until a sweep of the other dies ends, and
reads STEALING while one of its units is out (`State.restate`). -/
def Launch.stateOf (l : Launch) (h : Share) : DState :=
  if h.entered.isEmpty && h.saved.isEmpty then .waiting
  else if !h.saved.isEmpty && h.entered.all h.saved.contains then .preempted
  else if !(l.desc.tiles h.vd).all h.entered.contains then .entering
  else if h.held ≠ 0 then .dealing
  else if h.swept || decide (l.shares.length ≤ 1) then .drained
  else .stealing

/-- Change the share of a die, whose state follows. -/
def Launch.setShare (l : Launch) (vd : Nat) (f : Share → Share) : Launch :=
  l.modShare vd (fun h => { f h with st := l.stateOf (f h) })

/-- Groups given to a unit; a cancelled launch counts those dealt before the cancel (R335, R373). -/
def Launch.deals (l : Launch) (n : Nat) : Launch := if l.cancelled then l else { l with dealt := l.dealt + n }

/-! Entry (R64, R337, R342, R343). -/

/-- What context 0 of a core receives (Table 28). -/
def entryRegs (l : Launch) (leader : Nat) (lo n : Nat) : Vector Word 32 :=
  startRegs 0x1ffc0 [l.desc.args, BitVec.ofNat 64 (if n = 0 then leader else lo), BitVec.ofNat 64 n, BitVec.ofNat 64 l.desc.helpers, 0, 0, 0,
    BitVec.ofNat 64 l.id]

/-- The launch parameters of a core. -/
def Launch.coreLaunch (l : Launch) (unit : List Nat) : CoreLaunch :=
  { id := l.id, h := l.desc.helpers, stack := l.desc.stack, vec := l.desc.vec, mode := l.desc.rmode, seed := l.desc.seed,
    leader := unit.headD 0, unit := unit, notice := l.desc.notice, nclass := l.desc.nclass }

/-- The core state a launch enters with (Table 28); TRAPVEC, IDX of DECTAB, CYCLE and lines the core has fetched stay. -/
def Launch.entryCore (l : Launch) (k : Core) (unit : List Nat) : Core :=
  { Core.reset with trapVec := k.trapVec, decIdx := k.decIdx, cycle0 := k.cycle0, code := k.code, last := k.last, thru := k.thru,
                    upcallVec := l.desc.upcall, classEn := BitVec.ofNat 16 l.desc.classen, waitLim := BitVec.ofNat 32 l.desc.waitlim,
                    barRect := BitVec.ofNat 16 l.desc.rect, detmode := BitVec.ofNat 3 l.desc.detmode, launch := some (l.coreLaunch unit) }

/-- Free the helper slots of a core; their kept flags are zero (R46). -/
def State.clearHelpers (s : State) (c : CoreId) : List Nat → State
  | [] => s
  | i :: r => (match s.ctxs.find (CtxId.key ⟨c, i⟩) with
    | none => s
    | some k => s.setCtx ⟨c, i⟩ (k.cleared ⟨c, i⟩) : State).clearHelpers c r

/-- Enter one core with a block of n groups from lo. The start of a dependent launch acquires what its producers released (R321). -/
def State.enterCore (s : State) (l : Launch) (c : CoreId) (unit : List Nat) (lo n : Nat) : State :=
  let s := (s.modCore c (fun k => l.entryCore k unit)).clearHelpers c helperCtx
  let c0 : CtxId := ⟨c, 0⟩
  let k := (s.ctx c0).cleared c0
  let s := s.setCtx c0 { k with
    pc := l.desc.entry, entry := .from_ 0, s := entryRegs l (unit.headD c.pos) lo n, mode := BitVec.ofNat 3 l.desc.rmode,
    seed := BitVec.ofNat 32 l.desc.seed ^^^ BitVec.ofNat 32 (identC c0), st := .ready }
  if l.desc.dep = 2 then s.acquireInfo c0 l.hb else s

/-- Enter the cores of a unit: the leader takes the block. -/
def State.enterUnit (s : State) (l : Launch) (vt : Nat) (unit : List Nat) (lo n : Nat) : List Nat → State
  | [] => s
  | p :: r => (if l.failed.contains (CoreId.key ⟨vt, p⟩) then s
      else if unit.head? = some p then s.enterCore l ⟨vt, p⟩ unit lo n else s.enterCore l ⟨vt, p⟩ unit 0 0 : State).enterUnit l vt unit lo n r

/-- A unit with its block. -/
structure Dealt where
  vt : Nat
  unit : List Nat
  lo : Nat
  n : Nat
deriving DecidableEq, Repr

/-- The die of a share enters: the first n0 = ceil(N_d / F) groups it still holds are its first wave (R341; log 44). -/
def Share.open_ (h : Share) (deal : Nat) : Share :=
  if h.wave.isSome then h
  else
    let n := min (firstWave h.size deal) h.held
    { h with wave := some n, ranges := (splitRanges n h.ranges).2 }

/-- The first wave of a die's share over its units. -/
def State.firstDeal (s : State) (l : Launch) (h : Share) : List Dealt :=
  let us := s.dieUnits l.desc h.vd
  (us.zip (dealWave (l.shareBase h.vd) (h.wave.getD 0) (us.map (fun u => u.2.length)))).map
    (fun x => { vt := x.1.1, unit := x.1.2, lo := x.2.1, n := x.2.2 })

/-- A core of the unit failed at entry: the unit is dealt no groups (R335). -/
def Launch.unitLost (l : Launch) (vt : Nat) (unit : List Nat) : Bool := unit.any (fun p => l.failed.contains (CoreId.key ⟨vt, p⟩))

/-- Enter dealt units. The block of a unit that is dealt no groups is undispatched again. -/
def State.enterUnits (s : State) (l : Launch) : List Dealt → State
  | [] => s
  | d :: r =>
    (if l.unitLost d.vt d.unit then
      (s.enterUnit l d.vt d.unit 0 0 d.unit).modLaunch l.id (fun l => l.setShare (dieOf d.vt) (fun h => h.giveBack d.lo d.n))
    else (s.enterUnit l d.vt d.unit d.lo d.n d.unit).modLaunch l.id (fun l => l.deals d.n)).enterUnits l r

/-- The lowest free offset for n bytes of register backing below a bound, among reserved regions (R337). -/
def freeBacking (held : List (Nat × Nat × Nat)) (bound n : Nat) : Option Nat :=
  let cands := 0 :: held.map (fun b => b.2.1 + b.2.2)
  (cands.filter (fun o => decide (o + n ≤ bound) && held.all (fun b => decide (o + n ≤ b.2.1) || decide (b.2.1 + b.2.2 ≤ o)))).min?

/-- Reserve register backing of a VEC launch on a tile; none when it has to wait. -/
def State.reserveBacking (s : State) (l : Launch) (vt : Nat) : Option State :=
  if !l.desc.vec || (s.tile vt).backing.any (fun b => b.1 == l.id) then some s
  else
    let n := (s.rectLive (dieOf vt) l.desc.rect).length * l.desc.helpers * 14336
    match freeBacking (s.tile vt).backing ((s.tile vt).plb0 * 65536) n with
    | some o => some (s.modTile vt (fun t => { t with backing := t.backing ++ [(l.id, o, n)] }))
    | none => none

/-- The pool bounds of a launch hold on a tile, or may be written there (R337). -/
def State.takeBounds (s : State) (l : Launch) (vt : Nat) : Option State :=
  let t := s.tile vt
  if t.plb0 = l.desc.plb0 ∧ t.plb1 = l.desc.plb1 ∧ t.plb2 = l.desc.plb2 then some s
  else if s.resident vt then none
  else some (s.setBounds vt (fun t => { t with plb0 := l.desc.plb0, plb1 := l.desc.plb1, plb2 := l.desc.plb2 }))

/-- The counter of a launch's graph node is 0 (R348). -/
def State.nodeReady (s : State) (l : Launch) : Bool :=
  l.node.isNone || (s.die (lowBit l.desc.dies)).nodes.any (fun n => n.launch == l.id && n.counter == 0)

/-- A control operation of a kind on a launch names a tile. -/
def State.controlled (s : State) (op id vt : Nat) : Bool := s.controls.any (fun c => c.op == op && c.target == id && c.tiles.contains vt)

/-- The power state of a die is ACTIVE (Table 138). -/
def State.awake (s : State) (vd : Nat) : Bool := natBits (s.load (flatCommons vd 0x7fec000) 8) 8 2 == 0

/-- The tile takes entries (R410, R463). -/
def State.tileOpen (s : State) (vt : Nat) : Bool :=
  let t := s.tile vt
  !t.draining && !t.stopped && !t.halted && !t.lost && !t.maint && s.awake (dieOf vt)

/-- Every listed core of a tile is outside every launch. -/
def State.allOutside (s : State) (vt : Nat) (ps : List Nat) : Bool := ps.all (fun p => (s.core ⟨vt, p⟩).launch.isNone)

/-- A unit that may be dealt groups is out: its tile has been entered and every core of it has left. -/
def State.unitOut (s : State) (l : Launch) (h : Share) : Bool :=
  (s.dieUnits l.desc h.vd).any (fun u => h.entered.contains u.1 && !h.saved.contains u.1 && !l.unitLost u.1 u.2 &&
    u.2.all (fun p => (s.core ⟨u.1, p⟩).launchId != l.id || (s.core ⟨u.1, p⟩).launch.isNone))

/-- A share that holds no group reads STEALING while a unit of it is out, else DRAINED (Table 109). -/
def State.restate (s : State) (id vd : Nat) : State :=
  match s.launchById id with
  | none => s
  | some l =>
    match l.share vd with
    | none => s
    | some h =>
      if l.ended || (h.st != .stealing && h.st != .drained) || l.stateOf h != .stealing then s
      else s.modLaunch id (fun l => l.modShare vd (fun h => { h with st := if s.unitOut l h then .stealing else .drained }))

/-- Record the cores that fail at this entry (R335). -/
def Launch.entryFails (l : Launch) (vt : Nat) (fs : List Nat) : Launch :=
  if fs.isEmpty then l
  else { l with failed := l.failed ++ fs.map (fun p => CoreId.key ⟨vt, p⟩), failCause := Cause.uncorrectable.code,
                failTile := match l.failTile with | some t => some t | none => some vt }

/-- A launch may enter a tile now: the state with its pool bounds written and its register backing reserved. -/
def State.entryOpen (s : State) (l : Launch) (h : Share) (vt : Nat) : Option State :=
  if l.ended || l.desc.groups == 0 || !(l.desc.tiles h.vd).contains vt || h.entered.contains vt || h.saved.contains vt ||
      !s.nodeReady l || !s.tileOpen vt || !s.allOutside vt (s.rectLive h.vd l.desc.rect) || s.controlled 0 l.id vt then none
  else (s.takeBounds l vt).bind (fun s => s.reserveBacking l vt)

/-- A launch enters a tile (R337). `fails`: positions whose entry state cannot be written, an uncorrectable error. -/
def State.enterTile (s : State) (id vt : Nat) (fails : List Nat) : State :=
  match s.launchById id with
  | none => s
  | some l =>
    match l.share (dieOf vt) with
    | none => s
    | some h =>
      match s.entryOpen l h vt with
      | none => s
      | some s =>
        let l := l.entryFails vt (fails.filter (s.rectLive h.vd l.desc.rect).contains)
        let h := h.open_ l.desc.deal
        let l := l.setShare h.vd (fun _ => { h with entered := insertNat h.entered vt })
        let s := (s.modLaunch id (fun _ => l)).modTile vt (fun t => { t with idle := false })
        (s.enterUnits l ((s.firstDeal l h).filter (fun d => d.vt == vt))).restate id h.vd

/-! Leaving and refills (R153, R343). -/

/-- Context 0 of a core waits at its EXIT, or at the JOIN that ends it, and may leave. The JOIN has made its signal with its decrement (R126). -/
def State.coreLeave (s : State) (c : CoreId) : State :=
  let c0 : CtxId := ⟨c, 0⟩
  match (s.ctx c0).st with
  | .waiting .exit _ =>
    if !s.mayLeave c || s.coreStopped c || (s.tile c.vt).draining then s
    else
      match s.standing c0 with
      | some i =>
        (((s.covered c0).leave c).complete c0 i.row i.o false .ended (if (s.ctx c0).joined then none else syncSignal i.o)).restate
          (s.core c).launchId (dieOf c.vt)
      | none => s
  | _ => s

/-- Take the lowest b groups of a share, as far as they are consecutive: a block is a first group and a count. -/
def Share.take (h : Share) (b : Nat) : Nat × Nat × Share :=
  let n := match h.ranges with | (_, n) :: _ => min b n | [] => 0
  let lo := match h.ranges with | (lo, _) :: _ => lo | [] => 0
  (lo, n, { h with ranges := (splitRanges n h.ranges).2 })

/-- Groups of a refill of a unit of w cores (R343). -/
def Share.refillSize (h : Share) (deal w : Nat) : Nat := max 1 (h.held * w / (2 ^ deal * h.weight))

/-- A unit that has left may be re-entered now: the state with its pool bounds and register backing. -/
def State.refillOpen (s : State) (l : Launch) (h : Share) (vt : Nat) (unit : List Nat) : Option State :=
  if l.ended || h.held == 0 || !h.entered.contains vt || h.saved.contains vt || !s.tileOpen vt || !s.allOutside vt unit ||
      l.unitLost vt unit || s.controlled 0 l.id vt || s.controlled 2 l.id vt then none
  else (s.takeBounds l vt).bind (fun s => s.reserveBacking l vt)

/-- A unit that has left is re-entered with the next block of its die's undispatched groups; `fails`: positions whose entry fails (R335). -/
def State.refill (s : State) (id vt leader : Nat) (fails : List Nat) : State :=
  match s.launchById id with
  | none => s
  | some l =>
    match l.share (dieOf vt), (s.dieUnits l.desc (dieOf vt)).find? (fun u => u.1 == vt && u.2.head? == some leader) with
    | some h, some (_, unit) =>
      match s.refillOpen l h vt unit with
      | none => s
      | some s =>
        let l := l.entryFails vt (fails.filter unit.contains)
        if l.unitLost vt unit then (s.modLaunch id (fun _ => l)).enterUnit l vt unit 0 0 unit
        else
          let (lo, n, h') := h.take (h.refillSize l.desc.deal unit.length)
          let l := (l.setShare h.vd (fun _ => h')).deals n
          ((s.modLaunch id (fun _ => l)).enterUnit l vt unit lo n unit).restate id h.vd
    | _, _ => s

/-! Ranges between dies (R345, R346). -/

/-- The die a thief asks next: the one named by launch.steal when not yet tried, then ascending after its own, wrapping. -/
def Launch.victimFor (l : Launch) (h : Share) (first : Option Nat) : Option Nat :=
  let ds := l.shares.map (fun x => x.vd)
  let order := ds.filter (fun d => decide (h.vd < d)) ++ ds.filter (fun d => decide (d < h.vd))
  match first with
  | some f => if order.contains f && !h.tried.contains f then some f else order.find? (fun d => !h.tried.contains d)
  | none => order.find? (fun d => !h.tried.contains d)

/-- A dispatcher without undispatched groups asks one die, which answers with the upper half of the groups it holds; a sweep with empty
answers ends. -/
def State.stealRequest (s : State) (id thief : Nat) : State :=
  match s.launchById id with
  | none => s
  | some l =>
    match l.share thief with
    | none => s
    | some h =>
      if l.ended || l.stateOf h != .stealing || h.asking.isSome || !s.unitOut l h then s
      else
        match l.victimFor h (s.die thief).stealFirst with
        | none => s.modLaunch id (fun l => l.setShare thief (fun h => { h with swept := true, tried := [] }))
        | some v =>
          match l.share v with
          | none => s
          | some x =>
            let (kept, given) := splitRanges (x.held - (if 2 ≤ x.held then x.held / 2 else 0)) x.ranges
            let s := s.modLaunch id (fun l => (l.modShare v (fun x => { x with ranges := kept })).modShare thief
              (fun h => { h with asking := some v, tried := v :: h.tried }))
            ({ s with answers := s.answers ++ [⟨id, thief, v, given⟩] } : State).restate id v

/-- A steal answer reaches its thief, which refills from it. -/
def State.stealAnswer (s : State) (id thief : Nat) : State :=
  match s.answers.find? (fun a => a.launch == id && a.thief == thief) with
  | none => s
  | some a =>
    let s := { s with answers := s.answers.erase a }
    (s.modLaunch id (fun l => l.setShare thief (fun h =>
      if a.ranges.isEmpty then { h with asking := none }
      else { h with asking := none, tried := [], ranges := a.ranges.foldl (fun l x => insertRange x l) h.ranges }))).restate id thief

/-! The end (R335, R338, R349). -/

/-- The identity under which a dispatcher sends a reply: the interface of its die's first tile. -/
def State.dispatchReply (s : State) (die : Nat) (ref : Word) (launch : Nat) (payload : List Byte) : State :=
  let n := ref.toNat
  let vt := natBits n 31 9
  if n = 0 ∨ 8 * s.nDies ≤ vt then s
  else
    let m : Msg := { hdr := 0, vt := vt, pos := natBits n 23 8, reply := ref.setWidth 41, src := ifcIdent (8 * die), mc := false, kind := 1, prio := 0,
                     cls := 0, payload := payload, dests := 0, launch := launch, hb := [] }
    s.inject (8 * die) vt 0 (.msg m 0 none)

/-- The completion status (Table 103). -/
def State.status (s : State) (l : Launch) : List Byte :=
  natLe 4 l.id ++ natLe 1 (if l.cancelled then 2 else if l.failCause ≠ 0 then 1 else 0) ++ natLe 1 l.failCause ++ natLe 1 l.failDetail ++
    natLe 1 (min l.digestFail 255) ++ natLe 4 (match l.failTile with | some t => t | none => 0xffffffff) ++ natLe 2 (min l.settleFail 0xffff) ++
    natLe 2 0 ++ natLe 8 (s.paceAt (8 * l.die)) ++ natLe 8 l.dealt ++ List.replicate 16 0

/-- An engine command of the launch has not retired. -/
def State.commandsLeft (s : State) (id : Nat) : Bool :=
  s.retiring.any (fun c => c.launch == id) ||
    s.tiles.any (fun t => t.2.commands.any (fun c => c.launch == id))

/-- Nothing of the launch is left to run. -/
def State.mayEnd (s : State) (l : Launch) : Bool :=
  !l.ended && l.dtoken.isNone && (s.coresOf l.id).isEmpty && !s.answers.any (fun a => a.launch == l.id) && !s.commandsLeft l.id &&
    l.shares.all (fun h => h.held == 0 && h.saved.isEmpty && (l.desc.groups == 0 || (l.desc.tiles h.vd).all h.entered.contains)) &&
    !s.controls.any (fun c => c.target == l.id && c.op != 2)

/-- Step 4 of R338, once every successor has its decrement: the status is sent, and the node entry is free (R349). -/
def State.finishLaunch (s : State) (id : Nat) : State :=
  match s.launchById id with
  | none => s
  | some l =>
    if l.ended && l.stage == 1 && l.succ.isEmpty then
      let s := (s.modLaunch id (fun l => { l with stage := 2, shares := l.shares.map (fun h => { h with st := .done }) })).dispatchReply
        l.die l.desc.reply id (s.status l)
      s.modDie (lowBit l.desc.dies) (fun d => { d with nodes := d.nodes.filter (fun x => x.launch != id) })
    else s

/-- Steps 1 and 2 of R338: the launch has ended, its buffers are settled, then its digests are computed, which may wait for absent pages. -/
def State.closeLaunch (s : State) (l : Launch) : State :=
  let s := if l.closing then s
    else let (n, s) := s.settle l.id; s.modLaunch l.id (fun l => { l with closing := true, settleFail := n, regs := [], sums := [] })
  let s := s.digestPass l.id l.digests
  if !((s.launchById l.id).elim true (fun l => l.digests.isEmpty)) then s
  else
    let s := s.modLaunch l.id (fun l => { l with ended := true, stage := 1, shares := l.shares.map (fun h => { h with st := .ending }) })
    { s with recs := s.recs.filter (fun r => r.launch != l.id) }

/-- The launch ends (R338): steps 1 and 2, then step 4 when no successor has to be decremented before it. -/
def State.endLaunch (s : State) (id : Nat) : State :=
  match s.launchById id with
  | none => s
  | some l => (if s.mayEnd l then s.closeLaunch l else s).finishLaunch id

/-- Step 3 of R338: the next decrement of an ended graph launch reaches its successor's dispatcher (R349), with what the launch released. -/
def State.decrement (s : State) (id : Nat) : State :=
  match s.launchById id with
  | none => s
  | some l =>
    match l.ended, l.succ with
    | true, r :: rest =>
      let die := r / 4096
      let idx := r % 4096
      let s := s.modLaunch id (fun l => { l with succ := rest })
      match (s.die die).nodes.find? (fun n => n.index == idx) with
      | some n =>
        (s.modDie die (fun d => { d with nodes := d.nodes.map (fun n => if n.index = idx then { n with counter := n.counter - 1 } else n) })).modLaunch
          n.launch (fun x => { x with hb := x.hb.join l.hb })
      | none => s.modDie die (fun d => { d with pendDec := d.pendDec.set idx (min (d.pendDec.get idx 0 + 1) 4095),
                                                pendHb := d.pendHb.set idx ((d.pendHb.get idx []).join l.hb) })
    | _, _ => s

/-- launch (R295, R333). -/
def execLaunch (s : State) : Out := .next (issue .launch bodyLaunch s)

/-- launch.steal (R295). -/
def execLaunchSteal (s : State) : Out := .next (issue .launchSteal bodySteal s)

/-- Launch k enters tile vt; `nums`: positions whose entry fails (R335, R337). -/
def execLaunchEntry (s : State) : Out := .next (s.enterTile s.ev.k s.ev.vt s.ev.nums)

/-- A core leaves its launch (R153). -/
def execCoreLeave (s : State) : Out := .next (s.coreLeave s.ev.core)

/-- The unit of launch k on tile vt led by position j is refilled (R343); `nums`: positions whose entry fails (R335). -/
def execUnitRefill (s : State) : Out := .next (s.refill s.ev.k s.ev.vt s.ev.j s.ev.nums)

/-- The dispatcher of die vd asks for groups of launch k (R345). -/
def execStealRequest (s : State) : Out := .next (s.stealRequest s.ev.k s.ev.vd)

/-- A steal answer for launch k reaches die vd (R345). -/
def execStealAnswer (s : State) : Out := .next (s.stealAnswer s.ev.k s.ev.vd)

/-- Launch k ends (R338). -/
def execLaunchEnd (s : State) : Out := .next (s.endLaunch s.ev.k)

/-- A decrement of ended launch k is delivered (R349). -/
def execGraphDecrement (s : State) : Out := .next (s.decrement s.ev.k)

end Sys2Proof.Machine
end

