-- ==== Sys2Proof/Machine/Preempt.lean ====
section
/-! DEFINITION. Control descriptors (R368–R373): pre-emption with its records (Tables 10, 82, 114), resume and cancel. -/

namespace Sys2Proof.Machine

open Sys2Proof

/-! Images. -/

/-- The scalar image of a context (Table 10); `pc`: its PC field; `sleeping`: it stands in a listed wait (Table 107). -/
def Ctx.image (k : Ctx) (pc : Nat) (sleeping : Bool) : List Byte :=
  (k.s.toList.drop 1).flatMap (fun w => natLe 8 w.toNat) ++ natLe 8 pc ++ natLe 8 k.lpct.toNat ++
    natLe 8 (k.seed.toNat * 2 ^ 32 + k.mode.toNat) ++ (k.p.toList.drop 1).flatMap (fun w => natLe 2 w.toNat) ++ natLe 1 k.ff.toNat ++
    natLe 1 (1 + (if sleeping then 2 else 0) + if k.origin = .follower then 4 else 0) ++ natLe 2 (k.prio * 16 + k.cls)

/-- The trap registers of a held frame. -/
def Ctx.frameImage (k : Ctx) : List Byte := [k.cause, k.trapPc, k.trapVal, k.trapTag].flatMap (fun w => natLe 8 w.toNat)

/-- The vector state of a helper (R24). -/
def Ctx.vectorImage (k : Ctx) : List Byte :=
  k.v.toList.flatMap (fun x => natLe 64 x.toNat) ++ k.a.toList.flatMap (fun x => x.toList.flatMap (fun w => natLe 4 w.toNat)) ++
    k.g.toList.flatMap (fun x => x.toList.flatMap (fun w => natLe 128 w.toNat))

/-- Read the scalar image back. -/
def Ctx.ofImage (k : Ctx) (b : List Byte) : Ctx :=
  let f := fun o n => leNat ((b.drop o).take n)
  { k with s := Vector.ofFn (fun i : Fin 32 => if i.val = 0 then 0 else BitVec.ofNat 64 (f (8 * (i.val - 1)) 8)),
           pc := BitVec.ofNat 64 (f 248 8), lpct := BitVec.ofNat 64 (f 256 8), mode := BitVec.ofNat 3 (f 264 4), seed := BitVec.ofNat 32 (f 268 4),
           p := Vector.ofFn (fun i : Fin 8 => if i.val = 0 then 0 else BitVec.ofNat 16 (f (272 + 2 * (i.val - 1)) 2)),
           ff := BitVec.ofNat 5 (f 286 1), cls := f 288 1 % 16, prio := natBits (f 288 1) 4 2 }

/-- Read the vector state back. -/
def Ctx.ofVector (k : Ctx) (b : List Byte) : Ctx :=
  let f := fun o n => leNat ((b.drop o).take n)
  { k with v := Vector.ofFn (fun i : Fin 32 => BitVec.ofNat 512 (f (64 * i.val) 64)),
           a := Vector.ofFn (fun i : Fin 8 => Vector.ofFn (fun j : Fin 256 => BitVec.ofNat 32 (f (2048 + 1024 * i.val + 4 * j.val) 4))),
           g := Vector.ofFn (fun i : Fin 2 => Vector.ofFn (fun j : Fin 16 => BitVec.ofNat 1024 (f (10240 + 2048 * i.val + 128 * j.val) 128))) }

/-- The message image of a waiting task (Tables 82, 83). -/
def Task.image (t : Task) (c : CoreId) : List Byte :=
  let hdr := t.cls + t.prio * 2 ^ 4 + t.src * 2 ^ 9 + t.reply.toNat % 2 ^ 41 * 2 ^ 30 + c.pos * 2 ^ 71 + c.vt * 2 ^ 79 +
    ((handlerField t.handler).getD 0).toNat * 2 ^ 88
  natLe 16 hdr ++ (t.payload ++ List.replicate 48 0).take 48

/-- A task read back from its image. -/
def taskOf (b : List Byte) (c : CoreId) (launch seq : Nat) (hb : HbInfo) : Task :=
  let h := leNat (b.take 16)
  { handler := handlerAddr (BitVec.ofNat 40 (natBits h 88 40)) (dieOf c.vt), payload := (b.drop 16).take 48,
    reply := BitVec.ofNat 64 (natBits h 30 41), src := natBits h 9 21, cls := natBits h 0 4, prio := natBits h 4 2, seq := seq, passed := 0,
    replays := 0, launch := launch, hb := hb }

/-- A gait image (Table 73). -/
def Gait.image (g : Gait) : List Byte :=
  natLe 8 g.len ++ (List.range 4).flatMap (fun i => natLe 2 (g.ops.getD i 0).toNat) ++ (List.range 4).flatMap (fun i => natLe 4 (g.k.getD i 0).toNat)

/-! The save area (R370). -/

def tileRec (i : Nat) : Nat := i * 0x2000000
def coreRec (i pos : Nat) : Nat := tileRec i + 0x90000 + pos * 0x26000

/-- Mask of the listed contexts. -/
def ctxMask (l : List Nat) : Nat := (l.map (fun i => 2 ^ i)).sum

/-- The gang descriptor of a follower (R235). -/
def gangDesc (ms : List CtxId) : Nat :=
  (match ms.head? with | some c => c.core.pos | none => 0) + 2 ^ 8 * (if ms.length = 2 then 0 else if ms.length = 4 then 1 else 2)

/-- Contexts of a core whose state is saved. -/
def State.savedCtx (s : State) (c : CoreId) : List Nat :=
  allCtx.filter (fun i => match (s.ctx ⟨c, i⟩).st with | .ready => true | .waiting _ _ => true | _ => false)

/-- The pieces of a context's slot, by offset in the core record. -/
def State.ctxPieces (s : State) (c : CoreId) (vec : Bool) (i : Nat) : List (Nat × List Byte) :=
  let k := s.ctx ⟨c, i⟩
  let pc := if k.origin = .follower then gangDesc ((k.gang.map (fun g => g.members)).getD []) else k.pc.toNat
  [(0x1100 + 384 * i, k.image pc (s.listed ⟨c, i⟩))] ++ (if k.causeCode ≠ 0 then [(0x1100 + 384 * i + 320, k.frameImage)] else []) ++
    (if vec && i != 0 then [(0x2200 + (i - 1) * 14336, k.vectorImage)] else [])

/-- The pieces of a core record (Table 114). -/
def State.corePieces (s : State) (c : CoreId) (id : Nat) (vec primary : Bool) : List (Nat × List Byte) :=
  let q := s.core c
  let live := s.savedCtx c
  let halted := allCtx.filter (fun i => match (s.ctx ⟨c, i⟩).st with | .halted _ => true | _ => false)
  let flags := (if q.bar.arrived then 1 else 0) + (if q.bar.phase then 2 else 0) +
    (if live.any (fun i => (s.ctx ⟨c, i⟩).origin == .follower) then 4 else 0) + (if primary then 8 else 0)
  let head := natLe 4 id ++ natLe 2 (ctxMask live) ++ natLe 2 (if vec then ctxMask (live.filter (fun i => i != 0)) else 0) ++
    natLe 2 (ctxMask halted) ++ natLe 1 c.pos ++ natLe 1 flags ++ natLe 1 q.runq.length ++ natLe 1 q.deque.length ++ List.replicate 50 0
  let eBits := (List.range 256).foldl (fun n i => if (q.reinAt i).e then n + 2 ^ i else n) 0
  [(0, head), (0x40, (List.range 256).flatMap (fun i => natLe 2 (q.reinAt i).v.toNat)), (0x240, natLe 32 eBits),
   (0x260, natLe 8 q.classEn.toNat ++ natLe 8 q.waitLim.toNat ++ natLe 8 q.barRect.toNat ++ natLe 8 q.upcallVec.toNat),
   (0x280, q.deque.flatMap (fun d => natLe 8 d.cont.toNat ++ natLe 8 d.frame.toNat ++ natLe 8 d.join.toNat ++ natLe 8 d.src)),
   (0x480, (List.range 256).flatMap (fun i => natLe 4 (q.dec.get i 0).toNat)),
   (0x880, (List.range 4).flatMap (fun i => (q.gaits.get i Gait.zero).image)), (0x900, q.runq.flatMap (fun t => t.image c))] ++
  live.flatMap (s.ctxPieces c vec)

/-- Write pieces at offsets from the save area; none when a write fails. -/
def State.writePieces (s : State) (vt : Nat) (save : Word) : List (Nat × List Byte) → Option State
  | [] => some s
  | (o, b) :: r =>
    if b.isEmpty then s.writePieces vt save r
    else
      match s.engWrite ⟨vt, 0⟩ true 1 save o b with
      | .ok s => s.writePieces vt save r
      | .error _ => none

/-! Pre-emption (R369). -/

def State.control (s : State) (op id vt : Nat) : Option Control := s.controls.find? (fun c => c.op == op && c.target == id && c.tiles.contains vt)

/-- The reply of a finished control operation (R368). -/
def State.controlReply (s : State) (c : Control) : State :=
  s.dispatchReply c.die c.reply c.target (natLe 4 c.target ++ natLe 4 0 ++ natLe 4 0xffffffff ++ natLe 4 0 ++ natLe 8 (s.paceAt (8 * c.die)) ++
    List.replicate 24 0)

/-- A control operation has dealt with a tile; with the last one it ends. -/
def State.tileDone (s : State) (c : Control) (vt : Nat) : State :=
  let c' := { c with tiles := c.tiles.filter (fun t => t != vt) }
  if c'.tiles.isEmpty then ({ s with controls := s.controls.erase c } : State).controlReply c
  else { s with controls := s.controls.map (fun x => if x = c then c' else x) }

/-- Cores of a launch on a tile, ascending. -/
def State.coresOn (s : State) (id vt : Nat) : List CoreId :=
  ((s.coresOf id).filter (fun k => decide (k / 192 = vt))).map (fun k => ⟨k / 192, k % 192⟩)

/-- The pre-emption of a launch begins: its activations commit (R421). -/
def State.preemptBegin (s : State) (id : Nat) : State :=
  match s.controls.find? (fun c => c.op == 0 && c.target == id && !c.begun) with
  | none => s
  | some c =>
    let s := { s with controls := s.controls.map (fun x => if x = c then { x with begun := true } else x) }
    (c.tiles.flatMap (s.coresOn id)).foldl (fun s d => helperCtx.foldl (fun s i => s.commit ⟨d, i⟩) s) s

/-- The part of a member in its gang's present instruction can be given up, which is then executed afresh: it has not begun, it is governed off, or
it waits at a barrier, whose arrival the core keeps (R201, Table 114). -/
def State.partOpen (s : State) (c : CtxId) : Bool :=
  let k := s.ctx c
  k.gdone == 0 || (k.gdone == 3 && (match k.st with | .waiting .bar _ => true | _ => false)) ||
    (k.gdone == 1 && (match s.standing c with | some i => s.predicatedOff c i | none => false))

/-- The context stands at an instruction boundary: it has no remote access, answer or half of a gang's instruction on its way, no matrix instruction
whose operand read has ended, and its wait is no longer than WAITLIM allows (R201, R235, R247, R406). -/
def State.atBoundary (s : State) (c : CtxId) : Bool :=
  let k := s.ctx c
  k.posted == 0 && k.remote == 0 && s.partOpen c && !(s.core c.core).mq.any (fun m => m.q.ctx == c.ctx && m.stage == .read) &&
    (s.limitDue c).isNone && (match k.st with
      | .waiting (.value _) _ => false
      | .waiting (.answer _) _ => false
      | .waiting (.close _ _) _ => false
      | _ => true)

/-- The context is live and not halted. -/
def CState.runs : CState → Bool
  | .ready => true
  | .waiting _ _ => true
  | _ => false

/-- The pre-emption takes the context where it stands (R201, R229, R235, R247): outside the handler of an earlier trap, with no engine command left
(R288), and not at an EXIT that can complete, which does so first (R154). -/
def State.savable (s : State) (c : CtxId) : Bool :=
  let k := s.ctx c
  !k.st.runs || (s.atBoundary c && (!k.sup || k.framed) && k.commands == 0 && (match k.st with
    | .waiting .exit _ => !s.mayLeave c.core
    | .ready | .waiting .earlier _ => k.framed || !s.atExit c || !(s.pendingSeq c).isEmpty
    | _ => true))

/-- The tile may be saved: every context is at its boundary, every released message answered, no barrier release on its way. -/
def State.saveReady (s : State) (vt : Nat) (cs : List CoreId) : Bool :=
  cs.all (fun c => allCtx.all (fun i => s.savable ⟨c, i⟩) && (s.core c).pending == 0) &&
    !s.cores.any (fun p => decide (p.1 / 192 = vt) && (p.2.bar.release || p.2.thru.any (fun x => x.2.release))) && !(s.tile vt).draining && !(s.tile vt).stopped

/-- The oldest vector instruction that a context has handed over faults: its trap wins over the pre-emption (R154, R229). -/
def State.seqFault (s : State) (c : CtxId) : Option State :=
  match (s.core c.core).vseq.find? (fun q => q.ctx == c.ctx) with
  | none => none
  | some q =>
    if !isVector q.inst.row || s.mqHas c then none
    else
      let s1 := s.modCtx c (fun k => k.at_ q)
      match memberRun (vectorBody q.inst.row) q.inst.row q.inst.o q.info s1 c s1 with
      | .error (.trap _ _) => some (s.seqRun vectorBody c)
      | _ => none

/-- A valid error record of a context, which is reported before the save (R190, R367). -/
def State.errFirst (s : State) (c : CtxId) : Option State :=
  let k := s.ctx c
  if k.framed || !k.st.runs then none
  else k.err.map (fun e => if s.trapHeld c then s else s.trapAt c e.trap)

/-- A trap that is due at the boundary where contexts of the cores stand: a refused message (R276), or the fault of a vector instruction. -/
def State.dueFirst (s : State) (cs : List CoreId) : Option State :=
  match cs.find? (fun c => (s.core c).report.isSome && s.mayReport ⟨c, 0⟩) with
  | some c => some (s.takeReport ⟨c, 0⟩)
  | none => cs.findSome? (fun c => allCtx.findSome? (fun i => s.seqFault ⟨c, i⟩))

/-- What the pre-emption takes first: a valid error record of a context (R190), or a trap that is due (R367). -/
def State.reportFirst (s : State) (cs : List CoreId) : Option State :=
  match cs.findSome? (fun c => allCtx.findSome? (fun i => s.errFirst ⟨c, i⟩)) with
  | some s => some s
  | none => s.dueFirst cs

/-- A context's handed-over instructions that have not been performed are given up: it hands them over again when it goes on (R229, R247). -/
def State.abandon (s : State) (c : CtxId) : State :=
  if (s.pendingSeq c).isEmpty then s else (s.unhand c).modCtx c (fun k => { k with st := .ready })

/-- Its waiting request is withdrawn as well: on resume it executes its instruction afresh (R201). -/
def State.withdraw (s : State) (c : CtxId) : State :=
  let s := s.abandon c
  let s := match (s.ctx c).st with | .waiting (.gang _) _ => s.unreserve c | _ => s
  (if (s.ctx c).gdone = 0 then s else s.modCtx c (fun k => { k with gdone := 0 })).dropGrants c

/-- A core is given back: outside every launch, its contexts cleared but for the flags that the slots of ended helpers keep (R46); TRAPVEC, CYCLE and
fetched lines stay. -/
def State.emptyCore (s : State) (c : CoreId) : State :=
  let s := allCtx.foldl (fun (s : State) i => match s.ctxs.find (CtxId.key ⟨c, i⟩) with
    | none => s
    | some k => if k.st == .free then s else (s.setCtx ⟨c, i⟩ (k.cleared ⟨c, i⟩)).dropGrants ⟨c, i⟩) s
  let s := { s with feq := s.feq.filter (fun r => r.ctx.core != c) }
  s.modCore c (fun k => { Core.reset with trapVec := k.trapVec, decIdx := k.decIdx, cycle0 := k.cycle0, code := k.code, last := k.last, thru := k.thru })

/-- What stays with each saved context. -/
def State.parkedOf (s : State) (c : CtxId) : Parked :=
  let k := s.ctx c
  { key := c.key, frame := decide (k.causeCode ≠ 0), count := k.count, gbad := k.gbad, st := k.st,
    waited := match k.st with | .waiting _ since => s.edgesAt c.core.vt - since | _ => 0, line := k.line, joined := k.joined, hb := k.hb, joins := k.joins, gang := match k.gang with | some g => if g.members.head? = some c then g.members else [] | none => [] }

/-- Save a tile: its records, then its cores are free (R370, R371). -/
def State.saveTile (s : State) (c : Control) (l : Launch) (vt : Nat) : State :=
  let cs := s.coresOn l.id vt
  let prim := cs.filter (fun d => s.coupled d)
  let s := cs.foldl (fun s d => s.uncouple d) s
  let s := cs.foldl (fun s d => allCtx.foldl (fun s i => s.withdraw ⟨d, i⟩) s) s
  let i := c.all.idxOf vt
  let late := (s.tile vt).overflow.filter (fun o => cs.any (fun d => d.pos == o.1))
  let head := (tileRec i, natLe 4 l.id ++ natLe 2 vt ++ natLe 2 0 ++ natLe 4 late.length ++ List.replicate 52 0)
  let overflow := (tileRec i + 0x40, late.flatMap (fun o => o.2.image ⟨vt, o.1⟩))
  let cores := cs.flatMap (fun d => (s.corePieces d l.id l.desc.vec (prim.contains d)).map (fun p => (coreRec i d.pos + p.1, p.2)))
  match s.writePieces vt c.save (head :: overflow :: cores) with
  | none => s
  | some s' =>
    let parked := cs.flatMap (fun d => (s.savedCtx d).map (fun i => s.parkedOf ⟨d, i⟩))
    let hold := cs.foldl (fun (t : Tab Core) d => t.set d.key (s.core d)) l.parkedCores
    let s' := s'.modLaunch l.id (fun l => { (l.setShare (dieOf vt) (fun h => { h with saved := insertNat h.saved vt })) with
      parked := l.parked ++ parked, parkedCores := hold })
    let s' := cs.foldl (fun s d => s.emptyCore d) s'
    let s' := s'.modTile vt (fun t => { t with overflow := t.overflow.filter (fun o => !late.contains o) })
    (s'.dropTokens vt l.id).tileDone c vt

/-- A pre-emption goes on at a tile: reports that are due, then the save. -/
def State.preemptSave (s : State) (id vt : Nat) : State :=
  match s.control 0 id vt, s.launchById id with
  | some c, some l =>
    let cs := s.coresOn id vt
    if !c.begun || !s.saveReady vt cs then s
    else
      match s.reportFirst cs with
      | some s => s
      | none =>
        if (l.shares.any (fun h => (l.desc.tiles h.vd).contains vt)) && !l.ended && !(l.cancelled && cs.isEmpty) then s.saveTile c l vt
        else s.tileDone c vt
  | some c, none => if c.begun then s.tileDone c vt else s
  | none, _ => s

/-! Resume (R372). -/

/-- Read n bytes at an offset of the save area. -/
def State.savedBytes (s : State) (vt : Nat) (save : Word) (o n : Nat) : Option (List Byte) :=
  match s.engRead ⟨vt, 0⟩ true 1 save o n with
  | .ok (b, _) => some b
  | .error _ => none

/-- The state in which a resumed context stands (R354, R372): a sleep goes on, every other wait is executed afresh (R201). `asleep`: the sleeping
bit of its image. -/
def Parked.resumed (p : Parked) (asleep : Bool) (edges : Nat) : CState :=
  match p.st with
  | .waiting (.sleep w) _ => if asleep || w then .waiting (.sleep w) (edges - p.waited) else .ready
  | .waiting (.timed n w) _ => .waiting (.timed n w) (edges - p.waited)
  | _ => .ready

/-- A saved context goes on from its image; one that holds a frame is in supervisor mode at TRAPVEC (R372; log 22). Reserved bits of the frame read
as zero (R18). The image holds the PC alone: offset 2 is entered as a fall-through, any other as a transfer from no head (log 22). -/
def State.restoreCtx (s : State) (c : CtxId) (p : Parked) (b : List Byte) (vec : Option (List Byte)) : State :=
  let f := fun o => BitVec.ofNat 64 (leNat ((b.drop o).take 8))
  let state := (b.getD 287 0).toNat
  let k := ((s.ctx c).cleared c).ofImage b
  let k := match vec with | some v => k.ofVector v | none => k
  let pcOf : Word := k.pc
  let k := { k with entry := if (pcOf.extractLsb' 0 6).toNat = 2 then .fall else .from_ 0, line := [], st := .ready, count := p.count, gbad := p.gbad,
                    origin := if state / 4 % 2 = 1 then .follower else if c.ctx = 0 then .control else .spawn, joined := p.joined,
                    hb := p.hb, joins := p.joins }
  if p.frame then
    s.setCtx c { k with cause := f 320 &&& 0xff03ff, trapPc := f 328, trapVal := f 336, trapTag := f 344 &&& 0x7ffffffffffffff, sup := true, pc := (s.core c.core).trapVec,
                        entry := .vector }
  else
    match p.resumed (state / 2 % 2 == 1) (s.edgesAt c.core.vt) with
    | .ready => s.setCtx c k
    | st => s.setCtx c { k with st := st, entry := .inLine, line := p.line }

/-- n deque entries read back, with what their starts acquire. -/
def dequeOf (b : List Byte) (n : Nat) (hbs : List HbInfo) : List DqEntry :=
  let f := fun o => leNat ((b.drop o).take 8)
  (List.range n).map (fun i => { cont := BitVec.ofNat 64 (f (32 * i)), frame := BitVec.ofNat 64 (f (32 * i + 8)), join := BitVec.ofNat 64 (f (32 * i + 16)),
                                 src := f (32 * i + 24), hb := hbs.getD i [] })

/-- The core parts of a record (Table 114). -/
def coreOf (q0 : Core) (l : Launch) (c : CoreId) (b : List Byte) : Core :=
  let f := fun o n => leNat ((b.drop o).take n)
  let unit := match q0.launch with | some x => x.unit | none => [c.pos]
  let q := l.entryCore q0 unit
  let e := f 0x240 32
  let rein := (List.range 256).foldl (fun (t : Tab Rein) i =>
    let v := f (0x40 + 2 * i) 2
    if v = 0 ∧ e / 2 ^ i % 2 = 0 then t else t.set i ⟨BitVec.ofNat 16 v, e / 2 ^ i % 2 == 1⟩) []
  let dec := (List.range 256).foldl (fun (t : Tab (BitVec 19)) i => let v := f (0x480 + 4 * i) 4; if v = 0 then t else t.set i (BitVec.ofNat 19 v)) []
  let gaits := (List.range 4).foldl (fun (t : Tab Gait) i => match gaitOf ((b.drop (0x880 + 32 * i)).take 32) with
    | some g => if g.len = 0 ∧ g.k.all (fun x => x == 0) = true then t else t.set i g
    | none => t) []
  let n := f 12 1
  let runq := (List.range n).map (fun i => taskOf ((b.drop (0x900 + 64 * i)).take 64) c l.id i ((q0.runq[i]?.map (fun t => t.hb)).getD []))
  let deque := dequeOf (b.drop 0x280) (f 13 1) (q0.deque.map (fun t => t.hb))
  { q with rein := rein, dec := dec, gaits := gaits, runq := runq, arrivals := n, deque := deque, classEn := BitVec.ofNat 16 (f 0x260 8),
           waitLim := BitVec.ofNat 32 (f 0x268 8), barRect := BitVec.ofNat 16 (f 0x270 8), upcallVec := BitVec.ofNat 64 (f 0x278 8),
           bar := { Core.reset.bar with arrived := f 11 1 % 2 == 1, phase := f 11 1 / 2 % 2 == 1, hb := q0.bar.hb }, reinHb := q0.reinHb, reinAcq := q0.reinAcq,
           consumed := q0.consumed, report := q0.report }

/-- Restore the contexts of a core from its record. -/
def State.restoreCtxs (s : State) (l : Launch) (vt : Nat) (save : Word) (base : Nat) : List Parked → Option State
  | [] => some s
  | p :: r =>
    let c := ctxOfKey p.key
    match s.savedBytes vt save (base + 0x1100 + 384 * c.ctx) 352 with
    | none => none
    | some b =>
      if l.desc.vec && c.ctx != 0 then
        match s.savedBytes vt save (base + 0x2200 + (c.ctx - 1) * 14336) 14336 with
        | none => none
        | some v => (s.restoreCtx c p b (some v)).restoreCtxs l vt save base r
      else (s.restoreCtx c p b none).restoreCtxs l vt save base r

/-- Restore the saved cores of a tile; none when a record cannot be read. -/
def State.restoreCores (s : State) (l : Launch) (vt : Nat) (save : Word) (i : Nat) : List (Nat × Core) → Option State
  | [] => some s
  | (key, q0) :: r =>
    let c : CoreId := ⟨key / 192, key % 192⟩
    let base := coreRec i c.pos
    match s.savedBytes vt save base 0x1100 with
    | none => none
    | some b =>
      let s := s.modCore c (fun k => coreOf { q0 with trapVec := k.trapVec, decIdx := k.decIdx, cycle0 := k.cycle0, code := k.code, last := k.last, thru := k.thru } l c b)
      let ps := l.parked.filter (fun p => decide (p.key / 16 = key) && natBits (leNat ((b.drop 4).take 2)) (p.key % 16) 1 == 1)
      match s.restoreCtxs l vt save base ps with
      | none => none
      | some s => s.restoreCores l vt save i r

/-- The gangs of the restored leaders re-form; a leader that misses a follower traps GANG (R235). -/
def State.regang (s : State) : List Parked → State
  | [] => s
  | p :: r =>
    let lead := ctxOfKey p.key
    (if p.gang.length ≤ 1 then s
      else
        let here := p.gang.filter (fun m => m != lead && (s.ctx m).st == .ready && (s.ctx m).origin == .follower &&
          (s.ctx m).pc.toNat % 2 ^ 10 == gangDesc p.gang)
        if here.length + 1 = p.gang.length then
          p.gang.foldl (fun s m => s.modCtx m (fun k => { k with gang := some ⟨p.gang, none⟩, pc := (s.ctx lead).pc })) s
        else (here.foldl (fun s m => s.freeHelper m false) s).takeTrap lead (s.ctx lead).pc false (Cause.at_ .gang 0)).regang r

/-- Tasks of the overflow area come back, when it has room for them (R31). -/
def State.restoreOverflow (s : State) (l : Launch) (vt : Nat) (save : Word) (i : Nat) : Option State :=
  match s.savedBytes vt save (tileRec i) 64 with
  | none => none
  | some h =>
    let n := leNat ((h.drop 8).take 4)
    if 8192 < (s.tile vt).overflow.length + n then none
    else
      match s.savedBytes vt save (tileRec i + 0x40) (64 * n) with
      | none => none
      | some b =>
        let ts := (List.range n).map (fun j =>
          let x := (b.drop (64 * j)).take 64
          let pos := natBits (leNat (x.take 16)) 71 8
          (pos, taskOf x ⟨vt, pos⟩ l.id 0 []))
        some (s.modTile vt (fun t => { t with overflow := t.overflow ++ ts }))

/-- A saved tile of a launch is re-entered once its rectangle is free. -/
def State.resumeTile (s : State) (id vt : Nat) : State :=
  match s.control 1 id vt with
  | none => s
  | some c =>
    match s.launchById id with
    | none => s.tileDone c vt
    | some l =>
      match l.share (dieOf vt) with
      | none => s.tileDone c vt
      | some h =>
        if !h.saved.contains vt then s.tileDone c vt
        else if !s.tileOpen vt || !s.allOutside vt (s.rectLive h.vd l.desc.rect) then s
        else
          let mine := l.parkedCores.filter (fun p => decide (p.1 / 192 = vt))
          let ps := l.parked.filter (fun p => decide (p.key / 16 / 192 = vt))
          let i := c.all.idxOf vt
          match (if mine.isEmpty then some s else s.takeBounds l vt).bind (fun s =>
              (s.restoreCores l vt c.save i mine).bind (fun s => s.restoreOverflow l vt c.save i)) with
          | none => s
          | some s =>
            let s := s.regang ps
            let more := c.tiles.any (fun t => t != vt && h.saved.contains t)
            let back := fun (l : Launch) =>
              let l := l.setShare h.vd (fun h => { h with saved := h.saved.filter (fun t => t != vt) })
              if more then l.modShare h.vd (fun h => { h with st := .entering }) else l
            let s := s.modLaunch id (fun l => { back l with
              parked := l.parked.filter (fun p => decide (p.key / 16 / 192 ≠ vt)), parkedCores := l.parkedCores.filter (fun p => decide (p.1 / 192 ≠ vt)) })
            s.tileDone c vt

/-! Cancel (R373). -/

/-- What a discarded context issued goes on without it. -/
def State.orphan (s : State) (gone : CtxId → Bool) : State :=
  let cmd := fun (c : Cmd) => if gone c.issuer then { c with gone := true } else c
  let tile := fun (t : Tile) => t.mapCommands cmd
  { s with retiring := s.retiring.map cmd, tiles := s.tiles.map (fun t => (t.1, tile t.2)),
           sends := s.sends.map (fun r => if gone r.ctx then { r with gone := true } else r),
           net := s.net.map (fun p => match p.pl with
             | .remote r => if gone r.issuer then { p with pl := .remote { r with gone := true } } else p
             | _ => p) }

/-- Discard the cores of a launch on a tile, its queued work and its reservations there. -/
def State.discardTile (s : State) (id vt : Nat) : State :=
  let cs := s.coresOn id vt
  let s := s.orphan (fun c => cs.contains c.core)
  let s := cs.foldl (fun s c => s.uncouple c) s
  let s := cs.foldl (fun s c => s.emptyCore c) s
  let s := s.modTile vt (fun t => { t with
    overflow := t.overflow.filter (fun o => !(cs.any (fun c => c.pos == o.1))), backing := t.backing.filter (fun b => b.1 != id),
    bank := t.bank.filter (fun b => b.launch != id) })
  let drop := fun (h : Share) => { h with entered := insertNat h.entered vt, saved := h.saved.filter (fun t => t != vt) }
  (s.modLaunch id (fun l => { (l.modShare (dieOf vt) drop) with
    parked := l.parked.filter (fun p => decide (p.key / 16 / 192 ≠ vt)),
    parkedCores := l.parkedCores.filter (fun p => decide (p.1 / 192 ≠ vt)) })).dropTokens vt id

/-- The undispatched groups of a die are dropped, and those of its first wave that no unit has received: tiles the launch has not entered have no
group, and it does not enter them. A share that stood pre-empted and has no saved tile any more goes to ENDING (Table 109). -/
def State.dropGroups (s : State) (id vd : Nat) : State :=
  let s := { s with answers := s.answers.filter (fun a => a.launch != id || a.thief != vd) }
  s.modLaunch id (fun l =>
    let pre := (l.share vd).any (fun h => h.st == .preempted)
    let l := l.setShare vd (fun h => { h with ranges := [], wave := some 0, swept := true, asking := none,
                                              entered := (l.desc.tiles vd).foldl insertNat h.entered })
    if pre then l.modShare vd (fun h => if h.saved.isEmpty then { h with st := .ending } else h) else l)

/-- Pre-emptions and resumes of a launch that are pending have nothing to do on a cancelled tile. -/
def State.dropControls (s : State) (id vt : Nat) : State :=
  (s.controls.filter (fun c => c.op != 2 && c.target == id && c.tiles.contains vt)).foldl (fun s c => s.tileDone c vt) s

/-- A cancel takes effect on the tiles and dies it names. -/
def State.cancel (s : State) (id : Nat) : State :=
  match s.controls.find? (fun c => c.op == 2 && c.target == id) with
  | none => s
  | some c =>
    let s := match s.launchById id with
      | none => s
      | some l =>
        if l.ended then s
        else
          let ts := c.tiles.filter (fun t => l.shares.any (fun h => (l.desc.tiles h.vd).contains t))
          let s := ts.foldl (fun (s : State) t => (s.discardTile id t).dropControls id t) s
          let s := ((c.tiles.map dieOf).eraseDups).foldl (fun (s : State) d => s.dropGroups id d) s
          s.modLaunch id (fun l => { l with cancelled := true })
    ({ s with controls := s.controls.erase c } : State).controlReply c

/-- The pre-emption of launch k begins (R369). -/
def execLaunchPreempt (s : State) : Out := .next (s.preemptBegin s.ev.k)

/-- Tile vt of pre-empted launch k is saved (R369, R370). -/
def execPreemptionSave (s : State) : Out := .next (s.preemptSave s.ev.k s.ev.vt)

/-- Tile vt of launch k is resumed (R372). -/
def execLaunchResume (s : State) : Out := .next (s.resumeTile s.ev.k s.ev.vt)

/-- Launch k is cancelled (R373). -/
def execLaunchCancel (s : State) : Out := .next (s.cancel s.ev.k)

end Sys2Proof.Machine
end

