-- ==== Sys2Proof/Machine/Pager.lean ====
section
/-! DEFINITION. Pager cores (R366, R396), lease renewals of engines (R391) and requests resent after a slice change (R445). -/

namespace Sys2Proof.Machine

open Sys2Proof

/-- A posted translation fault. -/
def State.postedFault (s : State) (vd slot : Nat) : Bool := s.entryField vd slot 17 1 == 1 && s.entryField vd slot 16 1 == 0

/-- Entries in service, and the pager cores of a die that take entries: four for each interface whose tile no rotation stops (R366, R406). -/
def State.inService (s : State) (vd : Nat) : Nat := ((List.range 255).filter (fun i => 2 ≤ s.entryField vd i 17 1)).length
def State.pagerCores (s : State) (vd : Nat) : Nat :=
  4 * ((List.range 8).filter (fun k => let t := s.tile (8 * vd + k); !t.draining && !t.stopped)).length

/-- A pager core of the die is free. -/
def State.pagerFree (s : State) (vd : Nat) : Bool := decide (s.inService vd < s.pagerCores vd)

/-- The entry is the next a pager core takes: posted, none posted is older, and a pager core is free. -/
def State.pagerNext (s : State) (vd slot : Nat) : Bool :=
  decide (slot < 255) && s.postedFault vd slot && s.pagerFree vd &&
    (List.range 255).all (fun i => !s.postedFault vd i || decide (s.entryField vd slot 24 8 ≤ s.entryField vd i 24 8))

/-- The launch an entry names by the low half of its identity: the one the issuer's core is in, or another. -/
def State.entryLaunch (s : State) (vd slot : Nat) (c : CoreId) : Option Launch :=
  let fits := fun (l : Launch) => l.id % 65536 == s.entryField vd slot 18 2
  match s.launchOf c with
  | some l => if fits l then some l else s.launches.find? fits
  | none => s.launches.find? fits

/-- The notice to the issuer's core (R366): none for an issuer that is no core, or without a notice handler. -/
def State.pagerNotice (s : State) (vd slot result : Nat) : State :=
  let c := (ctxOfIdent (s.entryField vd slot 12 3)).core
  match s.entryLaunch vd slot c with
  | none => s
  | some l =>
    if 191 < c.pos ∨ l.desc.notice = 0 then s
    else
      let m : Msg := { hdr := (handlerField l.desc.notice).getD 0, vt := c.vt, pos := c.pos, reply := 0, src := ifcIdent (8 * vd), mc := false, kind := 0,
                       prio := 3, cls := l.desc.nclass, payload := [slot, s.entryField vd slot 0 8, result, 0, 0, 0].flatMap (natLe 8), dests := 0,
                       launch := l.id, hb := [] }
      s.inject (8 * vd) c.vt l.desc.nclass (.msg m 0 none)

/-- The engine or unit that waited for the entry goes on: the row is tried again, or fails. -/
def Cmd.served (c : Cmd) (tok : Nat × Nat) (fail : Option (Nat × Nat × Word)) : Cmd :=
  if c.token = some tok then { c with token := none, fail := fail } else c

def Tile.served (t : Tile) (tok : Nat × Nat) (fail : Option (Nat × Nat × Word)) : Tile :=
  let f := fun (c : Cmd) => c.served tok fail
  { t.mapCommands f with bank := t.bank.map (fun b => if b.token = some tok then { b with token := none, tokFail := fail.map (fun x => x.1) } else b) }

/-- Posted accesses that waited for the entry are tried again at their home, or fail there (R189). -/
def State.servePackets (s : State) (vd slot : Nat) (fail : Option Nat) : List Packet → State
  | [] => s
  | p :: r =>
    (match p.pl with
     | .remote x =>
       if x.stage = 1 ∧ x.detail = slot ∧ dieOf p.dst = vd then
         match fail with
         | none => s.setPacket { p with pl := .remote { x with stage := 0, detail := 0 } }
         | some c => (s.recordFail vd x.ea x.tag.toNat (identC x.issuer) c x.launch).answerRemote p { x with fault := c, ident := ifcIdent p.dst }
       else s
     | _ => s : State).servePackets vd slot fail r

/-- Causes a retry can take. -/
def retryCauses : List Nat := [0x09, 0x0a, 0x0b, 0x0c, 0x0d, 0x12]

/-- A doubleword of memory that the die reaches by a physical address: within the capacity, in a shared stack only while it owns it, to the end of
a hand-over's drain (R377, R395). -/
def State.physReach (s : State) (vd pa : Nat) : Bool :=
  let msel := pa / 2 ^ 37
  pa % 8 == 0 && decide (pa % 2 ^ 37 / 65536 < s.capacity vd msel) &&
    (decide (msel < 2) || ((s.stack vd (msel - 2)).owner == vd && (!(s.stack vd (msel - 2)).flight || (s.hand vd (msel - 2)).any (fun h => !h.drained))))

/-- What waited for an entry goes on: engine rows and units, digests, PUTs of the bridge, and posted accesses at their home. -/
def State.serveWaiters (s : State) (vd slot result : Nat) (addr : Word) : State :=
  let fail : Option (Nat × Nat × Word) := if result = 0 then none else some (result, 0, addr)
  let tiles := s.tiles.map (fun (t : Nat × Tile) => (t.1, t.2.served (vd, slot) fail))
  let retiring := s.retiring.map (fun (c : Cmd) => c.served (vd, slot) fail)
  let launches := s.launches.map (fun (l : Launch) =>
    if l.dtoken = some (vd, slot) then { l with dtoken := none, dfail := fail.map (fun (x : Nat × Nat × Word) => (x.1, x.2.2)) } else l)
  let bridge := if s.bridge.token = some (vd, slot) then { s.bridge with token := none, tokFail := fail.map (fun (x : Nat × Nat × Word) => x.1) } else s.bridge
  let s : State := { s with tiles := tiles, retiring := retiring, launches := launches, bridge := bridge }
  s.servePackets vd slot (fail.map (fun (x : Nat × Nat × Word) => x.1)) s.net

/-- The address of an entry lies in a stack whose hand-over is in flight, or has left the die since. -/
def State.entryClosed (s : State) (vd slot : Nat) : Bool :=
  let addr : Word := BitVec.ofNat 64 (s.entryField vd slot 0 8)
  pSpc addr == 5 && pPair addr && ((s.stack vd (pStack addr)).flight || (s.stack vd (pStack addr)).owner != vd)

/-- A stack's hand-over is in flight and not drained: what was accepted before its close is still performed (R395). -/
def State.undrained (s : State) (vd slot : Nat) : Bool :=
  let addr : Word := BitVec.ofNat 64 (s.entryField vd slot 0 8)
  pSpc addr == 5 && pPair addr && (s.stack vd (pStack addr)).flight && (s.hand vd (pStack addr)).any (fun h => !h.drained)

/-- The row, table read or episode that waited for an entry, of tile vt. -/
def Tile.waitedRow (t : Tile) (vt : Nat) (tok : Nat × Nat) : State → State :=
  let head := fun (l : List Cmd) => (l.head?.map (fun c => c.token)) == some (some tok)
  fun u =>
    let u := if head t.copyQ then u.runInbox vt false 1 else u
    let u := if head t.gatherQ then u.runInbox vt true 1 else u
    let u := (t.collHeld.filter (fun c => c.token == some tok)).foldl (fun u c => u.runEpisode c.launch (c.w.toNat % 256)) u
    if (t.bank.map (fun b => b.token)) = some (some tok) then u.emitRun vt 1 else u

/-- Rows that waited for an entry in service when the hand-over of its stack closed were accepted before: they are performed as the entry is
served, with the stack open to them (R395). `t` is the state before. -/
def State.drainRows (t s : State) (vd slot : Nat) : State :=
  let st := pStack (BitVec.ofNat 64 (t.entryField vd slot 0 8))
  let s := s.modStacks vd st (fun w => { w with flight := false })
  let s := t.tiles.foldl (fun s (x : Nat × Tile) => x.2.waitedRow x.1 (vd, slot) s) s
  s.modStacks vd st (fun w => { w with flight := true })

/-- A pager core has resolved the entry it serves: it may write one leaf at a physical address its die reaches, and the entry is done. `result` is
0 when the page is now mapped, else the cause a retry takes. -/
def State.pagerResolve (s : State) (vd slot result : Nat) (leaf : Option (Nat × Word)) : State :=
  let addr : Word := BitVec.ofNat 64 (s.entryField vd slot 0 8)
  if result ≠ 0 ∧ !retryCauses.contains result then s
  else
    let s := match leaf with
      | some (pa, e) => if s.physReach vd pa then s.poke (s.flatPhys vd pa) (natLe 8 e.toNat) else s
      | none => s
    let s := s.store (faultSlot vd slot + 17) 1 3
    let t := (s.modDie vd (fun d => { d with service := d.service.set slot result })).serveWaiters vd slot result addr
    if result == 0 && s.undrained vd slot then s.drainRows t vd slot else t

/-- The next step of the service of an entry (R366): a pager core takes it, resolves it, and sends the notice, whereupon the entry is free. One that
no core has taken is done with STACK_NOT_OWNED while its stack is in flight (R396). -/
def State.pagerService (s : State) (vd slot result : Nat) (leaf : Option (Nat × Word)) : State :=
  if 255 ≤ slot ∨ s.entryField vd slot 16 1 ≠ 0 then s
  else
    match s.entryField vd slot 17 1 with
    | 1 => if s.entryClosed vd slot then s.pagerResolve vd slot 0x0d none else if s.pagerNext vd slot then s.store (faultSlot vd slot + 17) 1 2 else s
    | 2 => s.pagerResolve vd slot result leaf
    | 3 =>
      let s := s.pagerNotice vd slot ((s.die vd).service.get slot 0)
      (s.store (faultSlot vd slot + 17) 1 0).modDie vd (fun d => { d with service := d.service.erase slot })
    | _ => s

/-- An engine of some tile holds a command whose memory has its home on the die. -/
def State.engineServed (s : State) (vd : Nat) : Bool :=
  s.tiles.any (fun (x : Nat × Tile) => x.2.commands.any (fun c =>
    (c.dst :: c.src :: if c.kind = .gather ∨ c.kind = .latch then [c.w] else []).any (fun p => pSpc p == 5 && s.home ⟨x.1, 0⟩ p == vd)))

/-- A home interface that serves the rows of an engine command renews the cached translation of a row's page that has less than one eighth of its lease left (R391). -/
def State.engineRenew (s : State) (vt k : Nat) : State :=
  match (s.tile vt).tcache[k]? with
  | none => s
  | some t =>
    let lease := leaseNs (pteLease t.entry)
    let now := s.paceAt vt
    let flight := match treeOf t.base with | some st => (s.stack (dieOf vt) st).flight | none => false
    if !s.engineServed (dieOf vt) || (s.tile vt).uncertain || flight || decide (t.expiry < now) || decide (lease ≤ 8 * (t.expiry - now)) then s
    else
      match s.leafAt (dieOf vt) t.base with
      | .ok e =>
        if sameLeaf e t.entry then s.modTile vt (fun x => { x with tcache := x.tcache.set k { t with expiry := now + lease } })
        else s.modTile vt (fun x => { x with tcache := x.tcache.eraseIdx k })
      | .error _ => s.modTile vt (fun x => { x with tcache := x.tcache.eraseIdx k })

/-- A pager core of die vd goes on with entry k; where it resolves it, with `flag2` it writes leaf w at physical address m; `flag`: the page is now mapped, else j is the
cause of a retry (R366). -/
def execPagerService (s : State) : Out :=
  .next (s.pagerService s.ev.vd s.ev.k (if s.ev.flag then 0 else s.ev.j) (if s.ev.flag2 then some (s.ev.m, s.ev.w) else none))

/-- Cached translation k of tile vt is renewed for an engine row (R391). -/
def execEngineLeaseRenew (s : State) : Out := .next (s.engineRenew s.ev.vt s.ev.k)

/-- A request that met a slice which no longer owns its entry is resent: no value changes, only time passes (R445). -/
def execRemapNack (s : State) : Out := .next s

end Sys2Proof.Machine
end

