-- ==== Sys2Proof/Machine/Farrier.lean ====
section
/-! DEFINITION. The Farrier (R400–R420, R428): its registers and event log, rotation, tests and ageing, checkpoints, the loss of a site,
scrubbing, and the exchange of fingerprints of a tandem pair (R425–R428). -/

namespace Sys2Proof.Machine

open Sys2Proof

/-! Registers (Tables 123, 126–129). -/

def State.setFarrier (s : State) (vd k n : Nat) : State := s.store (flatCommons vd (0x7fe8000 + 8 * k)) 8 n

/-- A field of the status word, and its write. -/
def State.fStatus (s : State) (vd lo w : Nat) : Nat := natBits (s.farrier vd 1) lo w
def State.setStatus (s : State) (vd lo w x : Nat) : State := s.setFarrier vd 1 (putBits (s.farrier vd 1) lo w x)

/-- STATE of the status word, and the control word's fields. -/
def State.fState (s : State) (vd : Nat) : Nat := s.fStatus vd 0 4
def State.fControl (s : State) (vd lo w : Nat) : Nat := natBits (s.farrier vd 0) lo w

/-- SST of a site: 0 in service, 1 spare, 2 under test, 3 retired, 4 lost, 5 victim, 6 target. -/
def State.sst (s : State) (vd k : Nat) : Nat := s.siteField vd k 0 3
def State.siteSlot (s : State) (vd k : Nat) : Nat := s.siteField vd k 8 4
def State.sitePass (s : State) (vd k : Nat) : Nat := s.load (siteAddr vd k + 8) 8
def State.siteWear (s : State) (vd k : Nat) : Nat := s.load (siteAddr vd k + 16) 8

/-- Sites in service, ascending. -/
def State.serving (s : State) (vd : Nat) : List Nat := (List.range 9).filter (fun k => s.sst vd k == 0)

/-- The physical core that runs a core of a virtual tile now: its tile site and its position there (R33). -/
def State.coreAt (s : State) (c : CoreId) : Option (Nat × Nat) :=
  let site := s.curSite (dieOf c.vt) (slotOf c.vt)
  ((s.info (dieOf c.vt)).ownCore site c.pos).map (fun p => (site, p))

/-- A slot is held by a site: slot map and site record. -/
def State.placeSlot (s : State) (vd slot site : Nat) : State :=
  (s.setSite vd site 8 4 slot).store (flatCommons vd (0x7fe8010 + slot)) 1 site

/-- A bridle entry is written in every router. -/
def State.setBridle (s : State) (vd slot : Nat) (f : Nat → Nat) : State :=
  s.modDie vd (fun d => { d with bridle := d.bridle.set slot (BitVec.ofNat 16 (f (d.bridle.getD slot 0).toNat)) })

/-- An entry of the event log; its detail the spec leaves open. NEXT advances after the entry is whole. -/
def State.logEvent (s : State) (vd kind site slot : Nat) : State :=
  let (n, s) := s.draw
  let i := s.fStatus vd 48 6
  let e := natLe 8 (s.paceAt (8 * vd)) ++ natLe 1 kind ++ natLe 1 site ++ natLe 1 slot ++ natLe 1 0 ++ natLe 4 ((Config.freeWord n).toNat % 2 ^ 32) ++
    List.replicate 16 0
  let s := s.storeBytes (flatCommons vd (0x7fe8800 + 32 * i)) e
  let s := if i = 63 then s.setStatus vd 15 1 1 else s
  s.setStatus vd 48 6 ((i + 1) % 64)

/-- Fuses of a tile site take its exposure counts (R412). -/
def State.fuse (s : State) (vd k : Nat) (retired : Bool) : State :=
  let key := (s.info vd).phys * 16 + k
  let old := (s.fuses.get key ⟨false, []⟩).retired
  { s with fuses := s.fuses.set key ⟨old || retired, s.bytes (siteAddr vd k + 16) 72⟩ }

/-! Rotation (R403–R410). -/

/-- The wear index of a site has passed the limit (R412). -/
def State.worn (s : State) (vd k : Nat) : Bool := decide (s.farrier vd 3 < s.siteWear vd k)

/-- The victim: the site chosen ahead of the order (R428), one past its wear limit (R412), else the oldest test pass (R403). -/
def State.victim (s : State) (vd : Nat) : Option Nat :=
  let ks := s.serving vd
  match (s.die vd).first with
  | some k => if ks.contains k then some k else oldest ks
  | none => oldest ks
where
  oldest (ks : List Nat) : Option Nat :=
    match ks.find? (s.worn vd) with
    | some k => some k
    | none => ks.find? (fun k => ks.all (fun j => decide (s.sitePass vd k ≤ s.sitePass vd j)))

/-- R404, but for the clock regions of victim and spare. -/
def State.mayRotate (s : State) (vd : Nat) : Bool :=
  let spare := s.fStatus vd 4 4
  s.fStatus vd 13 1 == 0 && decide (spare < 9) && s.sst vd spare == 1 && s.siteField vd spare 3 1 == 0 && s.fControl vd 0 2 == 0 &&
    (s.die vd).rot.isNone && s.fState vd == 0 && s.awake vd && !(List.range 8).any (fun i => (s.tile (8 * vd + i)).halted)

/-- The checkpoint partner of an in-service site: the next one, wrapping (R417). -/
def State.partner (s : State) (vd k : Nat) : Option Nat :=
  if s.sst vd k ≠ 0 then none
  else
    match (s.serving vd).find? (fun j => decide (k < j)) with
    | some j => some j
    | none => (s.serving vd).find? (fun j => j != k)

/-- Sites of t that have another partner than in s are covered no more (R417). -/
def State.rePartner (t s : State) (vd : Nat) : State :=
  (List.range 9).foldl (fun u k => if t.partner vd k = s.partner vd k then u else u.uncover vd k) t

/-- At its pace slot in each period the Farrier arms a rotation, or the period is skipped. -/
def State.armRotation (s : State) (vd : Nat) : State :=
  let t := s.paceAt (8 * vd)
  let period := t / 60000000000
  if t / 937500000 % 64 ≠ vd ∨ period < (s.die vd).armed then s
  else
    let s := s.modDie vd (fun d => { d with armed := period + 1 })
    match s.victim vd with
    | none => s
    | some v =>
      let slot := s.siteSlot vd v
      let spare := s.fStatus vd 4 4
      if !s.mayRotate vd || (s.tile (512 + vd)).uncertain || (s.tile (8 * vd + slot)).uncertain then s
      else
        let u := s.modDie vd (fun d => { d with rot := some ⟨slot, v, spare, t⟩, first := if d.first = some v then none else d.first })
        let u := (((u.setSite vd v 0 3 5).setSite vd spare 0 3 6).rePartner s vd).setStatus vd 8 4 v
        ((u.setStatus vd 0 4 1).modTile (8 * vd + slot) (fun x => { x with draining := true })).remap vd

/-- A context stands at a boundary at which the drain stops it (R406). -/
def State.drainable (s : State) (c : CtxId) : Bool := !(s.ctx c).st.runs || s.atBoundary c

/-- Cores of a tile in a launch. -/
def State.tileCores (s : State) (vt : Nat) : List CoreId :=
  ((s.cores.filter (fun (p : Nat × Core) => decide (p.1 / 192 = vt) && p.2.launch.isSome)).map (fun p => p.1)).map (fun k => ⟨k / 192, k % 192⟩)

/-- The fingerprints of the pairs of a tile agree at the boundary (R406, R426). -/
def State.agreeAll (s : State) (cs : List CoreId) : State :=
  cs.foldl (fun s c => (allCtx.filter (fun i => (s.ctx ⟨c, i⟩).st.live)).foldl (fun s i => s.fingerBase ⟨c, i⟩) s) s

/-- A tile takes the clock region of another, whose edges and pace it counts from now on (R409, R449). -/
def Tile.inRegion (t r : Tile) : Tile :=
  { t with uncertain := r.uncertain, ofs := r.ofs, drift := r.drift, missed := r.missed, good := r.good, refLost := r.refLost,
           sinceStretch := r.sinceStretch }

/-- The slot of a virtual tile and the site of its die without a slot exchange their clock regions. -/
def State.swapRegion (s : State) (vt : Nat) : State :=
  let a := s.tile vt
  let b := s.tile (512 + dieOf vt)
  (s.setTile vt (a.inRegion b)).setTile (512 + dieOf vt) (b.inRegion a)

/-- The victim tile is drained within its bound: every context at a boundary, its instructions that have not been performed given up. A trap that is
due there is taken first; pager cores finish the entries they have in service. From the end of drain on the target's clock counts (R409). -/
def State.drainTile (s : State) (vd : Nat) : State :=
  match (s.die vd).rot with
  | none => s
  | some r =>
    let vt := 8 * vd + r.slot
    let cs := s.tileCores vt
    if s.fState vd ≠ 1 ∨ (s.tile vt).stopped = true ∨ r.since + 30000 ≤ s.paceAt (8 * vd) ∨ s.pagerCores vd < s.inService vd ∨
        !(cs.all (fun c => allCtx.all (fun i => s.drainable ⟨c, i⟩) && !(s.core c).bar.release)) then s
    else
      match s.dueFirst cs with
      | some s => s
      | none =>
        let s := cs.foldl (fun s c => allCtx.foldl (fun s i => s.abandon ⟨c, i⟩) s) s
        ((s.agreeAll cs).modTile vt (fun t => { t with stopped := true })).swapRegion vt

/-- A drain that has passed its bound of 30 µs is given up (Table 124). In ABORT the cores of the victim go on in place, and the slot's slice, which
DRAIN has taken out of the map (R444), is back; then no rotation is under way. -/
def State.abortDrain (s : State) (vd : Nat) : State :=
  match (s.die vd).rot with
  | none => s
  | some r =>
    let vt := 8 * vd + r.slot
    if s.fState vd = 2 then
      let u := s.modDie vd (fun d => { d with rot := none })
      let u := (((u.setSite vd r.victim 0 3 0).setSite vd r.target 0 3 1).rePartner s vd).setStatus vd 8 4 0xf
      (u.setStatus vd 0 4 0).logEvent vd 1 r.victim r.slot
    else if s.fState vd ≠ 1 ∨ (s.tile vt).stopped = true ∨ s.paceAt (8 * vd) < r.since + 30000 then s
    else ((s.modTile vt (fun t => { t with draining := false })).remap vd).setStatus vd 0 4 2

/-- Phase 1: every router names the target and holds arrivals there (R401, Table 124). -/
def State.newSite (s : State) (vd : Nat) : State :=
  match (s.die vd).rot with
  | none => s
  | some r =>
    if s.fState vd ≠ 1 ∨ (s.tile (8 * vd + r.slot)).stopped = false then s
    else
      let s := s.setBridle vd r.slot (fun e => (e / 2 ^ 10 % 4 + 1) % 4 * 2 ^ 10 + 2 ^ 9 + 2 ^ 8 + r.victim * 16 + r.target)
      ((((s.setSite vd r.victim 8 4 0xf).placeSlot vd r.slot r.target).setStatus vd 4 4 0xf)).setStatus vd 0 4 3

/-- A packet in the die, or one of the copies it will part into there, is on its way to a site of a slot and has not reached it (R402). -/
def Packet.toSite (p : Packet) (vt site : Nat) : Bool :=
  (p.dst == vt && p.site == some site && p.at_ != vt) || (dieOf p.at_ == dieOf vt && p.sites.contains (slotOf vt, site))

def State.onWay (s : State) (vt site : Nat) : Bool := s.net.any (fun p => p.toSite vt site)

/-- After the sweep the state of Table 125 moves: what waits at the victim's tile waits at the target (R407, R408). -/
def State.copyTile (s : State) (vd : Nat) : State :=
  match (s.die vd).rot with
  | none => s
  | some r =>
    let vt := 8 * vd + r.slot
    if s.fState vd ≠ 3 ∨ s.onWay vt r.victim = true then s
    else
      let net := s.net.map (fun (p : Packet) => if p.dst = vt ∧ p.site = some r.victim then { p with site := some r.target } else p)
      let s : State := { s with net := net }
      (s.modTile vt (fun t => { t with tcache := [] })).setStatus vd 0 4 4

/-- Waits of a core's contexts are made afresh (R406). -/
def State.afresh (s : State) (c : CoreId) : State :=
  allCtx.foldl (fun s i => match (s.ctx ⟨c, i⟩).st with | .waiting w _ => s.waitAt ⟨c, i⟩ w | _ => s) s

/-- What a packet carries is applied at its tile. -/
def State.applyArrival (s : State) (p : Packet) : State :=
  match p.pl with
  | .msg m _ _ => if m.kind = 1 then s.replyDelivery p.id else s.taskArrival p.id
  | .spur _ _ _ _ _ => s.spurArrival p.id
  | .remote r => if r.stage = 0 then s.remoteAtHome p.id else if r.returning then s.valueReturn p.id else s.remoteAck p.id

/-- Put a packet among others in the order in which they arrived. -/
def insertArrival (p : Packet) : List Packet → List Packet
  | [] => [p]
  | q :: r => if p.seq < q.seq then p :: q :: r else q :: insertArrival p r

/-- Packets that have arrived at a tile, in arrival order (R408). -/
def State.heldAt (s : State) (vt : Nat) : List Packet :=
  (s.net.filter (fun p => p.at_ == vt && p.dst == vt && p.retry.isNone && p.site.isSome)).foldl (fun l p => insertArrival p l) []

/-- The target takes over: held arrivals are applied in their order, contexts go on, HOLD is cleared; partners have changed (R409, R417). -/
def State.resumeSite (s : State) (vd : Nat) : State :=
  match (s.die vd).rot with
  | none => s
  | some r =>
    if s.fState vd ≠ 4 then s
    else
      let vt := 8 * vd + r.slot
      let u := s.modTile vt (fun t => { t with stopped := false, draining := false })
      let u := (s.heldAt vt).foldl State.applyArrival u
      let u := (u.tileCores vt).foldl (fun u c => u.afresh c) u
      let u := u.setBridle vd r.slot (fun e => putBits e 9 1 0)
      (((u.remap vd).setSite vd r.target 0 3 0).rePartner s vd).setStatus vd 0 4 5

/-- RETIRE: phase 2, in which the old site leaves every router; then it enters test (Table 124). -/
def State.retireSite (s : State) (vd : Nat) : State :=
  match (s.die vd).rot with
  | none => s
  | some r =>
    if s.fState vd = 5 then (s.setBridle vd r.slot (fun e => putBits (putBits e 8 1 0) 4 4 0xf)).setStatus vd 0 4 6
    else if s.fState vd ≠ 6 then s
    else
      let s := (s.setSite vd r.victim 0 3 2).setStatus vd 8 4 0xf
      let s := s.setStatus vd 16 32 (min (s.fStatus vd 16 32 + 1) (2 ^ 32 - 1))
      (s.setStatus vd 0 4 0).logEvent vd 0 r.victim r.slot

/-- A site is retired (R413); `k` held no slot, or its slot is lost with it. -/
def State.retireNow (s : State) (vd k : Nat) : State :=
  let slot := s.siteSlot vd k
  let s := ((s.setSite vd k 0 3 3).logEvent vd 4 k slot).fuse vd k true
  if (List.range 9).any (fun j => s.sst vd j == 1) then s else s.setStatus vd 13 1 1

/-- Cores of a site that a test fuses off. -/
def State.fuseOff (s : State) (vd k : Nat) (bad : List Nat) : State :=
  let i := s.info vd
  let dead := (i.deadAt k ++ bad.filter (fun p => decide (p < 192) && !(i.deadAt k).contains p)).eraseDups
  let panel := s.panel.mapIdx (fun d x => if d = vd then { x with dead := (k, dead) :: x.dead.filter (fun y => y.1 != k) } else x)
  ({ s with panel := panel } : State).setSite vd k 12 8 (192 - dead.length)

/-- The test of a vacated site ends: spare or retired. A site past its wear limit is retired without a test (R411–R413). `pass`: every
part but the cores listed as bad passes. -/
def State.testSite (s : State) (vd : Nat) (pass : Bool) (bad : List Nat) : State :=
  match (s.die vd).rot with
  | none => s
  | some r =>
    let k := r.victim
    if s.sst vd k ≠ 2 then s
    else
      let s := s.modDie vd (fun d => { d with rot := none })
      if s.worn vd k then s.retireNow vd k
      else
        let s := s.fuseOff vd k bad
        if pass && decide (s.liveCount vd ≤ s.siteField vd k 12 8) then
          let s := ((s.setSite vd k 0 3 1).setSite vd k 3 1 0).store (siteAddr vd k + 8) 8 (s.paceAt (8 * vd))
          (s.setStatus vd 4 4 k).logEvent vd 2 k 0xf
        else ((s.setSite vd k 3 1 1).logEvent vd 3 k 0xf).retireNow vd k

/-- A maintenance request is accepted, once no rotation is under way, or MAINT is cleared (R414). -/
def State.maintain (s : State) (vd : Nat) : State :=
  let k := s.fControl vd 4 4
  let slot := s.siteSlot vd k
  if s.fControl vd 1 1 = 0 ∨ s.fState vd = 7 then s
  else if s.fStatus vd 13 1 = 1 ∧ s.sst vd k = 0 ∧ slot < 8 ∧ s.resident (8 * vd + slot) = false then
    if s.fState vd ≠ 0 ∨ (s.die vd).rot.isSome = true then s
    else (((s.setSite vd k 0 3 2).rePartner s vd).setStatus vd 0 4 7).modTile (8 * vd + slot) (fun t => { t with maint := true })
  else s.setFarrier vd 0 (putBits (s.farrier vd 0) 1 1 0)

/-- The maintenance test ends; a site that fails is retired, and its slot is lost (R414, R415). -/
def State.maintainEnd (s : State) (vd : Nat) (pass : Bool) (bad : List Nat) : State :=
  if s.fState vd ≠ 7 then s
  else
    match (List.range 9).find? (fun k => s.sst vd k == 2) with
    | none => s
    | some k =>
      let slot := s.siteSlot vd k
      let vt := 8 * vd + slot
      let s := (s.setFarrier vd 0 (putBits (s.farrier vd 0) 1 1 0)).setStatus vd 0 4 0
      let s := (s.modTile vt (fun t => { t with maint := false })).fuseOff vd k bad
      if pass && decide (s.liveCount vd ≤ s.siteField vd k 12 8) then
        let u := ((s.setSite vd k 0 3 0).setSite vd k 3 1 0).store (siteAddr vd k + 8) 8 (s.paceAt (8 * vd))
        (u.rePartner s vd).logEvent vd 2 k slot
      else
        let s := ((s.setSite vd k 3 1 1).logEvent vd 3 k slot).retireNow vd k
        let s := (s.setSite vd k 8 4 0xf).store (flatCommons vd (0x7fe8010 + slot)) 1 0xf
        (s.modTile vt (fun t => { t with lost := true })).remap vd

/-! Ageing (R412). -/

/-- One second of exposure of a site: its bins and its wear index. -/
def State.expose (s : State) (vd k vb tb : Nat) : State :=
  let a := siteAddr vd k
  let inc := fun (s : State) (o : Nat) => s.store (a + o) 4 (min (s.load (a + o) 4 + 1) (2 ^ 32 - 1))
  let s := inc (inc s (24 + 4 * (vb % 8))) (56 + 4 * (tb % 8))
  let w := ((List.range 8).map (fun i => 2 ^ i * (s.load (a + 24 + 4 * i) 4 + s.load (a + 56 + 4 * i) 4))).sum
  s.store (a + 16) 8 (min w (2 ^ 64 - 1))

/-- A second of pace has passed on a die; the bins each site stood in. -/
def State.exposure (s : State) (vd : Nat) (bins : List (Nat × List Nat)) : State :=
  if s.paceAt (8 * vd) / 1000000000 ≤ (s.die vd).secs then s
  else
    let bin := fun k i => match bins.find? (fun x => x.1 == k) with | some x => x.2.getD i 0 | none => 0
    (List.range 9).foldl (fun s k => s.expose vd k (bin k 0) (bin k 1)) (s.modDie vd (fun d => { d with secs := d.secs + 1 }))

/-- Once per hour the counts are written to fuses. -/
def State.fuseWrite (s : State) (vd : Nat) : State :=
  if s.paceAt (8 * vd) / 3600000000000 ≤ (s.die vd).hours then s
  else (List.range 9).foldl (fun s k => s.fuse vd k false) (s.modDie vd (fun d => { d with hours := d.hours + 1 }))

/-! Checkpoints (R417–R419). -/

/-- Flat addresses of a tile's scratchpad and of the image its partner tile holds. -/
def State.scratchAt (s : State) (vt : Nat) : Nat := flatPool vt ((s.tile vt).plb0 * 65536)
def State.imageAt (s : State) (vt : Nat) : Nat := flatPool vt ((s.tile vt).ckbase * 65536 + 0x80000)

/-- The partner tile's checkpoint region holds the image of a tile and its journal (R417). -/
def State.ckptFits (s : State) (vt pt : Nat) : Bool :=
  decide ((s.tile pt).ckbase * 65536 + 0x80000 + s.scratchBytes vt + 0x100000 ≤ Config.poolBytes)

/-- CRC-32C of bytes, the check code of a line copy. -/
def crc32c (l : List Byte) : BitVec 32 :=
  ~~~ l.foldl (fun c x => (List.range 8).foldl (fun r _ => if r.getLsbD 0 then (r >>> 1) ^^^ 0x82f63b78 else r >>> 1) (c ^^^ x.setWidth 32)) (BitVec.allOnes 32)

/-- Change the journal of a site. -/
def State.modJournal (s : State) (vd k : Nat) (f : Journal → Journal) : State :=
  s.modDie vd (fun d => match d.journals.find k with | some q => { d with journals := d.journals.set k (f q) } | none => d)

/-- Steps 1 and 2 of an epoch of site k: its slice writes back, and the marked lines of its scratchpad, all of them while the slot is not covered,
go into the journal on the partner tile. The slot is not covered while the partner's region is too small (log 46). -/
def State.epochCopy (s : State) (vd k pt : Nat) : State :=
  let slot := s.siteSlot vd k
  let vt := 8 * vd + slot
  let s := s.modDie vd (fun d => { d with epochs := d.epochs.set k (s.paceAt (8 * vd)) })
  if !s.ckptFits vt pt then s.uncover vd k
  else
    let s := s.writeBack (fun x => s.lineDie (x * 64) == vd && s.sliceOf vd (flatPa (x * 64)) == some slot)
    let base := s.scratchAt vt / 64
    let n := s.scratchBytes vt / 64
    let mine := fun x => decide (base ≤ x) && decide (x < base + n)
    let xs := if s.siteField vd k 4 1 = 1 then s.marks.filter mine else (List.range n).map (fun i => base + i)
    let bad := (xs.flatMap (fun x => (List.range 8).map (fun i => 8 * x + i))).filter s.poison.contains
    let lines := xs.map (fun x => (x - base, s.bytes (x * 64) 64, crc32c (s.bytes (x * 64) 64)))
    ({ s with marks := s.marks.filter (fun x => !mine x) } : State).modDie vd
      (fun d => { d with journals := d.journals.set k ⟨lines, bad.map (fun w => w - 8 * base), false, false⟩ })

/-- Step 5 of an epoch: the journal is applied to the image and cleared; a word that was poisoned in the scratchpad is in the image. -/
def State.epochApply (s : State) (vd k pt : Nat) (q : Journal) : State :=
  let a := s.imageAt pt
  let s := q.lines.foldl (fun s x => s.poke (a + 64 * x.1) x.2.1) s
  ({ s with poison := s.poison ++ q.bad.map (fun w => a / 8 + w) } : State).modDie vd (fun d => { d with journals := d.journals.erase k })

/-- The next step of an epoch of a site (R418): it begins 1,000 µs of pace after the last or with its journal three-quarters `full`; its journal is
read back, where `fixed` tells of a check code that failed and whose line was rewritten (R419); it commits, with which the slot is covered; the
image takes it. -/
def State.epoch (s : State) (vd k : Nat) (fixed full : Bool) : State :=
  match s.partner vd k with
  | none => s
  | some j =>
    let pt := 8 * vd + s.siteSlot vd j
    if s.fControl vd 2 1 = 1 ∨ [1, 3, 4].contains (s.fState vd) = true then s
    else
      match (s.die vd).journals.find k with
      | none => if full || decide ((s.die vd).epochs.get k 0 + 1000000 ≤ s.paceAt (8 * vd)) then s.epochCopy vd k pt else s
      | some q =>
        if !q.checked then (if fixed then s.bump vd 0x20 else s).modJournal vd k (fun q => { q with checked := true })
        else if !q.committed then (s.modJournal vd k (fun q => { q with committed := true })).setSite vd k 4 1 1
        else s.epochApply vd k pt q

/-! Packets that cannot go on (R415, R420, R455). -/

/-- A packet is refused: every destination of a message or event answers NO_RECEIVER, a remote access fails; the home's fault queue has the entry of
a posted one that it has not performed (R189; log 46). -/
def State.failPacket (s : State) (p : Packet) (cause : Cause) (detail : Nat) : State :=
  match p.pl with
  | .msg m _ send =>
    let s := s.dropPacket p.id
    if m.kind ≠ 0 then
      (s.record (dieOf p.at_) { addr := m.reply.setWidth 64, tag := 0, ident := m.src, cause := Cause.space.code, kind := 5,
                                launch := m.launch }).2.answerSend send none false
    else
      let ts := if m.mc then ((List.range 64).filter (fun i => m.dests.getLsbD i)).map (fun i => m.vt % 64 * 8 + i) else [p.dst]
      let s := ts.foldl (fun s t => s.answerSend send (some (t, Cause.space)) false) s
      if send.isNone ∧ m.src / 16 % 256 = 0xff then s.dropSpur (m.src / 4096 % 512) else s
  | .spur _ _ unit send _ => ((s.dropPacket p.id).unitDone unit true).answerSend send (some (p.dst, Cause.space)) false
  | .remote r =>
    let vt := r.issuer.core.vt
    let r' := if r.fault = 0 then { r with fault := cause.code, detail := detail, ident := ifcIdent p.dst } else r
    let s := if r.stage < 2 ∧ r.returning = false then s.recordFail (dieOf p.dst) r.ea r.tag.toNat (identC r.issuer) cause.code r.launch else s
    s.setPacket { p with at_ := vt, dst := vt, site := none, pl := .remote { r' with stage := 2 } }

/-! Loss of a site (R420). -/

/-- A tile's memory is zero again, and its cores and contexts are as at panel reset. -/
def State.blankTile (s : State) (vt : Nat) : State :=
  let mine := fun (a : Nat) => (flatKind a == 0 && decide (flatOwner a / 192 = vt)) || (flatKind a == 1 && decide (flatOwner a = vt))
  let mem := s.mem.filter (fun (c : Host.Cell) => !mine c.1)
  let poison := s.poison.filter (fun w => !mine (w * 8))
  let full := s.full.filter (fun w => !mine (w * 8))
  let cores := s.cores.filter (fun (p : Nat × Core) => decide (p.1 / 192 ≠ vt))
  let ctxs := s.ctxs.filter (fun (p : Nat × Ctx) => decide (p.1 / 16 / 192 ≠ vt))
  let feq := s.feq.filter (fun r => r.ctx.core.vt != vt)
  let s : State := { s with mem := mem, poison := poison, full := full, cores := cores, ctxs := ctxs, feq := feq }
  s.modTile vt (fun t => { Tile.reset with plb0 := t.plb0, plb1 := t.plb1, plb2 := t.plb2, ckbase := t.ckbase, uncertain := t.uncertain, ofs := t.ofs,
                                           drift := t.drift, missed := t.missed, good := t.good, refLost := t.refLost, sinceStretch := t.sinceStretch,
                                           halted := t.halted, lost := t.lost })

/-- Launches that hold a core on a tile are cancelled there (R373, R420). -/
def State.cancelOn (s : State) (vt : Nat) : State :=
  let ids := ((s.tileCores vt).map (fun c => (s.core c).launchId)).eraseDups
  ids.foldl (fun s id =>
    let s := (s.discardTile id vt).dropGroups id (dieOf vt)
    s.modLaunch id (fun l => { l with cancelled := true, failTile := match l.failTile with | some t => some t | none => some vt })) s

/-- The scratchpad is written from the partner's image. Each 64-byte line of the image in which a word is poisoned is a mismatch: it counts, is
logged, and every word of it is poisoned in the scratchpad (R419). -/
def State.restoreScratch (s : State) (vt site : Nat) (b : List Byte) (bad : List Nat) : State :=
  let a := s.scratchAt vt
  let vd := dieOf vt
  let s := bad.foldl (fun s _ => (s.bump vd 0x58).logEvent vd 6 site (slotOf vt)) (s.storeBytes a b)
  { s with poison := s.poison ++ bad.flatMap (fun l => (List.range 8).map (fun i => a / 8 + 8 * l + i)) }

/-- The bytes that a restore gives a slot's scratchpad, and the lines with a word in error: the partner's image under the site's last committed
journal; zeros for a slot that is not covered (R420). -/
def State.imageOf (s : State) (vd k : Nat) : List Byte × List Nat :=
  match s.partner vd k with
  | none => ([], [])
  | some j =>
    let n := s.scratchBytes (8 * vd + s.siteSlot vd k)
    let a := s.imageAt (8 * vd + s.siteSlot vd j)
    if s.siteField vd k 4 1 = 0 then ([], [])
    else
      let q : Journal := match (s.die vd).journals.find k with | some q => if q.committed then q else ⟨[], [], true, true⟩ | none => ⟨[], [], true, true⟩
      let line := fun (i : Nat) => match q.lines.find? (fun x => x.1 == i) with | some x => x.2.1 | none => s.bytes (a + 64 * i) 64
      let bad := fun (i : Nat) => if q.lines.any (fun x => x.1 == i) then q.bad.any (fun w => w / 8 == i)
        else (List.range 8).any (fun m => s.poison.contains (a / 8 + 8 * i + m))
      ((List.range (n / 64)).flatMap line, (List.range (n / 64)).filter bad)

/-- The copy of a multicast message for a slot of the die where it stands is refused NO_RECEIVER; the others go on. -/
def State.refuseCopy (s : State) (p : Packet) (vt : Nat) : State :=
  match p.pl with
  | .msg m tries send =>
    let m' := { m with dests := m.dests &&& ~~~ ((1 : Word) <<< (vt - m.vt % 64 * 8)) }
    let s := if m'.dests = 0 then s.dropPacket p.id
      else s.setPacket { p with sites := p.sites.filter (fun x => x.1 != slotOf vt), dst := m'.target, pl := .msg m' tries send }
    s.answerSend send (some (vt, Cause.space)) false
  | _ => s

/-- Packets and copies whose site was fixed to a lost site are refused (R420). -/
def State.refuseAt (s : State) (vt site : Nat) : State :=
  s.net.foldl (fun s p =>
    if p.dst = vt ∧ p.site = some site then s.failPacket p .space 2 else if p.toSite vt site then s.refuseCopy p vt else s) s

/-- The spare takes the slot of a lost site, with the bridle update of NEW: arrivals are held until the scratchpad is restored (log 46). -/
def State.spareTakes (s : State) (vd slot lost spare : Nat) (img : List Byte × List Nat) : State :=
  let s := s.setBridle vd slot (fun e => (e / 2 ^ 10 % 4 + 1) % 4 * 2 ^ 10 + 2 ^ 9 + 2 ^ 8 + lost * 16 + spare)
  let s := (((s.placeSlot vd slot spare).setSite vd spare 0 3 0).setStatus vd 4 4 0xf).swapRegion (8 * vd + slot)
  (s.restoreScratch (8 * vd + slot) spare img.1 img.2).setBridle vd slot (fun e => putBits e 9 1 0)

/-- A site in service is lost. -/
def State.siteLoss (s : State) (vd k : Nat) : State :=
  if s.sst vd k ≠ 0 then s
  else
    let slot := s.siteSlot vd k
    let vt := 8 * vd + slot
    let img := s.imageOf vd k
    let held := s.dirty.filter (fun x => s.lineDie (x.1 * 64) == vd && s.sliceOf vd (flatPa (x.1 * 64)) == some slot)
    let u := held.foldl (fun s x => s.dropLine x.1) (s.refuseAt vt k)
    let u := (u.cancelOn vt).blankTile vt
    let u := (((u.setSite vd k 0 3 4).setSite vd k 8 4 0xf).fuse vd k true).logEvent vd 5 k slot
    let spare := u.fStatus vd 4 4
    let u := if spare < 9 ∧ u.sst vd spare = 1 then u.spareTakes vd slot k spare img
      else ((u.store (flatCommons vd (0x7fe8010 + slot)) 1 0xf).modTile vt (fun t => { t with lost := true })).remap vd
    let u := u.rePartner s vd
    let u := if (List.range 9).any (fun j => u.sst vd j == 1) then u else u.setStatus vd 13 1 1
    u.setStatus vd 14 1 1

/-- The die a flat address belongs to, when it is memory of one. -/
def flatDie (a : Nat) : Nat :=
  match flatKind a with
  | 0 => flatOwner a / 192 / 8
  | 1 => flatOwner a / 8
  | _ => flatOwner a

/-- The scrubber reads an aligned word: an error it corrects counts; one it cannot poisons the word and is logged, with a kind that the
spec leaves open unless it lies in a checkpoint region, where it is a mismatch (R419, R424, R429). -/
def State.scrub (s : State) (vd a : Nat) (corrected : Bool) : State :=
  let mine := if flatKind a = 4 then flatOwner a / 2 == (s.info vd).pair && s.physReach vd (flatPa a) else flatDie a == vd
  let vt := flatOwner a
  if a % 8 ≠ 0 ∨ 4 < flatKind a ∨ mine = false then s
  else if corrected then s.bump vd (if flatKind a < 3 then 0x20 else 0x28)
  else
    let s := if s.poison.contains (a / 8) then s else { s with poison := s.poison ++ [a / 8] }
    if flatKind a = 1 ∧ (s.tile vt).ckbase * 65536 + 0x80000 ≤ flatOff a then (s.bump vd 0x58).logEvent vd 6 (s.curSite vd (slotOf vt)) (slotOf vt)
    else
      let (n, s) := s.draw
      let slot := if flatKind a = 0 then slotOf (vt / 192) else if flatKind a = 1 then slotOf vt else 0xf
      s.logEvent vd ((Config.freeWord n).toNat % 256) (if slot = 0xf then 0xf else s.curSite vd slot) slot

/-- A check code finds an error in state private to a context (R423, R424). In latch l it shows when an instruction reads the latch (R244). Elsewhere
the activation rolls back, or the context reports it imprecisely. -/
def State.privateError (s : State) (c : CtxId) (latch : Option Nat) : State :=
  let k := s.ctx c
  let t := Cause.at_ .uncorrectable 0
  if !k.st.runs || (s.tile c.core.vt).stopped then s
  else
    match latch with
    | some l => s.modCtx c (fun k => { k with gbad := k.gbad ||| BitVec.ofNat 2 (2 ^ l) })
    | none =>
      if k.gang.isSome then
        let ms := s.members (s.leadOf c)
        if s.trapHeld c then s else s.gangTrap (s.leadOf c) ms (ms.idxOf c) c t (s.ctx (s.leadOf c)).pc true
      else if (s.core c.core).mq.any (fun m => m.q.ctx == c.ctx && m.stage == .read) then s
      else if k.mayRollback then ((s.abandon c).orphan (fun d => d == c)).rollback c
      else if (s.pushHeld c).isSome || k.remote != 0 || (match k.st with | .waiting (.answer _) _ => true | .waiting (.close _ _) _ => true | _ => false)
      then s
      else
        let s := (s.abandon c).unreserve c
        s.takeTrap c (s.ctx c).pc true t

/-- A check code finds an error in a copy whose source is clean, which is fetched again when it is next used, or corrects one in a register, a queue or
a table: either counts (R429). `kind` 1: line i of the gateway caches of die vd; 2: translation i of tile vt; 3: line i of the code a core has
fetched; 4: a line of a cache slice; else a single bit. -/
def State.maskedError (s : State) (vd vt : Nat) (c : CoreId) (kind i : Nat) : State :=
  let s := match kind with
    | 1 => s.modDie vd (fun d => { d with gw := d.gw.eraseIdx i })
    | 2 => s.modTile vt (fun t => { t with tcache := t.tcache.eraseIdx i })
    | 3 => s.modCore c (fun k => { k with code := k.code.erase i })
    | _ => s
  s.bump vd 0x20

/-! Fingerprints (R426–R428). -/

/-- The pair restores the agreed point: the context, and the bytes its stores overwrote since. -/
def State.replayInterval (s : State) (c : CtxId) : State :=
  let f := (s.core c.core).finger c.ctx
  match f.base with
  | none => s
  | some b =>
    let s := s.unwind f.log.reverse
    let s := s.modCtx c (fun k => { b with hb := k.hb, st := .ready, wlog := [] })
    s.modCore c.core (fun k => { k with fingers := k.fingers.set c.ctx { f with fp := f.fp0, len := f.len0, log := [], bad := f.bad + 1 } })

/-- Three disagreements in a row: an uncorrectable error of the context (R428). -/
def State.escalate (s : State) (c : CtxId) : State :=
  let vd := dieOf c.core.vt
  let slot := slotOf c.core.vt
  let site := s.curSite vd slot
  let s := ((s.bump vd 0x48).logEvent vd 7 site slot).modDie vd (fun d => { d with first := some site })
  let s := s.modCore c.core (fun k => { k with fingers := k.fingers.set c.ctx { k.finger c.ctx with bad := 0 } })
  if (s.ctx c).mayRollback then s.rollback c else s.takeTrap c (s.ctx c).pc true (Cause.at_ .uncorrectable 0)

/-- The boundary of a drain or a pre-emption ends the interval of a context (R426). -/
def State.intervalEnds (s : State) (c : CtxId) : Bool :=
  let f := (s.core c.core).finger c.ctx
  let t := s.tile c.core.vt
  s.coupled c.core && (s.ctx c).st.runs && decide (f.len0 < f.len) && !t.stopped && (t.draining || s.preempting c.core) && s.atBoundary c

/-- The exchange of fingerprints at the end of an interval: an instruction waits for it, or the context stands at a boundary. -/
def State.exchange (s : State) (c : CtxId) (agree : Bool) : State :=
  let due := match (s.ctx c).st, s.standing c with
    | .waiting .earlier _, some i => s.exchangeDue c i.row i.o
    | _, _ => false
  if !due && !s.intervalEnds c then s
  else if agree then (if due then s.rouse c else s).fingerBase c
  else
    let s := (s.replayInterval c).bump (dieOf c.core.vt) 0x40
    if 3 ≤ ((s.core c.core).finger c.ctx).bad then s.escalate c else s

/-- The Farrier of die vd comes to its pace slot (R403, R404). -/
def execRotationArm (s : State) : Out := .next (s.armRotation s.ev.vd)

/-- The victim tile of die vd is drained (R406). -/
def execDrain (s : State) : Out := .next (s.drainTile s.ev.vd)

/-- The drain on die vd is given up (Table 124). -/
def execAbort (s : State) : Out := .next (s.abortDrain s.ev.vd)

/-- Phase 1 on die vd (Table 124). -/
def execNewMap (s : State) : Out := .next (s.newSite s.ev.vd)

/-- The copy on die vd (R407, R408). -/
def execCopyState (s : State) : Out := .next (s.copyTile s.ev.vd)

/-- The target of die vd resumes (R409). -/
def execResumeTile (s : State) : Out := .next (s.resumeSite s.ev.vd)

/-- Phase 2 on die vd (Table 124). -/
def execRetire (s : State) : Out := .next (s.retireSite s.ev.vd)

/-- The test on die vd ends; `flag`: everything but the cores `nums` passes (R411). -/
def execTest (s : State) : Out := .next (s.testSite s.ev.vd s.ev.flag s.ev.nums)

/-- A maintenance request on die vd (R414). -/
def execMaint (s : State) : Out := .next (s.maintain s.ev.vd)

/-- The maintenance test on die vd ends; `flag`: everything but the cores `nums` passes (R414). -/
def execMaintEnd (s : State) : Out := .next (s.maintainEnd s.ev.vd s.ev.flag s.ev.nums)

/-- A second of exposure on die vd; `pairs`: each site with its voltage and temperature bin (R412). -/
def execExposureCount (s : State) : Out := .next (s.exposure s.ev.vd s.ev.pairs)

/-- The hourly write of die vd's counts to fuses (R412). -/
def execWearFuseWrite (s : State) : Out := .next (s.fuseWrite s.ev.vd)

/-- An epoch of site k of die vd takes its next step; `flag`: a line had to be rewritten; `flag2`: its journal is three-quarters full (R418, R419). -/
def execCheckpointEpoch (s : State) : Out := .next (s.epoch s.ev.vd s.ev.k s.ev.flag s.ev.flag2)

/-- Site k of die vd is lost (R420). -/
def execSiteLoss (s : State) : Out := .next (s.siteLoss s.ev.vd s.ev.k)

/-- The scrubber of die vd finds an error at flat address k; `flag`: it corrects it (R424). With `flag2` the error lies in state private to context
`ctx`: in its latch j − 1 for a j of 1 or 2 (R423, R424). With m above 0 it is masked, of kind m in a copy at k of tile vt or core `core` (R429). -/
def execScrub (s : State) : Out :=
  .next (if 0 < s.ev.m then s.maskedError s.ev.vd s.ev.vt s.ev.core s.ev.m s.ev.k
    else if s.ev.flag2 then s.privateError s.ev.ctx (if s.ev.j = 1 ∨ s.ev.j = 2 then some (s.ev.j - 1) else none)
    else s.scrub s.ev.vd s.ev.k s.ev.flag)

/-- The pair exchanges the fingerprints of context `ctx`; `flag`: they agree (R426–R428). -/
def execFingerprintExchange (s : State) : Out := .next (s.exchange s.ev.ctx s.ev.flag)

end Sys2Proof.Machine
end

