-- ==== Sys2Proof/Machine/Fabric.lean ====
section
/-! DEFINITION. The fabric (R433–R442): flits on their way, links with retry, width and rate (R430, R452–R455), injectors (R431, R432),
Tether ports (R456, R457), and clock regions (R385, R386, R449–R451). -/

namespace Sys2Proof.Machine

open Sys2Proof

/-! Packets and copies (R402, R436, R441). -/

/-- A multicast message that has not parted. -/
def Packet.parts (p : Packet) : Bool := match p.pl with | .msg m _ _ => m.mc | _ => false

/-- A flit reaches a tile, which wakes. -/
def State.reachTile (s : State) (vt : Nat) : State := if (s.tile vt).idle then s.modTile vt (fun t => { t with idle := false }) else s

/-- Destinations of a multicast message. -/
def Msg.tiles (m : Msg) : List Nat := ((List.range 64).filter (fun i => m.dests.getLsbD i)).map (fun i => m.vt % 64 * 8 + i)

/-- The vector that names some of the destinations. -/
def Msg.vector (m : Msg) (ts : List Nat) : Word :=
  (List.range 64).foldl (fun w i => if ts.contains (m.vt % 64 * 8 + i) then w ||| ((1 : Word) <<< i) else w) 0

/-- A copy of a multicast message (R441): for one tile of the die, or for the tiles reached through one edge. -/
inductive Copy where
  | here (vt : Nat)
  | out (edge next : Nat) (ts : List Nat)
  | lost (ts : List Nat)
deriving DecidableEq, Repr

/-- The copies that leave a router of a die. -/
def State.copies (s : State) (vd : Nat) (m : Msg) : List Copy :=
  let ts := m.tiles
  let via := fun t => s.nextDie m.cls vd (dieOf t)
  let away := ts.filter (fun t => dieOf t != vd)
  ((ts.filter (fun t => dieOf t == vd)).map Copy.here) ++
    ((away.filterMap via).eraseDups).map (fun x => Copy.out x.1 x.2 (away.filter (fun t => via t == some x))) ++
    (if away.any (fun t => (via t).isNone) then [Copy.lost (away.filter (fun t => (via t).isNone))] else [])

/-- The outputs by which a flit leaves the router where it stands: a tile of the die, an edge, or none to be had. -/
def State.outputs (s : State) (p : Packet) : List (Nat × Nat) :=
  let vd := dieOf p.at_
  let one := if dieOf p.dst = vd then [(0, p.dst)] else match s.nextDie p.cls vd (dieOf p.dst) with | some (e, _) => [(1, e)] | none => [(2, 0)]
  match p.pl with
  | .msg m _ _ => if m.mc then (s.copies vd m).map (fun c => match c with | .here vt => (0, vt) | .out e _ _ => (1, e) | .lost _ => (2, 0)) else one
  | _ => one

/-- A flit of the class that reached the router before this one has still to leave it by one of this one's outputs (R436). -/
def State.flitBehind (s : State) (p : Packet) : Bool :=
  let outs := s.outputs p
  s.net.any (fun q => decide (q.seq < p.seq) && q.cls == p.cls && q.at_ == p.at_ && q.retry.isNone && (q.at_ != q.dst || q.parts) &&
    (s.outputs q).any outs.contains)

/-- The packet of a copy, with its number. A copy for a tile of the die has the site fixed when the message entered it; one that leaves has its
sites fixed where it enters the next die (R402). -/
def State.copyPacket (s : State) (vd : Nat) (p : Packet) (m : Msg) (tries : Nat) (send : Option Nat) (id : Nat) : Copy → Packet
  | .here vt =>
    let x := { m with mc := false, vt := vt, dests := 0 }
    s.fixSite { p with id := id, at_ := vt, dst := vt, site := (p.sites.find? (fun y => y.1 == slotOf vt)).map (fun y => y.2), sites := [], seq := id,
                       pl := .msg x tries send } vd
  | .out _ next ts =>
    let x := { m with dests := m.vector ts }
    s.fixSite { p with id := id, at_ := 8 * next, dst := x.target, site := none, sites := [], seq := id, pl := .msg x tries send } next
  | .lost ts =>
    let x := { m with dests := m.vector ts }
    { p with id := id, dst := x.target, pl := .msg x tries send }

/-! Frames (R430, R452). -/

/-- CRC-16/CCITT-FALSE. -/
def crc16 (l : List Byte) : BitVec 16 :=
  l.foldl (fun (c : BitVec 16) x => (List.range 8).foldl (fun (r : BitVec 16) _ => if r.getLsbD 15 then (r <<< 1) ^^^ 0x1021 else r <<< 1)
    (c ^^^ ((x.setWidth 16 : BitVec 16) <<< 8))) 0xffff

/-- The frame word of a flit: check code, sequence number, route class. The code covers the flit and then the word's low half. -/
def frameWord (flit : List Byte) (seq cls : Nat) : Nat :=
  let lo := seq % 4096 * 16 + cls % 16
  (crc16 (flit ++ natLe 2 lo)).toNat * 2 ^ 16 + lo

/-- The 64 bytes of a message (Tables 82, 83). -/
def Msg.image (m : Msg) : List Byte :=
  let hdr := m.cls % 16 + m.prio % 4 * 2 ^ 4 + m.kind % 4 * 2 ^ 6 + (if m.mc then 2 ^ 8 else 0) + m.src % 2 ^ 21 * 2 ^ 9 + m.reply.toNat * 2 ^ 30 +
    m.pos % 2 ^ 8 * 2 ^ 71 + m.vt % 2 ^ 9 * 2 ^ 79 + m.hdr.toNat * 2 ^ 88
  (natLe 16 hdr ++ (if m.mc then natLe 8 m.dests.toNat else []) ++ m.payload ++ List.replicate 48 0).take 64

/-- The flits of a packet: a message has a head and a payload flit (R269); what a flit of an event or a remote access holds the spec leaves open. -/
def State.flits (s : State) (p : Packet) : List (List Byte) × State :=
  match p.pl with
  | .msg m _ _ => ([m.image.take 32, m.image.drop 32], s)
  | _ =>
    let (n, s) := s.draw
    ([(List.range 4).flatMap (fun i => natLe 8 (Config.freeWord (4 * n + i)).toNat)], s)

/-- A group of lanes has no lane removed. -/
def cleanLanes (down first n : Nat) : Bool := natBits down first n == 0

/-- The lanes of a link that carry flits at a width (R454). -/
def activeLanes (down aw : Nat) : List Nat :=
  let n := 32 / 2 ^ aw
  if 2 < aw then []
  else match ((List.range (2 ^ aw)).map (fun i => n * i)).find? (fun f => cleanLanes down f n) with
    | some f => (List.range n).map (fun i => f + i)
    | none => []

/-- Lanes removed at either end of a link. -/
def State.linkDown (s : State) (vd e : Nat) : Nat :=
  natBits (s.linkControl vd e) 32 32 ||| (match s.farEnd vd e with | some (d, f) => natBits (s.linkControl d f) 32 32 | none => 0)

/-- The lanes of a link that carry flits. -/
def State.lanesOf (s : State) (vd e : Nat) : List Nat := activeLanes (s.linkDown vd e) (natBits (s.linkControl vd e) 10 2)

/-- A lane sends a flit in its frame; it holds the last 64. -/
def Lane.send (l : Lane) (cls : Nat) (flit : List Byte) : Lane :=
  { next := (l.next + 1) % 4096, sent := ((flit ++ natLe 4 (frameWord flit l.next cls)) :: l.sent).take 64 }

/-- The flits of a packet cross a link, on the lane that carries the first of them. -/
def State.sendFrames (s : State) (vd e lane : Nat) (p : Packet) : State :=
  let ls := s.lanesOf vd e
  let key := e * 32 + ls.getD (lane % ls.length) 0
  let (fs, s) := s.flits p
  s.modDie vd (fun d => { d with lanes := d.lanes.set key (fs.foldl (fun l f => l.send p.cls f) (d.lanes.get key ⟨0, []⟩)) })

/-! Forwarding. -/

/-- A change of the link's width or rate runs: flits wait in their class buffers (R454). -/
def State.linkBusy (s : State) (vd e : Nat) : Bool :=
  natBits (s.linkControl vd e) 7 1 == 1 || (match s.farEnd vd e with | some (d, f) => natBits (s.linkControl d f) 7 1 == 1 | none => false)

/-- The copy can go on: its link runs no change (R454) and its next die is awake (R463). -/
def State.copyOpen (s : State) (vd : Nat) : Copy → Bool
  | .here _ => true
  | .out e next _ => s.awake next && !s.linkBusy vd e
  | .lost _ => true

/-- The copy crosses no link that is lost. -/
def State.copyLost (s : State) (vd : Nat) : Copy → Bool
  | .here _ => false
  | .out e _ _ => s.linkLost vd e
  | .lost _ => true

/-- The hold area of a tile that waits for its resume is full: 8,192 arrivals, and as many more as the copied overflow area has room for (R408). -/
def State.holdFull (s : State) (p : Packet) : Bool :=
  (s.tile p.dst).stopped && !s.atVictim p && decide (8192 + (8192 - (s.tile p.dst).overflow.length) ≤ ((s.heldAt p.dst).filter (fun q => !s.atVictim q)).length)

/-- A packet has reached its tile; one that a full hold area cannot take is refused, as by a full queue (R408). `full`: it was before. -/
def State.atTile (s : State) (p : Packet) (full : Bool) : State :=
  let s := s.reachTile p.dst
  match full, p.pl with
  | true, .msg m tries send => s.refuseTask p m tries send .inboxFull
  | true, .spur e tries unit send launch => s.spurFull p e tries unit send launch
  | _, _ => s

/-- A multicast message parts where its copies do (R441, R442). -/
def State.partMulti (s : State) (p : Packet) (m : Msg) (tries : Nat) (send : Option Nat) (lane : Nat) : State :=
  let vd := dieOf p.at_
  let cs := s.copies vd m
  if !cs.all (s.copyOpen vd) then s
  else
    let ps := cs.mapIdx (fun i c => (c, s.copyPacket vd p m tries send (s.nextId + i) c))
    let net := s.net.flatMap (fun (q : Packet) => if q.id = p.id then ps.map (fun x => x.2) else [q])
    let t : State := { s with net := net, nextId := s.nextId + cs.length }
    ps.foldl (fun t x =>
      if s.copyLost vd x.1 then t.failPacket x.2 .uncorrectable 0
      else match x.1 with
        | .here _ => t.atTile x.2 (s.holdFull x.2)
        | .out e _ _ => t.sendFrames vd e lane x.2
        | .lost _ => t) t

/-- A packet stands at another router, the latest there (R436). -/
def State.moved (s : State) (p : Packet) : State := ({ s with nextId := s.nextId + 1 } : State).setPacket { p with seq := s.nextId }

/-- What a full hold area cannot refuse waits. -/
def Packet.refusable (p : Packet) : Bool := match p.pl with | .msg m _ _ => m.kind == 0 | .spur _ _ _ _ _ => true | .remote _ => false

/-- A flit with one destination moves to the router of its destination, or over one link to the next die of its route. -/
def State.moveFlit (s : State) (p : Packet) (vd lane : Nat) : State :=
  if dieOf p.dst = vd then
    let q := s.fixSite { p with at_ := p.dst } vd
    let full := s.holdFull q
    if full && !q.refusable then s else (s.moved q).atTile q full
  else
    match s.nextDie p.cls vd (dieOf p.dst) with
    | none => s.failPacket p .uncorrectable 0
    | some (e, next) =>
      if s.linkLost vd e then s.failPacket p .uncorrectable 0
      else if !s.awake next || s.linkBusy vd e then s
      else (s.sendFrames vd e lane p).moved (s.fixSite { p with at_ := 8 * next } next)

/-- A flit goes on; one that crosses a link does so on its lane of the number given. -/
def State.forward (s : State) (k lane : Nat) : State :=
  match s.packet k with
  | none => s
  | some p =>
    if p.retry.isSome || s.flitBehind p then s
    else
      let vd := dieOf p.at_
      match p.pl with
      | .msg m tries send =>
        if m.mc then s.partMulti p m tries send lane else s.moveFlit p vd lane
      | _ => s.moveFlit p vd lane

/-! Links. -/

/-- The active width for a target: the widest that is not wider and has clean lanes; 3 when none is left. -/
def activeWidth (down target : Nat) : Nat := (([0, 1, 2].filter (fun w => decide (target ≤ w) && !(activeLanes down w).isEmpty)).head?).getD 3

/-- The width and the rate that the requests of both ends of a link and the removed lanes give. -/
def State.linkTarget (s : State) (vd e : Nat) : Nat × Nat :=
  let a := s.linkControl vd e
  let b := match s.farEnd vd e with | some (d, f) => s.linkControl d f | none => 0
  (activeWidth (s.linkDown vd e) (max (a % 4) (b % 4)), max (natBits a 2 2) (natBits b 2 2))

/-- Change the control words of both ends of a link. -/
def State.putLink (s : State) (vd e : Nat) (g : Nat → Nat) : State :=
  let put := fun (s : State) (d f : Nat) => s.store (flatCommons d (0x7fe9200 + 8 * f)) 8 (g (s.linkControl d f))
  match s.farEnd vd e with
  | some (d, f) => put (put s vd e) d f
  | none => put s vd e

/-- A lane is removed: the link narrows, which takes until `State.linkDone`, or is lost (R430, R454, R455). On a Tether port the lane is out. -/
def State.removeLane (s : State) (vd e lane : Nat) : State :=
  if 4 ≤ e then s.modDie vd (fun d => { d with portDown := d.portDown ||| 2 ^ lane })
  else
    let used := (s.lanesOf vd e).contains lane
    let s := s.store (flatCommons vd (0x7fe9200 + 8 * e)) 8 (putBits (s.linkControl vd e) (32 + lane) 1 1)
    if (s.linkTarget vd e).1 = 3 then s.putLink vd e (fun w => putBits (putBits (putBits w 10 2 3) 6 1 1) 7 1 0)
    else if used then s.putLink vd e (fun w => putBits w 7 1 1) else s

/-- The lane sends flits: it is not removed, and a Tether port has it (R456). -/
def State.laneUp (s : State) (vd e lane : Nat) : Bool :=
  decide (lane < 32) && (if e < 4 then natBits (s.linkControl vd e) (32 + lane) 1 == 0
    else e == 4 && tetherPorts (s.info vd).phys != 0 && decide (lane < 16 * tetherPorts (s.info vd).phys) && natBits (s.die vd).portDown lane 1 == 0)

/-! Injectors (R431, R432). -/

def injectorAt (vd i : Nat) : Nat := flatCommons vd (0x7fe9000 + 0x40 * i)

/-- An injector is armed on a lane that sends flits. -/
def State.armedOn (s : State) (vd i lane : Nat) : Bool :=
  let w := s.load (injectorAt vd i) 8
  s.hasInjector vd i && natBits w 63 1 == 1 && natBits w 48 5 == lane && s.laneUp vd i lane

/-- The lane of an injector sends a flit that counts; at the N-th the injector acts. Whether the flit is spoilt or missing. -/
def State.transmit (s : State) (vd i lane : Nat) : Bool × State :=
  if !s.armedOn vd i lane then (false, s)
  else
    let w := s.load (injectorAt vd i) 8
    let n := ((s.die vd).inj.getD i 0) + 1
    let count := fun (x : Nat) => s.modDie vd (fun d => { d with inj := d.inj.set i x })
    if n < w % 2 ^ 32 then (false, count n)
    else
      let t := (count 0).store (injectorAt vd i + 16) 8 ((s.load (injectorAt vd i + 16) 8 + 1) % 2 ^ 64)
      let t := if natBits w 60 1 = 1 then t else t.store (injectorAt vd i) 8 (putBits w 63 1 0)
      (natBits w 61 2 == 1 || (natBits w 61 2 == 0 && s.load (injectorAt vd i + 8) 8 != 0), t)

/-- A flit of a lane is replayed: its receiver counts it, an injector with RPL may act on it, and after 64 failures in a row the lane is removed
(R430, R432). Whether it arrived. -/
def State.replay (s : State) (vd e lane : Nat) (good : Bool) : Bool × State :=
  if !s.laneUp vd e lane then (true, s)
  else
    let rpl := natBits (s.load (injectorAt vd e) 8) 59 1 == 1
    let (bad, s) := if rpl then s.transmit vd e lane else (false, s)
    let s := match (if e < 4 then s.farEnd vd e else none) with | some (d, _) => s.bump d 0x30 | none => s
    let key := e * 32 + lane
    let ok := good && !bad
    let n := if ok then 0 else (s.die vd).fails.get key 0 + 1
    let s := s.modDie vd (fun x => { x with fails := x.fails.set key (if 64 ≤ n then 0 else n) })
    (ok, if n < 64 then s else s.removeLane vd e lane)

/-- A spoilt flit is replayed until it arrives or its lane is removed. -/
def State.replays (s : State) (vd e lane : Nat) : Nat → State
  | 0 => s
  | n + 1 =>
    let (ok, s) := s.replay vd e lane true
    if ok then s else s.replays vd e lane n

/-- The lane of an armed injector sends m new flits. -/
def State.inject432 (s : State) (vd i : Nat) : Nat → State
  | 0 => s
  | m + 1 =>
    let lane := natBits (s.load (injectorAt vd i) 8) 48 5
    let (bad, s) := s.transmit vd i lane
    (if bad then s.replays vd i lane 64 else s).inject432 vd i m

/-- The next step of a link's change is done: the width first, then the rate (R454). -/
def State.linkDone (s : State) (vd e : Nat) : State :=
  let w := s.linkControl vd e
  let (aw, af) := s.linkTarget vd e
  if 4 ≤ e ∨ natBits w 7 1 = 0 then s
  else if natBits w 10 2 ≠ aw ∧ natBits w 8 2 ≠ af then s.putLink vd e (fun w => putBits w 10 2 aw)
  else s.putLink vd e (fun w => putBits (putBits (putBits w 10 2 aw) 8 2 af) 7 1 0)

/-- Hardware acts on control words that were stored: CKOFF clears COV and the journals of the die (R418), and a change that a link control word
requests runs at both ends (R453). -/
def State.follow (s : State) : State :=
  s.acts.foldl (fun s a =>
    let vd := flatOwner a
    let off := flatOff a
    if off = 0x7fe8000 then (if s.fControl vd 2 1 = 1 then (List.range 9).foldl (fun s k => s.uncover vd k) s else s)
    else
      let e := (off - 0x7fe9200) / 8
      if natBits (s.linkControl vd e) 7 1 = 1 then s.putLink vd e (fun w => putBits w 7 1 1) else s) { s with acts := [] }

/-- A store of a doubleword by supervisor software outside the mesh, to a word of a die's control blocks. -/
def State.superStore (s : State) (vd off : Nat) (w : Word) : State := s.poke (flatCommons vd off) (natLe 8 w.toNat)

/-! Tether ports. -/

/-- The message of a head and payload flit, when its header breaks nothing of Table 83 for this panel (R457). -/
def State.tetherMsg (s : State) (b : List Byte) (launch : Nat) : Option Msg :=
  let h := leNat (b.take 16)
  let kind := natBits h 6 2
  let mc := natBits h 8 1 == 1
  let vt := natBits h 79 9
  let pos := natBits h 71 8
  let sel := natBits h 126 2
  let ofs := natBits h 88 38
  let vec := if mc then BitVec.ofNat 64 (leNat ((b.drop 16).take 8)) else 0
  let handlerOk := (kind == 2 && natBits h 124 4 == pos - 0xf8 && natBits h 104 16 == 0) || kind % 2 == 1 || (kind == 0 && ((sel == 0 && decide (ofs < 2 ^ 17)) || (sel == 1 && decide (ofs < 2 ^ 27)) || sel == 2))
  let dstOk :=
    if mc then decide (vt / 64 = 0) && decide (pos < 192) && !(List.range 64).any (fun i => vec.getLsbD i && decide (8 * s.nDies ≤ 8 * vt + i))
    else decide (vt < 8 * s.nDies) && (match kind with
      | 2 => decide (0xf8 ≤ pos) && decide (pos ≤ 0xfb)
      | 3 => true
      | _ => decide (pos < 192) || (kind == 1 && pos == 0xff && vt == 0))
  if b.length = 64 ∧ handlerOk = true ∧ dstOk = true ∧ natBits h 30 3 = 0 ∧ (mc = true → kind = 0 ∧ vec ≠ 0) then
    some { hdr := BitVec.ofNat 40 (natBits h 88 40), vt := vt, pos := pos, reply := BitVec.ofNat 41 (natBits h 30 41), src := natBits h 9 21, mc := mc,
           kind := kind, prio := natBits h 4 2, cls := h % 16, payload := if mc then b.drop 24 else b.drop 16, dests := vec, launch := launch,
           hb := [] }
  else none

/-- The command of an engine command message (Table 88): its engine, and what the engine's inbox takes. The mode of its context the message does not
carry: its accesses are a user's (log 43). None when a field names nothing. -/
def Msg.command (m : Msg) (id : Nat) : Option (Nat × Cmd) :=
  let engine := m.pos - 0xf8
  let fn := natBits m.hdr.toNat 32 4
  let imm := m.hdr.toNat % 2 ^ 16
  let f := fun o n => leNat ((m.payload.drop o).take n)
  let w : BitVec 64 := BitVec.ofNat 64 (f 16 8)
  let kind : Option CmdKind := match engine, fn with
    | 0, 0 => some .copy
    | 1, 0 => some .gather
    | 1, 1 => some .latch
    | 2, 0 => some (if w.getLsbD 62 then .register else .reduce)
    | 2, 1 => some .bcast
    | 2, 2 => some .join
    | 3, 0 => some .digest
    | _, _ => none
  let c := ctxOfIdent m.src
  kind.map (fun k => (engine, {
    id := id, kind := k, issuer := c, vt := m.vt, launch := m.launch, sup := false, tag := BitVec.ofNat 32 (f 32 4),
    dst := if k = .latch then 0 else BitVec.ofNat 64 (f 0 8), src := BitVec.ofNat 64 (f 8 8), w := w,
    m := if engine < 2 then f 24 8 else if engine = 2 then collLen w else f 16 8,
    ctr := if imm / 2 ^ 8 % 2 = 1 then some (imm % 2 ^ 8) else none, latch := if k = .latch then f 0 8 % 2 else 0,
    z := if engine < 2 then natBits imm 11 3 else if k ≠ .join ∧ f 0 8 ≠ 0 then 1 else 0, who := if engine = 2 then f 24 8 % 1024 else 0, row := 0,
    token := none, fail := none, hb := [], gone := false }))

/-- An engine command message enters the inbox of its engine, once there is room (R281); its requesting context is the one that SRC names. -/
def State.tetherCmd (s : State) (m : Msg) : State :=
  match m.command s.nextId with
  | none => s
  | some (engine, c) =>
    if 16 ≤ (s.inboxOf m.vt engine).length ∨ 8 * s.nDies ≤ c.issuer.core.vt ∨ 191 < c.issuer.core.pos ∨ 10 < c.issuer.ctx ∨ s.slotGone m.vt = true then s
    else (s.issued c.issuer).modTile m.vt (fun t => t.enqueue engine c)

/-- A message arrives at a Tether port of a die and is injected there; its refusals go back to the other panel. What a panel control message of
another panel's dispatcher or Farrier does, the spec leaves open: it has no effect (log 43). -/
def State.tether (s : State) (vd launch : Nat) (b : List Byte) : State :=
  if !s.feat1 3 || s.nDies ≤ vd || tetherPorts (s.info vd).phys == 0 then s
  else
    match s.tetherMsg b launch with
    | none => s
    | some m =>
      let id := s.nextId
      match m.kind with
      | 2 => s.tetherCmd m
      | 3 => s
      | _ => ({ s with nextId := id + 1 } : State).inject (8 * vd) m.target m.cls (.msg m 8 (some id))

/-! Clock regions. -/

/-- A region becomes uncertain: its translation cache and the gateway caches of its ports are emptied (R386). -/
def State.losePace (s : State) (vt : Nat) : State :=
  if (s.tile vt).uncertain then s
  else
    let s := s.modTile vt (fun t => { t with uncertain := true, good := 0, tcache := [] })
    let es := s.edgesOf vt
    let vd := regionDie vt
    if (s.die vd).gw.isEmpty then s else s.modDie vd (fun d => { d with gw := d.gw.filter (fun l => !es.contains l.port) })

/-- The rate of a region that counts from its own clock, within one per cent (R451). -/
def driftOf (k : Nat) : Int := if k ≤ 200 then (k : Int) - 100 else 0

/-- A beacon reaches a region. A certain one that is behind slews toward it, which `ofs` says how far; one that is ahead counts slower (`Tile.pass`).
An uncertain one that is behind steps forward to the reference; it is certain after 16 beacons in a row with offsets of at most 5 ns once it
matches, and locked again (R385, R386). -/
def Tile.beacon (t : Tile) (ofs : Int) : Tile :=
  if t.uncertain then
    let good := if -5 ≤ t.ofs ∧ t.ofs ≤ 5 then t.good + 1 else 0
    let now := max 0 t.ofs
    if 16 ≤ good ∧ now = 0 then { t with missed := 0, drift := 0, ofs := 0, good := 0, uncertain := false }
    else { t with missed := 0, ofs := now, good := good }
  else { t with missed := 0, drift := 0, ofs := if t.ofs ≤ ofs ∧ ofs ≤ 0 then ofs else t.ofs }

def State.beacon (s : State) (vt : Nat) (ofs : Int) : State := if (s.tile vt).refLost then s else s.modTile vt (fun t => t.beacon ofs)

/-- A beacon is missed, or one shows an offset above 10 ns; PACE never decreases. The region goes by its own clock from then on. -/
def State.beaconMiss (s : State) (vt : Nat) (shown : Bool) (ofs : Int) (rate : Nat) : State :=
  let t := s.tile vt
  let off := if shown ∧ t.ofs ≤ ofs ∧ 10 < ofs then ofs else t.ofs
  let missed := if shown then t.missed else t.missed + 1
  let s := s.setTile vt { t with missed := missed, good := 0, ofs := off, drift := if t.uncertain && shown then t.drift else driftOf rate }
  if 4 ≤ missed ∨ 10 < off ∨ off < -10 then s.losePace vt else s

/-- A region loses its reference, or has it again (R451). -/
def State.referenceLost (s : State) (vt rate : Nat) : State :=
  (s.losePace vt).modTile vt (fun t => { t with refLost := true, drift := driftOf rate })
def State.referenceBack (s : State) (vt : Nat) : State := s.modTile vt (fun t => { t with refLost := false })

/-- Flit k moves on; over a link on its j-th lane (R433–R441). -/
def execFlitForward (s : State) : Out := .next (s.forward s.ev.k s.ev.j)

/-- A flit of lane j of edge k of die vd is replayed, edge 4 being its Tether ports; `flag`: the replay succeeds; with `flag2` die vd receives it at a
Tether port (R430). -/
def execLinkReplay (s : State) : Out :=
  .next (if s.ev.flag2 then (if s.ev.k = 4 ∧ tetherPorts (s.info s.ev.vd).phys ≠ 0 then s.bump s.ev.vd 0x30 else s)
    else (s.replay s.ev.vd s.ev.k s.ev.j s.ev.flag).2)

/-- Word 0 of injector k of die vd is stored (R431). -/
def execInjectorArm (s : State) : Out := .next (if s.ev.k < 5 then s.superStore s.ev.vd (0x7fe9000 + 0x40 * s.ev.k) s.ev.w else s)

/-- The lane of injector k of die vd sends m new flits (R432). -/
def execInjectorTrigger (s : State) : Out := .next (s.inject432 s.ev.vd s.ev.k s.ev.m)

/-- The link control word of edge k of die vd is stored (R453, R454). -/
def execLinkControlWrite (s : State) : Out := .next (if s.ev.k < 4 then s.superStore s.ev.vd (0x7fe9200 + 8 * s.ev.k) s.ev.w else s)

/-- The change of the link at edge k of die vd is done (R454). -/
def execLinkChangeDone (s : State) : Out := .next (s.linkDone s.ev.vd s.ev.k)

/-- The message `bytes` of launch j arrives at a Tether port of die vd (R457). -/
def execTetherArrival (s : State) : Out := .next (s.tether s.ev.vd s.ev.j s.ev.bytes)

/-- A beacon reaches the region of tile vt; `ofs`: where a certain region slews to (R385). -/
def execPaceBeacon (s : State) : Out := .next (s.beacon s.ev.vt s.ev.ofs)

/-- The region of tile vt misses a beacon, or (`flag`) one shows offset `ofs`; k: its rate when it goes its own way (R386). -/
def execBeaconMiss (s : State) : Out := .next (s.beaconMiss s.ev.vt s.ev.flag s.ev.ofs s.ev.k)

/-- The region of tile vt stretches a period: at most one in any four (R449). -/
def execClockStretch (s : State) : Out :=
  .next (if 4 ≤ (s.tile s.ev.vt).sinceStretch then s.modTile s.ev.vt (fun t => { t with sinceStretch := 0 }) else s)

/-- The region of tile vt loses its reference; k: its rate (R451). -/
def execReferenceLoss (s : State) : Out := .next (s.referenceLost s.ev.vt s.ev.k)

/-- The reference returns to the region of tile vt (R451). -/
def execReferenceReturn (s : State) : Out := .next (s.referenceBack s.ev.vt)

end Sys2Proof.Machine
end

