-- ==== Sys2Proof/Machine/Boot.lean ====
section
/-! DEFINITION. Panel reset and boot (R447, R448, R461), identity and attestation (R462), power states (R463, R464), debug and life-cycle
(R465, R466), and stores that supervisor software outside the mesh makes to control words (R365, R374, R416). -/

namespace Sys2Proof.Machine

open Sys2Proof

/-! Panel reset. -/

/-- A die site as boot finds it: dead positions of its tile sites by physical site × 16 + tile site, sites retired in fuses. -/
def siteInfo (fuses : Tab Fuse) (dead : List (Nat × List Nat)) (phys : Nat) : DieInfo :=
  let at_ := fun (k : Nat) => match dead.find? (fun x => x.1 == phys * 16 + k) with | some x => x.2 | none => []
  DieInfo.present
    { phys := phys, canter := phys % 2 == 1, pair := phys / 8 * 4 + phys % 8 / 2, mate := none, hidden := [],
      dead := (List.range 9).filterMap (fun k => if (at_ k).isEmpty then none else some (k, at_ k)),
      retired := (List.range 9).filter (fun k => (fuses.get (phys * 16 + k) ⟨false, []⟩).retired), routes := [] }

/-- The die remap (R447): good Gallop sites, then good Canter sites, each in ascending order. `bad`: sites that fail their ROM check or answer
on no edge. -/
def remapDies (fuses : Tab Fuse) (bad : List Nat) (dead : List (Nat × List Nat)) : List DieInfo :=
  let good := ((List.range 64).filter (fun p => !bad.contains p)).map (siteInfo fuses dead) |>.filter (fun i => decide (8 ≤ i.fitSites.length))
  let l := good.filter (fun i => !i.canter) ++ good.filter (fun i => i.canter)
  l.map (fun i => { i with mate := dieAt l (if i.canter then i.phys - 1 else i.phys + 1) })

/-- Write a block of bytes that a function of the offset gives. -/
def State.writeBlock (s : State) (vd off n : Nat) (f : Nat → Byte) : State :=
  s.storeBytes (flatCommons vd off) ((List.range n).map (fun i => f (off + i)))

/-- Boot writes its control blocks on every die (R461 steps 4 and 8), and the fused exposure counts into the site records. -/
def State.bootDies (s : State) : State :=
  (List.range s.nDies).foldl (fun s vd =>
    let s := bootBlocks.foldl (fun s b => s.writeBlock vd b.1 b.2 (bootByte s.panel vd)) s
    (List.range 9).foldl (fun s k =>
      match s.fuses.find ((s.info vd).phys * 16 + k) with
      | some f => s.storeBytes (siteAddr vd k + 16) f.bins
      | none => s) s) s

/-- What steps 7 and 8 of R461 write is zero. -/
def State.blankStep8 (s : State) : State :=
  (List.range 64).foldl (fun s vd =>
    [(0x7fe2000, 0x40), (0x7feb040, 0x20), (0x7feb200, 0x40), (0x7ff0000, 0x142)].foldl (fun s b => s.writeBlock vd b.1 b.2 (fun _ => 0)) s) s

/-- Firmware sets the CKBASE of tiles (R43), with which the slice maps are those of the reset bounds. -/
def State.setCkbases (s : State) (l : List (Nat × List Nat)) : State :=
  let set := l.filter (fun x => decide (x.1 < 8 * s.nDies) && decide (x.2.headD 0 ≤ 760))
  let s := set.foldl (fun s x => s.modTile x.1 (fun t => { t with ckbase := x.2.headD 0, plb2 := x.2.headD 0 })) s
  ((set.map (fun x => dieOf x.1)).eraseDups).foldl (fun s vd => s.writeSlices vd 0) s

/-- Panel reset (R460, R461). Below the floor, boot stops after attestation, and without site 0 and site 63 after step 6 (R448). Beside the dead
positions `dead` holds the route tables that firmware supplies, those of class c for virtual die d under 1024 + 64c + d, and the CKBASE it gives
virtual tile t under 2048 + t. -/
def State.panelReset (s : State) (bad : List Nat) (dead : List (Nat × List Nat)) : State :=
  let found := remapDies s.fuses bad dead
  let dark := !found.any (fun i => i.phys == 0 || i.phys == 63)
  let given := dead.filter (fun x => decide (1024 ≤ x.1) && decide (x.1 < 2048))
  let bases := (dead.filter (fun x => decide (2048 ≤ x.1))).map (fun x => (x.1 - 2048, x.2))
  let panel := if dark || given.isEmpty then found else acceptRoutes found (fun c d => (given.find? (fun x => x.1 == 1024 + 64 * c + d)).map (fun x => x.2))
  let few := decide (panel.length < 60) || decide ((panel.filter (fun i => !i.canter)).length < 29)
  let t : State := { State.reset with cur := s.cur, op := s.op, ev := s.ev, inputs := s.inputs, turns := s.turns, free := s.free, panel := panel,
                                      fuses := s.fuses, attest := { s.attest with high := 0, below := few || dark, dark := dark } }
  let t := t.bootDies
  if dark then t.blankStep8
  else
    let t := t.setCkbases bases
    if s.attest.key then t else t.writeBlock 0 0x7feb200 0x40 (fun _ => 0)

/-- The boot wipe (R461 step 6): zero everywhere but in the Farrier blocks, route tables and slice maps; every tag empty. -/
def State.bootWipe (s : State) : State :=
  let kept := fun (a : Nat) => flatKind a == 2 && (decide (0x7fe8000 ≤ flatOff a ∧ flatOff a < 0x7fe9000) ||
    decide (0x7fea000 ≤ flatOff a ∧ flatOff a < 0x7fea600))
  let mem := s.mem.filter (fun (c : Host.Cell) => kept c.1)
  ({ s with mem := mem, poison := [], full := [], dirty := [], marks := [] } : State).blankStep8

/-! Attestation. -/

/-- The report of Table 137, but for its signature. -/
def State.reportBytes (s : State) : List Byte :=
  let suspect := (List.range s.nDies).any (fun vd => s.fStatus vd 14 1 == 1)
  s.bytes (flatCommons 0 0x7feb000) 32 ++ (List.range 32).map (Config.farrierDigest (goodSites s.panel)) ++ (List.range 32).map Config.imageDigest ++
    natLe 8 (s.harvest 0) ++ natLe 8 s.featAck.toNat ++ natLe 1 s.attest.life ++ natLe 1 s.attest.high ++
    natLe 1 ((if s.attest.below then 1 else 0) + if suspect then 2 else 0) ++ List.replicate 13 0

/-- n bytes of free words. -/
def State.drawBytes (s : State) : Nat → List Byte × State
  | 0 => ([], s)
  | n + 1 =>
    let (i, s) := s.draw
    let (l, s) := s.drawBytes n
    (natLe 8 (Config.freeWord i).toNat ++ l, s)

/-- The report asked for is written (R462): the signature is a free value, or zero without a device key. -/
def State.attestReady (s : State) : State :=
  let req := flatCommons 0 0x7feb020
  if s.load req 8 ≠ 1 ∨ s.attest.dark = true then s
  else
    let (sig, s) := if s.attest.key then s.drawBytes 8 else (List.replicate 64 0, s)
    let code := if s.attest.key then 2 else 3
    (s.storeBytes (flatCommons 0 0x7feb100) (s.reportBytes ++ sig)).store req 8 code

/-- A supervisor stores a nonce and asks for a report; a request made before the report is ready is ignored. -/
def State.attestRequest (s : State) (nonce : List Byte) : State :=
  if s.load (flatCommons 0 0x7feb020) 8 = 1 then s
  else (s.poke (flatCommons 0 0x7feb000) ((nonce ++ List.replicate 32 0).take 32)).superStore 0 0x7feb020 1

/-! Power (Table 138). -/

/-- A supervisor stores a request. -/
def State.requestPower (s : State) (vd req : Nat) : State :=
  s.superStore vd 0x7fec000 (BitVec.ofNat 64 (putBits (s.load (flatCommons vd 0x7fec000) 8) 0 2 req))

/-- Tiles of a die. -/
def dieTiles (vd : Nat) : List Nat := (List.range 8).map (fun k => 8 * vd + k)

/-- Every tile of a die is idle. -/
def State.idleDie (s : State) (vd : Nat) : State := (dieTiles vd).foldl (fun s t => s.modTile t (fun x => { x with idle := true })) s

/-- A requested die enters DIE-DROWSY, or is refused while halt is in force (Table 139). -/
def State.enterDrowsy (s : State) (vd : Nat) : State :=
  if s.power vd 0 2 ≠ 1 ∨ s.power vd 8 2 ≠ 0 then s
  else if s.power vd 32 2 = 2 then s.setPower vd 16 1 1
  else if (dieTiles vd).any s.resident then s
  else (s.setPower vd 8 2 1).idleDie vd

/-- Every link at a width code and rate. -/
def State.allLinks (s : State) (f : State → Nat → Nat → State) : State :=
  (List.range s.nDies).foldl (fun s vd => (List.range 4).foldl (fun s e => if (s.farEnd vd e).isSome then f s vd e else s) s) s

/-- A requested panel parks, or is refused while halt is in force on a die. -/
def State.enterPark (s : State) : State :=
  let ds := List.range s.nDies
  if s.power 0 0 2 ≠ 2 ∨ s.power 0 8 2 = 2 then s
  else if ds.any (fun d => s.power d 32 2 == 2) then s.setPower 0 16 1 1
  else if ds.any (fun d => (dieTiles d).any s.resident) then s
  else
    let s := ds.foldl (fun s d => (s.setPower d 8 2 2).idleDie d) s
    s.allLinks (fun s vd e => if s.linkLost vd e then s else s.putLink vd e (fun w => putBits (putBits w 10 2 (activeWidth (s.linkDown vd e) 2)) 8 2 2))

/-- A parked panel is active again, its links at what their requests give. -/
def State.unpark (s : State) : State :=
  ((List.range s.nDies).foldl (fun s d => s.setPower d 8 2 0) s).allLinks (fun s vd e =>
    let (aw, af) := s.linkTarget vd e
    if s.linkLost vd e then s else s.putLink vd e (fun w => putBits (putBits (putBits w 10 2 aw) 8 2 af) 7 1 0))

/-- The dies that a packet goes to next, or at which it is to arrive. -/
def State.nextDies (s : State) (p : Packet) : List Nat :=
  let one := dieOf p.dst :: (match s.nextDie p.cls (dieOf p.at_) (dieOf p.dst) with | some (_, d) => [d] | none => [])
  match p.pl with
  | .msg m _ _ => if m.mc then (s.copies (dieOf p.at_) m).filterMap (fun c => match c with | .out _ next _ => some next | _ => none) else one
  | _ => one

/-- Something is on its way to or over a die, or a launch has still to enter it. -/
def State.wanted (s : State) (vd : Nat) : Bool :=
  s.net.any (fun p => (s.nextDies p).contains vd) ||
    s.launches.any (fun l => !l.ended && l.shares.any (fun h => h.vd == vd && (h.st == .waiting || h.st == .entering)))

/-- A drowsy die or a parked panel wakes. -/
def State.wakeDie (s : State) (vd : Nat) : State :=
  let ds := List.range s.nDies
  if s.power vd 8 2 = 1 ∧ (s.power vd 0 2 = 0 ∨ s.wanted vd = true) then s.setPower vd 8 2 0
  else if s.power 0 8 2 = 2 ∧ (s.power 0 0 2 = 0 ∨ ds.any s.wanted = true) then
    s.unpark
  else s

/-- A tile holds no resident launch, engine command or spur bank: its clocks are gated. -/
def State.tileIdle (s : State) (vt : Nat) : State :=
  let t := s.tile vt
  if s.resident vt || !t.commands.isEmpty || t.bank.isSome || s.retiring.any (fun c => c.vt == vt) then s
  else s.setTile vt { t with idle := true }

/-! Debug (R465, Table 139). -/

/-- Slots of a mask. -/
def slotsOf (mask : Nat) : List Nat := (List.range 8).filter (fun k => decide (mask / 2 ^ k % 2 = 1))

/-- A signed unlock raises the level for a set of slots; only PROVISIONED and DEPLOYED have one. `good`: the signature verifies. -/
def State.unlock (s : State) (vd level mask : Nat) (good : Bool) : State :=
  if !good || level = 0 || 2 < level || 256 ≤ mask || !(s.attest.life == 2 || (s.attest.life == 1 && level == 2)) then s
  else
    let s := (s.modDie vd (fun d => { d with dbgLevel := level, dbgMask := mask })).setPower vd 32 2 level
    { s with attest := { s.attest with high := max s.attest.high level } }

/-- Halt is allowed on a set of slots. -/
def State.mayHalt (s : State) (vd mask : Nat) : Bool :=
  s.attest.life == 0 || s.attest.life == 3 || ((s.die vd).dbgLevel == 2 && (slotsOf mask).all (slotsOf (s.die vd).dbgMask).contains)

/-- Observe is allowed on a set of slots: in DEPLOYED under an unlock. -/
def State.mayObserve (s : State) (vd mask : Nat) : Bool :=
  s.attest.life != 2 || (decide (1 ≤ (s.die vd).dbgLevel) && (slotsOf mask).all (slotsOf (s.die vd).dbgMask).contains)

/-- An observe request only reads: DBG shows its level, and a refused request sets REFUSED. -/
def State.observe (s : State) (vd mask : Nat) : State :=
  if s.mayObserve vd mask then s.setPower vd 32 2 (max 1 (s.power vd 32 2)) else s.setPower vd 16 1 1

/-- The pools, with the register backing of vector state, and TCM of a tile are zero, their tags empty (R184). -/
def State.wipeTile (s : State) (vt : Nat) : State :=
  let mine := fun (a : Nat) => (flatKind a == 0 && decide (flatOwner a / 192 = vt)) || (flatKind a == 1 && decide (flatOwner a = vt))
  let mem := s.mem.filter (fun (c : Host.Cell) => !mine c.1)
  let poison := s.poison.filter (fun w => !mine (w * 8))
  let full := s.full.filter (fun w => !mine (w * 8))
  let ctxs := s.ctxs.map (fun (p : Nat × Ctx) =>
    if p.1 / 16 / 192 = vt then (p.1, { p.2 with v := (Ctx.reset 1).v, a := (Ctx.reset 1).a, g := (Ctx.reset 1).g, gbad := 0 }) else p)
  { s with mem := mem, poison := poison, full := full, ctxs := ctxs, marks := s.marks.filter (fun x => !mine (x * 64)) }

/-- The named tiles stop at pre-emption boundaries, wiped first in DEPLOYED; a refused request sets REFUSED. -/
def State.halt (s : State) (vd mask : Nat) : State :=
  let ts := (slotsOf mask).map (fun k => 8 * vd + k)
  if s.power vd 8 2 = 2 ∨ s.mayHalt vd mask = false then s.setPower vd 16 1 1
  else
    let s := if s.power vd 8 2 = 1 then s.setPower vd 8 2 0 else s
    if !(ts.all (fun t => (s.tileCores t).all (fun c => allCtx.all (fun i => s.drainable ⟨c, i⟩)))) then s
    else
      let s := if s.attest.life = 2 then (ts.filter (fun t => !(s.tile t).halted)).foldl (fun s t => s.wipeTile t) s else s
      let s := ts.foldl (fun s t => s.modTile t (fun x => { x with halted := true, idle := false })) s
      (s.setPower vd 40 8 (s.power vd 40 8 ||| mask % 256)).setPower vd 32 2 2

/-- The debugger writes memory of a halted tile. -/
def State.debugWrite (s : State) (a : Nat) (b : List Byte) : State :=
  let vt := if flatKind a = 0 then flatOwner a / 192 else flatOwner a
  let size := if flatKind a = 0 then Config.tcmBytes else Config.poolBytes
  if 1 < flatKind a ∨ size < flatOff a + b.length ∨ (s.tile vt).halted = false then s else s.storeBytes a b

/-- A system register takes a value that breaks no check of its writes but that the core is in no launch (R18, R59). -/
def State.debugSys (s : State) (c : CtxId) (n : Nat) (w : Word) : State :=
  match s.sysCheck c n w with
  | some t => if t.detail = 9 then s.sysWrite c n w else s
  | none => s.sysWrite c n w

/-- The debugger writes the state of a core of a halted tile: file 8 counter n (value and E), 9 gait n, 10 the run queue, 11 the deque. -/
def State.debugCore (s : State) (c : CoreId) (j n : Nat) (b : List Byte) : State :=
  let f := fun o w => leNat ((b.drop o).take w)
  match j with
  | 8 => if n < 256 then s.modCore c (fun k => { k with rein := k.rein.set n ⟨BitVec.ofNat 16 (f 0 2), f 2 1 % 2 == 1⟩ }) else s
  | 9 => match gaitOf b with | some g => if n < 4 then s.modCore c (fun k => { k with gaits := k.gaits.set n g }) else s | none => s
  | 10 =>
    let q := (List.range (min 32 (b.length / 64))).map (fun i => taskOf ((b.drop (64 * i)).take 64) c (s.core c).launchId i [])
    s.modCore c (fun k => { k with runq := q, arrivals := q.length })
  | _ => s.modCore c (fun k => { k with deque := dequeOf b (min 16 (b.length / 32)) [] })

/-- The debugger writes a register of a context of a halted tile: file j (1 s, 2 p, 3 v, 4 a, 5 g, 6 pc, 7 system registers, from 8 on what the core
holds), register n. -/
def State.debugRegister (s : State) (c : CtxId) (j n : Nat) (b : List Byte) : State :=
  let x := leNat b
  let part := fun (w i : Nat) => leNat ((b.drop (w * i)).take w)
  if (s.tile c.core.vt).halted = false then s
  else
    match j with
    | 1 => s.ws c (BitVec.ofNat 5 n) (BitVec.ofNat 64 x)
    | 2 => s.wp c (BitVec.ofNat 5 n) (BitVec.ofNat 16 x)
    | 3 => s.wv c n (BitVec.ofNat 512 x)
    | 4 => s.wa c n (Vector.ofFn (fun i : Fin 256 => BitVec.ofNat 32 (part 4 i.val)))
    | 5 => s.wg c n (Vector.ofFn (fun i : Fin 16 => BitVec.ofNat 1024 (part 128 i.val)))
    | 6 => s.modCtx c (fun k => { k with pc := BitVec.ofNat 64 x, entry := if x % 64 = 2 then .fall else .from_ 0, line := [] })
    | 7 => if n = 0x1d then s else s.debugSys c n (BitVec.ofNat 64 x)
    | _ => if 8 ≤ j ∧ j ≤ 11 then s.debugCore c.core j n b else s

/-- A relock ends the unlock, and its halts. -/
def State.relock (s : State) (vd : Nat) : State :=
  let s := (s.modDie vd (fun d => { d with dbgLevel := 0, dbgMask := 0 })).setPower vd 32 2 0
  ((dieTiles vd).foldl (fun s t => s.modTile t (fun x => { x with halted := false })) s).setPower vd 40 8 0

/-- Signed firmware moves the life-cycle one state forward. With the move to PROVISIONED the device key is there, its public key readable (R462). -/
def State.lifeMove (s : State) (life : Nat) (good : Bool) : State :=
  if !good || life != s.attest.life + 1 || 3 < life || s.attest.dark then s
  else
    let s : State := { s with attest := { s.attest with life := life, key := if life = 1 then true else if life = 3 then false else s.attest.key } }
    if life = 3 then s.bootWipe else if life = 1 then s.writeBlock 0 0x7feb200 0x40 (bootByte s.panel 0) else s

/-! Stores of supervisor software outside the mesh. -/

/-- A field of a Farrier control or status word is stored. -/
def State.storeField (s : State) (vd off lo w x : Nat) : State :=
  s.superStore vd off (BitVec.ofNat 64 (putBits (s.load (flatCommons vd off) 8) lo w x))

/-- CKOFF is stored, and the Farrier acts on it: it stops epochs and clears COV (R418). -/
def State.ckoff (s : State) (vd : Nat) (on : Bool) : State := (s.storeField vd 0x7fe8000 2 1 (if on then 1 else 0)).follow

/-- Panel reset; `nums`: sites that are not good, `pairs`: dead positions by physical site × 16 + tile site, and supplied route tables (R461, R439). -/
def execPanelReset (s : State) : Out := .next (s.panelReset s.ev.nums s.ev.pairs)

/-- A report is asked for with nonce `bytes` (R462). -/
def execAttestationRequest (s : State) : Out := .next (s.attestRequest s.ev.bytes)

/-- The report is ready (R462). -/
def execAttestationReportReady (s : State) : Out := .next s.attestReady

/-- Unlock of level k for the slots of mask m on die vd; `flag`: the signature verifies (R465). -/
def execDebugUnlock (s : State) : Out := .next (s.unlock s.ev.vd s.ev.k s.ev.m s.ev.flag)

/-- Halt request for the slots of mask m on die vd; with `flag2` a write of `bytes` at a halted tile: for j = 0 at flat address k, else of register
m of file j of the context `ctx` (R465). -/
def execDebugHalt (s : State) : Out :=
  .next (if s.ev.flag2 then (if s.ev.j = 0 then s.debugWrite s.ev.k s.ev.bytes else s.debugRegister s.ev.ctx s.ev.j s.ev.m s.ev.bytes)
    else s.halt s.ev.vd s.ev.m)

/-- Observe request for the slots of mask m on die vd (R465, Table 139). -/
def execDebugObserve (s : State) : Out := .next (s.observe s.ev.vd s.ev.m)

/-- Relock on die vd (R465). -/
def execDebugRelock (s : State) : Out := .next (s.relock s.ev.vd)

/-- Life-cycle move to state k; `flag`: the firmware's signature verifies (R466). -/
def execLifeCycleMove (s : State) : Out := .next (s.lifeMove s.ev.k s.ev.flag)

/-- Die vd enters DIE-DROWSY; `flag`: the request is stored now (R463, R464). -/
def execDieDrowsy (s : State) : Out := .next ((if s.ev.flag then s.requestPower s.ev.vd 1 else s).enterDrowsy s.ev.vd)

/-- The panel parks; `flag`: the request is stored now (R463, R464). -/
def execPanelPark (s : State) : Out := .next ((if s.ev.flag then s.requestPower 0 2 else s).enterPark)

/-- Die vd or the panel wakes; `flag`: the request is stored now (R463, R464). -/
def execActive (s : State) : Out := .next ((if s.ev.flag then s.requestPower s.ev.vd 0 else s).wakeDie s.ev.vd)

/-- Tile vt goes idle (R463). -/
def execTileIdle (s : State) : Out := .next (s.tileIdle s.ev.vt)

/-- HOLD of die vd is stored (R404). -/
def execFarrierHold (s : State) : Out := .next (s.storeField s.ev.vd 0x7fe8000 0 1 (if s.ev.flag then 1 else 0))

/-- CKOFF of die vd is stored, and the Farrier acts on it (R418). -/
def execCkoff (s : State) : Out := .next (s.ckoff s.ev.vd s.ev.flag)

/-- A 0 is stored to SUSPECT of die vd (R416). -/
def execSuspectClear (s : State) : Out := .next (s.storeField s.ev.vd 0x7fe8008 14 1 0)

/-- A 0 is stored to counter k of die vd (Table 131). -/
def execCounterClear (s : State) : Out := .next (if s.ev.k < 8 then s.superStore s.ev.vd (0x7fe8020 + 8 * s.ev.k) 0 else s)

/-- A 0 is stored to the count in fault queue slot 255 of die vd (R365). -/
def execFaultCountClear (s : State) : Out := .next (s.superStore s.ev.vd 0x7fe1fe0 0)

/-- A 0 is stored to REFUSED of die vd (R464). -/
def execRefusedClear (s : State) : Out := .next (s.storeField s.ev.vd 0x7fec000 16 1 0)

/-- Word j of region descriptor k of tile vt is stored (R374, R376). -/
def execProtectionDescriptorStore (s : State) : Out :=
  .next (if s.ev.k < 16 ∧ s.ev.j < 2 then
      s.superStore (dieOf s.ev.vt) (0x7fe4000 + 0x100 * slotOf s.ev.vt + 16 * s.ev.k + 8 * s.ev.j) s.ev.w
    else s)

end Sys2Proof.Machine
end

