-- ==== Sys2Proof/Machine/Detector.lean ====
section
/-! DEFINITION. The wait-table detector (R358, R359), and time passing: the pace of the clock regions (R385, R386, R449) and the detectors of the
launches. -/

namespace Sys2Proof.Machine

open Sys2Proof

/-! The fabric of a launch. -/

/-- A translation fault of the launch is outstanding: a kind 0 entry that names it is not free (R365, R366). -/
def State.faultOut (s : State) (id : Nat) : Bool :=
  s.mem.any (fun x =>
    let o := flatOff x.1
    let vd := flatOwner x.1
    let slot := (o - 0x7fe0000) / 32
    flatKind x.1 == 2 && decide (0x7fe0000 ≤ o ∧ o < 0x7fe1fe0) && o % 32 == 17 && x.2 != 0 && s.entryField vd slot 16 1 == 0 &&
      s.entryField vd slot 18 2 == id % 65536)

/-- An engine command of the launch is queued or runs. A collective command whose episode other contributions have still to complete only waits
(R289). -/
def State.engineBusy (s : State) (id : Nat) : Bool :=
  s.retiring.any (fun c => c.launch == id) ||
    s.tiles.any (fun t => (t.2.copyQ ++ t.2.gatherQ ++ t.2.digestQ ++ t.2.collQ).any (fun c => c.launch == id) ||
      t.2.collHeld.any (fun c => c.launch == id && (episodeOf (s.collCmds id (c.w.toNat % 256))).isSome))

/-- An event is queued in a bank of the launch in pace mode. -/
def State.paceQueued (s : State) (id : Nat) : Bool :=
  s.tiles.any (fun t => match t.2.bank with | some b => b.launch == id && !b.logical && !b.queue.isEmpty | none => false)

/-- A rotation holds a tile on which the launch has cores, or which it waits to enter, to refill or to resume, or a halt holds one it names (R410,
R465). -/
def State.tileHeld (s : State) (id : Nat) : Bool :=
  let turns := fun (vt : Nat) => (s.tile vt).draining || (s.tile vt).stopped
  (s.coresOf id).any (fun k => turns (k / 192) || (s.tile (k / 192)).halted) ||
    (match s.launchById id with
     | none => false
     | some l => l.shares.any (fun h => (l.desc.tiles h.vd).any (fun vt =>
         (s.tile vt).halted || (turns vt && (!h.entered.contains vt || h.held != 0 || h.saved.contains vt)))))

/-- The fabric of a launch is idle now (R359, R410). -/
def State.fabricIdle (s : State) (id : Nat) : Bool :=
  !s.net.any (fun p => p.pl.launch == id) && !s.sends.any (fun r => r.launch == id) && !s.engineBusy id && !s.paceQueued id && !s.tileHeld id &&
    !s.faultOut id

/-! The detector. -/

/-- A share has a tile that it could enter or re-enter now. -/
def State.shareEnters (s : State) (l : Launch) (h : Share) : Bool :=
  (l.desc.tiles h.vd).any (fun vt => (s.entryOpen l h vt).isSome || (h.saved.contains vt && (s.control 1 l.id vt).isSome && s.tileOpen vt &&
    s.allOutside vt (s.rectLive h.vd l.desc.rect)))

/-- A share can deal groups to a unit now, or ask another die for some. -/
def State.shareDeals (s : State) (l : Launch) (h : Share) : Bool :=
  (s.dieUnits l.desc h.vd).any (fun u => (s.refillOpen l h u.1 u.2).isSome) || (l.stateOf h == .stealing && (h.asking.isSome || s.unitOut l h))

/-- A dispatcher of the launch can deal or enter (R359). -/
def State.canDeal (s : State) (l : Launch) : Bool :=
  l.ended || s.answers.any (fun a => a.launch == l.id) || l.shares.any (fun h => s.shareEnters l h || s.shareDeals l h)

/-- Every core of the launch is listed or has left, and one is listed. -/
def State.allListed (s : State) (id : Nat) : Bool :=
  let ks := s.coresOf id
  !ks.isEmpty && ks.all (fun k => s.coreListed ⟨k / 192, k % 192⟩)

/-- Context 0 of a core leaves HANG to another event: a due pre-emption or WAIT_LIMIT (Table 113), or stores of its frame that are held back. -/
def State.hangYields (s : State) (c : CtxId) : Bool :=
  (s.ctx c).st.runs && (s.preempting c.core || (s.limitDue c).isSome || (s.pushHeld c).isSome)

/-- The core is the shadow of a pair: its primary's context 0 stands for both. -/
def State.isShadow (s : State) (c : CoreId) : Bool := match (s.core c).tandem with | some t => !t.primary | none => false

/-- Context 0 of a listed core takes HANG imprecisely at the instruction it stands at; its wait is made afresh on return (R359). -/
def State.hangAt (s : State) (id : Nat) : List Nat → State
  | [] => s
  | k :: r =>
    let c : CtxId := ⟨⟨k / 192, k % 192⟩, 0⟩
    (if !(s.ctx c).st.runs || s.isShadow c.core || s.hangYields c then s
     else s.takeTrapTag c (s.ctx c).pc true true 0 (Cause.at_ .hang (BitVec.ofNat 64 id))).hangAt id r

/-- HANG: the detector is armed, every core listed, nothing to deal, the fabric idle for 4,096 router cycles. It stays armed where a context 0 takes
another event. -/
def State.hang (s : State) (id : Nat) : State :=
  match s.launchById id with
  | none => s
  | some l =>
    if l.hangArmed && s.allListed id && !s.canDeal l && s.fabricIdle id && decide (2048 ≤ s.edges - l.idleSince) then
      let yields := (s.coresOf id).any (fun k => s.hangYields ⟨⟨k / 192, k % 192⟩, 0⟩)
      (s.modLaunch id (fun l => { l with hangArmed := yields })).hangAt id (s.coresOf id)
    else s

/-- Time passes for the detector of a launch: the idle time of a fabric that is busy starts again, as it does where the fabric is used
(`State.useFabric`), and the detector arms when some core is not listed, as it does where one issues (`State.granted`). -/
def State.hangTick (s : State) (l : Launch) : Launch :=
  { l with idleSince := if s.fabricIdle l.id then l.idleSince else s.edges, hangArmed := l.hangArmed || !s.allListed l.id }

/-! Time. -/

/-- Nanoseconds that a region counts more than the reference counts, by its own clock, in the ns that follow pace `at_` (R451). -/
def Tile.own (t : Tile) (at_ ns : Nat) : Int := ((at_ + ns : Nat) : Int) * t.drift / 10000 - (at_ : Int) * t.drift / 10000

/-- The offset of a region's pace after ns nanoseconds (R385, R386; log 45). An uncertain region goes by its own clock, at half rate while it is ahead
of the reference it receives. A certain one stays within 10 ns of it, and slews toward it while it receives it. No pace decreases. -/
def Tile.slew (t : Tile) (at_ ns : Nat) : Int :=
  let half : Int := ((at_ + ns) / 2 - at_ / 2 : Nat)
  let tracks := t.missed == 0 && !t.refLost
  let own := t.own at_ ns
  if t.uncertain then
    (if tracks && decide (0 < t.ofs) then max (max 0 (t.ofs + own - half)) (t.ofs - ns) else max (t.ofs + own) (t.ofs - ns))
  else if t.drift ≠ 0 then max (-10) (min 10 (t.ofs + own))
  else if !tracks then t.ofs
  else if 0 < t.ofs then max 0 (t.ofs - half)
  else min 0 (t.ofs + half)

/-- Time passes in a clock region (R449). -/
def Tile.pass (t : Tile) (at_ ns edges : Nat) : Tile :=
  { t with sinceStretch := min 4 (t.sinceStretch + edges), ofs := t.slew at_ ns,
           lag := t.lag + (if t.sinceStretch = 0 ∧ 0 < edges then 5000 else 0) - (if t.refLost then t.drift * edges else 0) }

/-- Time passes: nanoseconds of the reference pace (R385), core clock edges (R39), the clock regions, and the launches' detectors. -/
def State.tickAll (s : State) (ns edges : Nat) : State :=
  let at_ := s.pace
  let s := { s with pace := at_ + ns, edges := s.edges + edges, tiles := s.tiles.map (fun (t : Nat × Tile) => (t.1, t.2.pass at_ ns edges)) }
  { s with launches := s.launches.map s.hangTick }

/-- Every context 0 of launch k takes HANG (R359). -/
def execHang (s : State) : Out := .next (s.hang s.ev.k)

end Sys2Proof.Machine
end

