-- ==== Sys2Proof/Machine/Bridge.lean ====
section
/-! DEFINITION. The host bridge (R458, R459). -/

namespace Sys2Proof.Machine

open Sys2Proof

/-- The die of the bridge's site. -/
def State.bridgeDie (s : State) : Nat := match dieAt s.panel 0 with | some d => d | none => (dieAt s.panel 63).getD 0

/-- A parked panel wakes for an access of the bridge (R463). -/
def State.rousePanel (s : State) : State := if s.power 0 8 2 = 2 then s.unpark else s

/-- A failure goes to the completion record at CTR 0, with the cause in byte 5 and the DETAIL in byte 6; the other fields of Table 103
are free there (log 2). -/
def State.bridgeFail (s : State) (cause detail : Nat) : State :=
  let (f, s) := s.drawBytes 4
  let b := f.take 5 ++ natLe 1 cause ++ natLe 1 detail ++ (f.drop 7).take 7 ++ natLe 2 0 ++ (f.drop 16).take 16 ++ List.replicate 32 0
  { s with bridge := { s.bridge with out := s.bridge.out ++ [(s.bridge.base.toNat, b)], irqs := s.bridge.irqs + 1 } }

/-- A write to BAR 2: a launch descriptor for virtual die 0's dispatcher in supervisor mode, or dropped and counted. -/
def State.bridgeLaunch (s : State) (off : Nat) (b : List Byte) : State :=
  if !s.bridgeLive then s
  else if b.length ≠ 128 ∨ off % 128 ≠ 0 ∨ 8192 ≤ off then { s with bridge := { s.bridge with dropped := s.bridge.dropped + 1 } }
  else
    match s.validate 0 true b with
    | .error (c, n) => s.bridgeFail c.code n
    | .ok (d, x, s) => (s.accept 0 d x).2

/-- The pointer of an offset of the data window (Table 136). -/
def State.windowPtr (s : State) (off : Nat) : Word := BitVec.ofNat 64 (5 * 2 ^ 53 + s.bridge.win * 2 ^ 46 + off % 2 ^ 32)

/-- One access of the bridge, checked at its home: the flat address, or why not. `taken`: it waited there for its page (R188). -/
def State.bridgeAt (s : State) (p : Word) (n : Nat) (k : AKind) (taken : Bool) : Except (HomeFault × State) (Nat × State) :=
  if s.spaceFault p then .error (⟨.space, 0⟩, s)
  else
    let home := s.home ⟨0, 0⟩ p
    let s := s.rousePanel
    let s := if s.power s.bridgeDie 8 2 = 1 then s.setPower s.bridgeDie 8 2 0 else s
    let (ifc, s) := (s.rousePath home 64 s.bridgeDie).receiver home p
    if s.pathLost s.bridgeDie home then .error (⟨.uncorrectable, 0⟩, s) else s.homeAddr ⟨0, 0⟩ ifc ifc home true taken p n k

/-- A failed access is recorded by its home and reported to the host. -/
def State.bridgeLost (s : State) (p : Word) (cause detail : Nat) : State :=
  let s := if s.spaceFault p then s else s.recordFail (s.home ⟨0, 0⟩ p) p 0 (identOf 0 0xff 0) cause 0
  s.bridgeFail cause detail

/-- Naturally aligned parts of 8, 4, 2 and 1 bytes, ascending, that cover exactly the enabled bytes [lo, lo + 2^k) (R459). -/
def putParts (on : Nat → Bool) : Nat → Nat → List (Nat × Nat)
  | 0, lo => if on lo then [(lo, 1)] else []
  | k + 1, lo =>
    if (List.range (2 ^ (k + 1))).all (fun i => on (lo + i)) then [(lo, 2 ^ (k + 1))]
    else putParts on k lo ++ putParts on k (lo + 2 ^ k)

/-- PUTs in ascending address, performed in order. One whose page is absent waits at its home, and the later ones wait behind it (R187, R188). -/
def State.bridgePuts (s : State) (taken : Bool) : List (Word × List Byte) → State
  | [] => { s with bridge := { s.bridge with held := [] } }
  | (p, b) :: r =>
    match s.bridgeAt p b.length .write taken with
    | .ok (a, s) => ((s.touch ⟨⟨0, 0⟩, 16⟩ a b.length).poke a b).bridgePuts false r
    | .error (f, s) =>
      if f.cause = .pageAbsent then
        let (tok, s) := s.engAbsent 0 p 0 (identOf 0 0xff 0) 0
        { s with bridge := { s.bridge with held := (p, b) :: r, token := tok } }
      else (s.bridgeLost p f.cause.code f.detail).bridgePuts false r

/-- The waiting PUTs go on, once the first waits for no pager core; one whose page cannot be had is lost (R189). -/
def State.bridgeGo (s : State) : State :=
  if s.bridge.token.isSome then s
  else
    match s.bridge.held, s.bridge.tokFail with
    | (p, _) :: r, some c => (({ s with bridge := { s.bridge with tokFail := none } } : State).bridgeLost p c 0).bridgePuts false r
    | l, _ => s.bridgePuts true l

/-- A write to BAR 4 with its byte enables. -/
def State.bridgeWrite (s : State) (off : Nat) (b : List Byte) (en : List Bool) : State :=
  if !s.bridgeLive || decide (2 ^ 32 < off + b.length) then s
  else
    let on := fun i => decide (off ≤ i) && decide (i < off + b.length) && en.getD (i - off) true
    let parts := (List.range ((off + b.length + 7) / 8 - off / 8)).flatMap (fun i => putParts on 3 ((off / 8 + i) * 8))
    let puts := parts.map (fun x => (s.windowPtr x.1, (b.drop (x.1 - off)).take x.2))
    if s.bridge.held.isEmpty then s.bridgePuts false puts
    else { s with bridge := { s.bridge with held := s.bridge.held ++ puts } }

/-- GETs of aligned words: the bytes, all ones for a word that fails. An absent page leaves an entry whose token is the DETAIL (R171). -/
def State.bridgeGets (s : State) : List Nat → List Byte × State
  | [] => ([], s)
  | w :: r =>
    let p := s.windowPtr w
    let (b, s) : List Byte × State := match s.bridgeAt p 8 .read false with
      | .ok (a, s) => (s.bytes a 8, s.touch ⟨⟨0, 0⟩, 16⟩ a 8)
      | .error (f, s) =>
        (List.replicate 8 0xff,
          if f.cause = .pageAbsent then
            let (tok, s) := s.engAbsent 0 p 0 (identOf 0 0xff 0) 0
            s.bridgeFail f.cause.code (tok.elim 255 (fun x => x.2))
          else s.bridgeLost p f.cause.code f.detail)
    let (l, s) := s.bridgeGets r
    (b ++ l, s)

/-- A read of n bytes from BAR 4; it waits while PUTs before it wait (R187). -/
def State.bridgeRead (s : State) (off n : Nat) : State :=
  if !s.bridgeLive || decide (2 ^ 32 < off + n) || !s.bridge.held.isEmpty then s
  else
    let (l, s) := s.bridgeGets ((List.range ((off + n + 7) / 8 - off / 8)).map (fun i => (off / 8 + i) * 8))
    { s with bridge := { s.bridge with data := (l.drop (off % 8)).take n } }

/-- A write to BAR 0 (Table 136). -/
def State.bridgeControl (s : State) (off : Nat) (w : Word) : State :=
  if !s.bridgeLive then s
  else
    match off with
    | 0x00 => if w.toNat % 64 = 0 then { s with bridge := { s.bridge with base := w } } else s
    | 0x08 => { s with bridge := { s.bridge with win := w.toNat % 64 } }
    | _ => s

/-- A read of n bytes at an offset of BAR 0; the bytes beyond its words the spec leaves open. -/
def State.bridgeBar (s : State) (off n : Nat) : State :=
  if !s.bridgeLive || decide (65536 < off + n) then s
  else
    let (f, s) := s.drawBytes (n / 8 + 1)
    let regs := natLe 8 s.bridge.base.toNat ++ natLe 8 s.bridge.win ++ natLe 8 s.bridge.dropped
    { s with bridge := { s.bridge with data := ((regs.drop off).take n ++ f).take n } }

/-- A configuration request for n bytes is answered; with what, the spec leaves open. -/
def State.bridgeConfig (s : State) (n : Nat) : State :=
  if !s.bridgeLive then s
  else
    let (f, s) := s.drawBytes (n / 8 + 1)
    { s with bridge := { s.bridge with data := f.take n } }

/-- A write of `bytes` at offset k of BAR 2 (R459). -/
def execBridgeLaunchWrite (s : State) : Out := .next (s.bridgeLaunch s.ev.k s.ev.bytes)

/-- A write of `bytes` at offset k of BAR 4 with byte enables `enables`; with `flag` the PUTs that wait go on (R188, R459). -/
def execBridgeDataWrite (s : State) : Out := .next (if s.ev.flag then s.bridgeGo else s.bridgeWrite s.ev.k s.ev.bytes s.ev.enables)

/-- A read of m bytes at offset k of BAR 4 (R459). -/
def execBridgeDataRead (s : State) : Out := .next (s.bridgeRead s.ev.k s.ev.m)

/-- A write of w at offset k of BAR 0; with `flag` a read of m bytes there; with `flag2` a configuration request for m bytes (R458). -/
def execBridgeControlWrite (s : State) : Out :=
  .next (if s.ev.flag2 then s.bridgeConfig s.ev.m else if s.ev.flag then s.bridgeBar s.ev.k s.ev.m else s.bridgeControl s.ev.k s.ev.w)

/-- Any other request is refused with Unsupported Request: no value of the machine changes (R458). -/
def execUnsupportedRequest (s : State) : Out := .next s

end Sys2Proof.Machine
end

