-- ==== Sys2Proof/Machine/Integer.lean ====
section
/-! DEFINITION. Integer majors 0x01–0x17 (R129–R132, Table 50, Table 51). None takes an execution trap or sets a flag. -/

namespace Sys2Proof.Machine

open Sys2Proof

/-- Sign-extend a 32-bit result. -/
def sx32 (x : BitVec 32) : Word := x.signExtend 64

/-- The low 32 bits of a word. -/
def lo32 (x : Word) : BitVec 32 := x.setWidth 32

/-- SatS of R99. -/
def satS (n : Nat) (v : Int) : Int := min (max v (-(2 ^ (n - 1) : Nat))) ((2 ^ (n - 1) : Nat) - 1)

/-- SatU of R99. -/
def satU (n : Nat) (v : Int) : Int := min (max v 0) ((2 ^ n : Nat) - 1)

/-- Signed quotient of R100: truncated, all ones on a zero divisor, the most negative value kept on −1. -/
def divS {n : Nat} (a b : BitVec n) : BitVec n := if b = 0 then BitVec.allOnes n else BitVec.sdiv a b

/-- Unsigned quotient of R100. -/
def divU {n : Nat} (a b : BitVec n) : BitVec n := if b = 0 then BitVec.allOnes n else a / b

/-- Signed remainder of R100: the sign of the dividend; the dividend on a zero divisor. -/
def remS {n : Nat} (a b : BitVec n) : BitVec n := if b = 0 then a else BitVec.srem a b

/-- Unsigned remainder of R100. -/
def remU {n : Nat} (a b : BitVec n) : BitVec n := if b = 0 then a else a % b

/-- Bits [127:64] of a product. -/
def mulHigh (a b : Int) : Word := BitVec.ofInt 64 (a * b / (2 ^ 64 : Nat))

/-- Leading zero bits. -/
def clz64 (a : Word) : Word := BitVec.ofNat 64 (64 - bitLen a.toNat)

/-- Trailing zero bits from bit i on, over n bits. -/
def ctzFrom (a : Word) : Nat → Nat → Nat
  | 0, i => i
  | n + 1, i => if a.getLsbD i then i else ctzFrom a n (i + 1)

def ctz64 (a : Word) : Word := BitVec.ofNat 64 (ctzFrom a 64 0)

/-- Number of 1 bits among the low n bits. -/
def popFrom (a : Nat) : Nat → Nat
  | 0 => 0
  | n + 1 => popFrom a n + a / 2 ^ n % 2

def popc64 (a : Word) : Word := BitVec.ofNat 64 (popFrom a.toNat 64)

/-- Position and width of BFX and BFI: p = b[5:0], w = Min(b[11:6] + 1, 64 − p). -/
def bfPos (b : Word) : Nat := (b.extractLsb' 0 6).toNat
def bfWidth (b : Word) : Nat := min ((b.extractLsb' 6 6).toNat + 1) (64 - bfPos b)

def bfxU (a b : Word) : Word := BitVec.ofNat 64 (natBits a.toNat (bfPos b) (bfWidth b))
def bfxS (a b : Word) : Word := BitVec.ofInt 64 (signedOf (bfWidth b) (natBits a.toNat (bfPos b) (bfWidth b)))
def bfi (d a b : Word) : Word := setField d (bfPos b) (bfWidth b) a.toNat

/-- Shift amounts: b[5:0] and b[4:0]. -/
def sh6 (b : Word) : Nat := (b.extractLsb' 0 6).toNat
def sh5 (b : Word) : Nat := (b.extractLsb' 0 5).toNat

/-- ADD (R129, Table 50). -/
def execAdd (s : State) : Out := .next (issue .add (bodyAB (fun a b => a + b)) s)

/-- ADD_W (R129, Table 50). -/
def execAddW (s : State) : Out := .next (issue .addW (bodyAB (fun a b => sx32 (lo32 a + lo32 b))) s)

/-- ADD_SS (R129, Table 50). -/
def execAddSs (s : State) : Out := .next (issue .addSs (bodyAB (fun a b => BitVec.ofInt 64 (satS 64 (a.toInt + b.toInt)))) s)

/-- ADD_US (R129, Table 50). -/
def execAddUs (s : State) : Out := .next (issue .addUs (bodyAB (fun a b => BitVec.ofInt 64 (satU 64 ((a.toNat : Int) + b.toNat)))) s)

/-- SUB (R129, Table 50). -/
def execSub (s : State) : Out := .next (issue .sub (bodyAB (fun a b => a - b)) s)

/-- SUB_W (R129, Table 50). -/
def execSubW (s : State) : Out := .next (issue .subW (bodyAB (fun a b => sx32 (lo32 a - lo32 b))) s)

/-- SUB_SS (R129, Table 50). -/
def execSubSs (s : State) : Out := .next (issue .subSs (bodyAB (fun a b => BitVec.ofInt 64 (satS 64 (a.toInt - b.toInt)))) s)

/-- SUB_US (R129, Table 50). -/
def execSubUs (s : State) : Out := .next (issue .subUs (bodyAB (fun a b => BitVec.ofInt 64 (satU 64 ((a.toNat : Int) - b.toNat)))) s)

/-- MUL (R129, Table 50). -/
def execMul (s : State) : Out := .next (issue .mul (bodyAB (fun a b => a * b)) s)

/-- MUL_W (R129, Table 50). -/
def execMulW (s : State) : Out := .next (issue .mulW (bodyAB (fun a b => sx32 (lo32 a * lo32 b))) s)

/-- MULH_SS (R129, Table 50). -/
def execMulhSs (s : State) : Out := .next (issue .mulhSs (bodyAB (fun a b => mulHigh a.toInt b.toInt)) s)

/-- MULH_UU (R129, Table 50). -/
def execMulhUu (s : State) : Out := .next (issue .mulhUu (bodyAB (fun a b => mulHigh a.toNat b.toNat)) s)

/-- MULH_SU (R129, Table 50). -/
def execMulhSu (s : State) : Out := .next (issue .mulhSu (bodyAB (fun a b => mulHigh a.toInt b.toNat)) s)

/-- DIV (R129, Table 50). -/
def execDiv (s : State) : Out := .next (issue .div (bodyAB (fun a b => divS a b)) s)

/-- DIV_U (R129, Table 50). -/
def execDivU (s : State) : Out := .next (issue .divU (bodyAB (fun a b => divU a b)) s)

/-- DIV_W (R129, Table 50). -/
def execDivW (s : State) : Out := .next (issue .divW (bodyAB (fun a b => sx32 (divS (lo32 a) (lo32 b)))) s)

/-- DIV_UW (R129, Table 50). -/
def execDivUw (s : State) : Out := .next (issue .divUw (bodyAB (fun a b => (divU (lo32 a) (lo32 b)).setWidth 64)) s)

/-- REM (R129, Table 50). -/
def execRem (s : State) : Out := .next (issue .rem (bodyAB (fun a b => remS a b)) s)

/-- REM_U (R129, Table 50). -/
def execRemU (s : State) : Out := .next (issue .remU (bodyAB (fun a b => remU a b)) s)

/-- REM_W (R129, Table 50). -/
def execRemW (s : State) : Out := .next (issue .remW (bodyAB (fun a b => sx32 (remS (lo32 a) (lo32 b)))) s)

/-- REM_UW (R129, Table 50). -/
def execRemUw (s : State) : Out := .next (issue .remUw (bodyAB (fun a b => (remU (lo32 a) (lo32 b)).setWidth 64)) s)

/-- AND (R129, Table 50). -/
def execAndR (s : State) : Out := .next (issue .andR (bodyAB (fun a b => a &&& b)) s)

/-- OR (R129, Table 50). -/
def execOrR (s : State) : Out := .next (issue .orR (bodyAB (fun a b => a ||| b)) s)

/-- XOR (R129, Table 50). -/
def execXor (s : State) : Out := .next (issue .xor (bodyAB (fun a b => a ^^^ b)) s)

/-- ANDN (R129, Table 50). -/
def execAndn (s : State) : Out := .next (issue .andn (bodyAB (fun a b => a &&& ~~~b)) s)

/-- SHL (R129, Table 50). -/
def execShl (s : State) : Out := .next (issue .shl (bodyAB (fun a b => a <<< sh6 b)) s)

/-- SHL_W (R129, Table 50). -/
def execShlW (s : State) : Out := .next (issue .shlW (bodyAB (fun a b => sx32 (lo32 a <<< sh5 b))) s)

/-- SHR (R129, Table 50). -/
def execShr (s : State) : Out := .next (issue .shr (bodyAB (fun a b => a >>> sh6 b)) s)

/-- SHR_A (R129, Table 50). -/
def execShrA (s : State) : Out := .next (issue .shrA (bodyAB (fun a b => a.sshiftRight (sh6 b))) s)

/-- SHR_W (R129, Table 50). -/
def execShrW (s : State) : Out := .next (issue .shrW (bodyAB (fun a b => sx32 (lo32 a >>> sh5 b))) s)

/-- SHR_AW (R129, Table 50). -/
def execShrAw (s : State) : Out := .next (issue .shrAw (bodyAB (fun a b => sx32 ((lo32 a).sshiftRight (sh5 b)))) s)

/-- ROT (R129, Table 50). -/
def execRot (s : State) : Out := .next (issue .rot (bodyAB (fun a b => a.rotateRight (sh6 b))) s)

/-- ROT_L (R129, Table 50). -/
def execRotL (s : State) : Out := .next (issue .rotL (bodyAB (fun a b => a.rotateLeft (sh6 b))) s)

/-- ROT_W (R129, Table 50). -/
def execRotW (s : State) : Out := .next (issue .rotW (bodyAB (fun a b => sx32 ((lo32 a).rotateRight (sh5 b)))) s)

/-- ROT_LW (R129, Table 50). -/
def execRotLw (s : State) : Out := .next (issue .rotLw (bodyAB (fun a b => sx32 ((lo32 a).rotateLeft (sh5 b)))) s)

/-- MIN (R129, Table 50). -/
def execMin (s : State) : Out := .next (issue .min (bodyAB (fun a b => if a.slt b then a else b)) s)

/-- MIN_U (R129, Table 50). -/
def execMinU (s : State) : Out := .next (issue .minU (bodyAB (fun a b => if a.ult b then a else b)) s)

/-- MAX (R129, Table 50). -/
def execMax (s : State) : Out := .next (issue .max (bodyAB (fun a b => if a.slt b then b else a)) s)

/-- MAX_U (R129, Table 50). -/
def execMaxU (s : State) : Out := .next (issue .maxU (bodyAB (fun a b => if a.ult b then b else a)) s)

/-- BCNT_CLZ (R129, Table 50). -/
def execBcntClz (s : State) : Out := .next (issue .bcntClz (bodyA (fun a => clz64 a)) s)

/-- BCNT_CTZ (R129, Table 50). -/
def execBcntCtz (s : State) : Out := .next (issue .bcntCtz (bodyA (fun a => ctz64 a)) s)

/-- BCNT_POPC (R129, Table 50). -/
def execBcntPopc (s : State) : Out := .next (issue .bcntPopc (bodyA (fun a => popc64 a)) s)

/-- EXT_S8 (R129, Table 50). -/
def execExtS8 (s : State) : Out := .next (issue .extS8 (bodyA (fun a => (a.extractLsb' 0 8).signExtend 64)) s)

/-- EXT_S16 (R129, Table 50). -/
def execExtS16 (s : State) : Out := .next (issue .extS16 (bodyA (fun a => (a.extractLsb' 0 16).signExtend 64)) s)

/-- EXT_S32 (R129, Table 50). -/
def execExtS32 (s : State) : Out := .next (issue .extS32 (bodyA (fun a => sx32 (lo32 a))) s)

/-- EXT_Z8 (R129, Table 50). -/
def execExtZ8 (s : State) : Out := .next (issue .extZ8 (bodyA (fun a => (a.extractLsb' 0 8).setWidth 64)) s)

/-- EXT_Z16 (R129, Table 50). -/
def execExtZ16 (s : State) : Out := .next (issue .extZ16 (bodyA (fun a => (a.extractLsb' 0 16).setWidth 64)) s)

/-- EXT_Z32 (R129, Table 50). -/
def execExtZ32 (s : State) : Out := .next (issue .extZ32 (bodyA (fun a => (lo32 a).setWidth 64)) s)

/-- BFX_U (R129, Table 50). -/
def execBfxU (s : State) : Out := .next (issue .bfxU (bodyAB (fun a b => bfxU a b)) s)

/-- BFX_S (R129, Table 50). -/
def execBfxS (s : State) : Out := .next (issue .bfxS (bodyAB (fun a b => bfxS a b)) s)

/-- BFI (R129, Table 50). -/
def execBfi (s : State) : Out := .next (issue .bfi (bodyDAB (fun d a b => bfi d a b)) s)

/-- CMP_EQ (R130). -/
def execCmpEq (s : State) : Out := .next (issue .cmpEq (bodyCmp (fun a b => a == b)) s)

/-- CMP_NE (R130). -/
def execCmpNe (s : State) : Out := .next (issue .cmpNe (bodyCmp (fun a b => a != b)) s)

/-- CMP_LT (R130). -/
def execCmpLt (s : State) : Out := .next (issue .cmpLt (bodyCmp (fun a b => a.slt b)) s)

/-- CMP_GE (R130). -/
def execCmpGe (s : State) : Out := .next (issue .cmpGe (bodyCmp (fun a b => !a.slt b)) s)

/-- CMP_LTU (R130). -/
def execCmpLtu (s : State) : Out := .next (issue .cmpLtu (bodyCmp (fun a b => a.ult b)) s)

/-- CMP_GEU (R130). -/
def execCmpGeu (s : State) : Out := .next (issue .cmpGeu (bodyCmp (fun a b => !a.ult b)) s)

/-- SEL: a when p[FN][0] is 1, else b (Table 50). -/
def execSel (s : State) : Out := .next (issue .sel (fun e s => e.put s (if predBit (s.rp e.me (e.o.fn.setWidth 5)) 0 then e.a s else e.b s)) s)

/-- LI.lo: B (R131). -/
def execLiLo (s : State) : Out := .next (issue .liLo (fun e s => e.put s (e.b s)) s)

/-- LI.hi: B[31:0] above the low half of s[D] (R131). -/
def execLiHi (s : State) : Out := .next (issue .liHi (fun e s => e.put s (lo32 (e.b s) ++ lo32 (e.dv s))) s)

/-- MOV (Table 51). -/
def execMov (s : State) : Out := .next (issue .mov (bodyA (fun a => a)) s)

/-- MOV.p (Table 51). -/
def execMovP (s : State) : Out := .next (issue .movP (fun e s => e.putP s (s.rp e.me e.o.s1)) s)

/-- MOV.sp: the predicate zero-extended (Table 51). -/
def execMovSp (s : State) : Out := .next (issue .movSp (fun e s => e.put s ((s.rp e.me e.o.s1).setWidth 64)) s)

/-- MOV.ps: s[S1][15:0] (Table 51). -/
def execMovPs (s : State) : Out := .next (issue .movPs (fun e s => e.putP s ((e.a s).setWidth 16)) s)

/-- p[S2], or the zero immediate when T ≥ 2 (R132). -/
def Env.pb (e : Env) (s : State) : Half := if decide (2 ≤ e.o.t.toNat) then 0 else s.rp e.me e.o.s2

/-- MOV.pand (Table 51). -/
def execMovPand (s : State) : Out := .next (issue .movPand (fun e s => e.putP s (s.rp e.me e.o.s1 &&& e.pb s)) s)

/-- MOV.por (Table 51). -/
def execMovPor (s : State) : Out := .next (issue .movPor (fun e s => e.putP s (s.rp e.me e.o.s1 ||| e.pb s)) s)

/-- MOV.pnot (Table 51). -/
def execMovPnot (s : State) : Out := .next (issue .movPnot (fun e s => e.putP s (~~~(s.rp e.me e.o.s1))) s)

end Sys2Proof.Machine
end

