-- ==== Sys2Proof/Machine/PtrOps.lean ====
section
/-! DEFINITION. Pointer majors 0x18–0x1d (R133–R138). They change fat pointers and access no memory. -/

namespace Sys2Proof.Machine

open Sys2Proof

/-- ADDP and ADDP.b: the pointer advanced, or its fault with TRAPVAL A (R134). -/
def bodyAddp (scaled : Bool) : Body := fun e s =>
  match addP s (e.a s) (e.b s).toInt scaled with
  | .ok q => e.put s q
  | .error c => e.trap s c (e.a s)

/-- SUBP and SUBP.b (R135): the checks of A, then equal bits above the offset fields, with TRAPVAL B. -/
def bodySubp (scaled : Bool) : Body := fun e s =>
  let a := e.a s
  let b := e.b s
  match ptrFault s a with
  | some c => e.trap s c a
  | none =>
    let w := offWidth (pSpc a)
    if a.toNat / 2 ^ w ≠ b.toNat / 2 ^ w then e.trap s .space b
    else
      let d : Int := (pOff a : Int) - (b.toNat % 2 ^ w : Nat)
      e.put s (BitVec.ofInt 64 (Int.tdiv d (ptrUnit a scaled)))

/-- MKP (R136). -/
def bodyMkp : Body := fun e s =>
  let a := e.a s
  let b := e.b s
  if 6 ≤ pSpc a then e.trap s .space a
  else if b.slt 0 ∨ 2 ^ offWidth (pSpc a) ≤ b.toNat then e.trap s .offsetOverflow a
  else e.put s (setField a 0 (offWidth (pSpc a)) b.toNat)

/-- A pointer field: lowest bit and width in a space, when it exists there (Table 53). -/
def ptrField (f spc : Nat) : Option (Nat × Nat) :=
  match f with
  | 0 => some (59, 5)
  | 1 => some (56, 3)
  | 2 => some (53, 3)
  | 3 => some (52, 1)
  | 4 => if spc = 1 ∨ spc = 2 ∨ spc = 4 then some (43, 9) else none
  | 5 => if spc = 3 ∨ spc = 5 then some (46, 6) else none
  | 6 => if spc < 6 then some (0, offWidth2 spc) else none
  | _ => if spc = 2 then some (35, 8) else none

/-- PSET: a value too wide traps OFFSET_OVERFLOW for .off and SPACE for the others (R137). -/
def bodyPset (f : Nat) : Body := fun e s =>
  let a := e.a s
  match ptrField f (pSpc a) with
  | none => e.trap s .space a
  | some (lo, w) =>
    if 2 ^ w ≤ (e.b s).toNat then e.trap s (if f = 6 then .offsetOverflow else .space) a
    else e.put s (setField a lo w (e.b s).toNat)

/-- PGET (R137). -/
def bodyPget (f : Nat) : Body := fun e s =>
  let a := e.a s
  match ptrField f (pSpc a) with
  | none => e.trap s .space a
  | some (lo, w) => e.put s (BitVec.ofNat 64 (natBits a.toNat lo w))

/-- PABS (R138). -/
def bodyPabs : Body := fun e s =>
  match absPtr e.me.core (e.a s) with
  | none => e.trap s .space (e.a s)
  | some q => e.put s q

/-- ADDP, scaled (R134). -/
def execAddp (s : State) : Out := .next (issue .addp (bodyAddp true) s)

/-- ADDP.b, bytes (R134). -/
def execAddpB (s : State) : Out := .next (issue .addpB (bodyAddp false) s)

/-- SUBP, elements (R135). -/
def execSubp (s : State) : Out := .next (issue .subp (bodySubp true) s)

/-- SUBP.b, bytes (R135). -/
def execSubpB (s : State) : Out := .next (issue .subpB (bodySubp false) s)

/-- MKP (R136). -/
def execMkp (s : State) : Out := .next (issue .mkp bodyMkp s)

/-- PSET.fmt (R137, Table 53). -/
def execPsetFmt (s : State) : Out := .next (issue .psetFmt (bodyPset 0) s)

/-- PSET.blk (R137, Table 53). -/
def execPsetBlk (s : State) : Out := .next (issue .psetBlk (bodyPset 1) s)

/-- PSET.spc (R137, Table 53). -/
def execPsetSpc (s : State) : Out := .next (issue .psetSpc (bodyPset 2) s)

/-- PSET.rel (R137, Table 53). -/
def execPsetRel (s : State) : Out := .next (issue .psetRel (bodyPset 3) s)

/-- PSET.tile (R137, Table 53). -/
def execPsetTile (s : State) : Out := .next (issue .psetTile (bodyPset 4) s)

/-- PSET.die (R137, Table 53). -/
def execPsetDie (s : State) : Out := .next (issue .psetDie (bodyPset 5) s)

/-- PSET.off (R137, Table 53). -/
def execPsetOff (s : State) : Out := .next (issue .psetOff (bodyPset 6) s)

/-- PSET.core (R137, Table 53). -/
def execPsetCore (s : State) : Out := .next (issue .psetCore (bodyPset 7) s)

/-- PGET.fmt (R137, Table 53). -/
def execPgetFmt (s : State) : Out := .next (issue .pgetFmt (bodyPget 0) s)

/-- PGET.blk (R137, Table 53). -/
def execPgetBlk (s : State) : Out := .next (issue .pgetBlk (bodyPget 1) s)

/-- PGET.spc (R137, Table 53). -/
def execPgetSpc (s : State) : Out := .next (issue .pgetSpc (bodyPget 2) s)

/-- PGET.rel (R137, Table 53). -/
def execPgetRel (s : State) : Out := .next (issue .pgetRel (bodyPget 3) s)

/-- PGET.tile (R137, Table 53). -/
def execPgetTile (s : State) : Out := .next (issue .pgetTile (bodyPget 4) s)

/-- PGET.die (R137, Table 53). -/
def execPgetDie (s : State) : Out := .next (issue .pgetDie (bodyPget 5) s)

/-- PGET.off (R137, Table 53). -/
def execPgetOff (s : State) : Out := .next (issue .pgetOff (bodyPget 6) s)

/-- PGET.core (R137, Table 53). -/
def execPgetCore (s : State) : Out := .next (issue .pgetCore (bodyPget 7) s)

/-- PABS (R138). -/
def execPabs (s : State) : Out := .next (issue .pabs bodyPabs s)

end Sys2Proof.Machine
end

