-- ==== Sys2Proof/Machine/ScalarFloat.lean ====
section
/-! DEFINITION. Scalar floating point, majors 0x30–0x37 (R139–R144). Values are FP32 in bits [31:0]; none takes an execution trap. -/

namespace Sys2Proof.Machine

open Sys2Proof

/-- The low 32 bits as a number. -/
def fbits (x : Word) : Nat := x.toNat % 2 ^ 32

/-- The NaN a scalar float instruction of a context generates (R116, R139). -/
def Env.gen0 (e : Env) : Nat := genNaN 1 0 e.me.ctx 0

/-- What a scalar float NaN of FP8 would widen to; no scalar operand is FP8. -/
def Env.fx (e : Env) (s : State) : FVal := f32 (fbits (e.a s))
def Env.fy (e : Env) (s : State) : FVal := f32 (fbits (e.b s))

/-- The rounding mode of the context as a number (Table 20). -/
def Env.rm (e : Env) (s : State) : Nat := (e.k s).mode.toNat

/-- Write a rounded result with its flags and SEED. -/
def Env.putF (e : Env) (s : State) (r : FpOut) : Except Stop (Ctl × State) :=
  let s := s.modCtx e.me (fun k => { k with ff := k.ff ||| r.fl, seed := r.seed })
  e.put s (BitVec.ofNat 64 r.bits)

/-- Round an exact result to a format under RMODE and write it. -/
def Env.putRound (e : Env) (s : State) (f : Fmt) (x : ExactF) : Except Stop (Ctl × State) :=
  e.putF s (finish f (e.rm s) false (e.k s).seed x)

/-- A function of x and y rounded to FP32 (R140, R144). -/
def bodyF2 (f : Nat → Nat → FVal → FVal → ExactF) : Body := fun e s =>
  e.putRound s .f32 (f (e.rm s) e.gen0 (e.fx s) (e.fy s))

/-- FMINMAX (R141). -/
def bodyFminmax (mx : Bool) : Body := fun e s =>
  let r := Fmt.f32.minMax mx (fbits (e.a s)) (fbits (e.b s))
  e.put (s.raise e.me r.2) (BitVec.ofNat 64 r.1)

/-- FCVT to a 64-bit integer (R118, Table 54). -/
def bodyToInt (lo hi : Int) : Body := fun e s =>
  let (v, fl, sd) := toInt (e.rm s) (e.k s).seed lo hi (e.fx s)
  e.put (s.modCtx e.me (fun k => { k with ff := k.ff ||| fl, seed := sd })) (BitVec.ofInt 64 v)

/-- FCVT from an integer value to FP32. -/
def bodyOfInt (v : Word → Int) : Body := fun e s => e.putRound s .f32 ((ofInt (v (e.a s))).exact, 0)

/-- FCVT from FP32 to a narrow format. -/
def bodyNarrow (f : Fmt) : Body := fun e s => e.putF s (convert f (e.rm s) false (e.k s).seed (e.fx s))

/-- FCVT from a 16-bit format to FP32, exact (R115). -/
def bodyWiden (f : Fmt) : Body := fun e s =>
  let r := f.widen 0 ((e.a s).toNat % 2 ^ 16)
  e.put (s.raise e.me r.2) (BitVec.ofNat 64 r.1)

/-- FCMP (R143). -/
def bodyFcmp (rel : Nat) : Body := fun e s =>
  let r := fcmp rel (e.fx s) (e.fy s)
  e.putP (s.raise e.me r.2) (allBits r.1)

/-- FADD (R140). -/
def execFadd (s : State) : Out := .next (issue .fadd (bodyF2 opAdd) s)

/-- FSUB: x − y; a NaN operand keeps its sign (R119, R140). -/
def execFsub (s : State) : Out := .next (issue .fsub (bodyF2 (fun m gn x y => opAdd m gn x y.negate)) s)

/-- FMUL (R140). -/
def execFmul (s : State) : Out := .next (issue .fmul (bodyF2 (fun _ gn x y => opMul gn x y)) s)

/-- FFMA: x × y + s[D][31:0], fused (R140). -/
def execFfma (s : State) : Out := .next (issue .ffma (fun e s => e.putRound s .f32 (opFma (e.rm s) e.gen0 (e.fx s) (e.fy s) (f32 (fbits (e.dv s))))) s)

/-- FMINMAX.min (R141). -/
def execFminmaxMin (s : State) : Out := .next (issue .fminmaxMin (bodyFminmax false) s)

/-- FMINMAX.max (R141). -/
def execFminmaxMax (s : State) : Out := .next (issue .fminmaxMax (bodyFminmax true) s)

/-- FCVT to INT64 (Table 54). -/
def execFcvtI64F32 (s : State) : Out := .next (issue .fcvtI64F32 (bodyToInt (-(2 ^ 63 : Nat)) ((2 ^ 63 : Nat) - 1)) s)

/-- FCVT from INT64 (Table 54). -/
def execFcvtF32I64 (s : State) : Out := .next (issue .fcvtF32I64 (bodyOfInt (fun a => a.toInt)) s)

/-- FCVT to an unsigned 64-bit integer (Table 54). -/
def execFcvtU64F32 (s : State) : Out := .next (issue .fcvtU64F32 (bodyToInt 0 ((2 ^ 64 : Nat) - 1)) s)

/-- FCVT from an unsigned 64-bit integer (Table 54). -/
def execFcvtF32U64 (s : State) : Out := .next (issue .fcvtF32U64 (bodyOfInt (fun a => a.toNat)) s)

/-- FCVT to FP16 (Table 54). -/
def execFcvtF16F32 (s : State) : Out := .next (issue .fcvtF16F32 (bodyNarrow .f16) s)

/-- FCVT from FP16 (Table 54). -/
def execFcvtF32F16 (s : State) : Out := .next (issue .fcvtF32F16 (bodyWiden .f16) s)

/-- FCVT to BF16 (Table 54). -/
def execFcvtBf16F32 (s : State) : Out := .next (issue .fcvtBf16F32 (bodyNarrow .bf16) s)

/-- FCVT from BF16 (Table 54). -/
def execFcvtF32Bf16 (s : State) : Out := .next (issue .fcvtF32Bf16 (bodyWiden .bf16) s)

/-- FCMP.eq (R143). -/
def execFcmpEq (s : State) : Out := .next (issue .fcmpEq (bodyFcmp 0) s)

/-- FCMP.lt (R143). -/
def execFcmpLt (s : State) : Out := .next (issue .fcmpLt (bodyFcmp 1) s)

/-- FCMP.le (R143). -/
def execFcmpLe (s : State) : Out := .next (issue .fcmpLe (bodyFcmp 2) s)

/-- FCMP.un (R143). -/
def execFcmpUn (s : State) : Out := .next (issue .fcmpUn (bodyFcmp 3) s)

/-- FSPEC.rcp (R144, Table 55). -/
def execFspecRcp (s : State) : Out := .next (issue .fspecRcp (bodyF2 (fun _ gn x _ => opRcp gn x)) s)

/-- FSPEC.rsqrt (R144, Table 55). -/
def execFspecRsqrt (s : State) : Out := .next (issue .fspecRsqrt (bodyF2 (fun _ gn x _ => opRsqrt gn x)) s)

/-- FSPEC.sqrt (R144, Table 55). -/
def execFspecSqrt (s : State) : Out := .next (issue .fspecSqrt (bodyF2 (fun _ gn x _ => opSqrt gn x)) s)

/-- FSPEC.div (R144). -/
def execFspecDiv (s : State) : Out := .next (issue .fspecDiv (bodyF2 (fun _ gn x y => opDiv gn x y)) s)

/-- FSPEC.exp2 (R144, Table 55). -/
def execFspecExp2 (s : State) : Out := .next (issue .fspecExp2 (bodyF2 (fun _ _ x _ => opExp2 x)) s)

/-- FSPEC.log2 (R144, Table 55). -/
def execFspecLog2 (s : State) : Out := .next (issue .fspecLog2 (bodyF2 (fun _ gn x _ => opLog2 gn x)) s)

end Sys2Proof.Machine
end

