-- ==== Sys2Proof/Machine/Dispatch.lean ====
section
/-! DEFINITION. One arm per row of the opcode table. -/

namespace Sys2Proof.Machine

open Sys2Proof

def exec (i : Instr) (s : State) : Host.Outcome State Fault Refusal :=
  match i with
  | .add => Sys2Proof.Machine.execAdd s
  | .addW => Sys2Proof.Machine.execAddW s
  | .addSs => Sys2Proof.Machine.execAddSs s
  | .addUs => Sys2Proof.Machine.execAddUs s
  | .sub => Sys2Proof.Machine.execSub s
  | .subW => Sys2Proof.Machine.execSubW s
  | .subSs => Sys2Proof.Machine.execSubSs s
  | .subUs => Sys2Proof.Machine.execSubUs s
  | .mul => Sys2Proof.Machine.execMul s
  | .mulW => Sys2Proof.Machine.execMulW s
  | .mulhSs => Sys2Proof.Machine.execMulhSs s
  | .mulhUu => Sys2Proof.Machine.execMulhUu s
  | .mulhSu => Sys2Proof.Machine.execMulhSu s
  | .div => Sys2Proof.Machine.execDiv s
  | .divU => Sys2Proof.Machine.execDivU s
  | .divW => Sys2Proof.Machine.execDivW s
  | .divUw => Sys2Proof.Machine.execDivUw s
  | .rem => Sys2Proof.Machine.execRem s
  | .remU => Sys2Proof.Machine.execRemU s
  | .remW => Sys2Proof.Machine.execRemW s
  | .remUw => Sys2Proof.Machine.execRemUw s
  | .andR => Sys2Proof.Machine.execAndR s
  | .orR => Sys2Proof.Machine.execOrR s
  | .xor => Sys2Proof.Machine.execXor s
  | .andn => Sys2Proof.Machine.execAndn s
  | .shl => Sys2Proof.Machine.execShl s
  | .shlW => Sys2Proof.Machine.execShlW s
  | .shr => Sys2Proof.Machine.execShr s
  | .shrA => Sys2Proof.Machine.execShrA s
  | .shrW => Sys2Proof.Machine.execShrW s
  | .shrAw => Sys2Proof.Machine.execShrAw s
  | .rot => Sys2Proof.Machine.execRot s
  | .rotL => Sys2Proof.Machine.execRotL s
  | .rotW => Sys2Proof.Machine.execRotW s
  | .rotLw => Sys2Proof.Machine.execRotLw s
  | .min => Sys2Proof.Machine.execMin s
  | .minU => Sys2Proof.Machine.execMinU s
  | .max => Sys2Proof.Machine.execMax s
  | .maxU => Sys2Proof.Machine.execMaxU s
  | .bcntClz => Sys2Proof.Machine.execBcntClz s
  | .bcntCtz => Sys2Proof.Machine.execBcntCtz s
  | .bcntPopc => Sys2Proof.Machine.execBcntPopc s
  | .extS8 => Sys2Proof.Machine.execExtS8 s
  | .extS16 => Sys2Proof.Machine.execExtS16 s
  | .extS32 => Sys2Proof.Machine.execExtS32 s
  | .extZ8 => Sys2Proof.Machine.execExtZ8 s
  | .extZ16 => Sys2Proof.Machine.execExtZ16 s
  | .extZ32 => Sys2Proof.Machine.execExtZ32 s
  | .bfxU => Sys2Proof.Machine.execBfxU s
  | .bfxS => Sys2Proof.Machine.execBfxS s
  | .bfi => Sys2Proof.Machine.execBfi s
  | .sel => Sys2Proof.Machine.execSel s
  | .cmpEq => Sys2Proof.Machine.execCmpEq s
  | .cmpNe => Sys2Proof.Machine.execCmpNe s
  | .cmpLt => Sys2Proof.Machine.execCmpLt s
  | .cmpGe => Sys2Proof.Machine.execCmpGe s
  | .cmpLtu => Sys2Proof.Machine.execCmpLtu s
  | .cmpGeu => Sys2Proof.Machine.execCmpGeu s
  | .liLo => Sys2Proof.Machine.execLiLo s
  | .liHi => Sys2Proof.Machine.execLiHi s
  | .mov => Sys2Proof.Machine.execMov s
  | .movP => Sys2Proof.Machine.execMovP s
  | .movSp => Sys2Proof.Machine.execMovSp s
  | .movPs => Sys2Proof.Machine.execMovPs s
  | .movPand => Sys2Proof.Machine.execMovPand s
  | .movPor => Sys2Proof.Machine.execMovPor s
  | .movPnot => Sys2Proof.Machine.execMovPnot s
  | .addp => Sys2Proof.Machine.execAddp s
  | .addpB => Sys2Proof.Machine.execAddpB s
  | .subp => Sys2Proof.Machine.execSubp s
  | .subpB => Sys2Proof.Machine.execSubpB s
  | .mkp => Sys2Proof.Machine.execMkp s
  | .psetFmt => Sys2Proof.Machine.execPsetFmt s
  | .psetBlk => Sys2Proof.Machine.execPsetBlk s
  | .psetSpc => Sys2Proof.Machine.execPsetSpc s
  | .psetRel => Sys2Proof.Machine.execPsetRel s
  | .psetTile => Sys2Proof.Machine.execPsetTile s
  | .psetDie => Sys2Proof.Machine.execPsetDie s
  | .psetOff => Sys2Proof.Machine.execPsetOff s
  | .psetCore => Sys2Proof.Machine.execPsetCore s
  | .pgetFmt => Sys2Proof.Machine.execPgetFmt s
  | .pgetBlk => Sys2Proof.Machine.execPgetBlk s
  | .pgetSpc => Sys2Proof.Machine.execPgetSpc s
  | .pgetRel => Sys2Proof.Machine.execPgetRel s
  | .pgetTile => Sys2Proof.Machine.execPgetTile s
  | .pgetDie => Sys2Proof.Machine.execPgetDie s
  | .pgetOff => Sys2Proof.Machine.execPgetOff s
  | .pgetCore => Sys2Proof.Machine.execPgetCore s
  | .pabs => Sys2Proof.Machine.execPabs s
  | .waitdep => Sys2Proof.Machine.execWaitdep s
  | .trigger => Sys2Proof.Machine.execTrigger s
  | .br => Sys2Proof.Machine.execBr s
  | .brpAny => Sys2Proof.Machine.execBrpAny s
  | .brpAll => Sys2Proof.Machine.execBrpAll s
  | .brpNone => Sys2Proof.Machine.execBrpNone s
  | .brpNall => Sys2Proof.Machine.execBrpNall s
  | .jal => Sys2Proof.Machine.execJal s
  | .jalr => Sys2Proof.Machine.execJalr s
  | .loop => Sys2Proof.Machine.execLoop s
  | .fork => Sys2Proof.Machine.execFork s
  | .join => Sys2Proof.Machine.execJoin s
  | .spawn => Sys2Proof.Machine.execSpawn s
  | .exit => Sys2Proof.Machine.execExit s
  | .yield => Sys2Proof.Machine.execYield s
  | .sleep => Sys2Proof.Machine.execSleep s
  | .trap => Sys2Proof.Machine.execTrap s
  | .trapBkpt => Sys2Proof.Machine.execTrapBkpt s
  | .upret => Sys2Proof.Machine.execUpret s
  | .eret => Sys2Proof.Machine.execEret s
  | .nop => Sys2Proof.Machine.execNop s
  | .nopSpin => Sys2Proof.Machine.execNopSpin s
  | .nopPhase => Sys2Proof.Machine.execNopPhase s
  | .fadd => Sys2Proof.Machine.execFadd s
  | .fsub => Sys2Proof.Machine.execFsub s
  | .fmul => Sys2Proof.Machine.execFmul s
  | .ffma => Sys2Proof.Machine.execFfma s
  | .fminmaxMin => Sys2Proof.Machine.execFminmaxMin s
  | .fminmaxMax => Sys2Proof.Machine.execFminmaxMax s
  | .fcvtI64F32 => Sys2Proof.Machine.execFcvtI64F32 s
  | .fcvtF32I64 => Sys2Proof.Machine.execFcvtF32I64 s
  | .fcvtU64F32 => Sys2Proof.Machine.execFcvtU64F32 s
  | .fcvtF32U64 => Sys2Proof.Machine.execFcvtF32U64 s
  | .fcvtF16F32 => Sys2Proof.Machine.execFcvtF16F32 s
  | .fcvtF32F16 => Sys2Proof.Machine.execFcvtF32F16 s
  | .fcvtBf16F32 => Sys2Proof.Machine.execFcvtBf16F32 s
  | .fcvtF32Bf16 => Sys2Proof.Machine.execFcvtF32Bf16 s
  | .fcmpEq => Sys2Proof.Machine.execFcmpEq s
  | .fcmpLt => Sys2Proof.Machine.execFcmpLt s
  | .fcmpLe => Sys2Proof.Machine.execFcmpLe s
  | .fcmpUn => Sys2Proof.Machine.execFcmpUn s
  | .fspecRcp => Sys2Proof.Machine.execFspecRcp s
  | .fspecRsqrt => Sys2Proof.Machine.execFspecRsqrt s
  | .fspecSqrt => Sys2Proof.Machine.execFspecSqrt s
  | .fspecDiv => Sys2Proof.Machine.execFspecDiv s
  | .fspecExp2 => Sys2Proof.Machine.execFspecExp2 s
  | .fspecLog2 => Sys2Proof.Machine.execFspecLog2 s
  | .ldU8 => Sys2Proof.Machine.execLdU8 s
  | .ldS8 => Sys2Proof.Machine.execLdS8 s
  | .ldU16 => Sys2Proof.Machine.execLdU16 s
  | .ldS16 => Sys2Proof.Machine.execLdS16 s
  | .ldU32 => Sys2Proof.Machine.execLdU32 s
  | .ldS32 => Sys2Proof.Machine.execLdS32 s
  | .ld64 => Sys2Proof.Machine.execLd64 s
  | .ldFmt => Sys2Proof.Machine.execLdFmt s
  | .st8 => Sys2Proof.Machine.execSt8 s
  | .st16 => Sys2Proof.Machine.execSt16 s
  | .st32 => Sys2Proof.Machine.execSt32 s
  | .st64 => Sys2Proof.Machine.execSt64 s
  | .stFmt => Sys2Proof.Machine.execStFmt s
  | .lda => Sys2Proof.Machine.execLda s
  | .stl => Sys2Proof.Machine.execStl s
  | .amoAdd => Sys2Proof.Machine.execAmoAdd s
  | .amoAnd => Sys2Proof.Machine.execAmoAnd s
  | .amoOr => Sys2Proof.Machine.execAmoOr s
  | .amoXor => Sys2Proof.Machine.execAmoXor s
  | .amoSmin => Sys2Proof.Machine.execAmoSmin s
  | .amoSmax => Sys2Proof.Machine.execAmoSmax s
  | .amoUmin => Sys2Proof.Machine.execAmoUmin s
  | .amoUmax => Sys2Proof.Machine.execAmoUmax s
  | .amoSwap => Sys2Proof.Machine.execAmoSwap s
  | .cas => Sys2Proof.Machine.execCas s
  | .fence => Sys2Proof.Machine.execFence s
  | .fenceAcq => Sys2Proof.Machine.execFenceAcq s
  | .fenceRel => Sys2Proof.Machine.execFenceRel s
  | .xfence => Sys2Proof.Machine.execXfence s
  | .ldfeTake => Sys2Proof.Machine.execLdfeTake s
  | .ldfePeek => Sys2Proof.Machine.execLdfePeek s
  | .stfeFill => Sys2Proof.Machine.execStfeFill s
  | .stfeForce => Sys2Proof.Machine.execStfeForce s
  | .stfeClear => Sys2Proof.Machine.execStfeClear s
  | .get => Sys2Proof.Machine.execGet s
  | .put => Sys2Proof.Machine.execPut s
  | .ramoAdd => Sys2Proof.Machine.execRamoAdd s
  | .ramoAnd => Sys2Proof.Machine.execRamoAnd s
  | .ramoOr => Sys2Proof.Machine.execRamoOr s
  | .ramoXor => Sys2Proof.Machine.execRamoXor s
  | .ramoSmin => Sys2Proof.Machine.execRamoSmin s
  | .ramoSmax => Sys2Proof.Machine.execRamoSmax s
  | .ramoUmin => Sys2Proof.Machine.execRamoUmin s
  | .ramoUmax => Sys2Proof.Machine.execRamoUmax s
  | .ramoSwap => Sys2Proof.Machine.execRamoSwap s
  | .ramoFadd => Sys2Proof.Machine.execRamoFadd s
  | .flushWb => Sys2Proof.Machine.execFlushWb s
  | .flushWbi => Sys2Proof.Machine.execFlushWbi s
  | .flushInv => Sys2Proof.Machine.execFlushInv s
  | .flushCode => Sys2Proof.Machine.execFlushCode s
  | .prefR => Sys2Proof.Machine.execPrefR s
  | .prefW => Sys2Proof.Machine.execPrefW s
  | .prefGw => Sys2Proof.Machine.execPrefGw s
  | .cwait => Sys2Proof.Machine.execCwait s
  | .csig => Sys2Proof.Machine.execCsig s
  | .cset => Sys2Proof.Machine.execCset s
  | .crd => Sys2Proof.Machine.execCrd s
  | .bar => Sys2Proof.Machine.execBar s
  | .barArrive => Sys2Proof.Machine.execBarArrive s
  | .barWait => Sys2Proof.Machine.execBarWait s
  | .barrierToken => Sys2Proof.Machine.execBarrierToken s
  | .barrierRelease => Sys2Proof.Machine.execBarrierRelease s
  | .vadd => Sys2Proof.Machine.execVadd s
  | .vaddSat => Sys2Proof.Machine.execVaddSat s
  | .vsub => Sys2Proof.Machine.execVsub s
  | .vsubSat => Sys2Proof.Machine.execVsubSat s
  | .vmul => Sys2Proof.Machine.execVmul s
  | .vmulHi => Sys2Proof.Machine.execVmulHi s
  | .vmulSat => Sys2Proof.Machine.execVmulSat s
  | .vfma => Sys2Proof.Machine.execVfma s
  | .vfmaMs => Sys2Proof.Machine.execVfmaMs s
  | .vfmaNm => Sys2Proof.Machine.execVfmaNm s
  | .vminmaxMin => Sys2Proof.Machine.execVminmaxMin s
  | .vminmaxMax => Sys2Proof.Machine.execVminmaxMax s
  | .vnegabsNeg => Sys2Proof.Machine.execVnegabsNeg s
  | .vnegabsAbs => Sys2Proof.Machine.execVnegabsAbs s
  | .vcvt => Sys2Proof.Machine.execVcvt s
  | .vcvtSat => Sys2Proof.Machine.execVcvtSat s
  | .vcmpEq => Sys2Proof.Machine.execVcmpEq s
  | .vcmpNe => Sys2Proof.Machine.execVcmpNe s
  | .vcmpLt => Sys2Proof.Machine.execVcmpLt s
  | .vcmpGe => Sys2Proof.Machine.execVcmpGe s
  | .vcmpLe => Sys2Proof.Machine.execVcmpLe s
  | .vcmpGt => Sys2Proof.Machine.execVcmpGt s
  | .vcmpUn => Sys2Proof.Machine.execVcmpUn s
  | .vsel => Sys2Proof.Machine.execVsel s
  | .vredSum => Sys2Proof.Machine.execVredSum s
  | .vredMin => Sys2Proof.Machine.execVredMin s
  | .vredMax => Sys2Proof.Machine.execVredMax s
  | .vredAnd => Sys2Proof.Machine.execVredAnd s
  | .vredOr => Sys2Proof.Machine.execVredOr s
  | .vredXor => Sys2Proof.Machine.execVredXor s
  | .vshufIdx => Sys2Proof.Machine.execVshufIdx s
  | .vshufRot => Sys2Proof.Machine.execVshufRot s
  | .vshufLo => Sys2Proof.Machine.execVshufLo s
  | .vshufHi => Sys2Proof.Machine.execVshufHi s
  | .vshufRev => Sys2Proof.Machine.execVshufRev s
  | .vbcastS => Sys2Proof.Machine.execVbcastS s
  | .vbcastLane => Sys2Proof.Machine.execVbcastLane s
  | .vld => Sys2Proof.Machine.execVld s
  | .vldStr => Sys2Proof.Machine.execVldStr s
  | .vst => Sys2Proof.Machine.execVst s
  | .vstStr => Sys2Proof.Machine.execVstStr s
  | .vgth => Sys2Proof.Machine.execVgth s
  | .vsct => Sys2Proof.Machine.execVsct s
  | .vspecRcp => Sys2Proof.Machine.execVspecRcp s
  | .vspecRsqrt => Sys2Proof.Machine.execVspecRsqrt s
  | .vspecSqrt => Sys2Proof.Machine.execVspecSqrt s
  | .vspecDiv => Sys2Proof.Machine.execVspecDiv s
  | .vspecExp2 => Sys2Proof.Machine.execVspecExp2 s
  | .vspecLog2 => Sys2Proof.Machine.execVspecLog2 s
  | .vspecTanh => Sys2Proof.Machine.execVspecTanh s
  | .vdotQ => Sys2Proof.Machine.execVdotQ s
  | .vdotP => Sys2Proof.Machine.execVdotP s
  | .vamax => Sys2Proof.Machine.execVamax s
  | .vscale => Sys2Proof.Machine.execVscale s
  | .vquant => Sys2Proof.Machine.execVquant s
  | .vtbl => Sys2Proof.Machine.execVtbl s
  | .venc => Sys2Proof.Machine.execVenc s
  | .vintAnd => Sys2Proof.Machine.execVintAnd s
  | .vintOr => Sys2Proof.Machine.execVintOr s
  | .vintXor => Sys2Proof.Machine.execVintXor s
  | .vintAndn => Sys2Proof.Machine.execVintAndn s
  | .vintShl => Sys2Proof.Machine.execVintShl s
  | .vintShr => Sys2Proof.Machine.execVintShr s
  | .vintSra => Sys2Proof.Machine.execVintSra s
  | .vintPopc => Sys2Proof.Machine.execVintPopc s
  | .vseq => Sys2Proof.Machine.execVseq s
  | .vseqe => Sys2Proof.Machine.execVseqe s
  | .gang2 => Sys2Proof.Machine.execGang2 s
  | .gang4 => Sys2Proof.Machine.execGang4 s
  | .gang8 => Sys2Proof.Machine.execGang8 s
  | .gangFormation => Sys2Proof.Machine.execGangFormation s
  | .ungang => Sys2Proof.Machine.execUngang s
  | .vectorSequencerExecute => Sys2Proof.Machine.execVectorSequencerExecute s
  | .mlat => Sys2Proof.Machine.execMlat s
  | .mma => Sys2Proof.Machine.execMma s
  | .mmas => Sys2Proof.Machine.execMmas s
  | .matrixQueueIssue => Sys2Proof.Machine.execMatrixQueueIssue s
  | .matrixOperandReadEnd => Sys2Proof.Machine.execMatrixOperandReadEnd s
  | .matrixAccumulatorWrite => Sys2Proof.Machine.execMatrixAccumulatorWrite s
  | .consumedSignal => Sys2Proof.Machine.execConsumedSignal s
  | .maccZero => Sys2Proof.Machine.execMaccZero s
  | .maccLd => Sys2Proof.Machine.execMaccLd s
  | .maccSt => Sys2Proof.Machine.execMaccSt s
  | .maccCvt => Sys2Proof.Machine.execMaccCvt s
  | .gaitl => Sys2Proof.Machine.execGaitl s
  | .mgait => Sys2Proof.Machine.execMgait s
  | .spurCfg => Sys2Proof.Machine.execSpurCfg s
  | .spurPost => Sys2Proof.Machine.execSpurPost s
  | .spurTick => Sys2Proof.Machine.execSpurTick s
  | .spurRead => Sys2Proof.Machine.execSpurRead s
  | .spurDrain => Sys2Proof.Machine.execSpurDrain s
  | .spurEventArrival => Sys2Proof.Machine.execSpurEventArrival s
  | .spurEventRetry => Sys2Proof.Machine.execSpurEventRetry s
  | .paceTickClose => Sys2Proof.Machine.execPaceTickClose s
  | .closeResume => Sys2Proof.Machine.execCloseResume s
  | .sendUni => Sys2Proof.Machine.execSendUni s
  | .sendMulti => Sys2Proof.Machine.execSendMulti s
  | .sendReply => Sys2Proof.Machine.execSendReply s
  | .taskArrival => Sys2Proof.Machine.execTaskArrival s
  | .messageRetry => Sys2Proof.Machine.execMessageRetry s
  | .overflowReentry => Sys2Proof.Machine.execOverflowReentry s
  | .replyDelivery => Sys2Proof.Machine.execReplyDelivery s
  | .workStart => Sys2Proof.Machine.execWorkStart s
  | .dequeStealProbe => Sys2Proof.Machine.execDequeStealProbe s
  | .cpy => Sys2Proof.Machine.execCpy s
  | .gth => Sys2Proof.Machine.execGth s
  | .gthLatch => Sys2Proof.Machine.execGthLatch s
  | .copyCommand => Sys2Proof.Machine.execCopyCommand s
  | .gatherCommand => Sys2Proof.Machine.execGatherCommand s
  | .commandRetire => Sys2Proof.Machine.execCommandRetire s
  | .collReduce => Sys2Proof.Machine.execCollReduce s
  | .collRegister => Sys2Proof.Machine.execCollRegister s
  | .collBcast => Sys2Proof.Machine.execCollBcast s
  | .collJoin => Sys2Proof.Machine.execCollJoin s
  | .collDigest => Sys2Proof.Machine.execCollDigest s
  | .collectiveEpisode => Sys2Proof.Machine.execCollectiveEpisode s
  | .classMask => Sys2Proof.Machine.execClassMask s
  | .classUnmask => Sys2Proof.Machine.execClassUnmask s
  | .classTest => Sys2Proof.Machine.execClassTest s
  | .launch => Sys2Proof.Machine.execLaunch s
  | .launchSteal => Sys2Proof.Machine.execLaunchSteal s
  | .launchPreempt => Sys2Proof.Machine.execLaunchPreempt s
  | .launchResume => Sys2Proof.Machine.execLaunchResume s
  | .launchCancel => Sys2Proof.Machine.execLaunchCancel s
  | .preemptionSave => Sys2Proof.Machine.execPreemptionSave s
  | .launchEntry => Sys2Proof.Machine.execLaunchEntry s
  | .coreLeave => Sys2Proof.Machine.execCoreLeave s
  | .unitRefill => Sys2Proof.Machine.execUnitRefill s
  | .stealRequest => Sys2Proof.Machine.execStealRequest s
  | .stealAnswer => Sys2Proof.Machine.execStealAnswer s
  | .launchEnd => Sys2Proof.Machine.execLaunchEnd s
  | .graphDecrement => Sys2Proof.Machine.execGraphDecrement s
  | .sysCsrr => Sys2Proof.Machine.execSysCsrr s
  | .sysCsrw => Sys2Proof.Machine.execSysCsrw s
  | .sysCsrx => Sys2Proof.Machine.execSysCsrx s
  | .registerWrite => Sys2Proof.Machine.execRegisterWrite s
  | .dectabStore => Sys2Proof.Machine.execDectabStore s
  | .dectabSelect => Sys2Proof.Machine.execDectabSelect s
  | .plbWrite => Sys2Proof.Machine.execPlbWrite s
  | .detmodeWrite => Sys2Proof.Machine.execDetmodeWrite s
  | .featackWrite => Sys2Proof.Machine.execFeatackWrite s
  | .ctlprioWrite => Sys2Proof.Machine.execCtlprioWrite s
  | .tandemOn => Sys2Proof.Machine.execTandemOn s
  | .tandemOff => Sys2Proof.Machine.execTandemOff s
  | .tandemFormation => Sys2Proof.Machine.execTandemFormation s
  | .ownGive => Sys2Proof.Machine.execOwnGive s
  | .ownQuery => Sys2Proof.Machine.execOwnQuery s
  | .leaseRenew => Sys2Proof.Machine.execLeaseRenew s
  | .stackCloseEnd => Sys2Proof.Machine.execStackCloseEnd s
  | .stackDrainEnd => Sys2Proof.Machine.execStackDrainEnd s
  | .stackWriteBackEnd => Sys2Proof.Machine.execStackWriteBackEnd s
  | .stackLeaseWaitEnd => Sys2Proof.Machine.execStackLeaseWaitEnd s
  | .stackSwitch => Sys2Proof.Machine.execStackSwitch s
  | .remoteAccessAtHome => Sys2Proof.Machine.execRemoteAccessAtHome s
  | .remoteAckArrival => Sys2Proof.Machine.execRemoteAckArrival s
  | .getValueReturn => Sys2Proof.Machine.execGetValueReturn s
  | .gatewayLineFill => Sys2Proof.Machine.execGatewayLineFill s
  | .gatewayLineExpiry => Sys2Proof.Machine.execGatewayLineExpiry s
  | .translationExpiry => Sys2Proof.Machine.execTranslationExpiry s
  | .engineLeaseRenew => Sys2Proof.Machine.execEngineLeaseRenew s
  | .remapNack => Sys2Proof.Machine.execRemapNack s
  | .pagerService => Sys2Proof.Machine.execPagerService s
  | .contextWake => Sys2Proof.Machine.execContextWake s
  | .waitLimit => Sys2Proof.Machine.execWaitLimit s
  | .sleepTimeout => Sys2Proof.Machine.execSleepTimeout s
  | .hang => Sys2Proof.Machine.execHang s
  | .rotationArm => Sys2Proof.Machine.execRotationArm s
  | .drain => Sys2Proof.Machine.execDrain s
  | .abort => Sys2Proof.Machine.execAbort s
  | .newMap => Sys2Proof.Machine.execNewMap s
  | .copyState => Sys2Proof.Machine.execCopyState s
  | .resumeTile => Sys2Proof.Machine.execResumeTile s
  | .retire => Sys2Proof.Machine.execRetire s
  | .test => Sys2Proof.Machine.execTest s
  | .maint => Sys2Proof.Machine.execMaint s
  | .maintEnd => Sys2Proof.Machine.execMaintEnd s
  | .farrierHold => Sys2Proof.Machine.execFarrierHold s
  | .ckoff => Sys2Proof.Machine.execCkoff s
  | .suspectClear => Sys2Proof.Machine.execSuspectClear s
  | .counterClear => Sys2Proof.Machine.execCounterClear s
  | .faultCountClear => Sys2Proof.Machine.execFaultCountClear s
  | .exposureCount => Sys2Proof.Machine.execExposureCount s
  | .wearFuseWrite => Sys2Proof.Machine.execWearFuseWrite s
  | .checkpointEpoch => Sys2Proof.Machine.execCheckpointEpoch s
  | .siteLoss => Sys2Proof.Machine.execSiteLoss s
  | .fingerprintExchange => Sys2Proof.Machine.execFingerprintExchange s
  | .flitForward => Sys2Proof.Machine.execFlitForward s
  | .linkReplay => Sys2Proof.Machine.execLinkReplay s
  | .injectorArm => Sys2Proof.Machine.execInjectorArm s
  | .injectorTrigger => Sys2Proof.Machine.execInjectorTrigger s
  | .linkControlWrite => Sys2Proof.Machine.execLinkControlWrite s
  | .linkChangeDone => Sys2Proof.Machine.execLinkChangeDone s
  | .tetherArrival => Sys2Proof.Machine.execTetherArrival s
  | .paceBeacon => Sys2Proof.Machine.execPaceBeacon s
  | .beaconMiss => Sys2Proof.Machine.execBeaconMiss s
  | .clockStretch => Sys2Proof.Machine.execClockStretch s
  | .referenceLoss => Sys2Proof.Machine.execReferenceLoss s
  | .panelReset => Sys2Proof.Machine.execPanelReset s
  | .bridgeLaunchWrite => Sys2Proof.Machine.execBridgeLaunchWrite s
  | .bridgeDataWrite => Sys2Proof.Machine.execBridgeDataWrite s
  | .bridgeDataRead => Sys2Proof.Machine.execBridgeDataRead s
  | .bridgeControlWrite => Sys2Proof.Machine.execBridgeControlWrite s
  | .unsupportedRequest => Sys2Proof.Machine.execUnsupportedRequest s
  | .attestationRequest => Sys2Proof.Machine.execAttestationRequest s
  | .attestationReportReady => Sys2Proof.Machine.execAttestationReportReady s
  | .debugUnlock => Sys2Proof.Machine.execDebugUnlock s
  | .debugHalt => Sys2Proof.Machine.execDebugHalt s
  | .debugObserve => Sys2Proof.Machine.execDebugObserve s
  | .lifeCycleMove => Sys2Proof.Machine.execLifeCycleMove s
  | .dieDrowsy => Sys2Proof.Machine.execDieDrowsy s
  | .panelPark => Sys2Proof.Machine.execPanelPark s
  | .active => Sys2Proof.Machine.execActive s
  | .tileIdle => Sys2Proof.Machine.execTileIdle s
  | .refusedClear => Sys2Proof.Machine.execRefusedClear s
  | .protectionDescriptorStore => Sys2Proof.Machine.execProtectionDescriptorStore s
  | .referenceReturn => Sys2Proof.Machine.execReferenceReturn s
  | .deliveryAnswer => Sys2Proof.Machine.execDeliveryAnswer s
  | .scrub => Sys2Proof.Machine.execScrub s
  | .debugRelock => Sys2Proof.Machine.execDebugRelock s

end Sys2Proof.Machine
end

