-- ==== Sys2Proof/Machine/Turns.lean ====
section
/-! DEFINITION. What a turn does before an instruction or an event is executed: choosing the context that issues (R352), entering its
line and decoding its head (R70–R76, R85), time passing, and the placing of an instruction for `withFetchWord`. -/

namespace Sys2Proof.Machine

open Sys2Proof

/-- How a turn goes on: with the meaning of a row in a state, which a report of context 0 may come before, or it is over. -/
inductive Prep where
  | run (row : Instr) (s : State)
  | report (row : Instr) (s : State)
  | done (s : State)

/-- Contexts in the order of R352: ascending, starting after the one that issued last. -/
def issueOrder (last : Nat) : List Nat := allCtx.map (fun i => (last + 1 + i) % 11)

/-- The context that takes the issue slot of a core (R352). -/
def State.pick (s : State) (c : CoreId) : Option CtxId :=
  if s.coreStopped c then none
  else ((issueOrder (s.core c).last).find? (fun i => s.mayIssue ⟨c, i⟩ && !s.interlocked ⟨c, i⟩)).map (fun i => ⟨c, i⟩)

/-- The issue slot is taken by the stream of c: in each member's core its context issued last, and those that yielded to it may go on. A core of the
launch is not listed, which arms its detector (R359). -/
def State.granted (s : State) : List CtxId → State
  | [] => s
  | c :: r =>
    let s := (s.modCore c.core (fun k => { k with last := c.ctx })).modLaunch (s.core c.core).launchId (fun l => { l with hangArmed := true })
    let s := helperCtx.foldl (fun s i =>
      let d : CtxId := ⟨c.core, i⟩
      if (s.ctx d).yieldTo.contains c.ctx then s.modCtx d (fun k => { k with yieldTo := k.yieldTo.filter (fun x => x != c.ctx) }) else s) s
    let s := if (s.ctx ⟨c.core, 0⟩).yieldTo.contains c.ctx then
        s.modCtx ⟨c.core, 0⟩ (fun k => { k with yieldTo := k.yieldTo.filter (fun x => x != c.ctx) }) else s
    (s.modCtx c (fun k => { k with yieldTo := [] })).granted r

/-- The context stands at a head of its line. -/
def State.enter (s : State) (c : CtxId) : Entered := if (s.ctx c).entry = .inLine then .at_ s else s.enterLine c

/-- The model refines COLL.reduce with REG = 1 to its own row (R292). -/
def State.refine (s : State) (c : CtxId) (i : Inst) : Instr :=
  if i.row = .collReduce ∧ (s.rs c i.o.s2).getLsbD 62 = true then .collRegister else i.row

/-- The issue slot of a core: the context enters its line, its head is decoded, and the row's meaning runs. A trap of the fetch or of the head waits
for what the context has handed over. A report that context 0 has still to take gives way to a fault of the instruction alone (R276, R367). -/
def State.issueSlot (s : State) (core : CoreId) (ahead : Bool) : Prep :=
  match s.pick core with
  | none => .done s
  | some c =>
    match s.enter c with
    | .wait w s => .done (s.waitAt c w)
    | .trap t pc s' => .done (if s.busy c then s else s'.fetchTrap c pc t)
    | .at_ s =>
      if s.interlocked c then .done s
      else
        let k := s.ctx c
        match decodeHead k.line (headIndex k.pc) with
        | .error _ => .done (((s.granted (s.members c)).fetchTrap c k.pc (Cause.at_ .illegal 0)).modCtx c (fun x => { x with count := k.count + 1 }))
        | .ok i =>
          let go := { s.granted (s.members c) with cur := c, op := i.o, ahead := ahead || s.busy c }
          if s.reportDue c then .report (s.refine c i) go else .run (s.refine c i) go

/-- A step of the hardware with its arguments. -/
def State.eventSlot (s : State) (row : Instr) (a : EvArgs) : Prep :=
  if row.info = .event then .run row { s with cur := a.ctx, op := Fields.zero, ev := a, ahead := false } else .done s

/-- What a turn does. -/
def State.turn (s : State) : Turn → Prep
  | .issue core ahead => s.issueSlot core ahead
  | .event row a => s.eventSlot row a
  | .tick ns edges => .done (s.tickAll ns edges)

/-- The turn that comes next: the first of `inputs`, or a free value (R308, R352; log 2). -/
def State.nextTurn (s : State) : Option Turn × State :=
  match s.inputs with
  | t :: r => (some t, { s with inputs := r })
  | [] => (Config.turn s.turns, { s with turns := s.turns + 1 })

/-- What a step does: its turn, once hardware has acted on stored control words (R418, R453) and the contexts that are ready no more have given up
their turns before others (R155). -/
def State.prepare (s : State) : Prep :=
  match s.follow.pruneYields.nextTurn with
  | (some t, s) => s.turn t
  | (none, s) => .done s

/-! Placing an instruction (log 16). -/

/-- Core (virtual tile 0, position 0) in a launch with ten helpers and vector state. -/
def placedLaunch : CoreLaunch :=
  { id := 64, h := 10, stack := 64, vec := true, mode := 0, seed := 0, leader := 0, unit := [0], notice := 0, nclass := 0 }

/-- The context that runs a placed instruction: context 0 for the majors only context 0 may issue. -/
def placedCtx (h : Half) : Nat := if [0x27, 0x7a, 0x7c, 0x7d].contains (h.extractLsb' 6 7).toNat then 0 else 1

/-- Put the line of an instruction at TCM offset 0x400 of core (0, 0) and a context in supervisor mode before its head. -/
def State.placeLine (s : State) (h : Half) (tl : List Half) : State :=
  let core : CoreId := ⟨0, 0⟩
  let c : CtxId := ⟨core, placedCtx h⟩
  let s := s.storeBytes (flatTcm core 0x400) (lineOf h tl)
  let s := s.modCore core (fun k => { k with launch := some placedLaunch, last := (placedCtx h + 10) % 11, code := [] })
  let s := s.modCtx c (fun k => { k with pc := 0x402, entry := .from_ 0, line := [], sup := true, st := .ready })
  { s with featAck := Config.feat1 ++ Config.feat0, featSet := true, inputs := [.issue core false] }

end Sys2Proof.Machine
end

