-- ==== Sys2Proof/Machine/Step.lean ====
section
/-! DEFINITION. One step: one turn (R308, R352). -/

namespace Sys2Proof.Machine

open Sys2Proof

/-- One step: the next turn; an issue or an event is the meaning of its row, everything else a next state. A report that waits for context 0 is taken in
place of the instruction, unless the instruction faults (R276, R367). -/
def step (s : State) : Host.Outcome State Fault Refusal :=
  match s.prepare with
  | .run row s' => exec row s'
  | .report row s' =>
    match exec row s' with
    | .next t => .next (s'.reportOr t)
    | o => o
  | .done s' => .next s'

/-- The instruction whose bits are w, stored where the next step fetches it, in a core that a launch has entered (log 16). -/
def State.withFetchWord (s : State) (nbits w : Nat) : State := s.placeLine (partsOfNat nbits w).1 (partsOfNat nbits w).2

end Sys2Proof.Machine
end

