-- ==== Sys2Proof/Safety.lean ====
section
/-! DEFINITION. The terms in which statements are made: what a safe state is, when an instruction may be performed by its context alone,
and the state an instruction's own effect leads to. -/

namespace Sys2Proof.Machine

open Sys2Proof

/-- Memory is in its canonical form. -/
def State.memOk (s : State) : Prop := Memory.wf s.mem = true

/-- The current context is about to perform the instruction in `op`, alone: no check of R86 steps 1 to 4 fails, its sync wait is satisfied
(R84), no tandem exchange is due (R426), its predicate does not govern it off (R82), and it is not in a gang. -/
structure State.Ready (s : State) (row : Instr) : Prop where
  alone : (s.ctx s.cur).gang = none
  gate : s.gate s.cur ⟨row, s.op⟩ = none
  sync : s.syncHeld s.op [s.cur] = none
  due : s.exchangeDue s.cur row s.op = false
  on : s.predicatedOff s.cur ⟨row, s.op⟩ = false

/-- The state before the instruction, once its sync wait is met (R324). -/
def State.synced (s : State) : State := s.syncTaken s.op [s.cur]

/-- The state an instruction's own effect starts from: the orders of R307 that stand before its accesses are known; no register, memory byte
or counter differs from s. -/
def State.taken (s : State) (row : Instr) : State :=
  s.synced.beginAccess s.cur row s.op (s.synced.waited s.cur s.op)

/-- The state after an instruction whose own effect, begun in `s`, led to `s'`: the PC has advanced as `ctl` says, the signal of the sync
halfword is made (R84). -/
def State.after (s : State) (row : Instr) (ctl : Ctl) (s' : State) : State := s'.complete s.cur row s.op false ctl (syncSignal s.op)

/-- The row, executed in s, completes: its own effect leads to s'. -/
def Completes (row : Instr) (s : State) (ctl : Ctl) (s' : State) : Prop := exec row s = .next (s.after row ctl s')

/-- The row, executed in s, takes a trap after its own checks changed s to s'; while the stores of a running upcall's frame are held back it
waits for them first (R183, R362). -/
def Traps (row : Instr) (s : State) (t : Tr) (s' : State) : Prop :=
  exec row s = .next (match s.synced.pushHeld s.cur with
    | some w => s.synced.waitAt s.cur w
    | none => s'.deliver s.cur [s.cur] 0 s.cur t)

/-- The row, executed in s, waits. -/
def Waits (row : Instr) (s : State) (w : Wait) (s' : State) : Prop := exec row s = .next (s'.waitAt s.cur w)

/-- Operand A of the executing instruction (R125). -/
def State.opA (s : State) : Word := s.rs s.cur s.op.s1

/-- Operand B of the executing instruction (R125, R77). -/
def State.opB (s : State) : Word := if 2 ≤ s.op.t.toNat then s.op.immS else s.rs s.cur s.op.s2

/-- s[D] of the executing instruction as a source. -/
def State.opD (s : State) : Word := s.rs s.cur s.op.d

/-- What an instruction of a context may write: scalar, predicate, vector, accumulator and latch registers, the flags, SEED, LPCT, and the
bytes of memory at flat addresses in [lo, hi). -/
structure Touch where
  s : List (BitVec 5)
  p : List (BitVec 5)
  v : List Nat
  a : List Nat
  g : List Nat
  ff : Bool
  seed : Bool
  lpct : Bool
  lo : Nat
  hi : Nat
deriving DecidableEq, Repr

/-- Nothing. -/
def Touch.none : Touch := ⟨[], [], [], [], [], false, false, false, 0, 0⟩

/-- One scalar register. -/
def Touch.reg (d : BitVec 5) : Touch := { Touch.none with s := [d] }

/-- One predicate register. -/
def Touch.pred (d : BitVec 5) : Touch := { Touch.none with p := [d] }

/-- From s to t every register of every context, its flags, its special and exception registers, and every byte of memory are unchanged,
but what `w` names, for context c. -/
structure Frame (s t : State) (c : CtxId) (w : Touch) : Prop where
  regs : ∀ (e : CtxId) (r : BitVec 5), ¬(e.key = c.key ∧ r ∈ w.s) → t.rs e r = s.rs e r
  preds : ∀ (e : CtxId) (r : BitVec 5), ¬(e.key = c.key ∧ r ∈ w.p) → t.rp e r = s.rp e r
  vecs : ∀ (e : CtxId) (r : Nat), ¬(e.key = c.key ∧ r ∈ w.v) → t.rv e r = s.rv e r
  accs : ∀ (e : CtxId) (r : Nat), ¬(e.key = c.key ∧ r ∈ w.a) → t.ra e r = s.ra e r
  latches : ∀ (e : CtxId) (r : Nat), ¬(e.key = c.key ∧ r ∈ w.g) → t.rg e r = s.rg e r
  flags : ∀ e : CtxId, ¬(e.key = c.key ∧ w.ff = true) → (t.ctx e).ff = (s.ctx e).ff
  seeds : ∀ e : CtxId, ¬(e.key = c.key ∧ w.seed = true) → (t.ctx e).seed = (s.ctx e).seed
  loops : ∀ e : CtxId, ¬(e.key = c.key ∧ w.lpct = true) → (t.ctx e).lpct = (s.ctx e).lpct
  modes : ∀ e : CtxId, (t.ctx e).mode = (s.ctx e).mode
  supervisor : ∀ e : CtxId, (t.ctx e).sup = (s.ctx e).sup
  frames : ∀ e : CtxId, (t.ctx e).cause = (s.ctx e).cause ∧ (t.ctx e).trapPc = (s.ctx e).trapPc ∧ (t.ctx e).trapVal = (s.ctx e).trapVal ∧
    (t.ctx e).trapTag = (s.ctx e).trapTag
  memory : ∀ a : Nat, ¬(w.lo ≤ a ∧ a < w.hi) → t.byte a = s.byte a

/-- The row, executed in s, completes and goes on to the next head; its own effect leads to s', and nothing but what `w` names differs
from s. -/
def Gives (row : Instr) (s s' : State) (w : Touch) : Prop := Completes row s .next s' ∧ Frame s (s.after row .next s') s.cur w

/-- The row, executed in s, completes with v in s[D] (R129); a D of s0 discards it (R21). -/
def GivesReg (row : Instr) (s : State) (v : Word) : Prop := Gives row s ((s.taken row).ws s.cur s.op.d v) (Touch.reg s.op.d)

/-- The row, executed in s, completes with v in p[D] (R130); a D of p0 discards it (R21). -/
def GivesPred (row : Instr) (s : State) (v : Half) : Prop := Gives row s ((s.taken row).wp s.cur s.op.d v) (Touch.pred s.op.d)

/-- The row, executed in s, completes and control goes on at a target; nothing but what `w` names differs from s. -/
def GivesJump (row : Instr) (s : State) (target : Word) (s' : State) (w : Touch) : Prop :=
  Completes row s (.jump target) s' ∧ Frame s (s.after row (.jump target) s') s.cur w

end Sys2Proof.Machine

/-! What the spec's tables say of results, written from the tables. -/

namespace Sys2Proof.Claim

open Sys2Proof Sys2Proof.Machine

/-- The low 32 bits of an integer, sign-extended. -/
def sext32 (n : Int) : Word := (BitVec.ofInt 32 n).signExtend 64

/-- Bits [31:0] as a signed and as an unsigned number. -/
def s32 (a : Word) : Int := (a.setWidth 32).toInt
def u32 (a : Word) : Nat := a.toNat % 2 ^ 32

/-- The signed quotient and remainder of R100 in w bits: truncated toward zero; all ones, and the dividend, for a zero divisor. -/
def quot (a b : Int) : Int := if b = 0 then -1 else a.tdiv b
def rest (a b : Int) : Int := if b = 0 then a else a.tmod b

/-- Results of the integer instructions that read A and B (Table 50), majors 0x01 to 0x0f. -/
def integer : Instr → Option (Word → Word → Word)
  | .add => some fun a b => BitVec.ofNat 64 (a.toNat + b.toNat)
  | .addW => some fun a b => sext32 (a.toNat + b.toNat)
  | .addSs => some fun a b => BitVec.ofInt 64 (min (max (a.toInt + b.toInt) (-2 ^ 63)) (2 ^ 63 - 1))
  | .addUs => some fun a b => BitVec.ofNat 64 (min (a.toNat + b.toNat) (2 ^ 64 - 1))
  | .sub => some fun a b => BitVec.ofInt 64 (a.toInt - b.toInt)
  | .subW => some fun a b => sext32 (a.toInt - b.toInt)
  | .subSs => some fun a b => BitVec.ofInt 64 (min (max (a.toInt - b.toInt) (-2 ^ 63)) (2 ^ 63 - 1))
  | .subUs => some fun a b => BitVec.ofNat 64 (a.toNat - b.toNat)
  | .mul => some fun a b => BitVec.ofNat 64 (a.toNat * b.toNat)
  | .mulW => some fun a b => sext32 (u32 a * u32 b)
  | .mulhSs => some fun a b => BitVec.ofInt 64 (a.toInt * b.toInt / 2 ^ 64)
  | .mulhUu => some fun a b => BitVec.ofNat 64 (a.toNat * b.toNat / 2 ^ 64)
  | .mulhSu => some fun a b => BitVec.ofInt 64 (a.toInt * b.toNat / 2 ^ 64)
  | .div => some fun a b => BitVec.ofInt 64 (quot a.toInt b.toInt)
  | .divU => some fun a b => if b = 0 then BitVec.allOnes 64 else BitVec.ofNat 64 (a.toNat / b.toNat)
  | .divW => some fun a b => sext32 (quot (s32 a) (s32 b))
  | .divUw => some fun a b => BitVec.ofNat 64 (if u32 b = 0 then 2 ^ 32 - 1 else u32 a / u32 b)
  | .rem => some fun a b => BitVec.ofInt 64 (rest a.toInt b.toInt)
  | .remU => some fun a b => if b = 0 then a else BitVec.ofNat 64 (a.toNat % b.toNat)
  | .remW => some fun a b => sext32 (rest (s32 a) (s32 b))
  | .remUw => some fun a b => BitVec.ofNat 64 (if u32 b = 0 then u32 a else u32 a % u32 b)
  | .andR => some fun a b => a &&& b
  | .orR => some fun a b => a ||| b
  | .xor => some fun a b => a ^^^ b
  | .andn => some fun a b => a &&& ~~~b
  | .shl => some fun a b => BitVec.ofNat 64 (a.toNat * 2 ^ (b.toNat % 64))
  | .shlW => some fun a b => sext32 (u32 a * 2 ^ (b.toNat % 32) : Nat)
  | .shr => some fun a b => BitVec.ofNat 64 (a.toNat / 2 ^ (b.toNat % 64))
  | .shrA => some fun a b => BitVec.ofInt 64 (a.toInt / 2 ^ (b.toNat % 64))
  | .shrW => some fun a b => sext32 (u32 a / 2 ^ (b.toNat % 32) : Nat)
  | .shrAw => some fun a b => sext32 (s32 a / 2 ^ (b.toNat % 32))
  | .rot => some fun a b => BitVec.ofNat 64 (a.toNat / 2 ^ (b.toNat % 64) + a.toNat * 2 ^ (64 - b.toNat % 64))
  | .rotL => some fun a b => BitVec.ofNat 64 (a.toNat * 2 ^ (b.toNat % 64) + a.toNat / 2 ^ (64 - b.toNat % 64))
  | .rotW => some fun a b => sext32 (u32 a / 2 ^ (b.toNat % 32) + u32 a * 2 ^ (32 - b.toNat % 32) : Nat)
  | .rotLw => some fun a b => sext32 (u32 a * 2 ^ (b.toNat % 32) + u32 a / 2 ^ (32 - b.toNat % 32) : Nat)
  | .min => some fun a b => if a.toInt ≤ b.toInt then a else b
  | .minU => some fun a b => if a.toNat ≤ b.toNat then a else b
  | .max => some fun a b => if b.toInt ≤ a.toInt then a else b
  | .maxU => some fun a b => if b.toNat ≤ a.toNat then a else b
  | _ => none

/-- Results of the bit counts and extensions, which read A only (Table 50), majors 0x10 and 0x11, as relations of A and the result. -/
def unary : Instr → Option (Word → Word → Prop)
  | .bcntClz => some fun a v => v.toNat ≤ 64 ∧ (∀ i < v.toNat, a.getLsbD (63 - i) = false) ∧ (v.toNat < 64 → a.getLsbD (63 - v.toNat) = true)
  | .bcntCtz => some fun a v => v.toNat ≤ 64 ∧ (∀ i < v.toNat, a.getLsbD i = false) ∧ (v.toNat < 64 → a.getLsbD v.toNat = true)
  | .bcntPopc => some fun a v => v.toNat = ((List.range 64).filter (fun i => a.getLsbD i)).length
  | .extS8 => some fun a v => v.toInt = (a.setWidth 8).toInt
  | .extS16 => some fun a v => v.toInt = (a.setWidth 16).toInt
  | .extS32 => some fun a v => v.toInt = (a.setWidth 32).toInt
  | .extZ8 => some fun a v => v.toNat = a.toNat % 2 ^ 8
  | .extZ16 => some fun a v => v.toNat = a.toNat % 2 ^ 16
  | .extZ32 => some fun a v => v.toNat = a.toNat % 2 ^ 32
  | _ => none

/-- Position and width of a bit field: p = b[5:0], w = Min(b[11:6] + 1, 64 − p) (Table 50). -/
def fieldPos (b : Word) : Nat := b.toNat % 64
def fieldWidth (b : Word) : Nat := min (b.toNat / 64 % 64 + 1) (64 - fieldPos b)

/-- The conditions of CMP (R130). -/
def compare : Instr → Option (Word → Word → Bool)
  | .cmpEq => some fun a b => decide (a = b)
  | .cmpNe => some fun a b => decide (a ≠ b)
  | .cmpLt => some fun a b => decide (a.toInt < b.toInt)
  | .cmpGe => some fun a b => decide (b.toInt ≤ a.toInt)
  | .cmpLtu => some fun a b => decide (a.toNat < b.toNat)
  | .cmpGeu => some fun a b => decide (b.toNat ≤ a.toNat)
  | _ => none

/-- Widths of the offset field of a space (Table 52): the column of ADDP, SUBP and MKP, and that of PSET.off and PGET.off. -/
def offBits : Nat → Nat
  | 0 => 17 | 1 => 26 | 2 => 17 | 3 => 27 | 4 => 20 | 5 => 45 | _ => 0

/-- A pointer with the number o in its offset field. -/
def withOff (p : Word) (o : Nat) : Word := BitVec.ofNat 64 (p.toNat - p.toNat % 2 ^ offBits (pSpc p) + o)

/-- A pointer whose offset field is moved by d, when the sum stays in the field (R77, R134). -/
def moved (p : Word) (d : Int) : Option Word :=
  let o : Int := (p.toNat % 2 ^ offBits (pSpc p) : Nat) + d
  if 0 ≤ o ∧ o < 2 ^ offBits (pSpc p) then some (withOff p o.toNat) else none

/-- Lowest bit and width of a pointer field in a space, when it exists there (Table 53). -/
def pointerField (spc : Nat) : Instr → Option (Nat × Nat)
  | .psetFmt | .pgetFmt => some (59, 5)
  | .psetBlk | .pgetBlk => some (56, 3)
  | .psetSpc | .pgetSpc => some (53, 3)
  | .psetRel | .pgetRel => some (52, 1)
  | .psetTile | .pgetTile => if spc = 1 ∨ spc = 2 ∨ spc = 4 then some (43, 9) else none
  | .psetDie | .pgetDie => if spc = 3 ∨ spc = 5 then some (46, 6) else none
  | .psetOff | .pgetOff => if spc = 4 then some (0, 23) else if spc = 5 then some (0, 46) else if spc < 6 then some (0, offBits spc) else none
  | .psetCore | .pgetCore => if spc = 2 then some (35, 8) else none
  | _ => none

/-- The base of the line of an address (R67). -/
def lineOfPc (pc : Word) : Word := BitVec.ofNat 64 (pc.toNat / 64 * 64)

/-- The target of a branch at the current context's PC: its line base moved by 2 × IMM (R77). -/
def target (s : State) : Option Word := moved (lineOfPc (s.ctx s.cur).pc) (s.op.immS.toInt * 2)

/-- The link value of JAL and JALR (R146). -/
def link (s : State) : Option Word :=
  let k := s.ctx s.cur
  if headIndex k.pc + 1 < headCount k.line then some (k.pc + 2) else moved (lineOfPc k.pc) 66

end Sys2Proof.Claim
end

