-- ==== Sys2Proof/Certificates/Slice0/Obligations.lean ====
section
/-! DEFINITION. What is claimed of the machine: one statement per group of rules. A docstring names the rules, or the log entry where a
choice of the model stands in it. -/

open Sys2Proof Sys2Proof.Machine

namespace Sys2Proof.Claim

/-- A word with x in its field of w bits from bit lo. -/
def withField (p : Word) (lo w x : Nat) : Word :=
  BitVec.ofNat 64 (p.toNat / 2 ^ (lo + w) * 2 ^ (lo + w) + x * 2 ^ lo + p.toNat % 2 ^ lo)

/-- The number (−1)^neg × m × 2^e. -/
def num (neg : Bool) (m : Nat) (e : Int) : ℚ := (if neg then -1 else 1) * (m : ℚ) * (2 : ℚ) ^ e

/-- The number an exact result stands for, when it is finite and nothing lies below its last unit. -/
def value : Exact → Option ℚ
  | .fin neg m e false => some (num neg m e)
  | _ => none

/-- The operation of a scalar float row on x, y and the value of s[D], before its one rounding (R140, R144): rounding mode and generated NaN. -/
def floatOp : Instr → Option (Nat → Nat → FVal → FVal → FVal → ExactF)
  | .fadd => some fun m gn x y _ => opAdd m gn x y
  | .fsub => some fun m gn x y _ => opAdd m gn x y.negate
  | .fmul => some fun _ gn x y _ => opMul gn x y
  | .ffma => some fun m gn x y d => opFma m gn x y d
  | .fspecRcp => some fun _ gn x _ _ => opDiv gn (.fin false 1 0) x
  | .fspecRsqrt => some fun _ gn x _ _ => opRsqrt gn x
  | .fspecSqrt => some fun _ gn x _ _ => opSqrt gn x
  | .fspecDiv => some fun _ gn x y _ => opDiv gn x y
  | .fspecExp2 => some fun _ _ x _ _ => opExp2 x
  | .fspecLog2 => some fun _ gn x _ _ => opLog2 gn x
  | _ => none

/-- The FP32 value in bits [31:0] of a word (R139). -/
def single (a : Word) : FVal := f32 (a.toNat % 2 ^ 32)

/-- The state after the current context's flags became sticky and its SEED was replaced (R112, R115). -/
def flagged (s : State) (fl : FFlags) (seed : BitVec 32) : State := s.modCtx s.cur (fun k => { k with ff := k.ff ||| fl, seed := seed })

/-- The row completes with the rounded result r: its bits in s[D], zero-extended, its flags sticky, SEED advanced when it was used. -/
def GivesFloat (row : Instr) (s : State) (r : FpOut) : Prop :=
  Gives row s ((flagged (s.taken row) r.fl r.seed).ws s.cur s.op.d (BitVec.ofNat 64 r.bits))
    { Touch.none with s := [s.op.d], ff := true, seed := true }

/-- The n bytes at s[S1] + ofs are the bytes from a on of the core's own TCM: an aligned access that the context may make, to bytes without an
error, which no engine command and no remote access of the context hold back, with the conflict detector off. -/
structure InTcm (s : State) (ofs : Int) (n align : Nat) (k : AKind) (a : Nat) : Prop where
  core : s.cur.core.vt < 512 ∧ s.cur.core.pos < 192
  space : pSpc s.opA = 0 ∧ pRel s.opA = false ∧ unassigned s.opA = 0
  format : fmtOk s.opA = true ∧ (pFmt s.opA = 15 → s.feat0 5 = true)
  low : 0 ≤ (pOff s.opA : Int) + ofs
  high : (pOff s.opA : Int) + ofs + n ≤ 2 ^ 17
  aligned : ((pOff s.opA : Int) + ofs).toNat % align = 0
  permitted : s.permitted s.cur.core.vt (s.ctx s.cur).sup 0 ((pOff s.opA : Int) + ofs).toNat n k = true
  sound : s.poisoned a n = false
  unheld : s.sbHolds s.cur.core a (a + n) k.writes = false
  alone : ∀ m ∈ s.net, ∀ x, m.pl = .remote x → x.issuer ≠ s.cur
  detector : s.confOn s.cur = false
  at_ : a = flatTcm s.cur.core ((pOff s.opA : Int) + ofs).toNat

end Sys2Proof.Claim

/-! Encoding and decoding (chapter 02). -/

/-- Every well-formed instruction has an encoding, and decoding its head and tail gives the instruction back with every operand field
(R67–R69, R76–R81, R85). -/
def Obligations.DecodeEncode : Prop :=
  ∀ i : Inst, i.wellFormed = true → ∃ h tl, encode i = some (h, tl) ∧ tl.length = tailLen h ∧ decodeInstr h tl = .ok i

/-- Encoding what a head and its whole tail decode to gives the same halfwords back: the decoder drops no bit, and no two words decode to
one instruction (R67–R69, R76–R79).
The majors that R85 names are illegal whatever the other bits are: 0x00, 0x7f, 0x2f, 0x4c to 0x4f, 0x72 and 0x73; every other
major has an instruction form. -/
def Obligations.EncodeDecode : Prop :=
  (∀ (h : Half) (tl : List Half) (i : Inst), tl.length = tailLen h → decodeInstr h tl = .ok i → encode i = some (h, tl)) ∧
  (∀ (h : Half) (tl : List Half), let m := (h.extractLsb' 6 7).toNat
    (decodeInstr h tl = .error .illegalMajor ↔
      m = 0 ∨ m = 0x7f ∨ m = 0x2f ∨ (0x4c ≤ m ∧ m ≤ 0x4f) ∨ m = 0x72 ∨ m = 0x73))

/-- A line that holds one instruction is valid, has one head, and its head 0 decodes to what the instruction's halfwords decode to
(R67–R70). -/
def Obligations.LineHoldsInstruction : Prop :=
  ∀ (h : Half) (tl : List Half), tl.length = tailLen h → lineError (lineOf h tl) = none ∧ headCount (lineOf h tl) = 1 ∧
    decodeHead (lineOf h tl) 0 = decodeInstr h tl

/-- Words that the spec's examples encode, one or more of each family, decode to the instructions they stand for, with the operand fields the
examples name (Tables 40, 57, 65, 69, 140 to 154). -/
def Obligations.DecodeWords : Prop :=
  decodeInstr 0x8046 [0x0000, 0x0007] = .ok ⟨.add, { Fields.zero with t := 2, d := 3, imm := 7 }⟩ ∧
  decodeInstr 0xa588 [0x0000, 0x1234, 0x00c1] = .ok ⟨.liLo, { Fields.zero with t := 2, d := 4, imm := 0x1234, sync := some 0x00c1 }⟩ ∧
  decodeInstr 0x4e0c [0x18a0] = .ok ⟨.ld64, { Fields.zero with t := 1, d := 6, fn := 6, s1 := 5 }⟩ ∧
  decodeInstr 0x860a [0x04a0, 0x0008] = .ok ⟨.addpB, { Fields.zero with t := 2, d := 5, fn := 1, s1 := 5, imm := 8 }⟩ ∧
  decodeInstr 0x4542 [0x08c4] = .ok ⟨.cmpLt, { Fields.zero with t := 1, d := 1, fn := 2, s1 := 6, s2 := 4 }⟩ ∧
  decodeInstr 0x8842 [0x0000, 0x0002] = .ok ⟨.brpAny, { Fields.zero with t := 2, d := 1, imm := 2 }⟩ ∧
  decodeInstr 0x476a [0x0120] = .ok ⟨.pabs, { Fields.zero with t := 1, d := 21, s1 := 9 }⟩ ∧
  decodeInstr 0x8940 [0x0120, 0x0009] = .ok ⟨.fork, { Fields.zero with t := 2, s1 := 9, imm := 9 }⟩ ∧
  decodeInstr 0x8980 [0x02a0, 0x0021] = .ok ⟨.join, { Fields.zero with t := 2, s1 := 21, imm := 0x21 }⟩ ∧
  decodeInstr 0x2a00 [0x4040] = .ok ⟨.exit, { Fields.zero with sync := some 0x4040 }⟩ ∧
  decodeInstr 0x4cfc [0x021a] = .ok ⟨.ffma, { Fields.zero with t := 1, d := 30, s1 := 16, s2 := 26 }⟩ ∧
  decodeInstr 0xca80 [0x6000, 0x0000, 0x0180] = .ok ⟨.sleep, { Fields.zero with t := 3, pg := 3, imm := 0x01800000 }⟩ ∧
  decodeInstr 0x5030 [0x02e0] = .ok ⟨.ldfeTake, { Fields.zero with t := 1, d := 24, s1 := 23 }⟩ ∧
  decodeInstr 0x5070 [0xc2e0] = .ok ⟨.stfeFill, { Fields.zero with t := 1, d := 24, pg := 6, s1 := 23 }⟩ ∧
  decodeInstr 0xf0cc [0x0027, 0x0000, 0x0040, 0x41c0] = .ok ⟨.put, { Fields.zero with t := 3, d := 6, s1 := 9, sz := 3, imm := 0x40, sync := some 0x41c0 }⟩ ∧
  decodeInstr 0xd1c0 [0x000c, 0x0000, 0x0007] = .ok ⟨.cwait, { Fields.zero with t := 3, s1 := 3, imm := 7 }⟩ ∧
  decodeInstr 0x9100 [0x04aa, 0x2000] = .ok ⟨.ramoFadd, { Fields.zero with t := 2, fn := 9, s1 := 10, s2 := 4, sz := 2 }⟩ ∧
  decodeInstr 0x8ec6 [0x0043, 0x0028] = .ok ⟨.stl, { Fields.zero with t := 2, d := 3, s1 := 16, sz := 3, sc := 5 }⟩ ∧
  decodeInstr 0xcfc0 [0x0000, 0x0008, 0x0502] = .ok ⟨.xfence, { Fields.zero with t := 3, sc := 1, imm := 0x0502 }⟩ ∧
  decodeInstr 0xd8c8 [0x0012, 0x0004, 0x0003] = .ok ⟨.vscale, { Fields.zero with t := 3, d := 4, s1 := 4, sz := 2, md := 4, imm := 3 }⟩ ∧
  decodeInstr 0x9748 [0x001a, 0x01c4] = .ok ⟨.vst, { Fields.zero with t := 2, d := 4, s1 := 6, s3 := 7, sz := 2, md := 4 }⟩ ∧
  decodeInstr 0x5a80 [0x0400] = .ok ⟨.gang4, { Fields.zero with t := 1, fn := 1 }⟩ ∧
  decodeInstr 0x9b80 [0x0026, 0x0184] = .ok ⟨.mmas, { Fields.zero with t := 2, s1 := 9, sz := 2, s3 := 6, md := 4 }⟩ ∧
  decodeInstr 0x9bc0 [0x0128, 0x0006] = .ok ⟨.maccSt, { Fields.zero with t := 2, fn := 2, s1 := 10, md := 6 }⟩ ∧
  decodeInstr 0xdd80 [0x0014, 0x3000, 0x0f0c] = .ok ⟨.gthLatch, { Fields.zero with t := 3, s1 := 5, s2 := 6, imm := 0x0f0c }⟩ ∧
  decodeInstr 0xddcc [0x0014, 0x3a00, 0x0109] = .ok ⟨.collReduce, { Fields.zero with t := 3, d := 6, s1 := 5, s2 := 7, s3 := 8, imm := 0x0109 }⟩ ∧
  decodeInstr 0x9dca [0x41ac, 0x3000] = .ok ⟨.collDigest, { Fields.zero with t := 2, d := 5, pg := 2, fn := 3, s1 := 11, s2 := 6 }⟩ ∧
  decodeInstr 0x9e00 [0x00b4, 0x7000] = .ok ⟨.spurPost, { Fields.zero with t := 2, fn := 1, s1 := 13, s2 := 14 }⟩ ∧
  decodeInstr 0xdf48 [0x0014, 0x0000, 0x0103] = .ok ⟨.ownGive, { Fields.zero with t := 3, d := 4, s1 := 5, imm := 0x0103 }⟩

/-! The step, reset and memory (chapters 00, 01, 02, 10). -/

/-- A step whose turn is the issue slot of a core runs the instruction that its chosen context stands at: `exec` of the decoded row with
its operand fields, in the state whose fetch has succeeded and whose issue slot is taken. Before it, hardware has acted on control words just stored
(`follow`) and a context that stopped being ready is no longer yielded to (`pruneYields`). Entering the line (`enter`) leaves the state as it
is when the context stands within a line (R71, R352). A step whose turn is an event of the hardware runs the event's row. With vector or matrix instructions of the context outstanding the row runs ahead of them,
unless it is interlocked (R224, R237). When a report of a refused message waits for context 0, that comes instead, unless the instruction itself
traps (R276, R367). Which turn comes is the model's free value (log 2). -/
def Obligations.StepRunsDecoded : Prop :=
  (∀ (s s1 : State) (core : CoreId) (ahead : Bool) (rest : List Turn) (c : CtxId) (i : Inst),
    s.inputs = .issue core ahead :: rest →
    ({ s.follow.pruneYields with inputs := rest }).pick core = some c →
    ({ s.follow.pruneYields with inputs := rest }).enter c = .at_ s1 →
    decodeHead (s1.ctx c).line (headIndex (s1.ctx c).pc) = .ok i →
    s1.interlocked c = false →
    let go := { s1.granted (s1.members c) with cur := c, op := i.o, ahead := ahead || s1.busy c }
    (s1.reportDue c = false → step s = exec (s1.refine c i) go) ∧
    (s1.reportDue c = true → ∃ t, exec (s1.refine c i) go = .next t ∧ step s = .next (go.reportOr t))) ∧
  (∀ (s : State) (row : Instr) (a : EvArgs) (rest : List Turn), s.inputs = .event row a :: rest → row.info = .event →
    step s = exec row { s.follow.pruneYields with inputs := rest, cur := a.ctx, op := Fields.zero, ev := a, ahead := false })

/-- Control that reaches a head address in space 0 stands at it with the 64 bytes of its line, read from the core's TCM, when the line is
valid and its head count reaches the head, the fetch is permitted, the core holds no older copy of the line and no byte of it is poisoned
(R67, R70–R74); a context that runs a checked body of VSEQ takes the body's lines as its check found them instead (R227). -/
def Obligations.FetchReadsLine : Prop :=
  ∀ (s : State) (c : CtxId), let pc := (s.ctx c).pc
    let base := lineBase pc
    let line := s.bytes (flatTcm c.core (pOff base)) 64
    pSpc pc = 0 → pFmt pc = 0 → pBlk pc = 0 → pRel pc = false → unassigned pc = 0 → (pc.extractLsb' 0 6).toNat % 2 = 0 →
    (pc.extractLsb' 0 6).toNat ≠ 0 →
    s.permitted c.core.vt (s.ctx c).sup 0 (pOff base) 64 .fetch = true →
    (s.core c.core).code.find (flatTcm c.core (pOff base)) = none → (∀ x ∈ (s.ctx c).body, x.1 ≠ base) →
    s.poisoned (flatTcm c.core (pOff base)) 64 = false →
    lineError line = none → headIndex pc < headCount line →
    ∃ t, s.enterLine c = .at_ t ∧ (t.ctx c).line = line ∧ (t.ctx c).pc = pc ∧ (t.ctx c).entry = .inLine ∧ Frame s t c Touch.none

/-- Every step is a next state: no instruction, event or turn stops the machine or is refused. -/
def Obligations.StepNeverStops : Prop := ∀ s : State, ∃ t, step s = .next t

/-- Power-on reset leaves every helper free, every core outside any launch, counters, queues, decode table and gait store empty, TCM and
pool memory zero, and every system register at the value Table 13 and its bit maps give it (R43, R63): those with a number at that number, PLB2 with
CKBASE, CTXID, VTILE and VDIE with the identity and the mapping, HARVEST with the counts of the panel, FEAT0 and FEAT1 with the offered set. The spec gives
no reset value for the rest, and these are the model's choices: the PC, the scalar, predicate, vector, accumulator and latch registers are zero, p0 all ones
(log 3); pace, and with it PACE, and the count of edges are 0 (log 4); the panel is full (log 5); CKBASE is 760 (log 6). -/
def Obligations.ResetState : Prop :=
  (∀ (c : CtxId) (n : Nat) (w : Word),
    (n, w) ∈ [(0x01, 0), (0x02, 0), (0x03, 0x1400), (0x08, 0), (0x09, 0), (0x0b, 0), (0x0c, 0), (0x0d, 0), (0x0e, 0), (0x0f, 0), (0x10, 0), (0x11, 0),
      (0x12, 0), (0x13, 0), (0x14, 0x4000000000000000), (0x15, 0), (0x16, 0), (0x17, 0x01000000), (0x18, 0), (0x19, 0), (0x1a, 0), (0x1d, 0)] →
    State.reset.sysRead c n = w) ∧
  (∀ c : CtxId, c.core.vt < 512 → c.core.pos < 192 → c.ctx < 11 → let r := fun n => (State.reset.sysRead c n).toNat
    r 0x04 = c.core.pos * 2 ^ 32 + c.core.vt * 2 ^ 12 + c.core.pos * 2 ^ 4 + c.ctx ∧ r 0x05 = c.core.vt ∧ r 0x06 % 2 ^ 6 = c.core.vt / 8 ∧
    r 0x07 = 192 * 2 ^ 13 + 32 * 2 ^ 7 + 64 ∧ r 0x0a = 760 * 2 ^ 48 + 760 * 2 ^ 16 ∧ r 0x1b = Config.feat0.toNat ∧ r 0x1c = Config.feat1.toNat) ∧
  (∀ c : CtxId, let k := State.reset.ctx c
    k.st = (if c.ctx = 0 then .outside else .free) ∧ k.sup = false ∧ k.cause = 0 ∧ k.trapPc = 0 ∧ k.trapVal = 0 ∧ k.trapTag = 0 ∧ k.mode = 0 ∧ k.seed = 0 ∧
    k.ff = 0 ∧ k.lpct = 0 ∧ k.pc = 0 ∧ (∀ r, State.reset.rs c r = 0) ∧ (∀ r, State.reset.rp c r = if r = 0 then 0xffff else 0) ∧
    (∀ r, State.reset.rv c r = 0) ∧ (∀ r (i : Fin 256), (State.reset.ra c r)[i] = 0) ∧ ∀ r (i : Fin 16), (State.reset.rg c r)[i] = 0) ∧
  (∀ k : CoreId, let q := State.reset.core k
    q.launch = none ∧ q.runq = [] ∧ q.deque = [] ∧ q.dec = [] ∧ q.gaits = [] ∧ q.sb = [] ∧ (∀ n, (q.reinAt n) = ⟨0, false⟩) ∧ q.waitLim = 0x01000000 ∧
    q.barRect = 0 ∧ q.trapVec = 0 ∧ q.upcallVec = 0 ∧ q.classEn = 0 ∧ q.detmode = 0 ∧ q.ctlPrio = false) ∧
  (∀ a, flatKind a ≠ 2 → State.reset.byte a = 0) ∧ State.reset.featAck = 0 ∧ State.reset.pace = 0 ∧ State.reset.edges = 0

/-- At reset, memory is in its canonical form. -/
def Obligations.ResetMemoryCanonical : Prop := State.reset.memOk

/-- Memory stays in its canonical form whatever the step: an instruction, an event of the hardware, or time passing. -/
def Obligations.StepKeepsMemoryCanonical : Prop := ∀ s t : State, s.memOk → step s = .next t → t.memOk

/-- Bytes read back as they were stored last, lowest address first, and every other byte is unchanged (R15).
s0 reads as zero and p0 as all ones in every state and context, and writes to them change nothing; a write to any other register is
read back, and no other register changes with it (R21). -/
def Obligations.StorageReadsBack : Prop :=
  (∀ (s : State) (a : Nat) (l : List Byte), s.memOk →
    ((s.storeBytes a l).bytes a l.length = l ∧ (∀ b, (b < a ∨ a + l.length ≤ b) → (s.storeBytes a l).byte b = s.byte b)) ∧
    ∀ n x, (s.store a n x).load a n = x % 256 ^ n) ∧
  (∀ (s : State) (c : CtxId), s.rs c 0 = 0 ∧ s.rp c 0 = 0xffff ∧ (∀ x, s.ws c 0 x = s) ∧ (∀ x, s.wp c 0 x = s) ∧
    (∀ (r : BitVec 5) (x : Word), r ≠ 0 → (s.ws c r x).rs c r = x) ∧
    (∀ (r : BitVec 5) (x : Half), r ≠ 0 → r.toNat < 8 → (s.wp c r x).rp c r = x) ∧
    (∀ (r : BitVec 5) (x : Word), Frame s (s.ws c r x) c (Touch.reg r)) ∧
    (∀ (r : BitVec 5) (x : Half), Frame s (s.wp c r x) c (Touch.pred r)))

/-! Checks, waits, completion (R82, R84, R86). -/

/-- An instruction of a context alone whose checks of R86 steps 1 to 4 fail takes the trap of the first failing step, in the order ILLEGAL,
FEATURE_OFF, RESERVED_FIELD, PRIVILEGE, and has no effect of its own; it waits while vector or matrix instructions handed over before it are
outstanding, and while the stores of a running upcall's frame are held back.
An instruction of a context alone that passes its checks but whose sync halfword names a counter below its threshold does not issue: its
context waits for that counter, stands at the same head, and no register, flag or byte of memory changes (R84).
An instruction other than a vector instruction whose predicate has bit 0 clear completes with no effect of its own: its PC advances, its
sync halfword is performed, and no register, flag or byte of memory changes (R82). -/
def Obligations.IssueChecks : Prop :=
  (∀ (row : Instr) (s : State), row.info ≠ .event → (s.ctx s.cur).gang = none →
    let i : Inst := ⟨row, s.op⟩
    (s.ahead = false ∨ s.busy s.cur = false) →
    (s.illegalUse s.cur i = true → exec row s = .next (s.deliverOr s.cur [s.cur] 0 s.cur (Cause.illegal.at_ 0))) ∧
    (s.illegalUse s.cur i = false → s.featureOff i = true →
      exec row s = .next (s.deliverOr s.cur [s.cur] 0 s.cur (Cause.featureOff.at_ 0))) ∧
    (s.illegalUse s.cur i = false → s.featureOff i = false → i.fieldsOk = false →
      exec row s = .next (s.deliverOr s.cur [s.cur] 0 s.cur (Cause.reservedField.at_ 0))) ∧
    (s.illegalUse s.cur i = false → s.featureOff i = false → i.fieldsOk = true → s.noRight s.cur i = true →
      exec row s = .next (s.deliverOr s.cur [s.cur] 0 s.cur (Cause.privilege.at_ 0)))) ∧
  (∀ (row : Instr) (s : State) (n v : Nat), row.info ≠ .event → (s.ctx s.cur).gang = none → s.gate s.cur ⟨row, s.op⟩ = none →
    syncWait s.op = some (n, v) → ((s.core s.cur.core).reinAt n).v.toNat < v →
    ∃ t, exec row s = .next t ∧ (t.ctx s.cur).st = .waiting (.counter n v) (s.edgesAt s.cur.core.vt) ∧ (t.ctx s.cur).pc = (s.ctx s.cur).pc ∧
      (t.ctx s.cur).count = (s.ctx s.cur).count ∧ t.cores = s.cores ∧ Frame s t s.cur Touch.none) ∧
  (∀ (row : Instr) (s : State), row.info ≠ .event → s.ahead = false → (s.ctx s.cur).gang = none → s.gate s.cur ⟨row, s.op⟩ = none →
    s.syncHeld s.op [s.cur] = none → s.exchangeDue s.cur row s.op = false → s.predicatedOff s.cur ⟨row, s.op⟩ = true →
    exec row s = .next (s.after row .next s.synced) ∧ Frame s (s.after row .next s.synced) s.cur Touch.none)

/-- Completing an instruction advances the PC, to the next head of the line, by fall-through after the last head, or to a jump's target,
counts the instruction, leaves the context ready, and changes no register, flag or byte of memory, whatever is signalled (R71, R84).
The signal of a completing instruction adds to the counter it names, saturating at 0xffff, and to no other; a posted access does not
signal when it completes (R27, R84, R168). -/
def Obligations.CompletionAdvancesAndSignals : Prop :=
  (∀ (s : State) (c : CtxId) (row : Instr) (o : Fields) (off : Bool) (ctl : Ctl) (g : Option (Nat × Nat)), ctl ≠ .ended → let t := s.complete c row o off ctl g
    (t.ctx c).pc = (match ctl with | .jump a => a | _ => (nextHead (s.ctx c).line (s.ctx c).pc).1) ∧
    (t.ctx c).entry = (match ctl with | .jump _ => .from_ (s.ctx c).pc | _ => (nextHead (s.ctx c).line (s.ctx c).pc).2) ∧
    (t.ctx c).count = (s.ctx c).count + 1 ∧ (t.ctx c).st = .ready ∧ Frame s t c Touch.none) ∧
  (∀ (s : State) (c : CtxId) (row : Instr) (o : Fields) (off : Bool) (ctl : Ctl) (g : Option (Nat × Nat)), ctl ≠ .ended → consumedOf row o = none →
    let t := s.complete c row o off ctl g
    ∀ n, ((t.core c.core).reinAt n).v.toNat =
      (match g with
        | some (m, inc) => if ctl ≠ .async ∧ n = m then min (((s.core c.core).reinAt n).v.toNat + inc) 0xffff
                           else ((s.core c.core).reinAt n).v.toNat
        | none => ((s.core c.core).reinAt n).v.toNat))

/-! Taking an exception and returning from it (R158, R159, R360–R363). -/

/-- A precise trap of a context without a frame of an upcall, and not in supervisor mode with a frame held: the frame is written, the mode
becomes supervisor, control goes on at TRAPVEC, and no other register and no byte of memory changes (R39, R360).
PAGE_ABSENT in user mode with UPCALLVEC nonzero and no upcall running is an upcall: the frame is written with UPCALL set, the mode stays
user, control goes on at UPCALLVEC, and no other register and no byte of memory changes (R362).
A trap in supervisor mode while CAUSE is not 0 is a double trap: the context halts, the trap registers keep the first frame, and the
die's fault queue receives a kind 4 entry with the new cause and PC (R361, R365). An entry through TRAPVEC or UPCALLVEC whose fetch fails is a
double trap in either mode (R39, R361).
While an upcall runs, a trap stores the upcall's frame below s2, as four doublewords TRAPCAUSE, TRAPPC, TRAPVAL, TRAPTAG from s2 − 32
up, and moves s2 down by 32 before its own frame is written and control goes on at TRAPVEC (R362); for an s2 that points into the core's own
TCM, of a context outside an activation, in a core outside a pair, with no access held back and no remote access of its own on its way. -/
def Obligations.TrapsAndUpcallsEnter : Prop :=
  (∀ (s : State) (c : CtxId) (pc : Word) (t : Tr), t.cause ≠ .uncorrectable → t.detail < 256 → let k := s.ctx c
    ¬(k.sup = true ∧ k.causeCode ≠ 0) → k.upcallBit = false →
    ¬(t.cause = .pageAbsent ∧ k.sup = false ∧ (s.core c.core).upcallVec ≠ 0) →
    let u := s.takeTrap c pc false t
    (u.ctx c).causeCode = t.cause.code ∧ (u.ctx c).cause.getLsbD 8 = false ∧ (u.ctx c).cause.getLsbD 9 = false ∧
    ((u.ctx c).cause.extractLsb' 16 8).toNat = t.detail ∧ (u.ctx c).trapPc = pc ∧ (u.ctx c).trapVal = t.val ∧
    ((u.ctx c).trapTag.extractLsb' 0 32).toNat = (s.ctx c).count % 2 ^ 32 ∧
    (u.ctx c).sup = true ∧ (u.ctx c).pc = (s.core c.core).trapVec ∧ (u.ctx c).entry = .vector ∧ (u.ctx c).st = .ready ∧
    (∀ r, u.rs c r = s.rs c r) ∧ (∀ r, u.rp c r = s.rp c r) ∧ (u.ctx c).ff = k.ff ∧ (u.ctx c).mode = k.mode ∧ u.mem = s.mem ∧
    u.cores = s.cores ∧ (∀ d : CtxId, d.key ≠ c.key → u.ctx d = s.ctx d)) ∧
  (∀ (s : State) (c : CtxId) (pc : Word) (t : Tr), t.cause = .pageAbsent → t.detail < 256 → let k := s.ctx c
    k.sup = false → (s.core c.core).upcallVec ≠ 0 → k.upcallBit = false →
    let u := s.takeTrap c pc false t
    (u.ctx c).causeCode = 0x09 ∧ (u.ctx c).upcallBit = true ∧ ((u.ctx c).cause.extractLsb' 16 8).toNat = t.detail ∧
    (u.ctx c).trapPc = pc ∧ (u.ctx c).trapVal = t.val ∧ (u.ctx c).sup = false ∧ (u.ctx c).pc = (s.core c.core).upcallVec ∧
    (u.ctx c).entry = .vector ∧ (∀ r, u.rs c r = s.rs c r) ∧ (∀ r, u.rp c r = s.rp c r) ∧ u.mem = s.mem) ∧
  (∀ (s : State) (c : CtxId) (pc : Word) (imprecise : Bool) (t : Tr) (slot : Nat), s.memOk → t.cause ≠ .uncorrectable → let k := s.ctx c
    k.sup = true → k.causeCode ≠ 0 → s.freeSlot (dieOf c.core.vt) 255 0 = some slot →
    let u := s.takeTrap c pc imprecise t
    let a := faultSlot (dieOf c.core.vt) slot
    (u.ctx c).st = .halted t.cause.code ∧ (u.ctx c).cause = k.cause ∧ (u.ctx c).trapPc = k.trapPc ∧ (u.ctx c).trapVal = k.trapVal ∧
    (u.ctx c).trapTag = k.trapTag ∧ u.load a 8 = pc.toNat ∧ u.byte (a + 15) = BitVec.ofNat 8 t.cause.code ∧ u.byte (a + 16) = 4 ∧
    u.byte (a + 17) = 1) ∧
  (∀ (s : State) (c : CtxId) (pc : Word) (t : Tr), (s.ctx c).entry = .vector → s.fetchTrap c pc t = s.doubleTrap c pc t) ∧
  (∀ (s : State) (c : CtxId) (pc : Word) (t : Tr), s.memOk → t.cause ≠ .uncorrectable → t.cause ≠ .pageAbsent → let k := s.ctx c
    let p := s.rs c 2
    k.sup = false → k.upcallBit = true → k.act.task = none → (s.core c.core).tandem = none → (s.core c.core).sb = [] →
    (∀ i, (s.ctx ⟨c.core, i⟩).act.task = none) → c.core.vt < 512 → c.core.pos < 192 → (s.core c.core).detmode.getLsbD 0 = false →
    (∀ m ∈ s.net, ∀ x, m.pl = .remote x → x.issuer ≠ c) → p.toNat < 2 ^ 17 → 32 ≤ p.toNat → p.toNat % 8 = 0 →
    (∀ i < 4, s.permitted c.core.vt false 0 (p.toNat - 32 + 8 * i) 8 .write = true) →
    let u := s.takeTrap c pc false t
    let a := flatTcm c.core (p.toNat - 32)
    u.load a 8 = k.cause.toNat ∧ u.load (a + 8) 8 = k.trapPc.toNat ∧ u.load (a + 16) 8 = k.trapVal.toNat ∧
    u.load (a + 24) 8 = k.trapTag.toNat ∧ (u.rs c 2).toNat = p.toNat - 32 ∧ (u.ctx c).causeCode = t.cause.code ∧
    (u.ctx c).upcallBit = false ∧ (u.ctx c).trapPc = pc ∧ (u.ctx c).sup = true ∧ (u.ctx c).pc = (s.core c.core).trapVec ∧
    (∀ b, ¬(a ≤ b ∧ b < a + 32) → u.byte b = s.byte b))


/-! Integer, compare, constants and moves (chapter 04). -/

/-- The integer instructions that read A and B write s[D] with the result of Table 50, read their sources before they write, set no flag and
take no execution trap; nothing but s[D] changes (R125, R129). -/
def Obligations.IntegerResults : Prop :=
  ∀ (row : Instr) (f : Word → Word → Word) (s : State), Claim.integer row = some f → s.Ready row → GivesReg row s (f s.opA s.opB)

/-- The bit counts and extensions write s[D] with a value that stands to A as Table 50 says. BFX extracts bits [p+w−1:p] of A, zero-extended or
extended from bit w − 1; BFI replaces bits [p+w−1:p] of s[D] by a[w−1:0]; a field that would pass bit 63 is cut there. SEL takes A when
bit 0 of p[FN] is set, else B. Nothing but s[D] changes (R129, Table 50).
LI.lo writes B; LI.hi writes B[31:0] above the low half of s[D]. MOV moves between scalar and predicate registers as Table 51 says; a
form with T ≥ 2 reads a zero second predicate (R131, R132). -/
def Obligations.CountsFieldsSelectAndMoves : Prop :=
  (∀ (row : Instr) (f : Word → Word → Prop) (s : State), Claim.unary row = some f → s.Ready row →
    ∃ v, f s.opA v ∧ GivesReg row s v) ∧
  (∀ s : State, s.Ready .bfxU → ∃ v, GivesReg .bfxU s v ∧ ∀ i < 64, v.getLsbD i =
    (decide (i < Claim.fieldWidth s.opB) && s.opA.getLsbD (Claim.fieldPos s.opB + i))) ∧
  (∀ s : State, s.Ready .bfxS → ∃ v, GivesReg .bfxS s v ∧ ∀ i < 64, v.getLsbD i =
    s.opA.getLsbD (Claim.fieldPos s.opB + min i (Claim.fieldWidth s.opB - 1))) ∧
  (∀ s : State, s.Ready .bfi → ∃ v, GivesReg .bfi s v ∧ ∀ i < 64, v.getLsbD i =
    if Claim.fieldPos s.opB ≤ i ∧ i < Claim.fieldPos s.opB + Claim.fieldWidth s.opB then s.opA.getLsbD (i - Claim.fieldPos s.opB)
    else s.opD.getLsbD i) ∧
  (∀ s : State, s.Ready .sel →
    GivesReg .sel s (if (s.rp s.cur (s.op.fn.setWidth 5)).getLsbD 0 = true then s.opA else s.opB)) ∧
  (∀ s : State, s.Ready .liLo → GivesReg .liLo s s.opB) ∧
  (∀ s : State, s.Ready .liHi → GivesReg .liHi s (BitVec.ofNat 64 (s.opB.toNat % 2 ^ 32 * 2 ^ 32 + s.opD.toNat % 2 ^ 32))) ∧
  (∀ s : State, s.Ready .mov → GivesReg .mov s s.opA) ∧
  (∀ s : State, s.Ready .movP → GivesPred .movP s (s.rp s.cur s.op.s1)) ∧
  (∀ s : State, s.Ready .movSp → GivesReg .movSp s (BitVec.ofNat 64 (s.rp s.cur s.op.s1).toNat)) ∧
  (∀ s : State, s.Ready .movPs → GivesPred .movPs s (BitVec.ofNat 16 s.opA.toNat)) ∧
  (∀ s : State, s.Ready .movPand →
    GivesPred .movPand s (s.rp s.cur s.op.s1 &&& (if 2 ≤ s.op.t.toNat then 0 else s.rp s.cur s.op.s2))) ∧
  (∀ s : State, s.Ready .movPor →
    GivesPred .movPor s (s.rp s.cur s.op.s1 ||| (if 2 ≤ s.op.t.toNat then 0 else s.rp s.cur s.op.s2))) ∧
  (∀ s : State, s.Ready .movPnot → GivesPred .movPnot s (~~~(s.rp s.cur s.op.s1)))

/-- CMP writes all 16 bits of p[D]: 0xffff when the condition of its function code holds of A and B and 0x0000 otherwise; a write to p0 is
discarded; nothing else changes (R130). -/
def Obligations.CompareResults : Prop :=
  ∀ (row : Instr) (f : Word → Word → Bool) (s : State), Claim.compare row = some f → s.Ready row →
    GivesPred row s (if f s.opA s.opB = true then 0xffff else 0)

/-- In a gang, an integer instruction that reads A and B is executed by every member on its own registers: every member completes it with the
result of Table 50 in its own s[D] (R127, R232, Table 49); for distinct members that all pass their checks and sync waits, none of which
has performed its part, with no fingerprint exchange due. -/
def Obligations.IntegerInGang : Prop :=
  ∀ (row : Instr) (f : Word → Word → Word) (s : State) (g : GangRole), Claim.integer row = some f → (s.ctx s.cur).gang = some g →
    2 ≤ g.members.length → (g.members.map CtxId.key).Nodup → (∀ c ∈ g.members, s.gate c ⟨row, s.op⟩ = none) →
    s.syncHeld s.op g.members = none → s.exchangeDue s.cur row s.op = false →
    (∀ c ∈ g.members, (s.ctx c).gdone = 0 ∧ s.predicatedOff c ⟨row, s.op⟩ = false) →
    ∃ t, exec row s = .next t ∧ (∀ c ∈ g.members, (t.ctx c).st = .ready ∧
      ∀ r, t.rs c r = if r = s.op.d ∧ r ≠ 0 then f (s.rs c s.op.s1) (if 2 ≤ s.op.t.toNat then s.op.immS else s.rs c s.op.s2) else s.rs c r) ∧
      (∀ e : CtxId, (∀ c ∈ g.members, e.key ≠ c.key) → ∀ r, t.rs e r = s.rs e r) ∧ t.mem = s.mem

/-! Pointers and control (chapter 04). -/

/-- ADDP and ADDP.b advance the offset field of A by B units, in the order of traps of R134, with TRAPVAL A; SUBP and SUBP.b write the
distance from B to A in units or bytes after the same checks of A; MKP replaces the offset field. Every other bit of the pointer passes
through (R133–R136). -/
def Obligations.PointerArithmetic : Prop :=
  (∀ (row : Instr) (scaled : Bool) (s : State), (row, scaled) ∈ [(Instr.addp, true), (.addpB, false)] → s.Ready row → let p := s.opA
    if pFmt p = 15 ∧ s.feat0 5 = false then Traps row s (Cause.featureOff.at_ p) (s.taken row)
    else if fmtOk p = false then Traps row s (Cause.format.at_ p) (s.taken row)
    else if 6 ≤ pSpc p then Traps row s (Cause.space.at_ p) (s.taken row)
    else match Claim.moved p (s.opB.toInt * ptrUnit p scaled) with
      | some q => GivesReg row s q
      | none => Traps row s (Cause.offsetOverflow.at_ p) (s.taken row)) ∧
  (∀ (row : Instr) (scaled : Bool) (s : State), (row, scaled) ∈ [(Instr.subp, true), (.subpB, false)] → s.Ready row → let p := s.opA
    let w := Claim.offBits (pSpc p)
    if pFmt p = 15 ∧ s.feat0 5 = false then Traps row s (Cause.featureOff.at_ p) (s.taken row)
    else if fmtOk p = false then Traps row s (Cause.format.at_ p) (s.taken row)
    else if 6 ≤ pSpc p then Traps row s (Cause.space.at_ p) (s.taken row)
    else if p.toNat / 2 ^ w ≠ s.opB.toNat / 2 ^ w then Traps row s (Cause.space.at_ s.opB) (s.taken row)
    else GivesReg row s (BitVec.ofInt 64 (((p.toNat % 2 ^ w : Nat) - (s.opB.toNat % 2 ^ w : Nat) : Int).tdiv (ptrUnit p scaled)))) ∧
  (∀ s : State, s.Ready .mkp → let p := s.opA
    if 6 ≤ pSpc p then Traps .mkp s (Cause.space.at_ p) (s.taken .mkp)
    else if s.opB.toInt < 0 ∨ (2 : Int) ^ Claim.offBits (pSpc p) ≤ s.opB.toInt then Traps .mkp s (Cause.offsetOverflow.at_ p) (s.taken .mkp)
    else GivesReg .mkp s (Claim.withOff p s.opB.toNat))

/-- PSET writes A with a field replaced by B, PGET writes the field zero-extended: psetFmt, psetBlk, psetSpc and psetRel and their PGET complete in every
space, psetTile, psetDie, psetOff and psetCore and their PGET in the spaces that have the field; elsewhere both trap SPACE, and PSET traps OFFSET_OVERFLOW for
.off and SPACE for every other field when B does not fit the width; TRAPVAL holds A (R137).
PABS writes the pointer that other cores can use, or traps SPACE with TRAPVAL A (R138): with REL set, the coordinate fields of spaces 1 to 5 are
signed offsets from the core's own tile, position or die, each replaced by its sum, SPACE when a sum falls outside 0 to 511, x 0 to 11, y 0 to 15 or 0 to 63
(R55); without REL a pointer of spaces 1 to 5 is written as it is; the core's own TCM is named as space 2 by virtual tile, x and y; space 6 and 7, and REL in
space 0, trap. -/
def Obligations.PointerFieldsAndPabs : Prop :=
  (∀ s : State, let a := s.opA
    let b := s.opB.toNat
    let set := fun (row : Instr) (lo w : Nat) => s.Ready row → b < 2 ^ w → GivesReg row s (Claim.withField a lo w b)
    let get := fun (row : Instr) (lo w : Nat) => s.Ready row → GivesReg row s (BitVec.ofNat 64 (a.toNat / 2 ^ lo % 2 ^ w))
    set .psetFmt 59 5 ∧ set .psetBlk 56 3 ∧ set .psetSpc 53 3 ∧ set .psetRel 52 1 ∧ get .pgetFmt 59 5 ∧ get .pgetBlk 56 3 ∧ get .pgetSpc 53 3 ∧
    get .pgetRel 52 1 ∧
    (pSpc a = 1 ∨ pSpc a = 2 ∨ pSpc a = 4 → set .psetTile 43 9 ∧ get .pgetTile 43 9) ∧
    (pSpc a = 3 ∨ pSpc a = 5 → set .psetDie 46 6 ∧ get .pgetDie 46 6) ∧
    (pSpc a = 2 → set .psetCore 35 8 ∧ get .pgetCore 35 8) ∧
    (pSpc a = 0 ∨ pSpc a = 2 → set .psetOff 0 17 ∧ get .pgetOff 0 17) ∧ (pSpc a = 1 → set .psetOff 0 26 ∧ get .pgetOff 0 26) ∧
    (pSpc a = 3 → set .psetOff 0 27 ∧ get .pgetOff 0 27) ∧ (pSpc a = 4 → set .psetOff 0 23 ∧ get .pgetOff 0 23) ∧
    (pSpc a = 5 → set .psetOff 0 46 ∧ get .pgetOff 0 46)) ∧
  (∀ (row : Instr) (s : State), row ∈ [Instr.psetFmt, .psetBlk, .psetSpc, .psetRel, .psetTile, .psetDie, .psetOff, .psetCore] ++
      [Instr.pgetFmt, .pgetBlk, .pgetSpc, .pgetRel, .pgetTile, .pgetDie, .pgetOff, .pgetCore] → s.Ready row →
    Claim.pointerField (pSpc s.opA) row = none → Traps row s (Cause.space.at_ s.opA) (s.taken row)) ∧
  (∀ (row : Instr) (s : State) (lo w : Nat), row ∈ [Instr.psetFmt, .psetBlk, .psetSpc, .psetRel, .psetTile, .psetDie, .psetOff, .psetCore] →
    s.Ready row → Claim.pointerField (pSpc s.opA) row = some (lo, w) → s.opB.toNat < 2 ^ w → GivesReg row s (Claim.withField s.opA lo w s.opB.toNat)) ∧
  (∀ (row : Instr) (s : State) (lo w : Nat), row ∈ [Instr.pgetFmt, .pgetBlk, .pgetSpc, .pgetRel, .pgetTile, .pgetDie, .pgetOff, .pgetCore] →
    s.Ready row → Claim.pointerField (pSpc s.opA) row = some (lo, w) → GivesReg row s (BitVec.ofNat 64 (s.opA.toNat / 2 ^ lo % 2 ^ w))) ∧
  (∀ (row : Instr) (s : State) (lo w : Nat), row ∈ [Instr.psetFmt, .psetBlk, .psetSpc, .psetRel, .psetTile, .psetDie, .psetOff, .psetCore] →
    s.Ready row → Claim.pointerField (pSpc s.opA) row = some (lo, w) → 2 ^ w ≤ s.opB.toNat →
    Traps row s ((if row = .psetOff then Cause.offsetOverflow else Cause.space).at_ s.opA) (s.taken row)) ∧
  (∀ s : State, s.Ready .pabs → match absPtr s.cur.core s.opA with
    | none => Traps .pabs s (Cause.space.at_ s.opA) (s.taken .pabs)
    | some q => GivesReg .pabs s q) ∧
  (∀ s : State, s.Ready .pabs → 1 ≤ pSpc s.opA → pSpc s.opA < 6 → pRel s.opA = false → GivesReg .pabs s s.opA) ∧
  ∀ (c : CoreId) (p : Word), c.vt < 512 → c.pos < 192 → let plain := BitVec.ofNat 64 (p.toNat - 2 ^ 52)
    (6 ≤ pSpc p → absPtr c p = none) ∧ (pRel p = true → pSpc p = 0 → absPtr c p = none) ∧
    (pRel p = false → 1 ≤ pSpc p → pSpc p < 6 → absPtr c p = some p) ∧
    (pRel p = false → pSpc p = 0 → ∃ q, absPtr c p = some q ∧ pSpc q = 2 ∧ pTile q = c.vt ∧ pX q = c.pos % 12 ∧ pY q = c.pos / 12 ∧
      pFmt q = pFmt p ∧ pBlk q = pBlk p ∧ pRel q = false ∧ pOff q = pOff p) ∧
    (pRel p = true → pSpc p = 1 ∨ pSpc p = 4 → let t : Int := c.vt + (BitVec.ofNat 9 (pTile p)).toInt
      absPtr c p = if 0 ≤ t ∧ t ≤ 511 then some (Claim.withField plain 43 9 t.toNat) else none) ∧
    (pRel p = true → pSpc p = 3 ∨ pSpc p = 5 → let d : Int := (c.vt / 8 : Nat) + (BitVec.ofNat 6 (pDie p)).toInt
      absPtr c p = if 0 ≤ d ∧ d ≤ 63 then some (Claim.withField plain 46 6 d.toNat) else none) ∧
    (pRel p = true → pSpc p = 2 → let t : Int := c.vt + (BitVec.ofNat 9 (pTile p)).toInt
      let x : Int := (c.pos % 12 : Nat) + (BitVec.ofNat 4 (pX p)).toInt
      let y : Int := (c.pos / 12 : Nat) + (BitVec.ofNat 4 (pY p)).toInt
      absPtr c p = if 0 ≤ t ∧ t ≤ 511 ∧ 0 ≤ x ∧ x ≤ 11 ∧ 0 ≤ y ∧ y ≤ 15 then
        some (Claim.withField (Claim.withField (Claim.withField plain 43 9 t.toNat) 39 4 x.toNat) 35 4 y.toNat) else none)

/-- BR transfers to its target, BRP when the condition holds on all 16 bits of p[D] and otherwise falls through; a target outside the offset
field traps OFFSET_OVERFLOW with the base of the branch's line, whether or not the branch is taken; nothing else changes (R77, R145).
JAL and JALR write the link value, the next head or the fall-through address, to s[D] and transfer control: JAL to its target, JALR to
s[S1] moved by 2 × IMM within its offset field, read before s[D] is written. Carries trap OFFSET_OVERFLOW; a JALR through space 6 or 7 traps
SPACE when IMM is not 0 and completes when it is (R77, R146). LOOP counts LPCT down and transfers while it is not 0 (R147). -/
def Obligations.BranchesCallsAndLoops : Prop :=
  (∀ s : State, s.Ready .br → match Claim.target s with
    | some t => GivesJump .br s t (s.taken .br) Touch.none
    | none => Traps .br s (Cause.offsetOverflow.at_ (Claim.lineOfPc (s.ctx s.cur).pc)) (s.taken .br)) ∧
  (∀ (row : Instr) (f : Half → Bool) (s : State),
    (row, f) ∈ [(Instr.brpAny, fun p => p != 0), (.brpAll, fun p => p == 0xffff), (.brpNone, fun p => p == 0), (.brpNall, fun p => p != 0xffff)] →
    s.Ready row → match Claim.target s with
    | some t => if f (s.rp s.cur s.op.d) = true then GivesJump row s t (s.taken row) Touch.none else Gives row s (s.taken row) Touch.none
    | none => Traps row s (Cause.offsetOverflow.at_ (Claim.lineOfPc (s.ctx s.cur).pc)) (s.taken row)) ∧
  (∀ s : State, s.Ready .jal → match Claim.target s, Claim.link s with
    | some t, some l => GivesJump .jal s t ((s.taken .jal).ws s.cur s.op.d l) (Touch.reg s.op.d)
    | _, _ => Traps .jal s (Cause.offsetOverflow.at_ (Claim.lineOfPc (s.ctx s.cur).pc)) (s.taken .jal)) ∧
  (∀ s : State, s.Ready .jalr →
    if 6 ≤ pSpc s.opA ∧ s.op.immS ≠ 0 then Traps .jalr s (Cause.space.at_ s.opA) (s.taken .jalr)
    else match (if 6 ≤ pSpc s.opA then some s.opA else Claim.moved s.opA (s.op.immS.toInt * 2)), Claim.link s with
      | some t, some l => GivesJump .jalr s t ((s.taken .jalr).ws s.cur s.op.d l) (Touch.reg s.op.d)
      | none, _ => Traps .jalr s (Cause.offsetOverflow.at_ s.opA) (s.taken .jalr)
      | some _, none => Traps .jalr s (Cause.offsetOverflow.at_ (Claim.lineOfPc (s.ctx s.cur).pc)) (s.taken .jalr)) ∧
  (∀ s : State, s.Ready .loop → let n := (s.ctx s.cur).lpct
    match Claim.target s with
    | some t =>
      let s' := (s.taken .loop).modCtx s.cur (fun k => { k with lpct := n - 1 })
      if n = 0 then ∃ u, Gives .loop s u Touch.none
      else if n = 1 then Gives .loop s s' { Touch.none with lpct := true } else GivesJump .loop s t s' { Touch.none with lpct := true }
    | none => Traps .loop s (Cause.offsetOverflow.at_ (Claim.lineOfPc (s.ctx s.cur).pc)) (s.taken .loop))

/-- FORK pushes one entry at the bottom of its core's deque: the target, the absolute forms of s2 and of s[S1], and its context identity;
with 16 entries it waits, and so it does for the acknowledgement of posted accesses of its context, being a release at tile scope (R148).
JOIN, with nothing of its context outstanding and no error to report, decrements the counter at its checked address, modulo 2^64: at 1
it goes on at its target; otherwise its helper ends and becomes free, and context 0 stays, its decrement made, until it may leave. No byte
outside the counter changes (R150, R152). Both complete (fork, join), JOIN for a counter in the core's own TCM whenever nothing stands against the access. -/
def Obligations.ForkAndJoin : Prop :=
  (∀ (s : State) (t frame join : Word), s.Ready .fork → Claim.target s = some t → absPtr s.cur.core (s.rs s.cur 2) = some frame →
    absPtr s.cur.core s.opA = some join →
    (16 ≤ (s.core s.cur.core).deque.length → Waits .fork s .forkFull (s.taken .fork)) ∧
    ((s.core s.cur.core).deque.length < 16 → 0 < (s.ctx s.cur).posted → Waits .fork s .earlier (s.taken .fork)) ∧
    ((s.core s.cur.core).deque.length < 16 → (s.ctx s.cur).posted = 0 → ∃ s' e, Gives .fork s s' Touch.none ∧
      (s'.core s.cur.core).deque = e :: (s.core s.cur.core).deque ∧ e.cont = t ∧ e.frame = frame ∧ e.join = join ∧
      e.src = BitVec.ofNat 64 (identC s.cur))) ∧
  (∀ (s s1 : State) (t : Word) (a : Nat), s.memOk → s.Ready .join → Claim.target s = some t → (s.ctx s.cur).joined = false →
    (s.taken .join).coreAddr0 s.cur { base := s.opA, ofs := 0, n := 8, align := 8, k := .rmw, spaces := [0, 1, 2], plain := false, held := true }
      = .ok (a, s1) →
    s1 = (s.taken .join) → s.settled s.cur = true → (s.ctx s.cur).err = none → s.poisoned a 8 = false →
    (s.load a 8 = 1 → ∃ s', GivesJump .join s t s' { Touch.none with lo := a, hi := a + 8 } ∧ s'.load a 8 = 0) ∧
    (s.cur.ctx = 0 → s.load a 8 ≠ 1 → ∃ s', Waits .join s .exit s' ∧ s'.load a 8 = (s.load a 8 + (2 ^ 64 - 1)) % 2 ^ 64 ∧
      (s'.ctx s.cur).joined = true ∧ ∀ b, ¬(a ≤ b ∧ b < a + 8) → s'.byte b = s.byte b) ∧
    (s.cur.ctx ≠ 0 → s.load a 8 ≠ 1 → ∃ s', Completes .join s .ended s' ∧ s'.load a 8 = (s.load a 8 + (2 ^ 64 - 1)) % 2 ^ 64 ∧ (s'.ctx s.cur).st = .free ∧
      ∀ b, ¬(a ≤ b ∧ b < a + 8) → s'.byte b = s.byte b)) ∧
  (∀ (s : State) (t : Word) (a : Nat), s.memOk → s.Ready .join → Claim.target s = some t → (s.ctx s.cur).joined = false →
    Claim.InTcm s 0 8 8 .rmw a → s.settled s.cur = true → (s.ctx s.cur).err = none →
    (s.load a 8 = 1 → ∃ s', GivesJump .join s t s' { Touch.none with lo := a, hi := a + 8 }) ∧
    (s.cur.ctx ≠ 0 → s.load a 8 ≠ 1 → ∃ s', Completes .join s .ended s' ∧ (s'.ctx s.cur).st = .free))

/-- SPAWN starts the lowest-numbered free helper at its target, with s20 = s[S1], s21 to s26 zero, s27 the identity of context 0 and s2 the
top of its stack, and writes its number to s[D]; with no free helper it writes 0 and starts nothing (R65, R151). As a release at core scope it first
waits for its context's posted accesses (R167, R310).
EXIT of a helper with nothing outstanding and no error to report ends its context: the helper is free. EXIT of context 0 makes its core
leave the launch when R153 allows it and waits otherwise; with earlier work outstanding every EXIT waits (R152, R153). -/
def Obligations.SpawnAndExit : Prop :=
  (∀ (s : State) (t : Word) (l : CoreLaunch), s.Ready .spawn → Claim.target s = some t → (s.core s.cur.core).launch = some l → s.cur.ctx = 0 →
      (s.freeHelperOf s.cur.core = none → GivesReg .spawn s 0) ∧
      (∀ h, s.freeHelperOf s.cur.core = some h → 0 < (s.ctx s.cur).posted → Waits .spawn s .earlier (s.taken .spawn)) ∧
      (∀ h, s.freeHelperOf s.cur.core = some h → (s.ctx s.cur).posted = 0 → ∃ s', Completes .spawn s .next s' ∧ let c : CtxId := ⟨s.cur.core, h⟩
        (s'.ctx c).st = .ready ∧ (s'.ctx c).pc = t ∧ (s'.ctx c).entry = .from_ (s.ctx s.cur).pc ∧ (s'.ctx c).sup = false ∧
        s'.rs c 20 = s.opA ∧ s'.rs c 27 = BitVec.ofNat 64 (identC s.cur) ∧ (∀ r, 21 ≤ r.toNat → r.toNat ≤ 26 → s'.rs c r = 0) ∧
        s'.rs c 2 = BitVec.ofNat 64 (0x1ffc0 - h * l.stack) ∧ s'.rs s.cur s.op.d = (if s.op.d = 0 then 0 else BitVec.ofNat 64 h) ∧
        s'.mem = s.mem)) ∧
  (∀ s : State, s.Ready .exit →
      (s.settled s.cur = false → Waits .exit s .earlier (s.taken .exit)) ∧
      (s.settled s.cur = true → (s.ctx s.cur).err = none →
        (s.cur.ctx ≠ 0 → ∃ s', Completes .exit s .ended s' ∧ (s'.ctx s.cur).st = .free ∧ s'.mem = s.mem) ∧
        (s.cur.ctx = 0 → s.mayLeave s.cur.core = true → ∃ s', Completes .exit s .ended s' ∧ (s'.core s.cur.core).launch = none ∧
          s'.mem = s.mem) ∧
        (s.cur.ctx = 0 → s.mayLeave s.cur.core = false → Waits .exit s .exit (s.taken .exit))))

/-- YIELD completes at once and lets every other ready context of its core go first. SLEEP stops its context until an event wakes it, listed
when IMM is 0 and timed by IMM otherwise, and WAITDEP until every producer is done; SLEEP completes when it wakes (R155, R156, R161). NOP and
NOP.spin change nothing; NOP.phase passes its mark to the tile (R160). TRIGGER waits for the acknowledgement of its context's posted accesses,
being a release at panel scope; then it completes and marks the issuing core for its launch, outside graph mode (R162). -/
def Obligations.YieldsSleepsHints : Prop :=
  (∀ s : State, s.Ready .yield → ∃ s', Gives .yield s s' Touch.none ∧ (s'.ctx s.cur).yieldTo = s.readyOthers s.cur) ∧
  (∀ s : State, s.Ready .sleep →
    Waits .sleep s (if s.op.immS = 0 then .sleep false else .timed s.op.immS.toNat false) (s.taken .sleep)) ∧
  (∀ (s : State) (i : Inst) (since : Nat), (s.ctx s.ev.ctx).st = .waiting (.sleep true) since → (s.ctx s.ev.ctx).gang = none →
    decodeHead (s.ctx s.ev.ctx).line (headIndex (s.ctx s.ev.ctx).pc) = .ok i → i.row = .sleep →
    exec .contextWake s = .next (s.complete s.ev.ctx .sleep i.o false .next (syncSignal i.o))) ∧
  (∀ s : State, s.Ready .waitdep → (s.producersLeft s.cur.core).isEmpty = false → Waits .waitdep s .waitdep (s.taken .waitdep)) ∧
  (∀ s : State, s.Ready .waitdep → (s.producersLeft s.cur.core).isEmpty = true → ∃ s', Gives .waitdep s s' Touch.none) ∧
  (∀ s : State, s.Ready .nop → Gives .nop s (s.taken .nop) Touch.none) ∧
  (∀ s : State, s.Ready .nopSpin → Gives .nopSpin s (s.taken .nopSpin) Touch.none) ∧
  (∀ s : State, s.Ready .nopPhase → ∃ s', Gives .nopPhase s s' Touch.none ∧ (s'.tile s.cur.core.vt).phase = s.op.immS.toNat) ∧
  (∀ s : State, s.Ready .trigger → 0 < (s.ctx s.cur).posted → Waits .trigger s .earlier (s.taken .trigger)) ∧
  (∀ s : State, s.Ready .trigger → (s.ctx s.cur).posted = 0 → ∃ s', Gives .trigger s s' Touch.none) ∧
  (∀ (s : State) (l : Launch), s.Ready .trigger → (s.ctx s.cur).posted = 0 → s.launchOf s.cur.core = some l → l.desc.dep ≠ 2 →
      ∃ s' l', Gives .trigger s s' Touch.none ∧ s'.launchOf s.cur.core = some l' ∧ s.cur.core.key ∈ l'.triggered ∧
        ∀ k ∈ l.triggered, k ∈ l'.triggered)

/-- TRAP and TRAP.bkpt take a precise trap SOFTWARE or BREAKPOINT with TRAPVAL = B at their head, in a context that holds no frame of an
upcall and not a frame in supervisor mode: the frame is written, the mode is supervisor, control goes on at TRAPVEC (R157, R360). ERET
resumes at TRAPPC in user mode with TRAPCAUSE 0, on a pager core in supervisor mode (which core that is: log 36); UPRET resumes at s[S1], or at TRAPPC when S1 is s0, in the same mode with TRAPCAUSE 0, and
traps ILLEGAL when UPCALL is 0 (R158, R159). -/
def Obligations.TrapsAndReturns : Prop :=
  (∀ (row : Instr) (code : Nat) (s : State), (row, code) ∈ [(Instr.trap, 0x18), (.trapBkpt, 0x19)] → s.Ready row → let k := s.ctx s.cur
    ¬(k.sup = true ∧ k.causeCode ≠ 0) → k.upcallBit = false → ∃ t, exec row s = .next t ∧ (t.ctx s.cur).causeCode = code ∧
      (t.ctx s.cur).trapPc = k.pc ∧ (t.ctx s.cur).trapVal = s.opB ∧ (t.ctx s.cur).sup = true ∧
      (t.ctx s.cur).pc = (s.core s.cur.core).trapVec ∧ (t.ctx s.cur).count = k.count + 1 ∧ (∀ r, t.rs s.cur r = s.rs s.cur r) ∧
      t.mem = s.mem) ∧
  (∀ s : State, s.Ready .eret → ∃ s', Completes .eret s (.jump (s.ctx s.cur).trapPc) s' ∧ (s'.ctx s.cur).sup = isPagerCore s.cur.core ∧
    (s.cur.core.vt < 512 → (s'.ctx s.cur).sup = false) ∧
    (s'.ctx s.cur).cause = 0 ∧ (∀ r, s'.rs s.cur r = s.rs s.cur r) ∧ s'.mem = s.mem) ∧
  (∀ s : State, s.Ready .upret → (s.ctx s.cur).upcallBit = false → Traps .upret s (Cause.illegal.at_ 0) (s.taken .upret)) ∧
  (∀ s : State, s.Ready .upret → (s.ctx s.cur).upcallBit = true →
    ∃ s', Completes .upret s (.jump (if s.op.s1 = 0 then (s.ctx s.cur).trapPc else s.opA)) s' ∧ (s'.ctx s.cur).sup = (s.ctx s.cur).sup ∧
      (s'.ctx s.cur).cause = 0 ∧ (∀ r, s'.rs s.cur r = s.rs s.cur r) ∧ s'.mem = s.mem)


/-! Scalar floating point (chapters 03 and 04). -/

/-- FADD, FSUB, FMUL, FFMA and FSPEC compute their operation on the FP32 values of A, B and s[D] and round it once under RMODE; the result is
zero-extended into s[D], its flags become sticky, and nothing else changes (R139, R140, R144). No scalar float instruction traps. -/
def Obligations.FloatArithmetic : Prop :=
  ∀ (row : Instr) (f : Nat → Nat → FVal → FVal → FVal → ExactF) (s : State), Claim.floatOp row = some f → s.Ready row →
    let k := s.ctx s.cur
    Claim.GivesFloat row s (finish .f32 k.mode.toNat false k.seed
      (f k.mode.toNat (genNaN 1 0 s.cur.ctx 0) (Claim.single s.opA) (Claim.single s.opB) (Claim.single s.opD)))

namespace Sys2Proof.Claim

/-- The rule for NaN operands (R119 rule 1): the first in operand order made quiet, with NV when an operand signals, or `also`. -/
def nanRule (l : List FVal) (also : Bool) (r : ExactF) : Prop :=
  ∀ pre b sig post, l = pre ++ .nan b sig :: post → (∀ v ∈ pre, v.isNaN = false) →
    r = (.nan (quieten b), if l.any FVal.isSig || also then fNV else 0)

/-- The integer that a rounding mode gives for a number (R110, R112); rnd: the 24 bits of stochastic rounding. -/
def roundedInt (mode rnd : Nat) (q : ℚ) (v : Int) : Prop :=
  (mode = 0 → |(v : ℚ) - q| ≤ 1 / 2 ∧ (|(v : ℚ) - q| = 1 / 2 → v % 2 = 0)) ∧ (mode = 1 → v = if q < 0 then ⌈q⌉ else ⌊q⌋) ∧
  (mode = 2 → v = ⌈q⌉) ∧ (mode = 3 → v = ⌊q⌋) ∧
  (mode = 4 → let lo := ⌊|q|⌋
    let mag := if (lo : ℚ) ≠ |q| ∧ 2 ^ 24 ≤ ⌊(|q| - lo) * 2 ^ 24⌋ + rnd then lo + 1 else lo
    v = if q < 0 then -mag else mag)

end Sys2Proof.Claim

/-- Before rounding, sum, product and fused product-sum of finite operands are exact, with the sign of a zero as R102 gives it; the quotient, the square
root and its reciprocal are exact when no rest is marked and otherwise lie strictly between the kept units and the next. A NaN operand in any position
gives the first NaN in operand order made quiet, with NV for a signalling one (R119 rule 1). A generated NaN with NV comes of ∞ − ∞, 0 × ∞, 0 ÷ 0, ∞ ÷ ∞
and the square root, reciprocal square root or logarithm of a negative number, DZ of a finite nonzero number over zero, and zeros and infinities give what
Table 55 says; 2^x of an integer and log2 of a power of two are exact (R115, R140, R144). -/
def Obligations.FloatOperationsExact : Prop :=
  (∀ (mode gn : Nat) (n1 n2 : Bool) (m1 m2 : Nat) (e1 e2 : Int), let x := FVal.fin n1 m1 e1
    let y := FVal.fin n2 m2 e2
    Claim.value (opAdd mode gn x y).1 = some (Claim.num n1 m1 e1 + Claim.num n2 m2 e2) ∧ (opAdd mode gn x y).2 = 0 ∧
    (Claim.num n1 m1 e1 + Claim.num n2 m2 e2 = 0 → ∃ e, (opAdd mode gn x y).1 = .fin (if n1 = n2 then n1 else decide (mode = 3)) 0 e false) ∧
    Claim.value (opMul gn x y).1 = some (Claim.num n1 m1 e1 * Claim.num n2 m2 e2) ∧ ∃ m e, opMul gn x y = (.fin (n1 != n2) m e false, 0)) ∧
  (∀ (mode gn : Nat) (n1 n2 n3 : Bool) (m1 m2 m3 : Nat) (e1 e2 e3 : Int), let r := opFma mode gn (.fin n1 m1 e1) (.fin n2 m2 e2) (.fin n3 m3 e3)
    let v := Claim.num n1 m1 e1 * Claim.num n2 m2 e2 + Claim.num n3 m3 e3
    Claim.value r.1 = some v ∧ r.2 = 0 ∧ (v = 0 → ∃ e, r.1 = .fin (if (n1 != n2) = n3 then n3 else decide (mode = 3)) 0 e false)) ∧
  (∀ (gn : Nat) (n1 n2 : Bool) (m1 m2 : Nat) (e1 e2 : Int), m2 ≠ 0 →
    ∃ m e st, opDiv gn (.fin n1 m1 e1) (.fin n2 m2 e2) = (.fin (n1 != n2) m e st, 0) ∧
      Claim.num false m e ≤ Claim.num false m1 e1 / Claim.num false m2 e2 ∧
      Claim.num false m1 e1 / Claim.num false m2 e2 < Claim.num false (m + 1) e ∧
      (st = false ↔ Claim.num false m e = Claim.num false m1 e1 / Claim.num false m2 e2)) ∧
  (∀ (gn m1 : Nat) (e1 : Int), m1 ≠ 0 → let v := Claim.num false m1 e1
    (∃ m e st, opSqrt gn (.fin false m1 e1) = (.fin false m e st, 0) ∧ Claim.num false m e ^ 2 ≤ v ∧ v < Claim.num false (m + 1) e ^ 2 ∧
      (st = false ↔ Claim.num false m e ^ 2 = v)) ∧
    (∃ m e st, opRsqrt gn (.fin false m1 e1) = (.fin false m e st, 0) ∧ Claim.num false m e ^ 2 * v ≤ 1 ∧ 1 < Claim.num false (m + 1) e ^ 2 * v ∧
      (st = false ↔ Claim.num false m e ^ 2 * v = 1))) ∧
  (∀ (mode gn : Nat) (x y c : FVal), Claim.nanRule [x, y] false (opAdd mode gn x y) ∧ Claim.nanRule [x, y] false (opMul gn x y) ∧
    Claim.nanRule [x, y] false (opDiv gn x y) ∧
    Claim.nanRule [x, y, c] ((x.isInf && y.isZero) || (y.isInf && x.isZero)) (opFma mode gn x y c) ∧ Claim.nanRule [x] false (opSqrt gn x) ∧
    Claim.nanRule [x] false (opRsqrt gn x) ∧ Claim.nanRule [x] false (opExp2 x) ∧ Claim.nanRule [x] false (opLog2 gn x)) ∧
  (∀ (mode gn : Nat) (n n' : Bool) (m : Nat) (e e' : Int) (c : FVal), let i := FVal.inf n
    let i' := FVal.inf n'
    let z := FVal.fin n 0 e
    let z' := FVal.fin n' 0 e'
    let f := FVal.fin n' m e'
    let invalid : ExactF := (.nan gn, fNV)
    opAdd mode gn i i' = (if n = n' then (.inf n, 0) else invalid) ∧ opAdd mode gn i f = (.inf n, 0) ∧ opAdd mode gn f i = (.inf n, 0) ∧
    opMul gn i z' = invalid ∧ opMul gn z' i = invalid ∧ opMul gn i i' = (.inf (n != n'), 0) ∧
    (m ≠ 0 → opMul gn i f = (.inf (n != n'), 0) ∧ opMul gn f i = (.inf (n != n'), 0)) ∧
    (c.isNaN = false → opFma mode gn i z' c = invalid ∧ opFma mode gn z' i c = invalid ∧
      opFma mode gn i i' c = opAdd mode gn (.inf (n != n')) c ∧ (m ≠ 0 → opFma mode gn i f c = opAdd mode gn (.inf (n != n')) c)) ∧
    opDiv gn i i' = invalid ∧ opDiv gn z z' = invalid ∧ opDiv gn i f = (.inf (n != n'), 0) ∧ opDiv gn f i = (.fin (n' != n) 0 0 false, 0) ∧
    (m ≠ 0 → opDiv gn f z = (.inf (n' != n), fDZ)) ∧
    opSqrt gn i = (if n then invalid else (.inf false, 0)) ∧ opSqrt gn z = (.fin n 0 0 false, 0) ∧
    opRsqrt gn i = (if n then invalid else (.fin false 0 0 false, 0)) ∧ opRsqrt gn z = (.inf n, fDZ) ∧
    (m ≠ 0 → n' = true → opSqrt gn f = invalid ∧ opRsqrt gn f = invalid ∧ opLog2 gn f = invalid) ∧
    opExp2 i = (if n then (.fin false 0 0 false, 0) else (.inf false, 0)) ∧ opExp2 z = (.fin false 1 0 false, 0) ∧
    (m ≠ 0 → 0 ≤ e' → e' + bitLen m ≤ 12 → opExp2 f = (.fin false 1 (if n' then -(m * 2 ^ e'.toNat : Int) else m * 2 ^ e'.toNat) false, 0)) ∧
    opLog2 gn i = (if n then invalid else (.inf false, 0)) ∧ opLog2 gn z = (.inf true, fDZ) ∧
    opLog2 gn (.fin false (2 ^ m) e) = (.fin (decide (e + m < 0)) (e + m).natAbs 0 false, 0))

/-- Rounding to nearest even is right in every format: when no overflow is flagged, the encoding stands for a value of the format nearest to
the exact one, an even encoding when another is as near, and NX is clear exactly when it is the exact value (R101, R110, R111). -/
def Obligations.RoundsToNearest : Prop :=
  ∀ (f : Fmt) (rnd : Nat) (sat neg : Bool) (m : Nat) (e : Int),
    f ∈ [Fmt.f32, .f16, .bf16, .e8m10, .e4m3, .e5m2, .e3m2, .e2m3, .e2m1] → let r := roundTo f 0 rnd sat neg m e false
    r.2 &&& fOF = 0 → ∃ code m' e', code ≤ f.maxFin ∧ r.1 = f.signed neg code ∧ f.decode 0 r.1 = .fin neg m' e' ∧
      (r.2 &&& fNX = 0 ↔ Claim.num neg m' e' = Claim.num neg m e) ∧
      ∀ c mc ec, c ≤ f.maxFin → f.decode 0 c = .fin false mc ec →
        |Claim.num false m' e' - Claim.num false m e| ≤ |Claim.num false mc ec - Claim.num false m e| ∧
        (c ≠ code → |Claim.num false m' e' - Claim.num false m e| = |Claim.num false mc ec - Claim.num false m e| → code % 2 = 0)

/-- FMINMAX writes one of its operands bit for bit: the lesser or the greater, −0 below +0; a NaN operand gives the first NaN made quiet,
with NV for a signalling one. FCMP writes all bits of p[D] when its relation holds: equality, less, less or equal of the numbers, false for a
NaN, and unordered, true for a NaN (R119, R141, R143). -/
def Obligations.FloatCompareMinMax : Prop :=
  (∀ (row : Instr) (mx : Bool) (s : State), (row, mx) ∈ [(Instr.fminmaxMin, false), (.fminmaxMax, true)] → s.Ready row →
    let a := s.opA.toNat % 2 ^ 32
    let b := s.opB.toNat % 2 ^ 32
    ∃ v fl, Gives row s ((Claim.flagged (s.taken row) fl (s.ctx s.cur).seed).ws s.cur s.op.d (BitVec.ofNat 64 v))
        { Touch.none with s := [s.op.d], ff := true } ∧
      ((f32 a).isNaN = false → (f32 b).isNaN = false → fl = 0 ∧ (v = a ∨ v = b) ∧
        (cmpNum (f32 v) (f32 a) ≠ (if mx then .lt else .gt)) ∧ (cmpNum (f32 v) (f32 b) ≠ (if mx then .lt else .gt)) ∧
        (cmpNum (f32 a) (f32 b) = .eq → v = if mx then a &&& b else a ||| b)) ∧
      ((f32 a).isNaN = true → v = quieten a) ∧ ((f32 a).isNaN = false → (f32 b).isNaN = true → v = quieten b) ∧
      (((f32 a).isNaN = true ∨ (f32 b).isNaN = true) → fl = if (f32 a).isSig || (f32 b).isSig then fNV else 0)) ∧
  (∀ (row : Instr) (n : Nat) (s : State), (row, n) ∈ [(Instr.fcmpEq, 0), (.fcmpLt, 1), (.fcmpLe, 2), (.fcmpUn, 3)] → s.Ready row →
    let x := Claim.single s.opA
    let y := Claim.single s.opB
    let un := x.isNaN || y.isNaN
    let holds := if un then n == 3 else (match n with | 0 => cmpNum x y == .eq | 1 => cmpNum x y == .lt | 2 => cmpNum x y != .gt | _ => false)
    let fl := if x.isSig || y.isSig || (un && (n == 1 || n == 2)) then fNV else 0
    Gives row s ((Claim.flagged (s.taken row) fl (s.ctx s.cur).seed).wp s.cur s.op.d (if holds then 0xffff else 0))
      { Touch.none with p := [s.op.d], ff := true }) ∧
  (∀ (n1 n2 : Bool) (m1 m2 : Nat) (e1 e2 : Int),
    cmpNum (.fin n1 m1 e1) (.fin n2 m2 e2) = compare (Claim.num n1 m1 e1) (Claim.num n2 m2 e2))

/-- FCVT to a 64-bit integer rounds under RMODE, with NX when that changes the value; a rounded value out of the range gives the nearest end with NV, and a
NaN gives 0 with NV; from an integer it rounds the exact
value; to FP16 and BF16 it rounds; from them it is exact for every value that is no NaN, and sets no flag (R115, R118, R142, Table 54). -/
def Obligations.FloatConversions : Prop :=
  (∀ (row : Instr) (lo hi : Int) (s : State),
    (row, lo, hi) ∈ [(Instr.fcvtI64F32, (-2 ^ 63 : Int), (2 ^ 63 - 1 : Int)), (.fcvtU64F32, 0, 2 ^ 64 - 1)] → s.Ready row →
    let k := s.ctx s.cur
    let r := toInt k.mode.toNat k.seed lo hi (Claim.single s.opA)
    Gives row s ((Claim.flagged (s.taken row) r.2.1 r.2.2).ws s.cur s.op.d (BitVec.ofInt 64 r.1))
      { Touch.none with s := [s.op.d], ff := true, seed := true }) ∧
  (∀ (mode : Nat) (sd : BitVec 32) (lo hi : Int) (x : FVal), lo ≤ 0 → 0 ≤ hi → mode < 5 → let r := toInt mode sd lo hi x
    lo ≤ r.1 ∧ r.1 ≤ hi ∧ r.2.2 = (if mode = 4 then seedNext sd else sd) ∧ (x.isNaN = true → r.1 = 0 ∧ r.2.1 = fNV) ∧
    (∀ n, x = .inf n → r.1 = (if n then lo else hi) ∧ r.2.1 = fNV) ∧
    ∀ n m e, x = .fin n m e → ∃ v, Claim.roundedInt mode ((seedNext sd).toNat / 2 ^ 8) (Claim.num n m e) v ∧
      (v < lo → r.1 = lo ∧ r.2.1 = fNV) ∧ (hi < v → r.1 = hi ∧ r.2.1 = fNV) ∧
      (lo ≤ v → v ≤ hi → r.1 = v ∧ r.2.1 = if (v : ℚ) = Claim.num n m e then 0 else fNX)) ∧
  (∀ (row : Instr) (v : Word → Int) (s : State),
    (row = .fcvtF32I64 ∧ v = fun a => a.toInt) ∨ (row = .fcvtF32U64 ∧ v = fun a => (a.toNat : Int)) → s.Ready row →
    let k := s.ctx s.cur
    Claim.GivesFloat row s (finish .f32 k.mode.toNat false k.seed (.fin (decide (v s.opA < 0)) (v s.opA).natAbs 0 false, 0))) ∧
  (∀ (row : Instr) (f : Fmt) (s : State), (row, f) ∈ [(Instr.fcvtF16F32, Fmt.f16), (.fcvtBf16F32, .bf16)] → s.Ready row →
    let k := s.ctx s.cur
    Claim.GivesFloat row s (convert f k.mode.toNat false k.seed (Claim.single s.opA))) ∧
  (∀ (row : Instr) (f : Fmt) (s : State), (row, f) ∈ [(Instr.fcvtF32F16, Fmt.f16), (.fcvtF32Bf16, .bf16)] → s.Ready row →
    let x := s.opA.toNat % 2 ^ 16
    ∃ v fl, Gives row s ((Claim.flagged (s.taken row) fl (s.ctx s.cur).seed).ws s.cur s.op.d (BitVec.ofNat 64 v))
        { Touch.none with s := [s.op.d], ff := true } ∧
      ∀ n m e, f.decode 0 x = .fin n m e → fl = 0 ∧ ∃ m' e', f32 v = .fin n m' e' ∧ Claim.num n m' e' = Claim.num n m e)
/-! Memory and synchronisation (chapter 05). -/

namespace Sys2Proof.Claim

/-- What the executing instruction's context sees of it: the environment its operations take. -/
def env (s : State) (row : Instr) : Env := ⟨s.cur, row, s.op, s.synced⟩

/-- The access of a form B instruction, and of a form C instruction of 2^SZ bytes (R78, R79, R164). -/
def reqB (s : State) (n : Nat) (k : AKind) (spaces : List Nat) (plain held : Bool) : Req :=
  { base := s.opA, ofs := s.op.immS.toInt, n := n, align := n, k := k, spaces := spaces, plain := plain, held := held }

def reqC (s : State) (k : AKind) : Req :=
  { base := s.opA, ofs := s.op.imm16.toInt, n := 2 ^ s.op.sz.toNat, align := 2 ^ s.op.sz.toNat, k := k, spaces := [0, 1, 2, 3, 5], plain := false,
    held := true }

/-- The loads and stores of a size (R172): bytes, and whether the value is sign-extended. -/
def loads : List (Instr × Nat × Bool) :=
  [(.ldU8, 1, false), (.ldS8, 1, true), (.ldU16, 2, false), (.ldS16, 2, true), (.ldU32, 4, false), (.ldS32, 4, true), (.ld64, 8, false)]
def stores : List (Instr × Nat) := [(.st8, 1), (.st16, 2), (.st32, 4), (.st64, 8)]

/-- A number of n bytes sign-extended. -/
def sextN (n v : Nat) : Word := (BitVec.ofNat (8 * n) v).signExtend 64

/-- New memory values of n bits from the old value and the operand (Table 62). -/
def amo : Instr → Option (Nat → Nat → Nat → Nat)
  | .amoAdd | .ramoAdd => some fun n m b => (m + b) % 2 ^ n
  | .amoAnd | .ramoAnd => some fun _ m b => m &&& b
  | .amoOr | .ramoOr => some fun _ m b => m ||| b
  | .amoXor | .ramoXor => some fun _ m b => m ^^^ b
  | .amoSmin | .ramoSmin => some fun n m b => if (BitVec.ofNat n m).toInt ≤ (BitVec.ofNat n b).toInt then m else b
  | .amoSmax | .ramoSmax => some fun n m b => if (BitVec.ofNat n m).toInt ≤ (BitVec.ofNat n b).toInt then b else m
  | .amoUmin | .ramoUmin => some fun _ m b => if m ≤ b then m else b
  | .amoUmax | .ramoUmax => some fun _ m b => if m ≤ b then b else m
  | .amoSwap | .ramoSwap => some fun _ _ b => b
  | _ => none

def amos : List Instr := [.amoAdd, .amoAnd, .amoOr, .amoXor, .amoSmin, .amoSmax, .amoUmin, .amoUmax, .amoSwap]
def ramos : List Instr := [.ramoAdd, .ramoAnd, .ramoOr, .ramoXor, .ramoSmin, .ramoSmax, .ramoUmin, .ramoUmax, .ramoSwap, .ramoFadd]

/-- An old value as it is written to s[D]: sign-extended for 4 bytes (R181). -/
def old (n v : Nat) : Word := if n = 4 then sextN 4 v else BitVec.ofNat 64 v

/-- The row completes with the effect that leads from s1 to s'; nothing but what w names changes after s1, which is the state before the
instruction's effect unless its pointer names global memory, whose page walk may set bits in page-table entries (R383). -/
def Performs (row : Instr) (s s1 s' : State) (w : Touch) : Prop :=
  Completes row s .next s' ∧ Frame s1 (s.after row .next s') s.cur w ∧ (pSpc s.opA ≠ 5 → Frame s (s.after row .next s') s.cur w)

/-- A check that does not let the instruction be performed stops it where it stands: a trap or a wait. -/
def Stops (row : Instr) (s : State) : Stop → Prop
  | .trap t s1 => Traps row s t s1
  | .wait w s1 => Waits row s w s1

/-- The interface of a tile of the home die holds a translation of the line by which a gateway may read it, and its bytes have no error. -/
def cached (s : State) (ifc home va : Nat) (k : AKind) : Prop :=
  (s.tile ifc).uncertain = false ∧ ∃ e : TransEntry, (s.tile ifc).tcache = [e] ∧ e.covers (treeKey va) va = true ∧ s.paceAt ifc ≤ e.expiry ∧
    (⟨k, true⟩ : WKind).rights e.entry = true ∧ pteA e.entry = true ∧ s.poisoned (s.leafFlat home va e.entry) 64 = false

/-- Requests that wait at a full/empty word: of contexts that stand alone at an instruction, none of them the current one, one request each. -/
def Queued (s : State) (q : List FeReq) : Prop :=
  (s.cur.key :: q.map (fun r => r.ctx.key)).Nodup ∧
    ∀ r ∈ q, (s.ctx r.ctx).gang = none ∧ ∃ i, decodeHead (s.ctx r.ctx).line (headIndex (s.ctx r.ctx).pc) = .ok i

/-- The load that waited with request r has completed with v. -/
def Served (s t : State) (r : FeReq) (v : Word) : Prop :=
  (t.ctx r.ctx).st = .ready ∧ (t.ctx r.ctx).pc = (nextHead (s.ctx r.ctx).line (s.ctx r.ctx).pc).1 ∧ t.rs r.ctx r.d = if r.d = 0 then 0 else v

end Sys2Proof.Claim

/-- The checks of an access through a pointer into the core's own TCM come in the order of R170: FMT 15 without its feature, FORMAT,
OFFSET_OVERFLOW of the effective address or of the last byte, MISALIGN, PROTECT, the range scoreboard, a remote access of the context to a byte
of it that has not been performed, and an uncorrectable error for a read; then the access is to the bytes at the effective address of that TCM. With the conflict detector off for the access. -/
def Obligations.TcmAccessChecks : Prop :=
  ∀ (s : State) (c : CtxId) (q : Req), pSpc q.base = 0 → pRel q.base = false → unassigned q.base = 0 → 0 ∈ q.spaces → s.confOn c = false →
    let o : Int := (pOff q.base : Int) + q.ofs
    let ea := Claim.withOff q.base o.toNat
    let bad := o < 0 ∨ 2 ^ 17 ≤ o
    let a := flatTcm c.core o.toNat
    if pFmt q.base = 15 ∧ s.feat0 5 = false then s.coreAddr c q = .error (.trap (Cause.featureOff.at_ (if bad then q.base else ea)) s)
    else if fmtOk q.base = false then s.coreAddr c q = .error (.trap (Cause.format.at_ (if bad then q.base else ea)) s)
    else if bad ∨ 2 ^ 17 < o + q.n then s.coreAddr c q = .error (.trap (Cause.offsetOverflow.at_ q.base) s)
    else if o.toNat % q.align ≠ 0 then s.coreAddr c q = .error (.trap (Cause.misalign.at_ ea) s)
    else if s.permitted c.core.vt (s.ctx c).sup 0 o.toNat q.n q.k = false then s.coreAddr c q = .error (.trap (Cause.protect.at_ ea) s)
    else if q.held = true ∧ s.sbHolds c.core a (a + q.n) q.k.writes = true then
      s.coreAddr c q = .error (.wait (.range a (a + q.n) q.k.writes ea) s)
    else if s.behindRemote c ea q.n = true then s.coreAddr c q = .error (.wait .earlier s)
    else if s.poisoned a q.n = true ∧ q.k.reads = true then s.coreAddr c q = .error (.trap (Cause.uncorrectable.at_ ea) s)
    else s.coreAddr c q = .ok (a, s)

/-- LD of a size writes the bytes at its checked address, little-endian and zero- or sign-extended, to s[D]; ST of a size stores the low
bytes of s[D] there. Through a pointer to the core's own TCM both complete whenever nothing stands against the access. Outside the control blocks of a die, whose words take stores as their own rules say, the stored bytes read back;
no other register and no other byte changes. A check that fails traps or waits (R15, R172). -/
def Obligations.LoadsAndStores : Prop :=
  (∀ (row : Instr) (n : Nat) (signed : Bool) (s : State), (row, n, signed) ∈ Claim.loads → s.Ready row →
    let q := Claim.reqB s n .read (if n = 4 then [0, 1, 2, 3, 4, 5] else [0, 1, 2, 3, 5]) true true
    (∀ b s1, (s.taken row).loadBytes s.cur q = .ok (b, s1) →
      Claim.Performs row s s1 (s1.ws s.cur s.op.d (if signed then Claim.sextN n (leNat b) else BitVec.ofNat 64 (leNat b))) (Touch.reg s.op.d)) ∧
    (∀ x, (s.taken row).loadBytes s.cur q = .error x → Claim.Stops row s x) ∧
    (∀ a s1, pSpc s.opA < 4 → (s.taken row).coreAddr s.cur q = .ok (a, s1) → ∃ s2, (s.taken row).loadBytes s.cur q = .ok (s.bytes a n, s2))) ∧
  (∀ (row : Instr) (n : Nat) (s : State), (row, n) ∈ Claim.stores → s.Ready row → let q := Claim.reqB s n .write [0, 1, 2, 3, 5] true true
    (∀ a s1, (s.taken row).coreAddr s.cur q = .ok (a, s1) → s1.memOk → inBlocks a n = false →
      ∃ s', Claim.Performs row s s1 s' { Touch.none with lo := a, hi := a + n } ∧ s'.load a n = s.opD.toNat % 2 ^ (8 * n)) ∧
    (∀ x, (s.taken row).coreAddr s.cur q = .error x → Claim.Stops row s x)) ∧
  (∀ (row : Instr) (n : Nat) (signed : Bool) (s : State) (a : Nat),
    (row, n, signed) ∈ [(Instr.ldU8, 1, false), (.ldS8, 1, true), (.ldU16, 2, false), (.ldS16, 2, true), (.ldU32, 4, false), (.ldS32, 4, true),
      (.ld64, 8, false)] → s.Ready row → Claim.InTcm s s.op.immS.toInt n n .read a →
    ∃ s', Gives row s s' (Touch.reg s.op.d) ∧ s'.rs s.cur s.op.d =
      if s.op.d = 0 then 0 else if signed then Claim.sextN n (s.load a n) else BitVec.ofNat 64 (s.load a n)) ∧
  (∀ (row : Instr) (n : Nat) (s : State) (a : Nat), (row, n) ∈ [(Instr.st8, 1), (.st16, 2), (.st32, 4), (.st64, 8)] → s.memOk → s.Ready row →
    Claim.InTcm s s.op.immS.toInt n n .write a →
    ∃ s', Gives row s s' { Touch.none with lo := a, hi := a + n } ∧ s'.load a n = s.opD.toNat % 2 ^ (8 * n))

/-- A typed load or store checks its format and element index before its address: FMT 15 without its feature, FORMAT for a pointer that
names no element or a store format without an encoding rule, OFFSET_OVERFLOW for an index past the unit (R173–R175). LD.fmt through INT8, UINT8,
INT16, INT32, INT64 and FP32 writes the element extended to s[D], through another float format its exact FP32 value, an FP8 NaN as class NAN_INPUT (R119), through
E8M0 the power of two, through TBL8 the entry of the decode table (R108), and through an MX format the scaled element rounded to FP32 (R105, R113). ST.fmt
through the integer formats stores s[D] saturated to the element's range, FP32 as it is, TBL8 encoded (R109), and a float format as its one element of the unit
rounded under RMODE, with its flags, and changes nothing else. A store into a unit of several elements reads the unit: an error in it traps (R170).
Both complete through a pointer to the core's own TCM whenever nothing stands against the access. -/
def Obligations.TypedLoadsAndStores : Prop :=
  (∀ (row : Instr) (bad : List Nat) (s : State), (row, bad) ∈ [(Instr.ldFmt, [0]), (.stFmt, [0, 14, 16, 17, 18, 19, 20, 21])] → s.Ready row →
    let p := s.opA
    let ea := ((offAdd p s.op.immS.toInt).getD p)
    if pFmt p = 15 ∧ s.feat0 5 = false then Traps row s (Cause.featureOff.at_ ea) (s.taken row)
    else if fmtOk p = false ∨ pFmt p ∈ bad then Traps row s (Cause.format.at_ ea) (s.taken row)
    else unitElems p ≤ (if unitElems p = 1 then 0 else (s.rs s.cur s.op.s2).toNat) → Traps row s (Cause.offsetOverflow.at_ p) (s.taken row)) ∧
  (∀ (s : State) (fmt n : Nat) (signed : Bool),
    (fmt, n, signed) ∈ [(1, 1, true), (2, 1, false), (3, 2, true), (4, 4, true), (5, 8, false), (6, 4, false)] →
    s.Ready .ldFmt → pFmt s.opA = fmt → pBlk s.opA = 0 →
    let q := Claim.reqB s n .read (if n = 4 then [0, 1, 2, 3, 4, 5] else [0, 1, 2, 3, 5]) true true
    (∀ b s1, (s.taken .ldFmt).loadBytes s.cur q = .ok (b, s1) → ∃ s', Claim.Performs .ldFmt s s1 s' (Touch.reg s.op.d) ∧
      s'.rs s.cur s.op.d = if s.op.d = 0 then 0 else if signed then Claim.sextN n (leNat b) else BitVec.ofNat 64 (leNat b)) ∧
    (∀ x, (s.taken .ldFmt).loadBytes s.cur q = .error x → Claim.Stops .ldFmt s x)) ∧
  (∀ s : State, let p := s.opA
    let n := unitSize (pFmt p) (pBlk p)
    let j := if unitElems p = 1 then 0 else (s.rs s.cur s.op.s2).toNat
    ¬(pFmt p = 15 ∧ s.feat0 5 = false) → fmtOk p = true → j < unitElems p →
    (s.Ready .ldFmt → pFmt p ≠ 0 → pFmt p ≠ 4 → pFmt p ≠ 6 →
      let q := { Claim.reqB s n .read [0, 1, 2, 3, 5] true true with align := unitAlign (pFmt p) }
      (∀ b s1, (s.taken .ldFmt).loadBytes s.cur q = .ok (b, s1) → ∃ s',
        Claim.Performs .ldFmt s s1 s' { Touch.reg s.op.d with ff := true, seed := true } ∧
        (s.op.d ≠ 0 → let v := leNat b
          let w := s'.rs s.cur s.op.d
          let gen := fun cls idx => genNaN cls idx s.cur.ctx 6
          (∀ g, pFmt p < 16 → fmtOf (pFmt p) = some g → let x := g.decode (gen 3 0) (v / 2 ^ (g.width * j) % 2 ^ g.width)
            (∀ neg m e, x = .fin neg m e → ∃ m' e', Claim.single w = .fin neg m' e' ∧ Claim.num neg m' e' = Claim.num neg m e) ∧
            (∀ neg, x = .inf neg → Claim.single w = .inf neg) ∧ ∀ c sig, x = .nan c sig → w = BitVec.ofNat 64 (quieten c)) ∧
          (pFmt p = 14 → (v = 255 → w = BitVec.ofNat 64 (gen 2 0)) ∧
            (v ≠ 255 → ∃ m e, Claim.single w = .fin false m e ∧ Claim.num false m e = (2 : ℚ) ^ ((v : Int) - 127))) ∧
          (pFmt p = 15 → w.toNat = ((s.core s.cur.core).dec.get v 0).toNat * 2 ^ 13) ∧
          (16 ≤ pFmt p → let ew := elemWidth (pFmt p)
            w = BitVec.ofNat 64 (convert .f32 (s.ctx s.cur).mode.toNat false (s.ctx s.cur).seed
              (mxVal (pFmt p) (v % 256) (gen 2 j) (gen 3 j) (v / 2 ^ 8 / 2 ^ (ew * j) % 2 ^ ew))).bits))) ∧
      (∀ x, (s.taken .ldFmt).loadBytes s.cur q = .error x → Claim.Stops .ldFmt s x)) ∧
    (s.Ready .stFmt → pFmt p ∉ [0, 14, 16, 17, 18, 19, 20, 21] → pSpc p ≠ 5 →
      let q := { Claim.reqB s n .write [0, 1, 2, 3, 5] true true with align := unitAlign (pFmt p) }
      (∀ a s1, (s.taken .stFmt).coreAddr s.cur q = .ok (a, s1) →
        if pFmt p ∈ [11, 12, 13] ∧ s.poisoned a n = true then Traps .stFmt s (Cause.uncorrectable.at_ q.ea) (s.taken .stFmt)
        else ∃ s', Claim.Performs .stFmt s s1 s' { Touch.none with lo := a, hi := a + n, ff := true, seed := true } ∧
          (s1.memOk → inBlocks a n = false → let x := Claim.single s.opD
            (pFmt p = 6 → s'.load a n = s.opD.toNat % 2 ^ 32) ∧
            (pFmt p = 15 → s'.load a n = (tblEncode (fun i => ((s.core s.cur.core).dec.get i 0).toNat) x).1) ∧
            ∀ g, pFmt p ≠ 6 → fmtOf (pFmt p) = some g → let r := convert g (s.ctx s.cur).mode.toNat false (s.ctx s.cur).seed x
              (s'.ctx s.cur).ff = (s.ctx s.cur).ff ||| r.fl ∧ ∀ i < unitElems p, s'.load a n / 2 ^ (g.width * i) % 2 ^ g.width =
                if i = j then r.bits % 2 ^ g.width else s1.load a n / 2 ^ (g.width * i) % 2 ^ g.width)) ∧
      (∀ x, (s.taken .stFmt).coreAddr s.cur q = .error x → Claim.Stops .stFmt s x))) ∧
  (∀ (f code a n8 x : Nat), mxVal f 255 a n8 x = .nan a false ∧ (code ≠ 255 →
    (∀ g n m e, fmtOf f = some g → g.decode n8 x = .fin n m e → mxVal f code a n8 x = .fin n m (e + code - 127)) ∧
    mxVal 21 code a n8 x = .fin (decide (signedOf 8 x < 0)) (signedOf 8 x).natAbs (-6 + code - 127))) ∧
  (∀ (s : State) (fmt n : Nat) (lo hi : Int),
    (fmt, n, lo, hi) ∈ [(1, 1, -128, 127), (2, 1, 0, 255), (3, 2, -32768, 32767), (4, 4, -2 ^ 31, 2 ^ 31 - 1), (5, 8, -2 ^ 63, 2 ^ 63 - 1)] →
    s.Ready .stFmt → pFmt s.opA = fmt → pBlk s.opA = 0 → pSpc s.opA ≠ 5 → let q := Claim.reqB s n .write [0, 1, 2, 3, 5] true true
    (∀ a s1, (s.taken .stFmt).coreAddr s.cur q = .ok (a, s1) → s1.memOk → inBlocks a n = false →
      ∃ s', Claim.Performs .stFmt s s1 s' { Touch.none with lo := a, hi := a + n } ∧
        (BitVec.ofNat 64 (s'.load a n)).setWidth (8 * n) = BitVec.ofInt (8 * n) (max lo (min hi s.opD.toInt))) ∧
    (∀ x, (s.taken .stFmt).coreAddr s.cur q = .error x → Claim.Stops .stFmt s x)) ∧
  (∀ (s : State) (a : Nat), let p := s.opA
    let n := unitSize (pFmt p) (pBlk p)
    (if unitElems p = 1 then 0 else (s.rs s.cur s.op.s2).toNat) < unitElems p →
    (s.Ready .ldFmt → pFmt p ≠ 0 → Claim.InTcm s s.op.immS.toInt n (unitAlign (pFmt p)) .read a →
      ∃ s', Gives .ldFmt s s' { Touch.reg s.op.d with ff := true, seed := true }) ∧
    (s.Ready .stFmt → pFmt p ∉ [0, 14, 16, 17, 18, 19, 20, 21] → Claim.InTcm s s.op.immS.toInt n (unitAlign (pFmt p)) .write a →
      ∃ s', Gives .stFmt s s' { Touch.none with lo := a, hi := a + n, ff := true, seed := true }))

/-- LDA reads, STL writes, AMO applies the function of Table 62 and CAS compares and writes, each on the 2^SZ bytes at its checked address;
the old value goes to s[D], sign-extended for 4 bytes; a release at core scope or wider first waits for the context's posted accesses. No
other register and no other byte changes (R167, R178, R181, R182). Each completes through a pointer to the core's own TCM whenever nothing
stands against the access and no posted access is outstanding. -/
def Obligations.AtomicResults : Prop :=
  (∀ s : State, s.Ready .lda → let n := 2 ^ s.op.sz.toNat
    (∀ a s1, (s.taken .lda).coreAddr s.cur (Claim.reqC s .read) = .ok (a, s1) → ∃ s', Claim.Performs .lda s s1 s' (Touch.reg s.op.d) ∧
      s'.rs s.cur s.op.d = if s.op.d = 0 then 0 else BitVec.ofNat 64 (s1.load a n)) ∧
    (∀ x, (s.taken .lda).coreAddr s.cur (Claim.reqC s .read) = .error x → Claim.Stops .lda s x)) ∧
  (∀ s : State, s.Ready .stl → let n := 2 ^ s.op.sz.toNat
    (∀ a s1, (s.taken .stl).coreAddr s.cur (Claim.reqC s .write) = .ok (a, s1) →
      if 1 ≤ s.op.sc.toNat ∧ 0 < (s.ctx s.cur).posted then Waits .stl s .earlier s1
      else s1.memOk → inBlocks a n = false → ∃ s', Claim.Performs .stl s s1 s' { Touch.none with lo := a, hi := a + n } ∧
        s'.load a n = s.opD.toNat % 2 ^ (8 * n)) ∧
    (∀ x, (s.taken .stl).coreAddr s.cur (Claim.reqC s .write) = .error x → Claim.Stops .stl s x)) ∧
  (∀ (row : Instr) (f : Nat → Nat → Nat → Nat) (s : State), row ∈ Claim.amos → Claim.amo row = some f → s.Ready row →
    let n := 2 ^ s.op.sz.toNat
    (∀ a s1, (s.taken row).coreAddr s.cur (Claim.reqC s .rmw) = .ok (a, s1) →
      if (s.op.md.toNat = 2 ∨ s.op.md.toNat = 3) ∧ 1 ≤ s.op.sc.toNat ∧ 0 < (s.ctx s.cur).posted then Waits row s .earlier s1
      else s1.memOk → inBlocks a n = false → let m := s1.load a n
        ∃ s', Claim.Performs row s s1 s' { Touch.reg s.op.d with lo := a, hi := a + n } ∧
          s'.rs s.cur s.op.d = (if s.op.d = 0 then 0 else Claim.old n m) ∧
          s'.load a n = f (8 * n) m ((s.rs s.cur s.op.s2).toNat % 2 ^ (8 * n))) ∧
    (∀ x, (s.taken row).coreAddr s.cur (Claim.reqC s .rmw) = .error x → Claim.Stops row s x)) ∧
  (∀ s : State, s.Ready .cas → let n := 2 ^ s.op.sz.toNat
    (∀ a s1, (s.taken .cas).coreAddr s.cur (Claim.reqC s .rmw) = .ok (a, s1) →
      if (s.op.md.toNat = 2 ∨ s.op.md.toNat = 3) ∧ 1 ≤ s.op.sc.toNat ∧ 0 < (s.ctx s.cur).posted then Waits .cas s .earlier s1
      else s1.memOk → inBlocks a n = false → let m := s1.load a n
        let same := m = (s.rs s.cur s.op.s2).toNat % 2 ^ (8 * n)
        ∃ s', Claim.Performs .cas s s1 s' (if same then { Touch.reg s.op.d with lo := a, hi := a + n } else Touch.reg s.op.d) ∧
          s'.rs s.cur s.op.d = (if s.op.d = 0 then 0 else Claim.old n m) ∧
          (same → s'.load a n = (s.rs s.cur s.op.s3).toNat % 2 ^ (8 * n))) ∧
    (∀ x, (s.taken .cas).coreAddr s.cur (Claim.reqC s .rmw) = .error x → Claim.Stops .cas s x)) ∧
  (∀ (row : Instr) (s : State) (a : Nat), s.memOk → s.Ready row → (s.ctx s.cur).posted = 0 → let n := 2 ^ s.op.sz.toNat
    let d := if s.op.d = 0 then 0 else Claim.old n (s.load a n)
    (row = .lda → Claim.InTcm s s.op.imm16.toInt n n .read a → ∃ s', Gives .lda s s' (Touch.reg s.op.d) ∧
      s'.rs s.cur s.op.d = if s.op.d = 0 then 0 else BitVec.ofNat 64 (s.load a n)) ∧
    (row = .stl → Claim.InTcm s s.op.imm16.toInt n n .write a → ∃ s', Gives .stl s s' { Touch.none with lo := a, hi := a + n } ∧
      s'.load a n = s.opD.toNat % 2 ^ (8 * n)) ∧
    (row ∈ [Instr.amoAdd, .amoAnd, .amoOr, .amoXor, .amoSmin, .amoSmax, .amoUmin, .amoUmax, .amoSwap, .cas] →
      Claim.InTcm s s.op.imm16.toInt n n .rmw a → ∃ s', Gives row s s' { Touch.reg s.op.d with lo := a, hi := a + n } ∧ s'.rs s.cur s.op.d = d))

/-- LDFE.take waits for a full word, reads it and makes it empty; LDFE.peek waits for a full word and leaves it full; STFE.fill waits for an
empty word, stores s[D] and makes it full; STFE.force stores and makes it full, STFE.clear makes it empty, whatever it was (R184). A request
that waits joins the end of its word's queue (R185). Being a release at die scope each first waits for its
context's posted accesses (R167). These for a word at which nothing else waits, and all five complete (ldfeTake, ldfePeek, stfeFill, stfeForce, stfeClear) for
one in the core's own TCM whenever nothing stands against the access.
Where requests wait at an empty word that an STFE.fill or an STFE.force makes full, every waiting peek completes with the word, then the earliest waiting take,
which makes it empty again; the later takes stay in their order. Where fills wait at a full word that an STFE.clear makes empty, the earliest completes (R185). -/
def Obligations.FullEmptyWords : Prop :=
  (∀ (row : Instr) (k : AKind) (s s1 : State) (a : Nat), s.memOk → s.Ready row →
    (row, k) ∈ [(Instr.ldfeTake, AKind.rmw), (.ldfePeek, .read), (.stfeFill, .rmw), (.stfeForce, .write), (.stfeClear, .write)] →
    (s.taken row).coreAddr s.cur (Claim.reqB s 8 k [0, 1, 2, 3] false true) = .ok (a, s1) → (∀ r ∈ s.feq, r.word ≠ a / 8) →
    inBlocks a 8 = false → (0 < (s.ctx s.cur).posted → Waits row s .earlier s1) ∧ ((s.ctx s.cur).posted = 0 → let ea := ((offAdd s.opA s.op.immS.toInt).getD s.opA)
    let v : State → Word := fun s' => s'.rs s.cur s.op.d
    let stands := ∃ s' kind, Waits row s (.fullEmpty ea.toNat) s' ∧ s'.feq = s.feq ++ [⟨a / 8, ea, s.cur, kind, s.op.d⟩] ∧ s'.full = s.full ∧
      s'.mem = s.mem
    (row = .ldfeTake → if s.isFull (a / 8) = true then ∃ s', Gives row s s' (Touch.reg s.op.d) ∧
        v s' = (if s.op.d = 0 then 0 else BitVec.ofNat 64 (s.load a 8)) ∧ s'.isFull (a / 8) = false else stands) ∧
    (row = .ldfePeek → if s.isFull (a / 8) = true then ∃ s', Gives row s s' (Touch.reg s.op.d) ∧
        v s' = (if s.op.d = 0 then 0 else BitVec.ofNat 64 (s.load a 8)) ∧ s'.isFull (a / 8) = true else stands) ∧
    (row = .stfeFill → if s.isFull (a / 8) = true then stands else ∃ s', Gives row s s' { Touch.none with lo := a, hi := a + 8 } ∧
        s'.load a 8 = s.opD.toNat ∧ s'.isFull (a / 8) = true) ∧
    (row = .stfeForce → ∃ s', Gives row s s' { Touch.none with lo := a, hi := a + 8 } ∧ s'.load a 8 = s.opD.toNat ∧
        s'.isFull (a / 8) = true) ∧
    (row = .stfeClear → ∃ s', Gives row s s' Touch.none ∧ s'.isFull (a / 8) = false))) ∧
  (∀ (row : Instr) (k : AKind) (s : State) (a : Nat), s.memOk → s.Ready row → (row, k) ∈ [(Instr.ldfeTake, AKind.rmw), (.ldfePeek, .read), (.stfeFill, .rmw),
      (.stfeForce, .write), (.stfeClear, .write)] → Claim.InTcm s s.op.immS.toInt 8 8 k a → (s.ctx s.cur).posted = 0 → (∀ r ∈ s.feq, r.word ≠ a / 8) →
    (row = .ldfeTake ∨ row = .ldfePeek → s.isFull (a / 8) = true) → (row = .stfeFill → s.isFull (a / 8) = false) →
    ∃ s', Gives row s s' { Touch.reg s.op.d with lo := a, hi := a + 8 }) ∧
  (∀ (row : Instr) (k : AKind) (s : State) (a : Nat), s.memOk → s.Ready row → (row, k) ∈ [(Instr.stfeFill, AKind.rmw), (.stfeForce, .write)] →
    Claim.InTcm s s.op.immS.toInt 8 8 k a → (s.ctx s.cur).posted = 0 → s.isFull (a / 8) = false → let w := a / 8
    let q := s.feq.filter (fun r => r.word == w)
    Claim.Queued s q → (∀ r ∈ q, r.kind = .peek ∨ r.kind = .take) → ∃ s', Completes row s .next s' ∧
      (∀ r ∈ q, r.kind = .peek → Claim.Served s s' r s.opD) ∧
      (∀ r, q.find? (fun r => r.kind == .take) = some r → Claim.Served s s' r s.opD ∧ s'.isFull w = false) ∧
      (q.find? (fun r => r.kind == .take) = none → s'.isFull w = true) ∧
      s'.feq.filter (fun r => r.word == w) = (q.filter (fun r => r.kind == .take)).drop 1) ∧
  (∀ (s : State) (a : Nat), s.memOk → s.Ready .stfeClear → Claim.InTcm s s.op.immS.toInt 8 8 .write a → (s.ctx s.cur).posted = 0 → s.isFull (a / 8) = true →
    let w := a / 8
    ∀ (r : FeReq) (rest : List FeReq) (v : Word), s.feq.filter (fun r => r.word == w) = r :: rest → Claim.Queued s (r :: rest) →
      (∀ x ∈ r :: rest, ∃ y, x.kind = .fill y) → r.kind = .fill v → ∃ s', Completes .stfeClear s .next s' ∧ (s'.ctx r.ctx).st = .ready ∧
        (s'.ctx r.ctx).pc = (nextHead (s.ctx r.ctx).line (s.ctx r.ctx).pc).1 ∧ s'.load a 8 = v.toNat ∧ s'.isFull w = true ∧
        s'.feq.filter (fun r => r.word == w) = rest)

/-- A fence changes no register and no byte; FENCE and FENCE.rel at core scope or wider, and XFENCE with the core path in its mask, first
wait for the context's posted accesses, FENCE.acq for its posted RAMOs to be performed (R179, R180). FLUSH changes no register: .wbi and .inv discard the
gateway line of a remote page, .wb and .wbi write a dirty line of this die back, .inv drops it, and the bytes behind it stand again unless the slice wrote it
back before, .code drops the fetched copies of the line; no other byte changes, and its pointer checks trap (R193, R418). PREF changes no register and never traps (R194).
A gateway line that a waiting access asked for is fetched from its home: the line is held at the die, and the context looks again at its
instruction (R177, R390). A gateway line and a cached translation may be dropped at any time; nothing else changes (R388, R390, R446; when a line is
dropped before its lease ends is the model's choice, log 14). How long a line with lease code 0 serves is the model's reading (log 9). -/
def Obligations.FencesAndCacheControl : Prop :=
  (∀ (row : Instr) (s : State), row ∈ [Instr.fence, .fenceAcq, .fenceRel, .xfence] → s.Ready row →
    let waits := 1 ≤ s.op.sc.toNat ∧ (if row = .fenceAcq then s.unperformed s.cur (fun x => x.kind == 2) = true else
      0 < (s.ctx s.cur).posted ∧ (row = .xfence → s.op.imm.getLsbD 0 = true))
    (waits → Waits row s .earlier (s.taken row)) ∧ (¬waits → ∃ s', Gives row s s' Touch.none)) ∧
  (∀ (row : Instr) (s : State), row ∈ [Instr.flushWb, .flushWbi, .flushInv, .flushCode] → s.Ready row →
    (∀ p, (Claim.env s row).lineEa (s.taken row) = .ok p → row ≠ .flushCode → s.behindRemote s.cur (lineBase p) 64 = true →
      Waits row s .earlier (s.taken row)) ∧
    (∀ p, (Claim.env s row).lineEa (s.taken row) = .ok p → (row = .flushCode ∨ s.behindRemote s.cur (lineBase p) 64 = false) →
      let here := s.home s.cur.core p = dieOf s.cur.core.vt
      (row ≠ .flushInv ∨ pSpc p ≠ 5 ∨ ¬here → ∃ s', Gives row s s' Touch.none ∧
        (row = .flushWbi ∨ row = .flushInv → pSpc p = 5 → ¬here →
          ∀ l ∈ (s'.die (dieOf s.cur.core.vt)).gw, ¬(l.home = s.gwHome p ∧ l.va = pVa p / 64 * 64)) ∧
        (row = .flushWb ∨ row = .flushWbi → pSpc p = 5 → here → ∀ a, s.lineFlat s.cur p = some a → s'.dirty.find (a / 64) = none) ∧
        (row = .flushCode → pSpc p ≠ 4 → ∀ e ∈ (s'.core s.cur.core).code,
          e.1 ≠ s.lineKey s.cur.core (lineBase p) ∧ ∀ a, s.lineFlat s.cur p = some a → e.2.place ≠ some a)) ∧
      (row = .flushInv → pSpc p = 5 → here → s.memOk → ∀ a, s.lineFlat s.cur p = some a → let x := a / 64
        (∀ old, s.dirty.find x = some old → old.length = 64) → ∃ s', Gives .flushInv s s' { Touch.none with lo := x * 64, hi := x * 64 + 64 } ∧
          s'.dirty.find x = none ∧ (s.dirty.find x = none → s'.mem = s.mem) ∧
          ∀ old, s.dirty.find x = some old → s'.bytes (x * 64) 64 = old ∨ s'.mem = s.mem)) ∧
    (∀ x, (Claim.env s row).lineEa (s.taken row) = .error x → Claim.Stops row s x) ∧
    (∀ a, Claim.InTcm s s.op.immS.toInt 1 1 .read a → ∃ s', Gives row s s' Touch.none)) ∧
  (∀ s : State, s.Ready .prefR → Gives .prefR s (s.taken .prefR) Touch.none) ∧
  (∀ s : State, s.Ready .prefW → Gives .prefW s (s.taken .prefW) Touch.none) ∧
  (∀ s : State, s.Ready .prefGw → ∃ s', Completes .prefGw s .next s' ∧ (∀ c r, s'.rs c r = s.rs c r) ∧
    (pSpc s.opA ≠ 5 → Frame s (s.after .prefGw .next s') s.cur Touch.none)) ∧
  (∀ (s s1 : State) (l : GwLine) (line since : Nat) (ea : Word) (code : Bool), let c := s.ev.ctx
    (s.ctx c).st = .waiting (.gateway line ea code) since → (s.ctx c).gang = none →
    let p : Word := BitVec.ofNat 64 (5 * 2 ^ 53 + line)
    let home := s.home c.core p
    let x := (s.rousePath home 64 (dieOf c.core.vt)).receiver home p
    x.2.gwFetch c.core.vt x.1 p code (some c.key) = .ok (l, s1) →
    ∃ t, exec .gatewayLineFill s = .next t ∧ (t.ctx c).st = .ready ∧ (t.ctx c).pc = (s.ctx c).pc ∧ l ∈ (t.die (dieOf c.core.vt)).gw ∧
      ∀ r, t.rs c r = s.rs c r) ∧
  (∀ (s : State) (line since : Nat) (ea : Word) (code : Bool), let c := s.ev.ctx
    (s.ctx c).st = .waiting (.gateway line ea code) since → (s.ctx c).gang = none →
    let p : Word := BitVec.ofNat 64 (5 * 2 ^ 53 + line)
    let home := s.home c.core p
    (∀ d ∈ s.dies, d.2.fails = []) → (pPair p = true → (s.stack home (pStack p)).flight = false) → s.feat0 7 = true →
    (∀ k < 8, Claim.cached s (8 * home + k) home (pVa p / 64 * 64) (if code then .fetch else .read)) →
    ∃ t, exec .gatewayLineFill s = .next t ∧ (t.ctx c).st = .ready ∧ (t.ctx c).pc = (s.ctx c).pc) ∧
  (∀ s : State, ∃ t, exec .gatewayLineExpiry s = .next t ∧ (t.die s.ev.vd).gw = (s.die s.ev.vd).gw.eraseIdx s.ev.k ∧ t.mem = s.mem ∧
    t.ctxs = s.ctxs ∧ t.cores = s.cores ∧ t.tiles = s.tiles) ∧
  (∀ s : State, ∃ t, exec .translationExpiry s = .next t ∧ (t.tile s.ev.vt).tcache = (s.tile s.ev.vt).tcache.eraseIdx s.ev.k ∧ t.mem = s.mem ∧
    t.ctxs = s.ctxs ∧ t.cores = s.cores ∧ t.dies = s.dies)

/-- CWAIT reports a remote error record that names its counter, waits below its threshold, and otherwise completes; CSIG adds to its counter,
saturating; CSET sets the count and keeps E; CRD writes the count with E above it to s[D] (R27, R195). BAR and BAR.wait record their core's
arrival and wait; BAR.arrive records it and completes; before that arrival, and as a release at tile scope, each waits for its context's posted accesses, and
a remote error record is reported first (R190, R196). One that finds an arrival of the present episode recorded only waits, the record unreported (R198). A core
forwards its token east, in the last column north, and at the last corner starts the release (R197); the release ends the core's episode, and what waits in
BAR or BAR.wait there completes, and a waiting BAR.arrive arrives for the next episode and completes (R197, R198). -/
def Obligations.CountersAndBarriers : Prop :=
  (∀ s : State, s.Ready .cwait → let n := s.op.imm.toNat % 256
    let thr := s.opA.toNat % 65536
    (∀ r, (s.ctx s.cur).err = some r → r.ctr = some n → Traps .cwait s r.trap (s.taken .cwait)) ∧
    ((∀ r, (s.ctx s.cur).err = some r → r.ctr ≠ some n) →
      (((s.core s.cur.core).reinAt n).v.toNat < thr → Waits .cwait s (.counter n thr) (s.taken .cwait)) ∧
      (thr ≤ ((s.core s.cur.core).reinAt n).v.toNat → ∃ s', Gives .cwait s s' Touch.none ∧
        ((s'.core s.cur.core).reinAt n).v = ((s.core s.cur.core).reinAt n).v))) ∧
  (∀ s : State, s.Ready .csig → let n := s.op.imm.toNat % 256
    ∃ s', Gives .csig s s' Touch.none ∧
      ((s'.core s.cur.core).reinAt n).v.toNat = min (((s.core s.cur.core).reinAt n).v.toNat + s.opA.toNat % 65536) 0xffff ∧
      ∀ m, m ≠ n → (s'.core s.cur.core).reinAt m = (s.core s.cur.core).reinAt m) ∧
  (∀ s : State, s.Ready .cset → let n := s.op.imm.toNat % 256
    ∃ s', Gives .cset s s' Touch.none ∧ ((s'.core s.cur.core).reinAt n).v.toNat = s.opA.toNat % 65536 ∧
      ((s'.core s.cur.core).reinAt n).e = ((s.core s.cur.core).reinAt n).e ∧
      ∀ m, m ≠ n → (s'.core s.cur.core).reinAt m = (s.core s.cur.core).reinAt m) ∧
  (∀ s : State, s.Ready .crd → let r := (s.core s.cur.core).reinAt (s.op.imm.toNat % 256)
    GivesReg .crd s (BitVec.ofNat 64 (r.v.toNat + if r.e = true then 2 ^ 16 else 0))) ∧
  (∀ (row : Instr) (s : State), row ∈ [Instr.bar, .barArrive, .barWait] → s.Ready row →
    (∀ r, (s.core s.cur.core).bar.arrived = false → (s.ctx s.cur).err = some r → Traps row s r.trap (s.taken row)) ∧
    ((s.core s.cur.core).bar.arrived = true → row ≠ .barArrive ∨ (s.ctx s.cur).posted = 0 → ∃ s', Waits row s .bar s' ∧ s'.mem = s.mem) ∧
    ((s.core s.cur.core).bar.arrived = true → row = .barArrive → 0 < (s.ctx s.cur).posted → Waits row s .earlier (s.taken row)) ∧
    ((s.ctx s.cur).err = none → (s.core s.cur.core).bar.arrived = false → 0 < (s.ctx s.cur).posted → Waits row s .earlier (s.taken row)) ∧
    ((s.ctx s.cur).err = none → (s.core s.cur.core).bar.arrived = false → (s.ctx s.cur).posted = 0 → ∃ s', (s'.core s.cur.core).bar.arrived = true ∧
      (if row = .barArrive then Gives row s s' Touch.none else Waits row s .bar s'))) ∧
  (∀ (s : State) (l : CoreLaunch), let c := s.ev.core
    let r := (s.core c).barRect
    let b := (s.core c).bar
    c.pos < 192 → s.ev.k = 0 → (s.core c).launch = some l → s.passes l.id c = false → b.arrived = true → (posX c.pos = rectX0 r ∨ b.west = true) →
    ∃ t, exec .barrierToken s = .next t ∧ t.ctxs = s.ctxs ∧ t.mem = s.mem ∧
      (posX c.pos < rectX1 r → b.sentEast = false → (t.core c).bar.sentEast = true ∧ ((t.core ⟨c.vt, c.pos + 1⟩).barOf l.id).west = true) ∧
      (rectX1 r ≤ posX c.pos → (posY c.pos ≤ rectY0 r ∨ b.south = true) →
        (posY c.pos < rectY1 r → b.sentNorth = false → (t.core c).bar.sentNorth = true ∧ ((t.core ⟨c.vt, c.pos + 12⟩).barOf l.id).south = true) ∧
        (rectY1 r ≤ posY c.pos → (t.core c).bar.release = true))) ∧
  (∀ (s : State) (l : CoreLaunch), let c := s.ev.core
    let waits := fun (i : Nat) (x : Inst) => (∃ since, (s.ctx ⟨c, i⟩).st = .waiting .bar since) ∧
      decodeHead (s.ctx ⟨c, i⟩).line (headIndex (s.ctx ⟨c, i⟩).pc) = .ok x
    let goes := fun (t : State) (i : Nat) => (t.ctx ⟨c, i⟩).st = .ready ∧ (t.ctx ⟨c, i⟩).pc = (nextHead (s.ctx ⟨c, i⟩).line (s.ctx ⟨c, i⟩).pc).1
    c.pos < 192 → s.ev.k = 0 → (s.core c).launch = some l → (s.core c).bar.release = true → (∀ i ∈ allCtx, (s.ctx ⟨c, i⟩).gang = none) →
    ((∀ i ∈ allCtx, ∀ x, waits i x → x.row ≠ .barArrive) → ∃ t, exec .barrierRelease s = .next t ∧ t.mem = s.mem ∧
      (t.core c).bar.arrived = false ∧ (t.core c).bar.release = false ∧ (t.core c).bar.phase = !(s.core c).bar.phase ∧
      ∀ i ∈ allCtx, ∀ x, waits i x → (x.row = .bar ∨ x.row = .barWait) → goes t i) ∧
    (∀ j ∈ allCtx, ∀ y, waits j y → y.row = .barArrive → (s.ctx ⟨c, j⟩).err = none → (∀ i ∈ allCtx, ∀ x, waits i x → x.row = .barArrive → i = j) →
      ∃ t, exec .barrierRelease s = .next t ∧ t.mem = s.mem ∧ (t.core c).bar.arrived = true ∧ (t.core c).bar.phase = !(s.core c).bar.phase ∧ goes t j))

/-- GET, PUT and RAMO make the pointer checks of R189 at issue: FEATURE_OFF and FORMAT, OFFSET_OVERFLOW, SPACE, MISALIGN, each a precise trap. Homed on the issuing die they are performed at once, unless the range scoreboard or an
earlier access of the context holds them back: a GET or a RAMO with D ≠ 0 writes its value to s[D], a PUT or a RAMO with D = 0 is acknowledged. Homed elsewhere a packet leaves: a returning access waits
for its value, a posted one completes and is counted; with sixteen posted accesses outstanding it waits (R186–R189). At the home the packet's
access is performed and its answer turns back; one that fails there is not performed, a posted one is recorded in the home's fault queue, and the answer
carries the cause. The acknowledgement signals the counter of the sync halfword, with the error bit and the context's error record after a failure, and the
value reaches s[D] and completes the instruction (R168, R190). While FPAMO is set RAMO.fadd traps DETCONF outside the launch's registered buffers and inside
one of another type (R192), here for a posted one and for another die's; on the issuing die a returning one makes the checks of its home first (R170).
In the core's own TCM get, put and the ten RAMO (ramoAdd to ramoSwap, ramoFadd) complete whenever nothing stands against the access: PUT and RAMO change the
2^SZ bytes there, as Table 62 says, and no other byte. -/
def Obligations.RemoteAccesses : Prop :=
  (∀ (row : Instr) (s : State) (ea p : Word), (row = .get ∨ row ∈ Claim.ramos ∧ s.op.d ≠ 0) → s.Ready row →
    (row ≠ .get → (s.op.md.toNat = 2 ∨ s.op.md.toNat = 3) → 1 ≤ s.op.sc.toNat → (s.ctx s.cur).posted = 0) →
    (row = .ramoFadd → (s.core s.cur.core).detmode.getLsbD 1 = false) →
    let e := Claim.env s row
    e.remoteEa (s.taken row) (if row = .get then [0, 1, 2, 3, 4, 5] else [0, 1, 2, 3, 5]) = .ok (ea, p) →
    let r := e.remote (s.taken row) (if row = .get then 0 else 2) true (Claim.ramos.idxOf row % 10) ea p
    (s.home s.cur.core p = dieOf s.cur.core.vt → ∀ v back s1, (s.taken row).remoteRun r s.cur.core.vt = .ok (v, back, s1) →
      (∀ w, (s.taken row).localWait r = some w → Waits row s w (s.taken row)) ∧
      ((s.taken row).localWait r = none → ∃ s', Completes row s .next s' ∧ s'.mem = s1.mem ∧
        s'.rs s.cur s.op.d = (if s.op.d = 0 then 0 else if row = .get then BitVec.ofNat 64 v else Claim.old r.size v) ∧
        (∀ (c : CtxId) (x : BitVec 5), ¬(c.key = s.cur.key ∧ x = s.op.d) → s'.rs c x = s.rs c x))) ∧
    (s.home s.cur.core p ≠ dieOf s.cur.core.vt → s.acquiring s.cur = true → Waits row s .earlier (s.taken row)) ∧
    (s.home s.cur.core p ≠ dieOf s.cur.core.vt → s.acquiring s.cur = false → ∃ id s' x, Waits row s (.value id) s' ∧ s'.mem = s.mem ∧ x ∈ s'.net ∧ x.id = id ∧ x.pl = .remote r ∧
      (s'.ctx s.cur).remote = (s.ctx s.cur).remote + 1)) ∧
  (∀ (row : Instr) (s : State) (ea p : Word), (row = .put ∨ row ∈ Claim.ramos ∧ s.op.d = 0) → s.Ready row →
    (row ≠ .put → (s.op.md.toNat = 2 ∨ s.op.md.toNat = 3) → 1 ≤ s.op.sc.toNat → (s.ctx s.cur).posted = 0) →
    (row = .ramoFadd → (s.core s.cur.core).detmode.getLsbD 1 = false) →
    let e := Claim.env s row
    e.remoteEa (s.taken row) [0, 1, 2, 3, 5] = .ok (ea, p) →
    let r := e.remote (s.taken row) (if row = .put then 1 else 2) false (Claim.ramos.idxOf row % 10) ea p
    (16 ≤ (s.ctx s.cur).posted → Waits row s .posted (s.taken row)) ∧
    ((s.ctx s.cur).posted < 16 → s.home s.cur.core p ≠ dieOf s.cur.core.vt → s.acquiring s.cur = true → Waits row s .earlier (s.taken row)) ∧
    ((s.ctx s.cur).posted < 16 → s.home s.cur.core p ≠ dieOf s.cur.core.vt → s.acquiring s.cur = false → ∃ s' x, Completes row s .async s' ∧
      (s'.ctx s.cur).posted = (s.ctx s.cur).posted + 1 ∧ x ∈ s'.net ∧ x.pl = .remote r ∧ Frame s (s.after row .async s') s.cur Touch.none) ∧
    (∀ w, (s.ctx s.cur).posted < 16 → s.home s.cur.core p = dieOf s.cur.core.vt → (s.taken row).localWait r = some w → Waits row s w (s.taken row)) ∧
    ((s.ctx s.cur).posted < 16 → s.home s.cur.core p = dieOf s.cur.core.vt → (s.taken row).localWait r = none → ∃ s', Completes row s .async s' ∧
      (∀ (c : CtxId) (x : BitVec 5), s'.rs c x = s.rs c x))) ∧
  (∀ (row : Instr) (s : State), row ∈ [Instr.get, .put, .ramoAdd, .ramoAnd, .ramoOr, .ramoXor, .ramoSmin, .ramoSmax, .ramoUmin, .ramoUmax, .ramoSwap, .ramoFadd] →
    s.Ready row → let p := s.opA
    let n := 2 ^ s.op.sz.toNat
    let o : Int := (pOff p : Int) + s.op.imm16.toInt
    let ea := Claim.withOff p o.toNat
    let bad := o < 0 ∨ (2 : Int) ^ offWidth (pSpc p) ≤ o
    let spaces := if row = .get then [0, 1, 2, 3, 4, 5] else [0, 1, 2, 3, 5]
    (∀ x, (Claim.env s row).remoteEa (s.taken row) spaces = .error x → Claim.Stops row s x) ∧
    (pSpc p = 0 → pRel p = false → unassigned p = 0 →
      (pFmt p = 15 ∧ s.feat0 5 = false → Traps row s (Cause.featureOff.at_ (if bad then p else ea)) (s.taken row)) ∧
      (¬(pFmt p = 15 ∧ s.feat0 5 = false) → fmtOk p = false → Traps row s (Cause.format.at_ (if bad then p else ea)) (s.taken row)) ∧
      (fmtOk p = true → (pFmt p = 15 → s.feat0 5 = true) → bad ∨ 2 ^ 17 < o + n → Traps row s (Cause.offsetOverflow.at_ p) (s.taken row)) ∧
      (fmtOk p = true → (pFmt p = 15 → s.feat0 5 = true) → ¬bad → o + n ≤ 2 ^ 17 → o.toNat % n ≠ 0 → Traps row s (Cause.misalign.at_ ea) (s.taken row))) ∧
    (6 ≤ pSpc p ∨ (pSpc p = 4 ∧ pRel p = false ∧ row ≠ .get ∧ s.op.imm16 = 0) → fmtOk p = true → (pFmt p = 15 → s.feat0 5 = true) →
      Traps row s (Cause.space.at_ p) (s.taken row))) ∧
  (∀ (s : State) (ea p : Word), s.Ready .ramoFadd → (s.core s.cur.core).detmode.getLsbD 1 = true →
    (Claim.env s .ramoFadd).remoteEa (s.taken .ramoFadd) [0, 1, 2, 3, 5] = .ok (ea, p) → s.op.d = 0 ∨ s.home s.cur.core p ≠ dieOf s.cur.core.vt →
    (∀ g, s.regOf (s.core s.cur.core).launchId ((absPtr s.cur.core p).getD p) = some g → g.et ≠ 6) →
    Traps .ramoFadd s (Cause.detconf.at_ ea) (s.taken .ramoFadd)) ∧
  (∀ (row : Instr) (s : State) (a : Nat), row ∈ [Instr.get, .put, .ramoAdd, .ramoAnd, .ramoOr, .ramoXor, .ramoSmin, .ramoSmax, .ramoUmin, .ramoUmax,
      .ramoSwap, .ramoFadd] → s.memOk → s.Ready row → (s.ctx s.cur).posted = 0 →
    (row = .ramoFadd → (s.core s.cur.core).detmode.getLsbD 1 = false) → let n := 2 ^ s.op.sz.toNat
    let m := s.load a n
    let b := (s.rs s.cur s.op.s2).toNat % 2 ^ (8 * n)
    Claim.InTcm s s.op.imm16.toInt n n (if row = .get then .read else if row = .put then .write else .rmw) a →
    (row = .get → ∃ s', Gives row s s' (Touch.reg s.op.d) ∧ s'.rs s.cur s.op.d = if s.op.d = 0 then 0 else BitVec.ofNat 64 m) ∧
    (row = .put → ∃ s', Completes row s .async s' ∧ Frame s (s.after row .async s') s.cur { Touch.none with lo := a, hi := a + n } ∧
      s'.load a n = s.opD.toNat % 2 ^ (8 * n)) ∧
    (row ≠ .get → row ≠ .put → s.op.d ≠ 0 → ∃ s', Gives row s s' { Touch.reg s.op.d with lo := a, hi := a + n } ∧ s'.rs s.cur s.op.d = Claim.old n m ∧
      ∀ f, Claim.amo row = some f → s'.load a n = f (8 * n) m b) ∧
    (row ≠ .get → row ≠ .put → s.op.d = 0 → ∃ s', Completes row s .async s' ∧
      Frame s (s.after row .async s') s.cur { Touch.none with lo := a, hi := a + n } ∧ ∀ f, Claim.amo row = some f → s'.load a n = f (8 * n) m b)) ∧
  (∀ (s : State) (r : Remote) (a : Nat), s.memOk → inBlocks a r.size = false →
    (r.kind = 0 → (s.performRemote r a).1 = s.load a r.size ∧ (s.performRemote r a).2.2.mem = s.mem) ∧
    (r.kind = 1 → (s.performRemote r a).2.2.load a r.size = r.data.toNat % 2 ^ (8 * r.size)) ∧
    (∀ row f, r.kind = 2 → row ∈ Claim.ramos → r.fn = Claim.ramos.idxOf row → Claim.amo row = some f → (s.performRemote r a).1 = s.load a r.size ∧
      (s.performRemote r a).2.2.load a r.size = f (8 * r.size) (s.load a r.size) (r.data.toNat % 2 ^ (8 * r.size)) % 2 ^ (8 * r.size)) ∧
    (∀ b, (b < a ∨ a + r.size ≤ b) → (s.performRemote r a).2.2.byte b = s.byte b)) ∧
  (∀ (s s1 : State) (p : Packet) (r : Remote) (a : Nat), s.arrivedRemote s.ev.k 0 = some (p, r) → s.remoteBehind s.ev.k r = false → pSpc r.abs ≠ 4 →
    (s.ctx r.issuer).gang = none → s.forwardsTo p r = none →
    s.homeAddr r.issuer.core p.dst p.dst (dieOf p.dst) r.sup r.taken r.abs r.size r.akind = .ok (a, s1) →
    exec .remoteAccessAtHome s = .next ((s1.performRemote r a).2.2.answerRemote p
      { (s1.performRemote r a).2.1 with value := r.result (s1.performRemote r a).1, ident := ifcIdent p.dst })) ∧
  (∀ (s s1 : State) (p : Packet) (r : Remote) (f : HomeFault), s.arrivedRemote s.ev.k 0 = some (p, r) → s.remoteBehind s.ev.k r = false → pSpc r.abs ≠ 4 →
    (s.ctx r.issuer).gang = none → s.forwardsTo p r = none →
    s.homeAddr r.issuer.core p.dst p.dst (dieOf p.dst) r.sup r.taken r.abs r.size r.akind = .error (f, s1) → f.cause ≠ .pageAbsent →
    exec .remoteAccessAtHome s = .next ((if r.returning then s1 else
        s1.recordFail (dieOf p.dst) r.ea r.tag.toNat (identC r.issuer) f.cause.code r.launch).answerRemote p
      { r with fault := f.cause.code, detail := f.detail, ident := ifcIdent p.dst })) ∧
  (∀ (s : State) (p : Packet) (r : Remote), s.arrivedRemote s.ev.k 0 = some (p, r) → s.remoteBehind s.ev.k r = false → (s.ctx r.issuer).gang = none →
    pSpc r.abs = 2 → s.slotGone (pTile r.abs) = false → s.spaceHomeFault r.abs r.size = false →
    s.permitted p.dst r.sup 2 (pOff r.abs) r.size r.akind = true → s.poisoned (s.flatOf r.issuer.core r.abs) r.size = false →
    ∃ t q x, exec .remoteAccessAtHome s = .next t ∧ t.packet s.ev.k = some q ∧ q.dst = r.issuer.core.vt ∧ q.pl = .remote x ∧ x.stage = 2 ∧ x.fault = r.fault) ∧
  (∀ (s : State) (p : Packet) (r : Remote) (n inc : Nat), s.arrivedRemote s.ev.k 2 = some (p, r) → r.returning = false → r.gone = false →
    r.ctr = some (n, inc) → ∃ t, exec .remoteAckArrival s = .next t ∧ t.mem = s.mem ∧ (∀ x ∈ t.net, x.id ≠ s.ev.k) ∧
      (t.ctx r.issuer).posted = (s.ctx r.issuer).posted - 1 ∧ (∀ x, t.rs r.issuer x = s.rs r.issuer x) ∧
      ((t.core r.issuer.core).reinAt n).v.toNat = min (((s.core r.issuer.core).reinAt n).v.toNat + inc) 0xffff ∧
      ((t.core r.issuer.core).reinAt n).e = (((s.core r.issuer.core).reinAt n).e || decide (r.fault ≠ 0)) ∧
      (r.fault ≠ 0 → (s.ctx r.issuer).err = none → (t.ctx r.issuer).err = some ⟨some n, r.fault, r.ea, r.tag, r.ident⟩)) ∧
  (∀ (s : State) (p : Packet) (r : Remote) (i : Inst), s.arrivedRemote s.ev.k 2 = some (p, r) → r.returning = true → r.gone = false → r.fault = 0 →
    let k := s.ctx r.issuer
    k.gang = none → decodeHead k.line (headIndex k.pc) = .ok i → ∃ t, exec .getValueReturn s = .next t ∧ t.mem = s.mem ∧
      (t.ctx r.issuer).st = .ready ∧ (t.ctx r.issuer).pc = (nextHead k.line k.pc).1 ∧ (t.ctx r.issuer).remote = k.remote - 1 ∧
      (∀ x, t.rs r.issuer x = if x = r.d ∧ x ≠ 0 then r.value else s.rs r.issuer x))

/-! Vectors (chapter 06). -/

namespace Sys2Proof.Claim

/-- Element e of width w of a register value (R202). -/
def lane (v : VReg) (w e : Nat) : Nat := v.toNat / 2 ^ (w * e) % 2 ^ w

/-- The governing predicate of the executing instruction, and whether it makes element e of width w active (R203). -/
def governs (s : State) (w e : Nat) : Bool := (s.rp s.cur (s.op.pg.setWidth 5)).getLsbD (w * e / 32)

/-- Elements of v[S1], v[S2], v[S3] and v[D]. -/
def laneA (s : State) (i : Nat) : Nat := lane (s.rv s.cur s.op.s1.toNat) (elemWidth s.op.et) i
def laneB (s : State) (i : Nat) : Nat := lane (s.rv s.cur s.op.s2.toNat) (elemWidth s.op.et) i
def laneC (s : State) (i : Nat) : Nat := lane (s.rv s.cur s.op.s3.toNat) (elemWidth s.op.et) i
def laneD (s : State) (i : Nat) : Nat := lane (s.rv s.cur s.op.d.toNat) (elemWidth s.op.et) i

/-- The row completes with v in v[D]; a vector instruction that is not run ahead. -/
def GivesVec (row : Instr) (s : State) (v : VReg) : Prop :=
  Gives row s ((s.taken row).wv s.cur s.op.d.toNat v) { Touch.none with v := [s.op.d.toNat] }

/-- The row completes with v in v[D], its flags sticky and SEED replaced. -/
def GivesVecF (row : Instr) (s : State) (v : VReg) (fl : FFlags) (sd : BitVec 32) : Prop :=
  Gives row s ((flagged (s.taken row) fl sd).wv s.cur s.op.d.toNat v) { Touch.none with v := [s.op.d.toNat], ff := true, seed := true }

/-- An integer element as a number: UINT8 unsigned, the others two's complement; a number wrapped, or clamped, to an element (R99). -/
def elem (et x : Nat) : Int := if et = 2 then x else (BitVec.ofNat (elemWidth et) x).toInt
def wrap (et : Nat) (v : Int) : Nat := (BitVec.ofInt (elemWidth et) v).toNat
def clamp (et : Nat) (v : Int) : Int :=
  if et = 2 then max 0 (min v 255) else max (-2 ^ (elemWidth et - 1)) (min v (2 ^ (elemWidth et - 1) - 1))

/-- Integer element types, and those of moves (Table 67). -/
def ints : List Nat := [1, 2, 3, 4, 5]
def moves : List Nat := [0, 1, 2, 3, 4, 5, 6, 7, 8, 9, 10, 14, 15]

/-- Integer results by element type from the elements of v[S1] and v[S2], and the integer element types accepted (Table 67). -/
def vint : Instr → Option (List Nat × (Nat → Nat → Nat → Nat))
  | .vadd => some (ints, fun et a b => wrap et (elem et a + elem et b))
  | .vaddSat => some (ints, fun et a b => wrap et (clamp et (elem et a + elem et b)))
  | .vsub => some (ints, fun et a b => wrap et (elem et a - elem et b))
  | .vsubSat => some (ints, fun et a b => wrap et (clamp et (elem et a - elem et b)))
  | .vmul => some (ints, fun et a b => wrap et (elem et a * elem et b))
  | .vmulSat => some (ints, fun et a b => wrap et (clamp et (elem et a * elem et b)))
  | .vmulHi => some (ints, fun et a b => wrap et (elem et a * elem et b / 2 ^ elemWidth et))
  | .vminmaxMin => some (ints, fun et a b => if elem et a ≤ elem et b then a else b)
  | .vminmaxMax => some (ints, fun et a b => if elem et a ≤ elem et b then b else a)
  | .vnegabsNeg => some ([1, 3, 4, 5], fun et a _ => wrap et (-(elem et a)))
  | .vnegabsAbs => some ([1, 3, 4, 5], fun et a _ => wrap et |elem et a|)
  | .vintAnd => some (0 :: ints, fun _ a b => a &&& b)
  | .vintOr => some (0 :: ints, fun _ a b => a ||| b)
  | .vintXor => some (0 :: ints, fun _ a b => a ^^^ b)
  | .vintAndn => some (0 :: ints, fun et a b => a &&& (2 ^ elemWidth et - 1 - b))
  | .vintShl => some (ints, fun et a b => a * 2 ^ (b % elemWidth et) % 2 ^ elemWidth et)
  | .vintShr => some (ints, fun et a b => a / 2 ^ (b % elemWidth et))
  | .vintSra => some (ints, fun et a b => ((BitVec.ofNat (elemWidth et) a).sshiftRight (b % elemWidth et)).toNat)
  | .vintPopc => some (ints, fun et a _ => ((List.range (elemWidth et)).filter (fun i => a.testBit i)).length)
  | _ => none

/-- What a move puts into element i of v[D] (R211, R212, Table 67). -/
def vmove : Instr → Option (State → Nat → Nat)
  | .vsel => some fun s i =>
      if (s.rp s.cur ((s.op.fn.extractLsb' 0 3).setWidth 5)).getLsbD (elemWidth s.op.et * i / 32) = true then laneA s i else laneB s i
  | .vshufIdx => some fun s i => laneA s (laneB s i % elemCount s.op.et)
  | .vshufRot => some fun s i => laneA s ((i + s.op.imm16.toNat) % elemCount s.op.et)
  | .vshufLo => some fun s i => if i % 2 = 0 then laneA s (i / 2) else laneB s (i / 2)
  | .vshufHi => some fun s i => if i % 2 = 0 then laneA s (elemCount s.op.et / 2 + i / 2) else laneB s (elemCount s.op.et / 2 + i / 2)
  | .vshufRev => some fun s i => laneA s (elemCount s.op.et - 1 - i)
  | .vbcastS => some fun s _ => s.opA.toNat % 2 ^ elemWidth s.op.et
  | .vbcastLane => some fun s _ => laneA s (s.op.imm16.toNat % elemCount s.op.et)
  | _ => none

/-- Element types that a vector instruction accepts (Table 67, R208–R219); every other traps FORMAT. -/
def vets : Instr → Option (List Nat)
  | .vadd | .vsub | .vmul | .vminmaxMin | .vminmaxMax => some [1, 2, 3, 4, 5, 6, 7, 8]
  | .vnegabsNeg | .vnegabsAbs => some [1, 3, 4, 5, 6, 7, 8]
  | .vaddSat | .vsubSat | .vmulSat | .vmulHi | .vintShl | .vintShr | .vintSra | .vintPopc | .vredAnd | .vredOr | .vredXor => some ints
  | .vintAnd | .vintOr | .vintXor | .vintAndn => some (0 :: ints)
  | .vfma | .vfmaMs | .vfmaNm | .vspecRcp | .vspecRsqrt | .vspecSqrt | .vspecDiv | .vspecExp2 | .vspecLog2 | .vspecTanh => some [6, 7, 8]
  | .vsel | .vshufIdx | .vshufRot | .vshufLo | .vshufHi | .vshufRev | .vbcastS | .vbcastLane => some moves
  | .vcmpEq | .vcmpNe | .vcmpLt | .vcmpGe | .vcmpLe | .vcmpGt => some [4, 5, 6]
  | .vcmpUn | .vamax => some [6]
  | .vredSum | .vredMin | .vredMax => some [1, 2, 3, 4, 5, 6, 7, 8]
  | .vdotQ => some [1, 2]
  | .vdotP => some [3, 7, 8]
  | .vscale | .vquant => some [16, 17, 18, 19, 20, 21]
  | .vtbl | .venc => some [15]
  | _ => none

/-- The format of the executing instruction's float element type, and an element as a value of it. -/
def eltFmt (s : State) : Fmt := (fmtOf s.op.et).getD .f32
def felem (s : State) (x : Nat) : FVal := (eltFmt s).decode 0 x

/-- The rounding mode: the override of SC, or RMODE (R79, R110). -/
def rmode (s : State) : Nat := if s.op.sc = 0 then (s.ctx s.cur).mode.toNat else s.op.sc.toNat - 1

/-- The exact operation of a vector float row on elements a, b and c: rounding mode and generated NaN (Table 67, R213). -/
def vfloat : Instr → Option (Nat → Nat → FVal → FVal → FVal → ExactF)
  | .vadd => some fun m gn a b _ => opAdd m gn a b
  | .vsub => some fun m gn a b _ => opAdd m gn a b.negate
  | .vmul => some fun _ gn a b _ => opMul gn a b
  | .vfma => some fun m gn a b c => opFma m gn a b c
  | .vfmaMs => some fun m gn a b c => opFma m gn a b c.negate
  | .vfmaNm => some fun m gn a b c => opFma m gn a.negate b c
  | .vspecRcp => some fun _ gn a _ _ => opDiv gn (.fin false 1 0) a
  | .vspecRsqrt => some fun _ gn a _ _ => opRsqrt gn a
  | .vspecSqrt => some fun _ gn a _ _ => opSqrt gn a
  | .vspecDiv => some fun _ gn a b _ => opDiv gn a b
  | .vspecExp2 => some fun _ _ a _ _ => opExp2 a
  | .vspecLog2 => some fun _ gn a _ _ => opLog2 gn a
  | .vspecTanh => some fun _ _ a _ _ => opTanh a
  | _ => none

/-- SEED before element i: each active element below it has drawn once, in ascending order (R113). -/
def seedAt (f : Fmt) (mode : Nat) (act : Nat → Bool) (g : Nat → ExactF) (sd : BitVec 32) : Nat → BitVec 32
  | 0 => sd
  | i + 1 => if act i = true then (finish f mode false (seedAt f mode act g sd i) (g i)).seed else seedAt f mode act g sd i

/-- The rounded element i, and the flags of the first n elements. -/
def rounded (f : Fmt) (mode : Nat) (act : Nat → Bool) (g : Nat → ExactF) (sd : BitVec 32) (i : Nat) : FpOut :=
  finish f mode false (seedAt f mode act g sd i) (g i)
def flagsOf (f : Fmt) (mode : Nat) (act : Nat → Bool) (g : Nat → ExactF) (sd : BitVec 32) : Nat → FFlags
  | 0 => 0
  | i + 1 => flagsOf f mode act g sd i ||| (if act i = true then (rounded f mode act g sd i).fl else 0)

/-- A relation of VCMP: by the order of numbers; its value when an operand is a NaN; whether a quiet NaN is invalid (R208). -/
def vcmp : Instr → Option ((Ordering → Bool) × Bool × Bool)
  | .vcmpEq => some (fun o => o == .eq, false, false)
  | .vcmpNe => some (fun o => o != .eq, true, false)
  | .vcmpLt => some (fun o => o == .lt, false, true)
  | .vcmpGe => some (fun o => o != .lt, false, true)
  | .vcmpLe => some (fun o => o != .gt, false, true)
  | .vcmpGt => some (fun o => o == .gt, false, true)
  | .vcmpUn => some (fun _ => false, true, false)
  | _ => none

/-- The active elements of v[S1], in order. -/
def actives (s : State) : List Nat :=
  ((List.range (elemCount s.op.et)).filter (governs s (elemWidth s.op.et))).map (laneA s)

/-- A balanced tree of pairs over values 0 to 2^k − 1, the left operand first (R210). -/
def tree (f : Nat → Nat → Nat) (x : Nat → Nat) : Nat → Nat → Nat
  | 0, i => x i
  | k + 1, i => f (tree f x k (2 * i)) (tree f x k (2 * i + 1))

/-- Input i of block k of a block instruction: active, and its FP32 bits (R215). -/
def blockIn (s : State) (k i : Nat) : Bool × Nat :=
  let j := k * blockLen (s.op.imm.extractLsb' 0 3).toNat + i
  let on := (s.rp s.cur (s.op.pg.setWidth 5)).getLsbD (j % 16)
  (on, if on = true then lane (s.rv s.cur (s.op.s1.toNat + j / 16)) 32 (j % 16) else 0)

end Sys2Proof.Claim

/-- Vector integer instructions and moves write each active element with the result of Table 67, R211 or R212, and keep the inactive ones; VDOT.q and
VDOT.p of INT16 add their products to 32-bit lanes that wrap (R214). No flag is set and no other register changes. An element type
outside the instruction's list traps FORMAT with TRAPVAL 0 (R204). That TRAPVAL is 0 there is the model's reading (log 19). -/
def Obligations.VectorIntegerLanes : Prop :=
  (∀ (row : Instr) (ets : List Nat) (f : Nat → Nat → Nat → Nat) (s : State), Claim.vint row = some (ets, f) → s.Ready row → s.ahead = false →
    let et := s.op.et
    et ∈ ets → ∃ v, Claim.GivesVec row s v ∧ ∀ i < elemCount et, Claim.lane v (elemWidth et) i =
      if Claim.governs s (elemWidth et) i = true then f et (Claim.laneA s i) (Claim.laneB s i) else Claim.laneD s i) ∧
  (∀ (row : Instr) (f : State → Nat → Nat) (s : State), Claim.vmove row = some f → s.Ready row → s.ahead = false → let et := s.op.et
    et ∈ Claim.moves → ∃ v, Claim.GivesVec row s v ∧ ∀ i < elemCount et, Claim.lane v (elemWidth et) i =
      if Claim.governs s (elemWidth et) i = true then f s i else Claim.laneD s i) ∧
  (∀ (row : Instr) (n : Nat) (s : State), (row = .vdotQ ∧ n = 4 ∧ (s.op.et = 1 ∨ s.op.et = 2)) ∨ (row = .vdotP ∧ n = 2 ∧ s.op.et = 3) →
    s.Ready row → s.ahead = false → let old := fun l => Claim.lane (s.rv s.cur s.op.d.toNat) 32 l
    ∃ v, Claim.GivesVec row s v ∧ ∀ l < 16, Claim.lane v 32 l =
      if Claim.governs s 32 l = true then
        (BitVec.ofInt 32 ((old l : Int) + ((List.range n).map (fun j =>
          Claim.elem s.op.et (Claim.laneA s (n * l + j)) * Claim.elem s.op.et (Claim.laneB s (n * l + j)))).sum)).toNat
      else old l) ∧
  (∀ (row : Instr) (ets : List Nat) (s : State), Claim.vets row = some ets → s.Ready row → s.ahead = false → s.op.et ∉ ets →
    Traps row s (Cause.format.at_ 0) (s.taken row))

/-- Vector float instructions round the exact result of each active element once, in ascending order, each drawing from SEED when the mode is
stochastic, keep the inactive elements, and make the flags of the active ones sticky (R113, R206, R207, R213, R214). The minimum and maximum
are operands bit for bit, negation and absolute value change the sign bit only, and VCMP writes the predicate bits of active elements (R208). -/
def Obligations.VectorFloatLanes : Prop :=
  (∀ (row : Instr) (f : Nat → Nat → FVal → FVal → FVal → ExactF) (s : State), Claim.vfloat row = some f → s.Ready row → s.ahead = false →
    let et := s.op.et
    et = 6 ∨ et = 7 ∨ et = 8 →
    let w := elemWidth et
    let g := fun i => f (Claim.rmode s) (genNaN 1 i s.cur.ctx 1) (Claim.felem s (Claim.laneA s i)) (Claim.felem s (Claim.laneB s i))
      (Claim.felem s (Claim.laneC s i))
    let sd := (s.ctx s.cur).seed
    let fm := Claim.eltFmt s
    ∃ v, Claim.GivesVecF row s v (Claim.flagsOf fm (Claim.rmode s) (Claim.governs s w) g sd (elemCount et))
        (Claim.seedAt fm (Claim.rmode s) (Claim.governs s w) g sd (elemCount et)) ∧
      ∀ i < elemCount et, Claim.lane v w i =
        if Claim.governs s w i = true then (Claim.rounded fm (Claim.rmode s) (Claim.governs s w) g sd i).bits else Claim.laneD s i) ∧
  (∀ (row : Instr) (mx : Bool) (s : State), (row, mx) ∈ [(Instr.vminmaxMin, false), (.vminmaxMax, true)] → s.Ready row → s.ahead = false →
    let et := s.op.et
    et = 6 ∨ et = 7 ∨ et = 8 → ∃ v fl, Claim.GivesVecF row s v fl (s.ctx s.cur).seed ∧ ∀ i < elemCount et,
      let a := Claim.felem s (Claim.laneA s i)
      let b := Claim.felem s (Claim.laneB s i)
      let x := Claim.lane v (elemWidth et) i
      if Claim.governs s (elemWidth et) i = false then x = Claim.laneD s i
      else a.isNaN = false → b.isNaN = false → (x = Claim.laneA s i ∨ x = Claim.laneB s i) ∧
        cmpNum (Claim.felem s x) a ≠ (if mx then .lt else .gt) ∧ cmpNum (Claim.felem s x) b ≠ (if mx then .lt else .gt) ∧
        (cmpNum a b = .eq → x = if mx then Claim.laneA s i &&& Claim.laneB s i else Claim.laneA s i ||| Claim.laneB s i)) ∧
  (∀ (row : Instr) (s : State), row = .vnegabsNeg ∨ row = .vnegabsAbs → s.Ready row → s.ahead = false → let et := s.op.et
    et = 6 ∨ et = 7 ∨ et = 8 → ∃ v, Claim.GivesVec row s v ∧ ∀ i < elemCount et, Claim.lane v (elemWidth et) i =
      if Claim.governs s (elemWidth et) i = true then
        Claim.laneA s i % 2 ^ (elemWidth et - 1) +
          (if row = .vnegabsNeg ∧ Claim.laneA s i < 2 ^ (elemWidth et - 1) then 2 ^ (elemWidth et - 1) else 0)
      else Claim.laneD s i) ∧
  (∀ (row : Instr) (r : Ordering → Bool) (un inv : Bool) (s : State), Claim.vcmp row = some (r, un, inv) → s.Ready row → s.ahead = false →
    let et := s.op.et
    let w := elemWidth et
    (et = 6 ∨ row ≠ .vcmpUn ∧ (et = 4 ∨ et = 5)) →
    let a := fun i => Claim.felem s (Claim.laneA s i)
    let b := fun i => Claim.felem s (Claim.laneB s i)
    let holds := fun i => if et ≠ 6 then r (compare (Claim.elem et (Claim.laneA s i)) (Claim.elem et (Claim.laneB s i)))
      else if (a i).isNaN || (b i).isNaN then un else r (cmpNum (a i) (b i))
    let invalid := et = 6 ∧ ∃ i < elemCount et, Claim.governs s w i = true ∧
      ((a i).isSig || (b i).isSig || (inv && ((a i).isNaN || (b i).isNaN))) = true
    ∃ v fl, Gives row s ((Claim.flagged (s.taken row) fl (s.ctx s.cur).seed).wp s.cur s.op.d v) { Touch.none with p := [s.op.d], ff := true } ∧
      (invalid → fl = fNV) ∧ (¬invalid → fl = 0) ∧
      ∀ k < 16, let i := if w = 64 then k / 2 else k
        v.getLsbD k = if Claim.governs s w i = true then holds i else (s.rp s.cur s.op.d).getLsbD k) ∧
  (∀ s : State, s.Ready .vdotP → s.ahead = false → s.op.et = 7 ∨ s.op.et = 8 →
    let old := fun l => Claim.lane (s.rv s.cur s.op.d.toNat) 32 l
    let x := fun l => Claim.felem s (Claim.laneA s l)
    let y := fun l => Claim.felem s (Claim.laneB s l)
    let g := fun l => dot2 (Claim.rmode s) (genNaN 1 l s.cur.ctx 1) (f32 (old l)) (x (2 * l)) (y (2 * l)) (x (2 * l + 1)) (y (2 * l + 1))
    let sd := (s.ctx s.cur).seed
    ∃ v, Claim.GivesVecF .vdotP s v (Claim.flagsOf .f32 (Claim.rmode s) (Claim.governs s 32) g sd 16)
        (Claim.seedAt .f32 (Claim.rmode s) (Claim.governs s 32) g sd 16) ∧
      ∀ l < 16, Claim.lane v 32 l =
        if Claim.governs s 32 l = true then (Claim.rounded .f32 (Claim.rmode s) (Claim.governs s 32) g sd l).bits else old l)

/-- VRED writes element 0 of v[D] with the reduction of the active elements of v[S1] and zeros above it: integer sums wrap, the minimum and
maximum are an active element, an empty reduction gives the identity; float sums round pair by pair in a balanced tree, an inactive
element standing for −0, and an empty sum is +0 (R210). VCVT converts each active element as its part of the longer register says: between
integers by wrapping or saturating (R209, Table 69). These are the model's choices: which element types take an override of the rounding mode
(log 18), TRAPVAL 0 of FORMAT (log 19), a VRED step whose inputs are both identities of inactive elements, and a saturating conversion between the
8-bit types (log 40). -/
def Obligations.VectorReduceConvert : Prop :=
  (∀ (row : Instr) (s : State), row ∈ [Instr.vredSum, .vredMin, .vredMax, .vredAnd, .vredOr, .vredXor] → s.Ready row → s.ahead = false →
    let et := s.op.et
    let w := elemWidth et
    let l := Claim.actives s
    et ∈ Claim.ints → ∃ v, Claim.GivesVec row s v ∧ v.toNat < 2 ^ w ∧
      (row = .vredSum → v.toNat = Claim.wrap et (l.map (Claim.elem et)).sum) ∧
      (row = .vredMin → if l = [] then v.toNat = (if et = 2 then 255 else 2 ^ (w - 1) - 1)
        else v.toNat ∈ l ∧ ∀ x ∈ l, Claim.elem et v.toNat ≤ Claim.elem et x) ∧
      (row = .vredMax → if l = [] then v.toNat = (if et = 2 then 0 else 2 ^ (w - 1))
        else v.toNat ∈ l ∧ ∀ x ∈ l, Claim.elem et x ≤ Claim.elem et v.toNat) ∧
      (row = .vredAnd → v.toNat = l.foldl (· &&& ·) (2 ^ w - 1)) ∧ (row = .vredOr → v.toNat = l.foldl (· ||| ·) 0) ∧
      (row = .vredXor → v.toNat = l.foldl (· ^^^ ·) 0)) ∧
  (∀ (row : Instr) (s : State), row ∈ [Instr.vredSum, .vredMin, .vredMax] → s.Ready row → s.ahead = false →
    let et := s.op.et
    let w := elemWidth et
    let l := Claim.actives s
    et = 6 ∨ et = 7 ∨ et = 8 → ∃ v fl sd, Claim.GivesVecF row s v fl sd ∧ v.toNat < 2 ^ w ∧
      (row = .vredSum → l = [] → v.toNat = 0) ∧
      (row = .vredSum → l ≠ [] → Claim.rmode s ≠ 4 → v.toNat =
        Claim.tree (fun x y => (finish (Claim.eltFmt s) (Claim.rmode s) false 0
            (opAdd (Claim.rmode s) (genNaN 1 0 s.cur.ctx 1) (Claim.felem s x) (Claim.felem s y))).bits)
          (fun i => if Claim.governs s w i = true then Claim.laneA s i else 2 ^ (w - 1)) (if et = 6 then 4 else 5) 0) ∧
      (row ≠ .vredSum → l ≠ [] → (∀ x ∈ l, (Claim.felem s x).isNaN = false) →
        (v.toNat ∈ l ∨ ∃ x ∈ l, (Claim.felem s x).isInf = true ∧ cmpNum (Claim.felem s v.toNat) (Claim.felem s x) = .eq) ∧
        ∀ x ∈ l, cmpNum (Claim.felem s v.toNat) (Claim.felem s x) ≠ (if row = .vredMin then .gt else .lt))) ∧
  (∀ (row : Instr) (sat : Bool) (s : State), (row, sat) ∈ [(Instr.vcvt, false), (.vcvtSat, true)] → s.Ready row → s.ahead = false →
    let et := s.op.et
    let dst := s.op.fn.toNat % 32
    let part := (s.op.imm.extractLsb' 0 3).toNat
    let ws := elemWidth et
    let wd := elemWidth dst
    let cs := elemCount et
    let cd := elemCount dst
    let p := s.rp s.cur (s.op.pg.setWidth 5)
    let old := s.rv s.cur s.op.d.toNat
    if et = 0 ∨ et = 15 ∨ 14 ≤ dst ∨ ((et = 14 ∨ 16 ≤ et) ∧ dst ≠ 6) then Traps row s (Cause.format.at_ 0) (s.taken row)
    else ∃ v fl sd, Claim.GivesVecF row s v fl sd ∧
      (et < 16 → let from_ := fun i => if cd ≤ cs then part * cd + i else i
        let to_ := fun i => if cd ≤ cs then i else part * cs + i
        let bit := fun i => if cd ≤ cs then wd * i / 32 else ws * i / 32
        (∀ i < min cs cd, from_ i < cs → to_ i < cd → p.getLsbD (bit i) = true → let x := Claim.lane (s.rv s.cur s.op.s1.toNat) ws (from_ i)
          (et ∈ Claim.ints → dst ∈ Claim.ints → Claim.lane v wd (to_ i) =
            Claim.wrap dst (if sat then Claim.clamp dst (Claim.elem et x) else Claim.elem et x)) ∧
          ∃ sd', Claim.lane v wd (to_ i) = (vconv s.cur (Claim.rmode s) sat et dst (to_ i) x sd').1 % 2 ^ wd) ∧
        (∀ k < cd, (∀ i < min cs cd, to_ i = k → p.getLsbD (bit i) = false) → Claim.lane v wd k = Claim.lane old wd k)) ∧
      (16 ≤ et → let blk := (s.op.imm.extractLsb' 8 3).toNat
        let b := s.groupBytes s.cur s.op.s1.toNat ((((16 * part + 15) / blockLen blk + 1) * frameBytes et blk + 63) / 64)
        ∀ i < 16, if p.getLsbD i = true then
            let x := frameElem et blk b (16 * part + i)
            ∃ sd', Claim.lane v 32 i = (convert .f32 (Claim.rmode s) false sd'
              (mxVal et x.1 (genNaN 2 (16 * part + i) s.cur.ctx 1) (genNaN 3 (16 * part + i) s.cur.ctx 1) x.2)).bits % 2 ^ 32
          else Claim.lane v 32 i = Claim.lane old 32 i))

/-- VAMAX writes each block's largest magnitude to one lane (R216). VSCALE takes each block's scale from it and VQUANT from v[S2]; both write frames whose
codes hold the elements divided by their scale and rounded, +0 for an inactive one (R215, R217, R218). VTBL decodes through the core's
decode table and VENC encodes through it, a part of the register at a time (R219). The flags of VQUANT are the model's reading (log 20). -/
def Obligations.VectorBlocksAndTables : Prop :=
  (∀ s : State, s.Ready .vamax → s.ahead = false → s.op.et = 6 → let blk := (s.op.imm.extractLsb' 0 3).toNat
    ∃ v fl, Claim.GivesVecF .vamax s v fl (s.ctx s.cur).seed ∧ (∀ k < 16, blockNum blk ≤ k → Claim.lane v 32 k = 0) ∧
      ∀ k < blockNum blk, (∀ i < blockLen blk, (f32 (Claim.blockIn s k i).2).isNaN = false) →
        (∃ i < blockLen blk, Claim.lane v 32 k = (Claim.blockIn s k i).2 % 2 ^ 31) ∧
        ∀ i < blockLen blk, (Claim.blockIn s k i).2 % 2 ^ 31 ≤ Claim.lane v 32 k) ∧
  (∀ (row : Instr) (s : State), row = .vscale ∨ row = .vquant → s.Ready row → s.ahead = false → let et := s.op.et
    let blk := (s.op.imm.extractLsb' 0 3).toNat
    let g := (blockNum blk * frameBytes et blk + 63) / 64
    16 ≤ et → et ≤ 21 → ∃ s', Gives row s s' { Touch.none with v := (List.range g).map (s.op.d.toNat + ·), ff := true, seed := true } ∧
      ∀ k < blockNum blk, ∀ i < blockLen blk,
        let x := frameElem et blk (s'.groupBytes s.cur s.op.d.toNat g) (k * blockLen blk + i)
        let inp := Claim.blockIn s k i
        (row = .vquant → x.1 = Claim.lane (s.rv s.cur s.op.s2.toNat) 32 k % 256) ∧
        (row = .vscale → (∀ j < blockLen blk, (f32 (Claim.blockIn s k j).2).isNaN = false) →
          ∃ j < blockLen blk, (∀ n < blockLen blk, (Claim.blockIn s k n).2 % 2 ^ 31 ≤ (Claim.blockIn s k j).2 % 2 ^ 31) ∧
            x.1 = (computeScale ((Claim.blockIn s k j).2 % 2 ^ 31) (emaxOf et)).1) ∧
        (inp.1 = false ∨ x.1 = 255 → x.2 = 0) ∧
        (inp.1 = true → x.1 ≠ 255 → ∃ sd, x.2 = (mxQuant et (Claim.rmode s) sd (unscale x.1 (f32 inp.2))).1 % 2 ^ elemWidth et)) ∧
  (∀ s : State, s.Ready .vtbl → s.ahead = false → s.op.et = 15 → ∃ v, Claim.GivesVec .vtbl s v ∧ ∀ i < 16, Claim.lane v 32 i =
    if Claim.governs s 32 i = true then
      ((s.core s.cur.core).dec.get (Claim.lane (s.rv s.cur s.op.s1.toNat) 8 (16 * (s.op.imm.extractLsb' 0 2).toNat + i)) 0).toNat * 2 ^ 13
    else Claim.lane (s.rv s.cur s.op.d.toNat) 32 i) ∧
  (∀ s : State, s.Ready .venc → s.ahead = false → s.op.et = 15 → ∃ v fl, Claim.GivesVecF .venc s v fl (s.ctx s.cur).seed ∧
    ∀ b < 64, let part := (s.op.imm.extractLsb' 0 2).toNat
      Claim.lane v 8 b = if b / 16 = part ∧ Claim.governs s 32 (b - 16 * part) = true then
          (tblEncode (fun n => ((s.core s.cur.core).dec.get n 0).toNat) (f32 (Claim.lane (s.rv s.cur s.op.s1.toNat) 32 (b - 16 * part)))).1 % 256
        else Claim.lane (s.rv s.cur s.op.d.toNat) 8 b)

/-! Vector memory, gangs, the matrix unit (chapters 06 and 07). -/

namespace Sys2Proof.Claim

/-- The vector memory forms, and whether they store. -/
def vectorMemory : List (Instr × Bool) := [(.vld, false), (.vst, true), (.vldStr, false), (.vstStr, true), (.vgth, false), (.vsct, true)]

/-- Elements and bytes of the unit that a vector access moves at once: a byte of two 4-bit, three bytes of four 6-bit elements, else one
element (R220). -/
def unitLanes (et : Nat) : Nat := if elemWidth et = 4 then 2 else if elemWidth et = 6 then 4 else 1
def unitBytes (et : Nat) : Nat := if elemWidth et = 4 then 1 else if elemWidth et = 6 then 3 else elemWidth et / 8

/-- Element types of the forms with element type below 16 (R220, R222). -/
def vmemEts (row : Instr) : List Nat :=
  if row = .vld ∨ row = .vst then [0, 1, 2, 3, 4, 5, 6, 7, 8, 9, 10, 11, 12, 13, 14, 15]
  else if row = .vldStr ∨ row = .vstStr then moves else [0, 4, 5, 6]

/-- The register whose value advances the base. -/
def vmemAdvance (row : Instr) (s : State) : Word := if row = .vld ∨ row = .vst then s.rs s.cur s.op.s2 else s.rs s.cur s.op.s3

/-- Byte offset of unit u from the effective address (R220, R222). -/
def vmemOffset (row : Instr) (s : State) (u : Nat) : Int :=
  if row = .vld ∨ row = .vst then (u * unitBytes s.op.et : Nat)
  else if row = .vldStr ∨ row = .vstStr then u * (s.rs s.cur s.op.s2).toInt
  else (BitVec.ofNat 32 (lane (s.rv s.cur s.op.s2.toNat) 32 (if elemWidth s.op.et = 64 then 2 * u else u))).toInt * (elemWidth s.op.et / 8 : Nat)

/-- The access of unit u. -/
def vmemReq (row : Instr) (store : Bool) (s : State) (u : Nat) : Req :=
  { base := s.opA, ofs := s.op.imm16.toInt + vmemOffset row s u, n := unitBytes s.op.et,
    align := if s.op.et = 0 then 4 else (elemWidth s.op.et + 7) / 8, k := if store then .write else .read,
    spaces := [0, 1, 2, 3, 5], plain := true, held := true }

/-- Unit u holds an active element. -/
def unitActive (s : State) (u : Nat) : Prop :=
  u < elemCount s.op.et / unitLanes s.op.et ∧ ∃ j < unitLanes s.op.et, governs s (elemWidth s.op.et) (unitLanes s.op.et * u + j) = true

/-- An access through the base of a form C instruction (R79, R164). -/
def move (s : State) (ofs : Int) (n align : Nat) (k : AKind) (plain held : Bool) : Req :=
  ⟨s.opA, s.op.imm16.toInt + ofs, n, align, k, [0, 1, 2, 3, 5], plain, held⟩

/-- The access to element i, of n bytes, of an accumulator's image; the first shows that the image keeps to 64 bytes (R248). -/
def element (s : State) (n : Nat) (k : AKind) (i : Nat) : Req := move s (n * i : Nat) n (if i = 0 then 64 else n) k true true

/-- The cores of a gang that a leader forms: columns and rows from its position (R230). -/
def gangSize : Instr → Option (Nat × Nat × Nat)
  | .gang2 => some (0, 2, 1)
  | .gang4 => some (1, 2, 2)
  | .gang8 => some (2, 4, 2)
  | _ => none

/-- The helpers of a gang. -/
def gangOf (lead : CtxId) (w h : Nat) : List CtxId :=
  (List.range (w * h)).map (fun m => ⟨⟨lead.core.vt, lead.core.pos + m % w + 12 * (m / w)⟩, lead.ctx⟩)

/-- The rows that may be handed over to the sequencer: vector and matrix instructions (R224, R237). -/
def handed (row : Instr) : Prop := (0x50 ≤ row.major ∧ row.major ≤ 0x67) ∨ (0x6c ≤ row.major ∧ row.major ≤ 0x71)

/-- One accumulator element over n groups, group products added in order, each sum rounded (R122, R243). -/
def accumulated (sat : Bool) (ctxn : Nat) (et row col : Nat) (ca cb : Nat → Nat) (z : Nat) : Nat → Nat
  | 0 => z
  | k + 1 => accumulate sat ⟨2, ctxn, k⟩ (accumulated sat ctxn et row col ca cb z k)
      (groupProduct sat ⟨2, ctxn, k⟩ (ca k == 255 || cb k == 255)
        ((List.range (matG et)).map (fun i => (matElem et row (k * matG et + i), matElem et col (k * matG et + i))))
        ((ca k : Int) + cb k - 254))

/-- The number a finite value stands for. -/
def numOf : FVal → ℚ
  | .fin n m e => num n m e
  | _ => 0

end Sys2Proof.Claim

/-- Vector loads and stores of element types 0 to 15 move each active element at its own address, ascending, after every access has passed its
checks: a load writes the active elements of v[D], a store the bytes of active elements; inactive elements and all other bytes keep their
value, and the base advances when the advance is not 0 (R203, R220, R222, R223). VLD and VST of an MX type move whole frames (R221). VLD, VST,
VLD.str, VST.str, VGTH and VSCT complete through a pointer to the core's own TCM whenever nothing stands against their accesses. For pointers
outside global memory, with the conflict detector off. -/
def Obligations.VectorMemory : Prop :=
  (∀ (row : Instr) (store : Bool) (s : State) (adr : Nat → Nat), (row, store) ∈ Claim.vectorMemory → s.Ready row → s.ahead = false →
    s.confOn s.cur = false →
    let p := s.opA
    let et := s.op.et
    let w := elemWidth et
    let per := Claim.unitLanes et
    let nb := Claim.unitBytes et
    let adv := Claim.vmemAdvance row s
    et ∈ Claim.vmemEts row → (pFmt p = 15 → s.feat0 5 = true) → fmtOk p = true → (if et = 0 then pFmt p ≤ 15 else pFmt p = 0 ∨ pFmt p = et) →
    pSpc p < 4 → (offAdd p s.op.imm16.toInt).isSome = true → (adv = 0 ∨ (offAdd p adv.toInt).isSome = true) →
    (∀ u, Claim.unitActive s u → (s.taken row).coreAddr s.cur (Claim.vmemReq row store s u) = .ok (adr u, (s.taken row))) →
    let base := if adv = 0 ∨ s.op.s1 = 0 then s.rs s.cur s.op.s1 else (offAdd p adv.toInt).getD p
    (store = false → ∃ s', Completes row s .next s' ∧ s'.rs s.cur s.op.s1 = base ∧
      Frame s (s.after row .next s') s.cur { Touch.none with v := [s.op.d.toNat], s := if adv = 0 then [] else [s.op.s1] } ∧
      ∀ u < elemCount et / per, ∀ j < per, Claim.lane (s'.rv s.cur s.op.d.toNat) w (per * u + j) =
        if Claim.governs s w (per * u + j) = true then leNat (s.bytes (adr u) nb) / 2 ^ (w * j) % 2 ^ w else Claim.laneD s (per * u + j)) ∧
    (store = true → s.memOk → (∀ u, Claim.unitActive s u → inBlocks (adr u) nb = false) → ∃ s', Completes row s .next s' ∧
      s'.rs s.cur s.op.s1 = base ∧
      (∀ hi, (∀ u, Claim.unitActive s u → adr u + nb ≤ hi) →
        Frame s (s.after row .next s') s.cur { Touch.none with s := if adv = 0 then [] else [s.op.s1], hi := hi }) ∧
      (∀ b, (∀ u, Claim.unitActive s u → b < adr u ∨ adr u + nb ≤ b) → s'.byte b = s.byte b) ∧
      ∀ u, Claim.unitActive s u → (∀ x, Claim.unitActive s x → x ≠ u → adr x + nb ≤ adr u ∨ adr u + nb ≤ adr x) →
        ∀ j < per, s'.load (adr u) nb / 2 ^ (w * j) % 2 ^ w =
          if Claim.governs s w (per * u + j) = true then Claim.laneD s (per * u + j) else s.load (adr u) nb / 2 ^ (w * j) % 2 ^ w)) ∧
  (∀ (row : Instr) (store : Bool) (s : State), (row, store) ∈ Claim.vectorMemory → s.Ready row → s.ahead = false → row = .vld ∨ row = .vst →
    let p := s.opA
    let v := (offAdd p s.op.imm16.toInt).getD p
    s.op.et < 16 → (pFmt p = 15 ∧ s.feat0 5 = false → Traps row s (Cause.featureOff.at_ v) (s.taken row)) ∧
      (¬(pFmt p = 15 ∧ s.feat0 5 = false) → (fmtOk p = false ∨ ¬(if s.op.et = 0 then pFmt p ≤ 15 else pFmt p = 0 ∨ pFmt p = s.op.et)) →
        Traps row s (Cause.format.at_ v) (s.taken row))) ∧
  (∀ (s : State) (adr : Nat → Nat), s.Ready .vld → s.ahead = false → s.confOn s.cur = false → let p := s.opA
    let f := frameBytes s.op.et (pBlk p)
    let k := (s.rs s.cur s.op.s3).toNat
    let g := (k * f + 63) / 64
    let adv := s.rs s.cur s.op.s2
    16 ≤ s.op.et → pFmt p = s.op.et → 1 ≤ pBlk p → pBlk p ≤ 5 → fmtOk p = true → 1 ≤ k → k * f ≤ 256 → s.op.d.toNat + g ≤ 32 →
    (s.rp s.cur (s.op.pg.setWidth 5)).getLsbD 0 = true → pSpc p < 4 → (offAdd p s.op.imm16.toInt).isSome = true →
    (adv = 0 ∨ (offAdd p adv.toInt).isSome = true) →
    (∀ i < k, (s.taken .vld).coreAddr s.cur (Claim.move s (i * f : Nat) f 1 .read true true) = .ok (adr i, (s.taken .vld))) →
    ∃ s', Completes .vld s .next s' ∧
      Frame s (s.after .vld .next s') s.cur
        { Touch.none with v := (List.range g).map (s.op.d.toNat + ·), s := if adv = 0 then [] else [s.op.s1] } ∧
      (s'.groupBytes s.cur s.op.d.toNat g).take (k * f) = (List.range k).flatMap (fun i => s.bytes (adr i) f)) ∧
  (∀ (s : State) (adr : Nat → Nat), s.Ready .vst → s.ahead = false → s.confOn s.cur = false → s.memOk → let p := s.opA
    let f := frameBytes s.op.et (pBlk p)
    let k := (s.rs s.cur s.op.s3).toNat
    let adv := s.rs s.cur s.op.s2
    16 ≤ s.op.et → pFmt p = s.op.et → 1 ≤ pBlk p → pBlk p ≤ 5 → fmtOk p = true → 1 ≤ k → k * f ≤ 256 → s.op.d.toNat + (k * f + 63) / 64 ≤ 32 →
    (s.rp s.cur (s.op.pg.setWidth 5)).getLsbD 0 = true → pSpc p < 4 → (offAdd p s.op.imm16.toInt).isSome = true →
    (adv = 0 ∨ (offAdd p adv.toInt).isSome = true) →
    (∀ i < k, (s.taken .vst).coreAddr s.cur (Claim.move s (i * f : Nat) f 1 .write true true) = .ok (adr i, (s.taken .vst))) →
    (∀ i < k, inBlocks (adr i) f = false ∧ adr i = adr 0 + i * f) → ∃ s', Completes .vst s .next s' ∧
      Frame s (s.after .vst .next s') s.cur
        { Touch.none with s := if adv = 0 then [] else [s.op.s1], lo := adr 0, hi := adr 0 + k * f } ∧
      s'.bytes (adr 0) (k * f) = (s.groupBytes s.cur s.op.d.toNat ((k * f + 63) / 64)).take (k * f)) ∧
  (∀ (row : Instr) (store : Bool) (s : State) (adr : Nat → Nat), (row, store) ∈ [(Instr.vld, false), (.vst, true), (.vldStr, false), (.vstStr, true),
      (.vgth, false), (.vsct, true)] → s.Ready row → s.ahead = false → s.memOk →
    let p := s.opA
    let adv := Claim.vmemAdvance row s
    s.op.et ∈ Claim.vmemEts row → (pFmt p = 15 → s.feat0 5 = true) → fmtOk p = true →
    (if s.op.et = 0 then pFmt p ≤ 15 else pFmt p = 0 ∨ pFmt p = s.op.et) → pSpc p = 0 → (offAdd p s.op.imm16.toInt).isSome = true →
    (adv = 0 ∨ (offAdd p adv.toInt).isSome = true) →
    (∀ u, Claim.unitActive s u → let q := Claim.vmemReq row store s u
      Claim.InTcm s q.ofs q.n q.align q.k (adr u)) → ∃ s', Completes row s .next s')

/-- VSEQ checks its body and goes on with it, or past it when its count is 0; VSEQE counts down and goes back until the last pass (R227, R228).
GANG reserves the helpers of its block: with all of them free it forms the gang at once, each follower a copy of the leader's scalar and
predicate registers, otherwise it waits, and a block that is not allowed traps GANG; a waiting gang forms when its followers are free (R230, R231). UNGANG
alone does nothing; for a leader it ends the gang and frees the followers (R233). A vector or matrix instruction that is run ahead enters
the sequencer, its context goes on, and the sequencer performs it later in order (R224). That only vector and matrix instructions are run
ahead, and that a target past the offset field traps before the body is checked, are the model's choices (logs 10, 41). VSEQ, VSEQE, GANG,
UNGANG, GangFormation and VectorSequencerExecute complete as said. -/
def Obligations.GangsAndSequencer : Prop :=
  (∀ (s : State), s.Ready .vseq → let k := s.ctx s.cur
    let first := (nextHead k.line k.pc).1
    (Claim.target s = none → Traps .vseq s (Cause.offsetOverflow.at_ (lineBase k.pc)) (s.taken .vseq)) ∧
    ∀ t, Claim.target s = some t →
      let check := (s.taken .vseq).checkBody s.cur (lineBase k.pc) k.line s.op.s1 t 40 0 first false first []
      (∀ ls s1, check = .ok (ls, s1) → (s.opA = 0 → Completes .vseq s (.jump t) s1) ∧
        (s.opA ≠ 0 → Completes .vseq s .next (s1.modCtx s.cur (fun k => { k with body := ls })))) ∧
      (∀ x, check = .error x → Claim.Stops .vseq s x)) ∧
  (∀ (s : State) (i : Inst), s.Ready .vseq → let k := s.ctx s.cur
    let h := headIndex k.pc
    let line := lineBase k.pc
    let major := fun n => ((headParts k.line n).1.extractLsb' 6 7).toNat
    h + 3 < headCount k.line → lineBase (k.pc + 2) = line → lineBase (k.pc + 4) = line → headIndex (k.pc + 2) = h + 1 → headIndex (k.pc + 4) = h + 2 →
    Claim.target s = some (k.pc + 6) → decodeHead k.line (h + 1) = .ok i → 0x50 ≤ major (h + 1) → major (h + 1) ≤ 0x67 →
    usesScalar i s.op.s1 = false → major (h + 2) = 0x69 →
    (∃ j : Inst, decodeHead k.line (h + 2) = .ok j ∧ j.row = .vseqe ∧ j.o.s1 = s.op.s1 ∧ Claim.moved line (j.o.immS.toInt * 2) = some (k.pc + 2)) →
    ∃ s', Completes .vseq s (if s.opA = 0 then .jump (k.pc + 6) else .next) s' ∧ ∀ r, s'.rs s.cur r = s.rs s.cur r) ∧
  (∀ (s : State) (t : Word), s.Ready .vseqe → Claim.target s = some t → let n := s.opA.toNat
    if n ≤ 1 then Gives .vseqe s (((s.taken .vseqe).ws s.cur s.op.s1 0).modCtx s.cur (fun k => { k with body := [] })) (Touch.reg s.op.s1)
    else GivesJump .vseqe s t ((s.taken .vseqe).ws s.cur s.op.s1 (BitVec.ofNat 64 (n - 1))) (Touch.reg s.op.s1)) ∧
  (∀ (row : Instr) (code w h : Nat) (s : State), Claim.gangSize row = some (code, w, h) → s.Ready row →
    let ms := Claim.gangOf s.cur w h
    (s.gangOk s.cur.core code = false → Traps row s (Cause.gang.at_ 0) (s.taken row)) ∧
    (s.gangOk s.cur.core code = true → (s.tile s.cur.core.vt).draining = false → s.cur.core.pos < 192 →
      ((∀ m ∈ ms, m ≠ s.cur → (s.ctx m).st = .free ∧ s.claimant m = none) → ∃ s', Completes row s .next s' ∧ s'.mem = s.mem ∧
        (∀ r, s'.rs s.cur r = s.rs s.cur r) ∧ (∀ m ∈ ms, (s'.ctx m).gang = some ⟨ms, none⟩) ∧
        ∀ m ∈ ms, m ≠ s.cur → (s'.ctx m).st = .ready ∧ (∀ r, s'.rs m r = s.rs s.cur r) ∧ (∀ r, s'.rp m r = s.rp s.cur r) ∧
          (s'.ctx m).mode = (s.ctx s.cur).mode ∧ (s'.ctx m).seed = (s.ctx s.cur).seed ^^^ BitVec.ofNat 32 (identC m)) ∧
      ((∃ m ∈ ms, m ≠ s.cur ∧ (s.ctx m).st = .ready) → ∃ s', Waits row s (.gang code) s' ∧ s'.mem = s.mem))) ∧
  (∀ (row : Instr) (code w h since : Nat) (s : State) (i : Inst), Claim.gangSize row = some (code, w, h) → let lead := s.ev.ctx
    let k := s.ctx lead
    let ms := Claim.gangOf lead w h
    k.st = .waiting (.gang code) since → k.gang = none → decodeHead k.line (headIndex k.pc) = .ok i → lead.core.pos + 15 < 192 →
    (s.tile lead.core.vt).draining = false → (s.tile lead.core.vt).stopped = false →
    (∀ m ∈ ms, m ≠ lead → (s.ctx m).st = .free ∧ (∀ d, s.claimant m = some d → lead.core.pos ≤ d.core.pos)) →
    ∃ t, exec .gangFormation s = .next t ∧ t.mem = s.mem ∧ (t.ctx lead).st = .ready ∧ (t.ctx lead).pc = (nextHead k.line k.pc).1 ∧
      ∀ m ∈ ms, (t.ctx m).gang = some ⟨ms, none⟩ ∧ (t.ctx m).st = .ready ∧ ∀ r, t.rs m r = s.rs lead r) ∧
  (∀ s : State, s.Ready .ungang → Gives .ungang s (s.taken .ungang) Touch.none) ∧
  (∀ (s : State) (g : GangRole), (s.ctx s.cur).gang = some g → g.members.head? = some s.cur → 2 ≤ g.members.length →
    (g.members.map CtxId.key).Nodup → (∀ m ∈ g.members, m.ctx ≠ 0 ∧ s.gate m ⟨.ungang, s.op⟩ = none ∧ (s.ctx m).gdone = 0 ∧ (s.ctx m).act.task = none ∧
      s.predicatedOff m ⟨.ungang, s.op⟩ = false ∧ s.quiet m = true ∧ (s.core m.core).tandem = none) →
    s.syncHeld s.op g.members = none → ∃ t, exec .ungang s = .next t ∧ (t.ctx s.cur).gang = none ∧ (∀ r, t.rs s.cur r = s.rs s.cur r) ∧
      t.mem = s.mem ∧ ∀ m ∈ g.members, m ≠ s.cur → (t.ctx m).st = .free) ∧
  (∀ (row : Instr) (s : State), Claim.handed row → s.Ready row → s.ahead = true → (s.core s.cur.core).tandem = none →
    (s.core s.cur.core).vseq.length < 16 → ∃ t q, exec row s = .next t ∧ (t.core s.cur.core).vseq = (s.core s.cur.core).vseq ++ [q] ∧
      q.ctx = s.cur.ctx ∧ q.inst = ⟨row, s.op⟩ ∧ q.pc = (s.ctx s.cur).pc ∧ q.mode = (s.ctx s.cur).mode ∧
      (t.ctx s.cur).pc = (nextHead (s.ctx s.cur).line (s.ctx s.cur).pc).1 ∧ Frame s t s.cur Touch.none) ∧
  (∀ (s s2 : State) (q : SeqEntry) (ctl : Ctl), let c := s.ev.ctx
    (s.core c.core).vseq.find? (fun x => x.ctx == c.ctx) = some q → 0x50 ≤ q.inst.row.major → q.inst.row.major ≤ 0x67 → s.mqOpen c = false →
    let s1 := s.modCtx c (fun k => k.at_ q)
    memberRun (vectorBody q.inst.row) q.inst.row q.inst.o q.info s1 c s1 = .ok (ctl, s2) → (∀ r, (s2.core r).vseq = (s.core r).vseq) →
    ∃ t, exec .vectorSequencerExecute s = .next t ∧ (t.core c.core).vseq = (s.core c.core).vseq.erase q ∧ (t.ctx c).pc = (s.ctx c).pc ∧
      t.mem = s2.mem ∧ (∀ r, t.rs c r = s2.rs c r) ∧ (∀ r, t.rp c r = s2.rp c r) ∧ (∀ r, t.rv c r = s2.rv c r)) ∧
  (∀ (s : State) (q : SeqEntry) (ets : List Nat) (f : Nat → Nat → Nat → Nat), let c := s.ev.ctx
    (s.core c.core).vseq.find? (fun x => x.ctx == c.ctx) = some q → Claim.vint q.inst.row = some (ets, f) → q.inst.o.et ∈ ets →
    s.mqOpen c = false → ∃ t, exec .vectorSequencerExecute s = .next t ∧ (t.core c.core).vseq = (s.core c.core).vseq.erase q ∧
      (t.ctx c).pc = (s.ctx c).pc ∧ t.mem = s.mem ∧ (∀ r, t.rs c r = s.rs c r) ∧ ∀ r, r ≠ q.inst.o.d.toNat → t.rv c r = s.rv c r)

/-- MMA and MMAS accumulate group products of the latch rows and the columns of the B block into each accumulator element below the row
count, MGAIT runs its gait over them; rows at and above the count keep their value, and a count of 0 changes nothing (R122, R239, R243, R252). A
group product rounds an exact sum (R122). MLAT fills a latch from 128-byte rows, zero above its count (R242); MACC zeroes, loads, stores and
converts an accumulator (R248); GAITL loads a gait from a valid 32-byte image and traps FORMAT for another (R251). In the matrix queue an
instruction issues, ends its operand read, and is written in order, then a consumed counter is signalled (R237, R241, R245). MMA, MMAS,
MGAIT, MLAT, MACC.zero, MACC.ld, MACC.st, MACC.cvt, GAITL, MatrixQueueIssue, MatrixOperandReadEnd, MatrixAccumulatorWrite and ConsumedSignal complete as said. -/
def Obligations.MatrixUnit : Prop :=
  (∀ (row : Instr) (s s1 : State) (pl : MPlan), row = .mma ∨ row = .mmas ∨ row = .mgait → s.Ready row → s.ahead = false →
    let e := Claim.env s row
    e.matIssue (s.taken row) = .ok (pl, s1) →
    (pl.m = 0 → Completes row s .next s1 ∧ Frame s (s.after row .next s1) s.cur Touch.none) ∧
    (pl.m ≠ 0 → e.blockPoisoned s1 pl.base = false → (s.ctx s.cur).gbad.getLsbD (if s.op.imm.getLsbD 0 then 1 else 0) = false →
      ∃ acc, Completes row s .next (s1.wa s.cur s.op.d.toNat acc) ∧
        Frame s (s.after row .next (s1.wa s.cur s.op.d.toNat acc)) s.cur { Touch.none with a := [s.op.d.toNat] } ∧
        ∀ ix : Fin 256, let i := ix.val / 16
          let j := ix.val % 16
          let z := ((s.ra s.cur s.op.d.toNat).toArray.getD ix.val 0).toNat
          let x := ((s.rg s.cur (if s.op.imm.getLsbD 0 then 1 else 0)).toArray.getD i 0).toNat
          let y := s.load (pl.base + 128 * j) 128
          let sat := !s.op.imm.getLsbD 1
          let scaled := row = Instr.mmas
          let ca := fun k => if scaled then (pl.scales.getD (8 * i + k) 0).toNat else 127
          let cb := fun k => if scaled then (s.byte (pl.base + 2048 + 8 * j + k)).toNat else 127
          acc.toArray.getD ix.val 0 = BitVec.ofNat 32 (
            if pl.m ≤ i then z
            else if row = .mgait then gaitAcc sat s.cur.ctx s.op.et pl.gait x y (if s.op.et = 8 then 64 else 32) 0 z
            else Claim.accumulated sat s.cur.ctx s.op.et x y ca cb z (matK s.op.et / matG s.op.et)))) ∧
  (∀ (row : Instr) (n : Nat) (k : AKind) (s s1 : State) (t : Tr) (i : Nat),
    (row, n, k) ∈ [(Instr.maccLd, 4, AKind.read), (.maccSt, 4, .write), (.maccCvt, elemWidth s.op.et / 8, .write)] → s.Ready row →
    s.ahead = false → (if row = .maccCvt then 7 ≤ s.op.et ∧ s.op.et ≤ 10 else s.op.et = 6) → s.confOn s.cur = false → i < 256 →
    (∀ j < i, ∃ a, (s.taken row).coreAddr s.cur (Claim.element s n k j) = .ok (a, s.taken row)) →
    (s.taken row).coreAddr s.cur (Claim.element s n k i) = .error (.trap t s1) → ∃ s', Traps row s t s') ∧
  (∀ (row : Instr) (s : State) (x : Stop), row = .mma ∨ row = .mmas ∨ row = .mgait → s.Ready row → s.ahead = false →
    (Claim.env s row).matIssue (s.taken row) = .error x → Claim.Stops row s x) ∧
  (∀ l : List (FVal × FVal), (∀ p ∈ l, ∃ n1 m1 e1 n2 m2 e2, p = (.fin n1 m1 e1, .fin n2 m2 e2) ∧ -1400 ≤ e1 + e2) →
    (dotUnits l : ℚ) * 2 ^ (-1400 : Int) = (l.map (fun p => Claim.numOf p.1 * Claim.numOf p.2)).sum) ∧
  (∀ (s s1 : State) (m : Nat) (adr : Nat → Nat), s.Ready .mlat → s.ahead = false → s.op.et = 0 →
    (Claim.env s .mlat).guardCount (s.taken .mlat) s.op.s3 = .ok (m, s1) → (m ≠ 0 → pSpc s.opA < 4 ∧ (offAdd s.opA s.op.imm16.toInt).isSome = true) →
    (∀ i < m, s1.coreAddr s.cur (Claim.move s (BitVec.ofNat 32 (Claim.lane (s.rv s.cur s.op.s2.toNat) 32 i)).toInt 128 64 .read false false) = .ok (adr i, s1)) →
    (m = 0 → Completes .mlat s .next s1) ∧
    (m ≠ 0 → ∃ s', Completes .mlat s .next s' ∧ Frame s (s.after .mlat .next s') s.cur { Touch.none with g := [s.op.d.toNat % 2] } ∧
      ∀ i < 16, ((s'.rg s.cur (s.op.d.toNat % 2)).toArray.getD i 0).toNat = if i < m then s.load (adr i) 128 else 0)) ∧
  (∀ s : State, s.Ready .maccZero → s.ahead = false → s.op.et = 0 →
    Gives .maccZero s ((s.taken .maccZero).wa s.cur s.op.d.toNat (Vector.replicate 256 0)) { Touch.none with a := [s.op.d.toNat] }) ∧
  (∀ (s : State) (adr : Nat → Nat), s.Ready .maccLd → s.ahead = false → s.op.et = 6 → pSpc s.opA < 4 → s.confOn s.cur = false →
    (∀ i < 256, (s.taken .maccLd).coreAddr s.cur (Claim.element s 4 .read i) = .ok (adr i, s.taken .maccLd)) →
    ∃ s', Completes .maccLd s .next s' ∧ Frame s (s.after .maccLd .next s') s.cur { Touch.none with a := [s.op.d.toNat] } ∧
      (s.op.d.toNat < 8 → ∀ i < 256, ((s'.ra s.cur s.op.d.toNat).toArray.getD i 0).toNat = s.load (adr i) 4)) ∧
  (∀ (s : State) (a : Nat), s.Ready .maccSt → s.ahead = false → s.op.et = 6 → pSpc s.opA < 4 → s.memOk → inBlocks a 1024 = false →
    s.confOn s.cur = false →
    (∀ i < 256, (s.taken .maccSt).coreAddr s.cur (Claim.element s 4 .write i) = .ok (a + 4 * i, s.taken .maccSt)) →
    ∃ s', Gives .maccSt s s' { Touch.none with lo := a, hi := a + 1024 } ∧
      ∀ i < 256, s'.load (a + 4 * i) 4 = ((s.ra s.cur s.op.d.toNat).toArray.getD i 0).toNat) ∧
  (∀ (s : State) (a : Nat), s.Ready .maccCvt → s.ahead = false → 7 ≤ s.op.et → s.op.et ≤ 10 → pSpc s.opA < 4 → s.memOk →
    let nb := elemWidth s.op.et / 8
    inBlocks a (256 * nb) = false → s.confOn s.cur = false →
    (∀ i < 256, (s.taken .maccCvt).coreAddr s.cur (Claim.element s nb .write i) = .ok (a + nb * i, s.taken .maccCvt)) →
    let x := fun i => f32 ((s.ra s.cur s.op.d.toNat).toArray.getD i 0).toNat
    let g := fun i => ((x i).exact, if (x i).isSig = true then fNV else 0)
    let fm := Claim.eltFmt s
    ∃ s', Gives .maccCvt s s' { Touch.none with lo := a, hi := a + 256 * nb, ff := true, seed := true } ∧
      ∀ i < 256, s'.load (a + nb * i) nb = (Claim.rounded fm (Claim.rmode s) (fun _ => true) g (s.ctx s.cur).seed i).bits) ∧
  (∀ (s s1 : State) (a : Nat), s.Ready .gaitl → s.ahead = false → pSpc s.opA < 4 →
    (s.taken .gaitl).coreAddr s.cur (Claim.move s 0 32 32 .read false true) = .ok (a, s1) →
    match gaitOf (s.bytes a 32) with
    | some g => ∃ s', Gives .gaitl s s' Touch.none ∧ (s'.core s.cur.core).gaits.get (s.op.d.toNat % 4) Gait.zero = g
    | none => ∃ s', Traps .gaitl s (Cause.format.at_ ((offAdd s.opA s.op.imm16.toInt).getD s.opA)) s') ∧
  (∀ (row : Instr) (s : State), row ∈ [Instr.mma, .mmas, .mgait] → s.Ready row → s.ahead = false →
    (row = .mma → s.op.et ∈ [8, 9, 10]) → (row = .mmas → s.op.et ∈ [16, 17, 18, 19, 20, 21]) → (row = .mgait → s.op.et ∈ [6, 8]) → s.op.s2 = 0 →
    let p := s.opA
    let n := if row = .mmas then 2176 else 2048
    pFmt p = 0 → pBlk p = 0 → pSpc p = 0 → pRel p = false → unassigned p = 0 → pOff p % 64 = 0 → pOff p + n ≤ 2 ^ 17 →
    s.permitted s.cur.core.vt (s.ctx s.cur).sup 0 (pOff p) n .read = true → s.poisoned (flatTcm s.cur.core (pOff p)) n = false →
    (s.ctx s.cur).gbad.getLsbD (if s.op.imm.getLsbD 0 then 1 else 0) = false →
    ∃ acc, Completes row s .next ((s.taken row).wa s.cur s.op.d.toNat acc)) ∧
  (∀ (s : State) (adr : Nat → Nat), s.Ready .mlat → s.ahead = false → s.op.et = 0 → s.op.s3 = 0 → (offAdd s.opA s.op.imm16.toInt).isSome = true →
    (∀ i < 16, Claim.InTcm s (s.op.imm16.toInt + (BitVec.ofNat 32 (Claim.lane (s.rv s.cur s.op.s2.toNat) 32 i)).toInt) 128 64 .read (adr i)) →
    ∃ s', Gives .mlat s s' { Touch.none with g := [s.op.d.toNat % 2] }) ∧
  (∀ (row : Instr) (s : State) (a : Nat), s.Ready row → s.ahead = false → s.memOk →
    (row = .maccLd → s.op.et = 6 → Claim.InTcm s s.op.imm16.toInt 1024 64 .read a → ∃ s', Gives row s s' { Touch.none with a := [s.op.d.toNat] }) ∧
    (row = .maccSt → s.op.et = 6 → Claim.InTcm s s.op.imm16.toInt 1024 64 .write a →
      ∃ s', Gives row s s' { Touch.none with lo := a, hi := a + 1024 }) ∧
    (row = .maccCvt → s.op.et ∈ [7, 8, 9, 10] → Claim.InTcm s s.op.imm16.toInt (256 * elemWidth s.op.et / 8) 64 .write a →
      ∃ s', Gives row s s' { Touch.none with lo := a, hi := a + 256 * elemWidth s.op.et / 8, ff := true, seed := true }) ∧
    (row = .gaitl → Claim.InTcm s s.op.imm16.toInt 32 32 .read a → (gaitOf (s.bytes a 32)).isSome = true → ∃ s', Gives row s s' Touch.none)) ∧
  (∀ (s s2 : State) (q : SeqEntry) (pl : MPlan), let core := s.ev.core
    let c : CtxId := ⟨core, q.ctx⟩
    let s1 := (s.modCtx c (fun k => k.at_ q)).beginAccess c q.inst.row q.inst.o q.info
    (s.core core).vseq.find? (fun x => !isVector x.inst.row) = some q → (s.core core).vseq.find? (fun x => x.ctx == q.ctx) = some q →
    (s.core core).mq.length < 8 → s.mqBehind c q.inst = false → s1.predicatedOff c q.inst = false → (q.inst.row = .mma ∨ q.inst.row = .mmas ∨ q.inst.row = .mgait) →
    (⟨c, q.inst.row, q.inst.o, s1⟩ : Env).matIssue s1 = .ok (pl, s2) → (pl.m = 0 → s.mqOpen c = false) → ∃ t,
      exec .matrixQueueIssue s = .next t ∧ (t.core core).vseq = (s.core core).vseq.erase q ∧ (t.ctx c).pc = (s.ctx c).pc ∧ t.mem = s.mem ∧ (∀ r, t.ra c r = s.ra c r) ∧
      (pl.m = 0 → (t.core core).mq = (s.core core).mq) ∧
      (pl.m ≠ 0 → ∃ m, (t.core core).mq = (s.core core).mq ++ [m] ∧ m.q = q ∧ m.m = pl.m ∧ m.base = pl.base ∧ m.stage = .issued)) ∧
  (∀ (s : State) (q : SeqEntry), let core := s.ev.core
    let c : CtxId := ⟨core, q.ctx⟩
    let p := s.rs c q.inst.o.s1
    let n := if q.inst.row = .mmas then 2176 else 2048
    (s.core core).vseq.find? (fun x => !isVector x.inst.row) = some q → (s.core core).vseq.find? (fun x => x.ctx == q.ctx) = some q →
    (s.core core).mq.length < 8 → s.mqBehind c q.inst = false → (s.modCtx c (fun k => k.at_ q)).predicatedOff c q.inst = false →
    q.inst.row ∈ [Instr.mma, .mmas, .mgait] → (q.inst.row = .mma → q.inst.o.et ∈ [8, 9, 10]) →
    (q.inst.row = .mmas → q.inst.o.et ∈ [16, 17, 18, 19, 20, 21]) → (q.inst.row = .mgait → q.inst.o.et ∈ [6, 8]) → q.inst.o.s2 = 0 →
    pFmt p = 0 → pBlk p = 0 → pSpc p = 0 → pRel p = false → unassigned p = 0 → pOff p % 64 = 0 → pOff p + n ≤ 2 ^ 17 →
    s.permitted core.vt (s.ctx c).sup 0 (pOff p) n .read = true → ∃ t m, exec .matrixQueueIssue s = .next t ∧
      (t.core core).vseq = (s.core core).vseq.erase q ∧ (t.core core).mq = (s.core core).mq ++ [m] ∧ m.q = q ∧ m.m = 16 ∧
      m.base = flatTcm core (pOff p) ∧ m.stage = .issued) ∧
  (∀ (s : State) (m : MEntry) (rest : List MEntry), let core := s.ev.core
    let c : CtxId := ⟨core, m.q.ctx⟩
    (s.core core).mq = m :: rest → m.stage = .issued → (m.q.inst.row = .mma ∨ m.q.inst.row = .mmas ∨ m.q.inst.row = .mgait) →
    s.poisoned m.base 2176 = false → (s.ctx c).gbad = 0 → ∃ t m', exec .matrixOperandReadEnd s = .next t ∧
      (t.core core).mq = m' :: rest ∧ m'.stage = .read ∧ m'.res.isSome = true ∧ m'.q = m.q) ∧
  (∀ (s : State) (m : MEntry) (rest : List MEntry) (r : Acc), let core := s.ev.core
    let c : CtxId := ⟨core, m.q.ctx⟩
    let s1 := (s.modCtx c (fun k => k.at_ m.q)).beginAccess c m.q.inst.row m.q.inst.o m.q.info
    (s.core core).mq = m :: rest → m.stage = .issued → (m.q.inst.row = .mma ∨ m.q.inst.row = .mmas ∨ m.q.inst.row = .mgait) →
    (⟨c, m.q.inst.row, m.q.inst.o, s1⟩ : Env).matRead s1 ⟨m.m, m.base, m.scales, m.gait, m.segs⟩ = .ok r →
    ∃ t m', exec .matrixOperandReadEnd s = .next t ∧ (t.core core).mq = m' :: rest ∧ m'.stage = .read ∧ m'.res = some r ∧ m'.q = m.q ∧
      (t.ctx c).pc = (s.ctx c).pc ∧ t.mem = s.mem ∧ ∀ x, t.ra c x = s.ra c x) ∧
  (∀ (s : State) (m : MEntry) (rest : List MEntry) (r : Acc), let core := s.ev.core
    let c : CtxId := ⟨core, m.q.ctx⟩
    (s.core core).mq = m :: rest → m.stage = .read → m.res = some r → m.q.inst.o.d.toNat < 8 → ∃ t, exec .matrixAccumulatorWrite s = .next t ∧
      (t.core core).mq = rest ∧ t.ra c m.q.inst.o.d.toNat = r ∧ (∀ x, x ≠ m.q.inst.o.d.toNat → t.ra c x = s.ra c x) ∧
      (t.ctx c).pc = (s.ctx c).pc ∧ t.mem = s.mem) ∧
  (∀ (s : State) (x : Nat × Nat × List Nat), let core := s.ev.core
    (s.core core).consumed.find? (fun y => y.2.2.all (s.readEnded ⟨core, y.1⟩)) = some x → ∃ t, exec .consumedSignal s = .next t ∧
      ((t.core core).reinAt x.2.1).v.toNat = min (((s.core core).reinAt x.2.1).v.toNat + 1) 0xffff ∧
      (t.core core).consumed = (s.core core).consumed.erase x ∧ t.mem = s.mem)

/-! Messages, starting work, waits (chapters 06, 09). -/

namespace Sys2Proof.Claim

/-- The event of a row, performed in s, leads to t, in which nothing but what w names of context c differs. -/
def Acts (row : Instr) (s t : State) (c : CtxId) (w : Touch) : Prop := exec row s = .next t ∧ Frame s t c w

/-- Register j of the payload of the executing SEND: zero when S1 is s0 (R278). -/
def word (s : State) (j : Nat) : Nat := if s.op.s1 = 0 then 0 else (s.rs s.cur (s.op.s1 + BitVec.ofNat 5 j)).toNat

/-- A message that the executing SEND makes: its header fields (Tables 82, 83, 85) and its payload of n registers (R278). -/
def Carries (s : State) (m : Msg) (n : Nat) : Prop :=
  m.src = identC s.cur ∧ m.cls = s.op.imm.toNat % 16 ∧ m.payload.length = 8 * n ∧
    ∀ j < n, leNat ((m.payload.drop (8 * j)).take 8) = word s j

/-- The reply reference of a send.uni whose reply slot was accepted (Table 86). -/
def reply (s : State) (slot : Option Nat) : BitVec 41 :=
  if s.op.imm.getLsbD 6 then replyRef s.cur.core (s.op.imm.extractLsb' 8 8).toNat slot else 0

/-- The context runs an activation within its limits and its buffer has room (R275). -/
def buffers (s : State) : Prop := (s.ctx s.cur).isWithin = true ∧ (s.ctx s.cur).act.buf.length < 32

/-- Where a send leaves its message: in the activation's buffer, or in the fabric with a record of the answers awaited (R275, R276). -/
def Buffered (s s' : State) (m : Msg) : Prop :=
  (s'.ctx s.cur).act.buf = (s.ctx s.cur).act.buf ++ [(m, BitVec.ofNat 32 (s.ctx s.cur).count)] ∧ s'.net = s.net

def Sent (s s' : State) (m : Msg) (dst left : Nat) : Prop :=
  s'.net = s.net ++ [s.fixSite ⟨s.nextId + 1, s.cur.core.vt, dst, none, [], none, m.cls, s.nextId + 1, .msg m 0 (some s.nextId)⟩
    (dieOf s.cur.core.vt)] ∧
    ∃ r, s'.sends = s.sends ++ [r] ∧ r.id = s.nextId ∧ r.ctx = s.cur ∧ r.left = left ∧ r.fail = none ∧ r.buffered = false

/-- A packet that stands at its destination with a message. -/
def arrived (s : State) (p : Packet) (m : Msg) (tries : Nat) (send : Option Nat) : Prop := s.arrivedMsg s.ev.k = some (p, m, tries, send)

/-- What a started helper receives (R65): its PC and mode, s20 and up, s2 at the top of its stack, class and priority. -/
def Started (s t : State) (l : CoreLaunch) (c : CtxId) (pc : Word) (regs : List Word) : Prop :=
  (t.ctx c).st = .ready ∧ (t.ctx c).pc = pc ∧ (t.ctx c).sup = false ∧ t.rs c 2 = BitVec.ofNat 64 (0x1ffc0 - c.ctx * l.stack) ∧
    (∀ r : BitVec 5, 20 ≤ r.toNat → t.rs c r = regs.getD (r.toNat - 20) 0) ∧ (t.ctx c).mode = BitVec.ofNat 3 l.mode ∧
    (t.ctx c).seed = BitVec.ofNat 32 l.seed ^^^ BitVec.ofNat 32 (identC c) ∧ t.mem = s.mem ∧
    ∀ d : CtxId, d.key ≠ c.key → t.ctx d = s.ctx d

end Sys2Proof.Claim

/-- SEND resolves its destination word, traps SPACE for one that names no core, and makes a message of its header and payload registers:
within an activation's limits it is buffered and the SEND completes, otherwise it goes into the fabric and the SEND waits for its answers;
a multicast to no tile completes and sends nothing, and a reply to a word without its valid bit does nothing. As a release a SEND first waits for
its context's posted accesses (R167, R271, R275–R280). SEND.uni, SEND.multi and SEND.reply
complete, buffered, as said. -/
def Obligations.SendsMakeMessages : Prop :=
  (∀ (s : State) (c : CoreId) (w : Word) (multi : Bool), let pos := w.toNat / 2 ^ 9 % 2 ^ 8
    let f := w.toNat % 2 ^ 9
    (2 ^ 18 ≤ w.toNat ∨ 191 < pos → s.destOf c w multi = none) ∧
    (w.toNat < 2 ^ 17 → pos ≤ 191 → s.destOf c w false = if f < 8 * s.nDies then some (f, pos) else none)) ∧
  (∀ (row : Instr) (multi : Bool) (s : State), (row, multi) ∈ [(Instr.sendUni, false), (.sendMulti, true)] → s.Ready row →
    s.destOf s.cur.core s.opD multi = none → Traps row s (Cause.space.at_ s.opD) (s.taken row)) ∧
  (∀ (s : State) (x : Nat × Nat), s.Ready .sendUni → s.destOf s.cur.core s.opD false = some x → handlerField (s.rs s.cur s.op.s2) = none →
    Traps .sendUni s (Cause.space.at_ (s.rs s.cur s.op.s2)) (s.taken .sendUni)) ∧
  (∀ (s : State) (t pos : Nat) (h : BitVec 40) (slot : Option Nat), s.Ready .sendUni → s.destOf s.cur.core s.opD false = some (t, pos) →
    handlerField (s.rs s.cur s.op.s2) = some h →
    (s.op.imm.getLsbD 6 = true → (Claim.env s .sendUni).replySlot (s.taken .sendUni) = .ok slot) → (s.op.imm.getLsbD 6 = false → slot = none) →
    (0 < (s.ctx s.cur).posted → Waits .sendUni s .earlier (s.taken .sendUni)) ∧ ((s.ctx s.cur).posted = 0 →
    ∃ m, Claim.Carries s m 6 ∧ m.hdr = h ∧ m.vt = t ∧ m.pos = pos ∧ m.mc = false ∧ m.kind = 0 ∧
      m.prio = (s.op.imm.extractLsb' 4 2).toNat ∧ m.reply = Claim.reply s slot ∧
      (Claim.buffers s → ∃ s', Gives .sendUni s s' Touch.none ∧ Claim.Buffered s s' m) ∧
      ((s.ctx s.cur).isWithin = false → ∃ s', Waits .sendUni s (.answer s.nextId) s' ∧ Claim.Sent s s' m t 1 ∧ s'.mem = s.mem))) ∧
  (∀ (s : State) (b pos : Nat) (h : BitVec 40), s.Ready .sendMulti → s.destOf s.cur.core s.opD true = some (b, pos) →
    handlerField (s.rs s.cur s.op.s2) = some h → let v := s.rs s.cur s.op.s3
    v ≠ 0 → (∀ k < 64, v.getLsbD k = true → 8 * b + k < 8 * s.nDies) →
    (s.ctx s.cur).posted = 0 →
    ∃ m, Claim.Carries s m 5 ∧ m.hdr = h ∧ m.vt = b ∧ m.pos = pos ∧ m.mc = true ∧ m.kind = 0 ∧ m.dests = v ∧
      (Claim.buffers s → ∃ s', Gives .sendMulti s s' Touch.none ∧ Claim.Buffered s s' m) ∧
      ((s.ctx s.cur).isWithin = false → ∃ s' k, Waits .sendMulti s (.answer s.nextId) s' ∧ v.getLsbD k = true ∧
        Claim.Sent s s' m (b % 64 * 8 + k) ((List.range 64).filter (fun k => v.getLsbD k)).length ∧ s'.mem = s.mem)) ∧
  (∀ (s : State) (b pos : Nat), s.Ready .sendMulti → s.destOf s.cur.core s.opD true = some (b, pos) → s.rs s.cur s.op.s3 = 0 →
    (s.ctx s.cur).posted = 0 → ∃ s', Gives .sendMulti s s' Touch.none ∧ s'.net = s.net) ∧
  (∀ s : State, s.Ready .sendReply → s.opD.getLsbD 40 = false → Gives .sendReply s (s.taken .sendReply) Touch.none) ∧
  (∀ s : State, s.Ready .sendReply → s.opD.getLsbD 40 = true → let n := s.opD.toNat
    let vt := n / 2 ^ 31 % 2 ^ 9
    if 2 ^ 41 ≤ n ∨ n % 8 ≠ 0 ∨ 8 * s.nDies ≤ vt ∨ 191 < n / 2 ^ 23 % 2 ^ 8 then Traps .sendReply s (Cause.space.at_ s.opD) (s.taken .sendReply)
    else (s.ctx s.cur).posted = 0 → ∃ m, Claim.Carries s m 6 ∧ m.kind = 1 ∧ m.vt = vt ∧ m.reply.toNat = n ∧
      (Claim.buffers s → ∃ s', Gives .sendReply s s' Touch.none ∧ Claim.Buffered s s' m) ∧
      ((s.ctx s.cur).isWithin = false → ∃ s', Waits .sendReply s (.answer s.nextId) s' ∧ Claim.Sent s s' m vt 1 ∧ s'.mem = s.mem))

/-- A task message that reaches a core of its launch with room in its run queue is accepted at the queue's end with its handler, payload,
reply word and source (R65, R273). A full core refuses it: it goes back and is sent again after 256 × a router cycles, until its
eighth try (R273). The answers of a SEND complete it, or trap at it with the refusal's cause (R276). A reply writes its slot and increments its
counter (R280). Nothing else changes. Core clock edges of a retry are counted by the nominal
clocks, and the messages of a gang's members are accepted together (logs 21, 46): the model's choices. TaskArrival, MessageRetry, DeliveryAnswer and
ReplyDelivery complete as said. -/
def Obligations.MessagesAreDelivered : Prop :=
  (∀ (s : State) (p : Packet) (m : Msg) (tries : Nat) (send : Option Nat), Claim.arrived s p m tries send → m.kind = 0 →
    s.msgBehind s.ev.k m p.dst = false → (s.gangOffers send).length ≤ 1 → let c : CoreId := ⟨p.dst, m.pos⟩
    (s.refusal m c = none → (s.core c).runq.length < 32 → (s.tile p.dst).overflow.any (fun o => o.1 == m.pos) = false →
      ∃ t x, Claim.Acts .taskArrival s t ⟨c, 0⟩ Touch.none ∧ (t.core c).runq = (s.core c).runq ++ [x] ∧ x.handler = handlerAddr m.hdr (dieOf p.dst) ∧
        x.payload = (m.payload ++ List.replicate 48 0).take 48 ∧ x.reply.toNat = m.reply.toNat ∧ x.src = m.src ∧ x.cls = m.cls ∧ x.prio = m.prio ∧
        (∀ q ∈ t.net, q.id ≠ s.ev.k)) ∧
    (s.refusal m c = some .inboxFull → tries < 8 → (32 ≤ (s.core c).runq.length ∨ (s.tile p.dst).overflow.any (fun o => o.1 == m.pos) = false) → ∃ t q, Claim.Acts .taskArrival s t ⟨c, 0⟩ Touch.none ∧ t.packet s.ev.k = some q ∧
      q.pl = .msg m (tries + 1) send ∧ q.at_ = m.src / 2 ^ 12 % 2 ^ 9 ∧ q.retry = some (s.edges + 128 * (tries + 1)) ∧ t.cores = s.cores)) ∧
  (∀ (s : State) (p : Packet) (m : Msg) (tries at_ : Nat) (send : Option Nat), s.packet s.ev.k = some p → p.pl = .msg m tries send →
    p.retry = some at_ → ∃ t, Claim.Acts .messageRetry s t s.cur Touch.none ∧
      if at_ ≤ s.edges then ∃ q, t.packet s.ev.k = some q ∧ q.pl = p.pl ∧ q.retry = none ∧ q.at_ = p.at_ ∧ q.dst = p.dst ∧ q.seq = s.nextId
      else t = s) ∧
  (∀ (s : State) (r : SendRec) (i : Inst) (since : Nat), s.sends.find? (fun x => x.id == s.ev.k) = some r → r.left = 0 → r.gone = false →
    r.buffered = false → r.late = false → (s.ctx r.ctx).st = .waiting (.answer s.ev.k) since → (s.ctx r.ctx).gang = none →
    decodeHead (s.ctx r.ctx).line (headIndex (s.ctx r.ctx).pc) = .ok i → (r.fail ≠ none → s.pushHeld r.ctx = none) →
    let s1 : State := { s with sends := s.sends.filter (fun x => x.id != s.ev.k) }
    match r.fail with
    | none => exec .deliveryAnswer s = .next (s1.complete r.ctx i.row i.o false .next (syncSignal i.o))
    | some (u, code) => exec .deliveryAnswer s = .next (s1.deliver r.ctx [r.ctx] 0 r.ctx
        (sendTrap code (if r.spur then r.val else BitVec.ofNat 64 (r.pos * 512 + u))))) ∧
  (∀ (s : State) (p : Packet) (m : Msg) (tries : Nat) (send : Option Nat), Claim.arrived s p m tries send → m.kind = 1 →
    ¬(m.vt = 0 ∧ m.pos = 0xff) → p.dst < 512 → m.pos < 192 → let c : CoreId := ⟨p.dst, m.pos⟩
    let n := m.reply.toNat / 2 ^ 15 % 2 ^ 8
    let off := m.reply.toNat / 2 ^ 3 % 2 ^ 11 * 64
    (s.core c).launch.isSome = true →
    (m.reply.getLsbD 14 = false → ∃ t, Claim.Acts .replyDelivery s t ⟨c, 0⟩ Touch.none ∧
      ((t.core c).reinAt n).v.toNat = min (((s.core c).reinAt n).v.toNat + 1) 0xffff ∧ ∀ q ∈ t.net, q.id ≠ s.ev.k) ∧
    (m.reply.getLsbD 14 = true → s.permitted p.dst false 0 off 48 .write = true → s.memOk → ∃ t,
      Claim.Acts .replyDelivery s t ⟨c, 0⟩ { Touch.none with lo := flatTcm c off, hi := flatTcm c off + m.payload.length } ∧
      t.bytes (flatTcm c off) m.payload.length = m.payload ∧
      ((t.core c).reinAt n).v.toNat = min (((s.core c).reinAt n).v.toNat + 1) 0xffff))

/-- A core starts its next work in the order of Table 106: a task passed over 16 times, a task of priority 3, the newest deque entry, then
the highest priority, each by arrival; it takes the lowest free helper, which receives what R65 and R149 name (R350). A core without work of its own
takes the oldest entry of another core's deque (R351). Tasks come back from the overflow area to a run queue with room (R31). -/
def Obligations.WorkStarts : Prop :=
  (∀ k : Core, let q := k.runq.filter k.eligible
    let first := fun (l : List Task) (t : Task) => t ∈ l ∧ ∀ x ∈ l, t.seq ≤ x.seq
    let old := q.filter (fun t => decide (16 ≤ t.passed))
    let urgent := q.filter (fun t => t.prio == 3)
    (old ≠ [] → ∃ t, k.nextWork = some (.task t) ∧ first old t) ∧
    (old = [] → urgent ≠ [] → ∃ t, k.nextWork = some (.task t) ∧ first urgent t) ∧
    (old = [] → urgent = [] → ∀ d r, k.deque = d :: r → k.nextWork = some (.entry d)) ∧
    (old = [] → urgent = [] → k.deque = [] → q ≠ [] → ∃ t, k.nextWork = some (.task t) ∧ t ∈ q ∧ (∀ x ∈ q, x.prio ≤ t.prio) ∧
      ∀ x ∈ q, x.prio = t.prio → t.seq ≤ x.seq) ∧
    (q = [] → k.deque = [] → k.nextWork = none)) ∧
  (∀ (s : State) (h : Nat) (l : CoreLaunch), let c := s.ev.core
    s.mayStart c = true → s.freeHelperOf c = some h → (s.core c).launch = some l →
    (∀ t, (s.core c).nextWork = some (.task t) → ∃ u, exec .workStart s = .next u ∧
      Claim.Started s u l ⟨c, h⟩ t.handler ((List.range 6).map (fun i => BitVec.ofNat 64 (leNat ((t.payload.drop (8 * i)).take 8))) ++
        [t.reply, BitVec.ofNat 64 t.src]) ∧ (∀ x ∈ (u.core c).runq, x.seq ≠ t.seq) ∧ (u.core c).deque = (s.core c).deque) ∧
    (∀ d, (s.core c).nextWork = some (.entry d) → ∃ u, exec .workStart s = .next u ∧
      Claim.Started s u l ⟨c, h⟩ d.cont [d.frame, d.join, 0, 0, 0, 0, 0, BitVec.ofNat 64 d.src] ∧ (u.core c).deque = (s.core c).deque.drop 1 ∧
      (u.core c).runq.map (fun x => x.seq) = (s.core c).runq.map (fun x => x.seq))) ∧
  (∀ (s : State) (h : Nat) (l : CoreLaunch) (v : CoreId) (d : DqEntry) (ds : List DqEntry), let c := s.ev.core
    s.maySteal c = true → s.freeHelperOf c = some h → (s.core c).launch = some l → s.stealFrom c = some v → (s.core v).deque = ds ++ [d] →
    v.vt = c.vt ∧ v ≠ c ∧ ∃ u, exec .dequeStealProbe s = .next u ∧
      Claim.Started s u l ⟨c, h⟩ d.cont [d.frame, d.join, 0, 0, 0, 0, 0, BitVec.ofNat 64 d.src] ∧ (u.core v).deque = ds) ∧
  (∀ (s : State) (o : Nat × Task), let c := s.ev.core
    (s.tile c.vt).overflow.find? (fun x => x.1 == c.pos) = some o → (s.core c).runq.length < 32 → (s.tile c.vt).stopped = false →
    ∃ t x, Claim.Acts .overflowReentry s t ⟨c, 0⟩ Touch.none ∧ (t.core c).runq = (s.core c).runq ++ [x] ∧ x.handler = o.2.handler ∧
      x.payload = o.2.payload ∧ x.cls = o.2.cls ∧ x.prio = o.2.prio ∧ (t.tile c.vt).overflow = (s.tile c.vt).overflow.erase o)

/-- A wait that WAITLIM bounds and that has lasted longer than WAITLIM edges traps WAIT_LIMIT with the TRAPVAL of its kind, at its
instruction, or for SLEEP at the next (R49, R84). A timed SLEEP completes when its time has passed (R156). When every core of a
launch is listed, nothing can be dealt and its fabric has been idle, its armed detector gives context 0 of each core that is no shadow an imprecise
HANG with the launch's identity, unless a due pre-emption or WAIT_LIMIT comes before it (R358, R359, R367; the idle time as log 17 reads it). -/
def Obligations.WaitsAreLimited : Prop :=
  (∀ (s : State) (w : Wait) (since : Nat) (v : Word), let c := s.ev.ctx
    let k := s.ctx c
    let lim := (s.core c.core).waitLim.toNat
    k.st = .waiting w since → w.limitVal = some v → s.waitOver c w = false → s.busy c = false → (s.core c.core).tandem = none → k.gang = none → s.pushHeld c = none →
    (s.edgesAt c.core.vt - since ≤ lim ∨ lim = 0 → exec .waitLimit s = .next s) ∧
    (lim < s.edgesAt c.core.vt - since → lim ≠ 0 → (∀ b, w ≠ .sleep b) → (∀ n, w ≠ .gang n) →
      exec .waitLimit s = .next (s.deliver c [c] 0 c (Cause.waitLimit.at_ v))) ∧
    (lim < s.edgesAt c.core.vt - since → lim ≠ 0 → w = .sleep false → k.sup = false → k.upcallBit = false → ∃ t, exec .waitLimit s = .next t ∧
      (t.ctx c).causeCode = 0x0f ∧ (t.ctx c).trapPc = (nextHead k.line k.pc).1 ∧ (t.ctx c).trapVal = 0 ∧ (t.ctx c).sup = true ∧
      (t.ctx c).pc = (s.core c.core).trapVec ∧ (∀ r, t.rs c r = s.rs c r) ∧ t.mem = s.mem)) ∧
  (∀ (s : State) (n since : Nat) (b : Bool) (i : Inst), let c := s.ev.ctx
    (s.ctx c).st = .waiting (.timed n b) since → (s.ctx c).gang = none → decodeHead (s.ctx c).line (headIndex (s.ctx c).pc) = .ok i →
    exec .sleepTimeout s = .next (if n ≤ s.edgesAt c.core.vt - since then s.complete c i.row i.o false .next (syncSignal i.o) else s)) ∧
  (∀ (s : State) (l : Launch), s.launchById s.ev.k = some l → l.hangArmed = true → s.allListed s.ev.k = true → s.canDeal l = false →
    s.fabricIdle s.ev.k = true → 2048 ≤ s.edges - l.idleSince → ∃ t l', exec .hang s = .next t ∧ t.launchById s.ev.k = some l' ∧
      ((∀ c : CoreId, s.hangYields ⟨c, 0⟩ = false) → l'.hangArmed = false) ∧ ∀ c : CoreId, c.pos < 192 → c.key ∈ s.coresOf s.ev.k → let k := s.ctx ⟨c, 0⟩
        (k.st = .ready ∨ ∃ w since, k.st = .waiting w since) → s.hangYields ⟨c, 0⟩ = false → s.isShadow c = false → k.sup = false → k.upcallBit = false →
        (t.ctx ⟨c, 0⟩).causeCode = 0x10 ∧ (t.ctx ⟨c, 0⟩).cause.getLsbD 8 = true ∧ (t.ctx ⟨c, 0⟩).trapPc = k.pc ∧
        (t.ctx ⟨c, 0⟩).trapVal = BitVec.ofNat 64 s.ev.k)
/-! Engines, classes, system registers (chapters 01, 07). -/

namespace Sys2Proof.Claim

/-- A pointer operand of a command passes the checks made at issue: its format, its range of n bytes, its space; q is what the command
carries (R281, R285). -/
def passes (s s1 : State) (row : Instr) (p : Word) (n : Nat) (q : Word) : Prop :=
  (env s row).ptrFormat s1 p = .ok () ∧ (env s row).ptrRange s1 p n = .ok () ∧ (env s row).ptrSpace s1 p = .ok q

/-- A command as its issue makes it: kind, issuer, operands, rows, and the counter of its signal. -/
def IsCmd (s : State) (c : Cmd) (kind : CmdKind) (dst src w : Word) (m : Nat) : Prop :=
  c.kind = kind ∧ c.issuer = s.cur ∧ c.vt = s.cur.core.vt ∧ c.dst = dst ∧ c.src = src ∧ c.w = w ∧ c.m = m ∧ c.row = 0 ∧ c.token = none ∧
    c.fail = none ∧ c.gone = false ∧ c.ctr = if s.op.imm.getLsbD 8 then some (s.op.imm.toNat % 256) else none

/-- The context has one command more outstanding, and has issued nothing else. -/
def oneMore (s s' : State) : Prop := (s'.ctx s.cur).commands = (s.ctx s.cur).commands + 1 ∧ s'.mem = s.mem

/-- The scoreboard of the issuing core takes the ranges of a command that lie on its die (R183). -/
def noted (s s1 s' : State) (c : Cmd) (dst src : Option (Nat × Nat)) : Prop :=
  (s'.core s.cur.core).sb = if dst.isSome || src.isSome then (s1.core s.cur.core).sb ++ [⟨c.id, dst, src⟩] else (s1.core s.cur.core).sb

def collectives : List (Instr × CmdKind) :=
  [(.collReduce, .reduce), (.collRegister, .register), (.collBcast, .bcast), (.collJoin, .join)]

/-- n bytes from a byte pointer on lie in the core's own TCM. -/
def Near (p : Word) (n : Nat) : Prop :=
  pFmt p = 0 ∧ pBlk p = 0 ∧ pSpc p = 0 ∧ pRel p = false ∧ unassigned p = 0 ∧ pOff p + n ≤ 2 ^ 17

/-- The n bytes from offset o on of the TCM of the issuing core, which a command's pointer names, can be accessed by it. -/
def Reach (s : State) (c : Cmd) (p : Word) (o : Int) (n align : Nat) (k : AKind) : Prop :=
  pSpc p = 0 ∧ pRel p = false ∧ unassigned p = 0 ∧ 0 ≤ o ∧ o + n ≤ 2 ^ 17 ∧ o.toNat % align = 0 ∧
    s.permitted c.issuer.core.vt c.sup 0 o.toNat n k = true ∧ s.poisoned (flatTcm c.issuer.core o.toNat) n = false

/-- The commands of the next episode of an identity have all come, agree in function and parameter word, and may be performed. -/
def episode (s : State) (cs : List Cmd) (kind : CmdKind) (w : Word) : Prop :=
  s.ev.flag = false ∧ episodeOf (s.collCmds s.ev.k s.ev.j) = some cs ∧ cs ≠ [] ∧
    ∀ c ∈ cs, c.token = none ∧ (s.tile c.vt).stopped = false ∧ c.w = w ∧ c.kind = kind ∧ c.launch = s.ev.k

end Sys2Proof.Claim

/-- CPY, GTH and COLL whose operands pass their checks complete at once: a command with the operands stands at the end of its engine's inbox, one
more command of the context is outstanding, and no register and no byte of memory changes; a full inbox holds them, and a contribution of
coll.reduce, its REG form, coll.bcast and coll.join waits for the context's posted accesses (R281–R290, R293). Each of the eight forms completes for
ranges in the core's own TCM. These are the model's choices: the order of the pointer checks (log 19), which
parameter words of a collective fail FORMAT, and a copy of no bytes that needs no place in the inbox (log 50). -/
def Obligations.CommandsAreIssued : Prop :=
  (∀ (row : Instr) (n : Nat) (s : State) (x : Stop), (row, n) ∈ [(Instr.cpy, 1), (.gth, 16), (.gthLatch, 16)] → s.Ready row →
    (Claim.env s row).guardWord (s.taken row) s.op.s3 n = .error x → Claim.Stops row s x) ∧
  (∀ (s s1 : State) (m : Nat) (d p : Word), s.Ready .cpy → (Claim.env s .cpy).guardWord (s.taken .cpy) s.op.s3 1 = .ok (m, s1) →
    let w := s.rs s.cur s.op.s2
    let row := w.toNat % 2 ^ 24
    let nd := (m - 1) * (w.toNat / 2 ^ 44) + row
    let ns := (m - 1) * (w.toNat / 2 ^ 24 % 2 ^ 20) + row
    (m = 0 → ∃ s' c, Gives .cpy s s' Touch.none ∧ s'.retiring = s1.retiring ++ [c] ∧ Claim.IsCmd s c .copy 0 0 w 0 ∧ Claim.oneMore s s') ∧
    (m ≠ 0 → row = 0 → Claim.passes s s1 .cpy s.opD 0 d → Claim.passes s s1 .cpy s.opA 0 p →
      ∃ s' c, Gives .cpy s s' Touch.none ∧ s'.retiring = s1.retiring ++ [c] ∧ Claim.IsCmd s c .copy d p w 0 ∧ Claim.oneMore s s') ∧
    (m ≠ 0 → row ≠ 0 → Claim.passes s s1 .cpy s.opD nd d → Claim.passes s s1 .cpy s.opA ns p → let q := (s1.tile s.cur.core.vt).copyQ
      (16 ≤ q.length → Waits .cpy s (.inbox 0) s1) ∧
      (q.length < 16 → (s1.core s.cur.core).sb.length < 16 → ∃ s' c, Gives .cpy s s' Touch.none ∧ (s'.tile s.cur.core.vt).copyQ = q ++ [c] ∧
        Claim.IsCmd s c .copy d p w m ∧ Claim.oneMore s s' ∧
        Claim.noted s s1 s' c (s1.sbRange s.cur.core d nd) (s1.sbRange s.cur.core p ns)))) ∧
  (∀ (row : Instr) (latch : Bool) (s s1 : State) (m : Nat) (d b i : Word), (row, latch) ∈ [(Instr.gth, false), (.gthLatch, true)] → s.Ready row →
    (Claim.env s row).guardWord (s.taken row) s.op.s3 16 = .ok (m, s1) → let z := s.op.imm.toNat / 2 ^ 11 % 8
    let ip := s.rs s.cur s.op.s2
    let n := if latch then min m 16 else m
    let q := (s1.tile s.cur.core.vt).gatherQ
    (m = 0 → q.length < 16 → ∃ s' c, Gives row s s' Touch.none ∧ (s'.tile s.cur.core.vt).gatherQ = q ++ [c] ∧ c.m = 0 ∧ Claim.oneMore s s') ∧
    (m ≠ 0 → Claim.passes s s1 row s.opA 0 b → Claim.passes s s1 row ip (4 * n) i →
      (if latch then d = 0 else Claim.passes s s1 row s.opD (m * (64 * 2 ^ z)) d) → pFmt ip = 0 ∨ pFmt ip = 4 → pBlk ip = 0 →
      (16 ≤ q.length → Waits row s (.inbox 1) s1) ∧
      (q.length < 16 → (s1.core s.cur.core).sb.length < 16 → ∃ s' c, Gives row s s' Touch.none ∧ (s'.tile s.cur.core.vt).gatherQ = q ++ [c] ∧
        Claim.IsCmd s c (if latch then .latch else .gather) d b i m ∧ c.z = z ∧ c.latch = (if s.op.imm.getLsbD 10 then 1 else 0) ∧
        Claim.oneMore s s'))) ∧
  (∀ (row : Instr) (kind : CmdKind) (s : State) (d p : Word), (row, kind) ∈ Claim.collectives → s.Ready row → let w := s.rs s.cur s.op.s2
    let size := collLen w * collBytes (collEt w)
    let hasD := kind ≠ .join ∧ s.op.d ≠ 0
    let who := (s.rs s.cur s.op.s3).toNat % 1024
    (hasD → (Claim.env s row).ptrFormat (s.taken row) s.opD = .ok ()) → (kind ≠ .join → (Claim.env s row).ptrFormat (s.taken row) s.opA = .ok ()) →
    (collBad kind w = true → Traps row s (Cause.format.at_ w) (s.taken row)) ∧
    (collBad kind w = false → collN w ≤ who → Traps row s (Cause.offsetOverflow.at_ (s.rs s.cur s.op.s3)) (s.taken row)) ∧
    (collBad kind w = false → who < collN w →
      (hasD → Claim.passes s (s.taken row) row s.opD size d) → (¬hasD → d = 0) → (kind ≠ .join → Claim.passes s (s.taken row) row s.opA size p) →
      (kind = .join → p = 0) →
      let q := (s.tile s.cur.core.vt).collQ
      (16 ≤ q.length → Waits row s (.inbox 2) (s.taken row)) ∧ (q.length < 16 → 0 < (s.ctx s.cur).posted → Waits row s .earlier (s.taken row)) ∧
      (q.length < 16 → (s.ctx s.cur).posted = 0 → ∃ s' c, Gives row s s' Touch.none ∧ (s'.tile s.cur.core.vt).collQ = q ++ [c] ∧
        Claim.IsCmd s c kind d p w (collLen w) ∧ c.who = who ∧ (c.z = 1 ↔ hasD) ∧ Claim.oneMore s s'))) ∧
  (∀ (s : State) (d p : Word), s.Ready .collDigest → let n := (s.rs s.cur s.op.s2).toNat
    (s.op.d ≠ 0 → Claim.passes s (s.taken .collDigest) .collDigest s.opD 32 d) → (s.op.d = 0 → d = 0) → Claim.passes s (s.taken .collDigest) .collDigest s.opA n p →
    let q := (s.tile s.cur.core.vt).digestQ
    (16 ≤ q.length → Waits .collDigest s (.inbox 3) (s.taken .collDigest)) ∧
    (q.length < 16 → ∃ s' c, Gives .collDigest s s' Touch.none ∧ (s'.tile s.cur.core.vt).digestQ = q ++ [c] ∧
      Claim.IsCmd s c .digest d p (s.rs s.cur s.op.s2) n ∧ (c.z = 1 ↔ s.op.d ≠ 0) ∧ Claim.oneMore s s')) ∧
  (∀ (row : Instr) (s : State), s.Ready row → let t := s.tile s.cur.core.vt
    let w := s.rs s.cur s.op.s2
    let size := collLen w * collBytes (collEt w)
    (row = .cpy → s.op.s3 = 0 → Claim.Near s.opD (w.toNat % 2 ^ 24) → Claim.Near s.opA (w.toNat % 2 ^ 24) → t.copyQ.length < 16 →
      (s.core s.cur.core).sb.length < 16 → ∃ s', Gives row s s' Touch.none) ∧
    (row = .gth ∨ row = .gthLatch → s.op.s3 = 0 → Claim.Near s.opA 0 → Claim.Near w 64 →
      (row = .gth → Claim.Near s.opD (16 * (64 * 2 ^ (s.op.imm.toNat / 2 ^ 11 % 8)))) → t.gatherQ.length < 16 → (s.core s.cur.core).sb.length < 16 →
      ∃ s', Gives row s s' Touch.none) ∧
    (∀ kind, (row, kind) ∈ [(Instr.collReduce, CmdKind.reduce), (.collRegister, .register), (.collBcast, .bcast), (.collJoin, .join)] →
      collBad kind w = false → (s.rs s.cur s.op.s3).toNat % 1024 < collN w → (s.op.d ≠ 0 → Claim.Near s.opD size) → (row ≠ .collJoin → Claim.Near s.opA size) →
      t.collQ.length < 16 → (s.ctx s.cur).posted = 0 → ∃ s', Gives row s s' Touch.none) ∧
    (row = .collDigest → (s.op.d ≠ 0 → Claim.Near s.opD 32) → Claim.Near s.opA w.toNat → t.digestQ.length < 16 → ∃ s', Gives row s s' Touch.none))

/-- The copy engine copies a row, the gather engine the unit that an index names, to its destination or into a latch whose other rows it
fills with zeros; no other byte and no register changes, and the command goes on to retire (R286–R288), here for one row outside global
memory. A command that retires gives up its scoreboard entry, counts down its context's commands and increments its counter, with the error bit
and the context's error record after a failure (R283, R284, R190). The digest command at the head of its inbox makes its declaration as it retires (R293).
The collective engine takes its inbox in order (R281); a coll.join, once every contributor's command has been taken, sends all of them to retire; a coll.reduce writes the tree of its contributions, which for an integer sum is their
sum (R289–R291). What the collective engine does with incomplete episodes, and that one event performs the rows left, are the model's readings (logs 12, 35, 43).
CopyCommand, GatherCommand, CommandRetire and CollectiveEpisode complete as said. -/
def Obligations.EnginesPerformCommands : Prop :=
  (∀ (s s1 s2 : State) (c : Cmd) (r : List Cmd) (a b : Nat), let vt := s.ev.vt
    let core := c.issuer.core
    let n := c.w.toNat % 2 ^ 24
    s.memOk → (s.tile vt).stopped = false → (s.tile vt).copyQ = c :: r → c.token = none → c.fail = none → c.kind = .copy → c.m = 1 → c.row = 0 →
    n ≠ 0 → pSpc c.src ≠ 5 → pSpc c.dst ≠ 5 → s.engRange core c.sup .read 1 c.src 0 n = .ok ([(a, n)], s1) →
    (s1.engTouch [(a, n)]).engRange core c.sup .write 1 c.dst 0 n = .ok ([(b, n)], s2) → inBlocks b n = false →
    ∃ t c', Claim.Acts .copyCommand s t c.issuer { Touch.none with lo := b, hi := b + n } ∧ t.bytes b n = s.bytes a n ∧ (t.tile vt).copyQ = r ∧
      t.retiring = s.retiring ++ [c'] ∧ c'.id = c.id ∧ c'.fail = none) ∧
  (∀ (s s1 s2 s3 : State) (c : Cmd) (r : List Cmd) (a b d : Nat), let vt := s.ev.vt
    let core := c.issuer.core
    let n : Nat := 64 * 2 ^ c.z
    let x : Int := signedOf 32 (s.load a 4)
    s.memOk → (s.tile vt).stopped = false → (s.tile vt).gatherQ = c :: r → c.token = none → c.fail = none → c.m = 1 → c.row = 0 →
    pSpc c.src ≠ 5 → pSpc c.dst ≠ 5 → pSpc c.w ≠ 5 → s.engRange core c.sup .read 4 c.w 0 4 = .ok ([(a, 4)], s1) →
    (s1.engTouch [(a, 4)]).engRange core c.sup .read 64 c.src (x * n) n = .ok ([(b, n)], s2) →
    (c.kind = .gather → (s2.engTouch [(b, n)]).engRange core c.sup .write 1 c.dst 0 n = .ok ([(d, n)], s3) → inBlocks d n = false →
      ∃ t, Claim.Acts .gatherCommand s t c.issuer { Touch.none with lo := d, hi := d + n } ∧ t.bytes d n = s.bytes b n ∧ (t.tile vt).gatherQ = r) ∧
    (c.kind = .latch → c.z = 1 → c.latch < 2 → c.gone = false → ∃ t, Claim.Acts .gatherCommand s t c.issuer { Touch.none with g := [c.latch] } ∧
      (t.tile vt).gatherQ = r ∧ ∀ i < 16, ((t.rg c.issuer c.latch).toArray.getD i 0).toNat = if i = 0 then s.load b 128 else 0)) ∧
  (∀ (s : State) (c : Cmd) (r : List Cmd), let vt := s.ev.vt
    let n := c.w.toNat % 2 ^ 24
    let a := flatTcm c.issuer.core (pOff c.src)
    let b := flatTcm c.issuer.core (pOff c.dst)
    s.memOk → (s.tile vt).stopped = false → (s.tile vt).copyQ = c :: r → c.token = none → c.fail = none → c.kind = .copy → c.m = 1 → c.row = 0 →
    n ≠ 0 → Claim.Reach s c c.src (pOff c.src) n 1 .read → Claim.Reach s c c.dst (pOff c.dst) n 1 .write →
    ∃ t, Claim.Acts .copyCommand s t c.issuer { Touch.none with lo := b, hi := b + n } ∧ t.bytes b n = s.bytes a n ∧ (t.tile vt).copyQ = r) ∧
  (∀ (s : State) (c : Cmd) (r : List Cmd), let vt := s.ev.vt
    let n : Nat := 64 * 2 ^ c.z
    let x : Int := signedOf 32 (s.load (flatTcm c.issuer.core (pOff c.w)) 4)
    let b := flatTcm c.issuer.core (pOff c.dst)
    s.memOk → (s.tile vt).stopped = false → (s.tile vt).gatherQ = c :: r → c.token = none → c.fail = none → c.kind = .gather → c.m = 1 → c.row = 0 →
    Claim.Reach s c c.w (pOff c.w) 4 4 .read → Claim.Reach s c c.src (pOff c.src + x * n) n 64 .read →
    Claim.Reach s c c.dst (pOff c.dst) n 1 .write →
    ∃ t, Claim.Acts .gatherCommand s t c.issuer { Touch.none with lo := b, hi := b + n } ∧ (t.tile vt).gatherQ = r ∧
      t.bytes b n = s.bytes (flatTcm c.issuer.core (pOff c.src + x * n).toNat) n) ∧
  (∀ (s : State) (c : Cmd), s.retiring.find? (fun x => x.id == s.ev.k) = some c → (s.tile c.vt).stopped = false → c.token = none →
    c.gone = false → let core := c.issuer.core
    (c.fail = none → ∃ t, Claim.Acts .commandRetire s t c.issuer Touch.none ∧ (∀ x ∈ t.retiring, x.id ≠ c.id) ∧
      (∀ x ∈ (t.core core).sb, x.cmd ≠ c.id) ∧ (t.ctx c.issuer).commands = (s.ctx c.issuer).commands - 1 ∧
      ∀ n, c.ctr = some n → ((t.core core).reinAt n).v.toNat = min (((s.core core).reinAt n).v.toNat + 1) 0xffff ∧
        ((t.core core).reinAt n).e = ((s.core core).reinAt n).e) ∧
    (∀ x n, c.fail = some x → c.ctr = some n → (s.ctx c.issuer).err = none → ∃ t e, exec .commandRetire s = .next t ∧
      (t.ctx c.issuer).err = some e ∧ e.ctr = some n ∧ e.cause = x.1 ∧ e.addr = x.2.2 ∧ e.tag = c.tag ∧ ((t.core core).reinAt n).e = true ∧
      ∀ d r, t.rs d r = s.rs d r)) ∧
  (∀ (s : State) (c : Cmd) (rest : List Cmd) (l : Launch), s.retiring.find? (fun x => x.id == s.ev.k) = none →
    s.digestHead s.ev.k = some (c, rest) → (s.tile c.vt).stopped = false → c.token = none → c.fail = none → c.gone = false →
    s.launchById c.launch = some l → pSpc c.src ≠ 5 → (l.digests.filter (fun d => d.vt == c.vt)).length < 8 →
      ∃ t l' d, (t.tile c.vt).digestQ = rest ∧ Claim.Acts .commandRetire s t c.issuer Touch.none ∧ t.launchById c.launch = some l' ∧ l'.digests = l.digests ++ [d] ∧
        d.region = c.src ∧ d.len = c.m ∧ d.result = (if c.z = 1 then some c.dst else none)) ∧
  (∀ (s : State) (cs : List Cmd) (w : Word) (l : Launch), Claim.episode s cs .join w → s.launchById s.ev.k = some l → l.sums = [] →
    ∃ t, Claim.Acts .collectiveEpisode s t s.cur Touch.none ∧ (∃ ds : List Cmd, t.retiring = s.retiring ++ ds ∧ ds.map Cmd.id = cs.map Cmd.id) ∧
      ∀ x : Nat × Tile, x ∈ t.tiles → ∀ c ∈ x.2.collHeld, c.id ∉ cs.map Cmd.id) ∧
  (∀ (s : State) (c : Cmd) (r : List Cmd), s.ev.flag = true → (s.tile s.ev.vt).collQ = c :: r → (s.tile s.ev.vt).stopped = false →
    ∃ t, Claim.Acts .collectiveEpisode s t s.cur Touch.none ∧ (t.tile s.ev.vt).collQ = r ∧
      (t.tile s.ev.vt).collHeld = (s.tile s.ev.vt).collHeld ++ [c]) ∧
  (∀ (s s1 s2 : State) (cs : List Cmd) (w : Word) (bs : List (List Byte)) (l : List (Cmd × Option (List (Nat × Nat)))),
    Claim.episode s cs .reduce w → s.readAll cs [] = .ok bs s1 → let n := collBytes (collEt w)
    let sum := (List.range (collLen w)).flatMap (fun e => natLe n (quadrille (collOp w) (collEt w) e (bs.map (fun b => elemOf n b e))))
    s1.destAll sum.length (collRoot w) (collAll w) cs = .ok l s2 →
    ∃ t, exec .collectiveEpisode s = .next t ∧ t.mem = (s2.writeAll sum l).mem ∧ ∀ d r, t.rs d r = s.rs d r) ∧
  (∀ (e : Nat) (xs : List Nat), xs.length ≤ 512 → (∀ x ∈ xs, x < 2 ^ 32) →
    (quadrille 0 4 e xs : Int) = (xs.map (signedOf 32)).sum % 2 ^ 32) ∧
  (∀ (s : State) (cs : List Cmd) (c : Cmd) (w : Word) (l : Launch), Claim.episode s cs .register w →
    cs.find? (fun c => c.who == collRoot w) = some c → c.fail = none → s.launchById s.ev.k = some l → l.regs.length < 16 → collEt w ≠ 6 →
    pSpc c.src ≠ 5 → ∃ t l' g, Claim.Acts .collectiveEpisode s t s.cur Touch.none ∧ t.launchById s.ev.k = some l' ∧
      l'.regs = l.regs ++ [g] ∧ g.et = collEt w ∧ g.len = collLen w ∧ g.ptr = (absPtr c.issuer.core c.src).getD c.src)

/-- SYS.csrr writes the register it names to s[D]; csrw and csrx write A to it, after the checks that Table 13 gives it have passed, csrx with
its old value in s[D]; a check that fails traps and writes nothing (R35–R37, R296). A register without behaviour of its own reads back as
it was written, and no other of them changes; DECTAB writes its index, and with WR its entry; a pool boundary and FEATACK take their
fields (R39–R52, R59). The same registers outside a launch are written by their rows. CLASS changes CLASSEN and returns its old
value, or returns the classes that have a task waiting (R48, R294). SYS, CLASS and the write events complete as said. -/
def Obligations.SystemRegistersAndClasses : Prop :=
  (∀ s : State, s.Ready .sysCsrr → GivesReg .sysCsrr s (s.sysRead s.cur (s.op.imm.toNat % 256))) ∧
  (∀ (s : State) (c : CtxId), let k := s.ctx c
    s.sysRead c 0x01 = BitVec.ofNat 64 (s.paceAt c.core.vt) ∧ s.sysRead c 0x05 = BitVec.ofNat 64 c.core.vt ∧ s.sysRead c 0x0b = k.cause ∧
    s.sysRead c 0x0c = k.trapPc ∧ s.sysRead c 0x0d = k.trapVal ∧ s.sysRead c 0x0e = k.trapTag ∧ s.sysRead c 0x0f = (s.core c.core).trapVec ∧
    s.sysRead c 0x10 = (s.core c.core).upcallVec ∧ s.sysRead c 0x13 = k.lpct ∧ s.sysRead c 0x11 = k.seed ++ k.mode.setWidth 32 ∧
    s.sysRead c 0x1d = s.featAck) ∧
  (∀ (row : Instr) (s : State), row = .sysCsrw ∨ row = .sysCsrx → s.Ready row → let n := s.op.imm.toNat % 256
    match s.sysCheck s.cur n s.opA with
    | some t => Traps row s t (s.taken row)
    | none =>
      let s' := (if sysWide n then (s.taken row).commit s.cur else (s.taken row)).sysWrite s.cur n s.opA
      Completes row s .next (if row = .sysCsrx then s'.ws s.cur s.op.d (s.sysRead s.cur n) else s')) ∧
  (∀ (row : Instr) (s : State), row = .sysCsrw ∨ row = .sysCsrx → s.Ready row → let n := s.op.imm.toNat % 256
    let v := s.opA.toNat
    (n ∈ [0x0c, 0x0d, 0x0f, 0x10, 0x13] ∨ n = 0x0e ∧ v < 2 ^ 59 ∨ n = 0x12 ∧ v < 2 ^ 13 ∧ v / 2 ^ 5 % 2 ^ 3 = 0 ∨ n = 0x15 ∧ v < 2 ^ 16 ∨
      n = 0x17 ∧ v < 2 ^ 32 ∨ n = 0x1a ∧ v < 2) →
    ∃ s', Completes row s .next s' ∧ (n ∈ [0x0c, 0x0d, 0x0f, 0x10, 0x13, 0x0e, 0x15, 0x17, 0x1a] → s'.sysRead s.cur n = s.opA) ∧
      (row = .sysCsrx → s.op.d ≠ 0 → s'.rs s.cur s.op.d = s.sysRead s.cur n) ∧ s'.mem = s.mem) ∧
  (∀ (s : State) (c : CtxId) (n : Nat) (w : Word), s.sysCheck c n w = none → let t := s.sysWrite c n w
    let plain := [0x0b, 0x0c, 0x0d, 0x0e, 0x0f, 0x10, 0x11, 0x13, 0x15, 0x17, 0x18, 0x19, 0x1a]
    (∀ e r, t.rs e r = s.rs e r) ∧ (∀ e r, t.rp e r = s.rp e r) ∧ (n ∉ [0x08, 0x09, 0x0a] → t.mem = s.mem) ∧
    (n ∈ plain → t.sysRead c n = w ∧ ∀ m ∈ plain, m ≠ n → t.sysRead c m = s.sysRead c m) ∧
    (n = 0x12 → (t.ctx c).ff.toNat = w.toNat % 32) ∧
    (n = 0x14 → (t.core c.core).decIdx.toNat = w.toNat / 2 ^ 40 % 256 ∧ ∀ i, (t.core c.core).dec.get i 0 =
      if w.getLsbD 63 = true ∧ i = w.toNat / 2 ^ 40 % 256 then w.setWidth 19 else (s.core c.core).dec.get i 0) ∧
    (n = 0x08 → (t.tile c.core.vt).plb0 = w.toNat / 2 ^ 16 % 2 ^ 10) ∧ (n = 0x09 → (t.tile c.core.vt).plb1 = w.toNat / 2 ^ 16 % 2 ^ 10) ∧
    (n = 0x0a → (t.tile c.core.vt).plb2 = w.toNat / 2 ^ 16 % 2 ^ 10) ∧
    (n = 0x1d → t.featAck = w &&& (Config.feat1 ++ Config.feat0) ∧ t.featSet = true)) ∧
  (∀ (row : Instr) (s : State), let c := s.ev.ctx
    let n := s.ev.k
    let w := s.ev.w
    row = (if n = 0x08 ∨ n = 0x09 ∨ n = 0x0a then Instr.plbWrite else if n = 0x14 then (if w.getLsbD 63 then .dectabStore else .dectabSelect)
      else if n = 0x19 then .detmodeWrite else if n = 0x1a then .ctlprioWrite else if n = 0x1d then .featackWrite else .registerWrite) →
    (s.core c.core).launch = none → (s.tile c.core.vt).draining = false → (s.tile c.core.vt).stopped = false → s.attest.dark = false →
    (∃ x, regAcc n = some x ∧ x ≠ .ro) → s.sysCheck c n w = none → exec row s = .next (s.sysWrite c n w)) ∧
  (∀ (row : Instr) (unmask : Bool) (s : State), (row, unmask) ∈ [(Instr.classMask, false), (.classUnmask, true)] → s.Ready row →
    let old := (s.core s.cur.core).classEn
    let m : Half := s.opA.setWidth 16
    ∃ s', Gives row s s' (Touch.reg s.op.d) ∧ s'.rs s.cur s.op.d = (if s.op.d = 0 then 0 else old.setWidth 64) ∧
      (s'.core s.cur.core).classEn = if unmask then old ||| m else old &&& ~~~m) ∧
  (∀ s : State, s.Ready .classTest → ∃ v, GivesReg .classTest s v ∧ ∀ i < 64, v.getLsbD i = true ↔ i < 16 ∧ s.opA.getLsbD i = true ∧
    ((∃ t ∈ (s.core s.cur.core).runq, t.cls = i) ∨ ∃ o ∈ (s.tile s.cur.core.vt).overflow, o.1 = s.cur.core.pos ∧ o.2.cls = i))
/-! Tandem pairs, shared stacks and leases, spur units (chapters 07 and 09). -/

namespace Sys2Proof.Claim

/-- The context of the hand-over of stack st by die vd that waits for the end of close. -/
def atClose (s : State) (vd st : Nat) : Option CtxId :=
  (s.ctxs.find? (fun x => match x.2.st with | .waiting w _ => w == .close vd st | _ => false)).map (fun x => ctxOfKey x.1)

/-- The hand-over of a stack goes one step on, and memory does not change. -/
def handStep (row : Instr) (s : State) (h : Hand) : Prop :=
  ∃ t, exec row s = .next t ∧ t.hand s.ev.vd s.ev.j = some h ∧ t.mem = s.mem

/-- The pace of the serving tile has passed the latest gateway lease of the stack by 20 ns, and its clock region is certain (R395, R397). -/
def leasesOver (s : State) (h : Hand) : Prop :=
  (s.tile h.issuer.vt).uncertain = false ∧ s.load (flatCommons s.ev.vd (0x7fe2028 + 8 * s.ev.j)) 8 + 20 ≤ s.paceAt h.issuer.vt

/-- The other position of a pair (R297). -/
def mateOf (pos : Nat) : Nat := if pos % 2 = 0 then pos + 1 else pos - 1

/-- An unexpired translation of the interface, or an unexpired leased gateway line of the die, holds a page. -/
def holdsPage (s : State) (ifc vt : Nat) (p : Word) (e : Word) : Prop :=
  (∃ x ∈ (s.tile ifc).tcache, x.covers (treeKey (pVa p)) (pVa p) = true ∧ s.paceAt ifc ≤ x.expiry ∧ x.entry = e) ∨
    ∃ l ∈ (s.die (dieOf vt)).gw, l.home = s.gwHome p ∧ inPage l.entry l.va (pVa p) = true ∧ l.grant = none ∧ s.paceAt vt < l.expiry ∧ l.entry = e

end Sys2Proof.Claim

/-- tandem.on writes 0 where no pair can form and otherwise waits; when both cores of a pair wait at it the even one becomes the primary and
goes on with 1 (R297). tandem.off outside a pair writes 0; in a pair it waits for free helpers, then ends the pair with 0 and lets
the shadow's tandem.on complete with 2 (R298). Fingerprints that agree make the state the agreed point; those that do not restore the agreed
point and its window stores and count a mismatch, and the third in a row is an uncorrectable error (R426–R428). own.give checks its
stack in order, marks it in flight in the state word and waits for close, which completes it once no forwarded access is on its way; the drain
ends when what was accepted before is done, the other steps follow, and the last makes the mate the owner of the next generation and signals the counter (R299, R395, R397); own.query reads the state word (R300).
lease.renew of no page writes all ones; of a page with a lease it gives pace plus the lease, and never extends a translation that
the home's page no longer agrees with (R301, R391). An engine row renews a translation with less than an eighth of its lease left (R391). That the shadow's copy is the primary's, and that a renewal does not wait are the model's readings (logs 15, 27), and so are the TRAPVALs of own.give and own.query (log 49). -/
def Obligations.PairsStacksAndLeases : Prop :=
  (∀ s : State, s.Ready .tandemOn → let c := s.cur.core
    if s.livePos (dieOf c.vt) (Claim.mateOf c.pos) = false ∨ inRect (s.launchRect c) (Claim.mateOf c.pos) = false then GivesReg .tandemOn s 0
    else Waits .tandemOn s .tandem ((s.taken .tandemOn).commit s.cur)) ∧
  (∀ s : State, s.Ready .tandemOff → let c := s.cur.core
    ((s.core c).tandem = none → GivesReg .tandemOff s 0) ∧
    ((s.core c).tandem ≠ none → s.noHelpers c = false → Waits .tandemOff s .tandem (s.taken .tandemOff)) ∧
    (∀ (t : Tandem) (since : Nat) (i : Inst), let d : CoreId := ⟨c.vt, t.partner⟩
      (s.core c).tandem = some t → t.primary = true → s.noHelpers c = true → c.pos < 192 → t.partner < 192 → t.partner ≠ c.pos →
      (s.ctx ⟨d, 0⟩).st = .waiting .tandem since → (s.ctx ⟨d, 0⟩).gang = none →
      decodeHead (s.ctx ⟨d, 0⟩).line (headIndex (s.ctx ⟨d, 0⟩).pc) = .ok i →
      ∃ s', Completes .tandemOff s .next s' ∧ (s'.core c).tandem = none ∧ (s'.core d).tandem = none ∧ s'.rs s.cur s.op.d = 0 ∧
        (s'.ctx ⟨d, 0⟩).st = .ready ∧ s'.rs ⟨d, 0⟩ i.o.d = (if i.o.d = 0 then 0 else 2) ∧ s'.mem = s.mem)) ∧
  (∀ (s : State) (i : Inst), let c := s.ev.core
    let d : CoreId := ⟨c.vt, c.pos + 1⟩
    c.pos % 2 = 0 → (s.core c).launchId = (s.core d).launchId → s.atTandemOn c = true → s.atTandemOn d = true →
    (s.tile c.vt).stopped = false → (s.tile c.vt).draining = false → (s.tile c.vt).halted = false → (s.ctx ⟨c, 0⟩).gang = none →
    decodeHead (s.ctx ⟨c, 0⟩).line (headIndex (s.ctx ⟨c, 0⟩).pc) = .ok i →
    ∃ t, exec .tandemFormation s = .next t ∧ (t.core c).tandem = some ⟨d.pos, true⟩ ∧ (t.core d).tandem = some ⟨c.pos, false⟩ ∧
      (t.ctx ⟨c, 0⟩).st = .ready ∧ t.rs ⟨c, 0⟩ i.o.d = (if i.o.d = 0 then 0 else 1) ∧ t.ctx ⟨d, 0⟩ = s.ctx ⟨d, 0⟩ ∧ t.mem = s.mem) ∧
  (∀ (s : State) (i : Inst) (since : Nat), let c := s.ev.ctx
    let f := (s.core c.core).finger c.ctx
    let vd := dieOf c.core.vt
    (s.ctx c).st = .waiting .earlier since → (s.ctx c).gang = none → s.standing c = some i → s.exchangeDue c i.row i.o = true →
    (s.ev.flag = true → ∃ t, Claim.Acts .fingerprintExchange s t c Touch.none ∧ (t.ctx c).st = .ready ∧
      let g := (t.core c.core).finger c.ctx
      g.len = 0 ∧ g.bad = 0 ∧ g.log = [] ∧ g.base = some (t.ctx c)) ∧
    (∀ b, s.ev.flag = false → f.base = some b → s.memOk →
      (f.bad < 2 → ∃ t, exec .fingerprintExchange s = .next t ∧ (t.ctx c).st = .ready ∧ (t.ctx c).pc = b.pc ∧ (t.ctx c).s = b.s ∧
        (t.ctx c).p = b.p ∧ (t.ctx c).v = b.v ∧ (t.ctx c).a = b.a ∧ (t.ctx c).ff = b.ff ∧ (t.ctx c).cause = b.cause ∧
        ((t.core c.core).finger c.ctx).bad = f.bad + 1 ∧
        (f.log = [] → t.load (flatCommons vd 0x7fe8040) 8 = min (s.load (flatCommons vd 0x7fe8040) 8 + 1) (2 ^ 64 - 1)) ∧
        ∀ a old, f.log = [⟨a, old⟩] → a + old.length < 2 ^ 64 → t.bytes a old.length = old) ∧
      (f.bad = 2 → b.act.within = false → b.sup = false → b.upcallBit = false → ∃ t, exec .fingerprintExchange s = .next t ∧
        (t.ctx c).causeCode = 0x12 ∧ (t.ctx c).cause.getLsbD 8 = true ∧ (t.ctx c).trapPc = b.pc ∧ (t.ctx c).trapVal = 0 ∧
        (t.die vd).first = some (s.curSite vd (slotOf c.core.vt))))) ∧
  (∀ s : State, s.Ready .ownGive → let vd := dieOf s.cur.core.vt
    let st := s.opA.toNat
    let w := s.stack vd st
    if 1 < st then Traps .ownGive s (Cause.offsetOverflow.at_ s.opA) (s.taken .ownGive)
    else if (s.info vd).mate = none then Traps .ownGive s ⟨.space, 0, 3, 0, 0⟩ (s.taken .ownGive)
    else if w.owner ≠ vd ∨ w.flight = true then Traps .ownGive s (Cause.stackNotOwned.at_ s.opA) (s.taken .ownGive)
    else st < (s.die vd).stackWords.length → ∃ s', Waits .ownGive s (.close vd st) s' ∧
      s'.rs s.cur s.op.d = (if s.op.d = 0 then 0 else BitVec.ofNat 64 ((w.gen + 1) % 2 ^ 16)) ∧ s'.stack vd st = { w with flight := true } ∧
      (s'.die vd).hands = (s.die vd).hands ++
        [⟨st, s.cur.core, if s.op.imm.getLsbD 8 then some (s.op.imm.toNat % 256) else none, false, false, false, false⟩] ∧
      (∀ m, (s.info vd).mate = some m → st < (s.die m).stackWords.length → (s'.stack m st).flight = true) ∧ s'.mem = s.mem) ∧
  (∀ s : State, s.Ready .ownQuery → let w := s.stack (dieOf s.cur.core.vt) s.opA.toNat
    if 1 < s.opA.toNat then Traps .ownQuery s (Cause.offsetOverflow.at_ s.opA) (s.taken .ownQuery)
    else ∃ s', Gives .ownQuery s s' (Touch.reg s.op.d) ∧
      (s.op.d ≠ 0 → (s'.rs s.cur s.op.d).toNat = w.gen % 2 ^ 16 * 2 ^ 16 + (if w.flight then 2 ^ 8 else 0) + w.owner % 64)) ∧
  (∀ (s : State) (h : Hand), s.hand s.ev.vd s.ev.j = some h →
    (∀ (c : CtxId) (i : Inst), h.closed = false → s.accepted s.ev.vd s.ev.j true = false → Claim.atClose s s.ev.vd s.ev.j = some c → (s.ctx c).gang = none →
      decodeHead (s.ctx c).line (headIndex (s.ctx c).pc) = .ok i →
      ∃ s1 : State, exec .stackCloseEnd s = .next (s1.complete c i.row i.o false .next (syncSignal i.o)) ∧
        s1.hand s.ev.vd s.ev.j = some { h with closed := true } ∧ s1.ctxs = s.ctxs ∧ s1.mem = s.mem) ∧
    (if h.closed = true ∧ s.accepted s.ev.vd s.ev.j false = false ∧ s.pagerAt s.ev.vd s.ev.j = false
      then Claim.handStep .stackDrainEnd s { h with drained := true } else exec .stackDrainEnd s = .next s) ∧
    (h.drained = true → Claim.handStep .stackWriteBackEnd s { h with written := true } ∧
      ∀ t, exec .stackWriteBackEnd s = .next t → ∀ i < 8, ∀ e ∈ (t.tile (8 * s.ev.vd + i)).tcache, e.tree ≠ 1 + s.ev.j) ∧
    (h.drained = false → exec .stackWriteBackEnd s = .next s) ∧
    (h.closed = true → Claim.leasesOver s h → Claim.handStep .stackLeaseWaitEnd s { h with leased := true }) ∧
    (h.closed = false ∨ ¬Claim.leasesOver s h → exec .stackLeaseWaitEnd s = .next s) ∧
    (∀ m, (s.info s.ev.vd).mate = some m → m ≠ s.ev.vd → s.ev.j < (s.die s.ev.vd).stackWords.length → s.ev.j < (s.die m).stackWords.length →
      if h.written && h.leased then ∃ t, Claim.Acts .stackSwitch s t ⟨h.issuer, 0⟩ Touch.none ∧ t.hand s.ev.vd s.ev.j = none ∧
        t.stack s.ev.vd s.ev.j = ⟨((s.stack s.ev.vd s.ev.j).gen + 1) % 2 ^ 16, false, m⟩ ∧
        t.stack m s.ev.j = ⟨((s.stack m s.ev.j).gen + 1) % 2 ^ 16, false, m⟩ ∧
        ∀ n, h.ctr = some n → ((t.core h.issuer).reinAt n).v.toNat = min (((s.core h.issuer).reinAt n).v.toNat + 1) 0xffff
      else exec .stackSwitch s = .next s)) ∧
  (∀ s : State, s.Ready .leaseRenew → let n := (s.rs s.cur s.op.s2).toNat
    let q : Req := ⟨s.opA, s.op.imm16.toInt, n * 65536, 1, .read, [5], false, false⟩
    let vt := s.cur.core.vt
    (16 < n → Traps .leaseRenew s (Cause.offsetOverflow.at_ s.opA) (s.taken .leaseRenew)) ∧
    (n = 0 → pSpc s.opA = 5 → pRel s.opA = false → pFmt s.opA = 0 → pBlk s.opA = 0 → pDie s.opA < s.nDies → (offAdd s.opA s.op.imm16.toInt).isSome = true →
      (∀ ea, offAdd s.opA s.op.imm16.toInt = some ea → unassigned ea = 0) → GivesReg .leaseRenew s (BitVec.allOnes 64)) ∧
    (∀ ea p, n ≤ 16 → s.formEa q = .ok ea → s.absolute s.cur.core [5] ea = .ok p →
      if n = 0 then GivesReg .leaseRenew s (BitVec.allOnes 64)
      else if pPair p = true ∧ (s.stack (pDie p) (pStack p)).flight = true then Traps .leaseRenew s (Cause.stackNotOwned.at_ ea) (s.taken .leaseRenew)
      else if (s.tile vt).uncertain = true then Traps .leaseRenew s (Cause.leaseSkew.at_ ea) (s.taken .leaseRenew)
      else ∀ x s1, (s.taken .leaseRenew).renewAll vt ((segsOf p (n * 65536)).map (fun y => y.1)) = .ok (x, s1) →
        Completes .leaseRenew s .next (s1.ws s.cur s.op.d (match x with | some t => BitVec.ofNat 64 t | none => BitVec.allOnes 64)) ∧
          ∀ e r, s1.rs e r = s.rs e r)) ∧
  (∀ (s s1 : State) (vt ifc : Nat) (p e : Word), s.receiver (s.home ⟨vt, 0⟩ p) p = (ifc, s1) →
    (s1.stack (pDie p) (pStack p)).flight = false → (s1.tile ifc).uncertain = false → s1.leafAt (s.home ⟨vt, 0⟩ p) (pVa p) = .ok e →
    let n := pteLease e
    ((∀ f, Claim.holdsPage s1 ifc vt p f → sameLeaf f e = true) →
      ∃ t, s.renewPage vt p = .ok (if n = 0 then none else some (s1.paceAt vt + 2 ^ n * 1000), t) ∧
        (n ≠ 0 → ∃ x ∈ (t.tile ifc).tcache, x.entry = e ∧ x.expiry = s1.paceAt ifc + 2 ^ n * 1000)) ∧
    ((∃ f, Claim.holdsPage s1 ifc vt p f ∧ sameLeaf f e = false) → ∃ t, s.renewPage vt p = .ok (none, t) ∧ ∀ f, ¬Claim.holdsPage t ifc vt p f)) ∧
  (∀ (s : State) (x : TransEntry) (e : Word), let vt := s.ev.vt
    let now := s.paceAt vt
    let lease := 2 ^ pteLease x.entry * 1000
    (s.tile vt).tcache[s.ev.k]? = some x → (s.tile vt).uncertain = false → (∀ st, treeOf x.base = some st → (s.stack (dieOf vt) st).flight = false) →
    now ≤ x.expiry → 8 * (x.expiry - now) < lease → s.engineServed (dieOf vt) = true → s.leafAt (dieOf vt) x.base = .ok e →
    ∃ t, Claim.Acts .engineLeaseRenew s t s.cur Touch.none ∧ if sameLeaf e x.entry = true
      then (t.tile vt).tcache[s.ev.k]? = some { x with expiry := now + lease } else (t.tile vt).tcache = (s.tile vt).tcache.eraseIdx s.ev.k) ∧
  (∀ (s : State) (x : TransEntry) (f : Cause), let vt := s.ev.vt
    let now := s.paceAt vt
    (s.tile vt).tcache[s.ev.k]? = some x → (s.tile vt).uncertain = false → (∀ st, treeOf x.base = some st → (s.stack (dieOf vt) st).flight = false) →
    now ≤ x.expiry → 8 * (x.expiry - now) < 2 ^ pteLease x.entry * 1000 → s.engineServed (dieOf vt) = true → s.leafAt (dieOf vt) x.base = .error f →
    ∃ t, Claim.Acts .engineLeaseRenew s t s.cur Touch.none ∧ (t.tile vt).tcache = (s.tile vt).tcache.eraseIdx s.ev.k)
/-! Spur units (chapter 06). -/

namespace Sys2Proof.Claim

/-- Item o of n bytes of the configuration block at flat address a. -/
def blockItem (s : State) (a o n : Nat) : Nat := s.load (a + o) n

/-- The limits of Table 76, but for the fan-out table's pointer and the region. -/
def BlockOk (s : State) (logical : Bool) (a : Nat) : Prop :=
  let f := blockItem s a
  f 0x00 4 % 64 = 0 ∧ f 0x04 4 ≤ 0x100000 ∧ f 0x08 1 ≤ 3 ∧ f 0x09 1 < 16 ∧ f 0x0a 1 < 4 ∧ f 0x0b 1 = 0 ∧ (logical = false → f 0x18 4 ≠ 0) ∧
    f 0x1c 4 = 0 ∧ f 0x34 12 = 0 ∧ (f 0x0a 1 % 2 = 1 → spurHandlerOk (BitVec.ofNat 64 (f 0x28 8)) = true)

/-- The bank of a block: its fields, its counts at zero, its open tick at T0 (R256). -/
def Configured (s : State) (logical : Bool) (a : Nat) (b : Bank) : Prop :=
  let f := blockItem s a
  b.base = f 0x00 4 ∧ b.count = f 0x04 4 ∧ b.cls = f 0x09 1 ∧ (b.fire = true ↔ f 0x0a 1 % 2 = 1) ∧ (b.trapLate = true ↔ 2 ≤ f 0x0a 1) ∧
    b.refr = f 0x0c 4 ∧ b.thr.toNat = f 0x10 4 ∧ b.reset.toNat = f 0x14 4 ∧ b.period = f 0x18 4 ∧ b.t0 = f 0x30 4 ∧ b.h = f 0x30 4 ∧
    b.logical = logical ∧ b.late = 0 ∧ b.dropped = 0 ∧ b.fires = 0 ∧ b.errors = 0 ∧ b.seq = 0 ∧ b.queue = [] ∧ b.pend = none

/-- Where a neuron's record lies (R254), and that the bank lies in a pool. -/
def recordAt (s : State) (vt : Nat) (b : Bank) (n : Nat) : Nat := flatPool vt ((s.tile vt).plb0 * 65536 + b.base + 16 * n)
def inPool (s : State) (vt : Nat) (b : Bank) : Prop := vt < 512 ∧ (s.tile vt).plb0 ≤ 1024 ∧ b.base < 2 ^ 32 ∧ b.count ≤ 2 ^ 20

/-- The words of a neuron's record: state, last fire, refractory end, last update. -/
def record (s : State) (vt : Nat) (b : Bank) (n : Nat) : List Nat := (List.range 4).map (fun i => s.load (recordAt s vt b n + 4 * i) 4)

/-- The words of a neuron after an event is applied at tick t (Table 78), and whether it fires. -/
def applied (b : Bank) (e : SpurEvent) (t : Nat) (w : Nat → Nat) : List Nat × Bool :=
  let x := if e.kind = 0 then e.value.toNat else 0
  let z := gaitEval ⟨true, genNaN 6 (e.neuron % 1024) 0xf 4⟩ b.gait (w 0) x b.thr.toNat ((t + 2 ^ 32 - w 3) % 2 ^ 32)
  if e.kind = 1 then ([e.value.toNat, w 1, w 2, t], false)
  else if e.kind = 2 then ([b.reset.toNat, w 1, t, t], false)
  else if t < w 2 then ([w 0, w 1, w 2, t], false)
  else if fp32Gt z b.thr.toNat then ([b.reset.toNat, t, (t + b.refr) % 2 ^ 32, t], true)
  else ([z % 2 ^ 32, w 1, w 2, t], false)

/-- An event as it enters a queue (R262), and the late count then. -/
def queued (b : Bank) (e : SpurEvent) : SpurEvent := if e.tick < b.h then { e with tick := b.h } else e
def lateAfter (b : Bank) (e : SpurEvent) : Nat := if e.tick < b.h then min (b.late + 1) (2 ^ 32 - 1) else b.late

/-- No queued event stands at the open tick. -/
def idleTick (b : Bank) : Prop := ∀ e ∈ b.queue, e.tick ≠ b.h

end Sys2Proof.Claim

/-- spur.cfg checks its block, then discards the queued events into s[D], resets every record and the bank, or removes it for a count of 0
(R255, R256). spur.post sends the event that its operands hold and waits for the answer (R264, R265); spur.tick closes ticks in logical mode
and reads H; spur.read reads the items of Table 80; spur.drain waits for an empty buffer and reads the events dropped since (R264). An event
that arrives enters the queue, a late one at the open tick; it is refused for good without a bank or neuron, and for a retry by a full queue (R262, R263).
Applying an event changes the neuron's record as Table 78 says and no other byte; a neuron that fires is reset and begins to emit (R259, R260). A tick
closes by the pace when its time has come (R258), and a stopped close goes on: an emission that has no record left ends, with a task to the
handler core when the bank has one (R260, R261). The order of a fire's events and its task, and
that the task stands in the run queue when the close has ended, are the model's choices (logs 28, 42), as are the class of a posted event's packets and the
edges before a retry (log 21). -/
def Obligations.SpurUnitsRun : Prop :=
  (∀ (s s1 : State) (a : Nat), s.Ready .spurCfg → let c := s.cur.core
    let q : Req := ⟨s.opA, s.op.imm16.toInt, 64, 64, .read, [0, 1, 2, 3, 5], false, false⟩
    let f := Claim.blockItem s1 a
    let logical := (s.core c).detmode.getLsbD 2
    (s.tile c.vt).draining = false → (s.taken .spurCfg).coreAddr s.cur q = .ok (a, s1) →
    (¬Claim.BlockOk s1 logical a ∨ s.spurTable c (BitVec.ofNat 64 (f 0x20 8)) = none → ∃ s', Traps .spurCfg s (Cause.format.at_ q.ea) s') ∧
    (Claim.BlockOk s1 logical a → s.spurTable c (BitVec.ofNat 64 (f 0x20 8)) ≠ none →
      let room := ((s.tile c.vt).plb1 - (s.tile c.vt).plb0) * 65536
      (room < f 0x00 4 + 16 * f 0x04 4 → ∃ s', Traps .spurCfg s (Cause.space.at_ q.ea) s') ∧
      (f 0x00 4 + 16 * f 0x04 4 ≤ room → ∃ s', Completes .spurCfg s .next s' ∧
        (∀ b, (s.tile c.vt).bank = some b → s'.rs s.cur s.op.d = if s.op.d = 0 then 0 else BitVec.ofNat 64 b.queue.length) ∧
        ((s.tile c.vt).bank = none → s'.rs s.cur s.op.d = 0) ∧
        (f 0x04 4 = 0 → (s'.tile c.vt).bank = none ∧ s'.mem = s1.mem) ∧
        (f 0x04 4 ≠ 0 → ∃ b, (s'.tile c.vt).bank = some b ∧ Claim.Configured s1 logical a b ∧ b.core = c ∧
          b.gait = (s.core c).gaits.get (f 0x08 1) Gait.zero ∧
          (s1.memOk → Claim.inPool s c.vt b → ∀ n < b.count, Claim.record s' c.vt b n = [b.reset.toNat, 0xffffffff, b.t0, b.t0]))))) ∧
  (∀ (s : State) (a : Nat), s.Ready .spurCfg → let c := s.cur.core
    let f := Claim.blockItem s a
    (s.tile c.vt).draining = false → Claim.InTcm s s.op.imm16.toInt 64 64 .read a → Claim.BlockOk s ((s.core c).detmode.getLsbD 2) a →
    s.spurTable c (BitVec.ofNat 64 (f 0x20 8)) ≠ none → f 0x00 4 + 16 * f 0x04 4 ≤ ((s.tile c.vt).plb1 - (s.tile c.vt).plb0) * 65536 →
    ∃ s', Completes .spurCfg s .next s') ∧
  (∀ s : State, s.Ready .spurPost → let lo := s.opA.toNat
    let w := s.rs s.cur s.op.s2
    let hi := w.toNat
    let vt := hi / 2 ^ 20 % 2 ^ 9
    let kind := hi / 2 ^ 29 % 8
    if 4 < kind ∨ 2 ^ 56 ≤ hi then Traps .spurPost s (Cause.reservedField.at_ w) (s.taken .spurPost)
    else if 8 * s.nDies ≤ vt then Traps .spurPost s (Cause.space.at_ w) (s.taken .spurPost)
    else (s.ctx s.cur).isWithin = false → ∃ s' r, Waits .spurPost s (.answer s.nextId) s' ∧ s'.sends = s.sends ++ [r] ∧ r.id = s.nextId ∧
      r.ctx = s.cur ∧ r.spur = true ∧ r.left = 1 ∧ r.fail = none ∧ r.val = w ∧ s'.mem = s.mem ∧
      s'.net = s.net ++ [s.fixSite ⟨s.nextId + 1, s.cur.core.vt, vt, none, [], none, 0, s.nextId + 1, .spur
        ⟨lo % 2 ^ 32, s.cur.core.vt, hi / 2 ^ 32 % 2 ^ 24, kind, vt, hi % 2 ^ 20, BitVec.ofNat 32 (lo / 2 ^ 32)⟩ 0 none (some s.nextId)
        (s.core s.cur.core).launchId⟩ (dieOf s.cur.core.vt)]) ∧
  (∀ (row : Instr) (s : State), row = .spurTick ∨ row = .spurDrain → s.Ready row → (s.tile s.cur.core.vt).bank = none →
    Traps row s ⟨.space, 0, 2, 0, 0⟩ (s.taken row)) ∧
  (∀ (s : State) (b : Bank), s.Ready .spurTick → (s.tile s.cur.core.vt).bank = some b → let goal := s.opA.toNat % 2 ^ 32
    (b.logical = false ∨ (b.pend = none ∧ goal ≤ b.h) →
      Gives .spurTick s (((s.taken .spurTick).commit s.cur).ws s.cur s.op.d (BitVec.ofNat 64 b.h)) (Touch.reg s.op.d)) ∧
    (b.logical = true → b.pend = none → b.h < goal → b.queue = [] → s.outgoing s.cur.core.vt < 1024 → ∃ s', Gives .spurTick s s' (Touch.reg s.op.d) ∧
      s'.rs s.cur s.op.d = (if s.op.d = 0 then 0 else BitVec.ofNat 64 goal) ∧ (s'.tile s.cur.core.vt).bank = some { b with h := goal }) ∧
    (b.logical = true → b.pend = none → b.h < goal → 1024 ≤ s.outgoing s.cur.core.vt → Waits .spurTick s .spur ((s.taken .spurTick).commit s.cur))) ∧
  (∀ s : State, s.Ready .spurRead → if 7 < s.opA.toNat then Traps .spurRead s (Cause.offsetOverflow.at_ s.opA) (s.taken .spurRead)
    else GivesReg .spurRead s (match (s.tile s.cur.core.vt).bank with
      | none => 0
      | some b => BitVec.ofNat 64
          ([b.h, b.queue.length, b.late, b.dropped, b.fires, b.errors, b.count, s.outgoing s.cur.core.vt].getD s.opA.toNat 0))) ∧
  (∀ (s : State) (b : Bank), s.Ready .spurDrain → (s.tile s.cur.core.vt).bank = some b →
    (s.outgoing s.cur.core.vt ≠ 0 → Waits .spurDrain s .drain ((s.taken .spurDrain).commit s.cur)) ∧
    (s.outgoing s.cur.core.vt = 0 → ∃ s', Gives .spurDrain s s' (Touch.reg s.op.d) ∧
      s'.rs s.cur s.op.d = (if s.op.d = 0 then 0 else BitVec.ofNat 64 ((b.dropped + 2 ^ 32 - b.lastDrop) % 2 ^ 32)) ∧
      (s'.tile s.cur.core.vt).bank = some { b with lastDrop := b.dropped })) ∧
  (∀ (s : State) (p : Packet) (e : SpurEvent) (tries launch : Nat) (unit : Option (Nat × Nat)) (send : Option Nat), s.packet s.ev.k = some p →
    p.pl = .spur e tries unit send launch → s.landed p = true → let bank := (s.tile p.dst).bank
    (∀ b, bank = some b → e.neuron < b.count → b.queue.length < 8192 → ∃ t b', Claim.Acts .spurEventArrival s t s.cur Touch.none ∧
      (∀ q ∈ t.net, q.id ≠ s.ev.k) ∧ (t.tile p.dst).bank = some b' ∧ b'.queue = b.queue ++ [Claim.queued b e] ∧ b'.late = Claim.lateAfter b e ∧ b'.h = b.h ∧
      ∀ r ∈ s.sends, send = some r.id → ∃ r' ∈ t.sends, r'.id = r.id ∧ r'.left = r.left - 1 ∧ r'.fail = r.fail ∧
        r'.late = (r.late || (decide (e.tick < b.h) && b.trapLate))) ∧
    (∀ b, bank = some b → e.neuron < b.count → 8192 ≤ b.queue.length → tries < 8 → ∃ t q, Claim.Acts .spurEventArrival s t s.cur Touch.none ∧
      t.packet s.ev.k = some q ∧ q.pl = .spur e (tries + 1) unit send launch ∧ q.at_ = e.src % 2 ^ 9 ∧ q.retry = some (s.edges + 128 * (tries + 1)) ∧
      t.tiles = s.tiles) ∧
    (∀ u gen bu, bank = none ∨ (∃ b, bank = some b ∧ (b.count ≤ e.neuron ∨ (8192 ≤ b.queue.length ∧ 8 ≤ tries))) → unit = some (u, gen) →
      (s.tile u).bank = some bu → ∃ t, Claim.Acts .spurEventArrival s t s.cur Touch.none ∧ (∀ q ∈ t.net, q.id ≠ s.ev.k) ∧
        (t.tile u).bank = some (if bu.gen = gen then { bu with dropped := min (bu.dropped + 1) (2 ^ 32 - 1) } else bu))) ∧
  (∀ (s : State) (p : Packet) (e : SpurEvent) (tries launch due : Nat) (unit : Option (Nat × Nat)) (send : Option Nat), s.packet s.ev.k = some p →
    p.pl = .spur e tries unit send launch → p.retry = some due → ∃ t, Claim.Acts .spurEventRetry s t s.cur Touch.none ∧
      if due ≤ s.edges then ∃ q, t.packet s.ev.k = some q ∧ q.pl = p.pl ∧ q.retry = none ∧ q.at_ = p.at_ ∧ q.dst = p.dst ∧ q.seq = s.nextId
      else t = s) ∧
  (∀ (s : State) (vt t : Nat) (b : Bank) (e : SpurEvent), (s.tile vt).bank = some b → s.memOk → Claim.inPool s vt b → e.neuron < b.count →
    t < 2 ^ 32 → e.kind ∈ [0, 1, 2, 4] → let u := s.applyEvent vt b e t
    let r := Claim.applied b e t (fun i => (Claim.record s vt b e.neuron).getD i 0)
    let lo := Claim.recordAt s vt b e.neuron
    Claim.record u vt b e.neuron = r.1 ∧ Frame s u s.cur { Touch.none with lo := lo, hi := lo + 16 } ∧
      (r.2 = false → u.tiles = s.tiles) ∧
      (r.2 = true → ∃ b' m, (u.tile vt).bank = some b' ∧ b'.fires = min (b.fires + 1) (2 ^ 32 - 1) ∧ b'.pend = some m ∧ m.neuron = e.neuron ∧
        m.tick = t ∧ m.hdr = true)) ∧
  (∀ (s : State) (vt : Nat) (b : Bank) (e : SpurEvent), e.vt ≠ vt → e.vt < 8 * s.nDies → s.outgoing vt < 1024 → ∃ u, s.emitEvent vt b e = some u ∧
    (u.tile vt).bank = some { b with seq := (b.seq + 1) % 2 ^ 24 } ∧
    u.net = s.net ++ [s.fixSite ⟨s.nextId, vt, e.vt, none, [], none, b.cls, s.nextId, .spur e 0 (some (vt, b.gen)) none b.launch⟩ (dieOf vt)]) ∧
  (∀ (s : State) (b : Bank), let vt := s.ev.vt
    (s.tile vt).bank = some b → b.logical = false → b.pend = none → (s.tile vt).uncertain = false → (s.tile vt).stopped = false →
    let due := b.p0 + ((b.h + 2 ^ 32 - b.t0) % 2 ^ 32 + 1) * b.period
    (s.paceAt vt < due → exec .paceTickClose s = .next s) ∧
    (due ≤ s.paceAt vt → s.outgoing vt < 1024 → Claim.idleTick b → ∃ t, Claim.Acts .paceTickClose s t s.cur Touch.none ∧
      (t.tile vt).bank = some { b with h := (b.h + 1) % 2 ^ 32 }) ∧
    (∀ e, due ≤ s.paceAt vt → s.outgoing vt < 1024 → b.queue = [e] → e.tick = b.h → e.kind = 1 → s.memOk → Claim.inPool s vt b → e.neuron < b.count →
      b.h < 2 ^ 32 → let lo := Claim.recordAt s vt b e.neuron
      ∃ t, Claim.Acts .paceTickClose s t s.cur { Touch.none with lo := lo, hi := lo + 16 } ∧
        (t.tile vt).bank = some { b with queue := [], h := (b.h + 1) % 2 ^ 32 } ∧ t.load lo 4 = e.value.toNat ∧ t.load (lo + 12) 4 = b.h)) ∧
  (∀ (s : State) (b : Bank) (m : Emit), let vt := s.ev.vt
    (s.tile vt).bank = some b → b.pend = some m → m.hdr = false → m.left = 0 → b.token = none → (s.tile vt).stopped = false → (b.logical = true ∨ (s.tile vt).uncertain = false) → Claim.idleTick b →
    (b.fire = false → ∃ t, Claim.Acts .closeResume s t s.cur Touch.none ∧ (t.tile vt).bank = some { b with pend := none, h := (b.h + 1) % 2 ^ 32 } ∧
      t.net = s.net) ∧
    (b.fire = true → b.core.vt = vt → (∀ q ∈ s.net, q.id ≠ s.nextId ∧ ∀ x n d, q.pl = .msg x n d → x.src ≠ vt * 2 ^ 12 + 0xff * 2 ^ 4 + 0xf) →
      s.slotGone vt = false → s.preemptedOn b.launch vt = false → s.livePos (dieOf vt) b.core.pos = true → (s.core b.core).launch.isSome = true →
      (s.core b.core).launchId = b.launch → (s.core b.core).runq.length < 32 → (s.tile vt).overflow.any (fun o => o.1 == b.core.pos) = false →
      ∃ t x, Claim.Acts .closeResume s t s.cur Touch.none ∧ (t.tile vt).bank = some { b with pend := none, h := (b.h + 1) % 2 ^ 32 } ∧
        (t.core b.core).runq = (s.core b.core).runq ++ [x] ∧ x.handler = handlerAddr ((handlerField b.handler).getD 0) (dieOf vt) ∧ x.prio = 0 ∧
        x.cls = b.cls ∧ x.src = vt * 2 ^ 12 + 0xff * 2 ^ 4 + 0xf ∧
        x.payload = natLe 8 m.neuron ++ natLe 8 m.tick ++ natLe 8 m.state.toNat ++ List.replicate 24 0))
/-! Launches, pre-emption, pager cores (chapters 07 to 09). -/

namespace Sys2Proof.Claim

/-- The launch may enter tile vt, with its bounds and register backing taken in s' (R337). -/
def Enters (s s' : State) (l : Launch) (h : Share) (vt : Nat) : Prop :=
  l.ended = false ∧ l.desc.groups ≠ 0 ∧ vt ∈ l.desc.tiles h.vd ∧ vt ∉ h.entered ∧ vt ∉ h.saved ∧ s.nodeReady l = true ∧ s.tileOpen vt = true ∧
    (∀ p ∈ s.rectLive h.vd l.desc.rect, (s.core ⟨vt, p⟩).launch = none) ∧ s.controlled 0 l.id vt = false ∧
    ∃ s1, s.takeBounds l vt = some s1 ∧ s1.reserveBacking l vt = some s'

/-- Context 0 of a core as a launch enters it with a block of n groups from lo; `leader` heads its unit (Table 28, R342). -/
def Entered (t : State) (l : Launch) (c : CoreId) (leader lo n : Nat) : Prop :=
  let c0 : CtxId := ⟨c, 0⟩
  (t.ctx c0).st = .ready ∧ (t.ctx c0).pc = l.desc.entry ∧ (t.ctx c0).sup = false ∧ (t.ctx c0).mode = BitVec.ofNat 3 l.desc.rmode ∧
    (t.ctx c0).seed = BitVec.ofNat 32 l.desc.seed ^^^ BitVec.ofNat 32 (identC c0) ∧ t.rs c0 2 = 0x1ffc0 ∧ t.rs c0 20 = l.desc.args ∧
    t.rs c0 21 = BitVec.ofNat 64 (if n = 0 then leader else lo) ∧ t.rs c0 22 = BitVec.ofNat 64 n ∧
    t.rs c0 23 = BitVec.ofNat 64 l.desc.helpers ∧ t.rs c0 27 = BitVec.ofNat 64 l.id ∧
    (∀ r : BitVec 5, r.toNat ∉ [2, 20, 21, 22, 23, 27] → t.rs c0 r = 0) ∧ (t.core c).launchId = l.id ∧
    (t.core c).classEn = BitVec.ofNat 16 l.desc.classen ∧ (t.core c).waitLim = BitVec.ofNat 32 l.desc.waitlim ∧
    (t.core c).upcallVec = l.desc.upcall

/-- The completion status of a launch that ended without failures (Table 103). -/
def status (s : State) (l : Launch) : List Byte :=
  natLe 4 l.id ++ [if l.cancelled then 2 else if l.failCause = 0 then 0 else 1, BitVec.ofNat 8 l.failCause, BitVec.ofNat 8 l.failDetail, 0] ++
    natLe 4 (l.failTile.getD 0xffffffff) ++ [0, 0, 0, 0] ++ natLe 8 (s.paceAt (8 * l.die)) ++ natLe 8 l.dealt ++ List.replicate 16 0

/-- The last step of a launch's end: its node entry is free and its status is sent, when it asked for one (R338, R349). -/
def closed (s t : State) (l : Launch) : Prop :=
  let vt := l.desc.reply.toNat / 2 ^ 31 % 2 ^ 9
  (∀ n ∈ (t.die (lowBit l.desc.dies)).nodes, n.launch ≠ l.id) ∧ (l.desc.reply = 0 → t.net = s.net) ∧
    (l.desc.reply ≠ 0 → vt < 8 * s.nDies → ∃ m, t.net = s.net ++ [s.fixSite ⟨s.nextId, 8 * l.die, vt, none, [], none, 0, s.nextId, .msg m 0 none⟩ l.die] ∧ m.kind = 1 ∧
      m.reply = l.desc.reply.setWidth 41 ∧ m.payload = status s l)

/-- The share of a die in the launch with an identity. -/
def shareIn (s : State) (id vd : Nat) (h : Share) : Prop := ∃ l, s.launchById id = some l ∧ l.share vd = some h

/-- A saved context's record as it is read back: its scalar image, or with its frame. -/
def sameScalars (k u : Ctx) : Prop :=
  (∀ i, 0 < i → i < 32 → u.s.toArray.getD i 0 = k.s.toArray.getD i 0) ∧ (∀ i, 0 < i → i < 8 → u.p.toArray.getD i 0 = k.p.toArray.getD i 0) ∧
    u.pc = k.pc ∧ u.lpct = k.lpct ∧ u.mode = k.mode ∧ u.seed = k.seed ∧ u.ff = k.ff

/-- The entry of the fault queue is in service: a pager core has taken it (R366). -/
def inService (s : State) (vd slot : Nat) : Prop :=
  s.memOk ∧ vd < 64 ∧ slot < 255 ∧ s.entryField vd slot 16 1 = 0 ∧ s.entryField vd slot 17 1 = 2

/-- The address of an entry lies in a stack whose hand-over is in flight, or which has left the die since (R396). -/
def handing (s : State) (vd slot : Nat) : Bool :=
  let addr : Word := BitVec.ofNat 64 (s.entryField vd slot 0 8)
  pSpc addr == 5 && pPair addr && ((s.stack vd (pStack addr)).flight || (s.stack vd (pStack addr)).owner != vd)

/-- The save area of a control operation lies in the commons of the tile's die, and the record of the i-th tile in it holds no error. -/
def SaveArea (s : State) (c : Control) (vt i : Nat) : Prop :=
  let o := pOff c.save + tileRec i
  pSpc c.save = 3 ∧ pRel c.save = false ∧ unassigned c.save = 0 ∧ pDie c.save = dieOf vt ∧ dieOf vt < s.nDies ∧ o + 64 ≤ 0x7fe0000 ∧
    s.poisoned (flatCommons (dieOf vt) o) 64 = false

/-- What waited for an entry goes on: a command is tried again, or fails with a cause at the entry's address. -/
def served (s t : State) (vd slot : Nat) (fail : Option (Nat × Nat × Word)) : Prop :=
  let f := fun (c : Cmd) => if c.token = some (vd, slot) then { c with token := none, fail := fail } else c
  t.retiring = s.retiring.map f ∧
  ∀ vt, (t.tile vt).copyQ = (s.tile vt).copyQ.map f ∧ (t.tile vt).gatherQ = (s.tile vt).gatherQ.map f ∧
    (t.tile vt).collQ = (s.tile vt).collQ.map f ∧ (t.tile vt).digestQ = (s.tile vt).digestQ.map f

end Sys2Proof.Claim

/-- launch reads its descriptor, and traps LAUNCH_RESOURCE with the first check of R333 that fails, or PRIVILEGE; a valid one gets the dispatcher's
next identity, written to s[D], and its launch is listed; a control descriptor is queued (R333, R334, R368). launch.steal names the die to ask
first (R295). A launch that may enter a tile gives every core of each unit of that tile the values of Table 28, its leader the unit's block of the
first wave (R337, R342); shares and waves are split by weight, the remainder to the lowest (R340, R341). A core whose context 0 may
leave is outside (R153). A unit that has left is entered again with the lowest groups left (R343). A dispatcher without groups asks a die, which gives its
upper half; an empty sweep ends its asking (R345, R346). A launch of which nothing is left ends; each decrement then lowers its successor's counter or waits for it (R349), and after the last one the
status is sent and the node freed (R335, R338). These are the model's choices: the step of
static data, launch.steal and the decrement as an event of its own (log 25), what a failed entry gives back, a steal's share of a die not entered, and what
STATE reads when a unit is out (log 44). -/
def Obligations.LaunchesRun : Prop :=
  (∀ (s s1 : State) (b : List Byte), s.Ready .launch →
    (s.taken .launch).loadBytes s.cur ⟨s.opA, 0, 128, 64, .read, [0, 1, 2, 3, 5], false, true⟩ = .ok (b, s1) → let d := descOf b
    let vt := s.cur.core.vt
    let die := dieOf vt
    let bad := descBad b d s.nDies
    let free := fun (n : Nat) => n = 0 ∨ n = 3 ∧ (s.ctx s.cur).sup = true
    let refused := fun n => Traps .launch s ⟨.launchResource, s.opA, n, 0, 0⟩ s1
    (bad = true → refused 7) ∧
    (bad = false → d.dep = 3 → (s.ctx s.cur).sup = false → Traps .launch s ⟨.privilege, 0, 0, 0, 0⟩ s1) ∧
    (bad = false → free d.dep → d.helpers = 0 ∨ 10 < d.helpers → refused 3) ∧
    (bad = false → free d.dep → 0 < d.helpers → d.helpers ≤ 10 → d.detmode % 2 = 1 → s.feat0 6 = false → refused 6) ∧
    (bad = false → free d.dep → 0 < d.helpers → d.helpers ≤ 10 → d.detmode % 2 = 0 → d.plb1 < d.plb0 ∨ d.plb2 < d.plb1 → refused 4) ∧
    (∀ x s2, s1.validate vt (s.ctx s.cur).sup b = .ok (d, x, s2) →
      (d.dep = 3 → ∃ s' c, Completes .launch s .next s' ∧ s'.rs s.cur s.op.d = (if s.op.d = 0 then 0 else BitVec.ofNat 64 d.target) ∧
        s'.controls = s2.controls ++ [c] ∧ c.op = d.cop ∧ c.target = d.target ∧ c.tiles = d.allTiles ∧ c.save = d.depptr ∧ c.begun = false) ∧
      (d.dep ≠ 3 → let n := if ((s2.die die).launches + 1) % 2 ^ 26 = 0 then 1 else ((s2.die die).launches + 1) % 2 ^ 26
        ∃ s' l, Completes .launch s .next s' ∧
          s'.rs s.cur s.op.d = (if s.op.d = 0 then 0 else BitVec.ofNat 64 (n * 64 + die)) ∧ l ∈ s'.launches ∧ l.id = n * 64 + die ∧ l.desc = d ∧
          l.ended = false ∧ l.producers = x.producers ∧ l.succ = x.succ ∧ (s'.die die).launches = n))) ∧
  (∀ (s : State) (a : Nat), s.Ready .launch → let b := s.bytes a 128
    let d := descOf b
    Claim.InTcm s 0 128 64 .read a → descBad b d s.nDies = false → d.dep = 0 → 0 < d.helpers → d.helpers ≤ 10 → d.detmode % 2 = 0 →
    d.plb0 ≤ d.plb1 → d.plb1 ≤ d.plb2 → (∀ t ∈ d.allTiles, d.plb2 ≤ (s.tile t).ckbase ∧ (s.tile t).lost = false) → d.vec = false →
    (d.helpers + 1) * d.stack + d.static_ ≤ 0x1ffc0 → s.attest.below = false → (∀ vd ∈ d.dieList, s.rectLive vd d.rect ≠ []) →
    ∃ s', Completes .launch s .next s') ∧
  (∀ s : State, s.Ready .launchSteal → let n := s.opA.toNat % 64
    ∃ s', Gives .launchSteal s s' Touch.none ∧ (s'.die (dieOf s.cur.core.vt)).stealFirst = if n = 63 then none else some n) ∧
  (∀ (g : Nat) (ws : List Nat), 0 < ws.sum → (shareSizes g ws).length = ws.length ∧ (shareSizes g ws).sum = g ∧
    ∀ i < ws.length, let q := g * ws.getD i 0 / ws.sum
      q ≤ (shareSizes g ws).getD i 0 ∧ (shareSizes g ws).getD i 0 ≤ q + 1 ∧
      ∀ j < i, (shareSizes g ws).getD i 0 = q + 1 → (shareSizes g ws).getD j 0 = g * ws.getD j 0 / ws.sum + 1) ∧
  (∀ (s s' : State) (l : Launch) (h : Share), let vt := s.ev.vt
    s.launchById s.ev.k = some l → l.share (dieOf vt) = some h → s.ev.nums = [] → l.failed = [] → Claim.Enters s s' l h vt →
    ∃ t h', exec .launchEntry s = .next t ∧ Claim.shareIn t l.id (dieOf vt) h' ∧ vt ∈ h'.entered ∧ (t.tile vt).plb0 = l.desc.plb0 ∧
      (t.tile vt).plb1 = l.desc.plb1 ∧ (t.tile vt).plb2 = l.desc.plb2 ∧
      ∀ u ∈ s.firstDeal l (h.open_ l.desc.deal), u.vt = vt → ∀ p ∈ u.unit,
        if u.unit.head? = some p then Claim.Entered t l ⟨vt, p⟩ p u.lo u.n else Claim.Entered t l ⟨vt, p⟩ (u.unit.headD p) 0 0) ∧
  (∀ (s : State) (l : Launch) (h : Share), let vt := s.ev.vt
    s.launchById s.ev.k = some l → l.share (dieOf vt) = some h → s.ev.nums = [] → l.failed = [] → l.ended = false → l.desc.groups ≠ 0 →
    vt ∈ l.desc.tiles h.vd → vt ∉ h.entered → vt ∉ h.saved → s.nodeReady l = true → s.tileOpen vt = true →
    (∀ p ∈ s.rectLive h.vd l.desc.rect, (s.core ⟨vt, p⟩).launch = none) → s.controlled 0 l.id vt = false → (s.tile vt).plb0 = l.desc.plb0 →
    (s.tile vt).plb1 = l.desc.plb1 → (s.tile vt).plb2 = l.desc.plb2 → l.desc.vec = false →
    ∃ t h', exec .launchEntry s = .next t ∧ Claim.shareIn t l.id (dieOf vt) h' ∧ vt ∈ h'.entered ∧
      ∀ u ∈ s.firstDeal l (h.open_ l.desc.deal), u.vt = vt → ∀ p ∈ u.unit,
        if u.unit.head? = some p then Claim.Entered t l ⟨vt, p⟩ p u.lo u.n else Claim.Entered t l ⟨vt, p⟩ (u.unit.headD p) 0 0) ∧
  (∀ (s : State) (since : Nat) (i : Inst), let c := s.ev.core
    (s.ctx ⟨c, 0⟩).st = .waiting .exit since → s.standing ⟨c, 0⟩ = some i →
    (s.mayLeave c = false → exec .coreLeave s = .next s) ∧
    (s.mayLeave c = true → s.coreStopped c = false → (s.tile c.vt).draining = false → (s.core c).tandem = none → ∃ t, exec .coreLeave s = .next t ∧
      (t.core c).launch = none ∧ (t.ctx ⟨c, 0⟩).st = .outside ∧ t.mem = s.mem)) ∧
  (∀ (s s1 s2 : State) (l : Launch) (h : Share) (unit : List Nat) (lo len : Nat) (rest : List (Nat × Nat)), let vt := s.ev.vt
    let p := s.ev.j
    s.launchById s.ev.k = some l → l.share (dieOf vt) = some h → s.ev.nums = [] →
    (s.dieUnits l.desc (dieOf vt)).find? (fun u => u.1 == vt && u.2.head? == some p) = some (vt, unit) → l.ended = false → vt ∈ h.entered →
    vt ∉ h.saved → s.tileOpen vt = true → s.allOutside vt unit = true → l.failed = [] → s.controlled 0 l.id vt = false →
    s.controlled 2 l.id vt = false → s.takeBounds l vt = some s1 → s1.reserveBacking l vt = some s2 → h.ranges = (lo, len) :: rest → 0 < len →
    let n := min (max 1 ((h.ranges.map Prod.snd).sum * unit.length / (2 ^ l.desc.deal * h.weight))) len
    ∃ t h', exec .unitRefill s = .next t ∧ Claim.Entered t l ⟨vt, p⟩ p lo n ∧ Claim.shareIn t l.id (dieOf vt) h' ∧
      h'.ranges = if n < len then (lo + n, len - n) :: rest else rest) ∧
  (∀ (s : State) (l : Launch) (h : Share) (unit : List Nat) (lo len : Nat) (rest : List (Nat × Nat)), let vt := s.ev.vt
    let p := s.ev.j
    s.launchById s.ev.k = some l → l.share (dieOf vt) = some h → s.ev.nums = [] →
    (s.dieUnits l.desc (dieOf vt)).find? (fun u => u.1 == vt && u.2.head? == some p) = some (vt, unit) → l.ended = false → vt ∈ h.entered →
    vt ∉ h.saved → s.tileOpen vt = true → s.allOutside vt unit = true → l.failed = [] → s.controlled 0 l.id vt = false →
    s.controlled 2 l.id vt = false → (s.tile vt).plb0 = l.desc.plb0 → (s.tile vt).plb1 = l.desc.plb1 → (s.tile vt).plb2 = l.desc.plb2 →
    l.desc.vec = false → h.ranges = (lo, len) :: rest → 0 < len → ∃ t n, exec .unitRefill s = .next t ∧ Claim.Entered t l ⟨vt, p⟩ p lo n) ∧
  (∀ (l : Launch) (h : Share) (f : Nat), f ∈ l.shares.map (fun x => x.vd) → f ≠ h.vd → f ∉ h.tried → l.victimFor h (some f) = some f) ∧
  (∀ (s : State) (l : Launch) (h : Share), s.launchById s.ev.k = some l → l.share s.ev.vd = some h → l.ended = false → l.stateOf h = .stealing →
    h.asking = none → s.unitOut l h = true →
    (∀ v x, l.victimFor h (s.die s.ev.vd).stealFirst = some v → l.share v = some x → let g := if 2 ≤ x.held then x.held / 2 else 0
      ∃ t y z given, Claim.Acts .stealRequest s t s.cur Touch.none ∧ t.answers = s.answers ++ [⟨s.ev.k, s.ev.vd, v, given⟩] ∧
        (given.map Prod.snd).sum = g ∧ Claim.shareIn t s.ev.k v y ∧ y.held = x.held - g ∧
        (∀ lo n, x.ranges = [(lo, n)] → 1 < n → given = [(lo + n - n / 2, n / 2)] ∧ y.ranges = [(lo, n - n / 2)]) ∧
        Claim.shareIn t s.ev.k s.ev.vd z ∧ z.asking = some v ∧ v ∈ z.tried) ∧
    (l.victimFor h (s.die s.ev.vd).stealFirst = none → ∃ t z, Claim.Acts .stealRequest s t s.cur Touch.none ∧ t.answers = s.answers ∧
      Claim.shareIn t s.ev.k s.ev.vd z ∧ z.swept = true)) ∧
  (∀ (s : State) (h : Share) (a : Answer), Claim.shareIn s s.ev.k s.ev.vd h →
    s.answers.find? (fun a => a.launch == s.ev.k && a.thief == s.ev.vd) = some a → ∃ t z, Claim.Acts .stealAnswer s t s.cur Touch.none ∧
      t.answers = s.answers.erase a ∧ Claim.shareIn t s.ev.k s.ev.vd z ∧ z.asking = none ∧ z.held = h.held + (a.ranges.map Prod.snd).sum ∧
      (a.ranges = [] → z.ranges = h.ranges) ∧ (h.ranges = [] → ∀ x, a.ranges = [x] → z.ranges = [x])) ∧
  (∀ (s : State) (l : Launch), s.launchById s.ev.k = some l →
    (s.mayEnd l = false → l.ended = false ∨ l.stage ≠ 1 ∨ l.succ ≠ [] → exec .launchEnd s = .next s) ∧
    (s.mayEnd l = true → l.sums = [] → l.digests = [] → l.digestFail = 0 → l.settleFail = 0 → ∃ t l', Claim.Acts .launchEnd s t s.cur Touch.none ∧ t.launchById s.ev.k = some l' ∧
      l'.ended = true ∧ (l.succ = [] → l'.stage = 2 ∧ Claim.closed s t l) ∧
      (l.succ ≠ [] → l'.stage = 1 ∧ t.net = s.net ∧ (t.die (lowBit l.desc.dies)).nodes = (s.die (lowBit l.desc.dies)).nodes)) ∧
    (l.ended = true → l.stage = 1 → l.succ = [] → l.digestFail = 0 → l.settleFail = 0 → ∃ t l', Claim.Acts .launchEnd s t s.cur Touch.none ∧
      t.launchById s.ev.k = some l' ∧ l'.stage = 2 ∧ Claim.closed s t l)) ∧
  (∀ (s : State) (l : Launch) (r : Nat) (rest : List Nat), s.launchById s.ev.k = some l → l.ended = true → l.succ = r :: rest →
    let die := r / 2 ^ 12
    let idx := r % 2 ^ 12
    ∃ t l', Claim.Acts .graphDecrement s t s.cur Touch.none ∧ t.launchById s.ev.k = some l' ∧ l'.succ = rest ∧
      if (s.die die).nodes.any (fun n => n.index == idx) then
        (t.die die).nodes = (s.die die).nodes.map (fun n => if n.index = idx then ⟨n.index, n.launch, n.counter - 1⟩ else n)
      else (t.die die).pendDec.get idx 0 = min ((s.die die).pendDec.get idx 0 + 1) 4095) ∧
  (∀ (s : State) (id die idx preds : Nat), let t := s.installNode id die (idx, preds)
    (t.die die).nodes = (s.die die).nodes ++ [⟨idx, id, preds - (s.die die).pendDec.get idx 0⟩] ∧ (t.die die).pendDec.get idx 0 = 0)

/-- A pre-emption that begins commits the activations it stops (R369, R421). A tile whose contexts stand at their boundaries is saved: its records are
written to the save area, and its cores leave the launch (R369–R371); the records hold the scalar, vector and task state of the spec's
layouts, and read back as what was saved (Tables 10, 82, 114). A waiting request is withdrawn, and handed-over instructions that have not been performed are given up, to be
executed afresh (R201, R229). A resume puts the saved cores of a tile back, each context from its
record: a sleeper sleeps on, a held frame goes on at TRAPVEC in supervisor mode (R372, log 22). A cancel drops the cores, contexts and undispatched groups on the tiles it names (R373). A pager core takes the oldest
posted fault, resolves it with a leaf of its own or a cause, so that what waited is tried again or fails, then sends the notice and frees the entry (R366); a posted one of a stack in flight fails (R396). A
request that met an old slice map is resent without any change (R445). What stays outside the saved records and what a pager core's firmware answers are the model's readings (logs 26, 27, 36). -/
def Obligations.PreemptionAndPagers : Prop :=
  (∀ (s : State) (c : Control), s.controls.find? (fun c => c.op == 0 && c.target == s.ev.k && !c.begun) = some c →
    ∃ t, Claim.Acts .launchPreempt s t s.cur Touch.none ∧
      t.controls = s.controls.map (fun x => if x = c then { c with begun := true } else x) ∧
      ∀ vt ∈ c.tiles, ∀ d ∈ s.coresOn s.ev.k vt, ∀ i, 1 ≤ i → i ≤ 10 → (t.ctx ⟨d, i⟩).isWithin = false) ∧
  (∀ (s s1 : State) (c : Control) (l : Launch) (h : Share), let vt := s.ev.vt
    let id := s.ev.k
    let cs := s.coresOn id vt
    let i := c.all.idxOf vt
    s.control 0 id vt = some c → s.launchById id = some l → l.ended = false → l.share (dieOf vt) = some h → vt ∈ l.desc.tiles h.vd →
    (c.begun = false → exec .preemptionSave s = .next s) ∧
    (c.begun = true → s.saveReady vt cs = true → s.reportFirst cs = none → (l.cancelled = false ∨ cs ≠ []) → (∀ d ∈ cs, (s.core d).tandem = none) →
      let s0 := cs.foldl (fun s d => allCtx.foldl (fun s i => s.withdraw ⟨d, i⟩) s) s
      let late := (s.tile vt).overflow.filter (fun o => cs.any (fun d => d.pos == o.1))
      s0.writePieces vt c.save ((tileRec i, natLe 4 id ++ natLe 2 vt ++ natLe 2 0 ++ natLe 4 late.length ++ List.replicate 52 0) ::
        (tileRec i + 0x40, late.flatMap (fun o => o.2.image ⟨vt, o.1⟩)) ::
        cs.flatMap (fun d => (s0.corePieces d id l.desc.vec false).map (fun p => (coreRec i d.pos + p.1, p.2)))) = some s1 →
      ∃ t h', exec .preemptionSave s = .next t ∧ t.mem = s1.mem ∧ Claim.shareIn t id (dieOf vt) h' ∧ vt ∈ h'.saved ∧
        ∀ d ∈ cs, (t.core d).launch = none)) ∧
  (∀ (s : State) (c : Control) (l : Launch) (h : Share), let vt := s.ev.vt
    let id := s.ev.k
    let o := pOff c.save + tileRec (c.all.idxOf vt)
    s.control 0 id vt = some c → s.launchById id = some l → l.ended = false → l.cancelled = false → l.share (dieOf vt) = some h →
    vt ∈ l.desc.tiles h.vd → c.begun = true → s.coresOn id vt = [] → s.saveReady vt [] = true → s.memOk → Claim.SaveArea s c vt (c.all.idxOf vt) →
    ∃ t h', exec .preemptionSave s = .next t ∧ Claim.shareIn t id (dieOf vt) h' ∧ vt ∈ h'.saved ∧
      t.bytes (flatCommons (dieOf vt) o) 64 = natLe 4 id ++ natLe 2 vt ++ List.replicate 58 0) ∧
  (∀ (s : State) (c : Control) (l : Launch) (h : Share), let vt := s.ev.vt
    let id := s.ev.k
    let o := pOff c.save + tileRec (c.all.idxOf vt)
    s.control 1 id vt = some c → s.launchById id = some l → l.share (dieOf vt) = some h → vt ∈ h.saved → s.tileOpen vt = true →
    s.allOutside vt (s.rectLive h.vd l.desc.rect) = true → (∀ p ∈ l.parkedCores, p.1 / 192 ≠ vt) → (∀ p ∈ l.parked, p.gang = []) →
    Claim.SaveArea s c vt (c.all.idxOf vt) → s.load (flatCommons (dieOf vt) (o + 8)) 4 = 0 → (s.tile vt).overflow.length ≤ 8192 →
    ∃ t h', exec .launchResume s = .next t ∧ Claim.shareIn t id (dieOf vt) h' ∧ vt ∉ h'.saved ∧ t.mem = s.mem) ∧
  (∀ (s : State) (c : CtxId), s.pendingSeq c = [] → (∀ k since, (s.ctx c).st ≠ .waiting (.gang k) since) → (s.ctx c).gdone = 0 →
    let t := s.withdraw c
    t.ctxs = s.ctxs ∧ t.cores = s.cores ∧ t.mem = s.mem) ∧
  (∀ (s : State) (c : CtxId) (q : SeqEntry) (r : List SeqEntry), s.pendingSeq c = q :: r →
    let k := (s.unhand c).ctx c
    k.pc = q.pc ∧ k.entry = q.entry ∧ k.line = q.line ∧ k.count = q.count ∧ ∀ x ∈ ((s.unhand c).core c.core).vseq, x.ctx ≠ c.ctx) ∧
  (∀ (k k0 : Ctx) (asleep : Bool) (pad : List Byte), let b := k.image k.pc.toNat asleep ++ pad
    let u := k0.ofImage b
    Claim.sameScalars k u ∧ (k.cls < 16 → k.prio < 4 → u.cls = k.cls ∧ u.prio = k.prio) ∧ (b.getD 287 0).getLsbD 1 = asleep) ∧
  (∀ k k0 : Ctx, let u := k0.ofVector k.vectorImage
    u.v = k.v ∧ u.a = k.a ∧ u.g = k.g) ∧
  (∀ (t : Task) (c : CoreId) (h : BitVec 40), t.payload.length = 48 → t.reply.toNat < 2 ^ 41 → t.src < 2 ^ 21 → t.cls < 16 → t.prio < 4 →
    c.pos < 2 ^ 8 → c.vt < 2 ^ 9 → handlerField t.handler = some h → let u := taskOf (t.image c) c t.launch t.seq t.hb
    u.payload = t.payload ∧ u.reply = t.reply ∧ u.src = t.src ∧ u.cls = t.cls ∧ u.prio = t.prio ∧ u.handler = handlerAddr h (dieOf c.vt)) ∧
  (∀ (q : Core) (l : Launch) (c : CoreId) (b : List Byte) (n : Nat), n < 256 → let r := (coreOf q l c b).reinAt n
    r.v = BitVec.ofNat 16 (leNat ((b.drop (0x40 + 2 * n)).take 2)) ∧ r.e = (leNat ((b.drop 0x240).take 32)).testBit n) ∧
  (∀ (s : State) (c : CtxId) (p : Parked) (k : Ctx) (asleep : Bool) (pad : List Byte), let b := k.image k.pc.toNat asleep
    let t := s.restoreCtx c p (b ++ pad) none
    (p.frame = false → Claim.sameScalars k (t.ctx c) ∧ (t.ctx c).sup = false ∧ (t.ctx c).causeCode = 0 ∧
      (∀ w since, p.st = .waiting (.sleep w) since →
        (t.ctx c).st = if asleep || w then .waiting (.sleep w) (s.edgesAt c.core.vt - p.waited) else .ready) ∧
      (∀ n w since, p.st = .waiting (.timed n w) since → (t.ctx c).st = .waiting (.timed n w) (s.edgesAt c.core.vt - p.waited)) ∧
      ((∀ w since, p.st ≠ .waiting (.sleep w) since) → (∀ n w since, p.st ≠ .waiting (.timed n w) since) → (t.ctx c).st = .ready)) ∧
    (p.frame = true → let u := s.restoreCtx c p (b ++ List.replicate 30 0 ++ k.frameImage) none
      (u.ctx c).sup = true ∧ (u.ctx c).pc = (s.core c.core).trapVec ∧ (u.ctx c).entry = .vector ∧ (u.ctx c).st = .ready ∧
        (u.ctx c).cause = k.cause &&& 0xff03ff ∧ (u.ctx c).trapPc = k.trapPc ∧ (u.ctx c).trapVal = k.trapVal ∧
        (u.ctx c).trapTag = k.trapTag &&& 0x7ffffffffffffff)) ∧
  (∀ (s s1 : State) (c : Control) (l : Launch) (h : Share), let vt := s.ev.vt
    let id := s.ev.k
    let i := c.all.idxOf vt
    s.control 1 id vt = some c → s.launchById id = some l → l.share (dieOf vt) = some h → vt ∈ h.saved → s.tileOpen vt = true →
    s.allOutside vt (s.rectLive h.vd l.desc.rect) = true → (∀ p ∈ l.parked, p.gang = []) →
    let mine := l.parkedCores.filter (fun p => decide (p.1 / 192 = vt))
    (if mine.isEmpty then some s else s.takeBounds l vt).bind (fun s =>
      (s.restoreCores l vt c.save i mine).bind (fun s => s.restoreOverflow l vt c.save i)) = some s1 →
    ∃ t h', exec .launchResume s = .next t ∧ t.ctxs = s1.ctxs ∧ t.cores = s1.cores ∧ Claim.shareIn t id (dieOf vt) h' ∧ vt ∉ h'.saved) ∧
  (∀ (s : State) (c : Control) (l : Launch), s.controls.find? (fun c => c.op == 2 && c.target == s.ev.k) = some c → s.launchById s.ev.k = some l →
    l.ended = false → ∃ t l', exec .launchCancel s = .next t ∧ t.launchById s.ev.k = some l' ∧ l'.cancelled = true ∧
      (s.controls.count c = 1 → c ∉ t.controls) ∧ t.mem = s.mem ∧
      (∀ x ∈ t.controls, x.op ≠ 2 → x.target = s.ev.k → ∀ vt ∈ c.tiles, (∃ h ∈ l.shares, vt ∈ l.desc.tiles h.vd) → vt ∉ x.tiles) ∧
      ∀ vt ∈ c.tiles, (∃ h ∈ l.shares, vt ∈ l.desc.tiles h.vd) →
        (∀ d ∈ s.coresOn s.ev.k vt, (t.core d).launch = none) ∧
        ∀ h ∈ l'.shares, h.vd = dieOf vt → h.held = 0 ∧ h.wave = some 0 ∧ vt ∈ h.entered ∧ vt ∉ h.saved) ∧
  (∀ (l : Launch) (n : Nat), (l.cancelled = true → (l.deals n).dealt = l.dealt) ∧ (l.cancelled = false → (l.deals n).dealt = l.dealt + n)) ∧
  (∀ s : State, let vd := s.ev.vd
    let slot := s.ev.k
    let a := faultSlot vd slot + 17
    let addr := s.entryField vd slot 0 8
    let now := { Touch.none with lo := a, hi := a + 1 }
    (s.memOk → vd < 64 → s.pagerNext vd slot = true → Claim.handing s vd slot = false → ∃ t, Claim.Acts .pagerService s t s.cur now ∧ t.byte a = 2) ∧
    (Claim.inService s vd slot → s.ev.flag = true → s.ev.flag2 = false → s.undrained vd slot = false →
      ∃ t, Claim.Acts .pagerService s t s.cur now ∧ t.byte a = 3 ∧ Claim.served s t vd slot none) ∧
    (Claim.inService s vd slot → s.ev.flag = true → s.ev.flag2 = true → s.physReach vd s.ev.m = true → s.undrained vd slot = false →
      ∃ t, exec .pagerService s = .next t ∧ t.byte a = 3 ∧ t.bytes (s.flatPhys vd s.ev.m) 8 = natLe 8 s.ev.w.toNat ∧
        (∀ c r, t.rs c r = s.rs c r) ∧ Claim.served s t vd slot none) ∧
    (Claim.inService s vd slot → s.ev.flag = false → s.ev.flag2 = false →
      s.ev.j ∈ [0x09, 0x0a, 0x0b, 0x0c, 0x0d, 0x12] → ∃ t, exec .pagerService s = .next t ∧
      (∀ c r, t.rs c r = s.rs c r) ∧ Claim.served s t vd slot (some (s.ev.j, 0, BitVec.ofNat 64 addr))) ∧
    (s.memOk → vd < 64 → slot < 255 → s.postedFault vd slot = true → Claim.handing s vd slot = true → ∃ t, exec .pagerService s = .next t ∧
      (∀ c r, t.rs c r = s.rs c r) ∧ Claim.served s t vd slot (some (0x0d, 0, BitVec.ofNat 64 addr))) ∧
    (s.memOk → vd < 64 → slot < 255 → s.entryField vd slot 16 1 = 0 → s.entryField vd slot 17 1 = 3 →
      ∃ t, Claim.Acts .pagerService s t s.cur now ∧ t.byte a = 0 ∧
      ∀ l, let c := (ctxOfIdent (s.entryField vd slot 12 3)).core
        s.entryLaunch vd slot c = some l → c.pos ≤ 191 → l.desc.notice ≠ 0 →
        ∃ q ∈ t.net, ∃ m, q.pl = .msg m 0 none ∧ q.dst = c.vt ∧ m.pos = c.pos ∧ m.prio = 3 ∧ m.cls = l.desc.nclass ∧
          m.payload = natLe 8 slot ++ natLe 8 addr ++ natLe 8 ((s.die vd).service.get slot 0) ++ List.replicate 24 0)) ∧
  (∀ s : State, exec .remapNack s = .next s)
/-! The Farrier (chapter 10). -/

namespace Sys2Proof.Claim

/-- A step of the Farrier of a die: no register of any context changes, and of memory only the die's Farrier block and slice map. -/
def Farriers (row : Instr) (s t : State) : Prop :=
  Acts row s t s.cur { Touch.none with lo := flatCommons s.ev.vd 0x7fe8000, hi := flatCommons s.ev.vd 0x7fea600 }

/-- A rotation of the die is at STATE n, with victim and target two sites of the die and a slot of it. -/
def Rotates (s : State) (r : Rot) (n : Nat) : Prop :=
  s.memOk ∧ s.ev.vd < 64 ∧ (s.die s.ev.vd).rot = some r ∧ s.fState s.ev.vd = n ∧ r.slot < 8 ∧ r.victim < 9 ∧ r.target < 9 ∧ r.victim ≠ r.target

/-- Sites of a die that a test leaves in use (R411): enough live cores for the harvest presented. -/
def enough (s : State) (k : Nat) : Prop := s.liveCount s.ev.vd ≤ 192 - ((s.info s.ev.vd).deadAt k).eraseDups.length

/-- Counter of a site record for exposure bin i (Table 129): voltages, then temperatures. -/
def expo (s : State) (k i : Nat) : Nat := s.load (siteAddr s.ev.vd k + 24 + 4 * i) 4

/-- The bin a site stood in, of voltage or temperature. -/
def binOf (s : State) (k i : Nat) : Nat := match s.ev.pairs.find? (fun x => x.1 == k) with | some x => x.2.getD i 0 % 8 | none => 0

end Sys2Proof.Claim

/-- The Farrier comes to its pace slot in every period, and arms a rotation of the site it chooses when R404 allows one (R403, R404). The
rotation runs through the steps of Table 124: the drained tile stops, every router names the target, the packets that wait at the victim move, the
target resumes, the victim leaves and enters test; a trap that is due comes before the drain, and a drain that takes longer than 30 µs is given
up (R401, R406–R409). A site that passes its
test is the spare, one that fails is retired in fuses (R411–R413); a maintenance request tests a site of a tile without launches, and a
site that fails it is lost (R414, R415). These are the model's choices: ties between sites go to the lowest
(log 30), and what the event log and STATE show of a rotation and a test (log 29). -/
def Obligations.FarrierRotates : Prop :=
  (∀ (s : State) (v : Nat), s.victim s.ev.vd = some v → s.sst s.ev.vd v = 0 ∧ v < 9 ∧
    ((s.die s.ev.vd).first = none → (∀ k ∈ s.serving s.ev.vd, s.siteWear s.ev.vd k ≤ s.farrier s.ev.vd 3) →
      ∀ k ∈ s.serving s.ev.vd, s.sitePass s.ev.vd v ≤ s.sitePass s.ev.vd k)) ∧
  (∀ s : State, let vd := s.ev.vd
    let now := s.paceAt (8 * vd)
    let period := now / 60000000000
    (now / 937500000 % 64 ≠ vd ∨ period < (s.die vd).armed → exec .rotationArm s = .next s) ∧
    (now / 937500000 % 64 = vd → (s.die vd).armed ≤ period → s.mayRotate vd = false → ∃ t, exec .rotationArm s = .next t ∧
      (t.die vd).rot = (s.die vd).rot ∧ t.mem = s.mem) ∧
    (∀ v, now / 937500000 % 64 = vd → (s.die vd).armed ≤ period → s.memOk → s.mayRotate vd = true → s.victim vd = some v → (s.tile (512 + vd)).uncertain = false →
      let slot := s.siteSlot vd v
      let spare := s.fStatus vd 4 4
      (s.tile (8 * vd + slot)).uncertain = false → ∃ t, Claim.Farriers .rotationArm s t ∧ (t.die vd).rot = some ⟨slot, v, spare, now⟩ ∧
        t.fState vd = 1 ∧ t.fStatus vd 8 4 = v ∧ t.sst vd v = 5 ∧ t.sst vd spare = 6 ∧ (t.tile (8 * vd + slot)).draining = true)) ∧
  (∀ (s : State) (r : Rot), Claim.Rotates s r 1 → let vt := 8 * s.ev.vd + r.slot
    (s.tile vt).stopped = false →
    ((∀ c ∈ s.tileCores vt, (s.core c).bar.release = false ∧ ∀ i ≤ 10, s.drainable ⟨c, i⟩ = true) →
      s.inService s.ev.vd ≤ s.pagerCores s.ev.vd → s.paceAt (8 * s.ev.vd) < r.since + 30000 →
      (s.dueFirst (s.tileCores vt) = none → ∃ t, Claim.Farriers .drain s t ∧ (t.tile vt).stopped = true) ∧
      (∀ t, s.dueFirst (s.tileCores vt) = some t → exec .drain s = .next t)) ∧
    (r.since + 30000 ≤ s.paceAt (8 * s.ev.vd) → exec .drain s = .next s) ∧
    (s.paceAt (8 * s.ev.vd) < r.since + 30000 → exec .abort s = .next s) ∧
    (r.since + 30000 ≤ s.paceAt (8 * s.ev.vd) → ∃ t, Claim.Farriers .abort s t ∧ (t.die s.ev.vd).rot = some r ∧ (t.tile vt).draining = false ∧
      t.fState s.ev.vd = 2)) ∧
  (∀ (s : State) (r : Rot), Claim.Rotates s r 2 → ∃ t, Claim.Farriers .abort s t ∧ (t.die s.ev.vd).rot = none ∧
      t.fState s.ev.vd = 0 ∧ t.sst s.ev.vd r.victim = 0 ∧ t.sst s.ev.vd r.target = 1 ∧ t.fStatus s.ev.vd 8 4 = 0xf) ∧
  (∀ (s : State) (r : Rot), Claim.Rotates s r 1 → (s.tile (8 * s.ev.vd + r.slot)).stopped = true → r.slot < (s.die s.ev.vd).bridle.length →
    ∃ t, Claim.Farriers .newMap s t ∧ t.fState s.ev.vd = 3 ∧ t.curSite s.ev.vd r.slot = r.target ∧ t.siteSlot s.ev.vd r.target = r.slot ∧
      t.siteSlot s.ev.vd r.victim = 0xf ∧ t.load (flatCommons s.ev.vd (0x7fe8010 + r.slot)) 1 = r.target) ∧
  (∀ (s : State) (r : Rot), Claim.Rotates s r 3 → let vt := 8 * s.ev.vd + r.slot
    (s.onWay vt r.victim = true → exec .copyState s = .next s) ∧
    (s.onWay vt r.victim = false → ∃ t, Claim.Farriers .copyState s t ∧ t.fState s.ev.vd = 4 ∧ (t.tile vt).tcache = [] ∧
      t.net = s.net.map (fun p => if p.dst = vt ∧ p.site = some r.victim then { p with site := some r.target } else p))) ∧
  (∀ (s : State) (r : Rot), Claim.Rotates s r 4 → let vt := 8 * s.ev.vd + r.slot
    (s.heldAt vt = [] → ∃ t, Claim.Farriers .resumeTile s t ∧ t.fState s.ev.vd = 5 ∧ t.sst s.ev.vd r.target = 0 ∧ (t.tile vt).stopped = false ∧
      (t.tile vt).draining = false ∧ (∀ k < 9, t.partner s.ev.vd k ≠ s.partner s.ev.vd k → t.siteField s.ev.vd k 4 1 = 0) ∧
      (r.slot < (s.die s.ev.vd).bridle.length → natBits ((t.die s.ev.vd).bridle.getD r.slot 0).toNat 9 1 = 0)) ∧
    ∀ (p : Packet) (m : Msg) (tries : Nat), let c : CoreId := ⟨vt, m.pos⟩
      s.heldAt vt = [p] → s.packet p.id = some p → p.pl = .msg m tries none → m.kind = 0 → m.mc = false → s.msgBehind p.id m vt = false →
      s.refusal m c = none → (s.core c).runq.length < 32 → (s.tile vt).overflow.any (fun o => o.1 == m.pos) = false →
      ∃ t x, exec .resumeTile s = .next t ∧ t.fState s.ev.vd = 5 ∧ (t.core c).runq = (s.core c).runq ++ [x] ∧ x.src = m.src) ∧
  (∀ (s : State) (r : Rot), Claim.Rotates s r 5 → r.slot < (s.die s.ev.vd).bridle.length → ∃ t, Claim.Farriers .retire s t ∧
    t.fState s.ev.vd = 6 ∧ let e := ((t.die s.ev.vd).bridle.getD r.slot 0).toNat
    natBits e 8 1 = 0 ∧ natBits e 4 4 = 0xf ∧ e % 2 ^ 4 = ((s.die s.ev.vd).bridle.getD r.slot 0).toNat % 2 ^ 4) ∧
  (∀ (s : State) (r : Rot), Claim.Rotates s r 6 → ∃ t, Claim.Farriers .retire s t ∧ t.fState s.ev.vd = 0 ∧ t.sst s.ev.vd r.victim = 2 ∧
    t.fStatus s.ev.vd 8 4 = 0xf ∧ t.fStatus s.ev.vd 16 32 = min (s.fStatus s.ev.vd 16 32 + 1) (2 ^ 32 - 1)) ∧
  (∀ (s : State) (r : Rot), s.memOk → s.ev.vd < 64 → (s.die s.ev.vd).rot = some r → let vd := s.ev.vd
    let k := r.victim
    k < 9 → s.sst vd k = 2 → s.worn vd k = false →
    (s.ev.flag = true → s.ev.nums = [] → Claim.enough s k → ∃ t, exec .test s = .next t ∧ (t.die vd).rot = none ∧ t.sst vd k = 1 ∧
      t.siteField vd k 3 1 = 0 ∧ t.sitePass vd k = s.paceAt (8 * vd) % 2 ^ 64 ∧ t.fStatus vd 4 4 = k ∧ ∀ c q, t.rs c q = s.rs c q) ∧
    (s.ev.flag = false → ∃ t, exec .test s = .next t ∧ (t.die vd).rot = none ∧ t.sst vd k = 3 ∧
      (t.fuses.get ((s.info vd).phys * 16 + k) ⟨false, []⟩).retired = true ∧ ∀ c q, t.rs c q = s.rs c q)) ∧
  (∀ s : State, s.memOk → s.ev.vd < 64 → let vd := s.ev.vd
    let k := s.fControl vd 4 4
    let slot := s.siteSlot vd k
    s.fControl vd 1 1 = 1 → s.fState vd ≠ 7 →
    (s.fState vd = 0 → (s.die vd).rot = none → k < 9 → s.fStatus vd 13 1 = 1 → s.sst vd k = 0 → slot < 8 → s.resident (8 * vd + slot) = false → ∃ t, Claim.Farriers .maint s t ∧
      t.sst vd k = 2 ∧ t.fState vd = 7 ∧ (t.tile (8 * vd + slot)).maint = true) ∧
    (s.fStatus vd 13 1 = 0 ∨ 8 ≤ slot ∨ s.resident (8 * vd + slot) = true → ∃ t, Claim.Farriers .maint s t ∧ t.fControl vd 1 1 = 0 ∧
      t.fState vd = s.fState vd)) ∧
  (∀ (s : State) (k : Nat), s.memOk → s.ev.vd < 64 → let vd := s.ev.vd
    let slot := s.siteSlot vd k
    let vt := 8 * vd + slot
    s.fState vd = 7 → (List.range 9).find? (fun k => s.sst vd k == 2) = some k → slot < 8 →
    (s.ev.flag = true → s.ev.nums = [] → Claim.enough s k → ∃ t, exec .maintEnd s = .next t ∧ t.fState vd = 0 ∧ t.fControl vd 1 1 = 0 ∧
      t.sst vd k = 0 ∧ (t.tile vt).maint = false ∧ ∀ c q, t.rs c q = s.rs c q) ∧
    (s.ev.flag = false → ∃ t, exec .maintEnd s = .next t ∧ t.fState vd = 0 ∧ t.sst vd k = 3 ∧ (t.tile vt).lost = true ∧
      t.siteSlot vd k = 0xf ∧ ∀ c q, t.rs c q = s.rs c q))

/-- Supervisor software outside the mesh stores the fields of the Farrier words that it may (R404, R416, R418, R365, Table 131); CKOFF clears every COV.
The exposure counts of each site rise by the second and saturate, the wear index is their weighted sum, and each hour they are written to fuses (R412).
An epoch copies the lines of a tile's scratchpad that are marked, or all of them, into a journal, checks it, commits, and writes it into its partner's
image (R417, R418). A site that is lost gives its slot to the spare, with its
scratchpad restored from the image (R420). A copy with an error whose source is clean is dropped and counted (R429). The scrubber counts what it corrects and poisons what it cannot (R419, R424); an error in state private to a context is found there: in a latch
when it is read, else at once (R423, R244). A site's map takes presented positions to distinct live cores of its own (R33). The kind of a scrub entry is
a free value (log 29), and where a journal lies and the bridle entry after a loss are the model's choices (log 46). -/
def Obligations.FarrierKeepsTheDie : Prop :=
  (∀ s : State, s.memOk → s.ev.vd < 64 → let vd := s.ev.vd
    let w := s.farrier vd 0
    w < 2 ^ 8 → w / 2 ^ 3 % 2 = 0 → w / 2 ^ 4 ≤ 8 → s.acts = [] →
    (∃ t, Claim.Farriers .farrierHold s t ∧ t.farrier vd 0 = putBits w 0 1 (if s.ev.flag then 1 else 0)) ∧
    (∃ t, Claim.Farriers .ckoff s t ∧ t.farrier vd 0 = putBits w 2 1 (if s.ev.flag then 1 else 0) ∧
      (s.ev.flag = true → ∀ k < 9, t.siteField vd k 4 1 = 0))) ∧
  (∀ s : State, s.memOk → s.ev.vd < 64 → let vd := s.ev.vd
    (s.farrier vd 1 < 2 ^ 54 → s.fStatus vd 12 1 = 0 → ∃ t, Claim.Farriers .suspectClear s t ∧ t.farrier vd 1 = putBits (s.farrier vd 1) 14 1 0) ∧
    (s.ev.k < 8 → ∃ t, Claim.Farriers .counterClear s t ∧ t.load (flatCommons vd (0x7fe8020 + 8 * s.ev.k)) 8 = 0) ∧
    (let a := flatCommons vd 0x7fe1fe0
     ∃ t, Claim.Acts .faultCountClear s t s.cur { Touch.none with lo := a, hi := a + 8 } ∧ t.load a 8 = 0)) ∧
  (∀ s : State, s.memOk → s.ev.vd < 64 → let vd := s.ev.vd
    (s.paceAt (8 * vd) / 1000000000 ≤ (s.die vd).secs → exec .exposureCount s = .next s) ∧
    ((s.die vd).secs < s.paceAt (8 * vd) / 1000000000 → ∃ t, Claim.Farriers .exposureCount s t ∧ (t.die vd).secs = (s.die vd).secs + 1 ∧
      ∀ k < 9, (∀ i < 16, Claim.expo t k i =
          if i = Claim.binOf s k 0 ∨ i = 8 + Claim.binOf s k 1 then min (Claim.expo s k i + 1) (2 ^ 32 - 1) else Claim.expo s k i) ∧
        t.siteWear vd k = ((List.range 8).map (fun i => 2 ^ i * (Claim.expo t k i + Claim.expo t k (8 + i)))).sum) ∧
    (s.paceAt (8 * vd) / 3600000000000 ≤ (s.die vd).hours → exec .wearFuseWrite s = .next s) ∧
    ((s.die vd).hours < s.paceAt (8 * vd) / 3600000000000 → ∃ t, Claim.Acts .wearFuseWrite s t s.cur Touch.none ∧
      (t.die vd).hours = (s.die vd).hours + 1 ∧
      ∀ k < 9, (t.fuses.get ((s.info vd).phys * 16 + k) ⟨false, []⟩).bins = s.bytes (siteAddr vd k + 16) 72)) ∧
  (∀ (s : State) (j : Nat), s.memOk → s.ev.vd < 64 → let vd := s.ev.vd
    let k := s.ev.k
    let vt := 8 * vd + s.siteSlot vd k
    let pt := 8 * vd + s.siteSlot vd j
    let lines := ((s.tile vt).plb1 - (s.tile vt).plb0) * 1024
    let first := flatPool vt ((s.tile vt).plb0 * 65536) / 64
    let image := flatPool pt ((s.tile pt).ckbase * 65536 + 0x80000)
    k < 9 → s.partner vd k = some j → s.siteSlot vd k < 8 → s.siteSlot vd j < 8 → (s.tile vt).plb1 ≤ 1024 →
    s.fControl vd 2 1 = 0 → s.fState vd ∉ [1, 3, 4] →
    ((s.die vd).journals.find k = none →
      (s.ev.flag2 = false → s.paceAt (8 * vd) < (s.die vd).epochs.get k 0 + 1000000 → exec .checkpointEpoch s = .next s) ∧
      (s.ev.flag2 = true ∨ (s.die vd).epochs.get k 0 + 1000000 ≤ s.paceAt (8 * vd) →
        (s.ckptFits vt pt = false → ∃ t, Claim.Farriers .checkpointEpoch s t ∧ t.siteField vd k 4 1 = 0) ∧
        (s.ckptFits vt pt = true → ∃ t q, Claim.Acts .checkpointEpoch s t s.cur Touch.none ∧ (t.die vd).journals.find k = some q ∧
          q.checked = false ∧ q.committed = false ∧ (∀ x ∈ q.lines, x.1 < lines ∧ x.2.1 = s.bytes (64 * (first + x.1)) 64 ∧ x.2.2 = crc32c x.2.1) ∧
          ∀ i < lines, (∃ x ∈ q.lines, x.1 = i) ↔ (s.siteField vd k 4 1 = 1 → first + i ∈ s.marks)))) ∧
    (∀ q, (s.die vd).journals.find k = some q →
      (q.checked = false → ∃ t, Claim.Farriers .checkpointEpoch s t ∧ (t.die vd).journals.find k = some { q with checked := true }) ∧
      (q.checked = true → q.committed = false → ∃ t, Claim.Farriers .checkpointEpoch s t ∧ t.siteField vd k 4 1 = 1 ∧
        (t.die vd).journals.find k = some { q with committed := true }) ∧
      (q.checked = true → q.committed = true → (∀ x ∈ q.lines, x.1 < lines ∧ x.2.1.length = 64) → (q.lines.map Prod.fst).Nodup →
        s.ckptFits vt pt = true → ∃ t, Claim.Acts .checkpointEpoch s t s.cur { Touch.none with lo := image, hi := image + 64 * lines } ∧
          (t.die vd).journals.find k = none ∧ (∀ x ∈ q.lines, t.bytes (image + 64 * x.1) 64 = x.2.1) ∧
          ∀ i < lines, (∀ x ∈ q.lines, x.1 ≠ i) → t.bytes (image + 64 * i) 64 = s.bytes (image + 64 * i) 64))) ∧
  (∀ s : State, s.memOk → s.ev.vd < 64 → let vd := s.ev.vd
    let k := s.ev.k
    let slot := s.siteSlot vd k
    let spare := s.fStatus vd 4 4
    let vt := 8 * vd + slot
    let n := ((s.tile vt).plb1 - (s.tile vt).plb0) * 65536
    (s.sst vd k ≠ 0 → exec .siteLoss s = .next s) ∧
    (∀ j, k < 9 → s.sst vd k = 0 → slot < 8 → slot < (s.die vd).bridle.length → spare < 9 → s.sst vd spare = 1 → s.partner vd k = some j →
      s.siteField vd k 4 1 = 1 → (s.die vd).journals.find k = none → (s.tile vt).plb1 ≤ 1024 → s.siteSlot vd j < 8 →
      (s.tile (8 * vd + s.siteSlot vd j)).ckbase * 65536 + 0x80000 + n + 0x100000 ≤ Config.poolBytes →
      ∃ t, exec .siteLoss s = .next t ∧ t.sst vd k = 4 ∧ t.sst vd spare = 0 ∧ t.siteSlot vd spare = slot ∧ t.curSite vd slot = spare ∧
        t.fStatus vd 14 1 = 1 ∧ natBits ((t.die vd).bridle.getD slot 0).toNat 4 6 = k + 2 ^ 4 ∧ (t.fuses.get ((s.info vd).phys * 16 + k) ⟨false, []⟩).retired = true ∧
        t.bytes (flatPool vt ((s.tile vt).plb0 * 65536)) n =
          s.bytes (flatPool (8 * vd + s.siteSlot vd j) ((s.tile (8 * vd + s.siteSlot vd j)).ckbase * 65536 + 0x80000)) n)) ∧
  (∀ s : State, s.memOk → s.ev.vd < 64 → let vd := s.ev.vd
    let a := s.ev.k
    s.ev.m = 0 → s.ev.flag2 = false → a % 8 = 0 → flatKind a ≤ 4 →
    (if flatKind a = 4 then flatOwner a / 2 = (s.info vd).pair ∧ s.physReach vd (flatPa a) = true else flatDie a = vd) →
    (s.ev.flag = true → let c := flatCommons vd (0x7fe8000 + if flatKind a < 3 then 0x20 else 0x28)
      ∃ t, Claim.Farriers .scrub s t ∧ t.load c 8 = min (s.load c 8 + 1) (2 ^ 64 - 1)) ∧
    (s.ev.flag = false → ∃ t, Claim.Farriers .scrub s t ∧ ∀ w, w ∈ t.poison ↔ w ∈ s.poison ∨ w = a / 8)) ∧
  (∀ s : State, let c := s.ev.ctx
    s.ev.m = 0 → s.ev.flag2 = true → (s.tile c.core.vt).stopped = false → (s.ctx c).st = .ready →
    (s.ev.j = 1 ∨ s.ev.j = 2 → ∃ t, Claim.Acts .scrub s t c Touch.none ∧ (t.ctx c).gbad = (s.ctx c).gbad ||| BitVec.ofNat 2 s.ev.j) ∧
    (s.ev.j = 0 → (s.ctx c).gang = none → (∀ m ∈ (s.core c.core).mq, m.q.ctx ≠ c.ctx) → s.pendingSeq c = [] → (s.ctx c).mayRollback = false →
      s.pushHeld c = none → (s.ctx c).remote = 0 → exec .scrub s = .next (s.takeTrap c (s.ctx c).pc true (Cause.at_ .uncorrectable 0)))) ∧
  (∀ s : State, s.memOk → s.ev.vd < 64 → s.ev.m = 2 → let c := flatCommons s.ev.vd 0x7fe8020
    ∃ t, Claim.Farriers .scrub s t ∧ t.load c 8 = min (s.load c 8 + 1) (2 ^ 64 - 1) ∧
      (t.tile s.ev.vt).tcache = (s.tile s.ev.vt).tcache.eraseIdx s.ev.k) ∧
  (∀ (i : DieInfo) (site p q : Nat), i.ownCore site p = some q → q < 192 ∧ q ∉ i.deadAt site ∧ ∀ p', i.ownCore site p' = some q → p' = p)
/-! The fabric, clock regions, boot, power, debug, the host bridge (chapters 11 to 13). -/

namespace Sys2Proof.Claim

/-- The packet in flight that a step names, which no earlier flit of its class holds back at its router. -/
def inFlight (s : State) (p : Packet) : Prop := s.packet s.ev.k = some p ∧ p.retry = none ∧ s.flitBehind p = false

/-- Site of a packet that enters a die: the site of its destination slot, once the packet is on that die (R402). -/
def siteOn (s : State) (p : Packet) (vd : Nat) : Option Nat :=
  if dieOf p.dst = vd ∧ p.site = none then some (s.curSite vd (slotOf p.dst)) else p.site

/-- Two ends of one link, as the dies' control words stand in memory. -/
def isLink (s : State) (vd e d f : Nat) : Prop :=
  s.memOk ∧ vd < 64 ∧ d < 64 ∧ e < 4 ∧ f < 4 ∧ (vd, e) ≠ (d, f) ∧ s.farEnd vd e = some (d, f)

/-- A step of hardware that changes no register and no memory but one word of a die's commons. -/
def setsWord (row : Instr) (s t : State) (vd off w : Nat) : Prop :=
  Acts row s t s.cur { Touch.none with lo := flatCommons vd off, hi := flatCommons vd off + 8 } ∧ t.load (flatCommons vd off) 8 = w

/-- The power word of a die, when no reserved bit of it is set. -/
def powerOk (s : State) (vd : Nat) : Prop :=
  let w := s.load (flatCommons vd 0x7fec000) 8
  s.memOk ∧ vd < 64 ∧ w / 2 ^ 48 = 0 ∧ w / 2 ^ 34 % 2 ^ 6 = 0 ∧ w / 2 ^ 17 % 2 ^ 15 = 0 ∧ w / 2 ^ 10 % 2 ^ 6 = 0 ∧ w / 2 ^ 2 % 2 ^ 6 = 0 ∧ w % 4 ≠ 3 ∧
    (w % 4 = 2 → vd = 0)

/-- The bridge reports a failure to the host: cause in byte 5, DETAIL in byte 6 (R459). -/
def reported (s t : State) (cause detail : Nat) : Prop :=
  t.bridge.irqs = s.bridge.irqs + 1 ∧ ∃ b, t.bridge.out = s.bridge.out ++ [(s.bridge.base.toNat, b)] ∧ b.length = 64 ∧
    b.getD 5 0 = BitVec.ofNat 8 cause ∧ b.getD 6 0 = BitVec.ofNat 8 detail

/-- No byte of TCM, pool, private memory or stack holds anything but zero. -/
def wiped (t : State) : Prop := t.memOk ∧ ∀ a, flatKind a ≠ 2 → t.byte a = 0

end Sys2Proof.Claim

/-- A flit moves to its destination's router, or over one link, in frames with check code and sequence number (R452), to the next die of its route; over
a lost link it is refused (R433–R440, R402, R455). A multicast message parts into a copy for each tile of the die, each bound for the site fixed where
the message entered it (R441, R402). A replayed flit is counted at the receiver, and a lane that fails 64 times in a row is removed: the link narrows,
with BUSY 1 at both ends, or is lost (R430, R453–R455). Injectors count and act as their words say (R431, R432). A request for a link's width or rate
runs at both ends, width first (R453, R454). A message at a Tether port is injected there, or enters an engine's inbox (R457, Table 83). A clock region
follows the beacons, becomes uncertain after four missed in a row or an offset above 10 ns, and certain after sixteen good ones (R385, R386);
losing its reference makes it uncertain (R451); it stretches at most one period in four, which its count of edges lags by (R449); as time passes a
certain region stays within 10 ns, and no PACE decreases (R385). The model's choices: one event per flit and link (log 23), what a
lost link does to a remote access and what the checks of a Tether message refuse (log 24), the region's tile and edges (log 33), how it slews (log 45), and
engine commands and panel control messages of another panel (log 43). -/
def Obligations.FabricCarriesAndPaces : Prop :=
  (∀ (s : State) (p : Packet), Claim.inFlight s p → p.parts = false → let vd := dieOf p.at_
    (dieOf p.dst = vd → s.holdFull { p with at_ := p.dst, site := Claim.siteOn s p vd } = false → ∃ t, Claim.Acts .flitForward s t s.cur Touch.none ∧
      (t.tile p.dst).idle = false ∧ t.packet s.ev.k = some { p with at_ := p.dst, site := Claim.siteOn s p vd, seq := s.nextId }) ∧
    (∀ e next, dieOf p.dst ≠ vd → s.nextDie p.cls vd (dieOf p.dst) = some (e, next) →
      (s.linkLost vd e = false → s.awake next = true → s.linkBusy vd e = false → ∃ t, Claim.Acts .flitForward s t s.cur Touch.none ∧
        t.packet s.ev.k = some { p with at_ := 8 * next, site := Claim.siteOn s p next, seq := s.nextId } ∧
        ∀ m tries send, p.pl = .msg m tries send → let ls := s.lanesOf vd e
          let key := e * 32 + ls.getD (s.ev.j % ls.length) 0
          let l := (s.die vd).lanes.get key ⟨0, []⟩
          let frame := fun i => let flit := (m.image.drop (32 * i)).take 32
            flit ++ natLe 4 (frameWord flit ((l.next + i) % 4096) p.cls)
          (t.die vd).lanes.get key ⟨0, []⟩ = ⟨(l.next + 1 + 1) % 4096, (frame 1 :: frame 0 :: l.sent).take 64⟩) ∧
      (s.linkLost vd e = false → s.awake next = false ∨ s.linkBusy vd e = true → exec .flitForward s = .next s) ∧
      (∀ r, s.linkLost vd e = true → p.pl = .remote r → r.fault = 0 → ∃ t q x, exec .flitForward s = .next t ∧
        (2 ≤ r.stage ∨ r.returning = true → Frame s t s.cur Touch.none) ∧ (∀ c q, t.rs c q = s.rs c q) ∧
        t.packet s.ev.k = some q ∧ q.at_ = r.issuer.core.vt ∧ q.dst = r.issuer.core.vt ∧ q.pl = .remote x ∧ x.fault = 0x12 ∧ x.stage = 2))) ∧
  (∀ (s : State) (p : Packet) (m : Msg) (tries : Nat) (send : Option Nat), Claim.inFlight s p → p.pl = .msg m tries send → m.mc = true →
    (∀ q ∈ s.net, q.id < s.nextId) → (∀ vt ∈ m.tiles, dieOf vt = dieOf p.at_ ∧ (s.tile vt).stopped = false) →
    ∃ t, Claim.Acts .flitForward s t s.cur Touch.none ∧ (∀ q ∈ t.net, q.id ≠ s.ev.k) ∧ ∀ vt ∈ m.tiles, (t.tile vt).idle = false ∧
      ∃ q ∈ t.net, q.at_ = vt ∧ q.dst = vt ∧ q.cls = p.cls ∧ q.pl = .msg { m with mc := false, vt := vt, dests := 0 } tries send ∧
        q.site = some (match p.sites.find? (fun y => y.1 == slotOf vt) with | some y => y.2 | none => s.curSite (dieOf vt) (slotOf vt))) ∧
  (∀ (s : State) (d f : Nat), let vd := s.ev.vd
    let e := s.ev.k
    let lane := s.ev.j
    let fails := (s.die vd).fails.get (e * 32 + lane) 0
    let c := flatCommons d 0x7fe8030
    let down := s.linkDown vd e ||| 2 ^ lane
    let width := activeWidth down (max (s.linkControl vd e % 4) (s.linkControl d f % 4))
    Claim.isLink s vd e d f → lane < 32 → s.ev.flag2 = false → (s.linkControl vd e / 2 ^ (32 + lane) % 2 = 1 → exec .linkReplay s = .next s) ∧
    (s.linkControl vd e / 2 ^ (32 + lane) % 2 = 0 → s.load (injectorAt vd e) 8 / 2 ^ 59 % 2 = 0 →
    (s.ev.flag = true → ∃ t, Claim.Acts .linkReplay s t s.cur { Touch.none with lo := c, hi := c + 8 } ∧
      t.load c 8 = min (s.load c 8 + 1) (2 ^ 64 - 1) ∧ (t.die vd).fails.get (e * 32 + lane) 0 = 0) ∧
    (s.ev.flag = false → fails < 63 → ∃ t, Claim.Acts .linkReplay s t s.cur { Touch.none with lo := c, hi := c + 8 } ∧
      (t.die vd).fails.get (e * 32 + lane) 0 = fails + 1) ∧
    (s.ev.flag = false → fails = 63 → ∃ t, exec .linkReplay s = .next t ∧ t.linkControl vd e / 2 ^ (32 + lane) % 2 = 1 ∧
      (t.die vd).fails.get (e * 32 + lane) 0 = 0 ∧ (∀ c q, t.rs c q = s.rs c q) ∧ ∀ x ∈ [t.linkControl vd e, t.linkControl d f],
        (width = 3 → x / 2 ^ 6 % 2 = 1 ∧ x / 2 ^ 7 % 2 = 0 ∧ x / 2 ^ 10 % 4 = 3) ∧ (width ≠ 3 → lane ∈ s.lanesOf vd e → x / 2 ^ 7 % 2 = 1)))) ∧
  (∀ s : State, s.memOk → s.ev.vd < 64 → s.ev.flag2 = true → s.ev.k = 4 → tetherPorts (s.info s.ev.vd).phys ≠ 0 →
    let c := flatCommons s.ev.vd 0x7fe8030
    ∃ t, Claim.setsWord .linkReplay s t s.ev.vd 0x7fe8030 (min (s.load c 8 + 1) (2 ^ 64 - 1))) ∧
  (∀ s : State, s.memOk → s.ev.vd < 64 → s.ev.k < 5 → let vd := s.ev.vd
    let k := s.ev.k
    let off := 0x7fe9000 + 0x40 * k
    let a := flatCommons vd off
    let w := s.ev.w.toNat
    let bad := w / 2 ^ 53 % 2 ^ 6 ≠ 0 ∨ w / 2 ^ 61 % 4 = 3 ∨ (w % 2 ^ 32 = 0 ∧ w / 2 ^ 63 % 2 = 1) ∨ s.hasInjector vd k = false
    ∃ t, Claim.setsWord .injectorArm s t vd off (if bad then s.load a 8 else w) ∧
      (t.die vd).inj.getD k 0 = (if bad then (s.die vd).inj.getD k 0 else 0)) ∧
  (∀ s : State, s.memOk → s.ev.vd < 64 → let vd := s.ev.vd
    let k := s.ev.k
    let a := flatCommons vd (0x7fe9000 + 0x40 * k)
    let w := s.load a 8
    let n := (s.die vd).inj.getD k 0 + s.ev.m
    let spoilt := w / 2 ^ 61 % 4 = 1 ∨ (w / 2 ^ 61 % 4 = 0 ∧ s.load (a + 8) 8 ≠ 0)
    s.hasInjector vd k = true → k < (s.die vd).inj.length → w / 2 ^ 63 % 2 = 1 → s.laneUp vd k (w / 2 ^ 48 % 2 ^ 5) = true →
    (n < w % 2 ^ 32 → ∃ t, Claim.Acts .injectorTrigger s t s.cur Touch.none ∧ (t.die vd).inj.getD k 0 = n) ∧
    (n = w % 2 ^ 32 → 0 < s.ev.m → w / 2 ^ 59 % 2 = 0 → ∃ t, exec .injectorTrigger s = .next t ∧ (t.die vd).inj.getD k 0 = 0 ∧
      t.load (a + 16) 8 = (s.load (a + 16) 8 + 1) % 2 ^ 64 ∧ t.load a 8 = (if w / 2 ^ 60 % 2 = 1 then w else w - 2 ^ 63) ∧
      (∀ c q, t.rs c q = s.rs c q) ∧ ∀ d f, Claim.isLink s vd k d f → let c := flatCommons d 0x7fe8030
        t.load c 8 = if spoilt then min (s.load c 8 + 1) (2 ^ 64 - 1) else s.load c 8)) ∧
  (∀ s : State, s.memOk → s.ev.vd < 64 → s.ev.k < 4 → s.feat1 1 = true → let off := 0x7fe9200 + 8 * s.ev.k
    let old := s.load (flatCommons s.ev.vd off) 8
    let w := s.ev.w.toNat
    let bad := w / 2 ^ 12 % 2 ^ 20 ≠ 0 ∨ w / 2 ^ 4 % 4 ≠ 0 ∨ w / 2 ^ 2 % 4 = 3 ∨ w % 4 = 3
    ∃ t, Claim.setsWord .linkControlWrite s t s.ev.vd off
      (if bad ∨ w % 16 = old % 16 then old else putBits (putBits old 0 4 (w % 16)) 7 1 1) ∧
      ∀ d f, Claim.isLink s s.ev.vd s.ev.k d f → s.acts = [] → ¬(bad ∨ w % 16 = old % 16) →
        ∀ x ∈ [t.follow.linkControl s.ev.vd s.ev.k, t.follow.linkControl d f], x / 2 ^ 7 % 2 = 1) ∧
  (∀ (s : State) (d f : Nat), let vd := s.ev.vd
    let e := s.ev.k
    let a := s.linkControl vd e
    let b := s.linkControl d f
    let width := max (a % 4) (b % 4)
    let rate := max (a / 4 % 4) (b / 4 % 4)
    let both := a / 2 ^ 10 % 4 ≠ width ∧ a / 2 ^ 8 % 4 ≠ rate
    Claim.isLink s vd e d f → (a / 2 ^ 7 % 2 = 0 → exec .linkChangeDone s = .next s) ∧
    (a / 2 ^ 7 % 2 = 1 → a / 2 ^ 32 = 0 → b / 2 ^ 32 = 0 → width ≤ 2 → ∃ t, exec .linkChangeDone s = .next t ∧ (∀ c q, t.rs c q = s.rs c q) ∧
      (∀ x ∈ [t.linkControl vd e, t.linkControl d f], x / 2 ^ 10 % 4 = width) ∧
      (both → t.linkControl vd e / 2 ^ 7 % 2 = 1 ∧ t.linkControl vd e / 2 ^ 8 % 4 = a / 2 ^ 8 % 4) ∧
      (¬both → ∀ x ∈ [t.linkControl vd e, t.linkControl d f], x / 2 ^ 7 % 2 = 0 ∧ x / 2 ^ 8 % 4 = rate))) ∧
  (∀ s : State, let vd := s.ev.vd
    let h := leNat (s.ev.bytes.take 16)
    s.feat1 3 = true → vd < s.nDies → tetherPorts (s.info vd).phys ≠ 0 →
    (s.tetherMsg s.ev.bytes s.ev.j = none → exec .tetherArrival s = .next s) ∧
    (∀ m, s.tetherMsg s.ev.bytes s.ev.j = some m → m.cls = h % 16 ∧ m.prio = h / 2 ^ 4 % 4 ∧ m.kind = h / 2 ^ 6 % 4 ∧ m.src = h / 2 ^ 9 % 2 ^ 21 ∧
      m.pos = h / 2 ^ 71 % 2 ^ 8 ∧ m.vt = h / 2 ^ 79 % 2 ^ 9 ∧
      (m.kind < 2 → ∃ t, Claim.Acts .tetherArrival s t s.cur Touch.none ∧
        t.net = s.net ++ [s.fixSite ⟨s.nextId + 1, 8 * vd, m.target, none, [], none, m.cls, s.nextId + 1, .msg m 8 (some s.nextId)⟩ (dieOf (8 * vd))]) ∧
      (m.kind = 3 → exec .tetherArrival s = .next s) ∧
      (∀ engine c, m.kind = 2 → m.command s.nextId = some (engine, c) → (s.inboxOf m.vt engine).length < 16 → c.issuer.core.vt < 8 * s.nDies →
        c.issuer.core.pos < 192 → c.issuer.ctx < 11 → s.slotGone m.vt = false → ∃ t, Claim.Acts .tetherArrival s t s.cur Touch.none ∧
          t.inboxOf m.vt engine = s.inboxOf m.vt engine ++ [c]))) ∧
  (∀ s : State, let vt := s.ev.vt
    let k := s.tile vt
    let o := s.ev.ofs
    (k.refLost = true → exec .paceBeacon s = .next s) ∧
    (k.refLost = false → ∃ t, Claim.Acts .paceBeacon s t s.cur Touch.none ∧ (t.tile vt).missed = 0 ∧
      (k.uncertain = false → (t.tile vt).uncertain = false ∧ (t.tile vt).drift = 0 ∧ (t.tile vt).ofs = if k.ofs ≤ o ∧ o ≤ 0 then o else k.ofs) ∧
      (k.uncertain = true → k.ofs < -5 ∨ 5 < k.ofs → (t.tile vt).uncertain = true ∧ (t.tile vt).good = 0 ∧ (t.tile vt).ofs = max 0 k.ofs) ∧
      (k.uncertain = true → k.ofs = 0 → if k.good < 15 then (t.tile vt).uncertain = true ∧ (t.tile vt).good = k.good + 1
        else (t.tile vt).uncertain = false ∧ (t.tile vt).ofs = 0)) ∧
    (s.ev.flag = false → k.missed < 3 → -10 ≤ k.ofs → k.ofs ≤ 10 → ∃ t, Claim.Acts .beaconMiss s t s.cur Touch.none ∧
      (t.tile vt).missed = k.missed + 1 ∧ (t.tile vt).uncertain = k.uncertain ∧ (t.tile vt).ofs = k.ofs) ∧
    (s.ev.flag = false ∧ 3 ≤ k.missed ∨ s.ev.flag = true ∧ k.ofs ≤ o ∧ 10 < o → ∃ t, Claim.Acts .beaconMiss s t s.cur Touch.none ∧
      (t.tile vt).uncertain = true ∧ (k.uncertain = false → (t.tile vt).tcache = [] ∧
        ∀ l ∈ (t.die (regionDie vt)).gw, l.port ∉ s.edgesOf vt) ∧ (t.tile vt).good = 0) ∧
    (k.sinceStretch < 4 → exec .clockStretch s = .next s) ∧
    (4 ≤ k.sinceStretch → ∃ t, Claim.Acts .clockStretch s t s.cur Touch.none ∧ (t.tile vt).sinceStretch = 0) ∧
    (∃ t, Claim.Acts .referenceLoss s t s.cur Touch.none ∧ (t.tile vt).refLost = true ∧ (t.tile vt).uncertain = true ∧
      (k.uncertain = false → (t.tile vt).tcache = [])) ∧
    (∃ t, Claim.Acts .referenceReturn s t s.cur Touch.none ∧ (t.tile vt).refLost = false ∧ (t.tile vt).uncertain = k.uncertain)) ∧
  (∀ (s : State) (ns edges : Nat) (rest : List Turn), s.inputs = .tick ns edges :: rest → ∃ t, step s = .next t ∧ t.pace = s.pace + ns ∧
    t.edges = s.edges + edges ∧ (s.acts = [] → t.mem = s.mem) ∧ (∀ c q, t.rs c q = s.rs c q) ∧ ∀ vt, let k := s.tile vt
      (k.refLost = false → (t.tile vt).lag = if k.sinceStretch = 0 ∧ 0 < edges then k.lag + 5000 else k.lag) ∧
      (k.sinceStretch ≤ 4 → (t.tile vt).sinceStretch = min 4 (k.sinceStretch + edges)) ∧
      (k.drift ≤ 100 → -100 ≤ k.drift → (k.uncertain = false → -10 ≤ k.ofs → k.ofs ≤ 10 → -10 ≤ (t.tile vt).ofs ∧ (t.tile vt).ofs ≤ 10) ∧
        (k.uncertain = true ∨ -10 ≤ k.ofs ∧ k.ofs ≤ 10 → s.paceAt vt ≤ t.paceAt vt)))

/-- Panel reset leaves every context and core as at reset, memory zero outside the boot blocks, and names the good dies anew, Gallops first (R447, R460,
R461); below the floor it says so (R448). A report holds nonce, state and signature; without a device key the signature is zero (R462). Dies and
panel change power state on request and refuse while halt is in force (R463, R464). A signed unlock allows debug, halt stops tiles and wipes
deployed ones first, relock ends both (R465); the life-cycle moves one state at a time, and its last move wipes the panel (R466). The bridge submits
descriptors, performs the host's accesses and reports failures (R458, R459). A stored region descriptor and a cleared REFUSED bit
read back (R374, R464). Firmware's CKBASE is an input of the reset (R43; log 6). CUR of every die when parked, what a relock clears, the files of a
debugger, and that the bridge's accesses are made at once are the model's choices (logs 29, 31, 32, 46). A request for the bridge's configuration space is
answered with free bytes (log 2). -/
def Obligations.BootPowerDebugBridge : Prop :=
  (∀ s : State, let g := (List.range 64).filter (fun p => !s.ev.nums.contains p && decide (8 ≤ (siteInfo s.fuses s.ev.pairs p).fitSites.length))
    (∀ x ∈ s.fuses, x.2.bins.length ≤ 72) → ∃ t, exec .panelReset s = .next t ∧ (∀ c : CtxId, t.ctx c = Ctx.reset c.ctx) ∧ (∀ c, t.core c = Core.reset) ∧ t.net = [] ∧ t.launches = [] ∧
      t.panel.map (fun i => i.phys) = g.filter (fun p => p % 2 == 0) ++ g.filter (fun p => p % 2 == 1) ∧ t.fuses = s.fuses ∧
      t.attest.life = s.attest.life ∧ t.attest.key = s.attest.key ∧ t.attest.high = 0 ∧
      (t.attest.below = true ↔ g.length < 60 ∨ (g.filter (fun p => p % 2 == 0)).length < 29 ∨ (0 ∉ g ∧ 63 ∉ g)) ∧ Claim.wiped t ∧
      (∀ vt n, s.ev.pairs.filter (fun x => x.1 == 2048 + vt) = [(2048 + vt, [n])] → vt < 8 * g.length → n ≤ 760 → 0 ∈ g ∨ 63 ∈ g →
        (t.tile vt).ckbase = n ∧ (t.tile vt).plb2 = n) ∧
      (0 ∉ g ∧ 63 ∉ g → ∀ vd < 64, t.bytes (flatCommons vd 0x7fe2000) 64 = List.replicate 64 0)) ∧
  (∀ (panel : List DieInfo) (tables : Nat → Nat → Option (List Nat)) (i : DieInfo) (c src dst : Nat) (l : List Nat),
    (acceptRoutes panel tables)[src]? = some i → i.routes.find c = some l → dst < panel.length → tables c src = some l ∧
      legalFrom panel (levels (goodSites panel)) (fun d => ((tables c d).getD []).getD dst 7) dst 64 src false = true) ∧
  (∀ s : State, s.memOk → s.attest.dark = false → let a := flatCommons 0 0x7feb000
    (s.load (a + 0x20) 8 = 1 → exec .attestationRequest s = .next s) ∧
    (s.load (a + 0x20) 8 ≠ 1 → s.ev.bytes.length = 32 → ∃ t, exec .attestationRequest s = .next t ∧ t.bytes a 32 = s.ev.bytes ∧ t.load (a + 0x20) 8 = 1 ∧
      ∀ c q, t.rs c q = s.rs c q) ∧
    (s.load (a + 0x20) 8 ≠ 1 → exec .attestationReportReady s = .next s) ∧
    (s.load (a + 0x20) 8 = 1 → ∃ t, exec .attestationReportReady s = .next t ∧ t.bytes (a + 0x100) 32 = s.bytes a 32 ∧
      t.bytes (a + 0x168) 8 = natLe 8 s.featAck.toNat ∧ t.byte (a + 0x170) = BitVec.ofNat 8 s.attest.life ∧
      t.byte (a + 0x171) = BitVec.ofNat 8 s.attest.high ∧ t.load (a + 0x20) 8 = (if s.attest.key then 2 else 3) ∧
      (s.attest.key = false → t.bytes (a + 0x180) 64 = List.replicate 64 0) ∧ ∀ c q, t.rs c q = s.rs c q)) ∧
  (∀ s : State, Claim.powerOk s s.ev.vd → let vd := s.ev.vd
    let level := s.ev.k
    let mask := s.ev.m
    let life := s.attest.life
    let may := s.ev.flag = true ∧ (level = 1 ∨ level = 2) ∧ mask < 256 ∧ (life = 2 ∨ (life = 1 ∧ level = 2))
    (¬may → exec .debugUnlock s = .next s) ∧
    (may → ∃ t, exec .debugUnlock s = .next t ∧ (t.die vd).dbgLevel = level ∧ (t.die vd).dbgMask = mask ∧ t.power vd 32 2 = level ∧
      t.attest.high = max s.attest.high level ∧ ∀ c q, t.rs c q = s.rs c q) ∧
    (s.ev.flag2 = false → s.power vd 8 2 = 2 ∨ s.mayHalt vd mask = false → ∃ t, exec .debugHalt s = .next t ∧ t.power vd 16 1 = 1 ∧
      t.tiles = s.tiles) ∧
    (s.ev.flag2 = false → s.power vd 8 2 = 0 → s.mayHalt vd mask = true → (∀ k ∈ slotsOf mask, s.tileCores (8 * vd + k) = []) →
      ∃ t, exec .debugHalt s = .next t ∧ t.power vd 32 2 = 2 ∧ ∀ k ∈ slotsOf mask, (t.tile (8 * vd + k)).halted = true ∧
        (life = 2 → (s.tile (8 * vd + k)).halted = false →
          (∀ a, flatKind a = 1 → flatOwner a = 8 * vd + k → t.byte a = 0 ∧ (8 * (a / 8) = a → a / 8 ∉ t.full)) ∧
          ∀ c : CtxId, c.core.vt = 8 * vd + k → c.core.pos < 192 → c.ctx < 16 → ∀ r, t.rv c r = 0)) ∧
    (s.ev.flag2 = true → s.ev.j = 1 → (s.tile s.ev.ctx.core.vt).halted = true → s.ev.m < 32 → s.ev.m ≠ 0 → ∃ t,
      Claim.Acts .debugHalt s t s.ev.ctx { Touch.none with s := [BitVec.ofNat 5 s.ev.m] } ∧
        t.rs s.ev.ctx (BitVec.ofNat 5 s.ev.m) = BitVec.ofNat 64 (leNat s.ev.bytes)) ∧
    (s.ev.flag2 = true → s.ev.j = 8 → (s.tile s.ev.ctx.core.vt).halted = true → s.ev.m < 256 → ∃ t, Claim.Acts .debugHalt s t s.ev.ctx Touch.none ∧
        ((t.core s.ev.ctx.core).reinAt s.ev.m).v = BitVec.ofNat 16 (leNat (s.ev.bytes.take 2))) ∧
    (s.ev.flag2 = true → s.ev.j = 0 → flatKind s.ev.k = 1 → (s.tile (flatOwner s.ev.k)).halted = true → flatOff s.ev.k + s.ev.bytes.length ≤ Config.poolBytes →
      ∃ t, Claim.Acts .debugHalt s t s.cur { Touch.none with lo := s.ev.k, hi := s.ev.k + s.ev.bytes.length } ∧
        t.bytes s.ev.k s.ev.bytes.length = s.ev.bytes) ∧
    (∃ t, exec .debugRelock s = .next t ∧ (t.die vd).dbgLevel = 0 ∧ t.power vd 32 2 = 0 ∧ t.power vd 40 8 = 0 ∧
      ∀ k < 8, (t.tile (8 * vd + k)).halted = false) ∧
    (s.mayObserve vd mask = true → ∃ t, Claim.setsWord .debugObserve s t vd 0x7fec000 (putBits (s.load (flatCommons vd 0x7fec000) 8) 32 2 (max 1 (s.power vd 32 2)))) ∧
    (s.mayObserve vd mask = false → ∃ t, Claim.setsWord .debugObserve s t vd 0x7fec000 (putBits (s.load (flatCommons vd 0x7fec000) 8) 16 1 1))) ∧
  (∀ s : State, s.memOk → let k := s.ev.k
    (s.ev.flag = false ∨ k ≠ s.attest.life + 1 ∨ 3 < k ∨ s.attest.dark = true → exec .lifeCycleMove s = .next s) ∧
    (s.ev.flag = true → k = s.attest.life + 1 → k ≤ 3 → s.attest.dark = false → ∃ t, exec .lifeCycleMove s = .next t ∧ t.attest.life = k ∧
      (k = 1 → t.attest.key = true ∧ ∀ i < 64, t.byte (flatCommons 0 0x7feb200 + i) = bootByte s.panel 0 (0x7feb200 + i)) ∧ (k = 3 → t.attest.key = false ∧ Claim.wiped t ∧ t.full = []))) ∧
  (∀ s : State, Claim.powerOk s s.ev.vd → let vd := s.ev.vd
    (s.ev.flag = false → s.power vd 0 2 = 1 → s.power vd 8 2 = 0 →
      (s.power vd 32 2 = 2 → ∃ t, exec .dieDrowsy s = .next t ∧ t.power vd 16 1 = 1 ∧ t.power vd 8 2 = 0) ∧
      (s.power vd 32 2 ≠ 2 → (∀ k < 8, s.resident (8 * vd + k) = false) → ∃ t, exec .dieDrowsy s = .next t ∧ t.power vd 8 2 = 1 ∧
        ∀ k < 8, (t.tile (8 * vd + k)).idle = true)) ∧
    (s.ev.flag = true → s.power vd 8 2 = 0 → s.power vd 32 2 ≠ 2 → (∀ k < 8, s.resident (8 * vd + k) = false) → ∃ t, exec .dieDrowsy s = .next t ∧
      t.power vd 0 2 = 1 ∧ t.power vd 8 2 = 1) ∧
    (s.ev.flag = false → s.power vd 8 2 = 1 → s.power vd 0 2 = 0 ∨ s.wanted vd = true → ∃ t, exec .active s = .next t ∧ t.power vd 8 2 = 0) ∧
    (∃ t, Claim.setsWord .refusedClear s t vd 0x7fec000 (putBits (s.load (flatCommons vd 0x7fec000) 8) 16 1 0))) ∧
  (∀ s : State, Claim.powerOk s 0 → s.ev.flag = false → s.power 0 0 2 = 2 → s.power 0 8 2 ≠ 2 → s.nDies ≤ 64 → 0 < s.nDies →
    ((∃ d < s.nDies, s.power d 32 2 = 2) → ∃ t, exec .panelPark s = .next t ∧ t.power 0 16 1 = 1) ∧
    ((∀ d < s.nDies, s.power d 32 2 ≠ 2 ∧ ∀ k < 8, s.resident (8 * d + k) = false) → ∃ t, exec .panelPark s = .next t ∧
      ∀ d < s.nDies, t.power d 8 2 = 2)) ∧
  (∀ s : State, let vt := s.ev.vt
    (s.resident vt = true → exec .tileIdle s = .next s) ∧
    (s.resident vt = false → (s.tile vt).commands = [] → (s.tile vt).bank = none →
      (∀ c ∈ s.retiring, c.vt ≠ vt) → ∃ t, Claim.Acts .tileIdle s t s.cur Touch.none ∧ (t.tile vt).idle = true)) ∧
  (∀ s : State, s.memOk → s.ev.vt < 512 → s.ev.k < 16 → s.ev.j < 2 → ∃ t, Claim.setsWord .protectionDescriptorStore s t (s.ev.vt / 8)
    (0x7fe4000 + 0x100 * (s.ev.vt % 8) + 16 * s.ev.k + 8 * s.ev.j) s.ev.w.toNat) ∧
  (∀ s : State, s.bridgeLive = true → let off := s.ev.k
    let b := s.ev.bytes
    (b.length ≠ 128 ∨ off % 128 ≠ 0 ∨ 8192 ≤ off → exec .bridgeLaunchWrite s = .next { s with bridge := { s.bridge with dropped := s.bridge.dropped + 1 } }) ∧
    (b.length = 128 → off % 128 = 0 → off < 8192 →
      (∀ c n, s.validate 0 true b = .error (c, n) → ∃ t, Claim.Acts .bridgeLaunchWrite s t s.cur Touch.none ∧ Claim.reported s t c.code n) ∧
      (∀ d x s1, s.validate 0 true b = .ok (d, x, s1) → d.dep ≠ 3 → ∃ t l, exec .bridgeLaunchWrite s = .next t ∧ l ∈ t.launches ∧ l.desc = d ∧
        l.id = (t.die 0).launches * 64 ∧ l.ended = false)) ∧
    (∀ a s1, off % 8 = 0 → off + 8 ≤ 2 ^ 32 → b.length = 8 → s.ev.enables = [] → s.ev.flag = false → s.bridge.held = [] →
      s.bridgeAt (s.windowPtr off) 8 .write false = .ok (a, s1) → s1.memOk → inBlocks a 8 = false → ∃ t, exec .bridgeDataWrite s = .next t ∧ t.bytes a 8 = b ∧ ∀ c q, t.rs c q = s.rs c q) ∧
    (∀ f s1, off % 8 = 0 → off + 8 ≤ 2 ^ 32 → b.length = 8 → s.ev.enables = [] → s.ev.flag = false → s.bridge.held = [] →
      s.bridgeAt (s.windowPtr off) 8 .write false = .error (f, s1) → ∃ t, exec .bridgeDataWrite s = .next t ∧
        (f.cause = .pageAbsent → t.bridge.held = [(s.windowPtr off, b)] ∧ t.bridge.irqs = s1.bridge.irqs) ∧
        (f.cause ≠ .pageAbsent → t.bridge.held = [] ∧ Claim.reported s1 t f.cause.code f.detail) ∧ ∀ c q, t.rs c q = s1.rs c q) ∧
    (∀ p l a s1, s.ev.flag = true → s.bridge.held = (p, l) :: [] → s.bridge.token = none → s.bridge.tokFail = none →
      s.bridgeAt p l.length .write true = .ok (a, s1) → s1.memOk → inBlocks a l.length = false → ∃ t, exec .bridgeDataWrite s = .next t ∧
        t.bytes a l.length = l ∧ t.bridge.held = [] ∧ ∀ c q, t.rs c q = s1.rs c q) ∧
    (s.ev.flag = true → s.bridge.token.isSome = true → exec .bridgeDataWrite s = .next s) ∧
    (s.bridge.held ≠ [] → exec .bridgeDataRead s = .next s) ∧
    (∀ a s1, off % 8 = 0 → off + 8 ≤ 2 ^ 32 → s.ev.m = 8 → s.bridge.held = [] → s.bridgeAt (s.windowPtr off) 8 .read false = .ok (a, s1) → ∃ t, exec .bridgeDataRead s = .next t ∧
      t.bridge.data = s1.bytes a 8 ∧ ∀ c q, t.rs c q = s.rs c q) ∧
    (∀ f s1, off % 8 = 0 → off + 8 ≤ 2 ^ 32 → s.ev.m = 8 → s.bridge.held = [] →
      s.bridgeAt (s.windowPtr off) 8 .read false = .error (f, s1) → f.cause ≠ .pageAbsent → ∃ t, exec .bridgeDataRead s = .next t ∧
      t.bridge.data = List.replicate 8 0xff ∧ Claim.reported s t f.cause.code f.detail) ∧
    (s.ev.flag2 = true → ∃ t, Claim.Acts .bridgeControlWrite s t s.cur Touch.none ∧ t.bridge.data.length = s.ev.m) ∧
    (s.ev.flag2 = false → s.ev.flag = true → s.ev.m = 8 → off = 0x10 → ∃ t, Claim.Acts .bridgeControlWrite s t s.cur Touch.none ∧
      t.bridge.data = natLe 8 s.bridge.dropped) ∧
    (s.ev.flag2 = false → s.ev.flag = false →
      (off = 0 → s.ev.w.toNat % 64 = 0 → ∃ t, Claim.Acts .bridgeControlWrite s t s.cur Touch.none ∧ t.bridge.base = s.ev.w) ∧
      (off = 8 → ∃ t, Claim.Acts .bridgeControlWrite s t s.cur Touch.none ∧ t.bridge.win = s.ev.w.toNat % 64))) ∧
  (∀ s : State, exec .unsupportedRequest s = .next s)
end

