-- ==== Sys2Proof/Laws/State.lean ====
section
/-! SUPPORT. The small lemmas of the state: tables, one lemma per field per update, and reading a register, context, core, tile or die
after each of the writes. -/

namespace Sys2Proof.Machine

open Sys2Proof

/-! Tables. -/

@[simp] theorem Tab.find_set_same {α : Type} (t : Tab α) (k : Nat) (x : α) : (Tab.set t k x).find k = some x := by
  induction t with
  | nil => simp [Tab.set, Tab.find]
  | cons p r ih =>
    obtain ⟨j, y⟩ := p
    simp only [Tab.set]
    split
    · simp [Tab.find]
    · split
      · simp [Tab.find]
      · simp [Tab.find, *]

theorem Tab.find_set_ne {α : Type} (t : Tab α) {k k' : Nat} (x : α) (h : k' ≠ k) : (Tab.set t k x).find k' = t.find k' := by
  induction t with
  | nil => simp [Tab.set, Tab.find, Ne.symm h]
  | cons p r ih =>
    obtain ⟨j, y⟩ := p
    simp only [Tab.set]
    split
    · simp [Tab.find, Ne.symm h]
    · split
      · next e => subst e; simp [Tab.find, Ne.symm h]
      · simp only [Tab.find, ih]

@[simp] theorem Tab.get_set_same {α : Type} (t : Tab α) (k : Nat) (x d : α) : (Tab.set t k x).get k d = x := by
  simp [Tab.get]

theorem Tab.get_set_ne {α : Type} (t : Tab α) {k k' : Nat} (x d : α) (h : k' ≠ k) : (Tab.set t k x).get k' d = t.get k' d := by
  simp [Tab.get, Tab.find_set_ne t x h]

@[simp] theorem Tab.get_nil {α : Type} (k : Nat) (d : α) : Tab.get ([] : Tab α) k d = d := rfl

/-! One lemma per field per update. -/

@[simp] theorem State.setCtx_cur (s : State) (c : CtxId) (x : Ctx) : (s.setCtx c x).cur = s.cur := rfl
@[simp] theorem State.setCtx_op (s : State) (c : CtxId) (x : Ctx) : (s.setCtx c x).op = s.op := rfl
@[simp] theorem State.setCtx_ev (s : State) (c : CtxId) (x : Ctx) : (s.setCtx c x).ev = s.ev := rfl
@[simp] theorem State.setCtx_ahead (s : State) (c : CtxId) (x : Ctx) : (s.setCtx c x).ahead = s.ahead := rfl
@[simp] theorem State.setCtx_inputs (s : State) (c : CtxId) (x : Ctx) : (s.setCtx c x).inputs = s.inputs := rfl
@[simp] theorem State.setCtx_turns (s : State) (c : CtxId) (x : Ctx) : (s.setCtx c x).turns = s.turns := rfl
@[simp] theorem State.setCtx_free (s : State) (c : CtxId) (x : Ctx) : (s.setCtx c x).free = s.free := rfl
@[simp] theorem State.setCtx_mem (s : State) (c : CtxId) (x : Ctx) : (s.setCtx c x).mem = s.mem := rfl
@[simp] theorem State.setCtx_full (s : State) (c : CtxId) (x : Ctx) : (s.setCtx c x).full = s.full := rfl
@[simp] theorem State.setCtx_feq (s : State) (c : CtxId) (x : Ctx) : (s.setCtx c x).feq = s.feq := rfl
@[simp] theorem State.setCtx_poison (s : State) (c : CtxId) (x : Ctx) : (s.setCtx c x).poison = s.poison := rfl
@[simp] theorem State.setCtx_dirty (s : State) (c : CtxId) (x : Ctx) : (s.setCtx c x).dirty = s.dirty := rfl
@[simp] theorem State.setCtx_marks (s : State) (c : CtxId) (x : Ctx) : (s.setCtx c x).marks = s.marks := rfl
@[simp] theorem State.setCtx_acts (s : State) (c : CtxId) (x : Ctx) : (s.setCtx c x).acts = s.acts := rfl
@[simp] theorem State.setCtx_cores (s : State) (c : CtxId) (x : Ctx) : (s.setCtx c x).cores = s.cores := rfl
@[simp] theorem State.setCtx_tiles (s : State) (c : CtxId) (x : Ctx) : (s.setCtx c x).tiles = s.tiles := rfl
@[simp] theorem State.setCtx_dies (s : State) (c : CtxId) (x : Ctx) : (s.setCtx c x).dies = s.dies := rfl
@[simp] theorem State.setCtx_panel (s : State) (c : CtxId) (x : Ctx) : (s.setCtx c x).panel = s.panel := rfl
@[simp] theorem State.setCtx_featAck (s : State) (c : CtxId) (x : Ctx) : (s.setCtx c x).featAck = s.featAck := rfl
@[simp] theorem State.setCtx_featSet (s : State) (c : CtxId) (x : Ctx) : (s.setCtx c x).featSet = s.featSet := rfl
@[simp] theorem State.setCtx_pace (s : State) (c : CtxId) (x : Ctx) : (s.setCtx c x).pace = s.pace := rfl
@[simp] theorem State.setCtx_edges (s : State) (c : CtxId) (x : Ctx) : (s.setCtx c x).edges = s.edges := rfl
@[simp] theorem State.setCtx_launches (s : State) (c : CtxId) (x : Ctx) : (s.setCtx c x).launches = s.launches := rfl
@[simp] theorem State.setCtx_controls (s : State) (c : CtxId) (x : Ctx) : (s.setCtx c x).controls = s.controls := rfl
@[simp] theorem State.setCtx_answers (s : State) (c : CtxId) (x : Ctx) : (s.setCtx c x).answers = s.answers := rfl
@[simp] theorem State.setCtx_nextId (s : State) (c : CtxId) (x : Ctx) : (s.setCtx c x).nextId = s.nextId := rfl
@[simp] theorem State.setCtx_recs (s : State) (c : CtxId) (x : Ctx) : (s.setCtx c x).recs = s.recs := rfl
@[simp] theorem State.setCtx_rels (s : State) (c : CtxId) (x : Ctx) : (s.setCtx c x).rels = s.rels := rfl
@[simp] theorem State.setCtx_net (s : State) (c : CtxId) (x : Ctx) : (s.setCtx c x).net = s.net := rfl
@[simp] theorem State.setCtx_sends (s : State) (c : CtxId) (x : Ctx) : (s.setCtx c x).sends = s.sends := rfl
@[simp] theorem State.setCtx_retiring (s : State) (c : CtxId) (x : Ctx) : (s.setCtx c x).retiring = s.retiring := rfl
@[simp] theorem State.setCtx_bridge (s : State) (c : CtxId) (x : Ctx) : (s.setCtx c x).bridge = s.bridge := rfl
@[simp] theorem State.setCtx_attest (s : State) (c : CtxId) (x : Ctx) : (s.setCtx c x).attest = s.attest := rfl
@[simp] theorem State.setCtx_fuses (s : State) (c : CtxId) (x : Ctx) : (s.setCtx c x).fuses = s.fuses := rfl

@[simp] theorem State.setCore_cur (s : State) (c : CoreId) (x : Core) : (s.setCore c x).cur = s.cur := rfl
@[simp] theorem State.setCore_op (s : State) (c : CoreId) (x : Core) : (s.setCore c x).op = s.op := rfl
@[simp] theorem State.setCore_ev (s : State) (c : CoreId) (x : Core) : (s.setCore c x).ev = s.ev := rfl
@[simp] theorem State.setCore_ahead (s : State) (c : CoreId) (x : Core) : (s.setCore c x).ahead = s.ahead := rfl
@[simp] theorem State.setCore_inputs (s : State) (c : CoreId) (x : Core) : (s.setCore c x).inputs = s.inputs := rfl
@[simp] theorem State.setCore_turns (s : State) (c : CoreId) (x : Core) : (s.setCore c x).turns = s.turns := rfl
@[simp] theorem State.setCore_free (s : State) (c : CoreId) (x : Core) : (s.setCore c x).free = s.free := rfl
@[simp] theorem State.setCore_mem (s : State) (c : CoreId) (x : Core) : (s.setCore c x).mem = s.mem := rfl
@[simp] theorem State.setCore_full (s : State) (c : CoreId) (x : Core) : (s.setCore c x).full = s.full := rfl
@[simp] theorem State.setCore_feq (s : State) (c : CoreId) (x : Core) : (s.setCore c x).feq = s.feq := rfl
@[simp] theorem State.setCore_poison (s : State) (c : CoreId) (x : Core) : (s.setCore c x).poison = s.poison := rfl
@[simp] theorem State.setCore_dirty (s : State) (c : CoreId) (x : Core) : (s.setCore c x).dirty = s.dirty := rfl
@[simp] theorem State.setCore_marks (s : State) (c : CoreId) (x : Core) : (s.setCore c x).marks = s.marks := rfl
@[simp] theorem State.setCore_acts (s : State) (c : CoreId) (x : Core) : (s.setCore c x).acts = s.acts := rfl
@[simp] theorem State.setCore_ctxs (s : State) (c : CoreId) (x : Core) : (s.setCore c x).ctxs = s.ctxs := rfl
@[simp] theorem State.setCore_tiles (s : State) (c : CoreId) (x : Core) : (s.setCore c x).tiles = s.tiles := rfl
@[simp] theorem State.setCore_dies (s : State) (c : CoreId) (x : Core) : (s.setCore c x).dies = s.dies := rfl
@[simp] theorem State.setCore_panel (s : State) (c : CoreId) (x : Core) : (s.setCore c x).panel = s.panel := rfl
@[simp] theorem State.setCore_featAck (s : State) (c : CoreId) (x : Core) : (s.setCore c x).featAck = s.featAck := rfl
@[simp] theorem State.setCore_featSet (s : State) (c : CoreId) (x : Core) : (s.setCore c x).featSet = s.featSet := rfl
@[simp] theorem State.setCore_pace (s : State) (c : CoreId) (x : Core) : (s.setCore c x).pace = s.pace := rfl
@[simp] theorem State.setCore_edges (s : State) (c : CoreId) (x : Core) : (s.setCore c x).edges = s.edges := rfl
@[simp] theorem State.setCore_launches (s : State) (c : CoreId) (x : Core) : (s.setCore c x).launches = s.launches := rfl
@[simp] theorem State.setCore_controls (s : State) (c : CoreId) (x : Core) : (s.setCore c x).controls = s.controls := rfl
@[simp] theorem State.setCore_answers (s : State) (c : CoreId) (x : Core) : (s.setCore c x).answers = s.answers := rfl
@[simp] theorem State.setCore_nextId (s : State) (c : CoreId) (x : Core) : (s.setCore c x).nextId = s.nextId := rfl
@[simp] theorem State.setCore_recs (s : State) (c : CoreId) (x : Core) : (s.setCore c x).recs = s.recs := rfl
@[simp] theorem State.setCore_rels (s : State) (c : CoreId) (x : Core) : (s.setCore c x).rels = s.rels := rfl
@[simp] theorem State.setCore_net (s : State) (c : CoreId) (x : Core) : (s.setCore c x).net = s.net := rfl
@[simp] theorem State.setCore_sends (s : State) (c : CoreId) (x : Core) : (s.setCore c x).sends = s.sends := rfl
@[simp] theorem State.setCore_retiring (s : State) (c : CoreId) (x : Core) : (s.setCore c x).retiring = s.retiring := rfl
@[simp] theorem State.setCore_bridge (s : State) (c : CoreId) (x : Core) : (s.setCore c x).bridge = s.bridge := rfl
@[simp] theorem State.setCore_attest (s : State) (c : CoreId) (x : Core) : (s.setCore c x).attest = s.attest := rfl
@[simp] theorem State.setCore_fuses (s : State) (c : CoreId) (x : Core) : (s.setCore c x).fuses = s.fuses := rfl

@[simp] theorem State.setTile_cur (s : State) (vt : Nat) (x : Tile) : (s.setTile vt x).cur = s.cur := rfl
@[simp] theorem State.setTile_op (s : State) (vt : Nat) (x : Tile) : (s.setTile vt x).op = s.op := rfl
@[simp] theorem State.setTile_ev (s : State) (vt : Nat) (x : Tile) : (s.setTile vt x).ev = s.ev := rfl
@[simp] theorem State.setTile_ahead (s : State) (vt : Nat) (x : Tile) : (s.setTile vt x).ahead = s.ahead := rfl
@[simp] theorem State.setTile_inputs (s : State) (vt : Nat) (x : Tile) : (s.setTile vt x).inputs = s.inputs := rfl
@[simp] theorem State.setTile_turns (s : State) (vt : Nat) (x : Tile) : (s.setTile vt x).turns = s.turns := rfl
@[simp] theorem State.setTile_free (s : State) (vt : Nat) (x : Tile) : (s.setTile vt x).free = s.free := rfl
@[simp] theorem State.setTile_mem (s : State) (vt : Nat) (x : Tile) : (s.setTile vt x).mem = s.mem := rfl
@[simp] theorem State.setTile_full (s : State) (vt : Nat) (x : Tile) : (s.setTile vt x).full = s.full := rfl
@[simp] theorem State.setTile_feq (s : State) (vt : Nat) (x : Tile) : (s.setTile vt x).feq = s.feq := rfl
@[simp] theorem State.setTile_poison (s : State) (vt : Nat) (x : Tile) : (s.setTile vt x).poison = s.poison := rfl
@[simp] theorem State.setTile_dirty (s : State) (vt : Nat) (x : Tile) : (s.setTile vt x).dirty = s.dirty := rfl
@[simp] theorem State.setTile_marks (s : State) (vt : Nat) (x : Tile) : (s.setTile vt x).marks = s.marks := rfl
@[simp] theorem State.setTile_acts (s : State) (vt : Nat) (x : Tile) : (s.setTile vt x).acts = s.acts := rfl
@[simp] theorem State.setTile_ctxs (s : State) (vt : Nat) (x : Tile) : (s.setTile vt x).ctxs = s.ctxs := rfl
@[simp] theorem State.setTile_cores (s : State) (vt : Nat) (x : Tile) : (s.setTile vt x).cores = s.cores := rfl
@[simp] theorem State.setTile_dies (s : State) (vt : Nat) (x : Tile) : (s.setTile vt x).dies = s.dies := rfl
@[simp] theorem State.setTile_panel (s : State) (vt : Nat) (x : Tile) : (s.setTile vt x).panel = s.panel := rfl
@[simp] theorem State.setTile_featAck (s : State) (vt : Nat) (x : Tile) : (s.setTile vt x).featAck = s.featAck := rfl
@[simp] theorem State.setTile_featSet (s : State) (vt : Nat) (x : Tile) : (s.setTile vt x).featSet = s.featSet := rfl
@[simp] theorem State.setTile_pace (s : State) (vt : Nat) (x : Tile) : (s.setTile vt x).pace = s.pace := rfl
@[simp] theorem State.setTile_edges (s : State) (vt : Nat) (x : Tile) : (s.setTile vt x).edges = s.edges := rfl
@[simp] theorem State.setTile_launches (s : State) (vt : Nat) (x : Tile) : (s.setTile vt x).launches = s.launches := rfl
@[simp] theorem State.setTile_controls (s : State) (vt : Nat) (x : Tile) : (s.setTile vt x).controls = s.controls := rfl
@[simp] theorem State.setTile_answers (s : State) (vt : Nat) (x : Tile) : (s.setTile vt x).answers = s.answers := rfl
@[simp] theorem State.setTile_nextId (s : State) (vt : Nat) (x : Tile) : (s.setTile vt x).nextId = s.nextId := rfl
@[simp] theorem State.setTile_recs (s : State) (vt : Nat) (x : Tile) : (s.setTile vt x).recs = s.recs := rfl
@[simp] theorem State.setTile_rels (s : State) (vt : Nat) (x : Tile) : (s.setTile vt x).rels = s.rels := rfl
@[simp] theorem State.setTile_net (s : State) (vt : Nat) (x : Tile) : (s.setTile vt x).net = s.net := rfl
@[simp] theorem State.setTile_sends (s : State) (vt : Nat) (x : Tile) : (s.setTile vt x).sends = s.sends := rfl
@[simp] theorem State.setTile_retiring (s : State) (vt : Nat) (x : Tile) : (s.setTile vt x).retiring = s.retiring := rfl
@[simp] theorem State.setTile_bridge (s : State) (vt : Nat) (x : Tile) : (s.setTile vt x).bridge = s.bridge := rfl
@[simp] theorem State.setTile_attest (s : State) (vt : Nat) (x : Tile) : (s.setTile vt x).attest = s.attest := rfl
@[simp] theorem State.setTile_fuses (s : State) (vt : Nat) (x : Tile) : (s.setTile vt x).fuses = s.fuses := rfl

@[simp] theorem State.setDie_cur (s : State) (vd : Nat) (x : Die) : (s.setDie vd x).cur = s.cur := rfl
@[simp] theorem State.setDie_op (s : State) (vd : Nat) (x : Die) : (s.setDie vd x).op = s.op := rfl
@[simp] theorem State.setDie_ev (s : State) (vd : Nat) (x : Die) : (s.setDie vd x).ev = s.ev := rfl
@[simp] theorem State.setDie_ahead (s : State) (vd : Nat) (x : Die) : (s.setDie vd x).ahead = s.ahead := rfl
@[simp] theorem State.setDie_inputs (s : State) (vd : Nat) (x : Die) : (s.setDie vd x).inputs = s.inputs := rfl
@[simp] theorem State.setDie_turns (s : State) (vd : Nat) (x : Die) : (s.setDie vd x).turns = s.turns := rfl
@[simp] theorem State.setDie_free (s : State) (vd : Nat) (x : Die) : (s.setDie vd x).free = s.free := rfl
@[simp] theorem State.setDie_mem (s : State) (vd : Nat) (x : Die) : (s.setDie vd x).mem = s.mem := rfl
@[simp] theorem State.setDie_full (s : State) (vd : Nat) (x : Die) : (s.setDie vd x).full = s.full := rfl
@[simp] theorem State.setDie_feq (s : State) (vd : Nat) (x : Die) : (s.setDie vd x).feq = s.feq := rfl
@[simp] theorem State.setDie_poison (s : State) (vd : Nat) (x : Die) : (s.setDie vd x).poison = s.poison := rfl
@[simp] theorem State.setDie_dirty (s : State) (vd : Nat) (x : Die) : (s.setDie vd x).dirty = s.dirty := rfl
@[simp] theorem State.setDie_marks (s : State) (vd : Nat) (x : Die) : (s.setDie vd x).marks = s.marks := rfl
@[simp] theorem State.setDie_acts (s : State) (vd : Nat) (x : Die) : (s.setDie vd x).acts = s.acts := rfl
@[simp] theorem State.setDie_ctxs (s : State) (vd : Nat) (x : Die) : (s.setDie vd x).ctxs = s.ctxs := rfl
@[simp] theorem State.setDie_cores (s : State) (vd : Nat) (x : Die) : (s.setDie vd x).cores = s.cores := rfl
@[simp] theorem State.setDie_tiles (s : State) (vd : Nat) (x : Die) : (s.setDie vd x).tiles = s.tiles := rfl
@[simp] theorem State.setDie_panel (s : State) (vd : Nat) (x : Die) : (s.setDie vd x).panel = s.panel := rfl
@[simp] theorem State.setDie_featAck (s : State) (vd : Nat) (x : Die) : (s.setDie vd x).featAck = s.featAck := rfl
@[simp] theorem State.setDie_featSet (s : State) (vd : Nat) (x : Die) : (s.setDie vd x).featSet = s.featSet := rfl
@[simp] theorem State.setDie_pace (s : State) (vd : Nat) (x : Die) : (s.setDie vd x).pace = s.pace := rfl
@[simp] theorem State.setDie_edges (s : State) (vd : Nat) (x : Die) : (s.setDie vd x).edges = s.edges := rfl
@[simp] theorem State.setDie_launches (s : State) (vd : Nat) (x : Die) : (s.setDie vd x).launches = s.launches := rfl
@[simp] theorem State.setDie_controls (s : State) (vd : Nat) (x : Die) : (s.setDie vd x).controls = s.controls := rfl
@[simp] theorem State.setDie_answers (s : State) (vd : Nat) (x : Die) : (s.setDie vd x).answers = s.answers := rfl
@[simp] theorem State.setDie_nextId (s : State) (vd : Nat) (x : Die) : (s.setDie vd x).nextId = s.nextId := rfl
@[simp] theorem State.setDie_recs (s : State) (vd : Nat) (x : Die) : (s.setDie vd x).recs = s.recs := rfl
@[simp] theorem State.setDie_rels (s : State) (vd : Nat) (x : Die) : (s.setDie vd x).rels = s.rels := rfl
@[simp] theorem State.setDie_net (s : State) (vd : Nat) (x : Die) : (s.setDie vd x).net = s.net := rfl
@[simp] theorem State.setDie_sends (s : State) (vd : Nat) (x : Die) : (s.setDie vd x).sends = s.sends := rfl
@[simp] theorem State.setDie_retiring (s : State) (vd : Nat) (x : Die) : (s.setDie vd x).retiring = s.retiring := rfl
@[simp] theorem State.setDie_bridge (s : State) (vd : Nat) (x : Die) : (s.setDie vd x).bridge = s.bridge := rfl
@[simp] theorem State.setDie_attest (s : State) (vd : Nat) (x : Die) : (s.setDie vd x).attest = s.attest := rfl
@[simp] theorem State.setDie_fuses (s : State) (vd : Nat) (x : Die) : (s.setDie vd x).fuses = s.fuses := rfl

@[simp] theorem State.storeBytes_cur (s : State) (a : Nat) (l : List Byte) : (s.storeBytes a l).cur = s.cur := rfl
@[simp] theorem State.storeBytes_op (s : State) (a : Nat) (l : List Byte) : (s.storeBytes a l).op = s.op := rfl
@[simp] theorem State.storeBytes_ev (s : State) (a : Nat) (l : List Byte) : (s.storeBytes a l).ev = s.ev := rfl
@[simp] theorem State.storeBytes_ahead (s : State) (a : Nat) (l : List Byte) : (s.storeBytes a l).ahead = s.ahead := rfl
@[simp] theorem State.storeBytes_inputs (s : State) (a : Nat) (l : List Byte) : (s.storeBytes a l).inputs = s.inputs := rfl
@[simp] theorem State.storeBytes_turns (s : State) (a : Nat) (l : List Byte) : (s.storeBytes a l).turns = s.turns := rfl
@[simp] theorem State.storeBytes_free (s : State) (a : Nat) (l : List Byte) : (s.storeBytes a l).free = s.free := rfl
@[simp] theorem State.storeBytes_full (s : State) (a : Nat) (l : List Byte) : (s.storeBytes a l).full = s.full := rfl
@[simp] theorem State.storeBytes_feq (s : State) (a : Nat) (l : List Byte) : (s.storeBytes a l).feq = s.feq := rfl
@[simp] theorem State.storeBytes_poison (s : State) (a : Nat) (l : List Byte) : (s.storeBytes a l).poison = s.poison := rfl
@[simp] theorem State.storeBytes_dirty (s : State) (a : Nat) (l : List Byte) : (s.storeBytes a l).dirty = s.dirty := rfl
@[simp] theorem State.storeBytes_marks (s : State) (a : Nat) (l : List Byte) : (s.storeBytes a l).marks = s.marks := rfl
@[simp] theorem State.storeBytes_acts (s : State) (a : Nat) (l : List Byte) : (s.storeBytes a l).acts = s.acts := rfl
@[simp] theorem State.storeBytes_ctxs (s : State) (a : Nat) (l : List Byte) : (s.storeBytes a l).ctxs = s.ctxs := rfl
@[simp] theorem State.storeBytes_cores (s : State) (a : Nat) (l : List Byte) : (s.storeBytes a l).cores = s.cores := rfl
@[simp] theorem State.storeBytes_tiles (s : State) (a : Nat) (l : List Byte) : (s.storeBytes a l).tiles = s.tiles := rfl
@[simp] theorem State.storeBytes_dies (s : State) (a : Nat) (l : List Byte) : (s.storeBytes a l).dies = s.dies := rfl
@[simp] theorem State.storeBytes_panel (s : State) (a : Nat) (l : List Byte) : (s.storeBytes a l).panel = s.panel := rfl
@[simp] theorem State.storeBytes_featAck (s : State) (a : Nat) (l : List Byte) : (s.storeBytes a l).featAck = s.featAck := rfl
@[simp] theorem State.storeBytes_featSet (s : State) (a : Nat) (l : List Byte) : (s.storeBytes a l).featSet = s.featSet := rfl
@[simp] theorem State.storeBytes_pace (s : State) (a : Nat) (l : List Byte) : (s.storeBytes a l).pace = s.pace := rfl
@[simp] theorem State.storeBytes_edges (s : State) (a : Nat) (l : List Byte) : (s.storeBytes a l).edges = s.edges := rfl
@[simp] theorem State.storeBytes_launches (s : State) (a : Nat) (l : List Byte) : (s.storeBytes a l).launches = s.launches := rfl
@[simp] theorem State.storeBytes_controls (s : State) (a : Nat) (l : List Byte) : (s.storeBytes a l).controls = s.controls := rfl
@[simp] theorem State.storeBytes_answers (s : State) (a : Nat) (l : List Byte) : (s.storeBytes a l).answers = s.answers := rfl
@[simp] theorem State.storeBytes_nextId (s : State) (a : Nat) (l : List Byte) : (s.storeBytes a l).nextId = s.nextId := rfl
@[simp] theorem State.storeBytes_recs (s : State) (a : Nat) (l : List Byte) : (s.storeBytes a l).recs = s.recs := rfl
@[simp] theorem State.storeBytes_rels (s : State) (a : Nat) (l : List Byte) : (s.storeBytes a l).rels = s.rels := rfl
@[simp] theorem State.storeBytes_net (s : State) (a : Nat) (l : List Byte) : (s.storeBytes a l).net = s.net := rfl
@[simp] theorem State.storeBytes_sends (s : State) (a : Nat) (l : List Byte) : (s.storeBytes a l).sends = s.sends := rfl
@[simp] theorem State.storeBytes_retiring (s : State) (a : Nat) (l : List Byte) : (s.storeBytes a l).retiring = s.retiring := rfl
@[simp] theorem State.storeBytes_bridge (s : State) (a : Nat) (l : List Byte) : (s.storeBytes a l).bridge = s.bridge := rfl
@[simp] theorem State.storeBytes_attest (s : State) (a : Nat) (l : List Byte) : (s.storeBytes a l).attest = s.attest := rfl
@[simp] theorem State.storeBytes_fuses (s : State) (a : Nat) (l : List Byte) : (s.storeBytes a l).fuses = s.fuses := rfl

@[simp] theorem State.setFull_cur (s : State) (w : Nat) (b : Bool) : (s.setFull w b).cur = s.cur := rfl
@[simp] theorem State.setFull_op (s : State) (w : Nat) (b : Bool) : (s.setFull w b).op = s.op := rfl
@[simp] theorem State.setFull_ev (s : State) (w : Nat) (b : Bool) : (s.setFull w b).ev = s.ev := rfl
@[simp] theorem State.setFull_ahead (s : State) (w : Nat) (b : Bool) : (s.setFull w b).ahead = s.ahead := rfl
@[simp] theorem State.setFull_inputs (s : State) (w : Nat) (b : Bool) : (s.setFull w b).inputs = s.inputs := rfl
@[simp] theorem State.setFull_turns (s : State) (w : Nat) (b : Bool) : (s.setFull w b).turns = s.turns := rfl
@[simp] theorem State.setFull_free (s : State) (w : Nat) (b : Bool) : (s.setFull w b).free = s.free := rfl
@[simp] theorem State.setFull_mem (s : State) (w : Nat) (b : Bool) : (s.setFull w b).mem = s.mem := rfl
@[simp] theorem State.setFull_feq (s : State) (w : Nat) (b : Bool) : (s.setFull w b).feq = s.feq := rfl
@[simp] theorem State.setFull_poison (s : State) (w : Nat) (b : Bool) : (s.setFull w b).poison = s.poison := rfl
@[simp] theorem State.setFull_dirty (s : State) (w : Nat) (b : Bool) : (s.setFull w b).dirty = s.dirty := rfl
@[simp] theorem State.setFull_marks (s : State) (w : Nat) (b : Bool) : (s.setFull w b).marks = s.marks := rfl
@[simp] theorem State.setFull_acts (s : State) (w : Nat) (b : Bool) : (s.setFull w b).acts = s.acts := rfl
@[simp] theorem State.setFull_ctxs (s : State) (w : Nat) (b : Bool) : (s.setFull w b).ctxs = s.ctxs := rfl
@[simp] theorem State.setFull_cores (s : State) (w : Nat) (b : Bool) : (s.setFull w b).cores = s.cores := rfl
@[simp] theorem State.setFull_tiles (s : State) (w : Nat) (b : Bool) : (s.setFull w b).tiles = s.tiles := rfl
@[simp] theorem State.setFull_dies (s : State) (w : Nat) (b : Bool) : (s.setFull w b).dies = s.dies := rfl
@[simp] theorem State.setFull_panel (s : State) (w : Nat) (b : Bool) : (s.setFull w b).panel = s.panel := rfl
@[simp] theorem State.setFull_featAck (s : State) (w : Nat) (b : Bool) : (s.setFull w b).featAck = s.featAck := rfl
@[simp] theorem State.setFull_featSet (s : State) (w : Nat) (b : Bool) : (s.setFull w b).featSet = s.featSet := rfl
@[simp] theorem State.setFull_pace (s : State) (w : Nat) (b : Bool) : (s.setFull w b).pace = s.pace := rfl
@[simp] theorem State.setFull_edges (s : State) (w : Nat) (b : Bool) : (s.setFull w b).edges = s.edges := rfl
@[simp] theorem State.setFull_launches (s : State) (w : Nat) (b : Bool) : (s.setFull w b).launches = s.launches := rfl
@[simp] theorem State.setFull_controls (s : State) (w : Nat) (b : Bool) : (s.setFull w b).controls = s.controls := rfl
@[simp] theorem State.setFull_answers (s : State) (w : Nat) (b : Bool) : (s.setFull w b).answers = s.answers := rfl
@[simp] theorem State.setFull_nextId (s : State) (w : Nat) (b : Bool) : (s.setFull w b).nextId = s.nextId := rfl
@[simp] theorem State.setFull_recs (s : State) (w : Nat) (b : Bool) : (s.setFull w b).recs = s.recs := rfl
@[simp] theorem State.setFull_rels (s : State) (w : Nat) (b : Bool) : (s.setFull w b).rels = s.rels := rfl
@[simp] theorem State.setFull_net (s : State) (w : Nat) (b : Bool) : (s.setFull w b).net = s.net := rfl
@[simp] theorem State.setFull_sends (s : State) (w : Nat) (b : Bool) : (s.setFull w b).sends = s.sends := rfl
@[simp] theorem State.setFull_retiring (s : State) (w : Nat) (b : Bool) : (s.setFull w b).retiring = s.retiring := rfl
@[simp] theorem State.setFull_bridge (s : State) (w : Nat) (b : Bool) : (s.setFull w b).bridge = s.bridge := rfl
@[simp] theorem State.setFull_attest (s : State) (w : Nat) (b : Bool) : (s.setFull w b).attest = s.attest := rfl
@[simp] theorem State.setFull_fuses (s : State) (w : Nat) (b : Bool) : (s.setFull w b).fuses = s.fuses := rfl

@[simp] theorem State.modLaunch_cur (s : State) (id : Nat) (f : Launch → Launch) : (s.modLaunch id f).cur = s.cur := rfl
@[simp] theorem State.modLaunch_op (s : State) (id : Nat) (f : Launch → Launch) : (s.modLaunch id f).op = s.op := rfl
@[simp] theorem State.modLaunch_ev (s : State) (id : Nat) (f : Launch → Launch) : (s.modLaunch id f).ev = s.ev := rfl
@[simp] theorem State.modLaunch_ahead (s : State) (id : Nat) (f : Launch → Launch) : (s.modLaunch id f).ahead = s.ahead := rfl
@[simp] theorem State.modLaunch_inputs (s : State) (id : Nat) (f : Launch → Launch) : (s.modLaunch id f).inputs = s.inputs := rfl
@[simp] theorem State.modLaunch_turns (s : State) (id : Nat) (f : Launch → Launch) : (s.modLaunch id f).turns = s.turns := rfl
@[simp] theorem State.modLaunch_free (s : State) (id : Nat) (f : Launch → Launch) : (s.modLaunch id f).free = s.free := rfl
@[simp] theorem State.modLaunch_mem (s : State) (id : Nat) (f : Launch → Launch) : (s.modLaunch id f).mem = s.mem := rfl
@[simp] theorem State.modLaunch_full (s : State) (id : Nat) (f : Launch → Launch) : (s.modLaunch id f).full = s.full := rfl
@[simp] theorem State.modLaunch_feq (s : State) (id : Nat) (f : Launch → Launch) : (s.modLaunch id f).feq = s.feq := rfl
@[simp] theorem State.modLaunch_poison (s : State) (id : Nat) (f : Launch → Launch) : (s.modLaunch id f).poison = s.poison := rfl
@[simp] theorem State.modLaunch_dirty (s : State) (id : Nat) (f : Launch → Launch) : (s.modLaunch id f).dirty = s.dirty := rfl
@[simp] theorem State.modLaunch_marks (s : State) (id : Nat) (f : Launch → Launch) : (s.modLaunch id f).marks = s.marks := rfl
@[simp] theorem State.modLaunch_acts (s : State) (id : Nat) (f : Launch → Launch) : (s.modLaunch id f).acts = s.acts := rfl
@[simp] theorem State.modLaunch_ctxs (s : State) (id : Nat) (f : Launch → Launch) : (s.modLaunch id f).ctxs = s.ctxs := rfl
@[simp] theorem State.modLaunch_cores (s : State) (id : Nat) (f : Launch → Launch) : (s.modLaunch id f).cores = s.cores := rfl
@[simp] theorem State.modLaunch_tiles (s : State) (id : Nat) (f : Launch → Launch) : (s.modLaunch id f).tiles = s.tiles := rfl
@[simp] theorem State.modLaunch_dies (s : State) (id : Nat) (f : Launch → Launch) : (s.modLaunch id f).dies = s.dies := rfl
@[simp] theorem State.modLaunch_panel (s : State) (id : Nat) (f : Launch → Launch) : (s.modLaunch id f).panel = s.panel := rfl
@[simp] theorem State.modLaunch_featAck (s : State) (id : Nat) (f : Launch → Launch) : (s.modLaunch id f).featAck = s.featAck := rfl
@[simp] theorem State.modLaunch_featSet (s : State) (id : Nat) (f : Launch → Launch) : (s.modLaunch id f).featSet = s.featSet := rfl
@[simp] theorem State.modLaunch_pace (s : State) (id : Nat) (f : Launch → Launch) : (s.modLaunch id f).pace = s.pace := rfl
@[simp] theorem State.modLaunch_edges (s : State) (id : Nat) (f : Launch → Launch) : (s.modLaunch id f).edges = s.edges := rfl
@[simp] theorem State.modLaunch_controls (s : State) (id : Nat) (f : Launch → Launch) : (s.modLaunch id f).controls = s.controls := rfl
@[simp] theorem State.modLaunch_answers (s : State) (id : Nat) (f : Launch → Launch) : (s.modLaunch id f).answers = s.answers := rfl
@[simp] theorem State.modLaunch_nextId (s : State) (id : Nat) (f : Launch → Launch) : (s.modLaunch id f).nextId = s.nextId := rfl
@[simp] theorem State.modLaunch_recs (s : State) (id : Nat) (f : Launch → Launch) : (s.modLaunch id f).recs = s.recs := rfl
@[simp] theorem State.modLaunch_rels (s : State) (id : Nat) (f : Launch → Launch) : (s.modLaunch id f).rels = s.rels := rfl
@[simp] theorem State.modLaunch_net (s : State) (id : Nat) (f : Launch → Launch) : (s.modLaunch id f).net = s.net := rfl
@[simp] theorem State.modLaunch_sends (s : State) (id : Nat) (f : Launch → Launch) : (s.modLaunch id f).sends = s.sends := rfl
@[simp] theorem State.modLaunch_retiring (s : State) (id : Nat) (f : Launch → Launch) : (s.modLaunch id f).retiring = s.retiring := rfl
@[simp] theorem State.modLaunch_bridge (s : State) (id : Nat) (f : Launch → Launch) : (s.modLaunch id f).bridge = s.bridge := rfl
@[simp] theorem State.modLaunch_attest (s : State) (id : Nat) (f : Launch → Launch) : (s.modLaunch id f).attest = s.attest := rfl
@[simp] theorem State.modLaunch_fuses (s : State) (id : Nat) (f : Launch → Launch) : (s.modLaunch id f).fuses = s.fuses := rfl

/-! Parts of the machine after a write of a part. -/

@[simp] theorem State.ctx_setCtx_same (s : State) (c : CtxId) (x : Ctx) : (s.setCtx c x).ctx c = x := by
  simp [State.ctx, State.setCtx]

theorem State.ctx_setCtx_ne (s : State) {c d : CtxId} (x : Ctx) (h : d.key ≠ c.key) : (s.setCtx c x).ctx d = s.ctx d := by
  simp [State.ctx, State.setCtx, Tab.get_set_ne _ _ _ h]

@[simp] theorem State.ctx_modCtx_same (s : State) (c : CtxId) (f : Ctx → Ctx) : (s.modCtx c f).ctx c = f (s.ctx c) := by
  simp [State.modCtx]

theorem State.ctx_modCtx_ne (s : State) {c d : CtxId} (f : Ctx → Ctx) (h : d.key ≠ c.key) : (s.modCtx c f).ctx d = s.ctx d :=
  s.ctx_setCtx_ne _ h

/-- A part of a context that an update does not change, in every context. -/
theorem State.ctx_modCtx_proj {α : Type} (s : State) (c : CtxId) (f : Ctx → Ctx) (g : Ctx → α) (hf : ∀ k, g (f k) = g k)
    (hr : ∀ i j, g (Ctx.reset i) = g (Ctx.reset j)) {d : CtxId} : g ((s.modCtx c f).ctx d) = g (s.ctx d) := by
  by_cases h : d.key = c.key
  · simp only [State.ctx, State.modCtx, State.setCtx, h, Tab.get_set_same, hf]
    unfold Tab.get
    cases Tab.find s.ctxs c.key with
    | none => exact hr _ _
    | some x => rfl
  · rw [State.ctx_modCtx_ne _ _ h]

@[simp] theorem State.core_setCore_same (s : State) (c : CoreId) (x : Core) : (s.setCore c x).core c = x := by
  simp [State.core, State.setCore]

theorem State.core_setCore_ne (s : State) {c d : CoreId} (x : Core) (h : d.key ≠ c.key) : (s.setCore c x).core d = s.core d := by
  simp [State.core, State.setCore, Tab.get_set_ne _ _ _ h]

@[simp] theorem State.core_modCore_same (s : State) (c : CoreId) (f : Core → Core) : (s.modCore c f).core c = f (s.core c) := by
  simp [State.modCore]

theorem State.core_modCore_ne (s : State) {c d : CoreId} (f : Core → Core) (h : d.key ≠ c.key) : (s.modCore c f).core d = s.core d :=
  s.core_setCore_ne _ h

@[simp] theorem State.tile_setTile_same (s : State) (vt : Nat) (x : Tile) : (s.setTile vt x).tile vt = x := by
  simp [State.tile, State.setTile]

theorem State.tile_setTile_ne (s : State) {vt vu : Nat} (x : Tile) (h : vu ≠ vt) : (s.setTile vt x).tile vu = s.tile vu := by
  simp [State.tile, State.setTile, Tab.get_set_ne _ _ _ h]

@[simp] theorem State.tile_modTile_same (s : State) (vt : Nat) (f : Tile → Tile) : (s.modTile vt f).tile vt = f (s.tile vt) := by
  simp [State.modTile]

theorem State.tile_modTile_ne (s : State) {vt vu : Nat} (f : Tile → Tile) (h : vu ≠ vt) : (s.modTile vt f).tile vu = s.tile vu :=
  s.tile_setTile_ne _ h

@[simp] theorem State.die_setDie_same (s : State) (vd : Nat) (x : Die) : (s.setDie vd x).die vd = x := by
  simp [State.die, State.setDie]

theorem State.die_setDie_ne (s : State) {vd ve : Nat} (x : Die) (h : ve ≠ vd) : (s.setDie vd x).die ve = s.die ve := by
  simp only [State.die, State.setDie]
  exact Tab.get_set_ne _ _ _ h

@[simp] theorem State.die_modDie_same (s : State) (vd : Nat) (f : Die → Die) : (s.modDie vd f).die vd = f (s.die vd) := by
  simp [State.modDie]

theorem State.die_modDie_ne (s : State) {vd ve : Nat} (f : Die → Die) (h : ve ≠ vd) : (s.modDie vd f).die ve = s.die ve :=
  s.die_setDie_ne _ h

/-! Parts after a write of another part. -/

@[simp] theorem State.ctx_setCore (s : State) (c : CoreId) (x : Core) (d : CtxId) : (s.setCore c x).ctx d = s.ctx d := rfl
@[simp] theorem State.ctx_modCore (s : State) (c : CoreId) (f : Core → Core) (d : CtxId) : (s.modCore c f).ctx d = s.ctx d := rfl
@[simp] theorem State.ctx_setTile (s : State) (vt : Nat) (x : Tile) (d : CtxId) : (s.setTile vt x).ctx d = s.ctx d := rfl
@[simp] theorem State.ctx_setDie (s : State) (vd : Nat) (x : Die) (d : CtxId) : (s.setDie vd x).ctx d = s.ctx d := rfl
@[simp] theorem State.ctx_storeBytes (s : State) (a : Nat) (l : List Byte) (d : CtxId) : (s.storeBytes a l).ctx d = s.ctx d := rfl
@[simp] theorem State.core_setCtx (s : State) (c : CtxId) (x : Ctx) (d : CoreId) : (s.setCtx c x).core d = s.core d := rfl
@[simp] theorem State.core_modCtx (s : State) (c : CtxId) (f : Ctx → Ctx) (d : CoreId) : (s.modCtx c f).core d = s.core d := rfl
@[simp] theorem State.core_setTile (s : State) (vt : Nat) (x : Tile) (d : CoreId) : (s.setTile vt x).core d = s.core d := rfl
@[simp] theorem State.core_setDie (s : State) (vd : Nat) (x : Die) (d : CoreId) : (s.setDie vd x).core d = s.core d := rfl
@[simp] theorem State.core_storeBytes (s : State) (a : Nat) (l : List Byte) (d : CoreId) : (s.storeBytes a l).core d = s.core d := rfl
@[simp] theorem State.tile_setCtx (s : State) (c : CtxId) (x : Ctx) (vt : Nat) : (s.setCtx c x).tile vt = s.tile vt := rfl
@[simp] theorem State.tile_setCore (s : State) (c : CoreId) (x : Core) (vt : Nat) : (s.setCore c x).tile vt = s.tile vt := rfl
@[simp] theorem State.mem_modCtx (s : State) (c : CtxId) (f : Ctx → Ctx) : (s.modCtx c f).mem = s.mem := rfl
@[simp] theorem State.mem_modCore (s : State) (c : CoreId) (f : Core → Core) : (s.modCore c f).mem = s.mem := rfl
@[simp] theorem State.mem_modTile (s : State) (vt : Nat) (f : Tile → Tile) : (s.modTile vt f).mem = s.mem := rfl
@[simp] theorem State.mem_modDie (s : State) (vd : Nat) (f : Die → Die) : (s.modDie vd f).mem = s.mem := rfl
@[simp] theorem State.cores_modCtx (s : State) (c : CtxId) (f : Ctx → Ctx) : (s.modCtx c f).cores = s.cores := rfl
@[simp] theorem State.ctxs_modCore (s : State) (c : CoreId) (f : Core → Core) : (s.modCore c f).ctxs = s.ctxs := rfl

/-! Registers (R20, R21). -/

@[simp] theorem State.rs_zero (s : State) (c : CtxId) : s.rs c 0 = 0 := rfl
@[simp] theorem State.ws_zero (s : State) (c : CtxId) (x : Word) : s.ws c 0 x = s := rfl
@[simp] theorem State.rp_zero (s : State) (c : CtxId) : s.rp c 0 = 0xffff := rfl
@[simp] theorem State.wp_zero (s : State) (c : CtxId) (x : Half) : s.wp c 0 x = s := rfl

theorem State.rs_of_ctx {s t : State} {c : CtxId} (h : (t.ctx c).s = (s.ctx c).s) (r : BitVec 5) : t.rs c r = s.rs c r := by
  simp [State.rs, h]

theorem State.rp_of_ctx {s t : State} {c : CtxId} (h : (t.ctx c).p = (s.ctx c).p) (r : BitVec 5) : t.rp c r = s.rp c r := by
  simp [State.rp, h]

theorem State.rs_ws_same (s : State) (c : CtxId) {r : BitVec 5} (x : Word) (h : r ≠ 0) : (s.ws c r x).rs c r = x := by
  have hr : r.toNat < 32 := r.isLt
  simp only [State.rs, State.ws, if_neg h]
  simp [Array.getD, hr]

theorem State.rs_ws_ne (s : State) (c : CtxId) {r q : BitVec 5} (x : Word) (h : q ≠ r) : (s.ws c r x).rs c q = s.rs c q := by
  have hq : q.toNat < 32 := q.isLt
  have hn : r.toNat ≠ q.toNat := fun e => h (BitVec.eq_of_toNat_eq e.symm)
  unfold State.ws
  split
  · rfl
  · simp [State.rs, Array.getD, hq, hn]

theorem State.rs_ws_ctx_ne (s : State) {c d : CtxId} (r q : BitVec 5) (x : Word) (h : d.key ≠ c.key) :
    (s.ws c r x).rs d q = s.rs d q := by
  unfold State.ws
  split
  · rfl
  · simp [State.rs, State.ctx_modCtx_ne _ _ h]

theorem State.rp_wp_same (s : State) (c : CtxId) {r : BitVec 5} (x : Half) (h : r ≠ 0) (hr : r.toNat < 8) :
    (s.wp c r x).rp c r = x := by
  simp only [State.rp, State.wp, if_neg h]
  simp [Array.getD, hr]

theorem State.rp_wp_ne (s : State) (c : CtxId) {r q : BitVec 5} (x : Half) (h : q ≠ r) : (s.wp c r x).rp c q = s.rp c q := by
  have hn : r.toNat ≠ q.toNat := fun e => h (BitVec.eq_of_toNat_eq e.symm)
  unfold State.wp
  split
  · rfl
  · by_cases hq : q.toNat < 8
    · simp [State.rp, Array.getD, hq, hn]
    · simp [State.rp, Array.getD, hq]

@[simp] theorem State.rp_ws (s : State) (c d : CtxId) (r q : BitVec 5) (x : Word) : (s.ws c r x).rp d q = s.rp d q := by
  unfold State.ws
  split
  · rfl
  · apply State.rp_of_ctx
    refine s.ctx_modCtx_proj c _ Ctx.p ?_ ?_
    · intro k; rfl
    · intro i j; rfl

@[simp] theorem State.rs_wp (s : State) (c d : CtxId) (r q : BitVec 5) (x : Half) : (s.wp c r x).rs d q = s.rs d q := by
  unfold State.wp
  split
  · rfl
  · apply State.rs_of_ctx
    refine s.ctx_modCtx_proj c _ Ctx.s ?_ ?_
    · intro k; rfl
    · intro i j; rfl

/-- A part of a context that every reset context shares depends on the key alone. -/
theorem State.ctx_key_proj {α : Type} (s : State) (g : Ctx → α) (hr : ∀ i j, g (Ctx.reset i) = g (Ctx.reset j)) {c d : CtxId}
    (h : d.key = c.key) : g (s.ctx d) = g (s.ctx c) := by
  simp only [State.ctx, h, Tab.get]
  cases Tab.find s.ctxs c.key with
  | none => exact hr _ _
  | some x => rfl

theorem State.rs_key (s : State) {c d : CtxId} (h : d.key = c.key) (r : BitVec 5) : s.rs d r = s.rs c r := by
  simp only [State.rs, s.ctx_key_proj Ctx.s (fun _ _ => rfl) h]

theorem State.rp_key (s : State) {c d : CtxId} (h : d.key = c.key) (r : BitVec 5) : s.rp d r = s.rp c r := by
  simp only [State.rp, s.ctx_key_proj Ctx.p (fun _ _ => rfl) h]

@[simp] theorem State.mem_ws (s : State) (c : CtxId) (r : BitVec 5) (x : Word) : (s.ws c r x).mem = s.mem := by
  unfold State.ws; split <;> rfl

@[simp] theorem State.mem_wp (s : State) (c : CtxId) (r : BitVec 5) (x : Half) : (s.wp c r x).mem = s.mem := by
  unfold State.wp; split <;> rfl

@[simp] theorem State.cores_ws (s : State) (c : CtxId) (r : BitVec 5) (x : Word) : (s.ws c r x).cores = s.cores := by
  unfold State.ws; split <;> rfl

@[simp] theorem State.cores_wp (s : State) (c : CtxId) (r : BitVec 5) (x : Half) : (s.wp c r x).cores = s.cores := by
  unfold State.wp; split <;> rfl

end Sys2Proof.Machine
end

