-- ==== Sys2Proof/Laws/Memory.lean ====
section
/-! SUPPORT. Memory: a byte reads as it was written last, a write leaves every other byte alone, and every memory operation keeps the
canonical form. -/

namespace Sys2Proof.Machine

open Sys2Proof

theorem memWfFrom_le {lo lo' : Nat} (h : lo' ≤ lo) {m : List Host.Cell} (w : memWfFrom lo m = true) : memWfFrom lo' m = true := by
  cases m with
  | nil => rfl
  | cons p r =>
    obtain ⟨a, x⟩ := p
    simp only [memWfFrom, Bool.and_eq_true, decide_eq_true_eq] at w ⊢
    exact ⟨⟨by omega, w.1.2⟩, w.2⟩

/-- A write keeps the canonical form. -/
theorem memSet_wfFrom (m : List Host.Cell) (lo a : Nat) (x : Byte) (ha : lo ≤ a) (w : memWfFrom lo m = true) :
    memWfFrom lo (memSet m a x) = true := by
  induction m generalizing lo with
  | nil =>
    simp only [memSet]
    split
    · rfl
    · next h => simp [memWfFrom, ha, h]
  | cons p r ih =>
    obtain ⟨b, y⟩ := p
    simp only [memWfFrom, Bool.and_eq_true, decide_eq_true_eq] at w
    simp only [memSet]
    split
    · split
      · simp only [memWfFrom, Bool.and_eq_true, decide_eq_true_eq]; exact w
      · next hlt hx =>
        simp only [memWfFrom, Bool.and_eq_true, decide_eq_true_eq, bne_iff_ne]
        exact ⟨⟨ha, hx⟩, ⟨⟨by omega, by simpa using w.1.2⟩, w.2⟩⟩
    · split
      · split
        · exact memWfFrom_le (by omega) w.2
        · next he hx =>
          subst he
          simp only [memWfFrom, Bool.and_eq_true, decide_eq_true_eq, bne_iff_ne]
          exact ⟨⟨ha, hx⟩, w.2⟩
      · simp only [memWfFrom, Bool.and_eq_true, decide_eq_true_eq]
        exact ⟨w.1, ih (b + 1) (by omega) w.2⟩

theorem memSet_wf {m : List Host.Cell} (a : Nat) (x : Byte) (w : Memory.wf m = true) : Memory.wf (memSet m a x) = true :=
  memSet_wfFrom m 0 a x (Nat.zero_le a) w

theorem memStore_wf {m : List Host.Cell} (l : List Byte) (a : Nat) (w : Memory.wf m = true) : Memory.wf (memStore m a l) = true := by
  induction l generalizing m a with
  | nil => exact w
  | cons b r ih => exact ih (a + 1) (memSet_wf a b w)

/-- Dropping entries keeps the canonical form. -/
theorem memFilter_wfFrom (f : Host.Cell → Bool) (m : List Host.Cell) (lo : Nat) (w : memWfFrom lo m = true) :
    memWfFrom lo (m.filter f) = true := by
  induction m generalizing lo with
  | nil => rfl
  | cons p r ih =>
    obtain ⟨a, x⟩ := p
    simp only [memWfFrom, Bool.and_eq_true, decide_eq_true_eq] at w
    simp only [List.filter]
    split
    · simp only [memWfFrom, Bool.and_eq_true, decide_eq_true_eq]
      exact ⟨w.1, ih _ w.2⟩
    · exact memWfFrom_le (by omega) (ih _ w.2)

theorem memFilter_wf (f : Host.Cell → Bool) {m : List Host.Cell} (w : Memory.wf m = true) : Memory.wf (m.filter f) = true :=
  memFilter_wfFrom f m 0 w

/-- An address below the canonical form's first reads as the background. -/
theorem memByte_below (m : List Host.Cell) (lo a : Nat) (h : a < lo) (w : memWfFrom lo m = true) : memByte m a = background a := by
  cases m with
  | nil => rfl
  | cons p r =>
    obtain ⟨b, x⟩ := p
    simp only [memWfFrom, Bool.and_eq_true, decide_eq_true_eq] at w
    simp only [memByte]
    rw [if_pos (by omega)]

theorem memByte_memSet_same (m : List Host.Cell) (lo a : Nat) (x : Byte) (w : memWfFrom lo m = true) :
    memByte (memSet m a x) a = x := by
  induction m generalizing lo with
  | nil =>
    simp only [memSet]
    split
    · next h => simp [memByte, h]
    · simp [memByte]
  | cons p r ih =>
    obtain ⟨b, y⟩ := p
    simp only [memWfFrom, Bool.and_eq_true, decide_eq_true_eq] at w
    simp only [memSet]
    split
    · next h =>
      split
      · next hx => simp [memByte, h, hx]
      · simp [memByte]
    · next h =>
      split
      · next he =>
        subst he
        split
        · next hx => rw [memByte_below r (a + 1) a (by omega) w.2, hx]
        · simp [memByte]
      · next he => simp only [memByte, if_neg h, if_neg he]; exact ih _ w.2

theorem memByte_memSet_ne (m : List Host.Cell) (lo : Nat) {a b : Nat} (x : Byte) (h : b ≠ a) (w : memWfFrom lo m = true) :
    memByte (memSet m a x) b = memByte m b := by
  induction m generalizing lo with
  | nil =>
    simp only [memSet]
    split
    · rfl
    · simp only [memByte, if_neg h]
      split <;> rfl
  | cons p r ih =>
    obtain ⟨c, y⟩ := p
    simp only [memWfFrom, Bool.and_eq_true, decide_eq_true_eq] at w
    simp only [memSet]
    split
    · next hac =>
      split
      · rfl
      · simp only [memByte, if_neg h]
        by_cases hb : b < a
        · rw [if_pos hb, if_pos (by omega)]
        · rw [if_neg hb]
    · next hac =>
      split
      · next he =>
        subst he
        split
        · simp only [memByte, if_neg h]
          by_cases hb : b < a
          · rw [if_pos hb]; exact memByte_below r (a + 1) b (by omega) w.2
          · rw [if_neg hb]
        · simp only [memByte, if_neg h]
      · next he =>
        simp only [memByte]
        rw [ih _ w.2]

/-- A byte outside the stored ones reads as before. -/
theorem memByte_memStore_ne (m : List Host.Cell) (l : List Byte) (a : Nat) {b : Nat} (h : b < a ∨ a + l.length ≤ b)
    (w : Memory.wf m = true) : memByte (memStore m a l) b = memByte m b := by
  induction l generalizing m a with
  | nil => rfl
  | cons x r ih =>
    simp only [List.length_cons] at h
    simp only [memStore]
    rw [ih (memSet m a x) (a + 1) (by omega) (memSet_wf a x w), memByte_memSet_ne m 0 x (by omega) w]

/-- Byte i of a stored string reads back. -/
theorem memByte_memStore_same (m : List Host.Cell) (l : List Byte) (a i : Nat) (h : i < l.length) (w : Memory.wf m = true) :
    memByte (memStore m a l) (a + i) = l[i] := by
  induction l generalizing m a i with
  | nil => simp at h
  | cons x r ih =>
    simp only [memStore]
    cases i with
    | zero =>
      rw [memByte_memStore_ne _ r (a + 1) (by omega) (memSet_wf a x w)]
      exact memByte_memSet_same m 0 a x w
    | succ j =>
      have := ih (memSet m a x) (a + 1) j (by simpa using h) (memSet_wf a x w)
      rw [show a + (j + 1) = a + 1 + j by omega, this]
      simp

theorem State.storeBytes_memWf {s : State} (a : Nat) (l : List Byte) (w : Memory.wf s.mem = true) :
    Memory.wf (s.storeBytes a l).mem = true := memStore_wf l a w

theorem State.reset_memWf : Memory.wf State.reset.mem = true := rfl

end Sys2Proof.Machine
end

