-- ==== Sys2Proof/Laws/Issue.lean ====
section
/-! SUPPORT. Issuing an instruction: what completing it, signalling and taking in a sync wait leave unchanged, and the one lemma that says
everything `issue` can do in a context alone. -/

namespace Sys2Proof.Machine

open Sys2Proof

/-- The parts of a context that a completion leaves alone. -/
def Ctx.regPart (k : Ctx) := (k.s, k.p, k.v, k.a, k.g, k.ff, k.seed, k.lpct, k.mode, k.sup, k.cause, k.trapPc, k.trapVal, k.trapTag)

theorem Frame.of_ctx {s t : State} (c : CtxId) (w : Touch) (h : ∀ e : CtxId, (t.ctx e).regPart = (s.ctx e).regPart)
    (hm : t.mem = s.mem) : Frame s t c w := by
  have p := fun e => by simpa only [Ctx.regPart, Prod.mk.injEq] using h e
  have p6 := fun e => (p e).2.2.2.2.2
  exact
    { regs := fun e r _ => State.rs_of_ctx (p e).1 r
      preds := fun e r _ => State.rp_of_ctx (p e).2.1 r
      vecs := fun e r _ => by simp only [State.rv, (p e).2.2.1]
      accs := fun e r _ => by simp only [State.ra, (p e).2.2.2.1]
      latches := fun e r _ => by simp only [State.rg, (p e).2.2.2.2.1]
      flags := fun e _ => (p6 e).1
      seeds := fun e _ => (p6 e).2.1
      loops := fun e _ => (p6 e).2.2.1
      modes := fun e => (p6 e).2.2.2.1
      supervisor := fun e => (p6 e).2.2.2.2.1
      frames := fun e => (p6 e).2.2.2.2.2
      memory := fun a _ => by simp only [State.byte, hm] }

theorem Frame.refl (s : State) (c : CtxId) (w : Touch) : Frame s s c w := Frame.of_ctx c w (fun _ => rfl) rfl

theorem Frame.trans {s t u : State} {c : CtxId} {w : Touch} (h : Frame s t c w) (k : Frame t u c w) : Frame s u c w where
  regs e r x := (k.regs e r x).trans (h.regs e r x)
  preds e r x := (k.preds e r x).trans (h.preds e r x)
  vecs e r x := (k.vecs e r x).trans (h.vecs e r x)
  accs e r x := (k.accs e r x).trans (h.accs e r x)
  latches e r x := (k.latches e r x).trans (h.latches e r x)
  flags e x := (k.flags e x).trans (h.flags e x)
  seeds e x := (k.seeds e x).trans (h.seeds e x)
  loops e x := (k.loops e x).trans (h.loops e x)
  modes e := (k.modes e).trans (h.modes e)
  supervisor e := (k.supervisor e).trans (h.supervisor e)
  frames e := ⟨(k.frames e).1.trans (h.frames e).1, (k.frames e).2.1.trans (h.frames e).2.1, (k.frames e).2.2.1.trans (h.frames e).2.2.1,
    (k.frames e).2.2.2.trans (h.frames e).2.2.2⟩
  memory a x := (k.memory a x).trans (h.memory a x)

/-! Each step of a completion, after what came before. -/

section
variable {s t : State} {e : CtxId} {d : Touch}

theorem Frame.modCtx (h : Frame s t e d) (c : CtxId) (f : Ctx → Ctx) (hf : ∀ k, (f k).regPart = k.regPart) :
    Frame s (t.modCtx c f) e d :=
  h.trans (Frame.of_ctx e d (fun _ => t.ctx_modCtx_proj c f Ctx.regPart hf (fun _ _ => rfl)) rfl)

theorem Frame.modCore (h : Frame s t e d) (c : CoreId) (f : Core → Core) : Frame s (t.modCore c f) e d :=
  h.trans (Frame.of_ctx e d (fun _ => rfl) rfl)

theorem Frame.setCtx (h : Frame s t e d) (c : CtxId) (x : Ctx) (hx : x.regPart = (t.ctx c).regPart) : Frame s (t.setCtx c x) e d := by
  refine h.trans (Frame.of_ctx e d (fun f => ?_) rfl)
  by_cases hk : f.key = c.key
  · rw [t.ctx_key_proj Ctx.regPart (fun _ _ => rfl) hk, ← hx]
    simp only [State.ctx, State.setCtx, hk, Tab.get_set_same]
  · rw [t.ctx_setCtx_ne x hk]

/-- An update of the state that touches neither contexts nor memory. -/
theorem Frame.other {u : State} (h : Frame s t e d) (hc : u.ctxs = t.ctxs) (hm : u.mem = t.mem) : Frame s u e d :=
  h.trans (Frame.of_ctx e d (fun f => by simp only [State.ctx, hc]) hm)

theorem Frame.post (h : Frame s t e d) (c : CtxId) (b : Bool) (tag : BitVec 32) (m : Msg) : Frame s (t.post c b tag m) e d := by
  unfold State.post
  split <;> exact h.other rfl rfl

theorem Frame.sendAll (l : List (Msg × BitVec 32)) (h : Frame s t e d) (c : CtxId) : Frame s (t.sendAll c l) e d := by
  induction l generalizing t with
  | nil => exact h
  | cons p r ih =>
    obtain ⟨m, tag⟩ := p
    simp only [State.sendAll]
    apply ih
    apply Frame.post
    split
    · exact h
    · exact h.modCore _ _

/-- A commit event changes no register, flag or byte of memory. -/
theorem Frame.commit (h : Frame s t e d) (c : CtxId) : Frame s (t.commit c) e d := by
  simp only [State.commit]
  split
  · exact h
  · apply Frame.sendAll
    exact h.setCtx _ _ rfl

theorem Ctx.wake_regPart (k : Ctx) : k.wake.regPart = k.regPart := by
  unfold Ctx.wake
  split <;> rfl

theorem Frame.wakeFrom (l : List Nat) (h : Frame s t e d) (c : CoreId) : Frame s (t.wakeFrom c l) e d := by
  induction l generalizing t with
  | nil => exact h
  | cons i r ih =>
    simp only [State.wakeFrom]
    apply ih
    split
    · exact h.modCtx _ _ Ctx.wake_regPart
    · exact h

theorem Frame.signal (h : Frame s t e d) (c : CoreId) (n i : Nat) (b : Bool) : Frame s (t.signal c n i b) e d := by
  simp only [State.signal, State.wakeCore]
  split
  · exact h.modCore _ _
  · exact (h.modCore _ _).wakeFrom _ _

theorem Frame.reinCarry (h : Frame s t e d) (c : CoreId) (n : Nat) (i : HbInfo) : Frame s (t.reinCarry c n i) e d := by
  unfold State.reinCarry
  split
  · exact h
  · exact h.modCore _ _

theorem Frame.reinSignal (h : Frame s t e d) (c : CtxId) (n : Nat) : Frame s (t.reinSignal c n) e d := by
  unfold State.reinSignal
  split
  · exact h
  · exact h.reinCarry _ _ _

theorem Frame.modHb (h : Frame s t e d) (c : CtxId) (f : Hb → Hb) : Frame s (t.modHb c f) e d := h.modCtx _ _ (fun _ => rfl)

theorem Frame.signalLocal (h : Frame s t e d) (c : CtxId) (g : Option (Nat × Nat)) : Frame s (t.signalLocal c g) e d := by
  unfold State.signalLocal
  split
  · exact h
  · exact ((h.commit _).reinSignal _ _).signal _ _ _ _

theorem Frame.acquireInfo (h : Frame s t e d) (c : CtxId) (i : HbInfo) : Frame s (t.acquireInfo c i) e d := h.modHb _ _

theorem Frame.reinTaken (h : Frame s t e d) (c : CtxId) (n : Nat) : Frame s (t.reinTaken c n) e d := by
  simp only [State.reinTaken]
  split
  · exact h
  · split
    · refine Frame.modCtx ?_ _ _ (fun _ => rfl)
      exact (h.acquireInfo c _).other rfl rfl
    · exact h.acquireInfo _ _

theorem Frame.syncTaken (l : List CtxId) (h : Frame s t e d) (o : Fields) : Frame s (t.syncTaken o l) e d := by
  induction l generalizing t with
  | nil => exact h
  | cons c r ih =>
    simp only [State.syncTaken]
    split
    · exact h
    · exact ih (h.reinTaken _ _)

/-- Noting what stands before an instruction's accesses changes no register, flag or byte of memory. -/
theorem Frame.beginAccess (h : Frame s t e d) (c : CtxId) (row : Instr) (o : Fields) (i : HbInfo) :
    Frame s (t.beginAccess c row o i) e d := by
  simp only [State.beginAccess]
  split
  · exact h
  · exact h.modHb _ _

/-- Noting what an instruction leaves ordered changes no register, flag or byte of memory. -/
theorem Frame.endAccess (h : Frame s t e d) (c : CtxId) (row : Instr) (o : Fields) (off : Bool) : Frame s (t.endAccess c row o off) e d := by
  simp only [State.endAccess]
  split
  · exact h
  · split <;> exact h.modHb _ _

theorem Frame.fingerAdd (h : Frame s t e d) (c : CtxId) (pc : Word) (row : Instr) (o : Fields) (b b' : Bool) (g : Option (Nat × Nat)) :
    Frame s (t.fingerAdd c pc row o b b' g) e d := by
  simp only [State.fingerAdd]
  split
  · exact h
  · refine Frame.modCore ?_ _ _
    exact h.modCtx _ _ (fun _ => rfl)

theorem Ctx.advance_regPart (k : Ctx) (ctl : Ctl) : (k.advance ctl).regPart = k.regPart := by
  cases ctl <;> rfl

/-- Completing an instruction changes no register, flag or byte of memory (R84). -/
theorem Frame.complete (h : Frame s t e d) (c : CtxId) (row : Instr) (o : Fields) (off : Bool) (ctl : Ctl) (g : Option (Nat × Nat)) :
    Frame s (t.complete c row o off ctl g) e d := by
  unfold State.complete
  extract_lets pc ends s1 s2 s3 s4
  have h1 : Frame s s1 e d := h.endAccess _ _ _ _
  have h2 : Frame s s2 e d := by
    simp only [s2]
    split
    · exact h1
    · exact h1.modCtx _ _ (fun k => Ctx.advance_regPart k ctl)
  have h3 : Frame s s3 e d := by
    simp only [s3]
    split
    · exact h2
    · exact h2.fingerAdd _ _ _ _ _ _ _
  have h4 : Frame s s4 e d := by
    simp only [s4]
    split
    · exact h3.commit _
    · exact h3
  split
  · exact h4
  · exact (h4.signalLocal _ _).signalLocal _ _

/-- Taking in a sync wait changes no register, flag or byte of memory. -/
theorem synced_frame (s : State) (e : CtxId) (d : Touch) : Frame s s.synced e d := (Frame.refl s e d).syncTaken _ _

/-- Beginning an instruction changes no register, flag or byte of memory. -/
theorem taken_frame (s : State) (row : Instr) (e : CtxId) (d : Touch) : Frame s (s.taken row) e d := (synced_frame s e d).beginAccess _ _ _ _

/-- Completing changes no register, flag or byte of memory. -/
theorem after_frame (s : State) (row : Instr) (ctl : Ctl) (e : CtxId) (d : Touch) : Frame t (s.after row ctl t) e d :=
  (Frame.refl t e d).complete _ _ _ _ _ _

theorem Frame.ws (h : Frame s t e d) {r : BitVec 5} (hr : r ∈ d.s) (x : Word) : Frame s (t.ws e r x) e d := by
  refine h.trans ?_
  by_cases h0 : r = 0
  · subst h0; exact Frame.refl _ _ _
  · have hw : t.ws e r x = t.modCtx e (fun k => { k with s := k.s.setIfInBounds r.toNat x }) := by simp only [State.ws, if_neg h0]
    have p : ∀ f, ((t.ws e r x).ctx f).regPart.2 = (t.ctx f).regPart.2 := fun f => by
      rw [hw]
      refine t.ctx_modCtx_proj e _ (fun k => k.regPart.2) ?_ ?_ <;> intros <;> rfl
    have p := fun f => by simpa only [Ctx.regPart, Prod.mk.injEq] using p f
    have p6 := fun f => (p f).2.2.2.2
    exact
      { regs := fun f q hn => by
          by_cases hk : f.key = e.key
          · rw [State.rs_key _ hk, State.rs_key t hk]
            exact t.rs_ws_ne e x (fun hq => hn ⟨hk, hq ▸ hr⟩)
          · exact t.rs_ws_ctx_ne r q x hk
        preds := fun f q _ => State.rp_of_ctx (p f).1 q
        vecs := fun f q _ => by simp only [State.rv, (p f).2.1]
        accs := fun f q _ => by simp only [State.ra, (p f).2.2.1]
        latches := fun f q _ => by simp only [State.rg, (p f).2.2.2.1]
        flags := fun f _ => (p6 f).1
        seeds := fun f _ => (p6 f).2.1
        loops := fun f _ => (p6 f).2.2.1
        modes := fun f => (p6 f).2.2.2.1
        supervisor := fun f => (p6 f).2.2.2.2.1
        frames := fun f => (p6 f).2.2.2.2.2
        memory := fun a _ => by rw [hw]; rfl }

/-- A predicate register write changes that register only. -/
theorem Frame.wp (h : Frame s t e d) {r : BitVec 5} (hr : r ∈ d.p) (x : Half) : Frame s (t.wp e r x) e d := by
  refine h.trans ?_
  by_cases h0 : r = 0
  · subst h0; exact Frame.refl _ _ _
  · have hw : t.wp e r x = t.modCtx e (fun k => { k with p := k.p.setIfInBounds r.toNat x }) := by simp only [State.wp, if_neg h0]
    have p : ∀ f, (((t.wp e r x).ctx f).s, ((t.wp e r x).ctx f).regPart.2.2) = ((t.ctx f).s, (t.ctx f).regPart.2.2) := fun f => by
      rw [hw]
      refine t.ctx_modCtx_proj e _ (fun k => (k.s, k.regPart.2.2)) ?_ ?_ <;> intros <;> rfl
    have p := fun f => by simpa only [Ctx.regPart, Prod.mk.injEq] using p f
    have p6 := fun f => (p f).2.2.2.2
    exact
      { regs := fun f q _ => State.rs_of_ctx (p f).1 q
        preds := fun f q hn => by
          by_cases hk : f.key = e.key
          · rw [State.rp_key _ hk, State.rp_key t hk]
            exact t.rp_wp_ne e x (fun hq => hn ⟨hk, hq ▸ hr⟩)
          · unfold State.rp
            rw [hw, t.ctx_modCtx_ne _ hk]
        vecs := fun f q _ => by simp only [State.rv, (p f).2.1]
        accs := fun f q _ => by simp only [State.ra, (p f).2.2.1]
        latches := fun f q _ => by simp only [State.rg, (p f).2.2.2.1]
        flags := fun f _ => (p6 f).1
        seeds := fun f _ => (p6 f).2.1
        loops := fun f _ => (p6 f).2.2.1
        modes := fun f => (p6 f).2.2.2.1
        supervisor := fun f => (p6 f).2.2.2.2.1
        frames := fun f => (p6 f).2.2.2.2.2
        memory := fun a _ => by rw [hw]; rfl }

end

/-! Issuing. -/

theorem predicatedOff_synced (s : State) (row : Instr) : s.synced.predicatedOff s.cur ⟨row, s.op⟩ = s.predicatedOff s.cur ⟨row, s.op⟩ := by
  unfold State.predicatedOff
  rw [(synced_frame s s.cur Touch.none).preds _ _ (by simp [Touch.none])]

/-- What an instruction that may be performed does, in a context alone: its body decides. A trap waits while the frame of a running upcall
cannot be stored. -/
theorem issue_ready (row : Instr) (body : Body) (s : State) (h : s.Ready row) :
    issue row body s = match body ⟨s.cur, row, s.op, s.synced⟩ (s.taken row) with
      | .ok (ctl, s') => s.after row ctl s'
      | .error (.wait w s') => s'.waitAt s.cur w
      | .error (.trap t s') => if (s.synced.pushHeld s.cur).isSome then s.synced.deliverOr s.cur [s.cur] 0 s.cur t
          else s'.deliver s.cur [s.cur] 0 s.cur t := by
  have hm : s.members s.cur = [s.cur] := by simp [State.members, h.alone]
  have hh : s.held row s.op s.cur [s.cur] = none := by
    simp [State.held, State.gateAll, h.gate, h.sync, h.due]
  have hp := (predicatedOff_synced s row).trans h.on
  unfold State.synced at hp
  simp only [issue, hm, hh, ite_self, runMembers, memberStep, memberRun, hp, State.taken, State.synced, State.after]
  generalize body _ _ = r
  rcases r with (⟨t, s'⟩ | ⟨w, s'⟩) | ⟨ctl, s'⟩
  · rfl
  · rfl
  · simp only [Bool.false_eq_true, if_false, completeAll, hp]

end Sys2Proof.Machine
end

