-- ==== Sys2Proof/Laws/PerInstr.lean ====
section
/-! SUPPORT. Per instruction: the tables of WellFormed and Decode agree, one lemma per constructor. -/

namespace Sys2Proof.Laws.Selects

open Sys2Proof

/-- The form of a row; none for an event. -/
def formOfInfo : Info → Option Form
  | .A _ _ _ _ _ => some .A
  | .B _ _ _ _ => some .B
  | .C _ _ _ _ _ _ _ _ _ _ => some .C
  | .event => none

/-- IMM16 [9] agrees with the row: the two forms of GTH are told apart by it (R287). -/
def latchAgrees (r : Instr) (latch : Bool) : Bool :=
  match r with
  | .gth => !latch
  | .gthLatch => latch
  | _ => true

/-- The row's major has the row's form, and with every function code the row lists the decoder selects the row; an event has no
encoding, and COLL_REGISTER is the word of COLL_REDUCE (R85, R88, R292). -/
def Statement (r : Instr) : Prop :=
  match formOfInfo r.info, r.info.fnUse with
  | some f, some u => formOf r.major = some f ∧ ∀ (fn : BitVec 6) (latch : Bool), u.ok fn = true → latchAgrees r latch = true →
      rowOf r.major fn.toNat latch = .ok (if r = .collRegister then .collReduce else r)
  | _, _ => ∀ o : Fields, encode ⟨r, o⟩ = none

/-- The check of a row with one function code. -/
def codeOk (r : Instr) : Bool :=
  match formOfInfo r.info, r.info.fnUse with
  | some f, some (.code n) => formOf r.major == some f && [false, true].all (fun latch => !latchAgrees r latch ||
      (match rowOf r.major n latch with | .ok x => x == (if r = .collRegister then .collReduce else r) | .error _ => false))
  | _, _ => false

/-- A row that passes the check agrees. -/
theorem of_code {r : Instr} (h : codeOk r = true) : Statement r := by
  unfold codeOk at h
  unfold Statement
  split at h
  · next f n hf hu =>
    rw [hf, hu]
    simp only [Bool.and_eq_true, beq_iff_eq, List.all_cons, List.all_nil, Bool.and_true] at h
    refine ⟨h.1, fun fn latch hn hl => ?_⟩
    rw [show fn.toNat = n by simpa [FnUse.ok] using hn]
    have hr : (!latchAgrees r latch || (match rowOf r.major n latch with
        | .ok x => x == (if r = .collRegister then .collReduce else r) | .error _ => false)) = true := by
      cases latch
      · exact h.2.1
      · exact h.2.2
    simp only [hl, Bool.not_true, Bool.false_or] at hr
    split at hr
    · next x hx => rw [hx, beq_iff_eq.mp hr]
    · cases hr
  · cases h

theorem add : Statement .add := of_code (by decide)
theorem addW : Statement .addW := of_code (by decide)
theorem addSs : Statement .addSs := of_code (by decide)
theorem addUs : Statement .addUs := of_code (by decide)
theorem sub : Statement .sub := of_code (by decide)
theorem subW : Statement .subW := of_code (by decide)
theorem subSs : Statement .subSs := of_code (by decide)
theorem subUs : Statement .subUs := of_code (by decide)
theorem mul : Statement .mul := of_code (by decide)
theorem mulW : Statement .mulW := of_code (by decide)
theorem mulhSs : Statement .mulhSs := of_code (by decide)
theorem mulhUu : Statement .mulhUu := of_code (by decide)
theorem mulhSu : Statement .mulhSu := of_code (by decide)
theorem div : Statement .div := of_code (by decide)
theorem divU : Statement .divU := of_code (by decide)
theorem divW : Statement .divW := of_code (by decide)
theorem divUw : Statement .divUw := of_code (by decide)
theorem rem : Statement .rem := of_code (by decide)
theorem remU : Statement .remU := of_code (by decide)
theorem remW : Statement .remW := of_code (by decide)
theorem remUw : Statement .remUw := of_code (by decide)
theorem andR : Statement .andR := of_code (by decide)
theorem orR : Statement .orR := of_code (by decide)
theorem xor : Statement .xor := of_code (by decide)
theorem andn : Statement .andn := of_code (by decide)
theorem shl : Statement .shl := of_code (by decide)
theorem shlW : Statement .shlW := of_code (by decide)
theorem shr : Statement .shr := of_code (by decide)
theorem shrA : Statement .shrA := of_code (by decide)
theorem shrW : Statement .shrW := of_code (by decide)
theorem shrAw : Statement .shrAw := of_code (by decide)
theorem rot : Statement .rot := of_code (by decide)
theorem rotL : Statement .rotL := of_code (by decide)
theorem rotW : Statement .rotW := of_code (by decide)
theorem rotLw : Statement .rotLw := of_code (by decide)
theorem min : Statement .min := of_code (by decide)
theorem minU : Statement .minU := of_code (by decide)
theorem max : Statement .max := of_code (by decide)
theorem maxU : Statement .maxU := of_code (by decide)
theorem bcntClz : Statement .bcntClz := of_code (by decide)
theorem bcntCtz : Statement .bcntCtz := of_code (by decide)
theorem bcntPopc : Statement .bcntPopc := of_code (by decide)
theorem extS8 : Statement .extS8 := of_code (by decide)
theorem extS16 : Statement .extS16 := of_code (by decide)
theorem extS32 : Statement .extS32 := of_code (by decide)
theorem extZ8 : Statement .extZ8 := of_code (by decide)
theorem extZ16 : Statement .extZ16 := of_code (by decide)
theorem extZ32 : Statement .extZ32 := of_code (by decide)
theorem bfxU : Statement .bfxU := of_code (by decide)
theorem bfxS : Statement .bfxS := of_code (by decide)
theorem bfi : Statement .bfi := of_code (by decide)
theorem sel : Statement .sel := ⟨rfl, fun _ _ _ _ => rfl⟩
theorem cmpEq : Statement .cmpEq := of_code (by decide)
theorem cmpNe : Statement .cmpNe := of_code (by decide)
theorem cmpLt : Statement .cmpLt := of_code (by decide)
theorem cmpGe : Statement .cmpGe := of_code (by decide)
theorem cmpLtu : Statement .cmpLtu := of_code (by decide)
theorem cmpGeu : Statement .cmpGeu := of_code (by decide)
theorem liLo : Statement .liLo := of_code (by decide)
theorem liHi : Statement .liHi := of_code (by decide)
theorem mov : Statement .mov := of_code (by decide)
theorem movP : Statement .movP := of_code (by decide)
theorem movSp : Statement .movSp := of_code (by decide)
theorem movPs : Statement .movPs := of_code (by decide)
theorem movPand : Statement .movPand := of_code (by decide)
theorem movPor : Statement .movPor := of_code (by decide)
theorem movPnot : Statement .movPnot := of_code (by decide)
theorem addp : Statement .addp := of_code (by decide)
theorem addpB : Statement .addpB := of_code (by decide)
theorem subp : Statement .subp := of_code (by decide)
theorem subpB : Statement .subpB := of_code (by decide)
theorem mkp : Statement .mkp := of_code (by decide)
theorem psetFmt : Statement .psetFmt := of_code (by decide)
theorem psetBlk : Statement .psetBlk := of_code (by decide)
theorem psetSpc : Statement .psetSpc := of_code (by decide)
theorem psetRel : Statement .psetRel := of_code (by decide)
theorem psetTile : Statement .psetTile := of_code (by decide)
theorem psetDie : Statement .psetDie := of_code (by decide)
theorem psetOff : Statement .psetOff := of_code (by decide)
theorem psetCore : Statement .psetCore := of_code (by decide)
theorem pgetFmt : Statement .pgetFmt := of_code (by decide)
theorem pgetBlk : Statement .pgetBlk := of_code (by decide)
theorem pgetSpc : Statement .pgetSpc := of_code (by decide)
theorem pgetRel : Statement .pgetRel := of_code (by decide)
theorem pgetTile : Statement .pgetTile := of_code (by decide)
theorem pgetDie : Statement .pgetDie := of_code (by decide)
theorem pgetOff : Statement .pgetOff := of_code (by decide)
theorem pgetCore : Statement .pgetCore := of_code (by decide)
theorem pabs : Statement .pabs := of_code (by decide)
theorem waitdep : Statement .waitdep := of_code (by decide)
theorem trigger : Statement .trigger := of_code (by decide)
theorem br : Statement .br := of_code (by decide)
theorem brpAny : Statement .brpAny := of_code (by decide)
theorem brpAll : Statement .brpAll := of_code (by decide)
theorem brpNone : Statement .brpNone := of_code (by decide)
theorem brpNall : Statement .brpNall := of_code (by decide)
theorem jal : Statement .jal := of_code (by decide)
theorem jalr : Statement .jalr := of_code (by decide)
theorem loop : Statement .loop := of_code (by decide)
theorem fork : Statement .fork := of_code (by decide)
theorem join : Statement .join := of_code (by decide)
theorem spawn : Statement .spawn := of_code (by decide)
theorem exit : Statement .exit := of_code (by decide)
theorem yield : Statement .yield := of_code (by decide)
theorem sleep : Statement .sleep := of_code (by decide)
theorem trap : Statement .trap := of_code (by decide)
theorem trapBkpt : Statement .trapBkpt := of_code (by decide)
theorem upret : Statement .upret := of_code (by decide)
theorem eret : Statement .eret := of_code (by decide)
theorem nop : Statement .nop := of_code (by decide)
theorem nopSpin : Statement .nopSpin := of_code (by decide)
theorem nopPhase : Statement .nopPhase := of_code (by decide)
theorem fadd : Statement .fadd := of_code (by decide)
theorem fsub : Statement .fsub := of_code (by decide)
theorem fmul : Statement .fmul := of_code (by decide)
theorem ffma : Statement .ffma := of_code (by decide)
theorem fminmaxMin : Statement .fminmaxMin := of_code (by decide)
theorem fminmaxMax : Statement .fminmaxMax := of_code (by decide)
theorem fcvtI64F32 : Statement .fcvtI64F32 := of_code (by decide)
theorem fcvtF32I64 : Statement .fcvtF32I64 := of_code (by decide)
theorem fcvtU64F32 : Statement .fcvtU64F32 := of_code (by decide)
theorem fcvtF32U64 : Statement .fcvtF32U64 := of_code (by decide)
theorem fcvtF16F32 : Statement .fcvtF16F32 := of_code (by decide)
theorem fcvtF32F16 : Statement .fcvtF32F16 := of_code (by decide)
theorem fcvtBf16F32 : Statement .fcvtBf16F32 := of_code (by decide)
theorem fcvtF32Bf16 : Statement .fcvtF32Bf16 := of_code (by decide)
theorem fcmpEq : Statement .fcmpEq := of_code (by decide)
theorem fcmpLt : Statement .fcmpLt := of_code (by decide)
theorem fcmpLe : Statement .fcmpLe := of_code (by decide)
theorem fcmpUn : Statement .fcmpUn := of_code (by decide)
theorem fspecRcp : Statement .fspecRcp := of_code (by decide)
theorem fspecRsqrt : Statement .fspecRsqrt := of_code (by decide)
theorem fspecSqrt : Statement .fspecSqrt := of_code (by decide)
theorem fspecDiv : Statement .fspecDiv := of_code (by decide)
theorem fspecExp2 : Statement .fspecExp2 := of_code (by decide)
theorem fspecLog2 : Statement .fspecLog2 := of_code (by decide)
theorem ldU8 : Statement .ldU8 := of_code (by decide)
theorem ldS8 : Statement .ldS8 := of_code (by decide)
theorem ldU16 : Statement .ldU16 := of_code (by decide)
theorem ldS16 : Statement .ldS16 := of_code (by decide)
theorem ldU32 : Statement .ldU32 := of_code (by decide)
theorem ldS32 : Statement .ldS32 := of_code (by decide)
theorem ld64 : Statement .ld64 := of_code (by decide)
theorem ldFmt : Statement .ldFmt := of_code (by decide)
theorem st8 : Statement .st8 := of_code (by decide)
theorem st16 : Statement .st16 := of_code (by decide)
theorem st32 : Statement .st32 := of_code (by decide)
theorem st64 : Statement .st64 := of_code (by decide)
theorem stFmt : Statement .stFmt := of_code (by decide)
theorem lda : Statement .lda := of_code (by decide)
theorem stl : Statement .stl := of_code (by decide)
theorem amoAdd : Statement .amoAdd := of_code (by decide)
theorem amoAnd : Statement .amoAnd := of_code (by decide)
theorem amoOr : Statement .amoOr := of_code (by decide)
theorem amoXor : Statement .amoXor := of_code (by decide)
theorem amoSmin : Statement .amoSmin := of_code (by decide)
theorem amoSmax : Statement .amoSmax := of_code (by decide)
theorem amoUmin : Statement .amoUmin := of_code (by decide)
theorem amoUmax : Statement .amoUmax := of_code (by decide)
theorem amoSwap : Statement .amoSwap := of_code (by decide)
theorem cas : Statement .cas := of_code (by decide)
theorem fence : Statement .fence := of_code (by decide)
theorem fenceAcq : Statement .fenceAcq := of_code (by decide)
theorem fenceRel : Statement .fenceRel := of_code (by decide)
theorem xfence : Statement .xfence := of_code (by decide)
theorem ldfeTake : Statement .ldfeTake := of_code (by decide)
theorem ldfePeek : Statement .ldfePeek := of_code (by decide)
theorem stfeFill : Statement .stfeFill := of_code (by decide)
theorem stfeForce : Statement .stfeForce := of_code (by decide)
theorem stfeClear : Statement .stfeClear := of_code (by decide)
theorem get : Statement .get := of_code (by decide)
theorem put : Statement .put := of_code (by decide)
theorem ramoAdd : Statement .ramoAdd := of_code (by decide)
theorem ramoAnd : Statement .ramoAnd := of_code (by decide)
theorem ramoOr : Statement .ramoOr := of_code (by decide)
theorem ramoXor : Statement .ramoXor := of_code (by decide)
theorem ramoSmin : Statement .ramoSmin := of_code (by decide)
theorem ramoSmax : Statement .ramoSmax := of_code (by decide)
theorem ramoUmin : Statement .ramoUmin := of_code (by decide)
theorem ramoUmax : Statement .ramoUmax := of_code (by decide)
theorem ramoSwap : Statement .ramoSwap := of_code (by decide)
theorem ramoFadd : Statement .ramoFadd := of_code (by decide)
theorem flushWb : Statement .flushWb := of_code (by decide)
theorem flushWbi : Statement .flushWbi := of_code (by decide)
theorem flushInv : Statement .flushInv := of_code (by decide)
theorem flushCode : Statement .flushCode := of_code (by decide)
theorem prefR : Statement .prefR := of_code (by decide)
theorem prefW : Statement .prefW := of_code (by decide)
theorem prefGw : Statement .prefGw := of_code (by decide)
theorem cwait : Statement .cwait := of_code (by decide)
theorem csig : Statement .csig := of_code (by decide)
theorem cset : Statement .cset := of_code (by decide)
theorem crd : Statement .crd := of_code (by decide)
theorem bar : Statement .bar := of_code (by decide)
theorem barArrive : Statement .barArrive := of_code (by decide)
theorem barWait : Statement .barWait := of_code (by decide)
theorem barrierToken : Statement .barrierToken := fun _ => rfl
theorem barrierRelease : Statement .barrierRelease := fun _ => rfl
theorem vadd : Statement .vadd := of_code (by decide)
theorem vaddSat : Statement .vaddSat := of_code (by decide)
theorem vsub : Statement .vsub := of_code (by decide)
theorem vsubSat : Statement .vsubSat := of_code (by decide)
theorem vmul : Statement .vmul := of_code (by decide)
theorem vmulHi : Statement .vmulHi := of_code (by decide)
theorem vmulSat : Statement .vmulSat := of_code (by decide)
theorem vfma : Statement .vfma := of_code (by decide)
theorem vfmaMs : Statement .vfmaMs := of_code (by decide)
theorem vfmaNm : Statement .vfmaNm := of_code (by decide)
theorem vminmaxMin : Statement .vminmaxMin := of_code (by decide)
theorem vminmaxMax : Statement .vminmaxMax := of_code (by decide)
theorem vnegabsNeg : Statement .vnegabsNeg := of_code (by decide)
theorem vnegabsAbs : Statement .vnegabsAbs := of_code (by decide)
theorem vcvt : Statement .vcvt := by
  refine ⟨rfl, fun fn _ h _ => ?_⟩
  have h' : fn ≠ 0 ∧ fn.toNat < 16 := by simpa [FnUse.ok] using h
  have h0 : 1 ≤ fn.toNat := by have := h'.1; simp [BitVec.toNat_eq] at this; omega
  simp [rowOf, Instr.major, Instr.info, h'.2, h0]
theorem vcvtSat : Statement .vcvtSat := by
  refine ⟨rfl, fun fn _ h _ => ?_⟩
  have h' : 32 < fn.toNat ∧ fn.toNat < 48 := by simpa [FnUse.ok] using h
  simp [rowOf, Instr.major, Instr.info, h'.2, show ¬fn.toNat < 16 by omega, show 33 ≤ fn.toNat by omega]
theorem vcmpEq : Statement .vcmpEq := of_code (by decide)
theorem vcmpNe : Statement .vcmpNe := of_code (by decide)
theorem vcmpLt : Statement .vcmpLt := of_code (by decide)
theorem vcmpGe : Statement .vcmpGe := of_code (by decide)
theorem vcmpLe : Statement .vcmpLe := of_code (by decide)
theorem vcmpGt : Statement .vcmpGt := of_code (by decide)
theorem vcmpUn : Statement .vcmpUn := of_code (by decide)
theorem vsel : Statement .vsel := ⟨rfl, fun _ _ _ _ => rfl⟩
theorem vredSum : Statement .vredSum := of_code (by decide)
theorem vredMin : Statement .vredMin := of_code (by decide)
theorem vredMax : Statement .vredMax := of_code (by decide)
theorem vredAnd : Statement .vredAnd := of_code (by decide)
theorem vredOr : Statement .vredOr := of_code (by decide)
theorem vredXor : Statement .vredXor := of_code (by decide)
theorem vshufIdx : Statement .vshufIdx := of_code (by decide)
theorem vshufRot : Statement .vshufRot := of_code (by decide)
theorem vshufLo : Statement .vshufLo := of_code (by decide)
theorem vshufHi : Statement .vshufHi := of_code (by decide)
theorem vshufRev : Statement .vshufRev := of_code (by decide)
theorem vbcastS : Statement .vbcastS := of_code (by decide)
theorem vbcastLane : Statement .vbcastLane := of_code (by decide)
theorem vld : Statement .vld := of_code (by decide)
theorem vldStr : Statement .vldStr := of_code (by decide)
theorem vst : Statement .vst := of_code (by decide)
theorem vstStr : Statement .vstStr := of_code (by decide)
theorem vgth : Statement .vgth := of_code (by decide)
theorem vsct : Statement .vsct := of_code (by decide)
theorem vspecRcp : Statement .vspecRcp := of_code (by decide)
theorem vspecRsqrt : Statement .vspecRsqrt := of_code (by decide)
theorem vspecSqrt : Statement .vspecSqrt := of_code (by decide)
theorem vspecDiv : Statement .vspecDiv := of_code (by decide)
theorem vspecExp2 : Statement .vspecExp2 := of_code (by decide)
theorem vspecLog2 : Statement .vspecLog2 := of_code (by decide)
theorem vspecTanh : Statement .vspecTanh := of_code (by decide)
theorem vdotQ : Statement .vdotQ := of_code (by decide)
theorem vdotP : Statement .vdotP := of_code (by decide)
theorem vamax : Statement .vamax := of_code (by decide)
theorem vscale : Statement .vscale := of_code (by decide)
theorem vquant : Statement .vquant := of_code (by decide)
theorem vtbl : Statement .vtbl := of_code (by decide)
theorem venc : Statement .venc := of_code (by decide)
theorem vintAnd : Statement .vintAnd := of_code (by decide)
theorem vintOr : Statement .vintOr := of_code (by decide)
theorem vintXor : Statement .vintXor := of_code (by decide)
theorem vintAndn : Statement .vintAndn := of_code (by decide)
theorem vintShl : Statement .vintShl := of_code (by decide)
theorem vintShr : Statement .vintShr := of_code (by decide)
theorem vintSra : Statement .vintSra := of_code (by decide)
theorem vintPopc : Statement .vintPopc := of_code (by decide)
theorem vseq : Statement .vseq := of_code (by decide)
theorem vseqe : Statement .vseqe := of_code (by decide)
theorem gang2 : Statement .gang2 := of_code (by decide)
theorem gang4 : Statement .gang4 := of_code (by decide)
theorem gang8 : Statement .gang8 := of_code (by decide)
theorem gangFormation : Statement .gangFormation := fun _ => rfl
theorem ungang : Statement .ungang := of_code (by decide)
theorem vectorSequencerExecute : Statement .vectorSequencerExecute := fun _ => rfl
theorem mlat : Statement .mlat := of_code (by decide)
theorem mma : Statement .mma := of_code (by decide)
theorem mmas : Statement .mmas := of_code (by decide)
theorem matrixQueueIssue : Statement .matrixQueueIssue := fun _ => rfl
theorem matrixOperandReadEnd : Statement .matrixOperandReadEnd := fun _ => rfl
theorem matrixAccumulatorWrite : Statement .matrixAccumulatorWrite := fun _ => rfl
theorem consumedSignal : Statement .consumedSignal := fun _ => rfl
theorem maccZero : Statement .maccZero := of_code (by decide)
theorem maccLd : Statement .maccLd := of_code (by decide)
theorem maccSt : Statement .maccSt := of_code (by decide)
theorem maccCvt : Statement .maccCvt := of_code (by decide)
theorem gaitl : Statement .gaitl := of_code (by decide)
theorem mgait : Statement .mgait := by
  refine ⟨rfl, fun fn _ h _ => ?_⟩
  simp_all [FnUse.ok, rowOf, Instr.major, Instr.info]
theorem spurCfg : Statement .spurCfg := of_code (by decide)
theorem spurPost : Statement .spurPost := of_code (by decide)
theorem spurTick : Statement .spurTick := of_code (by decide)
theorem spurRead : Statement .spurRead := of_code (by decide)
theorem spurDrain : Statement .spurDrain := of_code (by decide)
theorem spurEventArrival : Statement .spurEventArrival := fun _ => rfl
theorem spurEventRetry : Statement .spurEventRetry := fun _ => rfl
theorem paceTickClose : Statement .paceTickClose := fun _ => rfl
theorem closeResume : Statement .closeResume := fun _ => rfl
theorem sendUni : Statement .sendUni := of_code (by decide)
theorem sendMulti : Statement .sendMulti := of_code (by decide)
theorem sendReply : Statement .sendReply := of_code (by decide)
theorem taskArrival : Statement .taskArrival := fun _ => rfl
theorem messageRetry : Statement .messageRetry := fun _ => rfl
theorem overflowReentry : Statement .overflowReentry := fun _ => rfl
theorem replyDelivery : Statement .replyDelivery := fun _ => rfl
theorem workStart : Statement .workStart := fun _ => rfl
theorem dequeStealProbe : Statement .dequeStealProbe := fun _ => rfl
theorem cpy : Statement .cpy := of_code (by decide)
theorem gth : Statement .gth := of_code (by decide)
theorem gthLatch : Statement .gthLatch := of_code (by decide)
theorem copyCommand : Statement .copyCommand := fun _ => rfl
theorem gatherCommand : Statement .gatherCommand := fun _ => rfl
theorem commandRetire : Statement .commandRetire := fun _ => rfl
theorem collReduce : Statement .collReduce := of_code (by decide)
theorem collRegister : Statement .collRegister := of_code (by decide)
theorem collBcast : Statement .collBcast := of_code (by decide)
theorem collJoin : Statement .collJoin := of_code (by decide)
theorem collDigest : Statement .collDigest := of_code (by decide)
theorem collectiveEpisode : Statement .collectiveEpisode := fun _ => rfl
theorem classMask : Statement .classMask := of_code (by decide)
theorem classUnmask : Statement .classUnmask := of_code (by decide)
theorem classTest : Statement .classTest := of_code (by decide)
theorem launch : Statement .launch := of_code (by decide)
theorem launchSteal : Statement .launchSteal := of_code (by decide)
theorem launchPreempt : Statement .launchPreempt := fun _ => rfl
theorem launchResume : Statement .launchResume := fun _ => rfl
theorem launchCancel : Statement .launchCancel := fun _ => rfl
theorem preemptionSave : Statement .preemptionSave := fun _ => rfl
theorem launchEntry : Statement .launchEntry := fun _ => rfl
theorem coreLeave : Statement .coreLeave := fun _ => rfl
theorem unitRefill : Statement .unitRefill := fun _ => rfl
theorem stealRequest : Statement .stealRequest := fun _ => rfl
theorem stealAnswer : Statement .stealAnswer := fun _ => rfl
theorem launchEnd : Statement .launchEnd := fun _ => rfl
theorem graphDecrement : Statement .graphDecrement := fun _ => rfl
theorem sysCsrr : Statement .sysCsrr := of_code (by decide)
theorem sysCsrw : Statement .sysCsrw := of_code (by decide)
theorem sysCsrx : Statement .sysCsrx := of_code (by decide)
theorem registerWrite : Statement .registerWrite := fun _ => rfl
theorem dectabStore : Statement .dectabStore := fun _ => rfl
theorem dectabSelect : Statement .dectabSelect := fun _ => rfl
theorem plbWrite : Statement .plbWrite := fun _ => rfl
theorem detmodeWrite : Statement .detmodeWrite := fun _ => rfl
theorem featackWrite : Statement .featackWrite := fun _ => rfl
theorem ctlprioWrite : Statement .ctlprioWrite := fun _ => rfl
theorem tandemOn : Statement .tandemOn := of_code (by decide)
theorem tandemOff : Statement .tandemOff := of_code (by decide)
theorem tandemFormation : Statement .tandemFormation := fun _ => rfl
theorem ownGive : Statement .ownGive := of_code (by decide)
theorem ownQuery : Statement .ownQuery := of_code (by decide)
theorem leaseRenew : Statement .leaseRenew := of_code (by decide)
theorem stackCloseEnd : Statement .stackCloseEnd := fun _ => rfl
theorem stackDrainEnd : Statement .stackDrainEnd := fun _ => rfl
theorem stackWriteBackEnd : Statement .stackWriteBackEnd := fun _ => rfl
theorem stackLeaseWaitEnd : Statement .stackLeaseWaitEnd := fun _ => rfl
theorem stackSwitch : Statement .stackSwitch := fun _ => rfl
theorem remoteAccessAtHome : Statement .remoteAccessAtHome := fun _ => rfl
theorem remoteAckArrival : Statement .remoteAckArrival := fun _ => rfl
theorem getValueReturn : Statement .getValueReturn := fun _ => rfl
theorem gatewayLineFill : Statement .gatewayLineFill := fun _ => rfl
theorem gatewayLineExpiry : Statement .gatewayLineExpiry := fun _ => rfl
theorem translationExpiry : Statement .translationExpiry := fun _ => rfl
theorem engineLeaseRenew : Statement .engineLeaseRenew := fun _ => rfl
theorem remapNack : Statement .remapNack := fun _ => rfl
theorem pagerService : Statement .pagerService := fun _ => rfl
theorem contextWake : Statement .contextWake := fun _ => rfl
theorem waitLimit : Statement .waitLimit := fun _ => rfl
theorem sleepTimeout : Statement .sleepTimeout := fun _ => rfl
theorem hang : Statement .hang := fun _ => rfl
theorem rotationArm : Statement .rotationArm := fun _ => rfl
theorem drain : Statement .drain := fun _ => rfl
theorem abort : Statement .abort := fun _ => rfl
theorem newMap : Statement .newMap := fun _ => rfl
theorem copyState : Statement .copyState := fun _ => rfl
theorem resumeTile : Statement .resumeTile := fun _ => rfl
theorem retire : Statement .retire := fun _ => rfl
theorem test : Statement .test := fun _ => rfl
theorem maint : Statement .maint := fun _ => rfl
theorem maintEnd : Statement .maintEnd := fun _ => rfl
theorem farrierHold : Statement .farrierHold := fun _ => rfl
theorem ckoff : Statement .ckoff := fun _ => rfl
theorem suspectClear : Statement .suspectClear := fun _ => rfl
theorem counterClear : Statement .counterClear := fun _ => rfl
theorem faultCountClear : Statement .faultCountClear := fun _ => rfl
theorem exposureCount : Statement .exposureCount := fun _ => rfl
theorem wearFuseWrite : Statement .wearFuseWrite := fun _ => rfl
theorem checkpointEpoch : Statement .checkpointEpoch := fun _ => rfl
theorem siteLoss : Statement .siteLoss := fun _ => rfl
theorem fingerprintExchange : Statement .fingerprintExchange := fun _ => rfl
theorem flitForward : Statement .flitForward := fun _ => rfl
theorem linkReplay : Statement .linkReplay := fun _ => rfl
theorem injectorArm : Statement .injectorArm := fun _ => rfl
theorem injectorTrigger : Statement .injectorTrigger := fun _ => rfl
theorem linkControlWrite : Statement .linkControlWrite := fun _ => rfl
theorem linkChangeDone : Statement .linkChangeDone := fun _ => rfl
theorem tetherArrival : Statement .tetherArrival := fun _ => rfl
theorem paceBeacon : Statement .paceBeacon := fun _ => rfl
theorem beaconMiss : Statement .beaconMiss := fun _ => rfl
theorem clockStretch : Statement .clockStretch := fun _ => rfl
theorem referenceLoss : Statement .referenceLoss := fun _ => rfl
theorem panelReset : Statement .panelReset := fun _ => rfl
theorem bridgeLaunchWrite : Statement .bridgeLaunchWrite := fun _ => rfl
theorem bridgeDataWrite : Statement .bridgeDataWrite := fun _ => rfl
theorem bridgeDataRead : Statement .bridgeDataRead := fun _ => rfl
theorem bridgeControlWrite : Statement .bridgeControlWrite := fun _ => rfl
theorem unsupportedRequest : Statement .unsupportedRequest := fun _ => rfl
theorem attestationRequest : Statement .attestationRequest := fun _ => rfl
theorem attestationReportReady : Statement .attestationReportReady := fun _ => rfl
theorem debugUnlock : Statement .debugUnlock := fun _ => rfl
theorem debugHalt : Statement .debugHalt := fun _ => rfl
theorem debugObserve : Statement .debugObserve := fun _ => rfl
theorem lifeCycleMove : Statement .lifeCycleMove := fun _ => rfl
theorem dieDrowsy : Statement .dieDrowsy := fun _ => rfl
theorem panelPark : Statement .panelPark := fun _ => rfl
theorem active : Statement .active := fun _ => rfl
theorem tileIdle : Statement .tileIdle := fun _ => rfl
theorem refusedClear : Statement .refusedClear := fun _ => rfl
theorem protectionDescriptorStore : Statement .protectionDescriptorStore := fun _ => rfl
theorem referenceReturn : Statement .referenceReturn := fun _ => rfl
theorem deliveryAnswer : Statement .deliveryAnswer := fun _ => rfl
theorem scrub : Statement .scrub := fun _ => rfl
theorem debugRelock : Statement .debugRelock := fun _ => rfl

end Sys2Proof.Laws.Selects
end

