-- ==== Sys2Proof/Tests/Slice0.lean ====
section
/-! SUPPORT. Tests: ill-formed terms that well-formedness refuses, words of the spec's encodings, single steps, and states that meet the
premises of the statements. -/

set_option linter.unusedVariables false

namespace Sys2Proof.Tests

open Sys2Proof Sys2Proof.Machine

/-! States to test on. -/

/-- The premises of `State.Ready`, decided. -/
def readyB (s : State) (row : Instr) : Bool :=
  decide ((s.ctx s.cur).gang = none) && decide (s.gate s.cur ⟨row, s.op⟩ = none) && decide (s.syncHeld s.op [s.cur] = none) &&
    !s.exchangeDue s.cur row s.op && !s.predicatedOff s.cur ⟨row, s.op⟩

theorem ready_of {s : State} {row : Instr} (h : readyB s row = true) : s.Ready row := by
  simp only [readyB, Bool.and_eq_true, decide_eq_true_eq, Bool.not_eq_true'] at h
  exact ⟨h.1.1.1.1, h.1.1.1.2, h.1.1.2, h.1.2, h.2⟩

theorem ready_all {s : State} {l : List Instr} (h : l.all (readyB s) = true) : ∀ row ∈ l, s.Ready row :=
  fun row m => ready_of (List.all_eq_true.mp h row m)

/-- An answer of a check, tested without naming the state it leaves. -/
def okIs {ε α : Type} (x : Except ε α) (f : α → Bool) : Bool :=
  match x with
  | .ok a => f a
  | .error _ => false

def errIs {ε α : Type} (x : Except ε α) (f : ε → Bool) : Bool :=
  match x with
  | .ok _ => false
  | .error e => f e

theorem ok_ex {ε α : Type} {x : Except ε α} {f : α → Bool} (h : okIs x f = true) : ∃ a, x = .ok a ∧ f a = true := by
  cases x with
  | ok a => exact ⟨a, rfl, h⟩
  | error e => cases h

theorem err_ex {ε α : Type} {x : Except ε α} {f : ε → Bool} (h : errIs x f = true) : ∃ e, x = .error e ∧ f e = true := by
  cases x with
  | ok a => cases h
  | error e => exact ⟨e, rfl, h⟩

/-- Context 1 and context 0 of core (0, 0), and context 1 of its neighbours. -/
def c0 : CtxId := ⟨⟨0, 0⟩, 0⟩
def c1 : CtxId := ⟨⟨0, 0⟩, 1⟩

/-- Context c ready at head 0 of a line that holds one NOP, its core in a launch, its operand fields o, its mode supervisor; then f. -/
def on (c : CtxId) (o : Fields) (f : State → State) : State :=
  f { ((State.reset.modCore c.core (fun k => { k with launch := some placedLaunch })).modCtx c (fun k =>
        { k with st := .ready, pc := 0x402, line := lineOf 0x0b80 [], entry := .inLine, sup := true })) with
      cur := c, op := o, featAck := Config.feat1 ++ Config.feat0, featSet := true }

theorem nopLine : decodeHead (lineOf 0x0b80 []) (headIndex 0x402) = .ok ⟨.nop, Fields.zero⟩ := rfl

/-- s[1] and s[2] of the executing context. -/
def regs (a b : Word) (s : State) : State := (s.ws s.cur 1 a).ws s.cur 2 b

/-- Operand fields D = 3, S1 = 1, S2 = 2, and with an immediate. -/
def o3 : Fields := { Fields.zero with t := 1, s1 := 1, s2 := 2, d := 3 }
def oi (n : BitVec 32) : Fields := { Fields.zero with t := 2, s1 := 1, d := 3, imm := n }
def oz : Fields := { Fields.zero with t := 2, s1 := 1 }

/-- A change of the executing context, of its core, of its tile. -/
def ctx' (f : Ctx → Ctx) (s : State) : State := s.modCtx s.cur f
def core' (f : Core → Core) (s : State) : State := s.modCore s.cur.core f
def tile' (f : Tile → Tile) (s : State) : State := s.modTile s.cur.core.vt f

/-- The context in user mode. -/
def user (s : State) : State := s.modCtx s.cur (fun k => { k with sup := false })

/-- A region descriptor that grants user accesses of every kind to all of the TCM (R374). -/
def grant (s : State) : State := s.store (flatCommons 0 0x7fe4000) 16 (0x1ffc0 * 2 ^ 64 + 0x8f00000000000000)

/-- The state in which an event with arguments a is next. -/
def ev (a : EvArgs) (s : State) : State := { s with ev := a }

/-- A launch of die 0 with identity 64 on the whole rectangle of cores of tile 0. -/
def aDesc : Desc := { descOf (List.replicate 128 0) with rect := 0xfb00, slots := 1, helpers := 10, vec := true, dies := 1, groups := 4, plb1 := 16, plb2 := 32 }
def aShare : Share :=
  { vd := 0, st := .dealing, ranges := [(0, 4)], size := 4, weight := 192, wave := some 0, entered := [0], saved := [], tried := [],
    swept := false, asking := none }
def aLaunch : Launch :=
  { id := 64, die := 0, desc := aDesc, producers := [], shares := [aShare], triggered := [], node := none, succ := [], ended := false, stage := 0,
    cancelled := false, failCause := 0, failDetail := 0, failTile := none, failed := [], parked := [], parkedCores := [], closing := false, dtoken := none, dfail := none, digestFail := 0, settleFail := 0,
    dealt := 0, regs := [], digests := [], sums := [], idleSince := 0, hangArmed := false, hb := [] }
def launched (s : State) : State := { s with launches := [aLaunch] }

/-- The line of one instruction at TCM offset a of core (0, 0). -/
def lineAt (a : Nat) (i : Inst) (s : State) : State :=
  match encode i with
  | some (h, tl) => s.storeBytes (flatTcm ⟨0, 0⟩ a) (lineOf h tl)
  | none => s

/-! Well-formedness: one ill-formed term for each check. -/

/-- D of CMP is a predicate register, below 8 (R80). -/
theorem wf_refuses_class : Inst.wellFormed ⟨.cmpEq, { Fields.zero with t := 1, d := 8, s1 := 1, s2 := 2 }⟩ = false := by decide
/-- An accumulator register is below 8, a latch register below 2, a gait register below 4 (R80). -/
theorem wf_refuses_acc : Inst.wellFormed ⟨.maccZero, { Fields.zero with t := 2, d := 8 }⟩ = false := by decide
theorem wf_refuses_latch : Inst.wellFormed ⟨.mlat, { Fields.zero with t := 2, d := 2, s1 := 1 }⟩ = false := by decide
theorem wf_refuses_gait : Inst.wellFormed ⟨.gaitl, { Fields.zero with t := 2, d := 4, s1 := 1 }⟩ = false := by decide
/-- A register field that is not used is zero (R81). -/
theorem wf_refuses_unused : Inst.wellFormed ⟨.yield, { Fields.zero with t := 1, s1 := 1 }⟩ = false := by decide
/-- Head bit 0 is zero (R68). -/
theorem wf_refuses_r0 : Inst.wellFormed ⟨.nop, { Fields.zero with r0 := 1 }⟩ = false := by decide
/-- A sync halfword of mode 11 does not name counter 255 (Table 35). -/
theorem wf_refuses_sync : Inst.wellFormed ⟨.nop, { Fields.zero with sync := some 0xffc0 }⟩ = false := by decide
/-- Form A has no SZ, form B has a tail, form C has two tail halfwords (R76). -/
theorem wf_refuses_shapeA : Inst.wellFormed ⟨.add, { Fields.zero with t := 1, sz := 1 }⟩ = false := by decide
theorem wf_refuses_shapeB : Inst.wellFormed ⟨.ld64, { Fields.zero with t := 0 }⟩ = false := by decide
theorem wf_refuses_shapeC : Inst.wellFormed ⟨.lda, { Fields.zero with t := 1 }⟩ = false := by decide
/-- S2 is zero when B is an immediate, and when a form reads no B (R77, R81). -/
theorem wf_refuses_s2 : Inst.wellFormed ⟨.add, { Fields.zero with t := 2, s2 := 1 }⟩ = false := by decide
theorem wf_refuses_noB : Inst.wellFormed ⟨.mov, { Fields.zero with t := 2, imm := 1 }⟩ = false := by decide
theorem wf_refuses_pred : Inst.wellFormed ⟨.movPand, { Fields.zero with t := 1, s2 := 8 }⟩ = false := by decide
/-- SZ of AMO is 4 or 8 bytes, of RAMO.fadd 4 bytes; an element type is below 22 (R79, R181, R191). -/
theorem wf_refuses_wide : Inst.wellFormed ⟨.amoAdd, { Fields.zero with t := 2, sz := 1 }⟩ = false := by decide
theorem wf_refuses_word : Inst.wellFormed ⟨.ramoFadd, { Fields.zero with t := 2, fn := 9, sz := 3 }⟩ = false := by decide
theorem wf_refuses_et : Inst.wellFormed ⟨.vadd, { Fields.zero with t := 2, sz := 2, md := 6 }⟩ = false := by decide
/-- An ordering of 0 goes with scope 0; orderings are below 4; scope codes 6 and 7 are reserved (R79, R181). -/
theorem wf_refuses_scope0 : Inst.wellFormed ⟨.amoAdd, { Fields.zero with t := 2, sz := 2, sc := 1 }⟩ = false := by decide
theorem wf_refuses_ordering : Inst.wellFormed ⟨.amoAdd, { Fields.zero with t := 2, sz := 2, md := 4, sc := 1 }⟩ = false := by decide
theorem wf_refuses_scope6 : Inst.wellFormed ⟨.fence, { Fields.zero with t := 2, sc := 6 }⟩ = false := by decide
/-- A rounding override needs a float element type (R204). -/
theorem wf_refuses_override : Inst.wellFormed ⟨.vadd, { Fields.zero with t := 2, md := 4, sc := 1 }⟩ = false := by decide
/-- Reserved bits of IMM16 are zero (R81). -/
theorem wf_refuses_imm : Inst.wellFormed ⟨.cwait, { Fields.zero with t := 3, s1 := 1, imm := 0x100 }⟩ = false := by decide
/-- The part of VCVT is below the number of parts (R209); blocks have BLK 1 to 5 within v31 (R215). -/
theorem wf_refuses_part : Inst.wellFormed ⟨.vcvt, { Fields.zero with t := 3, fn := 7, md := 6, imm := 2 }⟩ = false := by decide
theorem wf_refuses_blk : Inst.wellFormed ⟨.vamax, { Fields.zero with t := 3, md := 6, imm := 6 }⟩ = false := by decide
theorem wf_refuses_group : Inst.wellFormed ⟨.vamax, { Fields.zero with t := 3, md := 6, imm := 5, s1 := 25 }⟩ = false := by decide
/-- The consumed counter field is zero without CS (Table 71). -/
theorem wf_refuses_consumed : Inst.wellFormed ⟨.mma, { Fields.zero with t := 3, imm := 0x100 }⟩ = false := by decide
/-- Limits of single instructions: SLEEP, NOP.phase, XFENCE, SEND, GTH (R155, R160, R180, R278, R287). -/
theorem wf_refuses_sleep : Inst.wellFormed ⟨.sleep, { Fields.zero with t := 2, imm := 0x8000 }⟩ = false := by decide
theorem wf_refuses_phase : Inst.wellFormed ⟨.nopPhase, { Fields.zero with t := 2, imm := 0x100, fn := 2 }⟩ = false := by decide
theorem wf_refuses_xfence : Inst.wellFormed ⟨.xfence, { Fields.zero with t := 3, imm := 0x0100 }⟩ = false := by decide
theorem wf_refuses_payload : Inst.wellFormed ⟨.sendUni, { Fields.zero with t := 3, s1 := 27 }⟩ = false := by decide
theorem wf_refuses_latchForm : Inst.wellFormed ⟨.gthLatch, { Fields.zero with t := 3, imm := 0x0200 }⟩ = false := by decide
/-- A function code that no row lists, and an event, are no instruction (R85). -/
theorem wf_refuses_fn : Inst.wellFormed ⟨.add, { Fields.zero with t := 1, fn := 1 }⟩ = false := by decide
theorem wf_refuses_event : Inst.wellFormed ⟨.drain, Fields.zero⟩ = false := by decide
/-- A well-formed one. -/
theorem wf_takes_add : Inst.wellFormed ⟨.add, o3⟩ = true := by decide

/-! Decoding: words written from the encodings of chapter 02 (R67 to R69, R76 to R79). -/

/-- ADD s3 = s1 + 7: T = 2, major 0x01, D = 3; S1 = 1; IMM = 7. -/
theorem decode_add : decodeInstr 0x8046 [0x0020, 0x0007] = .ok ⟨.add, { Fields.zero with t := 2, d := 3, s1 := 1, imm := 7 }⟩ := rfl
/-- BRP.all p1, 4: major 0x21, FN = 1. -/
theorem decode_brp : decodeInstr 0x8842 [0x0400, 0x0004] = .ok ⟨.brpAll, { Fields.zero with t := 2, d := 1, fn := 1, imm := 4 }⟩ := rfl
/-- FFMA s30 = s16 × s26 + s30: T = 1, major 0x33. -/
theorem decode_ffma : decodeInstr 0x4cfc [0x021a] = .ok ⟨.ffma, { Fields.zero with t := 1, d := 30, s1 := 16, s2 := 26 }⟩ := rfl
/-- LD.64 s6 = [s5]: form B, major 0x38, FN = 6. -/
theorem decode_ld : decodeInstr 0x4e0c [0x18a0] = .ok ⟨.ld64, { Fields.zero with t := 1, d := 6, fn := 6, s1 := 5 }⟩ := rfl
/-- PUT with a sync halfword that signals counter 7: form C, T = 3, major 0x43. -/
theorem decode_put : decodeInstr 0xf0cc [0x0027, 0x0000, 0x0040, 0x41c0] =
    .ok ⟨.put, { Fields.zero with t := 3, d := 6, s1 := 9, sz := 3, imm := 0x40, sync := some 0x41c0 }⟩ := rfl
/-- VSCALE with element type 20: T = 3. -/
theorem decode_vscale : decodeInstr 0xd8c8 [0x0012, 0x0004, 0x0003] =
    .ok ⟨.vscale, { Fields.zero with t := 3, d := 4, s1 := 4, sz := 2, md := 4, imm := 3 }⟩ := rfl
/-- MACC.st of accumulator 0 as FP32: T = 2, FN = 2. -/
theorem decode_macc : decodeInstr 0x9bc0 [0x0128, 0x0006] = .ok ⟨.maccSt, { Fields.zero with t := 2, fn := 2, s1 := 10, md := 6 }⟩ := rfl
/-- GTH with a latch destination: major 0x76, IMM16 [9] = 1. -/
theorem decode_gth : decodeInstr 0xdd80 [0x0014, 0x3000, 0x0f0c] =
    .ok ⟨.gthLatch, { Fields.zero with t := 3, s1 := 5, s2 := 6, imm := 0x0f0c }⟩ := rfl
/-- own.give with a completion counter: major 0x7d. -/
theorem decode_own : decodeInstr 0xdf48 [0x0014, 0x0000, 0x0103] =
    .ok ⟨.ownGive, { Fields.zero with t := 3, d := 4, s1 := 5, imm := 0x0103 }⟩ := rfl
/-- Major 0x2f is illegal (R85). -/
theorem decode_illegal : decodeInstr 0x4bc0 [0x0000] = .error .illegalMajor := rfl
/-- The encoder writes the words of the first of them. -/
theorem encode_add : encode ⟨.add, { Fields.zero with t := 2, d := 3, s1 := 1, imm := 7 }⟩ = some (0x8046, [0x0020, 0x0007]) := rfl

/-! Premises of the statements: the machine, checks, traps. -/

/-- Core (0, 0) with one ready context, its turn next. -/
def sIssue : State := { on c1 Fields.zero id with inputs := [.issue ⟨0, 0⟩ false] }

/-- StepRunsDecoded: the issue turn of a core with one ready context at a NOP, without and with a report that waits for context 0; a beacon's turn. -/
theorem witness_StepRunsDecoded : let s := { sIssue.follow.pruneYields with inputs := [] }
    ∃ s1, sIssue.inputs = .issue ⟨0, 0⟩ false :: [] ∧ s.pick ⟨0, 0⟩ = some c1 ∧ s.enter c1 = .at_ s1 ∧
      decodeHead (s1.ctx c1).line (headIndex (s1.ctx c1).pc) = .ok ⟨.nop, Fields.zero⟩ ∧ s1.interlocked c1 = false ∧ s1.reportDue c1 = false :=
  ⟨{ sIssue.follow.pruneYields with inputs := [] }, rfl, by decide, rfl, rfl, by decide, by decide⟩
def sReport : State := { on c0 Fields.zero (core' (fun k => { k with report := some (0x0c, 0, 0) })) with inputs := [.issue ⟨0, 0⟩ false] }
theorem witness_StepRunsDecoded_report : let s := { sReport.follow.pruneYields with inputs := [] }
    ∃ s1, s.pick ⟨0, 0⟩ = some c0 ∧ s.enter c0 = .at_ s1 ∧ decodeHead (s1.ctx c0).line (headIndex (s1.ctx c0).pc) = .ok ⟨.nop, Fields.zero⟩ ∧
      s1.interlocked c0 = false ∧ s1.reportDue c0 = true :=
  ⟨{ sReport.follow.pruneYields with inputs := [] }, by decide, rfl, rfl, by decide, by decide⟩
theorem witness_StepRunsDecoded_event : ({ State.reset with inputs := [.event .paceBeacon EvArgs.zero] } : State).inputs = .event .paceBeacon EvArgs.zero :: [] ∧
    Instr.info .paceBeacon = .event := ⟨rfl, rfl⟩

/-- FetchReadsLine: a line with a NOP at TCM offset 0x400, read in supervisor mode. -/
def sFetch : State := (on c1 Fields.zero (ctx' (fun k => { k with entry := .from_ 0, line := [] }))).storeBytes (flatTcm ⟨0, 0⟩ 0x400) (lineOf 0x0b80 [])
theorem witness_FetchReadsLine : let pc := (sFetch.ctx c1).pc
    let base := lineBase pc
    pSpc pc = 0 ∧ pFmt pc = 0 ∧ pBlk pc = 0 ∧ pRel pc = false ∧ unassigned pc = 0 ∧ (pc.extractLsb' 0 6).toNat % 2 = 0 ∧
    (pc.extractLsb' 0 6).toNat ≠ 0 ∧ sFetch.permitted 0 (sFetch.ctx c1).sup 0 (pOff base) 64 .fetch = true ∧
    (sFetch.core ⟨0, 0⟩).code.find (flatTcm ⟨0, 0⟩ (pOff base)) = none ∧ (sFetch.ctx c1).body = [] ∧ sFetch.poisoned (flatTcm ⟨0, 0⟩ (pOff base)) 64 = false ∧
    lineError (sFetch.bytes (flatTcm ⟨0, 0⟩ (pOff base)) 64) = none ∧ headIndex pc < headCount (sFetch.bytes (flatTcm ⟨0, 0⟩ (pOff base)) 64) := by
  refine ⟨by decide, by decide, by decide, by decide, by decide, by decide, by decide, by decide, by decide, by decide, by decide, by decide, by decide⟩

/-- StorageReadsBack, StepKeepsMemoryCanonical: the reset memory is canonical. -/
theorem witness_memOk : State.reset.memOk := rfl

/-- IssueChecks: each of the four checks fails first; a sync wait that is not met; a predicate that governs an instruction off. -/
theorem witness_IssueChecks_illegal : (on c1 Fields.zero id).illegalUse c1 ⟨.sysCsrr, { Fields.zero with imm := 0xff }⟩ = true := by decide
theorem witness_IssueChecks_feature : let s := { on c1 Fields.zero id with featAck := 0 }
    s.illegalUse c1 ⟨.tandemOff, Fields.zero⟩ = false ∧ s.featureOff ⟨.tandemOff, Fields.zero⟩ = true := ⟨by decide, by decide⟩
theorem witness_IssueChecks_field : let s := on c1 Fields.zero id
    let i : Inst := ⟨.add, { Fields.zero with r0 := 1 }⟩
    s.illegalUse c1 i = false ∧ s.featureOff i = false ∧ i.fieldsOk = false := ⟨by decide, by decide, by decide⟩
theorem witness_IssueChecks_right : let s := on c1 Fields.zero user
    let i : Inst := ⟨.eret, { Fields.zero with t := 1 }⟩
    s.illegalUse c1 i = false ∧ s.featureOff i = false ∧ i.fieldsOk = true ∧ s.noRight c1 i = true := ⟨by decide, by decide, by decide, by decide⟩
theorem witness_IssueChecks_sync : let o := { o3 with sync := some 0x8041 }
    let s := on c1 o id
    Instr.info .add ≠ .event ∧ (s.ctx c1).gang = none ∧ s.gate c1 ⟨.add, o⟩ = none ∧ ∃ n v, syncWait o = some (n, v) ∧
      ((s.core c1.core).reinAt n).v.toNat < v := ⟨by decide, by decide, by decide, _, _, rfl, by decide⟩
theorem witness_IssueChecks_off : let o := { o3 with pg := 1 }
    let s := on c1 o id
    s.ahead = false ∧ (s.ctx c1).gang = none ∧ s.gate c1 ⟨.add, o⟩ = none ∧ s.syncHeld o [c1] = none ∧ s.exchangeDue c1 .add o = false ∧
      s.predicatedOff c1 ⟨.add, o⟩ = true := ⟨by decide, by decide, by decide, by decide, by decide, by decide⟩

/-- TrapsAndUpcallsEnter: a trap in user mode; an absent page with a vector for upcalls; a double trap with a free entry of the fault
queue; a trap while an upcall runs, with s2 at the lowest offset that holds its frame. -/
theorem witness_Traps_plain : let k := (on c1 Fields.zero user).ctx c1
    ¬(k.sup = true ∧ k.causeCode ≠ 0) ∧ k.upcallBit = false := by decide
theorem witness_Traps_upcall : let s := on c1 Fields.zero (fun s => core' (fun k => { k with upcallVec := 0x800 }) (user s))
    (s.ctx c1).sup = false ∧ (s.core c1.core).upcallVec ≠ 0 ∧ (s.ctx c1).upcallBit = false := by decide
theorem witness_Traps_double : let s := on c1 Fields.zero (ctx' (fun k => { k with cause := 7 }))
    s.memOk ∧ (s.ctx c1).sup = true ∧ (s.ctx c1).causeCode ≠ 0 ∧ s.freeSlot 0 255 0 = some 0 := ⟨rfl, by decide, by decide, by decide⟩
theorem witness_Traps_inUpcall : let s := on c1 Fields.zero (fun s => (ctx' (fun k => { k with cause := 0x209 }) (user (grant s))).ws c1 2 32)
    s.memOk ∧ (s.ctx c1).sup = false ∧ (s.ctx c1).upcallBit = true ∧ (s.ctx c1).act.task = none ∧ (s.core c1.core).tandem = none ∧
    (s.core c1.core).sb = [] ∧ (s.core c1.core).detmode.getLsbD 0 = false ∧ (s.rs c1 2).toNat = 32 ∧
    (∀ i < 4, s.permitted 0 false 0 (32 - 32 + 8 * i) 8 .write = true) :=
  ⟨rfl, by decide, by decide, by decide, by decide, by decide, by decide, by decide, by decide⟩

/-- An entry through TRAPVEC or UPCALLVEC. -/
theorem witness_Traps_vector : ((on c1 Fields.zero (ctx' (fun k => { k with entry := .vector }))).ctx c1).entry = .vector := by decide

/-! Scalar instructions. -/

/-- The rows of majors 0x01 to 0x0f, and those that read A only. -/
def intRows : List Instr := [.add, .addW, .addSs, .addUs, .sub, .subW, .subSs, .subUs, .mul, .mulW, .mulhSs, .mulhUu, .mulhSu, .div, .divU, .divW,
  .divUw, .rem, .remU, .remW, .remUw, .andR, .orR, .xor, .andn, .shl, .shlW, .shr, .shrA, .shrW, .shrAw, .rot, .rotL, .rotW, .rotLw, .min, .minU,
  .max, .maxU]
def unaryRows : List Instr := [.bcntClz, .bcntCtz, .bcntPopc, .extS8, .extS16, .extS32, .extZ8, .extZ16, .extZ32]
def cmpRows : List Instr := [.cmpEq, .cmpNe, .cmpLt, .cmpGe, .cmpLtu, .cmpGeu]
def sReg : State := on c1 o3 (regs 5 7)
def sUn : State := on c1 { o3 with s2 := 0 } (regs 5 7)

/-- IntegerResults: every integer row is ready with two registers, and with an immediate and D = s0. -/
theorem witness_IntegerResults : (∀ row ∈ intRows, (Claim.integer row).isSome = true) ∧ (∀ row ∈ intRows, sReg.Ready row) ∧
    ∀ row ∈ intRows, (on c1 { oi 7 with d := 0 } (regs 5 0)).Ready row :=
  ⟨by decide, ready_all (by decide), ready_all (by decide)⟩
/-- CountsFieldsSelectAndMoves. -/
theorem witness_CountsFieldsSelectAndMoves : (∀ row ∈ unaryRows, (Claim.unary row).isSome = true) ∧
    (∀ row ∈ unaryRows ++ [.mov, .movP, .movSp, .movPs, .movPnot], sUn.Ready row) ∧
    (∀ row ∈ [Instr.bfxU, .bfxS, .bfi, .sel, .movPand, .movPor], sReg.Ready row) ∧
    ∀ row ∈ [Instr.liLo, .liHi], (on c1 { oi 9 with s1 := 0 } id).Ready row :=
  ⟨by decide, ready_all (by decide), ready_all (by decide), ready_all (by decide)⟩
/-- CompareResults. -/
theorem witness_CompareResults : (∀ row ∈ cmpRows, (Claim.compare row).isSome = true) ∧ ∀ row ∈ cmpRows, sReg.Ready row :=
  ⟨by decide, ready_all (by decide)⟩

/-- A gang of context 1 on positions 0 and 1. -/
def c1' : CtxId := ⟨⟨0, 1⟩, 1⟩
def gang2 : GangRole := ⟨[c1, c1'], none⟩
def inGang (k : Ctx) : Ctx := { k with gang := some gang2, st := .ready, pc := 0x402, line := lineOf 0x0b80 [], entry := .inLine, sup := true }
def sGang (o : Fields) : State := on c1 o (fun s => ((s.modCore ⟨0, 1⟩ (fun k => { k with launch := some placedLaunch })).modCtx c1 inGang).modCtx c1' inGang)
/-- IntegerInGang. -/
theorem witness_IntegerInGang : let s := sGang o3
    (s.ctx c1).gang = some gang2 ∧ 2 ≤ gang2.members.length ∧ (gang2.members.map CtxId.key).Nodup ∧
    (∀ c ∈ gang2.members, s.gate c ⟨.add, s.op⟩ = none) ∧ s.syncHeld s.op gang2.members = none ∧ s.exchangeDue s.cur .add s.op = false ∧
    (∀ c ∈ gang2.members, (s.ctx c).gdone = 0 ∧ s.predicatedOff c ⟨.add, s.op⟩ = false) :=
  ⟨by decide, by decide, by decide, by decide, by decide, by decide, by decide⟩

/-- PointerArithmetic: each branch: FMT 15 without its feature, a reserved format, a reserved space, an offset that leaves its field, one
that reaches its last unit. -/
def ptr (fmt spc off : Nat) : Word := BitVec.ofNat 64 (fmt * 2 ^ 59 + spc * 2 ^ 53 + off)
theorem witness_PointerArithmetic_ready : ∀ row ∈ [Instr.addp, .addpB, .subp, .subpB, .mkp], sReg.Ready row := ready_all (by decide)
theorem witness_PointerArithmetic_feature : let s := { on c1 o3 (regs (ptr 15 0 0) 7) with featAck := 0 }
    pFmt s.opA = 15 ∧ s.feat0 5 = false := by decide
theorem witness_PointerArithmetic_checks : fmtOk (ptr 22 0 0) = false ∧ 6 ≤ pSpc (ptr 0 6 0) ∧ fmtOk (ptr 0 6 0) = true ∧
    Claim.moved (ptr 0 0 0x1ffff) 1 = none ∧ Claim.moved (ptr 0 0 0) (-1) = none ∧ Claim.moved (ptr 0 0 0) 0x1ffff = some (ptr 0 0 0x1ffff) ∧
    (ptr 0 0 4).toNat / 2 ^ Claim.offBits 0 ≠ (ptr 0 2 4).toNat / 2 ^ Claim.offBits 0 := by decide
/-- PointerFieldsAndPabs: fields that exist and that do not, a value at and past its width; PABS of spaces 0, 2, 6. -/
theorem witness_PointerFields_ready :
    (∀ row ∈ [Instr.psetFmt, .psetBlk, .psetSpc, .psetRel, .psetTile, .psetDie, .psetOff, .psetCore], sReg.Ready row) ∧
    (∀ row ∈ [Instr.pgetFmt, .pgetBlk, .pgetSpc, .pgetRel, .pgetTile, .pgetDie, .pgetOff, .pgetCore, .pabs], sUn.Ready row) ∧
    pSpc sReg.opA = 0 ∧ sReg.opB.toNat < 2 ^ 3 :=
  ⟨ready_all (by decide), ready_all (by decide), by decide, by decide⟩
theorem witness_PointerFields : Claim.pointerField 0 .psetTile = none ∧ Claim.pointerField 2 .psetTile = some (43, 9) ∧
    Claim.pointerField 6 .psetOff = none ∧ 2 ^ 9 ≤ (512 : Word).toNat ∧ ¬2 ^ 9 ≤ (511 : Word).toNat := by decide
theorem witness_Pabs : absPtr ⟨0, 0⟩ (ptr 0 6 0) = none ∧ (absPtr ⟨3, 5⟩ (ptr 0 0 8)).isSome = true ∧ absPtr ⟨3, 5⟩ (ptr 0 2 8) = some (ptr 0 2 8) := by decide

/-- BranchesCallsAndLoops: each row, with a target inside and one past the end of the offset field, and a JALR through space 6. -/
def brRows : List Instr := [.br, .jal, .loop]
theorem witness_Branches_ready : (∀ row ∈ brRows, (on c1 { oi 4 with s1 := 0, d := 0 } id).Ready row) ∧
    (∀ row ∈ [Instr.brpAny, .brpAll, .brpNone, .brpNall], (on c1 { oi 4 with s1 := 0 } id).Ready row) ∧
    (∀ row ∈ [Instr.jalr], (on c1 (oi 4) (regs (ptr 0 6 0) 0)).Ready row) :=
  ⟨ready_all (by decide), ready_all (by decide), ready_all (by decide)⟩
theorem witness_Branches_target : Claim.target (on c1 (oi 4) id) = some 0x408 ∧ Claim.target (on c1 (oi 0xfd00) id) = none ∧
    (Claim.link (on c1 (oi 4) id)).isSome = true ∧ Claim.link (on c1 (oi 4) (ctx' (fun k => { k with pc := 0x1ffc2 }))) = none := by decide
theorem witness_Loop : ((on c1 (oi 4) id).ctx c1).lpct = 0 ∧ ((on c1 (oi 4) (ctx' (fun k => { k with lpct := 1 }))).ctx c1).lpct = 1 := by decide

/-- ForkAndJoin: a deque with room and one that is full; a counter of 1 and one of 2 at TCM offset 0x100. -/
def sFork (n : Nat) : State := on c1 { oi 4 with d := 0 } (fun s => core' (fun k => { k with deque := List.replicate n ⟨0, 0, 0, 0, []⟩ }) (regs 0x100 0x1000 s))
theorem witness_Fork : (∀ row ∈ [Instr.fork], (sFork 15).Ready row) ∧ (∀ row ∈ [Instr.fork], (sFork 16).Ready row) ∧
    Claim.target (sFork 15) = some 0x408 ∧ (absPtr ⟨0, 0⟩ ((sFork 15).rs c1 2)).isSome = true ∧ (absPtr ⟨0, 0⟩ (sFork 15).opA).isSome = true ∧
    ((sFork 15).core ⟨0, 0⟩).deque.length = 15 ∧ 16 ≤ ((sFork 16).core ⟨0, 0⟩).deque.length :=
  ⟨ready_all (by decide), ready_all (by decide), by decide, by decide, by decide, by decide, by decide⟩
/-- ForkAndJoin, YieldsSleepsHints: with a posted access outstanding. -/
theorem witness_posted : let s := ctx' (fun k => { k with posted := 1 }) (sFork 0)
    let t := on c0 Fields.zero (fun s => ctx' (fun k => { k with posted := 1 }) (launched s))
    s.Ready .fork ∧ 0 < (s.ctx c1).posted ∧ (s.core ⟨0, 0⟩).deque.length < 16 ∧ t.Ready .trigger ∧ 0 < (t.ctx c0).posted ∧
      t.launchOf ⟨0, 0⟩ = some aLaunch ∧ aLaunch.desc.dep ≠ 2 :=
  ⟨ready_of (by decide), by decide, by decide, ready_of (by decide), by decide, by decide, by decide⟩
def sJoin (n : Nat) : State := (on c1 { oi 4 with d := 0 } (regs 0x100 0)).store (flatTcm ⟨0, 0⟩ 0x100) 8 n
theorem witness_Join (n : Nat) (h : n = 1 ∨ n = 2) : (sJoin n).memOk ∧ (sJoin n).Ready .join ∧ Claim.target (sJoin n) = some 0x408 ∧
    ((sJoin n).ctx c1).joined = false ∧ ((sJoin n).taken .join).coreAddr0 c1
      { base := (sJoin n).opA, ofs := 0, n := 8, align := 8, k := .rmw, spaces := [0, 1, 2], plain := false, held := true } = .ok (flatTcm ⟨0, 0⟩ 0x100, (sJoin n).taken .join) ∧
    (sJoin n).settled c1 = true ∧ ((sJoin n).ctx c1).err = none ∧ (sJoin n).poisoned (flatTcm ⟨0, 0⟩ 0x100) 8 = false ∧
    (sJoin n).load (flatTcm ⟨0, 0⟩ 0x100) 8 = n := by
  rcases h with rfl | rfl <;>
    exact ⟨rfl, ready_of (by decide), by decide, by decide, rfl, by decide, by decide, by decide, by decide⟩

/-- SpawnAndExit: a free helper and none; EXIT of a helper, and of a context 0 that may leave and that may not. -/
def sSpawn (st : CState) : State := on c0 { oi 4 with s1 := 1 } (fun s => helperCtx.foldl (fun s i => s.modCtx ⟨⟨0, 0⟩, i⟩ (fun k => { k with st := st })) s)
theorem witness_Spawn : (sSpawn .free).Ready .spawn ∧ (sSpawn .ready).Ready .spawn ∧ Claim.target (sSpawn .free) = some 0x408 ∧
    ((sSpawn .free).core ⟨0, 0⟩).launch = some placedLaunch ∧ ((sSpawn .free).freeHelperOf ⟨0, 0⟩).isSome = true ∧
    (sSpawn .ready).freeHelperOf ⟨0, 0⟩ = none :=
  ⟨ready_of (by decide), ready_of (by decide), by decide, by decide, by decide, by decide⟩
theorem witness_Exit : (on c1 Fields.zero id).Ready .exit ∧ (on c1 Fields.zero id).settled c1 = true ∧ ((on c1 Fields.zero id).ctx c1).err = none ∧
    (on c0 Fields.zero id).Ready .exit ∧ (on c0 Fields.zero id).mayLeave ⟨0, 0⟩ = true ∧
    (on c0 Fields.zero (fun s => s.modCtx c1 (fun k => { k with st := .ready }))).mayLeave ⟨0, 0⟩ = false ∧
    (on c1 Fields.zero (ctx' (fun k => { k with commands := 1 }))).settled c1 = false :=
  ⟨ready_of (by decide), by decide, by decide, ready_of (by decide), by decide, by decide, by decide⟩

/-- YieldsSleepsHints. -/
theorem witness_Yields : (∀ row ∈ [Instr.yield, .nop, .nopSpin], (on c1 Fields.zero id).Ready row) ∧
    (∀ row ∈ [Instr.sleep], (on c1 { oi 0 with s1 := 0, d := 0 } id).Ready row) ∧ (∀ row ∈ [Instr.nopPhase], (on c1 { oi 255 with s1 := 0, d := 0 } id).Ready row) ∧
    (∀ row ∈ [Instr.waitdep, .trigger], (on c0 Fields.zero id).Ready row) ∧ ((on c0 Fields.zero id).producersLeft ⟨0, 0⟩).isEmpty = true :=
  ⟨ready_all (by decide), ready_all (by decide), ready_all (by decide), ready_all (by decide), by decide⟩

/-- TrapsAndReturns. -/
theorem witness_TrapsAndReturns : (∀ row ∈ [Instr.trap, .trapBkpt], (on c1 { oi 7 with s1 := 0, d := 0 } id).Ready row) ∧
    ¬((sReg.ctx c1).sup = true ∧ (sReg.ctx c1).causeCode ≠ 0) ∧ (sReg.ctx c1).upcallBit = false ∧
    (∀ row ∈ [Instr.eret, .upret], (on c1 Fields.zero id).Ready row) ∧
    ((on c1 Fields.zero (ctx' (fun k => { k with cause := 0x200 }))).ctx c1).upcallBit = true ∧
    (on c1 Fields.zero (ctx' (fun k => { k with cause := 0x200 }))).Ready .upret :=
  ⟨ready_all (by decide), by decide, by decide, ready_all (by decide), by decide, ready_of (by decide)⟩

/-! Scalar floating point. -/

def floatRows : List Instr := [.fadd, .fsub, .fmul, .ffma, .fminmaxMin, .fminmaxMax, .fcmpEq, .fcmpLt, .fcmpLe, .fcmpUn, .fspecDiv]
def floatUnary : List Instr := [.fspecRcp, .fspecRsqrt, .fspecSqrt, .fspecExp2, .fspecLog2, .fcvtI64F32, .fcvtF32I64, .fcvtU64F32, .fcvtF32U64, .fcvtF16F32,
  .fcvtF32F16, .fcvtBf16F32, .fcvtF32Bf16]
/-- FloatArithmetic, FloatCompareMinMax, FloatConversions. -/
theorem witness_Float_ready : (∀ row ∈ floatRows, sReg.Ready row) ∧ ∀ row ∈ floatUnary, sUn.Ready row := ⟨ready_all (by decide), ready_all (by decide)⟩
theorem witness_Float_rows : ∀ row ∈ [Instr.fadd, .fsub, .fmul, .ffma, .fspecRcp, .fspecRsqrt, .fspecSqrt, .fspecDiv, .fspecExp2, .fspecLog2],
    (Claim.floatOp row).isSome = true := by decide
/-- FloatCompareMinMax: a number, a quiet NaN and a signalling one. -/
theorem witness_Float_nan : (f32 0x3f800000).isNaN = false ∧ (f32 0x7fc00000).isNaN = true ∧ (f32 0x7fc00000).isSig = false ∧
    (f32 0x7f800001).isSig = true := by decide
/-- RoundsToNearest: 1 rounds without overflow in each format; overflow is flagged for a number past the largest. -/
theorem witness_RoundsToNearest : ∀ f ∈ [Fmt.f32, .f16, .bf16, .e8m10, .e4m3, .e5m2, .e3m2, .e2m3, .e2m1],
    (roundTo f 0 0 false false 1 0 false).2 &&& fOF = 0 := by decide
/-- FloatConversions: 5 × 2^0 is the integer 5 within the range of INT64. -/
theorem witness_FloatConversions : (-2 ^ 63 : Int) ≤ 5 ∧ (5 : Int) ≤ 2 ^ 63 - 1 ∧ ∃ m e, (0 : Int) ≤ e ∧ FVal.fin false 5 0 = .fin (decide ((5 : Int) < 0)) m e ∧
    (5 : Int).natAbs = m * 2 ^ e.toNat := ⟨by decide, by decide, 5, 0, by decide, rfl, by decide⟩

/-! Memory and synchronisation. -/

/-- A form B or C instruction with S1 = 1, D = 3 on a pointer p in s1. -/
def sPtr (p : Word) : State := on c1 { oz with d := 3 } (regs p 0)
/-- Byte 0x100 of the TCM of core (0, 0). -/
def a100 : Nat := flatTcm ⟨0, 0⟩ 0x100
/-- The page at virtual address 0 of a die is mapped to frame 0x1000 with all rights and lease code 1. -/
def mapped (vd : Nat) (s : State) : State :=
  ((s.store (s.flatPhys vd 0) 8 0x2001).store (s.flatPhys vd 8192) 8 0x4001).store (s.flatPhys vd 16384) 8 0x1000117f

/-- TcmAccessChecks: the last byte of the TCM, one byte past it, an access that reaches past it, a misaligned one, one that user mode may
not make, a held range, a poisoned word. -/
def req (o : Int) (n : Nat) (k : AKind) : Req := ⟨0, o, n, n, k, [0, 1, 2], true, true⟩
theorem witness_Tcm_premises : pSpc (req 0 1 .read).base = 0 ∧ pRel (req 0 1 .read).base = false ∧ unassigned (req 0 1 .read).base = 0 ∧
    0 ∈ (req 0 1 .read).spaces ∧ (sPtr 0).confOn c1 = false := by decide
theorem witness_Tcm_last : (sPtr 0).coreAddr c1 (req 0x1ffff 1 .read) = .ok (flatTcm ⟨0, 0⟩ 0x1ffff, sPtr 0) := rfl
theorem witness_Tcm_bad : (2 : Int) ^ 17 ≤ 0x20000 ∧ (2 : Int) ^ 17 < 0x1fffc + 8 ∧ 0x102 % 4 ≠ 0 ∧
    (on c1 oz user).permitted 0 false 0 0x100 4 .read = false := by decide
theorem witness_Tcm_held : (on c1 oz (core' (fun k => { k with sb := [⟨1, some (a100, a100 + 64), none⟩] }))).sbHolds ⟨0, 0⟩ a100 (a100 + 4) false = true := by
  decide
theorem witness_Tcm_poison : ({ sPtr 0 with poison := [a100 / 8] }).poisoned a100 4 = true := by decide

/-- LoadsAndStores: every row is ready on a TCM pointer whose access passes, and a misaligned one stops. -/
def ldRows : List Instr := [.ldU8, .ldS8, .ldU16, .ldS16, .ldU32, .ldS32, .ld64]
def stRows : List Instr := [.st8, .st16, .st32, .st64]
theorem witness_LoadsAndStores : (∀ row ∈ ldRows ++ stRows, (sPtr 0x100).Ready row) ∧
    (∀ x ∈ Claim.loads, okIs (((sPtr 0x100).taken x.1).loadBytes c1 (Claim.reqB (sPtr 0x100) x.2.1 .read
      (if x.2.1 = 4 then [0, 1, 2, 3, 4, 5] else [0, 1, 2, 3, 5]) true true)) (fun _ => true) = true) ∧
    (∀ x ∈ Claim.stores, ((sPtr 0x100).taken x.1).coreAddr c1 (Claim.reqB (sPtr 0x100) x.2 .write [0, 1, 2, 3, 5] true true) = .ok (a100, (sPtr 0x100).taken x.1)) ∧
    (sPtr 0x100).memOk ∧ (∀ x ∈ Claim.stores, inBlocks a100 x.2 = false) ∧
    errIs (((sPtr 0x101).taken .ld64).loadBytes c1 (Claim.reqB (sPtr 0x101) 8 .read [0, 1, 2, 3, 5] true true)) (fun _ => true) = true := by
  refine ⟨ready_all (by decide), by decide, fun x h => ?_, rfl, by decide, by decide⟩
  simp only [Claim.stores, List.mem_cons, List.not_mem_nil, or_false] at h
  rcases h with rfl | rfl | rfl | rfl <;> rfl

/-- An access to the TCM that nothing stands against: a read, a write and both; the last doubleword. -/
theorem witness_InTcm : ∀ k ∈ [AKind.read, .write, .rmw], Claim.InTcm (sPtr 0x100) 0 8 8 k a100 :=
  fun k h => ⟨by decide, by decide, by decide, by decide, by decide, by decide, (by revert h k; decide), by decide, (by revert h k; decide),
    (fun m hm => (by cases hm)), by decide, by decide⟩
theorem witness_InTcm_last : Claim.InTcm (sPtr 0x1fff8) 0 8 8 .read (flatTcm ⟨0, 0⟩ 0x1fff8) :=
  ⟨by decide, by decide, by decide, by decide, by decide, by decide, by decide, by decide, by decide, (fun m hm => (by cases hm)), by decide, by decide⟩

/-- TypedLoadsAndStores: formats 1 to 6, FP16 and MX formats, formats without a meaning, an index past the unit. -/
def sTyped (fmt blk : Nat) (j : Word) : State := on c1 { oz with d := 3, s2 := 2 } (regs (ptr fmt 0 0x100 + BitVec.ofNat 64 (blk * 2 ^ 56)) j)
theorem witness_Typed_ready : ∀ row ∈ [Instr.ldFmt, .stFmt], (sTyped 4 0 0).Ready row := ready_all (by decide)
theorem witness_Typed : (∀ f ∈ [1, 2, 3, 4, 5, 6], pFmt (sTyped f 0 0).opA = f ∧ pBlk (sTyped f 0 0).opA = 0) ∧
    okIs (((sTyped 4 0 0).taken .ldFmt).loadBytes c1 (Claim.reqB (sTyped 4 0 0) 4 .read [0, 1, 2, 3, 4, 5] true true)) (fun _ => true) = true ∧
    fmtOk (sTyped 7 0 0).opA = true ∧ 0 < unitElems (sTyped 7 0 0).opA ∧ fmtOk (sTyped 16 3 31).opA = true ∧ 31 < unitElems (sTyped 16 3 31).opA ∧
    unitElems (sTyped 16 3 32).opA ≤ 32 ∧ pFmt (sTyped 0 0 0).opA ∈ [0] ∧ fmtOk (sTyped 22 0 0).opA = false ∧
    okIs (((sTyped 7 0 0).taken .stFmt).coreAddr c1 { Claim.reqB (sTyped 7 0 0) 2 .write [0, 1, 2, 3, 5] true true with align := unitAlign 7 })
      (fun x => Memory.wf x.2.mem && !inBlocks x.1 2) = true := by
  refine ⟨by decide, by decide, by decide, by decide, by decide, by decide, by decide, by decide, by decide, by decide⟩

/-- AtomicResults: rows ready; the access passes; a release at pair scope with a posted access outstanding. -/
def oAmo (md sc : Nat) : Fields := { o3 with t := 2, sz := 3, md := BitVec.ofNat 3 md, sc := BitVec.ofNat 3 sc }
def sAmo (md sc n : Nat) : State := on c1 (oAmo md sc) (fun s => ctx' (fun k => { k with posted := n }) (regs 0x100 7 s))
theorem witness_Atomic_ready : (∀ row ∈ Claim.amos ++ [.cas], (sAmo 0 0 0).Ready row) ∧ (∀ row ∈ Claim.amos ++ [.cas], (sAmo 3 4 1).Ready row) ∧
    (∀ row ∈ [Instr.lda, .stl], (on c1 { oz with d := 3, sz := 3 } (regs 0x100 0)).Ready row) ∧ (∀ row ∈ Claim.amos, (Claim.amo row).isSome = true) :=
  ⟨ready_all (by decide), ready_all (by decide), ready_all (by decide), by decide⟩
theorem witness_Atomic : ((sAmo 0 0 0).taken .amoAdd).coreAddr c1 (Claim.reqC (sAmo 0 0 0) .rmw) = .ok (a100, (sAmo 0 0 0).taken .amoAdd) ∧ (sAmo 0 0 0).memOk ∧
    inBlocks a100 8 = false ∧ ((sAmo 3 4 1).op.md.toNat = 3 ∧ 4 ≤ (sAmo 3 4 1).op.sc.toNat ∧ 0 < ((sAmo 3 4 1).ctx c1).posted) :=
  ⟨rfl, rfl, by decide, by decide⟩

/-- FullEmptyWords: an empty word at reset, a full one. -/
theorem witness_FullEmpty : (∀ row ∈ [Instr.ldfeTake, .ldfePeek, .stfeFill, .stfeForce], (sPtr 0x100).Ready row) ∧
    (on c1 oz (regs 0x100 0)).Ready .stfeClear ∧ (sPtr 0x100).memOk ∧ (sPtr 0x100).feq = [] ∧
    ((sPtr 0x100).taken .ldfeTake).coreAddr c1 (Claim.reqB (sPtr 0x100) 8 .rmw [0, 1, 2, 3] false true) = .ok (a100, (sPtr 0x100).taken .ldfeTake) ∧
    (sPtr 0x100).isFull (a100 / 8) = false ∧ ({ sPtr 0x100 with full := [a100 / 8] }).isFull (a100 / 8) = true :=
  ⟨ready_all (by decide), ready_of (by decide), rfl, rfl, rfl, by decide, by decide⟩

/-- FencesAndCacheControl: rows, a line of the TCM and of a remote page, a gateway line that can be fetched. -/
def sFence (sc : Nat) (n : Nat) : State := on c1 { Fields.zero with t := 2, sc := BitVec.ofNat 3 sc } (ctx' (fun k => { k with posted := n }))
theorem witness_Fences : (∀ row ∈ [Instr.fence, .fenceAcq, .fenceRel], (sFence 4 1).Ready row) ∧ (4 ≤ (sFence 4 1).op.sc.toNat ∧ 0 < ((sFence 4 1).ctx c1).posted) ∧
    (on c1 { Fields.zero with t := 3, sc := 4, imm := 0x0101 } id).Ready .xfence ∧
    (∀ row ∈ [Instr.flushWb, .flushWbi, .flushInv, .flushCode, .prefR, .prefW, .prefGw], (on c1 oz (regs 0x100 0)).Ready row) ∧
    okIs ((Claim.env (on c1 oz (regs 0x100 0)) .flushCode).lineEa ((on c1 oz (regs 0x100 0)).taken .flushCode)) (fun p => decide (pSpc p < 4)) = true ∧
    okIs ((Claim.env (on c1 oz (regs (ptr 0 5 0 + 2 ^ 46) 0)) .flushInv).lineEa ((on c1 oz (regs (ptr 0 5 0 + 2 ^ 46) 0)).taken .flushInv)) (fun p => decide (pSpc p = 5)) = true ∧
    (on c1 oz id).home ⟨0, 0⟩ (ptr 0 5 0 + 2 ^ 46) ≠ 0 ∧
    errIs ((Claim.env (on c1 oz (regs (ptr 0 6 0) 0)) .flushWb).lineEa ((on c1 oz (regs (ptr 0 6 0) 0)).taken .flushWb)) (fun _ => true) = true :=
  ⟨ready_all (by decide), by decide, ready_of (by decide), ready_all (by decide), by decide, by decide, by decide, by decide⟩
theorem witness_GatewayLineFill : let s := { mapped 1 (on c1 oz (ctx' (fun k => { k with st := .waiting (.gateway (2 ^ 46) 0 false) 0 }))) with
      ev := { EvArgs.zero with ctx := c1 } }
    (s.ctx s.ev.ctx).st = .waiting (.gateway (2 ^ 46) 0 false) 0 ∧ (s.ctx s.ev.ctx).gang = none ∧
    okIs (s.gwFetch 0 8 (BitVec.ofNat 64 (5 * 2 ^ 53 + 2 ^ 46)) false (some c1.key)) (fun x => x.1.home == 1 && x.1.va == 0) = true := ⟨by decide, by decide, by decide⟩

/-- CountersAndBarriers. -/
def sCtr (t : Nat) : State := on c1 { Fields.zero with t := 3, s1 := 1, imm := 0 } (regs (BitVec.ofNat 64 t) 0)
theorem witness_Counters : (∀ row ∈ [Instr.cwait, .csig, .cset], (sCtr 5).Ready row) ∧ (on c1 { Fields.zero with t := 3, d := 3 } id).Ready .crd ∧
    ((sCtr 5).ctx c1).err = none ∧ ((sCtr 5).core ⟨0, 0⟩).rein = [] ∧
    ((on c1 Fields.zero (ctx' (fun k => { k with err := some ⟨some 0, 9, 0, 0, 0⟩ }))).ctx c1).err.isSome = true :=
  ⟨ready_all (by decide), ready_of (by decide), by decide, by decide, by decide⟩
theorem witness_Barriers : (∀ row ∈ [Instr.bar, .barArrive, .barWait], (on c1 { Fields.zero with t := 2 } id).Ready row) ∧
    ((on c1 Fields.zero id).core ⟨0, 0⟩).bar.arrived = false := ⟨ready_all (by decide), by decide⟩
/-- A core at the west and south edge of its rectangle, one column wide and one row high or wider; an arrival is recorded. -/
def sBar (rect : Half) (rel : Bool) : State := ev { EvArgs.zero with core := ⟨0, 0⟩ } (on c1 Fields.zero (core' (fun k =>
  { k with barRect := rect, bar := { k.bar with arrived := true, release := rel } })))
theorem witness_BarrierToken : (sBar 0 false).passes 64 ⟨0, 0⟩ = false ∧ (sBar 0xbb00 false).passes 64 ⟨0, 0⟩ = false ∧ ((sBar 0 false).core ⟨0, 0⟩).launchId = 64 ∧
    ((sBar 0 false).core ⟨0, 0⟩).bar.arrived = true ∧ ((sBar 0xbb00 false).core ⟨0, 0⟩).bar.arrived = true ∧
    ((sBar 0xbb00 false).core ⟨0, 0⟩).barRect = 0xbb00 ∧
    posX 0 = rectX0 0 ∧ posY 0 ≤ rectY0 0 ∧ rectX1 0 ≤ posX 0 ∧ rectY1 0 ≤ posY 0 ∧ posX 0 = rectX0 0xbb00 ∧ posX 0 < rectX1 0xbb00 :=
  ⟨by decide, by decide, by decide, by decide, by decide, by decide, by decide, by decide, by decide, by decide, by decide⟩
theorem witness_BarrierRelease : let s := sBar 0 true
    (s.core ⟨0, 0⟩).bar.release = true ∧ (∀ i ∈ allCtx, (s.ctx ⟨⟨0, 0⟩, i⟩).gang = none) := ⟨by decide, by decide⟩

/-- RemoteAccesses: a pointer to space 3 of the issuing die, and of die 1; the records and packets of its steps. -/
def rptr (die off : Nat) : Word := BitVec.ofNat 64 (3 * 2 ^ 53 + die * 2 ^ 46 + off)
def sRem (die d n : Nat) : State := on c1 { oz with d := BitVec.ofNat 5 d, sz := 3 } (fun s => ctx' (fun k => { k with posted := n }) (regs (rptr die 0x100) 0 s))
theorem witness_Remote_ready : (∀ row ∈ Claim.ramos.filter (· ≠ .ramoFadd) ++ [.get, .put], (sRem 1 3 0).Ready row) ∧ (∀ row ∈ Claim.ramos.filter (· ≠ .ramoFadd), (sRem 1 0 0).Ready row) ∧
    (on c1 { oz with d := 3, sz := 2, fn := 9 } (regs (rptr 1 0x100) 0)).Ready .ramoFadd :=
  ⟨ready_all (by decide), ready_all (by decide), ready_of (by decide)⟩
theorem witness_Remote_ea : okIs ((Claim.env (sRem 1 3 0) .get).remoteEa ((sRem 1 3 0).taken .get) [0, 1, 2, 3, 4, 5])
      (fun x => decide ((sRem 1 3 0).home ⟨0, 0⟩ x.2 ≠ 0)) = true ∧
    okIs ((Claim.env (sRem 0 3 0) .get).remoteEa ((sRem 0 3 0).taken .get) [0, 1, 2, 3, 4, 5]) (fun x => decide ((sRem 0 3 0).home ⟨0, 0⟩ x.2 = 0) &&
      decide (((sRem 0 3 0).taken .get).localWait ((Claim.env (sRem 0 3 0) .get).remote ((sRem 0 3 0).taken .get) 0 true 0 x.1 x.2) = none) &&
      okIs (((sRem 0 3 0).taken .get).remoteRun ((Claim.env (sRem 0 3 0) .get).remote ((sRem 0 3 0).taken .get) 0 true 0 x.1 x.2) 0) (fun _ => true)) = true ∧
    okIs ((Claim.env (sRem 1 0 15) .put).remoteEa ((sRem 1 0 15).taken .put) [0, 1, 2, 3, 5]) (fun x => decide ((sRem 1 0 15).home ⟨0, 0⟩ x.2 ≠ 0)) = true ∧
    ((sRem 1 0 15).ctx c1).posted < 16 ∧ 16 ≤ ((sRem 1 0 16).ctx c1).posted :=
  ⟨by decide, by decide, by decide, by decide, by decide⟩
/-- A remote record in stage n. -/
def rem (kind stage : Nat) (ret : Bool) (ctr : Option (Nat × Nat)) : Remote :=
  { kind := kind, returning := ret, size := 8, fn := 0, md := 0, sc := 0, data := 5, ea := rptr 1 0x100, abs := rptr 1 0x100, issuer := c1, tag := 0,
    d := 3, ctr := ctr, sup := true, launch := 64, stage := stage, fault := 0, detail := 0, ident := 0, value := 9, gone := false, taken := false, hb := [], rels := [] }
def sPk (r : Remote) (at_ : Nat) : State := ev { EvArgs.zero with k := 4 } { on c1 Fields.zero id with net := [⟨4, at_, at_, none, [], none, 0, 4, .remote r⟩] }
theorem witness_Remote_home : (sPk (rem 0 0 true none) 8).arrivedRemote 4 0 = some (⟨4, 8, 8, none, [], none, 0, 4, .remote (rem 0 0 true none)⟩, rem 0 0 true none) ∧
    (sPk (rem 0 0 true none) 8).remoteBehind 4 (rem 0 0 true none) = false ∧ pSpc (rem 0 0 true none).abs ≠ 4 ∧
    okIs ((sPk (rem 0 0 true none) 8).homeAddr ⟨0, 0⟩ 8 8 1 true false (rptr 1 0x100) 8 .read) (fun _ => true) = true ∧
    (sPk (rem 0 0 true none) 8).memOk := ⟨by decide, by decide, by decide, by decide, rfl⟩
theorem witness_Remote_ack : ((sPk (rem 1 2 false (some (7, 1))) 0).arrivedRemote 4 2).isSome = true ∧ (rem 1 2 false (some (7, 1))).gone = false ∧
    ((sPk (rem 0 2 true none) 0).arrivedRemote 4 2).isSome = true ∧ ((sPk (rem 0 2 true none) 0).ctx c1).gang = none ∧
    decodeHead ((sPk (rem 0 2 true none) 0).ctx c1).line (headIndex ((sPk (rem 0 2 true none) 0).ctx c1).pc) = .ok ⟨.nop, Fields.zero⟩ :=
  ⟨by decide, rfl, by decide, by decide, rfl⟩
/-- What a home performs: a RAMO.add of 8 bytes at a pool address. -/
theorem witness_Remote_perform : (rem 2 0 true none).kind = 2 ∧ Instr.ramoAdd ∈ Claim.ramos ∧ (rem 2 0 true none).fn = Claim.ramos.idxOf .ramoAdd ∧
    (Claim.amo .ramoAdd).isSome = true ∧ inBlocks a100 (rem 2 0 true none).size = false := by decide

/-- A posted RAMO of the context that acquires is on its way: fences, FLUSH and further remote accesses wait; so does a returning access of the
issuing die to the same bytes. -/
def sAcq (o : Fields) (p : Word) : State :=
  { on c1 o (fun s => ctx' (fun k => { k with posted := 1, remote := 1 }) (regs p 0 s)) with
    net := [⟨4, 0, 8, none, [], none, 0, 4, .remote { rem 2 0 false none with md := 1 }⟩] }
theorem witness_acquiring : let s := sAcq { Fields.zero with t := 2, sc := 4, s1 := 1 } 0x100
    let r := sAcq { oz with d := 3, sz := 3 } (rptr 1 0x100)
    s.acquiring c1 = true ∧ s.unperformed c1 (fun x => x.kind == 2) = true ∧ (sAcq { Fields.zero with t := 2, sc := 4 } 0).Ready .fenceAcq ∧
    (sAcq oz 0x100).Ready .flushWb ∧
    okIs ((Claim.env (sAcq oz 0x100) .flushWb).lineEa ((sAcq oz 0x100).taken .flushWb)) (fun _ => true) = true ∧ r.Ready .get ∧ r.acquiring c1 = true ∧
    okIs ((Claim.env r .get).remoteEa (r.taken .get) [0, 1, 2, 3, 4, 5]) (fun x => decide (r.home ⟨0, 0⟩ x.2 ≠ 0)) = true :=
  ⟨by decide, by decide, ready_of (by decide), ready_of (by decide), by decide, ready_of (by decide), by decide, by decide⟩
theorem witness_localWait : let s := sAcq { oz with d := 3, sz := 3 } (rptr 0 0x100)
    s.Ready .get ∧ okIs ((Claim.env s .get).remoteEa (s.taken .get) [0, 1, 2, 3, 4, 5]) (fun x => decide (s.home ⟨0, 0⟩ x.2 = 0) &&
      decide ((s.taken .get).localWait ((Claim.env s .get).remote (s.taken .get) 0 true 0 x.1 x.2) = some .earlier)) = true :=
  ⟨ready_of (by decide), by decide⟩
/-- Releases and barriers with a posted access outstanding; a barrier with an arrival of the present episode, and with an error to report. -/
theorem witness_waits : let s := on c1 { oz with d := 3 } (fun s => ctx' (fun k => { k with posted := 1 }) (regs 0x100 0 s))
    let b := on c1 { Fields.zero with t := 2 } (ctx' (fun k => { k with posted := 1 }))
    (∀ row ∈ [Instr.ldfeTake, .stfeFill], s.Ready row) ∧ 0 < (s.ctx c1).posted ∧
    okIs ((s.taken .stfeFill).coreAddr c1 (Claim.reqB s 8 .rmw [0, 1, 2, 3] false true)) (fun x => x.1 == a100) = true ∧
    b.Ready .bar ∧ (b.core ⟨0, 0⟩).bar.arrived = false ∧ (b.ctx c1).err = none ∧ 0 < (b.ctx c1).posted :=
  ⟨ready_all (by decide), by decide, by decide, ready_of (by decide), by decide, by decide, by decide⟩
theorem witness_Barriers_again :
    (on c1 { Fields.zero with t := 2 } (core' (fun k => { k with bar := { k.bar with arrived := true } }))).Ready .bar ∧
    (on c1 { Fields.zero with t := 2 } (ctx' (fun k => { k with err := some ⟨none, 9, 0, 0, 0⟩ }))).Ready .barArrive :=
  ⟨ready_of (by decide), ready_of (by decide)⟩
/-! Vectors, gangs, the matrix unit. -/

def oV (et : Nat) : Fields := { Fields.zero with t := 2, s1 := 1, d := 3, sz := BitVec.ofNat 2 (et / 8), md := BitVec.ofNat 3 (et % 8) }
def sV (et : Nat) : State := on c1 (oV et) id
def sVi (et imm : Nat) : State := on c1 { oV et with t := 3, imm := BitVec.ofNat 32 imm } id
def vintRows : List Instr := [.vadd, .vaddSat, .vsub, .vsubSat, .vmul, .vmulSat, .vmulHi, .vminmaxMin, .vminmaxMax, .vnegabsNeg, .vnegabsAbs, .vintAnd,
  .vintOr, .vintXor, .vintAndn, .vintShl, .vintShr, .vintSra, .vintPopc]
def vmoveRows : List Instr := [.vsel, .vshufIdx, .vshufRot, .vshufLo, .vshufHi, .vshufRev, .vbcastS, .vbcastLane]
def vfloatRows : List Instr := [.vadd, .vsub, .vmul, .vfma, .vfmaMs, .vfmaNm, .vspecRcp, .vspecRsqrt, .vspecSqrt, .vspecDiv, .vspecExp2, .vspecLog2,
  .vspecTanh]
def vcmpRows : List Instr := [.vcmpEq, .vcmpNe, .vcmpLt, .vcmpGe, .vcmpLe, .vcmpGt, .vcmpUn]
def vredRows : List Instr := [.vredSum, .vredMin, .vredMax, .vredAnd, .vredOr, .vredXor]

/-- VectorIntegerLanes, VectorFloatLanes, VectorReduceConvert: every row is ready with an element type of its list, INT8 or INT32, FP32. -/
theorem witness_Vector_int : (∀ row ∈ vintRows, (Claim.vint row).isSome = true ∧ (Claim.vint row).all (fun x => x.1.contains 4) = true) ∧
    (∀ row ∈ vintRows, (sV 4).Ready row) ∧ (sV 4).ahead = false := ⟨by decide, ready_all (by decide), by decide⟩
theorem witness_Vector_move : (∀ row ∈ vmoveRows, (Claim.vmove row).isSome = true) ∧ (∀ row ∈ vmoveRows, (sV 14).Ready row) ∧ (sV 14).op.et ∈ Claim.moves :=
  ⟨by decide, ready_all (by decide), by decide⟩
theorem witness_Vector_dot : (sV 1).Ready .vdotQ ∧ (sV 2).Ready .vdotQ ∧ (sV 3).Ready .vdotP ∧ (sV 7).Ready .vdotP ∧ (sV 8).Ready .vdotP :=
  ⟨ready_of (by decide), ready_of (by decide), ready_of (by decide), ready_of (by decide), ready_of (by decide)⟩
/-- An element type outside the list: MXFP8 for VADD. -/
theorem witness_Vector_format : (sV 16).Ready .vadd ∧ (sV 16).op.et ∉ [1, 2, 3, 4, 5, 6, 7, 8] := ⟨ready_of (by decide), by decide⟩
theorem witness_Vector_float : (∀ row ∈ vfloatRows, (Claim.vfloat row).isSome = true) ∧
    (∀ row ∈ vfloatRows ++ [.vminmaxMin, .vminmaxMax, .vnegabsNeg, .vnegabsAbs] ++ vcmpRows, (sV 6).Ready row) ∧ (∀ row ∈ vfloatRows, (sV 8).Ready row) ∧
    (∀ row ∈ vcmpRows, (Claim.vcmp row).isSome = true) ∧ (sV 5).Ready .vcmpEq :=
  ⟨by decide, ready_all (by decide), ready_all (by decide), by decide, ready_of (by decide)⟩
/-- Reductions: all elements, and none when the governing predicate is clear. -/
theorem witness_Vector_reduce : (∀ row ∈ vredRows, (sV 4).Ready row) ∧ (∀ row ∈ [Instr.vredSum, .vredMin, .vredMax], (sV 6).Ready row) ∧
    ((List.range 16).filter (Claim.governs (sV 4) 32)) ≠ [] ∧ Claim.actives (on c1 { oV 4 with pg := 1 } id) = [] ∧ (on c1 { oV 4 with pg := 1 } id).Ready .vredSum :=
  ⟨ready_all (by decide), ready_all (by decide), by decide, by decide, ready_of (by decide)⟩
/-- Conversions: FP32 to FP16, INT32 to INT8 in the last part, MXFP8 to FP32, and a pair that traps. -/
def sCvt (et dst imm blk : Nat) : State := on c1 { oV et with t := 3, fn := BitVec.ofNat 6 dst, imm := BitVec.ofNat 32 (imm + 256 * blk) } id
theorem witness_Vector_convert : (sCvt 6 7 1 0).Ready .vcvt ∧ (sCvt 4 33 3 0).Ready .vcvtSat ∧ (sCvt 16 6 0 3).Ready .vcvt ∧ (sCvt 0 6 0 0).Ready .vcvt ∧
    ¬((sCvt 6 7 1 0).op.et = 0 ∨ (sCvt 6 7 1 0).op.et = 15 ∨ 14 ≤ (sCvt 6 7 1 0).op.fn.toNat % 32) ∧ 16 ≤ (sCvt 16 6 0 3).op.et :=
  ⟨ready_of (by decide), ready_of (by decide), ready_of (by decide), ready_of (by decide), by decide, by decide⟩
/-- VectorBlocksAndTables: blocks of 8 and of 128 elements, MXFP8 and MXFP4 frames, an inactive element. -/
theorem witness_Vector_blocks : (sVi 6 1).Ready .vamax ∧ (sVi 6 5).Ready .vamax ∧ (∀ row ∈ [Instr.vscale, .vquant], (sVi 16 3).Ready row) ∧
    (∀ row ∈ [Instr.vscale, .vquant], (sVi 20 1).Ready row) ∧ (∀ row ∈ [Instr.vtbl, .venc], (sVi 15 3).Ready row) ∧
    (Claim.blockIn (sVi 16 3) 0 31).1 = true :=
  ⟨ready_of (by decide), ready_of (by decide), ready_all (by decide), ready_all (by decide), ready_all (by decide), by decide⟩

/-- VectorMemory: VLD, VST and the strided and indexed forms through a TCM pointer at 0x400; predicate p1 makes element 0 only active. -/
def sVm (et : Nat) (p : Word) : State := on c1 { oV et with pg := 1 } (fun s => (regs p 0 s).wp s.cur 1 1)
theorem witness_VectorMemory_ready : ∀ row ∈ [Instr.vld, .vst, .vldStr, .vstStr, .vgth, .vsct], (sVm 4 0x400).Ready row := ready_all (by decide)
theorem witness_VectorMemory : let s := sVm 4 0x400
    (∀ row ∈ [Instr.vld, .vst, .vldStr, .vstStr, .vgth, .vsct], s.op.et ∈ Claim.vmemEts row) ∧ fmtOk s.opA = true ∧ pFmt s.opA = 0 ∧ pSpc s.opA < 4 ∧
    (offAdd s.opA s.op.imm16.toInt).isSome = true ∧ Claim.vmemAdvance .vld s = 0 ∧
    (s.taken .vld).coreAddr c1 (Claim.vmemReq .vld false s 0) = .ok (flatTcm ⟨0, 0⟩ 0x400, s.taken .vld) ∧
    (s.taken .vst).coreAddr c1 (Claim.vmemReq .vst true s 0) = .ok (flatTcm ⟨0, 0⟩ 0x400, s.taken .vst) ∧ s.confOn c1 = false ∧
    (∀ u < 16, (0 < u → Claim.governs s 32 u = false)) ∧ Claim.governs s 32 0 = true ∧ s.memOk ∧ inBlocks (flatTcm ⟨0, 0⟩ 0x400) 4 = false :=
  ⟨by decide, by decide, by decide, by decide, by decide, by decide, rfl, rfl, by decide, by decide, by decide, rfl, by decide⟩
theorem witness_VectorMemory_format : fmtOk (ptr 22 0 0x400) = false ∧ (sVm 4 (ptr 22 0 0x400)).Ready .vld ∧
    ¬(pFmt (ptr 6 0 0x400) = 0 ∨ pFmt (ptr 6 0 0x400) = 4) := ⟨by decide, ready_of (by decide), by decide⟩
/-- Frames: one frame of MXFP8 with 32 elements, count in s3. -/
def sFrames : State := on c1 { oV 16 with s3 := 5 } (fun s => (regs (ptr 16 0 0x400 + BitVec.ofNat 64 (3 * 2 ^ 56)) 0 s).ws c1 5 1)
theorem witness_VectorMemory_frames : sFrames.Ready .vld ∧ sFrames.Ready .vst ∧ 16 ≤ sFrames.op.et ∧ pFmt sFrames.opA = sFrames.op.et ∧ pBlk sFrames.opA = 3 ∧
    fmtOk sFrames.opA = true ∧ (sFrames.rs c1 sFrames.op.s3).toNat = 1 ∧ 1 * frameBytes 16 3 ≤ 256 ∧ (sFrames.rp c1 0).getLsbD 0 = true ∧
    pSpc sFrames.opA < 4 ∧ (offAdd sFrames.opA sFrames.op.imm16.toInt).isSome = true ∧ sFrames.rs c1 sFrames.op.s2 = 0 ∧ sFrames.memOk ∧
    (sFrames.taken .vst).coreAddr c1 ⟨sFrames.opA, sFrames.op.imm16.toInt + 0, frameBytes 16 3, 1, .write, [0, 1, 2, 3, 5], true, true⟩ =
      .ok (flatTcm ⟨0, 0⟩ 0x400, sFrames.taken .vst) ∧ inBlocks (flatTcm ⟨0, 0⟩ 0x400) (frameBytes 16 3) = false :=
  ⟨ready_of (by decide), ready_of (by decide), by decide, by decide, by decide, by decide, by decide, by decide, by decide, by decide, by decide, by decide,
    rfl, rfl, by decide⟩

/-- The access of the one active element, through a pointer to the TCM that nothing stands against. -/
theorem witness_VectorMemory_tcm : let s := sVm 4 0x400
    (∀ row ∈ [Instr.vld, .vldStr, .vgth], Claim.InTcm s (Claim.vmemReq row false s 0).ofs 4 4 .read (flatTcm ⟨0, 0⟩ 0x400)) ∧
    (∀ row ∈ [Instr.vst, .vstStr, .vsct], Claim.InTcm s (Claim.vmemReq row true s 0).ofs 4 4 .write (flatTcm ⟨0, 0⟩ 0x400)) := by
  have h0 : ∀ row ∈ [Instr.vld, .vldStr, .vgth, .vst, .vstStr, .vsct], ∀ b, (Claim.vmemReq row b (sVm 4 0x400) 0).ofs = 0 := by decide +kernel
  refine ⟨fun row h => ?_, fun row h => ?_⟩ <;> simp only [h0 row (by revert h; revert row; decide)] <;>
    exact ⟨by decide, by decide, by decide, by decide, by decide, by decide, by decide, by decide, by decide, (fun m hm => (by cases hm)), by decide, by decide⟩

/-- A line of several instructions (R67 to R69). -/
def lineAll (l : List Inst) : List Byte :=
  let p : List (Half × List Half) := l.filterMap encode
  ([BitVec.ofNat 16 p.length] ++ p.map (fun x => x.1) ++ List.replicate (31 - p.length - (p.flatMap (fun x => x.2)).length) (0 : Half) ++
    p.reverse.flatMap (fun x => x.2)).flatMap halfBytes

/-- GangsAndSequencer: VSEQ over a body of one vector instruction in its own line; VSEQE on its last and on an earlier pass. -/
def sVseq : State := on c1 { oi 4 with d := 0 } (fun s => ctx' (fun k => { k with line := lineAll [⟨.vseq, { oi 4 with d := 0 }⟩, ⟨.vadd, oV 4⟩,
  ⟨.vseqe, { oi 2 with d := 0 }⟩, ⟨.nop, Fields.zero⟩] }) (regs 3 0 s))
set_option maxRecDepth 4000 in
theorem witness_Vseq : let k := sVseq.ctx c1
    sVseq.Ready .vseq ∧ Claim.target sVseq = some (k.pc + 6) ∧ headIndex k.pc + 3 < headCount k.line ∧ lineBase (k.pc + 4) = lineBase k.pc ∧
    (∃ i, decodeHead k.line 1 = .ok i ∧ usesScalar i 1 = false) ∧ ((headParts k.line 1).1.extractLsb' 6 7).toNat = 0x50 ∧
    ((headParts k.line 2).1.extractLsb' 6 7).toNat = 0x69 ∧
    (∃ j : Inst, decodeHead k.line 2 = .ok j ∧ j.row = .vseqe ∧ j.o.s1 = 1 ∧ Claim.moved (lineBase k.pc) (j.o.immS.toInt * 2) = some (k.pc + 2)) ∧
    okIs ((sVseq.taken .vseq).checkBody c1 (lineBase k.pc) k.line 1 (k.pc + 6) 40 0 (k.pc + 2) false (k.pc + 2) []) (fun _ => true) = true :=
  ⟨ready_of (by decide), by decide, by decide, by decide, ⟨⟨.vadd, oV 4⟩, rfl, by decide⟩, by decide, by decide,
    ⟨⟨.vseqe, { oi 2 with d := 0 }⟩, rfl, rfl, rfl, by decide⟩, by decide⟩
theorem witness_Vseqe : (on c1 { oi 4 with d := 0 } (regs 1 0)).Ready .vseqe ∧ (on c1 { oi 4 with d := 0 } (regs 2 0)).opA.toNat = 2 ∧
    Claim.target (on c1 { oi 4 with d := 0 } (regs 2 0)) = some 0x408 := ⟨ready_of (by decide), by decide, by decide⟩
/-- Gangs: rows ready, an allowed block whose helpers are free, one at the east edge that is not allowed, one whose follower is ready. -/
def sG (pos : Nat) : State := on ⟨⟨0, pos⟩, 1⟩ { Fields.zero with t := 1 } (fun s =>
  [pos, pos + 1, pos + 12, pos + 13].foldl (fun s p => s.modCore ⟨0, p⟩ (fun k => { k with launch := some placedLaunch })) (launched s))
theorem witness_Gangs : (∀ row ∈ [Instr.gang2, .gang4, .gang8, .ungang], (sG 0).Ready row) ∧ (sG 0).gangOk ⟨0, 0⟩ 0 = true ∧ (sG 11).gangOk ⟨0, 11⟩ 0 = false ∧
    ((sG 0).tile 0).draining = false ∧ (∀ m ∈ Claim.gangOf c1 2 1, m ≠ c1 → ((sG 0).ctx m).st = .free ∧ (sG 0).claimant m = none) ∧
    (((sG 0).modCtx c1' (fun k => { k with st := .ready })).ctx c1').st = .ready :=
  ⟨ready_all (by decide), by decide, by decide, by decide, by decide, by decide⟩
theorem witness_GangFormation : let s := ev { EvArgs.zero with ctx := c1 } ((sG 0).modCtx c1 (fun k => { k with st := .waiting (.gang 0) 0 }))
    (s.ctx c1).st = .waiting (.gang 0) 0 ∧ (s.ctx c1).gang = none ∧ decodeHead (s.ctx c1).line (headIndex (s.ctx c1).pc) = .ok ⟨.nop, Fields.zero⟩ ∧
    c1.core.pos + 15 < 192 ∧ (s.tile 0).draining = false ∧ (s.tile 0).stopped = false ∧
    (∀ m ∈ Claim.gangOf c1 2 1, m ≠ c1 → (s.ctx m).st = .free ∧ (s.claimant m).all (fun d => decide (0 ≤ d.core.pos)) = true) :=
  ⟨by decide, by decide, rfl, by decide, by decide, by decide, by decide⟩
theorem witness_Ungang : let s := sGang Fields.zero
    gang2.members.head? = some s.cur ∧ (∀ m ∈ gang2.members, m.ctx ≠ 0 ∧ s.gate m ⟨.ungang, s.op⟩ = none ∧ (s.ctx m).gdone = 0 ∧ (s.ctx m).act.task = none ∧
      s.predicatedOff m ⟨.ungang, s.op⟩ = false ∧ s.quiet m = true ∧ (s.core m.core).tandem = none) ∧ s.syncHeld s.op gang2.members = none := by
  refine ⟨by decide, by decide, by decide⟩
/-- A vector instruction that is run ahead, and one that the sequencer holds. -/
theorem witness_Sequencer : let s := { sV 4 with ahead := true }
    Claim.handed .vadd ∧ readyB s .vadd = true ∧ s.ahead = true ∧ (s.core ⟨0, 0⟩).tandem = none ∧ (s.core ⟨0, 0⟩).vseq.length < 16 :=
  ⟨by unfold Claim.handed; decide, by decide, by decide, by decide, by decide⟩
def seq (row : Instr) (o : Fields) : SeqEntry := { ctx := 1, inst := ⟨row, o⟩, pc := 0x402, entry := .inLine, line := lineOf 0x0b80 [], count := 0, mode := 0, info := [], held := none }
theorem witness_SequencerExecute : let s := ev { EvArgs.zero with ctx := c1 } (on c1 Fields.zero (core' (fun k => { k with vseq := [seq .vadd (oV 4)] })))
    (s.core ⟨0, 0⟩).vseq.find? (fun x => x.ctx == 1) = some (seq .vadd (oV 4)) ∧ 0x50 ≤ Instr.major .vadd ∧ Instr.major .vadd ≤ 0x67 ∧ s.mqOpen c1 = false ∧
    okIs (memberRun (vectorBody .vadd) .vadd (oV 4) [] (s.modCtx c1 (fun k => k.at_ (seq .vadd (oV 4)))) c1 (s.modCtx c1 (fun k => k.at_ (seq .vadd (oV 4)))))
      (fun x => decide ((x.2.core ⟨0, 0⟩).vseq = (s.core ⟨0, 0⟩).vseq)) = true :=
  ⟨by decide, by decide, by decide, by decide, by decide⟩

/-- MatrixUnit: the rows on operands at TCM offset 0x4000, with a row count of 16 and of 0, and a misaligned block. -/
def oM (et : Nat) : Fields := { Fields.zero with t := 2, s1 := 1, s2 := 2, d := 3, sz := BitVec.ofNat 2 (et / 8), md := BitVec.ofNat 3 (et % 8) }
def sM (et : Nat) (p g : Word) : State := on c1 { oM et with s2 := if g = 0 then 0 else 2 } (regs p g)
theorem witness_Mma : (sM 9 0x4000 0).Ready .mma ∧ (sM 16 0x4000 0).Ready .mmas ∧ (sM 8 0x4000 0).Ready .mgait ∧
    okIs ((Claim.env (sM 9 0x4000 0) .mma).matIssue ((sM 9 0x4000 0).taken .mma)) (fun x => decide (x.1.m = 16 ∧ x.1.base = flatTcm ⟨0, 0⟩ 0x4000) && !x.2.poisoned x.1.base 2048) = true ∧
    okIs ((Claim.env (sM 16 0x4000 0) .mmas).matIssue ((sM 16 0x4000 0).taken .mmas)) (fun x => decide (x.1.m ≠ 0)) = true ∧
    okIs ((Claim.env (sM 8 0x4000 0) .mgait).matIssue ((sM 8 0x4000 0).taken .mgait)) (fun x => decide (x.1.m ≠ 0)) = true ∧
    okIs ((Claim.env (sM 9 0x4000 0x2000) .mma).matIssue ((sM 9 0x4000 0x2000).taken .mma)) (fun x => decide (x.1.m = 0)) = true ∧
    errIs ((Claim.env (sM 9 0x4020 0) .mma).matIssue ((sM 9 0x4020 0).taken .mma)) (fun _ => true) = true :=
  ⟨ready_of (by decide), ready_of (by decide), ready_of (by decide), by decide, by decide, by decide, by decide, by decide⟩
def sL (et : Nat) (d : BitVec 5) (m : Nat) : State := on c1 { oV et with d := d, s3 := 5 } (fun s => ((regs 0x4000 0 s).ws c1 5 0x2000).store (flatTcm ⟨0, 0⟩ 0x2000) 8 m)
theorem witness_Mlat : (sL 0 1 1).Ready .mlat ∧ (sL 0 1 1).op.et = 0 ∧ okIs ((Claim.env (sL 0 1 1) .mlat).guardCount ((sL 0 1 1).taken .mlat) 5) (fun x => decide (x.1 = 1)) = true ∧
    pSpc (sL 0 1 1).opA < 4 ∧ (offAdd (sL 0 1 1).opA (sL 0 1 1).op.imm16.toInt).isSome = true ∧
    ((sL 0 1 1).taken .mlat).coreAddr c1 (Claim.move (sL 0 1 1) 0 128 64 .read false false) = .ok (flatTcm ⟨0, 0⟩ 0x4000, ((sL 0 1 1).taken .mlat)) :=
  ⟨ready_of (by decide), by decide, by decide, by decide, by decide, rfl⟩
def sA (et : Nat) : State := on c1 { oV et with s1 := 1, d := 7 } (regs 0x4000 0)
theorem witness_Macc : (on c1 { oV 0 with s1 := 0, d := 7 } id).Ready .maccZero ∧ (sA 6).Ready .maccLd ∧ (sA 6).Ready .maccSt ∧ (∀ row ∈ [Instr.maccCvt], (sA 7).Ready row) ∧
    (∀ row ∈ [Instr.maccCvt], (sA 10).Ready row) ∧ pSpc (sA 6).opA < 4 ∧ (sA 6).memOk ∧ inBlocks (flatTcm ⟨0, 0⟩ 0x4000) 1024 = false ∧
    ((sA 6).taken .maccSt).coreAddr c1 (Claim.move (sA 6) 0 1024 64 .write true true) = .ok (flatTcm ⟨0, 0⟩ 0x4000, (sA 6).taken .maccSt) ∧
    ((sA 6).taken .maccLd).coreAddr c1 (Claim.move (sA 6) 0 1024 64 .read true true) = .ok (flatTcm ⟨0, 0⟩ 0x4000, (sA 6).taken .maccLd) ∧
    ((sA 10).taken .maccCvt).coreAddr c1 (Claim.move (sA 10) 0 (256 * elemWidth (sA 10).op.et / 8) 64 .write true true) = .ok (flatTcm ⟨0, 0⟩ 0x4000, (sA 10).taken .maccCvt) :=
  ⟨ready_of (by decide), ready_of (by decide), ready_of (by decide), ready_all (by decide), ready_all (by decide), by decide, rfl, by decide, rfl, rfl, rfl⟩
def sGl : State := on c1 { oz with d := 3 } (regs 0x4000 0)
theorem witness_Gaitl : sGl.Ready .gaitl ∧ pSpc sGl.opA < 4 ∧
    (sGl.taken .gaitl).coreAddr c1 (Claim.move sGl 0 32 32 .read false true) = .ok (flatTcm ⟨0, 0⟩ 0x4000, sGl.taken .gaitl) := ⟨ready_of (by decide), by decide, rfl⟩
/-- The forms that complete on the TCM: a B block, one row of MLAT for every row of the latch, an accumulator's image. -/
theorem witness_Matrix_tcm : (∀ row ∈ [Instr.mma], (sM 9 0x4000 0).Ready row) ∧ (sM 9 0x4000 0).op.s2 = 0 ∧ pFmt (sM 9 0x4000 0).opA = 0 ∧
    pOff (sM 9 0x4000 0).opA % 64 = 0 ∧ pOff (sM 9 0x4000 0).opA + 2176 ≤ 2 ^ 17 ∧ (sM 9 0x4000 0).permitted 0 true 0 0x4000 2176 .read = true ∧
    (sM 9 0x4000 0).poisoned (flatTcm ⟨0, 0⟩ 0x4000) 2176 = false ∧ ((sM 9 0x4000 0).ctx c1).gbad = 0 :=
  ⟨ready_all (by decide), by decide, by decide, by decide, by decide, by decide, by decide, by decide⟩
theorem witness_Macc_tcm : Claim.InTcm (sA 6) (sA 6).op.imm16.toInt 1024 64 .write (flatTcm ⟨0, 0⟩ 0x4000) ∧
    Claim.InTcm (on c1 { oV 0 with s3 := 0 } (regs 0x4000 0)) 0 128 64 .read (flatTcm ⟨0, 0⟩ 0x4000) ∧ Claim.InTcm sGl 0 32 32 .read (flatTcm ⟨0, 0⟩ 0x4000) ∧
    (on c1 { oV 0 with d := 1, s3 := 0 } (regs 0x4000 0)).Ready .mlat ∧ (gaitOf (sGl.bytes (flatTcm ⟨0, 0⟩ 0x4000) 32)).isSome = true := by
  refine ⟨?_, ?_, ?_, ready_of (by decide), by decide⟩ <;>
    exact ⟨by decide, by decide, by decide, by decide, by decide, by decide, by decide, by decide, by decide, (fun m hm => (by cases hm)), by decide, by decide⟩
/-- A latch with an error that an instruction would read (R244). -/
theorem witness_latch : ((on c1 (oM 9) (ctx' (fun k => { k with gbad := 1 }))).ctx c1).gbad.getLsbD 0 = true := by decide
/-- The matrix queue: an MMA at the head of the sequencer, one issued, one whose operand read has ended, a consumed signal. -/
def qM : SeqEntry := seq .mma { oM 9 with s2 := 0 }
def sQ (mq : List MEntry) : State := ev { EvArgs.zero with core := ⟨0, 0⟩ } (on c1 Fields.zero (fun s =>
  core' (fun k => { k with vseq := [qM], mq := mq, consumed := [(1, 7, [])] }) (regs 0x4000 0 s)))
def mE (st : MStage) (r : Option Acc) : MEntry := ⟨qM, st, 16, flatTcm ⟨0, 0⟩ 0x4000, [], Gait.zero, [], [], r⟩
theorem witness_MatrixQueue : let s := sQ []
    let s1 := (s.modCtx c1 (fun k => k.at_ qM)).beginAccess c1 .mma qM.inst.o []
    (s.core ⟨0, 0⟩).vseq.find? (fun x => !isVector x.inst.row) = some qM ∧ (s.core ⟨0, 0⟩).vseq.find? (fun x => x.ctx == qM.ctx) = some qM ∧
    (s.core ⟨0, 0⟩).mq.length < 8 ∧ s1.predicatedOff c1 qM.inst = false ∧ okIs ((⟨c1, .mma, qM.inst.o, s1⟩ : Env).matIssue s1) (fun _ => true) = true :=
  ⟨rfl, rfl, by decide, by decide, by decide⟩
theorem witness_MatrixRead : let s := sQ [mE .issued none]
    let s1 := (s.modCtx c1 (fun k => k.at_ qM)).beginAccess c1 .mma qM.inst.o []
    (s.core ⟨0, 0⟩).mq = mE .issued none :: [] ∧ ∃ r, (⟨c1, .mma, qM.inst.o, s1⟩ : Env).matRead s1 ⟨16, flatTcm ⟨0, 0⟩ 0x4000, [], Gait.zero, []⟩ = .ok r :=
  ⟨rfl, _, rfl⟩
theorem witness_MatrixWrite : let m := mE .read (some (Vector.replicate 256 0))
    ((sQ [m]).core ⟨0, 0⟩).mq = m :: [] ∧ m.stage = .read ∧ m.res = some (Vector.replicate 256 0) ∧ m.q.inst.o.d.toNat < 8 := ⟨rfl, rfl, rfl, by decide⟩
theorem witness_Consumed : ((sQ []).core ⟨0, 0⟩).consumed.find? (fun y => y.2.2.all ((sQ []).readEnded ⟨⟨0, 0⟩, y.1⟩)) = some (1, 7, []) := rfl

/-! Messages, starting work, waits. -/

/-- SENDs to position 1 of tile 0 with a handler in space 0, to tile 8 of die 1, and to no tile that exists. -/
def oSend : Fields := { Fields.zero with t := 2, s1 := 4, s2 := 2, d := 3 }
def sSend (row : Nat) (dst : Word) (s3 : Word) : State :=
  on c1 (if row = 1 then { oSend with s3 := 5 } else if row = 2 then { oSend with s2 := 0 } else oSend) (fun s => ((regs 0 0x800 s).ws c1 3 dst).ws c1 5 s3)
theorem witness_SendUni : (sSend 0 (2 ^ 9) 0).Ready .sendUni ∧ (sSend 0 (2 ^ 9) 0).destOf ⟨0, 0⟩ (2 ^ 9) false = some (0, 1) ∧
    (handlerField ((sSend 0 (2 ^ 9) 0).rs c1 2)).isSome = true ∧ (sSend 0 (2 ^ 9) 0).op.imm.getLsbD 6 = false ∧
    ((sSend 0 (2 ^ 9) 0).ctx c1).isWithin = false ∧ ((sSend 0 8 0).ctx c1).posted = 0 ∧ (sSend 0 8 0).destOf ⟨0, 0⟩ 8 false = some (8, 0) ∧
    (sSend 0 (2 ^ 18) 0).destOf ⟨0, 0⟩ (2 ^ 18) false = none ∧ (sSend 0 511 0).destOf ⟨0, 0⟩ 511 false = some (511, 0) ∧
    handlerField (ptr 0 1 0) = none :=
  ⟨ready_of (by decide), by decide, by decide, by decide, by decide, by decide, by decide, by decide, by decide, by decide⟩
theorem witness_SendUni_buffers : Claim.buffers (on c1 oSend (ctx' (fun k => { k with act := { k.act with
    task := some ⟨0, [], 0, 0, 0, 0, 0, 0, 0, 64, []⟩ } }))) := ⟨by decide, by decide⟩
theorem witness_SendMulti : (sSend 1 0 3).Ready .sendMulti ∧ (sSend 1 0 3).destOf ⟨0, 0⟩ 0 true = some (0, 0) ∧ (handlerField ((sSend 1 0 3).rs c1 2)).isSome = true ∧
    (sSend 1 0 3).rs c1 5 ≠ 0 ∧ (∀ k < 64, ((sSend 1 0 3).rs c1 5).getLsbD k = true → 8 * 0 + k < 8 * (sSend 1 0 3).nDies) ∧
    ((sSend 1 0 3).ctx c1).posted = 0 ∧ (sSend 1 0 0).rs c1 (sSend 1 0 0).op.s3 = 0 :=
  ⟨ready_of (by decide), by decide, by decide, by decide, by decide, by decide, by decide⟩
theorem witness_SendReply : (sSend 2 (2 ^ 40 + 2 ^ 23) 0).Ready .sendReply ∧ (sSend 2 (2 ^ 40 + 2 ^ 23) 0).opD.getLsbD 40 = true ∧
    ¬(2 ^ 41 ≤ (2 ^ 40 + 2 ^ 23 : Nat) ∨ (2 ^ 40 + 2 ^ 23) % 8 ≠ 0 ∨ 8 * (sSend 2 0 0).nDies ≤ (2 ^ 40 + 2 ^ 23) / 2 ^ 31 % 2 ^ 9 ∨ 191 < (2 ^ 40 + 2 ^ 23) / 2 ^ 23 % 2 ^ 8) ∧
    (sSend 2 0 0).opD.getLsbD 40 = false ∧ (2 ^ 40 + 1) % 8 ≠ 0 := ⟨ready_of (by decide), by decide, by decide, by decide, by decide⟩

/-- A message of launch 64 for position 0 of tile 0, in a packet at its router; a reply; one that is being retried. -/
def aMsg (kind : Nat) (reply : BitVec 41) : Msg :=
  { hdr := 0x800, vt := 0, pos := 0, reply := reply, src := 0x11, mc := false, kind := kind, prio := 1, cls := 0, payload := List.replicate 48 1, dests := 0,
    launch := 64, hb := [] }
def aPk (m : Msg) (tries : Nat) (retry : Option Nat) : Packet := ⟨4, 0, 0, none, [], retry, 0, 4, .msg m tries (some 9)⟩
def sMsg (p : Packet) : State := ev { EvArgs.zero with k := 4 } { on c1 Fields.zero grant with net := [p] }
theorem witness_TaskArrival : Claim.arrived (sMsg (aPk (aMsg 0 0) 0 none)) (aPk (aMsg 0 0) 0 none) (aMsg 0 0) 0 (some 9) ∧
    (sMsg (aPk (aMsg 0 0) 0 none)).msgBehind 4 (aMsg 0 0) 0 = false ∧ (sMsg (aPk (aMsg 0 0) 0 none)).refusal (aMsg 0 0) ⟨0, 0⟩ = none ∧
    ((sMsg (aPk (aMsg 0 0) 0 none)).core ⟨0, 0⟩).runq.length < 32 ∧ ((sMsg (aPk (aMsg 0 0) 0 none)).tile 0).overflow.any (fun o => o.1 == 0) = false :=
  ⟨rfl, by decide, by decide, by decide, by decide⟩
theorem witness_TaskRefused : let s := { sMsg (aPk (aMsg 0 0) 7 none) with launches := [{ aLaunch with shares := [{ aShare with saved := [0] }] }] }
    s.refusal (aMsg 0 0) ⟨0, 0⟩ = some .inboxFull ∧ Claim.arrived s (aPk (aMsg 0 0) 7 none) (aMsg 0 0) 7 (some 9) := ⟨by decide, rfl⟩
theorem witness_MessageRetry : (sMsg (aPk (aMsg 0 0) 3 (some 0))).packet 4 = some (aPk (aMsg 0 0) 3 (some 0)) ∧ 0 ≤ (sMsg (aPk (aMsg 0 0) 3 (some 0))).edges ∧
    ¬1 ≤ (sMsg (aPk (aMsg 0 0) 3 (some 1))).edges := ⟨rfl, by decide, by decide⟩
def aSend (fail : Option (Nat × Nat)) : SendRec := ⟨4, c1, 0, false, false, 64, 0, 0, fail, false, 0, false⟩
theorem witness_DeliveryAnswer (f : Option (Nat × Nat)) : let s := ev { EvArgs.zero with k := 4 } { on c1 Fields.zero (ctx' (fun k => { k with
      st := .waiting (.answer 4) 0 })) with sends := [aSend f] }
    s.sends.find? (fun x => x.id == 4) = some (aSend f) ∧ (aSend f).left = 0 ∧ (aSend f).gone = false ∧ (aSend f).buffered = false ∧ (aSend f).late = false ∧
    (s.ctx c1).st = .waiting (.answer 4) 0 ∧ (s.ctx c1).gang = none ∧ decodeHead (s.ctx c1).line (headIndex (s.ctx c1).pc) = .ok ⟨.nop, Fields.zero⟩ :=
  ⟨rfl, rfl, rfl, rfl, rfl, rfl, rfl, nopLine⟩
/-- A reply to counter 5, without and with a slot at TCM offset 64. -/
theorem witness_Reply : let p := aPk (aMsg 1 (BitVec.ofNat 41 (5 * 2 ^ 15 + 2 ^ 14 + 8))) 0 none
    Claim.arrived (sMsg p) p (aMsg 1 (BitVec.ofNat 41 (5 * 2 ^ 15 + 2 ^ 14 + 8))) 0 (some 9) ∧ ((sMsg p).core ⟨0, 0⟩).launch.isSome = true ∧
    (BitVec.ofNat 41 (5 * 2 ^ 15 + 2 ^ 14 + 8)).getLsbD 14 = true ∧ (sMsg p).permitted 0 false 0 64 48 .write = true ∧ (sMsg p).memOk ∧
    (BitVec.ofNat 41 (5 * 2 ^ 15 + 8)).getLsbD 14 = false := ⟨rfl, by decide, by decide, by decide, rfl, by decide⟩

/-- WorkStarts: an old task, an urgent one, a deque entry, a task of low priority, nothing. -/
def aTask (prio passed seq : Nat) : Task := ⟨0x800, List.replicate 48 1, 0, 0x11, 0, prio, seq, passed, 0, 64, []⟩
def aEntry : DqEntry := ⟨0x800, 0x100, 0x200, 0x11, []⟩
def qCore (q : List Task) (d : List DqEntry) : Core := { Core.reset with launch := some placedLaunch, classEn := 0xffff, runq := q, deque := d }
theorem witness_NextWork : ((qCore [aTask 0 16 1, aTask 3 0 0] []).runq.filter (qCore [] []).eligible).filter (fun t => decide (16 ≤ t.passed)) ≠ [] ∧
    ((qCore [aTask 3 0 0] [aEntry]).runq.filter (fun t => t.prio == 3)) ≠ [] ∧ (qCore [aTask 2 15 0] [aEntry]).deque = aEntry :: [] ∧
    (qCore [aTask 2 15 0] []).deque = [] ∧ (qCore [] []).runq = [] := ⟨by decide, by decide, rfl, rfl, rfl⟩
def sWork (q : List Task) (d : List DqEntry) : State := ev { EvArgs.zero with core := ⟨0, 0⟩ } (on c0 Fields.zero (core' (fun _ => qCore q d)))
theorem witness_WorkStart : (sWork [aTask 1 0 0] []).mayStart ⟨0, 0⟩ = true ∧ (sWork [aTask 1 0 0] []).freeHelperOf ⟨0, 0⟩ = some 1 ∧
    ((sWork [aTask 1 0 0] []).core ⟨0, 0⟩).launch = some placedLaunch ∧ ((sWork [aTask 1 0 0] []).core ⟨0, 0⟩).nextWork = some (.task (aTask 1 0 0)) ∧
    ((sWork [aTask 1 0 0] [aEntry]).core ⟨0, 0⟩).nextWork = some (.entry aEntry) := ⟨by decide, by decide, by decide, rfl, rfl⟩
theorem witness_Steal : let s := (sWork [] []).modCore ⟨0, 1⟩ (fun _ => qCore [] [aEntry])
    s.maySteal ⟨0, 0⟩ = true ∧ s.freeHelperOf ⟨0, 0⟩ = some 1 ∧ s.stealFrom ⟨0, 0⟩ = some ⟨0, 1⟩ ∧ (s.core ⟨0, 1⟩).deque = [] ++ [aEntry] :=
  ⟨by decide, by decide, by decide, by decide⟩
theorem witness_Overflow : let s := (sWork [] []).modTile 0 (fun t => { t with overflow := [(0, aTask 1 0 0)] })
    (s.tile 0).overflow.find? (fun x => x.1 == 0) = some (0, aTask 1 0 0) ∧ (s.core ⟨0, 0⟩).runq.length < 32 ∧ (s.tile 0).stopped = false :=
  ⟨by decide, by decide, by decide⟩

/-- WaitsAreLimited: a wait for counter 3, within and past a limit of 10 edges; a SLEEP; a timed SLEEP; a launch whose cores all wait. -/
def sWait (w : Wait) (edges : Nat) : State := ev { EvArgs.zero with ctx := c1, k := 64 } { on c1 Fields.zero (fun s => core' (fun k => { k with waitLim := 10 })
  (ctx' (fun k => { k with st := .waiting w 0, sup := false }) s)) with edges := edges }
theorem witness_WaitLimit : ∀ w ∈ [Wait.counter 3 1, .sleep false], (w.limitVal).isSome = true ∧ (sWait w 11).waitOver c1 w = false ∧ (sWait w 11).busy c1 = false ∧ (sWait w 11).pushHeld c1 = none ∧
    ((sWait w 11).core ⟨0, 0⟩).tandem = none ∧ ((sWait w 11).ctx c1).gang = none ∧ (sWait w 10).edges - 0 ≤ 10 ∧ 10 < (sWait w 11).edges - 0 ∧
    ((sWait w 11).ctx c1).sup = false ∧ ((sWait w 11).ctx c1).upcallBit = false ∧ ((sWait w 11).ctx c1).st = .waiting w 0 := by decide
theorem witness_SleepTimeout : ((sWait (.timed 5 false) 5).ctx c1).st = .waiting (.timed 5 false) 0 ∧
    decodeHead ((sWait (.timed 5 false) 5).ctx c1).line (headIndex ((sWait (.timed 5 false) 5).ctx c1).pc) = .ok ⟨.nop, Fields.zero⟩ ∧ 5 ≤ 5 - 0 := ⟨rfl, rfl, by decide⟩
theorem witness_ContextWake : ((sWait (.sleep true) 5).ctx c1).st = .waiting (.sleep true) 0 ∧ ((sWait (.sleep true) 5).ctx c1).gang = none := ⟨rfl, rfl⟩
theorem witness_Hang : let s := ev { EvArgs.zero with k := 64 } { on c0 Fields.zero (ctx' (fun k => { k with st := .waiting (.counter 3 1) 0, sup := false })) with
      launches := [{ aLaunch with shares := [{ aShare with st := .drained, ranges := [], wave := none }], hangArmed := true }], edges := 2048 }
    ∃ l, s.launchById 64 = some l ∧ l.hangArmed = true ∧ s.allListed 64 = true ∧ s.canDeal l = false ∧ s.fabricIdle 64 = true ∧ 2048 ≤ s.edges - l.idleSince ∧
      (0 : Nat) ∈ s.coresOf 64 ∧ s.hangYields c0 = false ∧ s.isShadow ⟨0, 0⟩ = false ∧ (s.ctx c0).sup = false ∧ (s.ctx c0).upcallBit = false :=
  ⟨_, rfl, rfl, by decide, by decide, by decide, by decide, by decide, by decide, by decide, by decide, by decide⟩
/-! Engines, system registers, classes. -/

/-- CPY of 64 bytes from TCM 0x100 to TCM 0x200, one row; GTH of 64-byte units; a guard pointer with a bad format. -/
def oE : Fields := { Fields.zero with t := 2, s1 := 1, s2 := 2, d := 3 }
def sE (o : Fields) (a b d w : Word) : State := on c1 o (fun s => ((regs a b s).ws c1 3 d).ws c1 5 w)
def sCpy (g : BitVec 5) (w : Word) : State := sE { oE with s3 := g } 0x100 64 0x200 w
theorem witness_Cpy : (sCpy 0 0).Ready .cpy ∧ okIs ((Claim.env (sCpy 0 0) .cpy).guardWord ((sCpy 0 0).taken .cpy) 0 1) (fun x => x.1 == 1) = true ∧
    okIs ((Claim.env (sCpy 5 0x2000) .cpy).guardWord ((sCpy 5 0x2000).taken .cpy) 5 1) (fun x => x.1 == 0) = true ∧
    errIs ((Claim.env (sCpy 5 (ptr 6 0 0)) .cpy).guardWord ((sCpy 5 (ptr 6 0 0)).taken .cpy) 5 1) (fun _ => true) = true ∧ (sCpy 5 (ptr 6 0 0)).Ready .cpy ∧
    Claim.passes (sCpy 0 0) ((sCpy 0 0).taken .cpy) .cpy 0x200 64 0x200 ∧ Claim.passes (sCpy 0 0) ((sCpy 0 0).taken .cpy) .cpy 0x100 64 0x100 ∧
    ((sCpy 0 0).tile 0).copyQ.length < 16 ∧ ((sCpy 0 0).core ⟨0, 0⟩).sb.length < 16 :=
  ⟨ready_of (by decide), by decide, by decide, by decide, ready_of (by decide), ⟨rfl, rfl, rfl⟩, ⟨rfl, rfl, rfl⟩, by decide, by decide⟩
def sGth (latch : Bool) : State := sE (if latch then { oE with t := 3, d := 0, imm := 0x0a00 } else { oE with t := 3 }) 0x1000 0x100 0x4000 0
theorem witness_Gth : (sGth false).Ready .gth ∧ (sGth true).Ready .gthLatch ∧
    okIs ((Claim.env (sGth false) .gth).guardWord ((sGth false).taken .gth) 0 16) (fun x => x.1 == 16) = true ∧
    Claim.passes (sGth false) ((sGth false).taken .gth) .gth 0x1000 0 0x1000 ∧ Claim.passes (sGth false) ((sGth false).taken .gth) .gth 0x100 64 0x100 ∧
    Claim.passes (sGth false) ((sGth false).taken .gth) .gth 0x4000 (16 * 64) 0x4000 ∧ (pFmt 0x100 = 0 ∨ pFmt 0x100 = 4) ∧ pBlk 0x100 = 0 ∧ misaligned 0x100 4 = false ∧
    ((sGth false).tile 0).gatherQ.length < 16 :=
  ⟨ready_of (by decide), ready_of (by decide), by decide, ⟨rfl, rfl, rfl⟩, ⟨rfl, rfl, rfl⟩, ⟨rfl, rfl, rfl⟩, by decide, by decide, by decide, by decide⟩
/-- Collectives of one contributor: an INT32 sum of 4 elements, a join, a malformed word, a contributor past the count. -/
def wSum : Word := BitVec.ofNat 64 (2 ^ 8 + 4 * 2 ^ 22 + 4 * 2 ^ 38)
def wJoin : Word := 2 ^ 8
def sColl (w : Word) (who : Word) : State := sE { oE with s3 := 5 } 0x100 w 0x200 who
theorem witness_Coll : (∀ row ∈ [Instr.collReduce, .collRegister, .collBcast], (sColl wSum 0).Ready row) ∧
    (on c1 { oE with d := 0, s1 := 0, s3 := 5 } (regs 0 wJoin)).Ready .collJoin ∧
    collBad .reduce wSum = false ∧ collBad .bcast wSum = false ∧ collBad .join wJoin = false ∧ collBad .register (wSum + 2 ^ 62) = false ∧
    collBad .reduce 0 = true ∧ (0 : Word).toNat % 1024 < collN wSum ∧ collN wSum ≤ (1 : Word).toNat % 1024 ∧
    (Claim.env (sColl wSum 0) .collReduce).ptrFormat ((sColl wSum 0).taken .collReduce) 0x200 = .ok () ∧
    Claim.passes (sColl wSum 0) ((sColl wSum 0).taken .collReduce) .collReduce 0x200 16 0x200 ∧ Claim.passes (sColl wSum 0) ((sColl wSum 0).taken .collReduce) .collReduce 0x100 16 0x100 ∧
    ((sColl wSum 0).ctx c1).posted = 0 :=
  ⟨ready_all (by decide), ready_of (by decide), by decide, by decide, by decide, by decide, by decide, by decide, by decide, rfl, ⟨rfl, rfl, rfl⟩,
    ⟨rfl, rfl, rfl⟩, by decide⟩
theorem witness_Digest : (sE oE 0x100 64 0x200 0).Ready .collDigest ∧ Claim.passes (sE oE 0x100 64 0x200 0) ((sE oE 0x100 64 0x200 0).taken .collDigest) .collDigest 0x200 32 0x200 ∧
    Claim.passes (sE oE 0x100 64 0x200 0) ((sE oE 0x100 64 0x200 0).taken .collDigest) .collDigest 0x100 64 0x100 := ⟨ready_of (by decide), ⟨rfl, rfl, rfl⟩, ⟨rfl, rfl, rfl⟩⟩

/-- Operands in the core's own TCM (every form of command). -/
theorem witness_Commands_near : Claim.Near (sCpy 0 0).opD 64 ∧ Claim.Near (sCpy 0 0).opA 64 ∧ Claim.Near (sGth false).opA 0 ∧
    Claim.Near ((sGth false).rs c1 (sGth false).op.s2) 64 ∧ Claim.Near (sGth false).opD (16 * 64) ∧ Claim.Near (sColl wSum 0).opD 16 ∧
    Claim.Near (sColl wSum 0).opA 16 ∧ Claim.Near (sE oE 0x100 64 0x200 0).opD 32 := by
  simp only [Claim.Near]
  decide

/-- A command of c1; queued, retiring, and those of an episode. -/
def aCmd (kind : CmdKind) (dst src w : Word) (m : Nat) (fail : Option (Nat × Nat × Word)) : Cmd :=
  { id := 4, kind := kind, issuer := c1, vt := 0, launch := 64, sup := true, tag := 0, dst := dst, src := src, w := w, m := m, ctr := some 7, latch := 0,
    z := if kind = .latch then 1 else 0, who := 0, row := 0, token := none, fail := fail, hb := [], gone := false }
def sEng (f : Tile → Tile) (r : List Cmd) : State := ev { EvArgs.zero with k := 4 } { launched (on c1 Fields.zero (tile' f)) with retiring := r }
def cCopy : Cmd := aCmd .copy 0x200 0x100 64 1 none
theorem witness_CopyCommand : let s := sEng (fun t => { t with copyQ := [cCopy] }) []
    s.memOk ∧ (s.tile 0).stopped = false ∧ (s.tile 0).copyQ = cCopy :: [] ∧ cCopy.w.toNat % 2 ^ 24 ≠ 0 ∧ pSpc cCopy.src ≠ 5 ∧ pSpc cCopy.dst ≠ 5 ∧
    s.engRange ⟨0, 0⟩ true .read 1 0x100 0 64 = .ok ([(a100, 64)], s) ∧
    (s.engTouch [(a100, 64)]).engRange ⟨0, 0⟩ true .write 1 0x200 0 64 = .ok ([(flatTcm ⟨0, 0⟩ 0x200, 64)], s.engTouch [(a100, 64)]) ∧
    inBlocks (flatTcm ⟨0, 0⟩ 0x200) 64 = false := ⟨rfl, by decide, by decide, by decide, by decide, by decide, rfl, rfl, by decide⟩
/-- Commands that their inbox holds: a digest region, a contribution. -/
def cDigest : Cmd := { aCmd .digest 0x200 0x100 64 64 none with m := 64 }
theorem witness_Inboxes : let s := ev { EvArgs.zero with k := 4, flag := true } (sEng (fun t => { t with digestQ := [cDigest], collQ := [aCmd .join 0 0 wJoin 0 none] }) [])
    s.retiring.find? (fun x => x.id == 4) = none ∧ s.digestHead 4 = some (cDigest, []) ∧ (s.tile cDigest.vt).stopped = false ∧ s.ev.flag = true ∧
    (s.tile s.ev.vt).collQ = aCmd .join 0 0 wJoin 0 none :: [] := ⟨rfl, rfl, by decide, rfl, rfl⟩
def cGather (k : CmdKind) : Cmd := aCmd k (if k = .latch then 0 else 0x4000) 0x1000 0x100 1 none
theorem witness_GatherCommand : let s := sEng (fun t => { t with gatherQ := [cGather .gather] }) []
    s.memOk ∧ (s.tile 0).gatherQ = cGather .gather :: [] ∧ s.engRange ⟨0, 0⟩ true .read 4 0x100 0 4 = .ok ([(a100, 4)], s) ∧
    (s.engTouch [(a100, 4)]).engRange ⟨0, 0⟩ true .read 64 0x1000 (signedOf 32 (s.load a100 4) * 64) 64 =
      .ok ([(flatTcm ⟨0, 0⟩ 0x1000, 64)], s.engTouch [(a100, 4)]) ∧ (cGather .latch).z = 1 ∧ (cGather .latch).latch < 2 := ⟨rfl, by decide, rfl, rfl, rfl, by decide⟩
theorem witness_CommandRetire : let s := sEng id [cCopy]
    s.retiring.find? (fun x => x.id == 4) = some cCopy ∧ (s.tile cCopy.vt).stopped = false ∧ cCopy.token = none ∧ cCopy.gone = false ∧ cCopy.kind ≠ .digest ∧
    cCopy.fail = none ∧ (s.ctx c1).err = none ∧ s.launchById 64 = some aLaunch ∧ (aLaunch.digests.filter (fun d => d.vt == 0)).length < 8 ∧
    (s.ctx c1).err = none := ⟨by decide, by decide, rfl, rfl, by decide, rfl, by decide, rfl, by decide, by decide⟩
theorem witness_Episode (k : CmdKind) (w : Word) (h : (k = .join ∧ w = wJoin) ∨ (k = .reduce ∧ w = wSum) ∨ (k = .register ∧ w = wSum)) :
    let c : Cmd := { aCmd k 0 0x100 w 0 none with z := 0 }
    let s := ev { EvArgs.zero with k := 64, j := 0 } (sEng (fun t => { t with collHeld := [c] }) [])
    Claim.episode s [c] k w ∧ s.launchById 64 = some aLaunch ∧ aLaunch.sums = [] ∧ aLaunch.regs.length < 16 ∧
      [c].find? (fun c => c.who == collRoot w) = some c ∧ ∃ bs s1 l s2, s.readAll [c] [] = .ok bs s1 ∧ s1.destAll 16 (collRoot w) (collAll w) [c] = .ok l s2 := by
  rcases h with ⟨rfl, rfl⟩ | ⟨rfl, rfl⟩ | ⟨rfl, rfl⟩ <;>
    exact ⟨⟨by decide, by decide, by decide⟩, rfl, rfl, by decide, by decide, _, _, _, _, rfl, rfl⟩
theorem witness_Quadrille : ([1, 2, 3] : List Nat).length ≤ 512 ∧ ∀ x ∈ ([1, 2, 3] : List Nat), x < 2 ^ 32 := by decide

/-- SystemRegistersAndClasses: readable registers, a write that passes and one that does not, a write outside a launch, classes. -/
def sSys (n : Nat) (a : Word) : State := on c0 { Fields.zero with t := 2, s1 := 1, imm := BitVec.ofNat 32 n } (regs a 0)
theorem witness_Sys : (on c1 { Fields.zero with t := 2, d := 3, imm := 0x0c } id).Ready .sysCsrr ∧ (sSys 0x13 5).Ready .sysCsrw ∧
    (on c0 { Fields.zero with t := 2, s1 := 1, d := 3, imm := 0x13 } (regs 5 0)).Ready .sysCsrx ∧ (sSys 0x13 5).sysCheck c0 0x13 5 = none ∧
    ((sSys 0x19 1).sysCheck c0 0x19 1).isSome = true ∧ (sSys 0x14 0x8000000000000000).sysCheck c0 0x14 0x8000000000000000 = none :=
  ⟨ready_of (by decide), ready_of (by decide), ready_of (by decide), by decide, by decide, by decide⟩
theorem witness_RegisterWrite : let s := ev { EvArgs.zero with ctx := c0, k := 0x0f, w := 64 } State.reset
    (s.core ⟨0, 0⟩).launch = none ∧ (s.tile 0).draining = false ∧ (s.tile 0).stopped = false ∧ s.attest.dark = false ∧
    (∃ x, regAcc 0x0f = some x ∧ x ≠ .ro) ∧ s.sysCheck c0 0x0f 64 = none ∧ s.sysCheck c0 0x08 0 = none ∧ s.sysCheck c0 0x1d 1 = none ∧
    s.sysCheck c0 0x19 2 = none ∧ s.sysCheck c0 0x1a 1 = none :=
  ⟨by decide, by decide, by decide, by decide, ⟨_, rfl, by decide⟩, by decide, rfl, by decide, by decide, by decide⟩
theorem witness_Class : ∀ row ∈ [Instr.classMask, .classUnmask, .classTest], (on c1 { Fields.zero with t := 2, s1 := 1, d := 3 } (regs 5 0)).Ready row :=
  ready_all (by decide)

/-! Tandem pairs, shared stacks and leases. -/

/-- PairsStacksAndLeases: tandem.on where a pair may form and at a hidden partner; tandem.off outside a pair, with helpers, and in a pair. -/
def onOn (k : Ctx) : Ctx := { k with st := .waiting .tandem 0, pc := 0x402, line := lineOf 0x9f00 [0, 0], entry := .inLine }
def sTan (f : State → State) : State := on c0 { Fields.zero with t := 2, d := 3 } (fun s => launched (f s))
theorem witness_TandemOn : (sTan id).Ready .tandemOn ∧ (sTan id).livePos 0 (Claim.mateOf 0) = true ∧ inRect ((sTan id).launchRect ⟨0, 0⟩) (Claim.mateOf 0) = true ∧
    inRect ({ sTan id with launches := [{ aLaunch with desc := { aDesc with rect := 0 } }] }.launchRect ⟨0, 0⟩) (Claim.mateOf 0) = false :=
  ⟨ready_of (by decide), by decide, by decide, by decide⟩
def sPair : State := sTan (fun s =>
  ((core' (fun k => { k with tandem := some ⟨1, true⟩ }) s).modCore ⟨0, 1⟩ (fun k => { k with launch := some placedLaunch, tandem := some ⟨0, false⟩ })).modCtx
    ⟨⟨0, 1⟩, 0⟩ onOn)
theorem witness_TandemOff : (sTan id).Ready .tandemOff ∧ ((sTan id).core ⟨0, 0⟩).tandem = none ∧ sPair.Ready .tandemOff ∧
    (sPair.core ⟨0, 0⟩).tandem = some ⟨1, true⟩ ∧ sPair.noHelpers ⟨0, 0⟩ = true ∧ (sPair.ctx ⟨⟨0, 1⟩, 0⟩).st = .waiting .tandem 0 ∧
    (∃ i, decodeHead (sPair.ctx ⟨⟨0, 1⟩, 0⟩).line (headIndex (sPair.ctx ⟨⟨0, 1⟩, 0⟩).pc) = .ok i) ∧
    (sPair.modCtx c1 (fun k => { k with st := .ready })).noHelpers ⟨0, 0⟩ = false :=
  ⟨ready_of (by decide), by decide, ready_of (by decide), by decide, by decide, by decide, ⟨_, rfl⟩, by decide⟩
theorem witness_TandemFormation : let s := ev { EvArgs.zero with core := ⟨0, 0⟩ } (sTan (fun s =>
      ((s.modCtx c0 onOn).modCore ⟨0, 1⟩ (fun k => { k with launch := some placedLaunch })).modCtx ⟨⟨0, 1⟩, 0⟩ onOn))
    (s.core ⟨0, 0⟩).launchId = (s.core ⟨0, 1⟩).launchId ∧ s.atTandemOn ⟨0, 0⟩ = true ∧ s.atTandemOn ⟨0, 1⟩ = true ∧ (s.tile 0).stopped = false ∧
    (s.tile 0).draining = false ∧ (s.tile 0).halted = false ∧ (s.ctx c0).gang = none := ⟨by decide, by decide, by decide, by decide, by decide, by decide, by decide⟩
/-- A context of a pair at the end of an interval of 256 instructions, with an agreed point, for the first and the third time. -/
def aBase : Ctx := { Ctx.reset 1 with pc := 0x402, line := lineOf 0x0b80 [], entry := .inLine, st := .ready, act := { (Ctx.reset 1).act with within := false } }
def sFp (bad : Nat) : State := ev { EvArgs.zero with ctx := c1 } (on c1 Fields.zero (fun s =>
  core' (fun k => { k with tandem := some ⟨1, true⟩, fingers := [(1, ⟨0, 256, bad, some aBase, 0, 0, []⟩)] }) (ctx' (fun k => { k with st := .waiting .earlier 0 }) s)))
theorem witness_Fingerprint (n : Nat) (h : n = 1 ∨ n = 2) : ((sFp n).ctx c1).st = .waiting .earlier 0 ∧ ((sFp n).ctx c1).gang = none ∧
    (sFp n).standing c1 = some ⟨.nop, Fields.zero⟩ ∧ (sFp n).exchangeDue c1 .nop Fields.zero = true ∧ (((sFp n).core ⟨0, 0⟩).finger 1).base = some aBase ∧
    (((sFp n).core ⟨0, 0⟩).finger 1).bad = n ∧ (((sFp n).core ⟨0, 0⟩).finger 1).log = [] ∧ (sFp n).memOk ∧ aBase.act.within = false ∧ aBase.sup = false ∧
    aBase.upcallBit = false := by
  rcases h with rfl | rfl <;> exact ⟨by decide, by decide, rfl, by decide, rfl, rfl, rfl, rfl, rfl, rfl, by decide⟩
/-- own.give of stack 0 and of stack 2, of a stack already given; its hand-over after each step. -/
def sOwn (st : Word) : State := on c0 { Fields.zero with t := 2, s1 := 1, d := 3 } (regs st 0)
theorem witness_Own : (sOwn 0).Ready .ownGive ∧ (sOwn 0).Ready .ownQuery ∧ ((sOwn 0).info 0).mate = some 32 ∧ ((sOwn 0).stack 0 0).owner = 0 ∧
    ((sOwn 0).stack 0 0).flight = false ∧ 0 < ((sOwn 0).die 0).stackWords.length ∧ 0 < ((sOwn 0).die 32).stackWords.length ∧ ¬1 < (sOwn 1).opA.toNat ∧ 1 < (sOwn 2).opA.toNat :=
  ⟨ready_of (by decide), ready_of (by decide), by decide, by decide, by decide, by decide, by decide, by decide, by decide⟩
def aHand (n : Nat) : Hand := ⟨0, ⟨0, 0⟩, some 7, decide (1 ≤ n), decide (2 ≤ n), decide (3 ≤ n), decide (4 ≤ n)⟩
def sHand (n : Nat) : State := ev { EvArgs.zero with vd := 0, j := 0 } ({ on c0 Fields.zero (ctx' (fun k => { k with st := if n = 0 then .waiting (.close 0 0) 0 else .ready })) with
  pace := 100 }.modDie 0 (fun d => { d with hands := [aHand n] }))
theorem witness_Hand : (∀ n < 5, (sHand n).hand 0 0 = some (aHand n)) ∧ Claim.atClose (sHand 0) 0 0 = some c0 ∧ ((sHand 0).ctx c0).gang = none ∧
    (aHand 0).closed = false ∧ (aHand 1).closed = true ∧ (aHand 2).drained = true ∧ Claim.leasesOver (sHand 1) (aHand 1) ∧ (aHand 4).written = true ∧ (aHand 4).leased = true :=
  ⟨by decide, by decide, by decide, by decide, by decide, by decide, ⟨by decide, by decide⟩, by decide, by decide⟩
/-- lease.renew of no page, of 17 pages, of one page of die 1 with a lease; an entry of which less than an eighth of its lease is left. -/
def sLease (n : Word) : State := mapped 1 (on c1 oE (regs (ptr 0 5 0 + 0x400000000000) n))
theorem witness_Lease : (sLease 1).Ready .leaseRenew ∧ 16 < (17 : Word).toNat ∧ (0 : Word).toNat = 0 ∧
    okIs ((sLease 1).formEa ⟨(sLease 1).opA, 0, 65536, 1, .read, [5], false, false⟩) (fun p => decide (pSpc p = 5) && pDie p == 1 && !pPair p) = true ∧
    okIs ((sLease 1).absolute ⟨0, 0⟩ [5] (sLease 1).opA) (fun p => p == (sLease 1).opA) = true ∧ ((sLease 1).tile 0).uncertain = false ∧
    okIs (((sLease 1).taken .leaseRenew).renewAll 0 ((segsOf (sLease 1).opA 65536).map (fun y => y.1))) (fun _ => true) = true :=
  ⟨ready_of (by decide), by decide, by decide, by decide, by decide, by decide, by decide⟩
theorem witness_RenewPage : let s := sLease 1
    let p := s.opA
    ((s.receiver (s.home ⟨0, 0⟩ p) p).2.stack (pDie p) (pStack p)).flight = false ∧ ((s.receiver (s.home ⟨0, 0⟩ p) p).2.tile 8).uncertain = false ∧
    okIs ((s.receiver (s.home ⟨0, 0⟩ p) p).2.leafAt (s.home ⟨0, 0⟩ p) (pVa p)) (fun e => decide (pteLease e ≠ 0)) = true := ⟨by decide, by decide, by decide⟩
def aTrans : TransEntry := ⟨0, 0, 65536, 0x1000, 0x1000117f, 100⟩
theorem witness_EngineLease : let s := ev { EvArgs.zero with vt := 0, k := 0 } (mapped 0 (on c1 Fields.zero (tile' (fun t => { t with tcache := [aTrans] }))))
    (s.tile 0).tcache[0]? = some aTrans ∧ (s.tile 0).uncertain = false ∧ treeOf aTrans.base = none ∧ s.paceAt 0 ≤ aTrans.expiry ∧
    8 * (aTrans.expiry - s.paceAt 0) < 2 ^ pteLease aTrans.entry * 1000 ∧ okIs (s.leafAt 0 aTrans.base) (fun e => sameLeaf e aTrans.entry) = true :=
  ⟨by decide, by decide, by decide, by decide, by decide, by decide⟩

/-! Spur units. -/

/-- A configuration block at TCM 0x100: two neurons at region offset 0, period 1, fan-out table at pool address 0x8000 of the tile; a count of 0; a bad class. -/
def pool (off : Nat) : Word := ptr 0 1 off
def cfgBlock (count cls : Nat) : List Byte := natLe 4 0 ++ natLe 4 count ++ [0, BitVec.ofNat 8 cls, 0, 0] ++ natLe 4 5 ++ natLe 4 7 ++ natLe 4 0 ++ natLe 4 1 ++
  natLe 4 0 ++ natLe 8 (pool 0x8000).toNat ++ natLe 8 0 ++ natLe 4 0 ++ List.replicate 12 0
def sCfg (count cls plb1 : Nat) : State := (on c1 { oz with d := 3 } (fun s => tile' (fun t => { t with plb1 := plb1 }) (regs 0x100 0 s))).storeBytes a100 (cfgBlock count cls)
set_option maxRecDepth 4000 in
theorem witness_SpurCfg : (sCfg 2 3 16).Ready .spurCfg ∧ ((sCfg 2 3 16).tile 0).draining = false ∧
    ((sCfg 2 3 16).taken .spurCfg).coreAddr c1 ⟨(sCfg 2 3 16).opA, (sCfg 2 3 16).op.imm16.toInt, 64, 64, .read, [0, 1, 2, 3, 5], false, false⟩ = .ok (a100, ((sCfg 2 3 16).taken .spurCfg)) ∧
    Claim.BlockOk (sCfg 2 3 16) false a100 ∧ (sCfg 2 3 16).spurTable ⟨0, 0⟩ (pool 0x8000) ≠ none ∧
    Claim.blockItem (sCfg 2 3 16) a100 0 4 + 16 * Claim.blockItem (sCfg 2 3 16) a100 4 4 ≤ (16 - 0) * 65536 ∧ (0 - 0) * 65536 < 0 + 16 * 2 ∧
    Claim.blockItem (sCfg 2 16 16) a100 9 1 = 16 := by
  refine ⟨ready_of (by decide), by decide, rfl, ?_, by decide, by decide, by decide, by decide⟩
  unfold Claim.BlockOk
  refine ⟨by decide, by decide, by decide, by decide, by decide, by decide, by decide, by decide, by decide, by decide⟩
/-- A bank of two neurons with an open tick of 5, and its variants. -/
def aBank : Bank :=
  { base := 0, count := 2, cls := 3, fire := false, trapLate := true, refr := 5, thr := 0x40000000, reset := 0, period := 10, table := pool 0x8000, handler := 0,
    t0 := 5, p0 := 0, logical := false, gait := Gait.zero, core := ⟨0, 0⟩, issuer := c1, sup := true, launch := 64, h := 5, late := 0, dropped := 3, fires := 0,
    errors := 0, lastDrop := 1, seq := 0, queue := [], gen := 0, pend := none, token := none, tokFail := none }
def aEv (tick kind : Nat) : SpurEvent := ⟨tick, 0x8, 0, kind, 0, 1, 9⟩
def sBank (b : Bank) (o : Fields) (a w : Word) : State := on c1 o (fun s => tile' (fun t => { t with bank := some b, plb1 := 16 }) (regs a w s))
theorem witness_SpurPost : (on c1 { oE with d := 0 } (regs 0 (8 * 2 ^ 20))).Ready .spurPost ∧ ¬(4 < 8 * 2 ^ 20 / 2 ^ 29 % 8 ∨ 2 ^ 56 ≤ 8 * 2 ^ 20) ∧
    8 * (on c1 oE id).nDies ≤ 512 ∧ ¬8 * (on c1 oE id).nDies ≤ 511 ∧ ((on c1 oE id).ctx c1).isWithin = false ∧ 4 < 5 * 2 ^ 29 / 2 ^ 29 % 8 :=
  ⟨ready_of (by decide), by decide, by decide, by decide, by decide, by decide⟩
theorem witness_SpurTickReadDrain : (∀ row ∈ [Instr.spurTick, .spurRead], (sBank aBank { oz with d := 3 } 7 0).Ready row) ∧
    (sBank aBank { Fields.zero with t := 2, d := 3 } 0 0).Ready .spurDrain ∧ ((sPtr 0).tile 0).bank = none ∧
    ((sBank { aBank with logical := true } oz 9 0).tile 0).bank = some { aBank with logical := true } ∧
    { aBank with logical := true }.h < (9 : Word).toNat % 2 ^ 32 ∧ ({ aBank with logical := true }).queue = [] ∧ ¬7 < (7 : Word).toNat ∧ 7 < (8 : Word).toNat :=
  ⟨ready_all (by decide), ready_of (by decide), by decide, by decide, by decide, rfl, by decide, by decide⟩
def ePk (e : SpurEvent) (tries : Nat) (unit : Option (Nat × Nat)) (retry : Option Nat) : Packet := ⟨4, 0, 0, none, [], retry, 3, 4, .spur e tries unit none 64⟩
def sEv (b : Bank) (p : Packet) : State := ev { EvArgs.zero with k := 4, vt := 0 } { sBank b Fields.zero 0 0 with net := [p] }
theorem witness_SpurArrival : (sEv aBank (ePk (aEv 4 0) 7 none none)).packet 4 = some (ePk (aEv 4 0) 7 none none) ∧
    (sEv aBank (ePk (aEv 4 0) 7 none none)).landed (ePk (aEv 4 0) 7 none none) = true ∧ ((sEv aBank (ePk (aEv 4 0) 7 none none)).tile 0).bank = some aBank ∧
    (aEv 4 0).neuron < aBank.count ∧ aBank.queue.length < 8192 ∧ aBank.count ≤ 2 ∧ (aEv 4 0).tick < aBank.h ∧
    (sEv aBank (ePk (aEv 4 0) 8 (some (0, 0)) (some 0))).packet 4 = some (ePk (aEv 4 0) 8 (some (0, 0)) (some 0)) :=
  ⟨rfl, by decide, by decide, by decide, by decide, by decide, by decide, rfl⟩
theorem witness_SpurApply : (sBank aBank oz 0 0).memOk ∧ Claim.inPool (sBank aBank oz 0 0) 0 aBank ∧ (aEv 5 0).neuron < aBank.count ∧ (5 : Nat) < 2 ^ 32 ∧
    (∀ k ∈ [0, 1, 2, 4], (aEv 5 k).kind ∈ [0, 1, 2, 4]) ∧ (aEv 5 0).vt ≠ 1 ∧ (aEv 5 0).vt < 8 * (sBank aBank oz 0 0).nDies ∧ (sBank aBank oz 0 0).outgoing 0 < 1024 :=
  ⟨rfl, ⟨by decide, by decide, by decide, by decide⟩, by decide, by decide, by decide, by decide, by decide, by decide⟩
/-- A pace tick is due at pace 10; one event on it; a stopped close with no record left. -/
theorem witness_PaceTick : let s := { sEv { aBank with queue := [aEv 5 1] } (ePk (aEv 4 0) 0 none none) with pace := 10 }
    (s.tile 0).bank = some { aBank with queue := [aEv 5 1] } ∧ (s.tile 0).uncertain = false ∧ (s.tile 0).stopped = false ∧
    aBank.p0 + ((aBank.h + 2 ^ 32 - aBank.t0) % 2 ^ 32 + 1) * aBank.period ≤ s.paceAt 0 ∧ (aEv 5 1).tick = aBank.h ∧ (aEv 5 1).kind = 1 ∧ s.memOk ∧
    Claim.idleTick aBank ∧ (sEv aBank (ePk (aEv 4 0) 0 none none)).paceAt 0 < 10 :=
  ⟨by decide, by decide, by decide, by decide, by decide, by decide, rfl, (by intro e h; cases h), by decide⟩
theorem witness_CloseResume : let b := { aBank with pend := some ⟨1, 5, 0, 0, 0, false⟩ }
    ((sEv b (ePk (aEv 4 0) 0 none none)).tile 0).bank = some b ∧ b.pend = some ⟨1, 5, 0, 0, 0, false⟩ ∧ b.token = none ∧ Claim.idleTick b :=
  ⟨by decide, rfl, rfl, (by intro e h; cases h)⟩

/-- A full outgoing buffer: 1,024 events of the bank are on their way. -/
theorem witness_SpurFull : let s := { sBank { aBank with logical := true } { oz with d := 3 } 9 0 with net := List.replicate 1024 (ePk (aEv 4 0) 0 (some (0, 0)) none) }
    1024 ≤ s.outgoing 0 ∧ (s.tile 0).bank = some { aBank with logical := true } := ⟨by decide +kernel, rfl⟩
/-! Launches, pre-emption, pager cores. -/

/-- A descriptor in TCM 0x400 whose fields are all zero but some: DEP, HELPERS, DETMODE, PLB bounds; a valid one. -/
def descBytes (dep helpers det plb1 : Nat) : List Byte :=
  natLe 8 (5 * 2 ^ 53 + 2) ++ natLe 8 0 ++ natLe 8 0 ++ natLe 8 1 ++ natLe 4 0 ++ natLe 4 0 ++ natLe 4 0 ++ natLe 2 0 ++ natLe 2 0 ++ natLe 1 1 ++ natLe 1 helpers ++ natLe 1 0 ++
  natLe 1 det ++ natLe 2 4 ++ natLe 2 0 ++ natLe 4 0 ++ natLe 4 0 ++ natLe 2 0 ++ natLe 2 plb1 ++ natLe 2 760 ++ natLe 2 dep ++ List.replicate 56 0
def sLaunch (f : State → State) : State := on c0 { oz with d := 3 } (fun s => regs 0x400 0 (f s))
set_option maxRecDepth 4000 in
theorem witness_Launch_bad : (sLaunch id).Ready .launch ∧ descBad (List.replicate 128 1) (descOf (List.replicate 128 1)) (sLaunch id).nDies = true ∧
    okIs (((sLaunch id).taken .launch).loadBytes c0 ⟨0x400, 0, 128, 64, .read, [0, 1, 2, 3, 5], false, true⟩) (fun x => x.1.length == 128) = true ∧
    (descBytes 0 1 0 0).length = 128 := ⟨ready_of (by decide), by decide, by decide, by decide⟩
theorem witness_Launch_checks : descBad (descBytes 0 1 0 0) (descOf (descBytes 0 1 0 0)) 64 = false ∧ (descOf (descBytes 0 11 0 0)).helpers = 11 ∧
    (descOf (descBytes 0 1 1 0)).detmode % 2 = 1 ∧ (descOf (descBytes 0 1 0 761)).plb2 < (descOf (descBytes 0 1 0 761)).plb1 ∧ (descOf (descBytes 3 1 0 0)).dep = 3 := by decide
theorem witness_Launch_valid : okIs ((sLaunch id).validate 0 true (descBytes 0 1 0 0)) (fun x => x.1.dep == 0) = true := by decide
theorem witness_LaunchSteal : (on c0 { Fields.zero with t := 2, s1 := 1 } (regs 63 0)).Ready .launchSteal ∧ (63 : Word).toNat % 64 = 63 := ⟨ready_of (by decide), by decide⟩
theorem witness_Shares : 0 < ([3, 5, 1] : List Nat).sum := by decide

/-- A launch on position 0 of tile 0, before its entry; after a unit has left; with a share of die 1 to steal from; ended. -/
def dSmall : Desc := { aDesc with rect := 0, vec := false, plb1 := 0, plb2 := 760, groups := 4, dies := 3, unit := 0 }
def hShare (vd lo hi : Nat) (e : List Nat) : Share := { aShare with vd := vd, ranges := if lo < hi then [(lo, hi - lo)] else [], size := hi - lo, weight := 1, wave := if e = [] then none else some 0, entered := e }
def lSmall (hs : List Share) : Launch := { aLaunch with desc := dSmall, shares := hs }
def sL' (l : Launch) : State := ev { EvArgs.zero with k := 64, vd := 0, vt := 0, j := 0 } { State.reset with launches := [l] }
theorem witness_LaunchEntry : let l := lSmall [{ hShare 0 0 4 [] with st := .entering }]
    (sL' l).launchById 64 = some l ∧ l.share 0 = some { hShare 0 0 4 [] with st := .entering } ∧ (sL' l).ev.nums = [] ∧ l.failed = [] ∧
    Claim.Enters (sL' l) (sL' l) l { hShare 0 0 4 [] with st := .entering } 0 :=
  ⟨rfl, rfl, rfl, rfl, rfl, by decide, by decide, by decide, by decide, by decide, by decide, by decide, by decide, sL' (lSmall [{ hShare 0 0 4 [] with st := .entering }]), rfl, rfl⟩
theorem witness_CoreLeave : let s := ev { EvArgs.zero with core := ⟨0, 0⟩ } (on c0 Fields.zero (ctx' (fun k => { k with st := .waiting .exit 0 })))
    (s.ctx c0).st = .waiting .exit 0 ∧ s.standing c0 = some ⟨.nop, Fields.zero⟩ ∧ s.mayLeave ⟨0, 0⟩ = true ∧ s.coreStopped ⟨0, 0⟩ = false ∧ s.preempting ⟨0, 0⟩ = false ∧
    (s.core ⟨0, 0⟩).tandem = none := ⟨by decide, rfl, by decide, by decide, by decide, by decide⟩
theorem witness_UnitRefill : let h := hShare 0 1 4 [0]
    let l := lSmall [h]
    (sL' l).launchById 64 = some l ∧ l.share 0 = some h ∧ ((sL' l).dieUnits dSmall 0).find? (fun u => u.1 == 0 && u.2.head? == some 0) = some (0, [0]) ∧ 0 ∈ h.entered ∧
    0 ∉ h.saved ∧ (sL' l).tileOpen 0 = true ∧ (sL' l).allOutside 0 [0] = true ∧ (sL' l).controlled 0 64 0 = false ∧ (sL' l).controlled 2 64 0 = false ∧
    (sL' l).takeBounds l 0 = some (sL' l) ∧ (sL' l).reserveBacking l 0 = some (sL' l) ∧ h.ranges = (1, 3) :: [] ∧ 0 < 3 :=
  ⟨rfl, rfl, by decide, by decide, by decide, by decide, by decide, by decide, by decide, rfl, rfl, rfl, by decide⟩
theorem witness_StealRequest : let h := { hShare 0 4 4 [0] with st := .stealing }
    let l := lSmall [h, hShare 1 1 4 []]
    (sL' l).launchById 64 = some l ∧ l.share 0 = some h ∧ l.ended = false ∧ h.st = .stealing ∧ h.asking = none ∧ h.held = 0 ∧
    (sL' l).unitOut l h = true ∧ l.victimFor h ((sL' l).die 0).stealFirst = some 1 ∧ l.share 1 = some (hShare 1 1 4 []) ∧
    l.victimFor { h with tried := [1] } none = none ∧ 1 ∈ l.shares.map (fun x => x.vd) ∧ 1 ∉ h.tried :=
  ⟨rfl, rfl, rfl, rfl, rfl, by decide, by decide, by decide, rfl, by decide, by decide, by decide⟩
theorem witness_StealAnswer : let s := { sL' (lSmall [hShare 0 4 4 [0]]) with answers := [⟨64, 0, 1, [(2, 2)]⟩] }
    Claim.shareIn s 64 0 (hShare 0 4 4 [0]) ∧ s.answers.find? (fun a => a.launch == 64 && a.thief == 0) = some ⟨64, 0, 1, [(2, 2)]⟩ := ⟨⟨_, rfl, rfl⟩, by decide⟩
theorem witness_LaunchEnd : (sL' (lSmall [hShare 0 4 4 [0]])).mayEnd (lSmall [hShare 0 4 4 [0]]) = true ∧ (sL' (lSmall [hShare 0 3 4 [0]])).mayEnd (lSmall [hShare 0 3 4 [0]]) = false ∧
    (lSmall []).sums = [] ∧ (lSmall []).digests = [] ∧ (lSmall []).desc.reply = 0 := ⟨by decide, by decide, rfl, rfl, by decide⟩
theorem witness_GraphDecrement : let l := { lSmall [] with ended := true, succ := [0x1005] }
    (sL' l).launchById 64 = some l ∧ l.ended = true ∧ l.succ = 0x1005 :: [] := ⟨rfl, rfl, rfl⟩

/-- A control operation on the launch; a tile to save without cores of the launch; a saved tile. -/
def aCtl (op : Nat) (begun : Bool) : Control := ⟨op, 64, [0], [0], rptr 0 0x10000, 0, begun, 0⟩
def sC (c : Control) (hs : List Share) : State := { sL' (lSmall hs) with controls := [c] }
theorem witness_Preempt : (sC (aCtl 0 false) []).controls.find? (fun c => c.op == 0 && c.target == 64 && !c.begun) = some (aCtl 0 false) ∧
    (sC (aCtl 0 true) [hShare 0 0 4 [0]]).control 0 64 0 = some (aCtl 0 true) ∧ (lSmall [hShare 0 0 4 [0]]).share 0 = some (hShare 0 0 4 [0]) ∧ 0 ∈ dSmall.tiles 0 ∧
    (sC (aCtl 0 true) []).saveReady 0 [] = true ∧ ((sC (aCtl 0 true) []).reportFirst []).isNone = true ∧ ((sC (aCtl 0 true) []).tile 0).overflow = [] ∧
    (sC (aCtl 0 true) []).coresOn 64 0 = [] := ⟨by decide, by decide, by decide, by decide, by decide, by decide, by decide, by decide⟩
set_option maxRecDepth 4000 in
theorem witness_Preempt_pieces : ((sC (aCtl 0 true) []).writePieces 0 (rptr 0 0x10000) [(tileRec 0, natLe 4 64 ++ natLe 2 0 ++ List.replicate 58 0)]).isSome = true := by decide
theorem witness_Images : (aTask 1 0 0).payload.length = 48 ∧ (aTask 1 0 0).reply.toNat < 2 ^ 41 ∧ (aTask 1 0 0).src < 2 ^ 21 ∧ (aTask 1 0 0).cls < 16 ∧ (aTask 1 0 0).prio < 4 ∧
    (handlerField (aTask 1 0 0).handler).isSome = true ∧ (Ctx.reset 1).cls < 16 ∧ (Ctx.reset 1).prio < 4 := by decide
theorem witness_Resume : let h := { hShare 0 0 4 [0] with saved := [0] }
    (sC (aCtl 1 true) [h]).control 1 64 0 = some (aCtl 1 true) ∧ (lSmall [h]).share 0 = some h ∧ 0 ∈ h.saved ∧ (sC (aCtl 1 true) [h]).tileOpen 0 = true ∧
    (sC (aCtl 1 true) [h]).allOutside 0 ((sC (aCtl 1 true) [h]).rectLive 0 0) = true ∧ (lSmall [h]).parked = [] ∧
    (((sC (aCtl 1 true) [h]).restoreCores (lSmall [h]) 0 (rptr 0 0x10000) 0 []).bind (fun s => s.restoreOverflow (lSmall [h]) 0 (rptr 0 0x10000) 0)).isSome = true :=
  ⟨by decide, by decide, by decide, by decide, by decide, rfl, by decide⟩
theorem witness_Cancel : (sC (aCtl 2 false) [hShare 0 0 4 [0]]).controls.find? (fun c => c.op == 2 && c.target == 64) = some (aCtl 2 false) ∧
    (lSmall [hShare 0 0 4 [0]]).ended = false ∧ (0 : Nat) ∈ (aCtl 2 false).tiles := ⟨by decide, rfl, by decide⟩
/-- A posted fault at entry 0 of die 0, of the lowest address of space 5. -/
def sFault : State := ev { EvArgs.zero with vd := 0, k := 0 } (State.reset.storeBytes (faultSlot 0 0) (natLe 8 (ptr 0 5 0).toNat ++ natLe 4 0 ++ natLe 4 0 ++ [0, 1] ++ natLe 2 64 ++ natLe 4 0 ++ natLe 8 0))
theorem witness_Pager : sFault.memOk ∧ sFault.postedFault 0 0 = true ∧ sFault.entryField 0 0 0 8 = (ptr 0 5 0).toNat ∧
    (pSpc (ptr 0 5 0) == 5 && pPair (ptr 0 5 0) && (sFault.stack 0 (pStack (ptr 0 5 0))).flight) = false := ⟨rfl, by decide, by decide, by decide⟩

/-- The other steps: a launch whose decrements are sent, a fault in service and one served, an instruction handed over, a parked sleeper. -/
def sService (st : Nat) : State := sFault.storeBytes (faultSlot 0 0 + 17) (natLe 1 st)
set_option maxRecDepth 4000 in
theorem witness_Pager_steps : (sService 2).memOk ∧ (sService 2).entryField 0 0 16 1 = 0 ∧ (sService 2).entryField 0 0 17 1 = 2 ∧
    Claim.handing (sService 2) 0 0 = false ∧ (sService 2).physReach 0 0x10000 = true ∧ (sService 3).entryField 0 0 16 1 = 0 ∧ (sService 3).entryField 0 0 17 1 = 3 ∧
    sFault.pagerNext 0 0 = true := ⟨rfl, by decide, by decide, by decide, by decide, by decide, by decide, by decide⟩
theorem witness_Pager_handing : Claim.handing (((sService 2).storeBytes (faultSlot 0 0) (natLe 8 (ptr 0 5 (2 ^ 45)).toNat)).modStack 0 0 (fun w => { w with flight := true })) 0 0 = true := by decide
theorem witness_LaunchClose : let l := { lSmall [] with ended := true, stage := 1, desc := { dSmall with reply := 2 ^ 40 } }
    (sL' l).launchById 64 = some l ∧ l.ended = true ∧ l.stage = 1 ∧ l.succ = [] ∧ l.digestFail = 0 ∧ l.settleFail = 0 ∧
    l.desc.reply.toNat / 2 ^ 31 % 2 ^ 9 < 8 * (sL' l).nDies := ⟨rfl, rfl, rfl, rfl, rfl, rfl, by decide⟩
theorem witness_Unhand : (on c1 Fields.zero (core' (fun k => { k with vseq := [seq .vadd (oV 4)] }))).pendingSeq c1 = seq .vadd (oV 4) :: [] ∧
    (on c1 Fields.zero id).pendingSeq c1 = [] ∧ (∀ k since, ((on c1 Fields.zero id).ctx c1).st ≠ .waiting (.gang k) since) ∧
    ((on c1 Fields.zero id).ctx c1).gdone = 0 := ⟨rfl, rfl, (by intro k n h; cases h), rfl⟩

/-! The Farrier. -/

/-- Die 0 with a rotation of slot 0 from site 0 to site 8 at STATE n; without a rotation at STATE n. -/
def sRot (n : Nat) (f : State → State) : State := f (((ev EvArgs.zero State.reset).modDie 0 (fun d => { d with rot := some ⟨0, 0, 8, 0⟩ })).setStatus 0 0 4 n)
def sFar (f : State → State) : State := f (ev EvArgs.zero State.reset)
theorem witness_Victim : State.reset.victim 0 = some 0 ∧ (State.reset.die 0).first = none ∧
    ∀ k ∈ State.reset.serving 0, State.reset.siteWear 0 k ≤ State.reset.farrier 0 3 := by decide
theorem witness_Arm : let s := sFar (fun s => { s with ev := { s.ev with flag := true } })
    s.paceAt 0 / 937500000 % 64 = 0 ∧ (s.die 0).armed ≤ s.paceAt 0 / 60000000000 ∧ s.memOk ∧ s.mayRotate 0 = true ∧ s.victim 0 = some 0 ∧ s.ev.flag = true ∧
    (s.tile 0).uncertain = false := ⟨by decide, by decide, rfl, by decide, by decide, rfl, by decide⟩
theorem witness_Arm_not : (State.reset.paceAt 8) / 937500000 % 64 ≠ 1 ∧ (sRot 1 id).mayRotate 0 = false := by decide
theorem witness_Drain : Claim.Rotates (sRot 1 id) ⟨0, 0, 8, 0⟩ 1 ∧ ((sRot 1 id).tile 0).stopped = false ∧ (sRot 1 id).tileCores 0 = [] ∧
    (sRot 1 id).paceAt 0 < 30000 ∧ 30000 ≤ (sRot 1 (fun s => { s with pace := 30000 })).paceAt 0 ∧ Claim.Rotates (sRot 1 (fun s => { s with pace := 30000 })) ⟨0, 0, 8, 0⟩ 1 ∧
    ((sRot 1 (fun s => { s with pace := 30000 })).tile 0).stopped = false :=
  ⟨⟨rfl, by decide, rfl, by decide, by decide, by decide, by decide, by decide⟩, by decide, by decide, by decide, by decide,
    ⟨rfl, by decide, rfl, by decide, by decide, by decide, by decide, by decide⟩, by decide⟩
theorem witness_Drain_core : let s := sRot 1 (fun s => s.modCore ⟨0, 0⟩ (fun k => { k with launch := some placedLaunch }))
    s.tileCores 0 = [⟨0, 0⟩] ∧ (s.core ⟨0, 0⟩).bar.release = false ∧ ∀ i ≤ 10, s.drainable ⟨⟨0, 0⟩, i⟩ = true := by decide
theorem witness_NewMap : let s := sRot 1 (fun s => s.modTile 0 (fun t => { t with stopped := true }))
    Claim.Rotates s ⟨0, 0, 8, 0⟩ 1 ∧ (s.tile 0).stopped = true ∧ 0 < (s.die 0).bridle.length :=
  ⟨⟨rfl, by decide, rfl, by decide, by decide, by decide, by decide, by decide⟩, by decide, by decide⟩
theorem witness_Copy : Claim.Rotates (sRot 3 id) ⟨0, 0, 8, 0⟩ 3 ∧ (sRot 3 id).onWay 0 0 = false ∧
    (sRot 3 (fun s => { s with net := [⟨1, 8, 0, some 0, [], none, 0, 1, .spur ⟨0, 0, 0, 0, 0, 0, 0⟩ 0 none none 0⟩] })).onWay 0 0 = true :=
  ⟨⟨rfl, by decide, rfl, by decide, by decide, by decide, by decide, by decide⟩, by decide, by decide⟩
theorem witness_Resumes : Claim.Rotates (sRot 4 id) ⟨0, 0, 8, 0⟩ 4 ∧ Claim.Rotates (sRot 5 id) ⟨0, 0, 8, 0⟩ 5 ∧
    0 < ((sRot 5 id).die 0).bridle.length ∧ Claim.Rotates (sRot 6 id) ⟨0, 0, 8, 0⟩ 6 ∧ Claim.Rotates (sRot 2 id) ⟨0, 0, 8, 0⟩ 2 :=
  ⟨⟨rfl, by decide, rfl, by decide, by decide, by decide, by decide, by decide⟩, ⟨rfl, by decide, rfl, by decide, by decide, by decide, by decide, by decide⟩,
    by decide, ⟨rfl, by decide, rfl, by decide, by decide, by decide, by decide, by decide⟩, ⟨rfl, by decide, rfl, by decide, by decide, by decide, by decide, by decide⟩⟩
theorem witness_Test : let s := sRot 0 (fun s => s.setSite 0 0 0 3 2)
    s.memOk ∧ (s.die 0).rot = some ⟨0, 0, 8, 0⟩ ∧ s.sst 0 0 = 2 ∧ s.worn 0 0 = false ∧ s.ev.nums = [] ∧ Claim.enough s 0 :=
  ⟨rfl, rfl, by decide, by decide, rfl, by unfold Claim.enough; decide⟩
/-- MAINT of site 0 of die 0 asked for where no spare is left, and refused while one is. -/
def sMaint (f : State → State) : State := sFar (fun s => f (s.setFarrier 0 0 2))
theorem witness_Maint : let s := sMaint (fun s => s.setStatus 0 13 1 1)
    s.memOk ∧ s.fControl 0 1 1 = 1 ∧ s.fControl 0 4 4 = 0 ∧ s.fState 0 = 0 ∧ (s.die 0).rot = none ∧ s.fStatus 0 13 1 = 1 ∧ s.sst 0 0 = 0 ∧ s.siteSlot 0 0 = 0 ∧
    s.resident 0 = false ∧ (sMaint id).fControl 0 1 1 = 1 ∧ (sMaint id).fState 0 = 0 ∧ (sMaint id).fStatus 0 13 1 = 0 :=
  ⟨rfl, by decide, by decide, by decide, rfl, by decide, by decide, by decide, by decide, by decide, by decide, by decide⟩
theorem witness_MaintEnd : let s := sFar (fun s => (s.setStatus 0 0 4 7).setSite 0 0 0 3 2)
    s.memOk ∧ s.fState 0 = 7 ∧ (List.range 9).find? (fun k => s.sst 0 k == 2) = some 0 ∧ s.siteSlot 0 0 < 8 ∧ Claim.enough s 0 :=
  ⟨rfl, by decide, by decide, by decide, by unfold Claim.enough; decide⟩

theorem witness_FarrierWords : let w := State.reset.farrier 0 0
    w < 2 ^ 8 ∧ w / 2 ^ 3 % 2 = 0 ∧ w / 2 ^ 4 ≤ 8 ∧ State.reset.farrier 0 1 < 2 ^ 54 ∧ State.reset.fStatus 0 12 1 = 0 := by decide
theorem witness_Exposure : State.reset.paceAt 0 / 1000000000 ≤ (State.reset.die 0).secs ∧ State.reset.paceAt 0 / 3600000000000 ≤ (State.reset.die 0).hours ∧
    (State.reset.die 0).hours < ({ State.reset with pace := 3600000000000 } : State).paceAt 0 / 3600000000000 ∧
    (State.reset.die 0).secs < ({ State.reset with pace := 3600000000000 } : State).paceAt 0 / 1000000000 := by decide
/-- Tiles with a scratchpad of one page and room for images. -/
def sEpoch (f : State → State) : State :=
  sFar (fun s => f ((s.modTile 0 (fun t => { t with plb1 := 1, plb2 := 2, ckbase := 700 })).modTile 1 (fun t => { t with ckbase := 700 })))
theorem witness_Epoch : let s := sEpoch id
    s.memOk ∧ s.partner 0 0 = some 1 ∧ s.sst 0 0 = 0 ∧ s.siteSlot 0 0 = 0 ∧ s.siteSlot 0 1 = 1 ∧ (s.tile 0).plb1 - (s.tile 0).plb0 = 1 ∧ s.fControl 0 2 1 = 0 ∧
    s.fState 0 ∉ [1, 3, 4] ∧ (s.tile 1).ckbase * 65536 + 0x80000 + 65536 + 0x100000 ≤ Config.poolBytes ∧
    s.paceAt 0 < (s.die 0).epochs.get 0 0 + 1000000 ∧ (s.die 0).epochs.get 0 0 + 1000000 ≤ ({ s with pace := 1000000 } : State).paceAt 0 ∧
    Config.poolBytes < (State.reset.tile 1).ckbase * 65536 + 0x80000 + 65536 * 52 + 0x100000 :=
  ⟨rfl, by decide, by decide, by decide, by decide, by decide, by decide, by decide, by decide, by decide, by decide, by decide⟩
theorem witness_SiteLoss : let s := sEpoch (fun s => s.setSite 0 0 4 1 1)
    s.memOk ∧ s.sst 0 0 = 0 ∧ s.siteSlot 0 0 < (s.die 0).bridle.length ∧ s.fStatus 0 4 4 = 8 ∧ s.sst 0 8 = 1 ∧ s.partner 0 0 = some 1 ∧ s.siteField 0 0 4 1 = 1 ∧
    s.siteSlot 0 1 < 8 ∧ s.sst 0 8 ≠ 0 ∧ s.ckptFits 0 1 = true := ⟨rfl, by decide, by decide, by decide, by decide, by decide, by decide, by decide, by decide, by decide⟩
theorem witness_Scrub : let a := flatPool 0 0x100
    a % 8 = 0 ∧ flatKind a = 1 ∧ flatDie a = 0 := by decide
theorem witness_Scrub_stack : let a := flat 4 0 0
    a % 8 = 0 ∧ flatKind a = 4 ∧ flatOwner a / 2 = (State.reset.info 0).pair := by decide
/-- The rest of the Drain step's conditions, an error found in the state of a context, and a map of a site onto its own live cores. -/
theorem witness_Drain_rest : (sRot 1 id).inService 0 ≤ (sRot 1 id).pagerCores 0 ∧ ((sRot 1 id).dueFirst ((sRot 1 id).tileCores 0)).isNone = true ∧
    ((sRot 1 (fun s => s.modCore ⟨0, 0⟩ (fun k => { k with launch := some placedLaunch, report := some (0x10, 0, 0) }))).modCtx c0 (fun k => { k with st := .ready })).dueFirst
      [⟨0, 0⟩] ≠ none := by decide
theorem witness_Scrub_state : let s := ev { EvArgs.zero with flag2 := true, ctx := c1 } (on c1 Fields.zero id)
    s.ev.flag2 = true ∧ (s.tile 0).stopped = false ∧ (s.ctx c1).st = .ready ∧ (s.ctx c1).gang = none ∧ (∀ m ∈ (s.core ⟨0, 0⟩).mq, m.q.ctx ≠ 1) ∧
    s.pendingSeq c1 = [] ∧ (s.ctx c1).mayRollback = false ∧ s.pushHeld c1 = none ∧ (s.ctx c1).remote = 0 := by decide
theorem witness_OwnCore : (State.reset.info 0).ownCore 0 0 = some 0 := by decide

/-! The fabric, links, clock regions, boot, power, debug and the bridge. -/

/-- A panel of two dies, every feature accepted, and packet 1. -/
def sFab (f : State → State) : State :=
  f (ev EvArgs.zero { State.reset with panel := [DieInfo.full 0, DieInfo.full 32], featAck := Config.feat1 ++ Config.feat0, featSet := true })
def pkt (at_ dst : Nat) (pl : Payload) : Packet := ⟨1, at_, dst, none, [], none, 0, 1, pl⟩
def sPkt (p : Packet) (f : State → State) : State := sFab (fun s => f { s with net := [p], nextId := 2, ev := { s.ev with k := 1 } })
def aGet : Remote := { kind := 0, returning := false, size := 0, fn := 0, md := 0, sc := 0, data := 0, ea := 0, abs := 0, issuer := c0, tag := 0, d := 0, ctr := none, sup := true, launch := 0, stage := 0, fault := 0, detail := 0, ident := 0, value := 0, gone := false, taken := false, hb := [], rels := [] }
theorem witness_FlitHere : let p := pkt 0 1 (.remote aGet)
    Claim.inFlight (sPkt p id) p ∧ p.parts = false ∧ dieOf p.dst = dieOf p.at_ := ⟨⟨by decide, by decide, by decide⟩, by decide, by decide⟩
set_option maxRecDepth 10000 in
theorem witness_FlitNext : let p := pkt 0 8 (.remote aGet)
    Claim.inFlight (sPkt p id) p ∧ dieOf p.dst ≠ dieOf p.at_ ∧ (sPkt p id).nextDie 0 0 1 = some (0, 1) ∧ (sPkt p id).linkLost 0 0 = false ∧ (sPkt p id).awake 1 = true ∧ (sPkt p id).linkBusy 0 0 = false ∧
    (sPkt p (fun s => s.store (flatCommons 0 0x7fe9200) 8 0x80)).linkBusy 0 0 = true ∧
    (sPkt p (fun s => s.setPower 1 8 2 1)).awake 1 = false ∧ (sPkt p (fun s => s.store (flatCommons 0 0x7fe9200) 8 0x40)).linkLost 0 0 = true ∧ aGet.fault = 0 :=
  ⟨⟨by decide, by decide, by decide⟩, by decide, by decide, by decide, by decide, by decide, by decide, by decide, by decide, rfl⟩
theorem witness_Multicast : let m := { aMsg 0 0 with mc := true, dests := 3, vt := 0 }
    Claim.inFlight (sPkt (pkt 0 0 (.msg m 0 none)) id) (pkt 0 0 (.msg m 0 none)) ∧ (∀ q ∈ (sPkt (pkt 0 0 (.msg m 0 none)) id).net, q.id < 2) ∧ m.tiles = [0, 1] ∧
    ∀ vt ∈ m.tiles, dieOf vt = dieOf 0 := ⟨⟨by decide, by decide, by decide⟩, by decide, by decide, by decide⟩
theorem witness_Link : Claim.isLink (sFab id) 0 0 1 2 ∧ (sFab id).linkControl 0 0 = 0 ∧ ((sFab id).die 0).fails.get 0 0 = 0 ∧
    ((sFab (fun s => s.modDie 0 (fun d => { d with fails := [(0, 63)] }))).die 0).fails.get 0 0 = 63 := ⟨⟨rfl, by decide, by decide, by decide, by decide, by decide, by decide⟩, by decide, rfl, rfl⟩
theorem witness_LinkChange : let s := sFab (fun s => s.store (flatCommons 0 0x7fe9200) 8 0x81)
    Claim.isLink s 0 0 1 2 ∧ s.linkControl 0 0 / 2 ^ 7 % 2 = 1 ∧ s.linkControl 0 0 / 2 ^ 32 = 0 ∧ s.linkControl 1 2 / 2 ^ 32 = 0 ∧
    max (s.linkControl 0 0 % 4) (s.linkControl 1 2 % 4) = 1 ∧ s.feat1 1 = true := ⟨⟨rfl, by decide, by decide, by decide, by decide, by decide, by decide⟩, by decide, by decide, by decide, by decide, by decide⟩
theorem witness_Injector : let s := sFab (fun s => s.store (flatCommons 0 0x7fe9000) 8 (2 ^ 63 + 2))
    s.memOk ∧ s.hasInjector 0 0 = true ∧ s.hasInjector 0 4 = true ∧ (s.die 0).inj.length = 5 ∧ s.load (flatCommons 0 0x7fe9000) 8 = 2 ^ 63 + 2 ∧ (s.die 0).inj.getD 0 0 = 0 ∧
    (0 : Nat) + 1 < (2 ^ 63 + 2) % 2 ^ 32 ∧ (2 ^ 63 + 2) % 2 ^ 32 ≤ 0 + 2 := ⟨rfl, by decide, by decide, by decide, by decide, rfl, by decide, by decide⟩
theorem witness_Tether : (sFab id).feat1 3 = true ∧ 0 < (sFab id).nDies ∧ tetherPorts ((sFab id).info 0).phys ≠ 0 ∧ (sFab id).tetherMsg [] 0 = none ∧
    ((sFab id).tetherMsg (List.replicate 64 0) 0).isSome = true := by decide
theorem witness_Clock : ((sFab id).tile 0).refLost = false ∧ ((sFab id).tile 0).uncertain = false ∧ ((sFab id).tile 0).missed < 3 ∧ 4 ≤ ((sFab id).tile 0).sinceStretch ∧
    ((sFab (fun s => s.modTile 0 (fun t => { t with uncertain := true, ofs := 6, missed := 3, refLost := true, sinceStretch := 0 }))).tile 0) =
      { Tile.reset with uncertain := true, ofs := 6, missed := 3, refLost := true, sinceStretch := 0 } := by decide

/-- Tables for class 3 of a panel of two dies, one die east of the other. -/
def aTables (c d : Nat) : Option (List Nat) := if c = 3 then some (if d = 0 then [0, 1] else [3, 0]) else none
set_option maxRecDepth 10000 in
theorem witness_Routes : (acceptRoutes [DieInfo.full 0, DieInfo.full 32] aTables)[0]? = some { DieInfo.full 0 with routes := [(3, [0, 1])] } ∧
    [(3, [0, 1])].find? (fun x => x.1 == 3) = some (3, [0, 1]) ∧ 1 < [DieInfo.full 0, DieInfo.full 32].length := by decide
theorem witness_PanelReset : ∀ x ∈ State.reset.fuses, x.2.bins.length ≤ 72 := by decide
theorem witness_Attest : let s := State.reset.store (flatCommons 0 0x7feb020) 8 1
    s.memOk ∧ s.attest.dark = false ∧ s.load (flatCommons 0 0x7feb020) 8 = 1 ∧ State.reset.load (flatCommons 0 0x7feb020) 8 ≠ 1 := ⟨rfl, rfl, by decide, by decide⟩
/-- A power word. -/
def sPower (w : Nat) (f : State → State) : State := sFab (fun s => f (s.store (flatCommons 0 0x7fec000) 8 w))
theorem power_ok (w : Nat) (f : State → State) (h : (sPower w f).memOk) (h2 : (sPower w f).ev.vd = 0)
    (h3 : let x := (sPower w f).load (flatCommons 0 0x7fec000) 8
      (x / 2 ^ 48 = 0 ∧ x / 2 ^ 34 % 2 ^ 6 = 0 ∧ x / 2 ^ 17 % 2 ^ 15 = 0 ∧ x / 2 ^ 10 % 2 ^ 6 = 0 ∧ x / 2 ^ 2 % 2 ^ 6 = 0 ∧ x % 4 ≠ 3)) :
    Claim.powerOk (sPower w f) (sPower w f).ev.vd := by
  rw [h2]
  exact ⟨h, by decide, h3.1, h3.2.1, h3.2.2.1, h3.2.2.2.1, h3.2.2.2.2.1, h3.2.2.2.2.2, fun _ => rfl⟩
theorem witness_Debug : Claim.powerOk (sPower 0 id) (sPower 0 id).ev.vd ∧ (sPower 0 id).attest.life = 2 ∧ (sPower 0 id).power 0 8 2 = 0 ∧ (sPower 0 id).mayHalt 0 1 = false ∧
    (sPower 0 (fun s => s.modDie 0 (fun d => { d with dbgLevel := 2, dbgMask := 1 }))).mayHalt 0 1 = true ∧ slotsOf 1 = [0] ∧ (sPower 0 id).tileCores 0 = [] ∧
    (sPower 0 id).mayObserve 0 1 = false ∧ (sPower 0 (fun s => s.modDie 0 (fun d => { d with dbgLevel := 1, dbgMask := 1 }))).mayObserve 0 1 = true :=
  ⟨power_ok _ _ rfl rfl (by decide), rfl, by decide, by decide, by decide, by decide, by decide, by decide, by decide⟩
theorem witness_Debug_write : let a := flatPool 0 0x100
    flatKind a = 1 ∧ (sPower 0 (fun s => s.modTile 0 (fun t => { t with halted := true }))).tile (flatOwner a) = { Tile.reset with halted := true } ∧
    flatOff a + 64 ≤ Config.poolBytes := by decide
theorem witness_Life : State.reset.memOk ∧ State.reset.attest.dark = false ∧ (3 : Nat) = State.reset.attest.life + 1 ∧ State.reset.attest.key = true := ⟨rfl, rfl, rfl, rfl⟩
theorem witness_Drowsy : Claim.powerOk (sPower 1 id) (sPower 1 id).ev.vd ∧ (sPower 1 id).power 0 0 2 = 1 ∧ (sPower 1 id).power 0 8 2 = 0 ∧ (sPower 1 id).power 0 32 2 ≠ 2 ∧
    (∀ k < 8, (sPower 1 id).resident (8 * 0 + k) = false) ∧ Claim.powerOk (sPower (2 ^ 33 + 1) id) (sPower (2 ^ 33 + 1) id).ev.vd ∧ (sPower (2 ^ 33 + 1) id).power 0 32 2 = 2 ∧
    Claim.powerOk (sPower 0x100 id) (sPower 0x100 id).ev.vd ∧ (sPower 0x100 id).power 0 8 2 = 1 ∧ (sPower 0x100 id).power 0 0 2 = 0 :=
  ⟨power_ok _ _ rfl rfl (by decide), by decide, by decide, by decide, by decide, power_ok _ _ rfl rfl (by decide), by decide, power_ok _ _ rfl rfl (by decide), by decide, by decide⟩
theorem witness_Park : Claim.powerOk (sPower 2 id) 0 ∧ (sPower 2 id).power 0 0 2 = 2 ∧ (sPower 2 id).power 0 8 2 ≠ 2 ∧ (sPower 2 id).nDies = 2 ∧
    (∀ d < 2, (sPower 2 id).power d 32 2 ≠ 2 ∧ ∀ k < 8, (sPower 2 id).resident (8 * d + k) = false) ∧ Claim.powerOk (sPower (2 ^ 33 + 2) id) 0 ∧
    (∃ d < 2, (sPower (2 ^ 33 + 2) id).power d 32 2 = 2) :=
  ⟨power_ok _ _ rfl rfl (by decide), by decide, by decide, by decide, by decide, power_ok _ _ rfl rfl (by decide), 0, by decide, by decide⟩
theorem witness_Idle : State.reset.resident 0 = false ∧ State.reset.tile 0 = Tile.reset ∧ State.reset.retiring = [] ∧ (launched State.reset).resident 0 = false ∧
    (sRot 0 (fun s => s.modCore ⟨0, 0⟩ (fun k => { k with launch := some placedLaunch }))).resident 0 = true := by decide
set_option maxRecDepth 4000 in
theorem witness_Bridge_launch : (sFab id).bridgeLive = true ∧ errIs ((sFab id).validate 0 true (List.replicate 128 1)) (fun _ => true) = true ∧
    okIs ((sFab id).validate 0 true (descBytes 0 1 0 0)) (fun x => x.1.dep != 3) = true ∧ (descBytes 0 1 0 0).length = 128 := by decide
set_option maxRecDepth 4000 in
theorem witness_Bridge : (let s := mapped 0 (sFab id); let p := s.windowPtr 0x100
    okIs (s.bridgeAt p 8 .write false) (fun x => !inBlocks x.1 8) = true ∧ okIs (s.bridgeAt p 8 .write true) (fun x => !inBlocks x.1 8) = true ∧
    okIs (s.bridgeAt p 8 .read false) (fun x => !inBlocks x.1 8) = true ∧ s.bridge.held = [] ∧ s.bridge.token = none ∧ s.bridge.tokFail = none ∧
    errIs (s.bridgeAt (s.windowPtr 0x20000) 8 .write false) (fun x => x.1.cause == .pageAbsent) = true) ∧
    (let s := mapped 0 (sFab (fun s => { s with poison := [(s.flatPhys 0 0x10000100) / 8] }))
     errIs (s.bridgeAt (s.windowPtr 0x100) 8 .read false) (fun x => x.1.cause != .pageAbsent) = true) := by decide
theorem witness_Tick : let s := sFab (fun s => { s with inputs := [.tick 3 4] })
    s.inputs = .tick 3 4 :: [] ∧ (s.tile 0).drift ≤ 100 ∧ -100 ≤ (s.tile 0).drift ∧ (s.tile 0).uncertain = false ∧ -10 ≤ (s.tile 0).ofs ∧ (s.tile 0).ofs ≤ 10 :=
  ⟨rfl, by decide, by decide, by decide, by decide, by decide⟩
theorem witness_TileIdle : (State.reset.tile 0).commands = [] ∧ (State.reset.tile 0).bank = none ∧ ∀ c ∈ State.reset.retiring, c.vt ≠ 0 := by decide

/-! Single instructions on the spec's own examples, and single steps. -/

/-- A test of the state an instruction leaves. -/
def after (row : Instr) (s : State) (f : State → Bool) : Bool :=
  match exec row s with
  | .next t => f t
  | _ => false
/-- s[3] and the PC of context 1. -/
def s3 (t : State) : Word := t.rs c1 3
def sArith : State := on c1 o3 (regs 0x7ffffffffffffff0 0x20)
def sZero : State := on c1 o3 (regs 0x7ffffffffffffff0 0)
/-- The four results of the example under R129, and the PC of the next head. -/
theorem test_add_ss : after .addSs sArith (fun t => s3 t == 0x7fffffffffffffff) = true := by decide
theorem test_add : after .add sArith (fun t => s3 t == 0x8000000000000010 && (t.ctx c1).pc == 0x442 && (t.ctx c1).ff == 0) = true := by decide
theorem test_div_u : after .divU sZero (fun t => s3 t == 0xffffffffffffffff) = true := by decide
theorem test_rem_u : after .remU sZero (fun t => s3 t == 0x7ffffffffffffff0) = true := by decide
/-- R129: the divide by zero in 32 bits, and a field cut at bit 63. -/
theorem test_div_uw : after .divUw sZero (fun t => s3 t == 0xffffffff) = true := by decide
theorem test_bfx_s : after .bfxS (on c1 o3 (regs 0x8000000000000000 (63 + 64 * 7))) (fun t => s3 t == 0xffffffffffffffff) = true := by decide
/-- R130: p0 takes no write. -/
theorem test_cmp_p0 : after .cmpLt (on c1 { o3 with d := 0 } (regs 0xffffffffffffffff 1)) (fun t => t.rp c1 0 == 0xffff && t.rp c1 1 == 0) = true := by decide
theorem test_cmp_lt : after .cmpLt (on c1 o3 (regs 0xffffffffffffffff 1)) (fun t => t.rp c1 3 == 0xffff) = true := by decide
/-- R131: LI.hi keeps the low half. -/
theorem test_li_hi : after .liHi (on c1 { Fields.zero with t := 3, d := 3, imm := 0x12345678 } (fun s => s.ws c1 3 0x9abcdef0)) (fun t => s3 t == 0x123456789abcdef0) = true := by decide
/-- 2^24 + 1 in FP32 under RNE is 2^24, with NX (R140). -/
theorem test_fadd : after .fadd (on c1 o3 (regs 0x4b800000 0x3f800000)) (fun t => s3 t == 0x4b800000 && (t.ctx c1).ff != 0) = true := by decide
/-- The conversion example of chapter 3: 1 + 2^−8 to BF16. -/
theorem test_bf16 : after .fcvtBf16F32 (on c1 { o3 with s2 := 0 } (regs 0x3f808000 0)) (fun t => s3 t == 0x3f80) = true := by decide
/-- A stored word reads back (R172). -/
theorem test_st : after .st64 (on c1 { oz with d := 3 } (fun s => (s.ws c1 1 0x500).ws c1 3 0x1122334455667788)) (fun t => t.byte (flatTcm ⟨0, 0⟩ 0x500) == 0x88) = true := by decide
/-- The example under R57: from virtual tile 19, position (5, 2), to tile 17, position (4, 5). -/
theorem test_relative : absPtr ⟨19, 29⟩ 0x5ff79800000400 = some 0x408a2800000400 ∧
    absPtr ⟨19, 24⟩ 0x5ff79800000400 = none := by decide
/-- The deal of Table 105: 57 groups and the remainder to die 4, 42 to die 5. -/
theorem test_deal : shareSizes 100 [4, 3] = [58, 42] := by decide
/-- TRAP records its immediate and the head's address, and the handler starts in supervisor mode (R157, R360). -/
theorem test_trap : after .trap (on c1 { Fields.zero with t := 2, imm := 5 } (fun s => s)) (fun t => (t.ctx c1).trapPc == 0x402 && (t.ctx c1).trapVal == 5) = true := by decide
/-- A step fetches, decodes and runs the placed head of a NOP, and goes on to the next line (R71). -/
theorem test_step_nop : let s := State.reset.withFetchWord 16 0x0b80
    (match step s with | .next t => (t.ctx t.cur).pc == (s.ctx t.cur).pc + 64 | _ => false) = true := by decide

/-! Premises of the clauses for each form and each case. -/

/-- The premises of `Claim.InTcm` where nothing is on its way, decided. -/
def nearB (s : State) (ofs : Int) (n align : Nat) (k : AKind) (a : Nat) : Bool :=
  let o : Int := (pOff s.opA : Int) + ofs
  decide ((s.cur.core.vt < 512 ∧ s.cur.core.pos < 192) ∧ (pSpc s.opA = 0 ∧ pRel s.opA = false ∧ unassigned s.opA = 0) ∧
    (fmtOk s.opA = true ∧ (pFmt s.opA = 15 → s.feat0 5 = true)) ∧ 0 ≤ o ∧ o + n ≤ 2 ^ 17 ∧ o.toNat % align = 0 ∧
    s.permitted s.cur.core.vt (s.ctx s.cur).sup 0 o.toNat n k = true ∧ s.poisoned a n = false ∧ s.sbHolds s.cur.core a (a + n) k.writes = false ∧
    s.net = [] ∧ s.confOn s.cur = false ∧ a = flatTcm s.cur.core o.toNat)

theorem near_of {s : State} {ofs : Int} {n align : Nat} {k : AKind} {a : Nat} (h : nearB s ofs n align k a = true) : Claim.InTcm s ofs n align k a := by
  obtain ⟨h1, h2, h3, h4, h5, h6, h7, h8, h9, h10, h11, h12⟩ := of_decide_eq_true h
  exact ⟨h1, h2, h3, h4, h5, h6, h7, h8, h9, fun m hm => absurd hm (by rw [h10]; exact List.not_mem_nil), h11, h12⟩

/-- PointerFieldsAndPabs: REL in spaces 1 to 5, sums that stay within their range and sums that leave it. -/
def rel (spc field : Nat) : Word := BitVec.ofNat 64 (spc * 2 ^ 53 + 2 ^ 52 + field)
theorem witness_Pabs_rel : (∀ x ∈ [(1, 2 ^ 43), (2, 2 ^ 43 + 2 ^ 39 + 2 ^ 35), (3, 2 ^ 46), (4, 2 ^ 43), (5, 2 ^ 46)], (absPtr ⟨510, 0⟩ (rel x.1 x.2)).isSome = decide (x.1 ≠ 3 ∧ x.1 ≠ 5)) ∧
    absPtr ⟨511, 0⟩ (rel 1 (2 ^ 43)) = none ∧ absPtr ⟨0, 0⟩ (rel 2 (15 * 2 ^ 39)) = none ∧ absPtr ⟨0, 191⟩ (rel 2 (2 ^ 35)) = none := by decide

/-- ForkAndJoin: a counter in the core's own TCM. SpawnAndExit: a posted access outstanding. -/
theorem witness_Join_tcm (n : Nat) (h : n = 1 ∨ n = 2) : Claim.InTcm (sJoin n) 0 8 8 .rmw (flatTcm ⟨0, 0⟩ 0x100) := by
  rcases h with rfl | rfl <;> exact near_of (by decide)
theorem witness_Spawn_posted : let s := ctx' (fun k => { k with posted := 1 }) (sSpawn .free)
    s.Ready .spawn ∧ (s.freeHelperOf ⟨0, 0⟩).isSome = true ∧ 0 < (s.ctx s.cur).posted ∧ s.cur.ctx = 0 := ⟨ready_of (by decide), by decide, by decide, rfl⟩

/-- TypedLoadsAndStores: FP16, E8M0, TBL8 and MXINT8 units in the core's own TCM. -/
theorem witness_Typed_units : ∀ x ∈ [(7, 0), (14, 0), (15, 0), (16, 3), (21, 3)], let s := sTyped x.1 x.2 0
    (∀ row ∈ [Instr.ldFmt], s.Ready row) ∧ (x.1 < 16 ∧ x.1 ≠ 14 → s.Ready .stFmt) ∧ (if unitElems s.opA = 1 then 0 else (s.rs c1 s.op.s2).toNat) < unitElems s.opA ∧
    Claim.InTcm s 0 (unitSize x.1 x.2) (unitAlign x.1) .read a100 ∧
    okIs ((s.taken .ldFmt).loadBytes c1 { Claim.reqB s (unitSize x.1 x.2) .read [0, 1, 2, 3, 5] true true with align := unitAlign x.1 }) (fun _ => true) = true := by
  intro x h
  simp only [List.mem_cons, List.not_mem_nil, or_false] at h
  rcases h with rfl | rfl | rfl | rfl | rfl <;>
    exact ⟨ready_all (by decide), fun _ => ready_of (by decide), by decide, near_of (by decide), by decide⟩
/-- A store into a unit of several elements whose bytes have an error. -/
theorem witness_Typed_error : let s := { sTyped 13 0 0 with poison := [a100 / 8] }
    pFmt s.opA ∈ [11, 12, 13] ∧ s.poisoned a100 (unitSize 13 0) = true ∧
    okIs ((s.taken .stFmt).coreAddr c1 { Claim.reqB s (unitSize 13 0) .write [0, 1, 2, 3, 5] true true with align := unitAlign 13 }) (fun x => x.1 == a100) = true := by decide
theorem witness_mxVal : (5 : Nat) ≠ 255 ∧ fmtOf 16 = some .e4m3 ∧ Fmt.e4m3.decode 0 0x38 = .fin false 8 (-3) := by decide

/-- AtomicResults: forms that complete in the core's own TCM. -/
theorem witness_Atomic_tcm : Claim.InTcm (sAmo 0 0 0) 0 8 8 .rmw a100 ∧ ((sAmo 0 0 0).ctx c1).posted = 0 ∧
    Claim.InTcm (on c1 { oz with d := 3, sz := 3 } (regs 0x100 0)) 0 8 8 .read a100 ∧ Claim.InTcm (on c1 { oz with d := 3, sz := 3 } (regs 0x100 0)) 0 8 8 .write a100 :=
  ⟨near_of (by decide), by decide, near_of (by decide), near_of (by decide)⟩

/-- FullEmptyWords: two peeks and two takes wait at an empty word; two fills wait at a full one. -/
def waits (l : List FeReq) (full : Bool) : State :=
  l.foldl (fun s r => s.modCtx r.ctx (fun k => { k with st := .waiting (.fullEmpty 0x100) 0, pc := 0x402, line := lineOf 0x0b80 [], entry := .inLine }))
    { sPtr 0x100 with feq := l, full := if full then [a100 / 8] else [] }
def fe (i : Nat) (k : FeKind) : FeReq := ⟨a100 / 8, 0x100, ⟨⟨0, 0⟩, i⟩, k, 4⟩
def qGet : List FeReq := [fe 2 .take, fe 3 .peek, fe 4 .take, fe 5 .peek]
def qFill : List FeReq := [fe 2 (.fill 7), fe 3 (.fill 8)]
theorem witness_FullEmpty_waiting : (waits qGet false).Ready .stfeFill ∧ (waits qGet false).Ready .stfeForce ∧ Claim.InTcm (waits qGet false) 0 8 8 .rmw a100 ∧
    Claim.InTcm (waits qGet false) 0 8 8 .write a100 ∧ (waits qGet false).isFull (a100 / 8) = false ∧ (waits qGet false).feq.filter (fun r => r.word == a100 / 8) = qGet ∧
    Claim.Queued (waits qGet false) qGet ∧ ∀ r ∈ qGet, r.kind = .peek ∨ r.kind = .take := by
  refine ⟨ready_of (by decide), ready_of (by decide), near_of (by decide), near_of (by decide), by decide, by decide, ⟨by decide, ?_⟩, by decide⟩
  intro r h
  simp only [qGet, List.mem_cons, List.not_mem_nil, or_false] at h
  rcases h with rfl | rfl | rfl | rfl <;> exact ⟨by decide, _, rfl⟩
theorem witness_FullEmpty_fills : (waits qFill true).feq.filter (fun r => r.word == a100 / 8) = fe 2 (.fill 7) :: [fe 3 (.fill 8)] ∧ (waits qFill true).isFull (a100 / 8) = true ∧
    Claim.Queued (waits qFill true) qFill ∧ ∀ x ∈ qFill, ∃ y, x.kind = .fill y := by
  refine ⟨by decide, by decide, ⟨by decide, ?_⟩, ?_⟩ <;> intro r h <;> simp only [qFill, List.mem_cons, List.not_mem_nil, or_false] at h <;> rcases h with rfl | rfl
  exacts [⟨by decide, _, rfl⟩, ⟨by decide, _, rfl⟩, ⟨_, rfl⟩, ⟨_, rfl⟩]
/-- A take at an empty word with nothing waiting, and the other cases of a word in the core's own TCM. -/
theorem witness_FullEmpty_tcm : Claim.InTcm (sPtr 0x100) 0 8 8 .rmw a100 ∧ Claim.InTcm (waits [] true) 0 8 8 .read a100 ∧ (waits [] true).isFull (a100 / 8) = true :=
  ⟨near_of (by decide), near_of (by decide), by decide⟩

/-- FencesAndCacheControl: FLUSH of a line of the die's own memory with a dirty copy and without, and of one that a remote access is on its way to. -/
def sHome (p : Word) : State := mapped 0 (on c1 oz (regs p 0))
theorem witness_Flush : let s := sHome (ptr 0 5 0)
    (∀ row ∈ [Instr.flushWb, .flushWbi, .flushInv, .flushCode], s.Ready row) ∧ okIs ((Claim.env s .flushInv).lineEa (s.taken .flushInv)) (fun p => decide (pSpc p = 5 ∧ s.home ⟨0, 0⟩ p = 0)) = true ∧
    s.behindRemote c1 (ptr 0 5 0) 64 = false ∧ (s.lineFlat c1 (ptr 0 5 0)).isSome = true ∧ Memory.wf s.mem = true ∧ s.dirty = [] :=
  ⟨ready_all (by decide), by decide, by decide, by decide, by decide, by decide⟩
theorem witness_Flush_dirty : let s := { sHome (ptr 0 5 0) with dirty := [((sHome 0).flatPhys 0 0x10000000 / 64, List.replicate 64 0)] }
    (s.lineFlat c1 (ptr 0 5 0)) = some (s.flatPhys 0 0x10000000) ∧ (s.dirty.find (s.flatPhys 0 0x10000000 / 64)) = some (List.replicate 64 0) := by decide
theorem witness_Flush_behind : let s := sAcq oz (ptr 0 5 0 + 2 ^ 46)
    okIs ((Claim.env s .flushWb).lineEa (s.taken .flushWb)) (fun p => s.behindRemote c1 (lineBase p) 64) = true := by decide
theorem witness_Flush_tcm : Claim.InTcm (on c1 oz (regs 0x100 0)) 0 1 1 .read a100 ∧ Claim.InTcm (on c1 { oz with imm := 0 } (regs 0x100 0)) 0 1 1 .read a100 :=
  ⟨near_of (by decide), near_of (by decide)⟩
/-- A line whose home's interfaces hold its translation. -/
def sCached : State := { (List.range 8).foldl (fun s k => s.modTile (8 + k) (fun t => { t with tcache := [⟨treeKey 0, 0, 65536, 0x1000, 0x1000117f, 1000⟩] }))
  (mapped 1 (on c1 oz (ctx' (fun k => { k with st := .waiting (.gateway (2 ^ 46) 0 false) 0 })))) with ev := { EvArgs.zero with ctx := c1 } }
theorem witness_GatewayCached : (sCached.ctx c1).st = .waiting (.gateway (2 ^ 46) 0 false) 0 ∧ sCached.home ⟨0, 0⟩ (ptr 0 5 0 + 2 ^ 46) = 1 ∧ pPair (ptr 0 5 0 + 2 ^ 46) = false ∧
    sCached.feat0 7 = true ∧ (∀ d ∈ sCached.dies, d.2.fails = []) ∧ ∀ k < 8, Claim.cached sCached (8 + k) 1 0 .read := by
  refine ⟨by decide, by decide, by decide, by decide, by decide, fun k h => ?_⟩
  obtain rfl | rfl | rfl | rfl | rfl | rfl | rfl | rfl : k = 0 ∨ k = 1 ∨ k = 2 ∨ k = 3 ∨ k = 4 ∨ k = 5 ∨ k = 6 ∨ k = 7 := by omega
  all_goals exact ⟨by decide, _, rfl, by decide, by decide, by decide, by decide, by decide⟩

/-- CountersAndBarriers: a context that waits in BAR.arrive at the release of its core's episode. -/
def sRel : State :=
  let x := (encode ⟨.barArrive, { Fields.zero with t := 2, fn := 1 }⟩).getD (0, [])
  ev { EvArgs.zero with core := ⟨0, 0⟩ } (on c1 Fields.zero (fun s => (core' (fun k => { k with bar := { k.bar with arrived := true, release := true } }) s)))
    |>.modCtx c1 (fun k => { k with st := .waiting .bar 0, line := lineOf x.1 x.2 })
theorem witness_ArriveLate : (sRel.core ⟨0, 0⟩).launch = some placedLaunch ∧ (sRel.core ⟨0, 0⟩).bar.release = true ∧ (sRel.ctx c1).st = .waiting .bar 0 ∧
    (∃ x, decodeHead (sRel.ctx c1).line (headIndex (sRel.ctx c1).pc) = .ok x ∧ x.row = .barArrive) ∧ (sRel.ctx c1).err = none ∧ (∀ i ∈ allCtx, (sRel.ctx ⟨⟨0, 0⟩, i⟩).gang = none) ∧
    ∀ i ∈ allCtx, i ≠ 1 → (sRel.ctx ⟨⟨0, 0⟩, i⟩).st ≠ .waiting .bar 0 := ⟨by decide, by decide, by decide, ⟨_, rfl, rfl⟩, by decide, by decide, by decide⟩

/-- RemoteAccesses: pointers into the core's own TCM that a check stops, and forms there that complete. -/
def sNear (fmt off d n : Nat) : State := on c1 { oz with d := BitVec.ofNat 5 d, sz := 3 } (fun s => ctx' (fun k => { k with posted := n }) (regs (ptr fmt 0 off) 5 s))
theorem witness_Remote_checks : fmtOk (sNear 22 0x100 3 0).opA = false ∧ fmtOk (sNear 0 0x102 3 0).opA = true ∧ (pOff (sNear 0 0x102 3 0).opA) % 8 ≠ 0 ∧
    2 ^ 17 < pOff (sNear 0 0x1fffc 3 0).opA + 8 ∧ (sNear 0 0x102 3 0).Ready .get ∧ (pSpc (ptr 0 6 0) = 6) ∧
    (let s := on c1 { oz with d := 3, sz := 3 } (regs (ptr 0 4 0) 0)
     pSpc s.opA = 4 ∧ s.Ready .put ∧ s.op.imm16 = 0) ∧ pFmt (ptr 15 0 0x100) = 15 ∧ ({ sNear 15 0x100 3 0 with featAck := 0 }).feat0 5 = false :=
  ⟨by decide, by decide, by decide, by decide, ready_of (by decide), by decide, ⟨by decide, ready_of (by decide), by decide⟩, by decide, by decide⟩
theorem witness_Remote_tcm : (∀ row ∈ [Instr.get, .put] ++ Claim.ramos.filter (· ≠ .ramoFadd), (sNear 0 0x100 3 0).Ready row) ∧
    (∀ row ∈ Claim.ramos.filter (· ≠ .ramoFadd), (sNear 0 0x100 0 0).Ready row) ∧ (∀ k ∈ [AKind.read, .write, .rmw], Claim.InTcm (sNear 0 0x100 3 0) 0 8 8 k a100) ∧
    (on c1 { oz with d := 3, sz := 2, fn := 9 } (regs 0x100 0)).Ready .ramoFadd ∧ Claim.InTcm (on c1 { oz with d := 3, sz := 2, fn := 9 } (regs 0x100 0)) 0 4 4 .rmw a100 :=
  ⟨ready_all (by decide), ready_all (by decide), fun k h => near_of (by revert h k; decide), ready_of (by decide), near_of (by decide)⟩
theorem witness_Fpamo : let s := on c1 { oz with d := 0, sz := 2, fn := 9 } (fun s => core' (fun k => { k with detmode := 2 }) (regs (rptr 1 0x100) 0 s))
    s.Ready .ramoFadd ∧ (s.core ⟨0, 0⟩).detmode.getLsbD 1 = true ∧
    okIs ((Claim.env s .ramoFadd).remoteEa (s.taken .ramoFadd) [0, 1, 2, 3, 5]) (fun x => decide (s.regOf (s.core ⟨0, 0⟩).launchId ((absPtr ⟨0, 0⟩ x.2).getD x.2) = none)) = true :=
  ⟨ready_of (by decide), by decide, by decide⟩
/-- At the home: an access that fails there, one to a core's TCM, and one that is not passed on. -/
theorem witness_Remote_fails : let r := rem 1 0 false none
    (sPk r 8).forwardsTo ⟨4, 8, 8, none, [], none, 0, 4, .remote r⟩ r = none ∧
    errIs (({ sPk (rem 0 0 true none) 8 with poison := [flatCommons 1 0x100 / 8] }).homeAddr ⟨0, 0⟩ 8 8 1 true false (rptr 1 0x100) 8 .read) (fun x => x.1.cause != .pageAbsent) = true := by decide
def remTcm : Remote := { rem 0 0 true none with abs := BitVec.ofNat 64 (2 * 2 ^ 53 + 8 * 2 ^ 43 + 0x100) }
theorem witness_Remote_tcm_home : let s := sPk remTcm 8
    s.arrivedRemote 4 0 = some (⟨4, 8, 8, none, [], none, 0, 4, .remote remTcm⟩, remTcm) ∧ s.remoteBehind 4 remTcm = false ∧ (s.ctx c1).gang = none ∧ pSpc remTcm.abs = 2 ∧
    s.slotGone (pTile remTcm.abs) = false ∧ s.spaceHomeFault remTcm.abs 8 = false ∧ s.permitted 8 true 2 (pOff remTcm.abs) 8 .read = true ∧
    s.poisoned (s.flatOf ⟨0, 0⟩ remTcm.abs) 8 = false := by decide

/-- VectorSequencerExecute of an integer row; MatrixQueueIssue and MatrixOperandReadEnd on a block in the core's own TCM. -/
theorem witness_Sequencer_int : let s := ev { EvArgs.zero with ctx := c1 } (on c1 Fields.zero (core' (fun k => { k with vseq := [seq .vadd (oV 4)] })))
    (s.core ⟨0, 0⟩).vseq.find? (fun x => x.ctx == 1) = some (seq .vadd (oV 4)) ∧ (Claim.vint .vadd).isSome = true ∧ (oV 4).et ∈ Claim.ints ∧ s.mqOpen c1 = false :=
  ⟨by decide, by decide, by decide, by decide⟩
theorem witness_MatrixQueue_tcm : let s := sQ []
    let p := s.rs c1 qM.inst.o.s1
    s.mqBehind c1 qM.inst = false ∧ s.mqOpen c1 = false ∧ (s.modCtx c1 (fun k => k.at_ qM)).predicatedOff c1 qM.inst = false ∧ qM.inst.row ∈ [Instr.mma, .mmas, .mgait] ∧
    qM.inst.o.et ∈ [8, 9, 10] ∧ qM.inst.o.s2 = 0 ∧ (pFmt p = 0 ∧ pBlk p = 0 ∧ pSpc p = 0 ∧ pRel p = false ∧ unassigned p = 0 ∧ pOff p % 64 = 0 ∧ pOff p + 2048 ≤ 2 ^ 17) ∧
    s.permitted 0 (s.ctx c1).sup 0 (pOff p) 2048 .read = true := by decide
theorem witness_MatrixRead_tcm : let s := sQ [mE .issued none]
    (s.core ⟨0, 0⟩).mq = mE .issued none :: [] ∧ (mE .issued none).stage = .issued ∧ s.poisoned (mE .issued none).base 2176 = false ∧ (s.ctx c1).gbad = 0 :=
  ⟨rfl, rfl, by decide, by decide⟩
/-- MACC.ld, MACC.st and MACC.cvt: the access of every element of the image, and of one whose base is misaligned. -/
theorem witness_Macc_elements : (∀ i < 256, okIs (((sA 6).taken .maccLd).coreAddr c1 (Claim.element (sA 6) 4 .read i)) (fun x => x.1 == flatTcm ⟨0, 0⟩ 0x4000 + 4 * i) = true) ∧
    (∀ i < 256, okIs (((sA 6).taken .maccSt).coreAddr c1 (Claim.element (sA 6) 4 .write i)) (fun x => x.1 == flatTcm ⟨0, 0⟩ 0x4000 + 4 * i) = true) ∧
    (sA 6).confOn c1 = false ∧ (sA 10).confOn c1 = false ∧ inBlocks (flatTcm ⟨0, 0⟩ 0x4000) 1024 = false := by decide +kernel
theorem witness_Macc_first : ((sA 6).taken .maccLd).coreAddr c1 (Claim.element (sA 6) 4 .read 0) = .ok (flatTcm ⟨0, 0⟩ 0x4000, (sA 6).taken .maccLd) ∧
    ((sA 6).taken .maccSt).coreAddr c1 (Claim.element (sA 6) 4 .write 255) = .ok (flatTcm ⟨0, 0⟩ 0x43fc, (sA 6).taken .maccSt) ∧
    ((sA 10).taken .maccCvt).coreAddr c1 (Claim.element (sA 10) 1 .write 255) = .ok (flatTcm ⟨0, 0⟩ 0x40ff, (sA 10).taken .maccCvt) ∧
    errIs (((on c1 { oV 6 with s1 := 1, d := 7 } (regs 0x4020 0)).taken .maccLd).coreAddr c1 (Claim.element (on c1 { oV 6 with s1 := 1, d := 7 } (regs 0x4020 0)) 4 .read 0))
      (fun | .trap t _ => t.cause == .misalign | .wait _ _ => false) = true := ⟨rfl, rfl, rfl, by decide⟩

/-- CopyCommand and GatherCommand on operands in the issuing core's TCM. -/
theorem witness_Reach : let s := sEng (fun t => { t with copyQ := [cCopy], gatherQ := [cGather .gather] }) []
    Claim.Reach s cCopy 0x100 0x100 64 1 .read ∧ Claim.Reach s cCopy 0x200 0x200 64 1 .write ∧ Claim.Reach s (cGather .gather) 0x100 0x100 4 4 .read ∧
    signedOf 32 (s.load a100 4) = 0 ∧ Claim.Reach s (cGather .gather) 0x1000 0x1000 64 64 .read ∧ Claim.Reach s (cGather .gather) 0x4000 0x4000 64 1 .write ∧
    (cGather .gather).z = 0 := by
  simp only [Claim.Reach]
  decide

/-- TaskArrival of a message that no other member of its gang waits with; a core whose run queue is full. -/
theorem witness_TaskArrival_alone : ((sMsg (aPk (aMsg 0 0) 0 none)).gangOffers (some 9)).length ≤ 1 ∧
    32 ≤ ((sWork (List.replicate 32 (aTask 1 0 0)) []).core ⟨0, 0⟩).runq.length := by decide
theorem witness_WaitLimit_edges : ∀ w ∈ [Wait.counter 3 1, .sleep false], (sWait w 11).edgesAt 0 - 0 > 10 ∧ (sWait w 10).edgesAt 0 - 0 ≤ 10 ∧
    ((sWait w 11).core ⟨0, 0⟩).waitLim.toNat = 10 := by decide

/-- PairsStacksAndLeases: lease.renew of no page; an engine's translation whose page is mapped, and whose walk fails. -/
theorem witness_Lease_none : (sLease 0).Ready .leaseRenew ∧ (sLease 0).rs c1 (sLease 0).op.s2 = 0 ∧ pSpc (sLease 0).opA = 5 ∧ pRel (sLease 0).opA = false ∧ pFmt (sLease 0).opA = 0 ∧
    pBlk (sLease 0).opA = 0 ∧ pDie (sLease 0).opA < (sLease 0).nDies ∧ offAdd (sLease 0).opA (sLease 0).op.imm16.toInt = some (sLease 0).opA ∧ unassigned (sLease 0).opA = 0 :=
  ⟨ready_of (by decide), by decide, by decide, by decide, by decide, by decide, by decide, by decide, by decide⟩
theorem witness_EngineLease_served : let s := ev { EvArgs.zero with vt := 0, k := 0 } (on c1 Fields.zero (tile' (fun t => { t with tcache := [aTrans], copyQ := [{ cCopy with src := ptr 0 5 0 }] })))
    s.engineServed 0 = true ∧ (mapped 0 s).engineServed 0 = true ∧ errIs (s.leafAt 0 aTrans.base) (fun _ => true) = true := by decide

/-- SpurUnitsRun: spur.cfg on a block in the core's own TCM; a close that goes on with a fire task for a core of its launch. -/
theorem witness_SpurCfg_tcm : Claim.InTcm (sCfg 2 3 16) (sCfg 2 3 16).op.imm16.toInt 64 64 .read a100 := near_of (by decide)
theorem witness_CloseResume_fire : let b := { aBank with pend := some ⟨1, 5, 0, 0, 0, false⟩, fire := true, handler := 0x800 }
    let s := sEv b (ePk (aEv 4 0) 0 none none)
    (s.tile 0).bank = some b ∧ b.core.vt = 0 ∧ (∀ q ∈ s.net, q.id ≠ s.nextId) ∧ s.slotGone 0 = false ∧ s.preemptedOn b.launch 0 = false ∧
    s.livePos 0 b.core.pos = true ∧ (s.core b.core).launch.isSome = true ∧ (s.core b.core).launchId = b.launch ∧ (s.core b.core).runq.length < 32 ∧
    (s.tile 0).overflow.any (fun o => o.1 == b.core.pos) = false := by decide

/-- LaunchesRun: a launch whose descriptor lies in the core's own TCM; an entry and a refill that find their bounds set; a share that is stealing. -/
def sDesc : State := (sLaunch id).storeBytes (flatTcm ⟨0, 0⟩ 0x400) (descBytes 0 1 0 0)
set_option maxRecDepth 4000 in
theorem witness_Launch_tcm : sDesc.Ready .launch ∧ Claim.InTcm sDesc 0 128 64 .read (flatTcm ⟨0, 0⟩ 0x400) ∧ sDesc.bytes (flatTcm ⟨0, 0⟩ 0x400) 128 = descBytes 0 1 0 0 :=
  ⟨ready_of (by decide), near_of (by decide), by decide +kernel⟩
theorem witness_Launch_tcm_desc : let d := descOf (descBytes 0 1 0 0)
    descBad (descBytes 0 1 0 0) d sDesc.nDies = false ∧ d.dep = 0 ∧ 0 < d.helpers ∧ d.helpers ≤ 10 ∧ d.detmode % 2 = 0 ∧ d.plb0 ≤ d.plb1 ∧ d.plb1 ≤ d.plb2 ∧
    (∀ t ∈ d.allTiles, d.plb2 ≤ (sDesc.tile t).ckbase ∧ (sDesc.tile t).lost = false) ∧ d.vec = false ∧ (d.helpers + 1) * d.stack + d.static_ ≤ 0x1ffc0 ∧
    sDesc.attest.below = false ∧ ∀ vd ∈ d.dieList, sDesc.rectLive vd d.rect ≠ [] := by decide +kernel
def bounds (s : State) : State := s.modTile 0 (fun t => { t with plb0 := 0, plb1 := 0, plb2 := 760 })
theorem witness_Bounds : (((bounds (sL' (lSmall []))).tile 0).plb0 = dSmall.plb0 ∧ ((bounds (sL' (lSmall []))).tile 0).plb1 = dSmall.plb1 ∧
    ((bounds (sL' (lSmall []))).tile 0).plb2 = dSmall.plb2) ∧ dSmall.vec = false ∧ (lSmall []).failed = [] := by decide
theorem witness_Stealing : let h := { hShare 0 4 4 [0] with st := .stealing }
    (lSmall [h, hShare 1 1 4 []]).stateOf h = .stealing ∧ (hShare 1 1 4 []).held = 3 ∧ (hShare 1 1 4 []).ranges = [(1, 3)] := by decide
/-- Pre-emption and resume of a tile without cores, in a save area in the commons of its die. -/
theorem witness_Preempt_empty : let s := sC (aCtl 0 true) [{ hShare 0 0 4 [0] with saved := [] }]
    Claim.SaveArea s (aCtl 0 true) 0 0 ∧ s.memOk ∧ s.coresOn 64 0 = [] ∧ s.saveReady 0 [] = true ∧ (lSmall []).cancelled = false ∧ (aCtl 0 true).begun = true :=
  ⟨⟨by decide, by decide, by decide, by decide, by decide, by decide, by decide⟩, rfl, by decide, by decide, rfl, rfl⟩
theorem witness_Resume_empty : let h := { hShare 0 0 4 [0] with saved := [0] }
    let s := sC (aCtl 1 true) [h]
    Claim.SaveArea s (aCtl 1 true) 0 0 ∧ s.load (flatCommons 0 (0x10000 + tileRec 0 + 8)) 4 = 0 ∧ (s.tile 0).overflow.length ≤ 8192 ∧
    (∀ p ∈ (lSmall [h]).parkedCores, p.1 / 192 ≠ 0) ∧ ∀ p ∈ (lSmall [h]).parked, p.gang = [] :=
  ⟨⟨by decide, by decide, by decide, by decide, by decide, by decide, by decide⟩, by decide, by decide, by decide, by decide⟩
theorem witness_Pager_undrained : (sService 2).undrained 0 0 = false := by decide

/-- FarrierRotates: RESUME with nothing held, and with one message held for a core of its launch. -/
def pHeld : Packet := ⟨1, 0, 0, some 8, [], none, 0, 1, .msg (aMsg 0 0) 0 none⟩
def sHeld : State := sRot 4 (fun s => { s.modCore ⟨0, 0⟩ (fun k => { k with launch := some placedLaunch }) with net := [pHeld], nextId := 2 })
theorem witness_Resume_none : Claim.Rotates (sRot 4 id) ⟨0, 0, 8, 0⟩ 4 ∧ (sRot 4 id).heldAt 0 = [] ∧ 0 < ((sRot 4 id).die 0).bridle.length :=
  ⟨⟨rfl, by decide, rfl, by decide, by decide, by decide, by decide, by decide⟩, by decide, by decide⟩
theorem witness_Resume_held : Claim.Rotates sHeld ⟨0, 0, 8, 0⟩ 4 ∧ sHeld.heldAt 0 = [pHeld] ∧ sHeld.packet 1 = some pHeld ∧ sHeld.msgBehind 1 (aMsg 0 0) 0 = false ∧
    sHeld.refusal (aMsg 0 0) ⟨0, 0⟩ = none ∧ (sHeld.core ⟨0, 0⟩).runq.length < 32 ∧ (sHeld.tile 0).overflow.any (fun o => o.1 == 0) = false :=
  ⟨⟨rfl, by decide, rfl, by decide, by decide, by decide, by decide, by decide⟩, by decide, by decide, by decide, by decide, by decide, by decide⟩
theorem witness_Arm_region : (State.reset.tile 512).uncertain = false ∧ (State.reset.die 0).rot = none := by decide

/-- FarrierKeepsTheDie: an epoch's beginning, and a journal before and after its check and its commit. -/
def aJournal (checked committed : Bool) : Journal := ⟨[(3, List.replicate 64 5, 0)], [], checked, committed⟩
def sJournal (checked committed : Bool) : State := sEpoch (fun s => s.modDie 0 (fun d => { d with journals := [(0, aJournal checked committed)] }))
theorem witness_Journal : ((sEpoch id).die 0).journals.find 0 = none ∧ (sEpoch id).ckptFits 0 1 = true ∧
    (State.reset.modTile 0 (fun t => { t with plb1 := 200 })).ckptFits 0 1 = false ∧
    (∀ x ∈ [(false, false), (true, false), (true, true)], ((sJournal x.1 x.2).die 0).journals.find 0 = some (aJournal x.1 x.2)) ∧
    (∀ x ∈ (aJournal true true).lines, x.1 < 1024 ∧ x.2.1.length = 64) ∧ ((aJournal true true).lines.map Prod.fst).Nodup ∧ (sJournal true true).ckptFits 0 1 = true ∧
    ((sEpoch id).tile 0).plb1 ≤ 1024 ∧ ((sEpoch id).tile 0).plb1 - ((sEpoch id).tile 0).plb0 = 1 := by decide
theorem witness_SiteLoss_image : let s := sEpoch (fun s => s.setSite 0 0 4 1 1)
    s.siteSlot 0 1 = 1 ∧ (s.tile 1).ckbase * 65536 + 0x80000 + 65536 + 0x100000 ≤ Config.poolBytes ∧ (s.die 0).journals.find 0 = none ∧ s.fStatus 0 4 4 < 9 := by decide
/-- A copy with an error whose source is clean; a word whose error is corrected or not. -/
theorem witness_Scrub_copy : (ev { EvArgs.zero with m := 2 } State.reset).memOk ∧ (ev { EvArgs.zero with m := 2 } State.reset).ev.m = 2 ∧ EvArgs.zero.m = 0 ∧ EvArgs.zero.flag2 = false :=
  ⟨rfl, rfl, rfl, rfl⟩
theorem witness_FarrierActs : State.reset.acts = [] := rfl

/-- FabricCarriesAndPaces: a tile with room for held arrivals; a message over a link with a lane that sends; a remote access that meets a lost link. -/
theorem witness_Flit_room : let p := pkt 0 1 (.remote aGet)
    (sPkt p id).holdFull { p with at_ := p.dst, site := Claim.siteOn (sPkt p id) p 0 } = false := by decide
set_option maxRecDepth 10000 in
theorem witness_Flit_message : let p := pkt 0 8 (.msg (aMsg 0 0) 0 none)
    Claim.inFlight (sPkt p id) p ∧ p.parts = false ∧ (sPkt p id).nextDie 0 0 1 = some (0, 1) ∧ (sPkt p id).lanesOf 0 0 ≠ [] ∧
    ((sPkt p id).die 0).lanes.get (0 * 32 + ((sPkt p id).lanesOf 0 0).getD 0 0) ⟨0, []⟩ = ⟨0, []⟩ :=
  ⟨⟨by decide, by decide, by decide⟩, by decide, by decide, by decide, by decide⟩
theorem witness_Flit_lost : let s := sPkt (pkt 0 8 (.remote aGet)) (fun s => s.store (flatCommons 0 0x7fe9200) 8 0x40)
    s.linkLost 0 0 = true ∧ aGet.fault = 0 ∧ aGet.stage < 2 ∧ aGet.returning = false := by decide
theorem witness_Multicast_tiles : ∀ vt ∈ [0, 1], ((sFab id).tile vt).stopped = false := by decide
/-- Replays: at a lane in use with no injector's replay armed, at one removed, at its 63rd failure, at a Tether port. -/
theorem witness_Replay : let s := sFab id
    s.linkControl 0 0 / 2 ^ 32 % 2 = 0 ∧ s.load (injectorAt 0 0) 8 / 2 ^ 59 % 2 = 0 ∧ 0 ∈ s.lanesOf 0 0 ∧ (s.die 0).fails.get 0 0 < 63 ∧
    (sFab (fun s => s.store (flatCommons 0 0x7fe9200) 8 (2 ^ 32))).linkControl 0 0 / 2 ^ 32 % 2 = 1 ∧ activeWidth 1 0 ≠ 3 ∧ tetherPorts (s.info 0).phys ≠ 0 := by decide
/-- Injectors: armed on a lane that sends, and the flit that completes its count, with and without a receiver that sees it. -/
theorem witness_Injector_acts : let s := sFab (fun s => s.store (flatCommons 0 0x7fe9000) 8 (2 ^ 63 + 2))
    s.load (flatCommons 0 0x7fe9000) 8 / 2 ^ 63 % 2 = 1 ∧ s.laneUp 0 0 0 = true ∧ 0 < (s.die 0).inj.length ∧ (s.die 0).inj.getD 0 0 + 2 = (2 ^ 63 + 2) % 2 ^ 32 ∧
    (2 ^ 63 + 2) / 2 ^ 59 % 2 = 0 ∧ (2 ^ 63 + 2) / 2 ^ 61 % 4 = 0 ∧ Claim.isLink s 0 0 1 2 :=
  ⟨by decide, by decide, by decide, by decide, by decide, by decide, ⟨rfl, by decide, by decide, by decide, by decide, by decide, by decide⟩⟩
/-- A change of width and rate, and of width alone; a stored request, one with a reserved value, one that changes nothing. -/
theorem witness_LinkChange_both : let s := sFab (fun s => s.store (flatCommons 0 0x7fe9200) 8 0x85)
    s.linkControl 0 0 / 2 ^ 10 % 4 ≠ max (s.linkControl 0 0 % 4) (s.linkControl 1 2 % 4) ∧
    s.linkControl 0 0 / 2 ^ 8 % 4 ≠ max (s.linkControl 0 0 / 4 % 4) (s.linkControl 1 2 / 4 % 4) ∧ s.acts = [] := by decide
/-- Messages at a Tether port: of kind 0, an engine's command, and a panel control message. -/
def tetherBytes (kind pos : Nat) : List Byte := natLe 16 (kind * 2 ^ 6 + pos * 2 ^ 71) ++ List.replicate 48 0
theorem witness_Tether_kinds : (∀ x ∈ [(0, 0), (1, 0), (2, 0xf8), (3, 0)], okIs (match (sFab id).tetherMsg (tetherBytes x.1 x.2) 0 with | some m => Except.ok m | none => .error ())
      (fun m => m.kind == x.1 && m.pos == x.2 && (x.1 != 2 || (m.command 0).isSome)) = true) ∧
    ((sFab id).inboxOf 0 0).length < 16 ∧ (sFab id).slotGone 0 = false := by decide
/-- A tick after a stretch, and one without. -/
theorem witness_Tick_lag : ((sFab id).tile 0).sinceStretch ≠ 0 ∧ ((sFab id).tile 0).refLost = false ∧ (sFab id).acts = [] ∧
    (((sFab (fun s => s.modTile 0 (fun t => { t with sinceStretch := 0 }))).tile 0).sinceStretch = 0) := by decide

/-- BootPowerDebugBridge: firmware's CKBASE for one tile; a debugger's counter; reads of BAR 0 and configuration requests. -/
theorem witness_Ckbase : let s := ev { EvArgs.zero with pairs := [(2048 + 3, [100])] } State.reset
    s.ev.pairs.filter (fun x => x.1 == 2048 + 3) = [(2048 + 3, [100])] ∧ 100 ≤ 760 := by decide
theorem witness_Debug_counter : let s := ev { EvArgs.zero with flag2 := true, j := 8, m := 5, bytes := [7, 0] } (sPower 0 (fun s => s.modTile 0 (fun t => { t with halted := true })))
    (s.tile s.ev.ctx.core.vt).halted = true ∧ s.ev.m < 256 ∧ s.ev.j = 8 ∧ s.ev.flag2 = true := by decide
theorem witness_Bridge_reads : (sFab id).bridgeLive = true ∧ (sFab id).bridge.held = [] ∧ EvArgs.zero.enables = [] := by decide

end Sys2Proof.Tests
end

