-- ==== Sys2Proof/Proofs/Storage.lean ====
section
/-! Bytes and registers read back what was written (R15, R21). -/

namespace Sys2Proof.Machine

open Sys2Proof

/-! Little-endian numbers (R15). -/

@[simp] theorem natLe_length (n x : Nat) : (natLe n x).length = n := by simp [natLe]

theorem byteOf_succ (x k : Nat) : byteOf x (k + 1) = byteOf (x / 256) k := by
  unfold byteOf
  rw [Nat.div_div_eq_div_mul, show 8 * (k + 1) = 8 + 8 * k by omega, pow_add, show 2 ^ 8 = 256 from rfl]

theorem natLe_succ (n x : Nat) : natLe (n + 1) x = byteOf x 0 :: natLe n (x / 256) := by
  simp only [natLe, List.range_succ_eq_map, List.map_cons, List.map_map]
  exact congrArg _ (List.map_congr_left fun k _ => byteOf_succ x k)

theorem leNat_natLe (n x : Nat) : leNat (natLe n x) = x % 256 ^ n := by
  induction n generalizing x with
  | zero => simp [natLe, leNat, Nat.mod_one]
  | succ n ih =>
    have h0 : (byteOf x 0).toNat = x % 256 := by simp [byteOf]
    rw [natLe_succ, leNat, ih, h0, pow_succ', Nat.mod_mul]

/-! Memory. -/

theorem State.bytes_storeBytes (s : State) (a : Nat) (l : List Byte) (w : s.memOk) : (s.storeBytes a l).bytes a l.length = l := by
  refine List.ext_getElem (by simp [State.bytes]) fun i _ hi => ?_
  simpa [State.bytes, State.byte, State.storeBytes] using memByte_memStore_same s.mem l a i hi w

theorem State.byte_storeBytes_ne (s : State) (a : Nat) (l : List Byte) {b : Nat} (h : b < a ∨ a + l.length ≤ b) (w : s.memOk) :
    (s.storeBytes a l).byte b = s.byte b := memByte_memStore_ne s.mem l a h w

theorem State.load_store (s : State) (a n x : Nat) (w : s.memOk) : (s.store a n x).load a n = x % 256 ^ n := by
  have h := s.bytes_storeBytes a (natLe n x) w
  rw [natLe_length] at h
  rw [State.load, State.store, h, leNat_natLe]

/-- Settles O9: the reset memory has no cells. -/
theorem resetMemoryCanonical : Obligations.ResetMemoryCanonical := State.reset_memWf

/-- Settles O11, from the laws of `memStore` and of register writes. -/
theorem storageReadsBack : Obligations.StorageReadsBack := by
  refine ⟨fun s a l w => ⟨⟨s.bytes_storeBytes a l w, fun b hb => s.byte_storeBytes_ne a l hb w⟩, fun n x => s.load_store a n x w⟩,
    fun s c => ⟨s.rs_zero c, s.rp_zero c, s.ws_zero c, s.wp_zero c, ?_, ?_, ?_, ?_⟩⟩
  · exact fun r x h => s.rs_ws_same c x h
  · exact fun r x h hr => s.rp_wp_same c x h hr
  · exact fun r x => (Frame.refl s c _).ws (List.mem_singleton_self r) x
  · exact fun r x => (Frame.refl s c _).wp (List.mem_singleton_self r) x

end Sys2Proof.Machine
end

