-- ==== Sys2Proof/Proofs/CanonState.lean ====
section
/-! Memory stays canonical: what it means for a state and for each kind of result, and the functions on the state that the others are made
of. Each function that gives a state has one lemma, named after it and in the order of the model's files, so that a chain of calls is proved
by the chain of their lemmas. -/

namespace Sys2Proof.Machine

open Sys2Proof

set_option autoImplicit true

/-- Memory is in its canonical form; a structure, so that no proof looks into the memory of a state. -/
structure State.Canon (s : State) : Prop where
  wf : s.memOk

/-! The changes of a state that all others are made of: any field but memory, cells dropped, bytes stored. -/

theorem State.Canon.keep {s : State} (h : s.Canon) {cur op ev ahead inputs turns free full feq poison dirty marks acts ctxs cores tiles dies panel
    featAck featSet pace edges launches controls answers nextId recs rels net sends retiring bridge attest fuses} :
    (State.mk cur op ev ahead inputs turns free s.mem full feq poison dirty marks acts ctxs cores tiles dies panel featAck featSet pace edges
      launches controls answers nextId recs rels net sends retiring bridge attest fuses).Canon := ⟨h.wf⟩

theorem State.Canon.filterMem {s : State} (h : s.Canon) {f cur op ev ahead inputs turns free full feq poison dirty marks acts ctxs cores tiles
    dies panel featAck featSet pace edges launches controls answers nextId recs rels net sends retiring bridge attest fuses} :
    (State.mk cur op ev ahead inputs turns free (s.mem.filter f) full feq poison dirty marks acts ctxs cores tiles dies panel featAck featSet
      pace edges launches controls answers nextId recs rels net sends retiring bridge attest fuses).Canon := ⟨memFilter_wf f h.wf⟩

theorem State.Canon.storeBytes {s : State} (h : s.Canon) : (s.storeBytes a l).Canon := ⟨State.storeBytes_memWf _ _ h.wf⟩

/-! Control flow over states. -/

theorem State.Canon.ite {s t : State} {p : Prop} [Decidable p] (h : s.Canon) (k : t.Canon) : (if p then s else t).Canon := by
  split <;> assumption

theorem State.Canon.foldl {α : Type} {s : State} {f : State → α → State} {l : List α} (h : s.Canon)
    (hf : ∀ t x, t.Canon → (f t x).Canon) : (l.foldl f s).Canon := by
  induction l generalizing s with
  | nil => exact h
  | cons x r ih => exact ih (hf s x h)

theorem State.Canon.of_eq {s t : State} (h : s.Canon) (e : s = t) : t.Canon := e ▸ h

/-! What a result carries: a predicate of the value of each kind of result. -/

/-- A computation that may stop leaves a value with `A`, or stops with `E`. -/
def Leaves {ε α : Type} (E : ε → Prop) (A : α → Prop) : Except ε α → Prop
  | .ok a => A a
  | .error e => E e

/-- The second of a pair has `P`. -/
def Snd {α β : Type} (P : β → Prop) : α × β → Prop
  | (_, b) => P b

/-- The value, when there is one, has `A`. -/
def Given {α : Type} (A : α → Prop) : Option α → Prop
  | some a => A a
  | none => True

/-! Memory is canonical in the state that each kind of outcome carries. -/

def Stop.Canon : Stop → Prop
  | .trap _ s => s.Canon
  | .wait _ s => s.Canon

def GStop.Canon : GStop → Prop
  | .trap _ _ _ s => s.Canon
  | .wait _ s => s.Canon

def Fetched.Canon : Fetched → Prop
  | .line _ s => s.Canon
  | .fault _ s => s.Canon
  | .wait _ s => s.Canon

def Entered.Canon : Entered → Prop
  | .at_ s => s.Canon
  | .trap _ _ s => s.Canon
  | .wait _ s => s.Canon

def TableRead.Canon : TableRead → Prop
  | .ok _ s => s.Canon
  | .failed s => s.Canon
  | .absent s => s.Canon

def RowEnd.Canon : RowEnd → Prop
  | .ok s => s.Canon
  | .absent _ s => s.Canon
  | .failed _ s => s.Canon

def EpRead.Canon : EpRead → Prop
  | .ok _ s => s.Canon
  | .failed _ s => s.Canon
  | .absent _ _ s => s.Canon

def EpDest.Canon : EpDest → Prop
  | .ok _ s => s.Canon
  | .absent _ _ s => s.Canon

def Prep.Canon : Prep → Prop
  | .run _ s => s.Canon
  | .report _ s => s.Canon
  | .done s => s.Canon

def OutOk : Out → Prop
  | .next s => s.Canon
  | _ => True

/-- An effect with a result and a next state. -/
abbrev Tries {α : Type} (r : Except Stop (α × State)) : Prop := Leaves Stop.Canon (Snd State.Canon) r
/-- A check, or a value read; only a stop carries a state. -/
abbrev Checks {α : Type} (r : Except Stop α) : Prop := Leaves Stop.Canon (fun _ => True) r

/-! How the predicates pass through the operations on results. -/

section

variable {ε α β : Type} {E : ε → Prop} {A : α → Prop} {B : β → Prop} {x y : Except ε α}

theorem Leaves.ok {a : α} (h : Leaves E A x) (e : x = .ok a) : A a := by rw [e] at h; exact h
theorem Leaves.error {a : ε} (h : Leaves E A x) (e : x = .error a) : E a := by rw [e] at h; exact h
theorem Leaves.trivial (x : Except ε α) : Leaves (fun _ => True) (fun _ => True) x := by
  cases x <;> exact True.intro

theorem Leaves.ite {p : Prop} [Decidable p] (h : Leaves E A x) (k : Leaves E A y) : Leaves E A (if p then x else y) := by
  split <;> assumption

theorem Leaves.bind {f : α → Except ε β} (h : Leaves E A x) (k : ∀ a, A a → Leaves E B (f a)) : Leaves E B (x >>= f) := by
  cases x with
  | ok a => exact k a h
  | error e => exact h

theorem Leaves.guard {p : Prop} [Decidable p] {x : Except ε Unit} {k : Unit → Except ε β} (h : Leaves E (fun _ => True) x)
    (hk : ∀ u, Leaves E B (k u)) : Leaves E B (if p then x >>= k else k ()) := by
  split
  · exact h.bind fun u _ => hk u
  · exact hk ()

theorem Given.intro {a : α} (h : A a) : Given A (some a) := h
theorem Given.none : Given A none := True.intro
theorem Given.some {o : Option α} {a : α} (h : Given A o) (e : o = some a) : A a := by rw [e] at h; exact h
theorem Given.bind {o : Option α} {f : α → Option β} (h : Given A o) (hf : ∀ a, A a → Given B (f a)) : Given B (o.bind f) := by
  cases o with
  | none => exact Given.none
  | some a => exact hf a h

theorem Given.map {o : Option α} {f : α → β} (hf : ∀ a, o = Option.some a → B (f a)) : Given B (o.map f) := by
  cases o with
  | none => exact Given.none
  | some a => exact hf a rfl

theorem Given.findSome {l : List α} {f : α → Option β} (hf : ∀ a, Given B (f a)) : Given B (l.findSome? f) := by
  induction l with
  | nil => exact Given.none
  | cons a r ih =>
    rw [List.findSome?_cons]
    split
    · next e => exact (hf a).some e
    · exact ih

theorem Leaves.map {f : α → β} (h : Leaves E A x) (hf : ∀ a, A a → B (f a)) : Leaves E B (x.map f) := by
  cases x with
  | ok a => exact hf a h
  | error e => exact h

theorem Given.ite {p : Prop} [Decidable p] {x y : Option α} (h : Given A x) (k : Given A y) : Given A (if p then x else y) := by
  split <;> assumption

end
theorem Snd.mk {α β : Type} {P : β → Prop} {a : α} {b : β} (h : P b) : Snd P (a, b) := h
theorem Snd.snd {α β : Type} {P : β → Prop} {x : α × β} (h : Snd P x) : P x.2 := h
theorem Snd.of_eq {α β : Type} {P : β → Prop} {x : α × β} {a : α} {b : β} (h : Snd P x) (e : x = (a, b)) : P b := by rw [e] at h; exact h
theorem Snd.ite {α β : Type} {P : β → Prop} {x y : α × β} {p : Prop} [Decidable p] (h : Snd P x) (k : Snd P y) :
    Snd P (if p then x else y) := by
  split <;> assumption

theorem Stop.Canon.of_eq {x y : Stop} (h : x.Canon) (e : x = y) : y.Canon := e ▸ h
theorem Fetched.Canon.of_eq {x y : Fetched} (h : x.Canon) (e : x = y) : y.Canon := e ▸ h
theorem Entered.Canon.of_eq {x y : Entered} (h : x.Canon) (e : x = y) : y.Canon := e ▸ h
theorem TableRead.Canon.of_eq {x y : TableRead} (h : x.Canon) (e : x = y) : y.Canon := e ▸ h
theorem RowEnd.Canon.of_eq {x y : RowEnd} (h : x.Canon) (e : x = y) : y.Canon := e ▸ h
theorem RowEnd.Canon.ite {x y : RowEnd} {p : Prop} [Decidable p] (h : x.Canon) (k : y.Canon) : (if p then x else y).Canon := by
  split <;> assumption

theorem Prep.Canon.of_eq {x y : Prep} (h : x.Canon) (e : x = y) : y.Canon := e ▸ h
theorem EpRead.Canon.of_eq {x y : EpRead} (h : x.Canon) (e : x = y) : y.Canon := e ▸ h
theorem EpDest.Canon.of_eq {x y : EpDest} (h : x.Canon) (e : x = y) : y.Canon := e ▸ h

variable {s : State}

/-! Machine/Base. -/

theorem State.Canon.setCtx (h : s.Canon) : (s.setCtx c x).Canon := h.keep
theorem State.Canon.modCtx {f : Ctx → Ctx} (h : s.Canon) : (s.modCtx c f).Canon := h.setCtx
theorem State.Canon.setCore (h : s.Canon) : (s.setCore c x).Canon := h.keep
theorem State.Canon.modCore {f : Core → Core} (h : s.Canon) : (s.modCore c f).Canon := h.setCore
theorem State.Canon.setTile (h : s.Canon) : (s.setTile vt x).Canon := h.keep
theorem State.Canon.modTile {f : Tile → Tile} (h : s.Canon) : (s.modTile vt f).Canon := h.setTile
theorem State.Canon.modLaunch {id : ℕ} {f : Launch → Launch} (h : s.Canon) : (s.modLaunch id f).Canon := h.keep
theorem State.Canon.useFabric {id : ℕ} (h : s.Canon) : (s.useFabric id).Canon := h.modLaunch
theorem State.Canon.setDie (h : s.Canon) : (s.setDie vd x).Canon := h.keep
theorem State.Canon.modDie {f : Die → Die} (h : s.Canon) : (s.modDie vd f).Canon := h.setDie
theorem State.Canon.ws (h : s.Canon) : (s.ws c r x).Canon := h.ite h.modCtx
theorem State.Canon.wp (h : s.Canon) : (s.wp c r x).Canon := h.ite h.modCtx
theorem State.Canon.wv (h : s.Canon) : (s.wv c r x).Canon := h.modCtx
theorem State.Canon.wa (h : s.Canon) : (s.wa c r x).Canon := h.modCtx
theorem State.Canon.wg (h : s.Canon) : (s.wg c r x).Canon := h.modCtx
theorem State.Canon.raise (h : s.Canon) : (s.raise c f).Canon := h.modCtx
theorem State.Canon.store (h : s.Canon) : (s.store a n n1).Canon := h.storeBytes
theorem State.Canon.setFull (h : s.Canon) : (s.setFull w b).Canon := h.keep
theorem State.Canon.draw (h : s.Canon) : Snd State.Canon s.draw := h.keep
theorem State.Canon.trapIf (h : s.Canon) : Checks (trapIf b t s) := Leaves.ite h trivial

/-! Machine/Translate. -/

theorem State.Canon.record (h : s.Canon) : Snd State.Canon (s.record vd r) := by
  unfold State.record
  split
  · exact h.storeBytes
  · exact h.store

theorem State.Canon.walk (h : s.Canon) : Leaves (fun _ => True) (Snd State.Canon) (s.walk vd va w) := by
  unfold State.walk
  extract_lets
  refine (Leaves.trivial _).bind fun _ _ => ?_
  exact Leaves.ite trivial (Leaves.ite trivial (h.ite h.store))

theorem State.Canon.translate (h : s.Canon) : Leaves (fun _ => True) (Snd (Snd State.Canon)) (s.translate ifc vd va w) := by
  unfold State.translate
  extract_lets
  split
  · exact h
  · exact h.walk.bind (fun | (_, s1), (h1 : s1.Canon) => h1.modTile)

/-! Machine/Order. -/

theorem State.Canon.modHb {f : Hb → Hb} (h : s.Canon) : (s.modHb c f).Canon := h.modCtx
theorem State.Canon.acquireInfo (h : s.Canon) : (s.acquireInfo c i).Canon := h.modHb
theorem State.Canon.beginAccess (h : s.Canon) : (s.beginAccess c row o took).Canon := h.ite h.modHb
theorem State.Canon.endAccess (h : s.Canon) : (s.endAccess c row o off).Canon := h.ite (h.modHb.ite h.modHb)
theorem State.Canon.trimRels (h : s.Canon) : (s.trimRels lo hi).Canon := h.keep
theorem State.Canon.place (h : s.Canon) : Snd State.Canon (s.place c ea tag lo hi k plain o pre own) := by
  unfold State.place
  extract_lets _ _ _ s1 s2
  have h1 : s1.Canon := h.keep
  have h2 : s2.Canon := h1.trimRels.ite h1
  exact h2.keep.ite h2

theorem State.Canon.learn {met : List Released} (h : s.Canon) : (s.learn c reads acq met i).Canon := h.modHb
theorem State.Canon.access (h : s.Canon) : (s.access c ea lo hi k plain o).Canon := by
  unfold State.access
  split
  · exact h.trimRels.ite h
  · exact (((h.keep.trimRels.ite h.keep).keep).ite (h.keep.trimRels.ite h.keep)).learn

theorem State.Canon.fenceOrder (h : s.Canon) : (s.fenceOrder c fn scope).Canon := by
  unfold State.fenceOrder
  split
  · exact h
  · extract_lets
    split
    · exact h.acquireInfo.modHb
    · exact h.acquireInfo
    · exact h.modHb

theorem State.Canon.crossOrder (h : s.Canon) : (s.crossOrder c p q).Canon := h.ite ((h.acquireInfo.ite h).modHb)
theorem State.Canon.reinCarry {core : CoreId} (h : s.Canon) : (s.reinCarry core n i).Canon := h.ite h.modCore
theorem State.Canon.reinClear {core : CoreId} (h : s.Canon) : (s.reinClear core n).Canon := h.modCore
theorem State.Canon.reinSignal (h : s.Canon) : (s.reinSignal c n).Canon := h.ite h.reinCarry
theorem State.Canon.newInterval (h : s.Canon) : (s.newInterval c).Canon := h.keep
theorem State.Canon.reinRelease {core : CoreId} (h : s.Canon) : (s.reinRelease core n i).Canon := h.ite h.modCore
theorem State.Canon.reinTaken (h : s.Canon) : (s.reinTaken c n).Canon := h.ite (h.acquireInfo.newInterval.modCtx.ite h.acquireInfo)
theorem State.Canon.reinWait (h : s.Canon) : (s.reinWait c n).Canon := h.ite h.acquireInfo.reinTaken
theorem State.Canon.confCheck (h : s.Canon) : Checks (s.confCheck c ea lo hi write) := by
  unfold State.confCheck
  split
  · exact trivial
  · extract_lets
    split
    · exact h.record.snd
    · exact Leaves.ite h trivial

theorem State.Canon.confHold (h : s.Canon) : (s.confHold c lo hi write).Canon := h.ite h.keep

/-! Machine/Blocks. -/

theorem State.Canon.rearm (h : s.Canon) : (s.rearm a l).Canon := (h.foldl (fun _ _ h1 => h1.modDie.ite h1)).ite h
theorem State.Canon.noteActs (h : s.Canon) : (s.noteActs a n).Canon := h.keep.ite h
theorem State.Canon.setPower (h : s.Canon) : (s.setPower vd lo w n).Canon := h.store
theorem State.Canon.rousePath (h : s.Canon) : (s.rousePath dst a a1).Canon := by
  induction a generalizing s a1 with
  | zero => exact h
  | succ n ih =>
    unfold State.rousePath
    split
    · exact h
    · split
      · exact h
      · exact ih (h.setPower.ite h)

theorem State.Canon.markDirty (h : s.Canon) : (s.markDirty a n).Canon := h.ite (h.foldl (fun _ _ h1 => h1.ite h1.keep))
theorem State.Canon.writeBack {lines : ℕ → Bool} (h : s.Canon) : (s.writeBack lines).Canon := h.keep
theorem State.Canon.dropLine (h : s.Canon) : (s.dropLine n).Canon := by
  unfold State.dropLine
  split
  · exact h
  · exact (h.keep.ite h.keep.storeBytes).keep

theorem State.Canon.setSite (h : s.Canon) : (s.setSite vd k lo w n).Canon := h.store
theorem State.Canon.uncover (h : s.Canon) : (s.uncover vd k).Canon := h.setSite.modDie
theorem State.Canon.markLines (h : s.Canon) : (s.markLines a n).Canon := h.ite h.keep
theorem State.Canon.poke (h : s.Canon) : (s.poke a l).Canon := h.keep.rearm.noteActs.markDirty.markLines.storeBytes
theorem State.Canon.inject (h : s.Canon) : (s.inject src dst cls pl).Canon := h.keep.useFabric
theorem State.Canon.post (h : s.Canon) : (s.post c buffered tag m).Canon := h.inject.ite h.keep.inject
theorem State.Canon.sendAll (h : s.Canon) : (s.sendAll c l).Canon := by
  induction l generalizing s with
  | nil => exact h
  | cons x r ih => exact ih ((h.ite h.modCore).post)

theorem State.Canon.commit (h : s.Canon) : (s.commit c).Canon := h.ite h.setCtx.sendAll
theorem State.Canon.logWords (h : s.Canon) : (s.logWords c l).Canon := by
  induction l generalizing s with
  | nil => exact h
  | cons x r ih => exact (ih h).ite (ih h.setCtx)

theorem State.Canon.commitOthers (h : s.Canon) : (s.commitOthers c a n l).Canon := by
  induction l generalizing s with
  | nil => exact h
  | cons x r ih => exact ih (h.commit.ite h)

theorem State.Canon.touch (h : s.Canon) : (s.touch c a n).Canon := h.commitOthers.ite h
theorem State.Canon.undoLog (h : s.Canon) : (s.undoLog c a n plain).Canon := h.touch.ite (h.touch.logWords.ite h.touch.commit)
theorem State.Canon.unwind (h : s.Canon) : (s.unwind l).Canon := by
  induction l generalizing s with
  | nil => exact h
  | cons x r ih => exact ih h.storeBytes

theorem State.Canon.bump (h : s.Canon) : (s.bump vd o).Canon := h.store
theorem State.Canon.wakeFrom {core : CoreId} (h : s.Canon) : (s.wakeFrom core l).Canon := by
  induction l generalizing s with
  | nil => exact h
  | cons x r ih =>
    unfold State.wakeFrom
    refine ih ?_
    split
    · exact h.modCtx
    · exact h

theorem State.Canon.wakeCore {core : CoreId} (h : s.Canon) : (s.wakeCore core).Canon := h.wakeFrom
theorem State.Canon.rollback (h : s.Canon) : (s.rollback c).Canon := by
  unfold State.rollback
  extract_lets _ _ _ _ s1
  have h1 : s1.Canon := h.unwind.keep.setCtx.bump.wakeCore
  split
  · exact h1
  · exact h1.modCore

/-! Machine/Access. -/

theorem State.Canon.lift (h : s.Canon) : Checks (s.lift a) := by
  unfold State.lift
  split
  · exact trivial
  · exact h

theorem State.Canon.transFault {home : ℕ} (h : s.Canon) : Snd State.Canon (s.transFault c ea home ifc cause) := by
  unfold State.transFault
  split
  · extract_lets
    dsimp -zeta only
    exact h.record.snd
  · exact h

theorem State.Canon.coreAddr0 (h : s.Canon) : Tries (s.coreAddr0 c q) := by
  unfold State.coreAddr0
  refine h.lift.bind fun _ _ => ?_
  refine h.lift.bind fun _ _ => ?_
  extract_lets
  refine h.trapIf.bind fun _ _ => ?_
  refine h.trapIf.bind fun _ _ => ?_
  refine h.trapIf.bind fun _ _ => ?_
  refine h.trapIf.bind fun _ _ => ?_
  refine h.trapIf.bind fun _ _ => ?_
  refine h.trapIf.bind fun _ _ => ?_
  refine Leaves.bind (A := (Snd State.Canon)) ?_ ?_
  · split
    · split
      · next e1 => exact h.translate.ok e1
      · dsimp -zeta only
        exact h.transFault.snd
    · exact h
  · rintro ⟨a4, s2⟩ (h2 : s2.Canon)
    dsimp -zeta only
    refine Leaves.guard h2.confCheck fun _ => ?_
    refine Leaves.guard h2 fun _ => ?_
    refine Leaves.guard h2 fun _ => ?_
    exact h2

theorem State.Canon.coreAddr (h : s.Canon) : Tries (s.coreAddr c q) :=
  h.coreAddr0.bind (fun | (_, s1), (h1 : s1.Canon) => h1.trapIf.bind (fun _ _ => h1))

theorem State.Canon.checkEach (h : s.Canon) : Tries (s.checkEach c l) := by
  induction l generalizing s with
  | nil => exact h
  | cons x r ih =>
    unfold State.checkEach
    refine h.coreAddr.bind ?_
    rintro ⟨a3, s1⟩ (h1 : s1.Canon)
    exact Leaves.bind (A := (Snd State.Canon)) (ih (h1.confHold.ite h1)) (fun | (_, s2), (h2 : s2.Canon) => h2)

theorem Stop.Canon.withRecs {a : Stop} (h : a.Canon) : (a.withRecs l).Canon := by
  cases a with
  | trap t s => exact State.Canon.keep (s := s) h
  | wait w s => exact State.Canon.keep (s := s) h

theorem State.Canon.holding {a : Except Stop (α × State)} (g : Tries a) : Tries (s.holding a) := by
  cases a with
  | ok x => exact State.Canon.keep (s := x.2) g
  | error e => exact Stop.Canon.withRecs g

theorem State.Canon.checkAll (h : s.Canon) : Tries (s.checkAll c l) := State.Canon.holding h.checkEach
theorem Stop.Canon.valAt {a : Stop} (h : a.Canon) : (a.valAt ea).Canon := by
  cases a with
  | trap t s => exact h
  | wait w s => exact h

theorem State.Canon.checkParts (h : s.Canon) : Tries (s.checkParts c q) := by
  unfold State.checkParts
  split
  · next e1 => exact h.checkEach.ok e1
  · next e2 => exact (h.checkEach.error e2).valAt

theorem State.Canon.checkWhole (h : s.Canon) : Tries (s.checkWhole c q) := h.lift.bind (fun _ _ => State.Canon.holding h.checkParts)
theorem State.Canon.readAt (h : s.Canon) : Snd State.Canon (s.readAt c ea a n plain o) := h.touch.access
theorem State.Canon.readSegs (h : s.Canon) : Snd State.Canon (s.readSegs c o l) := by
  induction l generalizing s with
  | nil => exact h
  | cons x r ih => exact (ih h.touch.access).snd

theorem State.Canon.noteData (h : s.Canon) : (s.noteData c ea l).Canon := h.ite h.modCtx
theorem State.Canon.noteWrite (h : s.Canon) : (s.noteWrite c ea a l).Canon := by
  unfold State.noteWrite
  split
  · exact h
  · exact h.noteData.modCore

theorem State.Canon.writeAt (h : s.Canon) : (s.writeAt c ea a l plain o).Canon := h.undoLog.access.noteWrite.poke
theorem State.Canon.writeSegs (h : s.Canon) : (s.writeSegs c o l l1).Canon := by
  induction l generalizing s l1 with
  | nil => exact h
  | cons x r ih => exact ih h.writeAt

theorem State.Canon.updateAt {f : ℕ → ℕ} (h : s.Canon) : Snd State.Canon (s.updateAt c ea a n o f) := h.undoLog.access.noteWrite.poke
theorem State.Canon.dropGrants (h : s.Canon) : (s.dropGrants c).Canon := h.modDie.ite h
theorem State.Canon.gwRead (h : s.Canon) : Tries (s.gwRead c ea p n) := by
  unfold State.gwRead
  extract_lets
  split
  · exact h
  · exact Leaves.ite h h.modDie

theorem State.Canon.loadBytes (h : s.Canon) : Tries (s.loadBytes c q) := by
  unfold State.loadBytes
  refine h.lift.bind fun _ _ => ?_
  refine h.lift.bind fun _ _ => ?_
  extract_lets
  split
  · refine h.trapIf.bind fun _ _ => ?_
    refine h.trapIf.bind fun _ _ => ?_
    exact h.trapIf.bind (fun _ _ => h.trapIf.bind (fun _ _ => Leaves.ite h h))
  · split
    · refine h.trapIf.bind fun _ _ => ?_
      refine h.trapIf.bind fun _ _ => ?_
      exact h.trapIf.bind (fun _ _ => h.trapIf.bind (fun _ _ => Leaves.ite h h.gwRead))
    · exact h.checkWhole.bind (fun | (_, s1), (h1 : s1.Canon) => h1.readSegs)

end Sys2Proof.Machine
end

