-- ==== Sys2Proof/Proofs/CanonIssue.lean ====
section
/-! Issuing, completing, traps and upcalls, and the control rows keep memory canonical. -/

namespace Sys2Proof.Machine

open Sys2Proof

set_option autoImplicit true

variable {s : State}

/-! Machine/Ops. -/

theorem State.Canon.doubleTrap (h : s.Canon) : (s.doubleTrap c pc t).Canon := h.setCtx.record.snd
theorem State.Canon.pushFrame (h : s.Canon) : Given State.Canon (s.pushFrame c l) := by
  induction l generalizing s with
  | nil => exact h
  | cons x r ih =>
    unfold State.pushFrame
    extract_lets
    split
    · next e1 => exact ih (h.coreAddr.ok e1).writeAt
    · exact Given.none

theorem State.Canon.enterTrap (h : s.Canon) : (s.enterTrap c pc imprecise tag t).Canon := by
  unfold State.enterTrap
  exact h.modCtx

theorem State.Canon.enterUpcall (h : s.Canon) : (s.enterUpcall c pc tag t).Canon := by
  unfold State.enterUpcall
  exact h.modCtx

theorem State.Canon.takeTrapTag (h : s.Canon) : (s.takeTrapTag c pc imprecise upcalls tag t).Canon := by
  unfold State.takeTrapTag
  extract_lets s1 s2
  have h1 : s1.Canon := h.keep.dropGrants
  have h2 : s2.Canon := h1.bump.ite h1
  split
  · exact h2.enterUpcall
  · split
    · exact h2.doubleTrap
    · split
      · split
        · next e3 => exact (h2.pushFrame.some e3).ws.enterTrap
        · exact h2.doubleTrap
      · exact h2.enterTrap

theorem State.Canon.takeTrap (h : s.Canon) : (s.takeTrap c pc imprecise t).Canon := h.takeTrapTag
theorem State.Canon.returnTrap (h : s.Canon) : (s.returnTrap c).Canon := h.modCtx
theorem State.Canon.returnUpcall (h : s.Canon) : (s.returnUpcall c).Canon := h.modCtx
theorem State.Canon.signal {core : CoreId} (h : s.Canon) : (s.signal core n inc err).Canon := h.modCore.ite h.modCore.wakeCore
theorem State.Canon.signalLocal (h : s.Canon) : (s.signalLocal c a).Canon := by
  unfold State.signalLocal
  split
  · exact h
  · exact h.commit.reinSignal.signal

theorem State.Canon.fingerAdd (h : s.Canon) : (s.fingerAdd c pc row o off ends sig).Canon := h.ite h.modCtx.modCore
theorem State.Canon.complete (h : s.Canon) : (s.complete c row o off ctl sig).Canon := by
  unfold State.complete
  extract_lets _ _ s1 s2 s3 s4
  have h1 : s1.Canon := h.endAccess
  have h2 : s2.Canon := h1.ite h1.modCtx
  have h3 : s3.Canon := h2.ite h2.fingerAdd
  have h4 : s4.Canon := h3.commit.ite h3
  exact h4.ite h4.signalLocal.signalLocal

theorem State.Canon.finishWaiting (h : s.Canon) : (s.finishWaiting c).Canon := by
  unfold State.finishWaiting
  extract_lets
  split
  · exact h.modCtx.modCtx
  · split
    · exact h.complete
    · exact h

theorem State.Canon.answerD (h : s.Canon) : (s.answerD c x).Canon := by
  unfold State.answerD
  split
  · exact h.ws.finishWaiting
  · exact h

theorem State.Canon.rouse (h : s.Canon) : (s.rouse c).Canon := by
  unfold State.rouse
  extract_lets s1
  have h1 : s1.Canon := h.modCtx
  split
  · exact h1.modCtx
  · exact h1

theorem State.Canon.freeHelper {keep : Bool} (h : s.Canon) : (s.freeHelper c keep).Canon := h.setCtx.keep.dropGrants.wakeCore
theorem State.Canon.clearE (h : s.Canon) : (s.clearE c n).Canon := h.ite h.modCore
theorem State.Canon.dropErr (h : s.Canon) : (s.dropErr c).Canon := by
  unfold State.dropErr
  split
  · exact h
  · extract_lets s1
    have h1 : s1.Canon := h.modCtx
    split
    · exact h1.clearE
    · exact h1

theorem State.Canon.freeFollowers (h : s.Canon) : (s.freeFollowers lead l).Canon := by
  induction l generalizing s with
  | nil => exact h.modCtx
  | cons x r ih => exact ih (h.ite h.freeHelper)

theorem State.Canon.memberRun {body : Body} {s0 : State} (hf : ∀ x1 x2, x2.Canon → Tries (body x1 x2)) (g3 : s.Canon) :
    Tries (memberRun body row o took s0 c s) := Leaves.ite g3 (hf _ _ g3.beginAccess)

theorem State.Canon.memberStep {body : Body} {s0 : State} (hf : ∀ x1 x2, x2.Canon → Tries (body x1 x2)) (g3 : s.Canon) :
    Tries (memberStep body row o s0 c s) := State.Canon.memberRun hf g3

theorem State.Canon.firstTrap {body : Body} (hf : ∀ x1 x2, x2.Canon → Tries (body x1 x2)) (g2 : s.Canon) :
    Given (Snd (Snd (Snd State.Canon))) (firstTrap body row o s a l) := by
  induction l generalizing a with
  | nil => exact Given.none
  | cons x r ih =>
    unfold Machine.firstTrap
    split
    · next e3 => exact (State.Canon.memberStep hf g2).error e3
    · exact ih

theorem State.Canon.gangRun {body : Body} {s0 : State} (hf : ∀ x1 x2, x2.Canon → Tries (body x1 x2)) (g3 : s.Canon) :
    Leaves GStop.Canon (Snd State.Canon) (gangRun body row o s0 a l s) := by
  induction l generalizing a s with
  | nil => exact g3
  | cons x r ih =>
    unfold Machine.gangRun
    split
    · exact g3
    · next s3 e4 =>
        have h3 : s3.Canon := (State.Canon.memberStep hf g3).error e4
        split
        · split
          · next e5 => exact (ih h3).ok e5
          · next e6 => exact (ih h3).error e6
        · exact g3
    · next s7 e8 =>
        have h7 : s7.Canon := (State.Canon.memberStep hf g3).ok e8
        split
        · next e9 => exact (ih h7).ok e9
        · next e10 => exact (ih h7).error e10

theorem State.Canon.mark {s0 : State} {a : Part} (g2 : s.Canon) : (a.mark s0 s c).Canon := by
  unfold Part.mark
  split
  · exact g2
  · exact g2.modCtx
  · exact g2.modCtx
  · exact g2.modCtx

theorem State.Canon.markParts {s0 : State} (g2 : s.Canon) : (s0.markParts s l).Canon := by
  induction l generalizing s with
  | nil => exact g2
  | cons x r ih => exact ih g2.mark

theorem State.Canon.gangHold {body : Body} {s0 : State} (hf : ∀ x1 x2, x2.Canon → Tries (body x1 x2)) (g3 : s.Canon) :
    (gangHold body row o s0 l s).Canon := by
  induction l generalizing s with
  | nil => exact g3
  | cons x r ih =>
    unfold Machine.gangHold
    split
    · next e3 => exact ih (g3.ite ((State.Canon.memberStep hf g3).error e3).modCtx)
    · exact ih g3

theorem State.Canon.gangConflict {body : Body} {s1 : State} (hf : ∀ x1 x2, x2.Canon → Tries (body x1 x2)) (g3 : s1.Canon) :
    (gangConflict body row o m c t s s1).Canon := by
  unfold Machine.gangConflict
  split
  · next e3 => exact ((State.Canon.memberStep hf g3.keep).error e3).keep
  · exact g3

theorem State.Canon.runMembers {body : Body} (hf : ∀ x1 x2, x2.Canon → Tries (body x1 x2)) (g2 : s.Canon) :
    Leaves GStop.Canon (Snd State.Canon) (runMembers body row o ms s) := by
  unfold Machine.runMembers
  split
  · split
    · next e3 => exact (State.Canon.memberStep hf g2).error e3
    · next e4 => exact (State.Canon.memberStep hf g2).error e4
    · next e5 => exact (State.Canon.memberStep hf g2).ok e5
  · split
    · split
      · exact g2
      · exact g2
    · split
      · next e6 => exact (State.Canon.firstTrap hf g2).some e6
      · split
        · exact State.Canon.gangConflict hf g2
        · exact State.Canon.gangHold hf g2
        · next s7 e8 =>
            have h7 : s7.Canon := (State.Canon.gangRun hf g2).ok e8
            split
            · exact (h7.foldl (fun _ _ h9 => h9.modCtx)).markParts
            · exact h7

theorem State.Canon.completeAll {s0 : State} (g2 : s.Canon) : (completeAll s0 s row o sig l).Canon := by
  induction l generalizing s with
  | nil => exact g2
  | cons x r ih => exact ih g2.complete

theorem State.Canon.gangTrap {members : List CtxId} (h : s.Canon) : (s.gangTrap lead members m who t pc late).Canon := by
  unfold State.gangTrap
  extract_lets _ _ _ _ s1
  have h1 : s1.Canon := (h.dropErr.ite h).freeFollowers
  exact h1.takeTrapTag.ite h1.takeTrapTag

theorem State.Canon.deliver {members : List CtxId} (h : s.Canon) : (s.deliver c members m who t).Canon := by
  unfold State.deliver
  extract_lets
  split
  · exact h.gangTrap.modCtx
  · exact h.dropGrants.rollback.ite (h.dropErr.takeTrapTag.modCtx.ite h.takeTrap.modCtx)

theorem State.Canon.waitAt (h : s.Canon) : (s.waitAt c w).Canon := h.modCtx
theorem State.Canon.deliverOr {members : List CtxId} (h : s.Canon) : (s.deliverOr c members m who t).Canon := by
  unfold State.deliverOr
  split
  · exact h.waitAt
  · exact h.deliver

theorem State.Canon.syncTaken (h : s.Canon) : (s.syncTaken o l).Canon := by
  induction l generalizing s with
  | nil => exact h
  | cons x r ih =>
    unfold State.syncTaken
    split
    · exact h
    · exact ih h.reinTaken

theorem State.Canon.held (h : s.Canon) : Given State.Canon (s.held row o c ms) := by
  unfold State.held
  split
  · exact h.deliverOr
  · split
    · exact h.waitAt.waitAt
    · exact Given.ite (Given.intro h.waitAt) Given.none

theorem State.Canon.issue {body : Body} (hf : ∀ x1 x2, x2.Canon → Tries (body x1 x2)) (g2 : s.Canon) : (issue row body s).Canon := by
  unfold Machine.issue
  extract_lets _ _ _ s3
  have h3 : s3.Canon := g2.syncTaken
  split
  · next e4 => exact (Given.ite Given.none g2.held).some e4
  · split
    · next e5 => exact ((State.Canon.runMembers hf h3).ok e5).completeAll
    · next e6 => exact ((State.Canon.runMembers hf h3).error e6).waitAt
    · next e7 => exact h3.deliverOr.ite ((State.Canon.runMembers hf h3).error e7).deliver

theorem State.Canon.takeLine {place : Option ℕ} {bytes : List Byte} {poisoned : Bool} (h : s.Canon) :
    (s.takeLine c ea place bytes poisoned).Canon := by
  unfold State.takeLine
  extract_lets
  split
  · exact h
  · split
    · exact h
    · exact h.modCore

theorem State.Canon.fetchLine (h : s.Canon) : (s.fetchLine c base).Canon := by
  unfold State.fetchLine
  extract_lets
  split
  · exact h
  · split
    · split
      · exact h
      · split
        · exact h
        · split
          · exact h
          · exact h.modDie.takeLine
    · split
      · exact h
      · split
        · exact h
        · split
          · exact h
          · split
            · split
              · next e1 => exact (h.translate.ok e1).takeLine
              · dsimp -zeta only
                exact h.transFault.snd
            · exact h.takeLine

theorem State.Canon.stand (h : s.Canon) : (s.stand c pc line).Canon := h.modCtx
theorem State.Canon.lineAt (h : s.Canon) : (s.lineAt c base).Canon := by
  unfold State.lineAt
  split
  · exact h
  · exact h.fetchLine

theorem State.Canon.enterSecond (h : s.Canon) : (s.enterSecond c pc).Canon := by
  unfold State.enterSecond
  split
  · next e1 => exact (h.lineAt.of_eq e1).modCtx
  · next e2 => exact h.lineAt.of_eq e2
  · next s3 e4 =>
      have h3 : s3.Canon := h.lineAt.of_eq e4
      split
      · split
        · exact h3
        · exact h3.stand
      · split
        · exact h3
        · exact h3.stand

theorem State.Canon.enterLine (h : s.Canon) : (s.enterLine c).Canon := by
  unfold State.enterLine
  extract_lets
  split
  · exact h
  · split
    · exact h.enterSecond
    · split
      · exact h
      · split
        · next e1 => exact h.lineAt.of_eq e1
        · next e2 => exact h.lineAt.of_eq e2
        · next s3 e4 =>
            have h3 : s3.Canon := h.lineAt.of_eq e4
            split
            · exact h3.enterSecond
            · split
              · exact h3
              · exact h3.stand

/-! Machine/Operands. -/

theorem State.Canon.put {e : Env} (h : s.Canon) : Tries (e.put s x) := h.ws
theorem State.Canon.putP {e : Env} (h : s.Canon) : Tries (e.putP s x) := h.wp
theorem State.Canon.bodyAB {f : Word → Word → Word} (h : s.Canon) : Tries (bodyAB f e s) := h.put
theorem State.Canon.bodyA {f : Word → Word} (h : s.Canon) : Tries (bodyA f e s) := h.put
theorem State.Canon.bodyDAB {f : Word → Word → Word → Word} (h : s.Canon) : Tries (bodyDAB f e s) := h.put
theorem State.Canon.bodyCmp {f : Word → Word → Bool} (h : s.Canon) : Tries (bodyCmp f e s) := h.putP
theorem State.Canon.trap (h : s.Canon) {e : Env} {A : α → Prop} : Leaves Stop.Canon A (e.trap s c v) := h
theorem State.Canon.bodyNop (h : s.Canon) : Tries (bodyNop e s) := h
theorem State.Canon.relWait {e : Env} (h : s.Canon) : Checks (e.relWait s scope) := Leaves.ite h trivial
theorem State.Canon.noGang {e : Env} (h : s.Canon) : Checks (e.noGang s) := h.trapIf

/-! Machine/Control. -/

theorem State.Canon.entered (h : s.Canon) : Given State.Canon (s.entered c) := by
  unfold State.entered
  split
  · exact h
  · split
    · next e1 => exact h.enterLine.of_eq e1
    · exact Given.none

theorem State.Canon.pruneYields (h : s.Canon) : s.pruneYields.Canon := h.ite h.keep
theorem State.Canon.target {e : Env} (h : s.Canon) : Checks (e.target s) := by
  unfold Env.target
  split
  · exact trivial
  · exact h.trap

theorem State.Canon.bodyBr (h : s.Canon) : Tries (bodyBr e s) := h.target.bind (fun _ _ => h)
theorem State.Canon.bodyBrp (h : s.Canon) : Tries (bodyBrp cc e s) := h.target.bind (fun _ _ => h)
theorem State.Canon.link {e : Env} (h : s.Canon) : Checks (e.link s) := by
  unfold Env.link
  extract_lets
  split
  · exact trivial
  · split
    · exact trivial
    · exact h.trap

theorem State.Canon.bodyJal (h : s.Canon) : Tries (bodyJal e s) := h.target.bind (fun _ _ => h.link.bind (fun _ _ => h.ws))
theorem State.Canon.bodyJalr (h : s.Canon) : Tries (bodyJalr e s) := by
  unfold Machine.bodyJalr
  extract_lets
  refine Leaves.bind (A := (fun _ => True)) ?_ ?_
  · split
    · exact Leaves.ite trivial h.trap
    · split
      · exact trivial
      · exact h.trap
  · intro _ _
    exact h.link.bind (fun _ _ => h.ws)

theorem State.Canon.bodyLoop (h : s.Canon) : Tries (bodyLoop e s) := h.target.bind (fun _ _ => h.modCtx)
theorem State.Canon.fingerBase (h : s.Canon) : (s.fingerBase c).Canon := h.modCore.ite h
theorem State.Canon.startHelper (h : s.Canon) : (s.startHelper c x).Canon := by
  unfold State.startHelper
  split
  · exact h
  · exact h.modCore.setCtx.fingerBase

theorem State.Canon.unreserve (h : s.Canon) : (s.unreserve lead).Canon := by
  unfold State.unreserve
  refine h.foldl ?_
  intro x3 x4 h1
  extract_lets
  split
  · exact h1.modCtx.wakeCore.ite h1
  · exact h1

theorem State.Canon.bodyFork (h : s.Canon) : Tries (bodyFork e s) := by
  unfold Machine.bodyFork
  refine h.noGang.bind fun _ _ => ?_
  refine h.target.bind fun _ _ => ?_
  extract_lets
  refine Leaves.bind (A := (fun _ => True)) ?_ ?_
  · split
    · exact trivial
    · exact h.trap
  · intro _ _
    refine Leaves.bind (A := (fun _ => True)) ?_ ?_
    · split
      · exact trivial
      · exact h.trap
    · intro _ _
      exact Leaves.ite h (h.relWait.bind (fun _ _ => h.commit.modCore))

theorem State.Canon.reportErr {e : Env} (h : s.Canon) : Checks (e.reportErr s) := by
  unfold Env.reportErr
  split
  · exact h
  · exact trivial

theorem State.Canon.uncouple {core : CoreId} (h : s.Canon) : (s.uncouple core).Canon := by
  unfold State.uncouple
  split
  · exact h
  · extract_lets _ s1
    have h1 : s1.Canon := h.modCore.modCore
    split
    · exact h1.answerD
    · exact h1

theorem State.Canon.dropTokens {id : ℕ} (h : s.Canon) : (s.dropTokens vt id).Canon := h.keep
theorem State.Canon.leave {core : CoreId} (h : s.Canon) : (s.leave core).Canon := by
  unfold State.leave
  extract_lets _ _ _ _ _ _ s1
  have h1 : s1.Canon := h.uncouple.setCtx.modCore
  exact h1.ite h1.modTile.dropTokens

theorem State.Canon.covered (h : s.Canon) : (s.covered c).Canon := h.ite h.modLaunch
theorem State.Canon.endContext (h : s.Canon) : Tries (s.endContext c) := Leaves.ite (Leaves.ite h.covered.leave h) h.covered.commit.freeHelper
theorem State.Canon.bodyJoin (h : s.Canon) : Tries (bodyJoin e s) := by
  unfold Machine.bodyJoin
  refine h.noGang.bind fun _ _ => h.target.bind fun t _ => ?_
  extract_lets a q
  split
  · exact h
  · refine h.coreAddr0.bind ?_
    rintro ⟨ad, s1⟩ (h1 : s1.Canon)
    dsimp -zeta only
    split
    · exact h1
    · refine h1.reportErr.bind fun _ _ => h1.trapIf.bind fun _ _ => ?_
      generalize e1 : State.updateAt _ _ _ _ _ _ _ = x
      obtain ⟨old, s2⟩ := x
      have h2 : s2.Canon := h1.commit.updateAt.of_eq e1
      dsimp -zeta only
      split
      · exact h2
      · split
        · exact h2.endContext
        · exact h2.modCtx.signalLocal

theorem State.Canon.bodySpawn (h : s.Canon) : Tries (bodySpawn e s) := by
  unfold Machine.bodySpawn
  refine h.target.bind fun _ _ => ?_
  split
  · exact h.ws
  · exact h.relWait.bind (fun _ _ => h.modCore.startHelper.ws)

theorem State.Canon.bodyExit (h : s.Canon) : Tries (bodyExit e s) := Leaves.ite h (h.reportErr.bind (fun _ _ => h.endContext))
theorem State.Canon.bodyYield (h : s.Canon) : Tries (bodyYield e s) := h.modCtx
theorem State.Canon.bodySleep (h : s.Canon) : Tries (bodySleep e s) := h.noGang.bind (fun _ _ => h)
theorem State.Canon.bodyTrap (h : s.Canon) : Tries (bodyTrap c e s) := h.trap
theorem State.Canon.bodyUpret (h : s.Canon) : Tries (bodyUpret e s) := h.noGang.bind (fun _ _ => Leaves.ite h.trap h.returnUpcall)
theorem State.Canon.bodyEret (h : s.Canon) : Tries (bodyEret e s) := h.noGang.bind (fun _ _ => h.returnTrap)
theorem State.Canon.bodyPhase (h : s.Canon) : Tries (bodyPhase e s) := h.modTile
theorem State.Canon.bodyWaitdep (h : s.Canon) : Tries (bodyWaitdep e s) :=
  h.noGang.bind (fun _ _ => Leaves.ite h (h.foldl (fun _ _ h1 => h1.acquireInfo)))

theorem State.Canon.bodyTrigger (h : s.Canon) : Tries (bodyTrigger e s) := by
  unfold Machine.bodyTrigger
  refine h.relWait.bind fun _ _ => ?_
  extract_lets s1
  have h1 : s1.Canon := h.commit
  split
  · exact h1
  · exact h1.modLaunch

end Sys2Proof.Machine
end

