-- ==== Sys2Proof/Proofs/CanonMemory.lean ====
section
/-! Loads, stores, atomics, remote accesses, the gateway, counters and the scheduler keep memory canonical. -/

namespace Sys2Proof.Machine

open Sys2Proof

set_option autoImplicit true

variable {s : State}

/-! Machine/Home. -/

theorem State.Canon.receiver {home : ℕ} (h : s.Canon) : Snd State.Canon (s.receiver home p) := Snd.ite h.keep (Snd.mk h)
theorem State.Canon.homeAddr {home : ℕ} {taken : Bool} (h : s.Canon) :
    Leaves (Snd State.Canon) (Snd State.Canon) (s.homeAddr own unit ifc home sup taken p n k) := by
  unfold State.homeAddr
  split
  · exact h
  · split
    · exact h
    · split
      · exact h
      · split
        · exact h
        · refine Leaves.bind (A := (Snd State.Canon)) ?_ ?_
          · split
            · split
              · next e1 => exact h.translate.ok e1
              · exact h
            · exact h
          · rintro ⟨a3, s2⟩ (h2 : s2.Canon)
            exact Leaves.ite h2 h2

theorem State.Canon.performRemote (h : s.Canon) : Snd (Snd State.Canon) (s.performRemote r a) := by
  unfold State.performRemote
  extract_lets
  split
  · next e1 =>
      extract_lets s2
      have h2 : s2.Canon := ((Snd.ite h.place (Snd.mk (h.trimRels.ite h))).of_eq e1).touch
      split
      · exact h2
      · exact h2.poke
      · split
        · exact Snd.ite (Snd.mk (Snd.mk h2.modLaunch)) (Snd.mk (Snd.mk h2.poke))
        · exact h2.poke

theorem State.Canon.learnRemote (h : s.Canon) : (s.learnRemote r).Canon := h.ite (h.learn.ite h.modHb)
theorem State.Canon.recordFail {home : ℕ} (h : s.Canon) : (s.recordFail home addr tag ident cause launch).Canon := h.record.snd
theorem State.Canon.fillErr (h : s.Canon) : (s.fillErr c e).Canon := by
  unfold State.fillErr
  extract_lets s1
  have h1 : s1.Canon := h.modCtx
  split
  · exact h1.rouse.ite h1
  · exact h1

theorem State.Canon.ackPosted (h : s.Canon) : (s.ackPosted r).Canon := by
  unfold State.ackPosted
  extract_lets _ s1 _ s2
  have h1 : s1.Canon := h.modCtx
  have h2 : s2.Canon := (h1.fillErr.ite h1).learnRemote
  split
  · exact (h2.reinCarry.ite h2).signal
  · exact h2

theorem State.Canon.trapAt (h : s.Canon) : (s.trapAt c t).Canon := h.deliver

/-! Machine/LoadStore. -/

theorem State.Canon.bodyLd {ext : ℕ → Word} (h : s.Canon) : Tries (bodyLd n ext e s) := h.loadBytes.bind (fun | (_, s1), (h1 : s1.Canon) => h1.put)
theorem State.Canon.bodySt (h : s.Canon) : Tries (bodySt n e s) := h.coreAddr.bind (fun | (_, s1), (h1 : s1.Canon) => h1.writeAt)
theorem State.Canon.typedFault {e : Env} {bad : List ℕ} (h : s.Canon) : Checks (e.typedFault s q bad) :=
  Leaves.ite h.trap (Leaves.ite h.trap (Leaves.ite h.trap trivial))

theorem State.Canon.bodyLdFmt (h : s.Canon) : Tries (bodyLdFmt e s) := by
  unfold Machine.bodyLdFmt
  extract_lets
  refine h.typedFault.bind fun _ _ => ?_
  exact h.loadBytes.bind (fun | (_, s1), (h1 : s1.Canon) => h1.modCtx.put)

theorem State.Canon.bodyStFmt (h : s.Canon) : Tries (bodyStFmt e s) := by
  unfold Machine.bodyStFmt
  extract_lets
  refine h.typedFault.bind fun _ _ => ?_
  refine h.checkWhole.bind ?_
  rintro ⟨a7, s1⟩ (h1 : s1.Canon)
  exact h1.trapIf.bind (fun _ _ => h1.modCtx.writeSegs)

/-! Machine/Atomic. -/

theorem State.Canon.bodyLda (h : s.Canon) : Tries (bodyLda e s) := h.coreAddr.bind (fun | (_, s1), (h1 : s1.Canon) => h1.touch.access.put)
theorem State.Canon.bodyStl (h : s.Canon) : Tries (bodyStl e s) := by
  unfold Machine.bodyStl
  extract_lets
  refine h.coreAddr.bind ?_
  rintro ⟨a5, s1⟩ (h1 : s1.Canon)
  exact h1.relWait.bind (fun _ _ => h1.writeAt)

theorem State.Canon.bodyAmo (h : s.Canon) : Tries (bodyAmo fn e s) := by
  unfold Machine.bodyAmo
  extract_lets
  refine h.coreAddr.bind ?_
  rintro ⟨a5, s1⟩ (h1 : s1.Canon)
  exact Leaves.ite (h1.relWait.bind (fun _ _ => h1.undoLog.access.noteWrite.poke.put)) h1.undoLog.access.noteWrite.poke.put

theorem State.Canon.bodyCas (h : s.Canon) : Tries (bodyCas e s) := by
  unfold Machine.bodyCas
  extract_lets
  refine h.coreAddr.bind ?_
  rintro ⟨a5, s1⟩ (h1 : s1.Canon)
  exact Leaves.ite (h1.relWait.bind (fun _ _ => Leaves.ite h1.undoLog.access.noteWrite.poke.put h1.undoLog.access.put))
      (Leaves.ite h1.undoLog.access.noteWrite.poke.put h1.undoLog.access.put)

theorem State.Canon.bodyFence (h : s.Canon) : Tries (bodyFence fn e s) := by
  unfold Machine.bodyFence
  extract_lets k1
  have h1 : ∀ x1, Tries (k1 x1) := by
    intro x1
    unfold k1
    exact h.fenceOrder
  split
  · exact Leaves.ite (Leaves.bind (A := (fun _ => True)) h (fun _ _ => h1 ())) (h1 ())
  · exact h.relWait.bind (fun _ _ => h1 ())

theorem State.Canon.bodyXfence (h : s.Canon) : Tries (bodyXfence e s) := by
  unfold Machine.bodyXfence
  refine Leaves.guard h.relWait fun _ => ?_
  exact h.crossOrder

theorem State.Canon.feFill (h : s.Canon) : (s.feFill c ea w v).Canon := h.noteWrite.poke.setFull
theorem State.Canon.fePerform (h : s.Canon) : (s.fePerform r).Canon := by
  unfold State.fePerform
  extract_lets
  split
  · exact h.touch.access.ws
  · exact h.undoLog.access.ws.setFull
  · exact h.undoLog.access.feFill

theorem State.Canon.feServe (h : s.Canon) : (s.feServe w a).Canon := by
  induction a generalizing s with
  | zero => exact h
  | succ n ih =>
    unfold State.feServe
    split
    · exact h
    · exact h.rouse.ite (ih h.keep.fePerform.finishWaiting)

theorem State.Canon.feWord {e : Env} (h : s.Canon) : Tries (e.feWord s k) :=
  h.coreAddr.bind (fun | (_, s1), (h1 : s1.Canon) => h1.relWait.bind (fun _ _ => h1))

theorem State.Canon.bodyFe {kind : Env → State → FeKind} (h : s.Canon) : Tries (bodyFe k kind e s) := by
  unfold Machine.bodyFe
  refine h.feWord.bind ?_
  rintro ⟨a2, s1⟩ (h1 : s1.Canon)
  exact Leaves.ite h1.keep.keep.fePerform.feServe h1.keep

theorem State.Canon.bodyFeForce (h : s.Canon) : Tries (bodyFeForce e s) :=
  h.feWord.bind (fun | (_, s1), (h1 : s1.Canon) => h1.undoLog.access.feFill.feServe)

theorem State.Canon.bodyFeClear (h : s.Canon) : Tries (bodyFeClear e s) :=
  h.feWord.bind (fun | (_, s1), (h1 : s1.Canon) => h1.undoLog.access.setFull.feServe)

/-! Machine/Remote. -/

theorem State.Canon.remoteEa {e : Env} (h : s.Canon) : Checks (e.remoteEa s spaces) := by
  unfold Env.remoteEa
  extract_lets
  refine h.lift.bind fun _ _ => ?_
  exact h.lift.bind (fun _ _ => h.trapIf.bind (fun _ _ => h.trapIf.bind (fun _ _ => trivial)))

theorem State.Canon.remoteRun (h : s.Canon) : Leaves (Snd State.Canon) (Snd (Snd State.Canon)) (s.remoteRun r unit) := by
  unfold State.remoteRun
  split
  · exact Leaves.ite h (Leaves.ite h (Leaves.ite h h))
  · exact h.homeAddr.bind (fun | (_, s1), (h1 : s1.Canon) => h1.performRemote)

theorem State.Canon.noteRemote (h : s.Canon) : (s.noteRemote r old).Canon := h.ite h.noteData
theorem State.Canon.sendRemote (h : s.Canon) : Snd State.Canon (s.sendRemote r) := by
  unfold State.sendRemote
  dsimp -zeta only
  exact h.receiver.snd.inject

theorem State.Canon.bodyReturning {pre : Env → State → Word → Word → Except Stop Unit} (hf : ∀ x1 x2 x3 x4, x2.Canon → Checks (pre x1 x2 x3 x4))
    (g2 : s.Canon) :
    Tries (bodyReturning kind fn spaces pre e s) := by
  unfold Machine.bodyReturning
  refine g2.remoteEa.bind fun _ _ => ?_
  dsimp -zeta only
  extract_lets
  split
  · split
    · next s5 e6 =>
        have h5 : s5.Canon := g2.remoteRun.ok e6
        refine (hf _ _ _ _ g2).bind fun _ _ => ?_
        split
        · exact g2
        · exact ((h5.ite h5.commit.noteRemote).learnRemote).put
    · next e7 =>
        refine Leaves.bind (A := (fun _ => True)) (Leaves.ite ((hf _ _ _ _ g2).map (fun _ _ => trivial)) trivial) fun _ _ => ?_
        split
        · exact g2
        · exact (g2.remoteRun.error e7).transFault.snd
  · refine (hf _ _ _ _ g2).bind fun _ _ => ?_
    split
    · exact g2
    · exact (g2.ite g2.commit).modCtx.sendRemote.snd

theorem State.Canon.bodyPosted {pre : Env → State → Word → Word → Except Stop Unit} (hf : ∀ x1 x2 x3 x4, x2.Canon → Checks (pre x1 x2 x3 x4))
    (g2 : s.Canon) :
    Tries (bodyPosted kind fn spaces pre e s) := by
  unfold Machine.bodyPosted
  refine g2.remoteEa.bind fun _ _ => ?_
  dsimp -zeta only
  refine (hf _ _ _ _ g2).bind fun _ _ => ?_
  split
  · exact g2
  · extract_lets _ _ _ s5
    have h5 : s5.Canon := g2.commit.modCtx
    split
    · exact g2
    · split
      · split
        · next e6 => exact (h5.remoteRun.ok e6).noteRemote.ackPosted
        · next e7 =>
            exact Leaves.ite (((h5.noteRemote.ite h5).sendRemote).snd) (h5.remoteRun.error e7).recordFail.ackPosted
      · exact ((h5.noteRemote.ite h5).sendRemote).snd

theorem State.Canon.noPre  : Checks (noPre e s x x1) := trivial
theorem State.Canon.preRel (h : s.Canon) : Checks (preRel e s x x1) := Leaves.ite h.relWait trivial
theorem State.Canon.preFadd (h : s.Canon) : Checks (preFadd e s ea p) := h.trapIf.bind (fun _ _ => h.preRel)
theorem State.Canon.bodyRamo {pre : Env → State → Word → Word → Except Stop Unit} (hf : ∀ x1 x2 x3 x4, x2.Canon → Checks (pre x1 x2 x3 x4))
    (g2 : s.Canon) :
    Tries (bodyRamo fn pre e s) := Leaves.ite (State.Canon.bodyPosted hf g2) (State.Canon.bodyReturning hf g2)

theorem State.Canon.setPacket (h : s.Canon) : (s.setPacket x).Canon := h.keep
theorem State.Canon.dropPacket {id : ℕ} (h : s.Canon) : (s.dropPacket id).Canon := h.keep
theorem State.Canon.restart (h : s.Canon) : (s.restart p).Canon := h.keep.setPacket
theorem State.Canon.answerRemote (h : s.Canon) : (s.answerRemote p r).Canon := h.restart
theorem State.Canon.atHome (h : s.Canon) : (s.atHome p r).Canon := by
  unfold State.atHome
  extract_lets
  split
  · next e1 => exact (h.remoteRun.ok e1).answerRemote
  · next s2 e3 =>
      have h2 : s2.Canon := h.remoteRun.error e3
      split
      · extract_lets
        dsimp -zeta only
        exact h2.record.snd.answerRemote.ite (h2.record.snd.ite h2.record.snd.setPacket)
      · exact (h2.ite h2.recordFail).answerRemote

theorem State.Canon.gangAtHome (h : s.Canon) : (s.gangAtHome l).Canon := by
  unfold State.gangAtHome
  split
  · exact h
  · split
    · exact h.atHome.foldl (fun _ _ h1 => h1.ite h1.answerRemote)
    · exact h.foldl (fun _ _ h2 => h2.atHome)

theorem State.Canon.remoteAtHome (h : s.Canon) : (s.remoteAtHome k).Canon := by
  unfold State.remoteAtHome
  split
  · split
    · exact h
    · split
      · exact h.gangAtHome
      · split
        · dsimp -zeta only
          exact h.receiver.snd.restart
        · exact h.atHome
  · exact h

theorem State.Canon.remoteAck (h : s.Canon) : (s.remoteAck k).Canon := by
  unfold State.remoteAck
  split
  · exact h.ite (h.dropPacket.ite h.dropPacket.ackPosted)
  · exact h

theorem State.Canon.valueReturn (h : s.Canon) : (s.valueReturn k).Canon := by
  unfold State.valueReturn
  split
  · split
    · exact h
    · split
      · exact h.dropPacket
      · split
        · exact h
        · exact h.dropPacket.modCtx.trapAt.ite h.dropPacket.modCtx.noteRemote.learnRemote.ws.finishWaiting
  · exact h

/-! Machine/Gateway. -/

theorem State.Canon.noteGrant {home : ℕ} (h : s.Canon) : (s.noteGrant home p expiry).Canon := h.store.ite h
theorem State.Canon.gwFetch (h : s.Canon) : Leaves (Snd State.Canon) (Snd State.Canon) (s.gwFetch vt ifc p code grant) := by
  unfold State.gwFetch
  extract_lets
  split
  · exact h
  · split
    · exact h
    · split
      · exact h
      · split
        · exact h
        · split
          · exact h
          · next s1 e2 =>
              have h1 : s1.Canon := h.translate.ok e2
              exact Leaves.ite h1 (h1.ite h1.noteGrant)

theorem State.Canon.keepLine {die : ℕ} (h : s.Canon) : (s.keepLine die l).Canon := by
  unfold State.keepLine
  exact h.modDie

theorem State.Canon.fetchTrap (h : s.Canon) : (s.fetchTrap c pc t).Canon := by
  unfold State.fetchTrap
  extract_lets
  split
  · exact h.doubleTrap
  · split
    · exact h.gangTrap
    · split
      · exact h.rollback
      · split
        · exact h.waitAt
        · exact h.takeTrap

theorem State.Canon.lineFill (h : s.Canon) : (s.lineFill c).Canon := by
  unfold State.lineFill
  split
  · extract_lets
    split
    · next s1 e2 =>
        have h1 : s1.Canon := h.rousePath.receiver.of_eq e2
        split
        · next e3 => exact (h1.gwFetch.ok e3).keepLine.rouse
        · next s4 e5 =>
            have h4 : s4.Canon := h1.gwFetch.error e5
            dsimp -zeta only
            exact h4.transFault.snd.fetchTrap.ite (h4.transFault.snd.ite h4.transFault.snd.trapAt)
  · exact h

theorem State.Canon.lineExpiry (h : s.Canon) : (s.lineExpiry vd k).Canon := h.modDie
theorem State.Canon.transExpiry (h : s.Canon) : (s.transExpiry vt k).Canon := h.modTile
theorem State.Canon.lineEa {e : Env} (h : s.Canon) : Checks (e.lineEa s) := by
  unfold Env.lineEa
  extract_lets
  refine h.lift.bind fun _ _ => ?_
  refine h.lift.bind fun _ _ => ?_
  exact h.trapIf.bind (fun _ _ => h.trapIf.bind (fun _ _ => h.trapIf.bind (fun _ _ => trivial)))

theorem State.Canon.flushOrder (h : s.Canon) : (s.flushOrder c p).Canon := by
  unfold State.flushOrder
  split
  · exact h.access.ite h
  · exact h

theorem State.Canon.flushSlice (h : s.Canon) : (s.flushSlice k a).Canon := h.dropLine.ite h.writeBack
theorem State.Canon.bodyFlush (h : s.Canon) : Tries (bodyFlush k e s) := by
  unfold Machine.bodyFlush
  refine h.lineEa.bind fun _ _ => ?_
  extract_lets _ s1
  have h1 : s1.Canon := h.flushOrder
  split
  · exact h
  · split
    · exact h1
    · split
      · exact h1.ite h1.modDie
      · show State.Canon _
        split
        · exact h1.flushSlice
        · exact h1

theorem State.Canon.bodyFlushCode (h : s.Canon) : Tries (bodyFlushCode e s) := h.lineEa.bind (fun _ _ => h.ite h.modCore)
theorem State.Canon.bodyPrefGw (h : s.Canon) : Tries (bodyPrefGw e s) := by
  unfold Machine.bodyPrefGw
  split
  · exact h
  · split
    · exact h
    · split
      · next s1 e2 =>
          have h1 : s1.Canon := h.receiver.of_eq e2
          split
          · next e3 => exact h1.ite (h1.gwFetch.ok e3).keepLine
          · exact h1

/-! Machine/Rein. -/

theorem State.Canon.bodyCwait (h : s.Canon) : Tries (bodyCwait e s) := by
  unfold Machine.bodyCwait
  extract_lets k1
  have h1 : ∀ x1, Tries (k1 x1) := by
    intro x1
    unfold k1
    exact Leaves.ite h h.clearE.reinWait
  split
  · exact h.trapIf.bind (fun _ _ => h1 ())
  · exact h1 ()

theorem State.Canon.bodyCsig (h : s.Canon) : Tries (bodyCsig e s) := h.commit.ite h.commit.signal
theorem State.Canon.bodyCset (h : s.Canon) : Tries (bodyCset e s) := h.commit.modCore.reinClear
theorem State.Canon.bodyCrd (h : s.Canon) : Tries (bodyCrd e s) := h.put
theorem State.Canon.modBar {id : ℕ} {f : BarState → BarState} (h : s.Canon) : (s.modBar id c f).Canon := h.modCore
theorem State.Canon.arrive (h : s.Canon) : (s.arrive c).Canon := by
  unfold State.arrive
  exact h.modCore

theorem State.Canon.bodyBar (h : s.Canon) : Tries (bodyBar e s) := by
  unfold Machine.bodyBar
  split
  · exact h.commit.ite h
  · exact h.reportErr.bind (fun _ _ => h.relWait.bind (fun _ _ => h.commit.arrive))

theorem State.Canon.bodyBarArrive (h : s.Canon) : Tries (bodyBarArrive e s) := by
  unfold Machine.bodyBarArrive
  split
  · exact h.relWait.bind (fun _ _ => h)
  · exact h.reportErr.bind (fun _ _ => h.relWait.bind (fun _ _ => h.commit.arrive))

theorem State.Canon.bodyBarWait (h : s.Canon) : Tries (bodyBarWait e s) := h.bodyBar
theorem State.Canon.forwardToken {id : ℕ} (h : s.Canon) : (s.forwardToken id c near).Canon :=
  h.ite ((h.ite h.modBar.modBar).ite (h.ite ((h.ite h.modBar.modBar).ite (h.ite h.modBar))))

theorem State.Canon.arriveLate (h : s.Canon) : (s.arriveLate d).Canon := by
  unfold State.arriveLate
  split
  · exact h.rouse
  · split
    · exact h.rouse.ite h.trapAt
    · exact h.ite h.commit.arrive.finishWaiting

theorem State.Canon.releaseWaiters {info : HbInfo} (h : s.Canon) : (s.releaseWaiters c info l).Canon := by
  induction l generalizing s with
  | nil => exact h
  | cons x r ih =>
    unfold State.releaseWaiters
    extract_lets
    refine ih ?_
    split
    · exact h.arriveLate.ite h.acquireInfo.finishWaiting
    · exact h

theorem State.Canon.passRelease {id : ℕ} (h : s.Canon) : (s.passRelease id c near).Canon := by
  unfold State.passRelease
  extract_lets _ _ k1 s2 _ _ s3
  have h1 : ∀ x1 x2, x1.Canon → (k1 x1 x2).Canon := by
    intro x1 x2 h4
    unfold k1
    exact h4.modBar
  have h2 : s2.Canon := (h1 _ _ h).ite h
  have h3 : s3.Canon := ((h1 _ _ h2).ite h2).modBar
  exact h.ite (h3.modBar.ite ((h3.foldl (fun _ _ h5 => h5.newInterval)).releaseWaiters))

theorem State.Canon.sweep {f : State → ℕ → CoreId → Half → State} (h : s.Canon) (hf2 : ∀ x1 x2 x3 x4, x1.Canon → (f x1 x2 x3 x4).Canon) :
    (s.sweep f c k).Canon := by
  unfold State.sweep
  split
  · exact hf2 _ _ _ _ h
  · exact h

/-! Machine/Sched. -/

theorem State.Canon.workStart (h : s.Canon) : (s.workStart c).Canon := by
  unfold State.workStart
  split
  · exact h
  · split
    · exact h.modCore.startHelper
    · exact h.modCore.startHelper
    · exact h

theorem State.Canon.stealProbe (h : s.Canon) : (s.stealProbe c).Canon := by
  unfold State.stealProbe
  split
  · exact h
  · split
    · split
      · exact h.modCore.startHelper
      · exact h
    · exact h

theorem State.Canon.wakeFor (h : s.Canon) : (s.wakeFor c cls).Canon := h.wakeCore.ite h
theorem State.Canon.reenter (h : s.Canon) : (s.reenter c).Canon := by
  unfold State.reenter
  extract_lets
  split
  · exact h.ite h.setCore.modTile.wakeFor
  · exact h

theorem State.Canon.endWait (h : s.Canon) : (s.endWait c w).Canon := by
  unfold State.endWait
  split
  · exact h.finishWaiting
  · exact h.finishWaiting
  · exact h.rouse

theorem State.Canon.contextWake (h : s.Canon) : (s.contextWake c).Canon := by
  unfold State.contextWake
  extract_lets
  split
  · exact h.rouse
  · split
    · exact h.endWait.ite h
    · exact h

theorem State.Canon.waitLimit (h : s.Canon) : (s.waitLimit c).Canon := by
  unfold State.waitLimit
  split
  · extract_lets
    split
    · exact h.setCtx.takeTrapTag
    · exact h.unreserve.trapAt
    · exact h.trapAt
  · exact h

theorem State.Canon.sleepTimeout (h : s.Canon) : (s.sleepTimeout c).Canon := by
  unfold State.sleepTimeout
  split
  · exact h.finishWaiting.ite h
  · exact h

end Sys2Proof.Machine
end

