-- ==== Sys2Proof/Proofs/CanonVector.lean ====
section
/-! Vector and matrix instructions keep memory canonical. -/

namespace Sys2Proof.Machine

open Sys2Proof

set_option autoImplicit true

variable {s : State}

/-! Machine/Vector. -/

theorem State.Canon.accept {e : Env} {ok : ℕ → Bool} (h : s.Canon) : Checks (e.accept s ok) := h.trapIf
theorem State.Canon.merge {e : Env} {f : ℕ → ℕ} (h : s.Canon) : (e.merge s f).Canon := h.wv
theorem State.Canon.flagSeed (h : s.Canon) : (s.flagSeed c fl sd).Canon := h.modCtx
theorem State.Canon.roundAll {e : Env} {g : ℕ → ExactF} (h : s.Canon) : (e.roundAll s g).Canon := h.flagSeed.wv
theorem State.Canon.flagAll {e : Env} {g : ℕ → ℕ × FFlags} (h : s.Canon) : (e.flagAll s g).Canon := h.merge.raise
theorem State.Canon.bodyVarith {ok : ℕ → Bool} {fi : ℤ → ℤ → ℤ} {ff : ℕ → ℕ → FVal → FVal → ExactF} (h : s.Canon) :
    Tries (bodyVarith ok fi sat ff e s) := h.accept.bind (fun _ _ => Leaves.ite h.roundAll h.merge)

theorem State.Canon.bodyVadd (h : s.Canon) : Tries (bodyVadd e s) := h.bodyVarith
theorem State.Canon.bodyVaddSat (h : s.Canon) : Tries (bodyVaddSat e s) := h.bodyVarith
theorem State.Canon.bodyVsub (h : s.Canon) : Tries (bodyVsub e s) := h.bodyVarith
theorem State.Canon.bodyVsubSat (h : s.Canon) : Tries (bodyVsubSat e s) := h.bodyVarith
theorem State.Canon.bodyVmul (h : s.Canon) : Tries (bodyVmul e s) := h.bodyVarith
theorem State.Canon.bodyVmulSat (h : s.Canon) : Tries (bodyVmulSat e s) := h.bodyVarith
theorem State.Canon.bodyVmulHi (h : s.Canon) : Tries (bodyVmulHi e s) := h.accept.bind (fun _ _ => h.merge)
theorem State.Canon.bodyVfma (h : s.Canon) : Tries (bodyVfma nm ms e s) := h.accept.bind (fun _ _ => h.roundAll)
theorem State.Canon.bodyVminmax (h : s.Canon) : Tries (bodyVminmax mx e s) := h.accept.bind (fun _ _ => Leaves.ite h.flagAll h.merge)
theorem State.Canon.bodyVnegabs (h : s.Canon) : Tries (bodyVnegabs ab e s) := h.accept.bind (fun _ _ => h.merge)
theorem State.Canon.bodyVsel (h : s.Canon) : Tries (bodyVsel e s) := h.accept.bind (fun _ _ => h.merge)
theorem State.Canon.bodyVint {ok : ℕ → Bool} {f : ℕ → ℕ → ℕ → ℕ} (h : s.Canon) : Tries (bodyVint ok f e s) := h.accept.bind (fun _ _ => h.merge)
theorem State.Canon.bodyVcmp (h : s.Canon) : Tries (bodyVcmp cc e s) := h.accept.bind (fun _ _ => h.raise.wp)
theorem State.Canon.setGroup (h : s.Canon) : (s.setGroup c k l).Canon := h.foldl (fun _ _ h1 => h1.wv)
theorem State.Canon.bodyVcvt (h : s.Canon) : Tries (bodyVcvt sat e s) := h.accept.bind (fun _ _ => h.flagSeed.wv)
theorem State.Canon.bodyVred (h : s.Canon) : Tries (bodyVred fn e s) := h.accept.bind (fun _ _ => h.flagSeed.wv)
theorem State.Canon.bodyVshuf {f : Env → State → ℕ → ℕ} (h : s.Canon) : Tries (bodyVshuf f e s) := h.accept.bind (fun _ _ => h.merge)
theorem State.Canon.bodyVbcastS (h : s.Canon) : Tries (bodyVbcastS e s) := h.accept.bind (fun _ _ => h.merge)
theorem State.Canon.bodyVbcastLane (h : s.Canon) : Tries (bodyVbcastLane e s) := h.accept.bind (fun _ _ => h.merge)
theorem State.Canon.bodyVspec {f : ℕ → FVal → FVal → ExactF} (h : s.Canon) : Tries (bodyVspec f e s) := h.accept.bind (fun _ _ => h.roundAll)
theorem State.Canon.bodyVdotQ (h : s.Canon) : Tries (bodyVdotQ e s) := h.accept.bind (fun _ _ => h.wv)
theorem State.Canon.bodyVdotP (h : s.Canon) : Tries (bodyVdotP e s) := h.accept.bind (fun _ _ => Leaves.ite h.wv h.flagSeed.wv)
theorem State.Canon.bodyVamax (h : s.Canon) : Tries (bodyVamax e s) := h.accept.bind (fun _ _ => h.raise.wv)
theorem State.Canon.bodyBlocks {pick : Env → State → ℕ → ℕ × FFlags} {keep : FFlags → FFlags} (h : s.Canon) : Tries (bodyBlocks pick keep e s) :=
  h.accept.bind (fun _ _ => h.flagSeed.setGroup)

theorem State.Canon.bodyVscale (h : s.Canon) : Tries (bodyVscale e s) := h.bodyBlocks
theorem State.Canon.bodyVquant (h : s.Canon) : Tries (bodyVquant e s) := h.bodyBlocks
theorem State.Canon.bodyVtbl (h : s.Canon) : Tries (bodyVtbl e s) := h.accept.bind (fun _ _ => h.wv)
theorem State.Canon.bodyVenc (h : s.Canon) : Tries (bodyVenc e s) := h.accept.bind (fun _ _ => h.raise.wv)
theorem State.Canon.handOver (h : s.Canon) : (s.handOver row).Canon := by
  unfold State.handOver
  extract_lets
  split
  · next e1 => exact h.ite (h.held.some e1)
  · exact h.ite h.syncTaken.modCore.setCtx

theorem State.Canon.issueV {body : Body} (hf : ∀ x1 x2, x2.Canon → Tries (body x1 x2)) (g2 : s.Canon) : (issueV row body s).Canon :=
  g2.handOver.ite (State.Canon.issue hf g2)

theorem State.Canon.unhand (h : s.Canon) : (s.unhand c).Canon := by
  unfold State.unhand
  split
  · exact h
  · exact h.modCore.modCtx

theorem State.Canon.seqDone (h : s.Canon) : (s.seqDone c k0 q o off ctl).Canon := h.complete.modCtx
theorem State.Canon.seqTrap (h : s.Canon) : (s.seqTrap c t).Canon := h.unhand.modCtx.deliver
theorem State.Canon.seqHeld (h : s.Canon) : (s.seqHeld c q ea).Canon := by
  unfold State.seqHeld
  extract_lets
  split
  · exact h.modCore
  · exact h.ite h.seqTrap

theorem State.Canon.seqRun {bodyOf : Instr → Body} (h : s.Canon) (hf2 : ∀ x1 x2 x3, x3.Canon → Tries (bodyOf x1 x2 x3)) :
    (s.seqRun bodyOf c).Canon := by
  unfold State.seqRun
  split
  · exact h
  · split
    · exact h
    · extract_lets _ s4
      have h4 : s4.Canon := h.modCtx
      split
      · next s5 e6 =>
          have h5 : s5.Canon := (State.Canon.memberRun (fun _ _ h7 => hf2 _ _ _ h7) h4).ok e6
          exact h5.modCore.seqDone
      · exact h.seqHeld
      · exact h
      · next s8 e9 =>
          have h8 : s8.Canon := (State.Canon.memberRun (fun _ _ h10 => hf2 _ _ _ h10) h4).error e9
          exact h.ite h8.seqTrap

/-! Machine/VectorMem. -/

theorem State.Canon.acceptAt {e : Env} (h : s.Canon) : Checks (e.acceptAt s ok) := h.trapIf
theorem State.Canon.vpair {e : Env} (h : s.Canon) : Checks (e.vpair s ok) := h.trapIf.bind (fun _ _ => h.trapIf)
theorem State.Canon.advanced {e : Env} (h : s.Canon) : Checks (e.advanced s adv) := by
  unfold Env.advanced
  extract_lets
  split
  · exact trivial
  · split
    · exact h.trap
    · split
      · exact trivial
      · exact h.trap

theorem State.Canon.vea {e : Env} (h : s.Canon) : Checks (e.vea s any) := Leaves.ite trivial (Leaves.ite h.trap (Leaves.ite h.trap trivial))
theorem State.Canon.vcheckEach {e : Env} (h : s.Canon) : Tries (e.vcheckEach align k l s) := by
  induction l generalizing s with
  | nil => exact h
  | cons x r ih =>
    unfold Env.vcheckEach
    extract_lets
    refine h.lift.bind fun _ _ => ?_
    refine h.checkParts.bind ?_
    rintro ⟨a8, s1⟩ (h1 : s1.Canon)
    exact Leaves.bind (A := (Snd State.Canon)) (ih h1) (fun | (_, s2), (h2 : s2.Canon) => h2)

theorem State.Canon.vcheck {e : Env} (h : s.Canon) : Tries (e.vcheck align k l s) := State.Canon.holding h.vcheckEach
theorem State.Canon.vloadRun (h : s.Canon) : Snd State.Canon (vloadRun me l a s) := by
  induction l generalizing a s with
  | nil => exact h
  | cons x r ih => exact ih h.readSegs.snd

theorem State.Canon.vstoreRun (h : s.Canon) : (vstoreRun me reg l s).Canon := by
  induction l generalizing s with
  | nil => exact h
  | cons x r ih => exact ih h.writeSegs

theorem State.Canon.vmove {e : Env} {store : Bool} (h : s.Canon) : Tries (e.vmove s store chunks adv) := by
  unfold Env.vmove
  refine h.vea.bind fun _ _ => ?_
  refine h.advanced.bind fun _ _ => ?_
  extract_lets
  refine h.vcheck.bind ?_
  rintro ⟨a6, s1⟩ (h1 : s1.Canon)
  exact (h1.vstoreRun.ite h1.vloadRun.snd.wv).ite ((h1.vstoreRun.ite h1.vloadRun.snd.wv).ws)

theorem State.Canon.vframes {e : Env} {store : Bool} (h : s.Canon) : Tries (e.vframes s store) := by
  unfold Env.vframes
  extract_lets
  refine h.vpair.bind fun _ _ => ?_
  refine h.trapIf.bind fun _ _ => ?_
  split
  · exact h
  · refine h.vea.bind fun _ _ => ?_
    refine h.advanced.bind fun _ _ => ?_
    refine h.vcheck.bind ?_
    rintro ⟨a14, s1⟩ (h1 : s1.Canon)
    exact (h1.vstoreRun.ite h1.vloadRun.snd.setGroup).ite ((h1.vstoreRun.ite h1.vloadRun.snd.setGroup).ws)

theorem State.Canon.bodyVls {store : Bool} (h : s.Canon) : Tries (bodyVls store e s) := Leaves.ite h.vframes (h.vpair.bind (fun _ _ => h.vmove))
theorem State.Canon.bodyVlsStr {store : Bool} (h : s.Canon) : Tries (bodyVlsStr store e s) :=
  h.acceptAt.bind (fun _ _ => h.vpair.bind (fun _ _ => h.vmove))

theorem State.Canon.bodyVgs {store : Bool} (h : s.Canon) : Tries (bodyVgs store e s) := h.acceptAt.bind (fun _ _ => h.vpair.bind (fun _ _ => h.vmove))
theorem State.Canon.bodyLine (h : s.Canon) : Tries (s.bodyLine c base0 line0 a) := by
  unfold State.bodyLine
  split
  · exact h
  · split
    · next e1 => exact h.fetchLine.of_eq e1
    · next e2 => exact h.fetchLine.of_eq e2
    · next s3 e4 =>
        have h3 : s3.Canon := h.fetchLine.of_eq e4
        split
        · exact h3
        · exact h3
        · exact h3

theorem State.Canon.endsBody {target : Word} (h : s.Canon) : Tries (s.endsBody c base0 line0 target b a) :=
  Leaves.ite h (Leaves.ite (h.bodyLine.bind (fun | (_, s1), (h1 : s1.Canon) => h1)) h)

theorem State.Canon.checkBody {target : Word} (h : s.Canon) : Tries (s.checkBody c base0 line0 n target a a1 a2 a3 a4 l) := by
  induction a generalizing s a1 a2 a3 a4 l with
  | zero => exact h
  | succ n ih =>
    unfold State.checkBody
    refine h.bodyLine.bind ?_
    rintro ⟨a3, s5⟩ (h5 : s5.Canon)
    exact Leaves.ite (Leaves.ite (ih h5) h5) (h5.endsBody.bind
        (fun | (_, s6), (h6 : s6.Canon) => Leaves.ite (h6.trapIf.bind (fun _ _ => h6)) (h6.trapIf.bind (fun _ _ => ih h6))))

theorem State.Canon.bodyVseq (h : s.Canon) : Tries (bodyVseq e s) := by
  unfold Machine.bodyVseq
  extract_lets
  refine h.target.bind fun _ _ => ?_
  refine Leaves.bind (A := State.Canon) (Leaves.ite h (h.checkBody.bind (fun | (_, s1), (h1 : s1.Canon) => h1.ite h1.modCtx))) fun s2 h2 => ?_
  exact h2

theorem State.Canon.bodyVseqe (h : s.Canon) : Tries (bodyVseqe e s) := h.target.bind (fun _ _ => Leaves.ite h.ws.modCtx h.ws)
theorem State.Canon.reserve (h : s.Canon) : (s.reserve lead ms l).Canon := by
  induction l generalizing s with
  | nil => exact h
  | cons x r ih => exact ih (h.setCtx.ite h)

theorem State.Canon.formGang (h : s.Canon) : (s.formGang lead ms).Canon := by
  unfold State.formGang
  exact (h.foldl (fun _ _ h1 => h1.ite h1.setCtx)).modCtx

theorem State.Canon.bodyGang (h : s.Canon) : Tries (bodyGang code e s) := by
  unfold Machine.bodyGang
  refine h.noGang.bind fun _ _ => ?_
  refine h.trapIf.bind fun _ _ => ?_
  exact Leaves.ite h (Leaves.ite h.commit.reserve.formGang h.commit.reserve)

theorem State.Canon.gangStep (h : s.Canon) : (s.gangStep lead).Canon := by
  unfold State.gangStep
  split
  · exact h.ite (h.commit.reserve.finishWaiting.formGang.ite h.commit.reserve)
  · exact h

theorem State.Canon.bodyUngang (h : s.Canon) : Tries (bodyUngang e s) := Leaves.ite h (Leaves.ite h h.modCtx)
theorem State.Canon.disband (h : s.Canon) : (s.disband lead l).Canon := by
  induction l generalizing s with
  | nil => exact h
  | cons x r ih => exact ih (h.ite h.acquireInfo.freeHelper)

theorem State.Canon.vectorBody (h : s.Canon) : Tries (vectorBody row e s) := by
  unfold Machine.vectorBody
  split
  · exact h.bodyVadd
  · exact h.bodyVaddSat
  · exact h.bodyVsub
  · exact h.bodyVsubSat
  · exact h.bodyVmul
  · exact h.bodyVmulHi
  · exact h.bodyVmulSat
  · exact h.bodyVfma
  · exact h.bodyVfma
  · exact h.bodyVfma
  · exact h.bodyVminmax
  · exact h.bodyVminmax
  · exact h.bodyVnegabs
  · exact h.bodyVnegabs
  · exact h.bodyVsel
  · exact h.bodyVint
  · exact h.bodyVint
  · exact h.bodyVint
  · exact h.bodyVint
  · exact h.bodyVint
  · exact h.bodyVint
  · exact h.bodyVint
  · exact h.bodyVint
  · exact h.bodyVcmp
  · exact h.bodyVcmp
  · exact h.bodyVcmp
  · exact h.bodyVcmp
  · exact h.bodyVcmp
  · exact h.bodyVcmp
  · exact h.bodyVcmp
  · exact h.bodyVcvt
  · exact h.bodyVcvt
  · exact h.bodyVred
  · exact h.bodyVred
  · exact h.bodyVred
  · exact h.bodyVred
  · exact h.bodyVred
  · exact h.bodyVred
  · exact h.bodyVshuf
  · exact h.bodyVshuf
  · exact h.bodyVshuf
  · exact h.bodyVshuf
  · exact h.bodyVshuf
  · exact h.bodyVbcastS
  · exact h.bodyVbcastLane
  · exact h.bodyVspec
  · exact h.bodyVspec
  · exact h.bodyVspec
  · exact h.bodyVspec
  · exact h.bodyVspec
  · exact h.bodyVspec
  · exact h.bodyVspec
  · exact h.bodyVdotQ
  · exact h.bodyVdotP
  · exact h.bodyVamax
  · exact h.bodyVscale
  · exact h.bodyVquant
  · exact h.bodyVtbl
  · exact h.bodyVenc
  · exact h.bodyVls
  · exact h.bodyVls
  · exact h.bodyVlsStr
  · exact h.bodyVlsStr
  · exact h.bodyVgs
  · exact h.bodyVgs
  · exact h.bodyNop

/-! Machine/Matrix. -/

theorem State.Canon.guardWord {e : Env} (h : s.Canon) : Tries (e.guardWord s r dflt) := by
  unfold Env.guardWord
  split
  · exact h
  · extract_lets
    refine h.trapIf.bind fun _ _ => ?_
    refine h.trapIf.bind fun _ _ => ?_
    exact h.coreAddr.bind (fun | (_, s1), (h1 : s1.Canon) => h1.touch.access)

theorem State.Canon.guardCount {e : Env} (h : s.Canon) : Tries (e.guardCount s r) := h.guardWord.bind (fun | (_, s1), (h1 : s1.Canon) => h1)
theorem State.Canon.matIssue {e : Env} (h : s.Canon) : Tries (e.matIssue s) := by
  unfold Env.matIssue
  refine h.accept.bind fun _ _ => ?_
  refine h.guardCount.bind ?_
  rintro ⟨a3, s1⟩ (h1 : s1.Canon)
  exact Leaves.ite h1 (h1.trapIf.bind (fun _ _ => h1.trapIf.bind (fun _ _ => h1.trapIf.bind (fun _ _ => h1.trapIf.bind (fun _ _ =>
      h1.trapIf.bind (fun _ _ => h1.trapIf.bind (fun _ _ => h1)))))))

theorem State.Canon.matRead {e : Env} (h : s.Canon) : Checks (e.matRead s pl) := h.trapIf.bind (fun _ _ => h.trapIf.bind (fun _ _ => trivial))
theorem State.Canon.recheck (h : s.Canon) : Leaves Stop.Canon State.Canon (s.recheck c plain write ea l) := by
  induction l generalizing s with
  | nil => exact h
  | cons x r ih =>
    unfold State.recheck
    refine Leaves.guard h.confCheck fun _ => ?_
    exact h.trapIf.bind (fun _ _ => ih (h.confHold.ite h))

theorem State.Canon.recheckRows (h : s.Canon) : Tries (s.recheckRows c plain write l) := by
  induction l generalizing s with
  | nil => exact h
  | cons x r ih => exact h.recheck.bind (fun _ h1 => ih h1)

theorem State.Canon.readRow (h : s.Canon) : Snd State.Canon (s.readRow c plain l) := by
  induction l generalizing s with
  | nil => exact h
  | cons x r ih => exact (ih h.touch.access).snd

theorem State.Canon.readEach (h : s.Canon) : Snd State.Canon (s.readEach c plain l) := by
  induction l generalizing s with
  | nil => exact h
  | cons x r ih => exact (ih h.readRow.snd).snd

theorem State.Canon.readRows (h : s.Canon) : Tries (s.readRows c plain l) :=
  (State.Canon.holding h.recheckRows).bind (fun | (_, s1), (h1 : s1.Canon) => h1.readEach)

theorem State.Canon.writeRow (h : s.Canon) : (s.writeRow c l l1).Canon := by
  induction l generalizing s l1 with
  | nil => exact h
  | cons x r ih => exact ih h.writeAt

theorem State.Canon.writeRows (h : s.Canon) : Leaves Stop.Canon State.Canon (s.writeRows c l b) :=
  (State.Canon.holding h.recheckRows).bind (fun | (_, s1), (h1 : s1.Canon) => h1.writeRow)

theorem State.Canon.latCheck {e : Env} (h : s.Canon) : Tries (e.latCheck l s) := by
  induction l generalizing s with
  | nil => exact h
  | cons x r ih =>
    unfold Env.latCheck
    refine h.lift.bind fun _ _ => ?_
    refine h.trapIf.bind fun _ _ => ?_
    refine h.checkWhole.bind ?_
    rintro ⟨a7, s1⟩ (h1 : s1.Canon)
    exact Leaves.bind (A := (Snd State.Canon)) (ih h1) (fun | (_, s2), (h2 : s2.Canon) => h2)

theorem State.Canon.latPlan {e : Env} (h : s.Canon) : Tries (e.latPlan s) := by
  unfold Env.latPlan
  refine h.accept.bind fun _ _ => ?_
  refine h.guardCount.bind ?_
  rintro ⟨a5, s1⟩ (h1 : s1.Canon)
  exact Leaves.ite h1 (h1.latCheck.bind (fun | (_, s2), (h2 : s2.Canon) => h2))

theorem State.Canon.latRun {e : Env} (h : s.Canon) : Leaves Stop.Canon State.Canon (e.latRun s pl) :=
  Leaves.ite h (h.readRows.bind (fun | (_, s1), (h1 : s1.Canon) => h1.wg))

theorem State.Canon.maccPlan {e : Env} (h : s.Canon) : Tries (e.maccPlan s) := by
  unfold Env.maccPlan
  exact h.accept.bind (fun _ _ => Leaves.ite h (h.checkAll.bind (fun | (_, s1), (h1 : s1.Canon) => h1)))

theorem State.Canon.maccZero {e : Env} (h : s.Canon) : Leaves Stop.Canon State.Canon (e.maccZero s) := h.wa
theorem State.Canon.maccLd {e : Env} (h : s.Canon) : Leaves Stop.Canon State.Canon (e.maccLd s pl) :=
  h.readRows.bind (fun | (_, s1), (h1 : s1.Canon) => h1.wa)

theorem State.Canon.maccSt {e : Env} (h : s.Canon) : Leaves Stop.Canon State.Canon (e.maccSt s pl) := h.writeRows
theorem State.Canon.maccCvt {e : Env} (h : s.Canon) {x : Except Stop State} (hx : e.maccCvt s pl = x) :
    Leaves Stop.Canon State.Canon x := by
  unfold Env.maccCvt at hx
  extract_lets at hx
  generalize roundEls _ _ _ _ _ _ _ _ = r at hx
  obtain ⟨codes, fl, sd⟩ := r
  rw [← hx]
  exact h.writeRows.bind fun _ h => h.flagSeed

theorem State.Canon.gaitPlan {e : Env} (h : s.Canon) : Tries (e.gaitPlan s) := h.coreAddr.bind (fun | (_, s1), (h1 : s1.Canon) => h1)
theorem State.Canon.gaitRead {e : Env} (h : s.Canon) : Leaves Stop.Canon State.Canon (e.gaitRead s pl) := by
  unfold Env.gaitRead
  refine h.readRows.bind ?_
  rintro ⟨a2, s1⟩ (h1 : s1.Canon)
  split
  · next s2 e3 =>
      have h2 : s2.Canon := (Snd.mk h1).of_eq e3
      split
      · exact h2.trap
      · exact h2.commit.modCore

theorem State.Canon.matPlan {e : Env} (h : s.Canon) : Tries (e.matPlan s) := by
  unfold Env.matPlan
  split
  · exact h.latPlan
  · exact h.gaitPlan
  · exact h.matIssue
  · exact h.matIssue
  · exact h.matIssue
  · exact h.maccPlan

theorem State.Canon.matMove {e : Env} (h : s.Canon) {x : Except Stop State} (hx : e.matMove s pl = x) :
    Leaves Stop.Canon State.Canon x := by
  unfold Env.matMove at hx
  split at hx
  · exact hx ▸ h.latRun
  · exact hx ▸ h.maccZero
  · exact hx ▸ h.maccLd
  · exact hx ▸ h.maccSt
  · exact h.maccCvt hx
  · exact hx ▸ h.gaitRead

theorem State.Canon.bodyMat (h : s.Canon) : Tries (bodyMat e s) := by
  unfold Machine.bodyMat
  refine h.matIssue.bind ?_
  rintro ⟨a2, s1⟩ (h1 : s1.Canon)
  exact Leaves.ite h1 (h1.matRead.bind (fun _ _ => h1.wa))

theorem State.Canon.bodyMove {plan : Env → State → Except Stop (MPlan × State)} {run : Env → State → MPlan → Except Stop State}
    (hf : ∀ x1 x2, x2.Canon → Tries (plan x1 x2)) (hf2 : ∀ x1 x2 x3, x2.Canon → Leaves Stop.Canon State.Canon (run x1 x2 x3)) (g3 : s.Canon) :
    Tries (bodyMove plan run e s) := (hf _ _ g3).bind (fun | (_, s4), (h4 : s4.Canon) => (hf2 _ _ _ h4).bind (fun _ h5 => h5))

theorem State.Canon.bodyMlat (h : s.Canon) : Tries (bodyMlat e s) := State.Canon.bodyMove (fun _ _ h1 => h1.latPlan) (fun _ _ _ h2 => h2.latRun) h
theorem State.Canon.bodyMaccZero (h : s.Canon) : Tries (bodyMaccZero e s) :=
  State.Canon.bodyMove (fun _ _ h1 => h1.maccPlan) (fun _ _ _ h2 => h2.maccZero) h

theorem State.Canon.bodyMaccLd (h : s.Canon) : Tries (bodyMaccLd e s) :=
  State.Canon.bodyMove (fun _ _ h1 => h1.maccPlan) (fun _ _ _ h2 => h2.maccLd) h

theorem State.Canon.bodyMaccSt (h : s.Canon) : Tries (bodyMaccSt e s) :=
  State.Canon.bodyMove (fun _ _ h1 => h1.maccPlan) (fun _ _ _ h2 => h2.maccSt) h

theorem State.Canon.bodyMaccCvt (h : s.Canon) {x} (hx : bodyMaccCvt e s = x) : Tries x := by
  unfold Machine.bodyMaccCvt at hx
  generalize hr : Env.maccCvt = run at hx
  rw [← hx]
  exact State.Canon.bodyMove (fun _ _ h => h.maccPlan) (fun _ _ _ h => h.maccCvt (by rw [hr])) h

theorem State.Canon.bodyGaitl (h : s.Canon) : Tries (bodyGaitl e s) :=
  State.Canon.bodyMove (fun _ _ h1 => h1.gaitPlan) (fun _ _ _ h2 => h2.gaitRead) h

theorem State.Canon.noteConsumed (h : s.Canon) : (s.noteConsumed c q).Canon := by
  unfold State.noteConsumed
  split
  · exact h
  · exact h.modCore

theorem State.Canon.matrixTrap {s1 : State} (h : s.Canon) (g2 : s1.Canon) : (s.matrixTrap c s1 t).Canon := h.ite g2.seqTrap
theorem State.Canon.matrixIssue {core : CoreId} (h : s.Canon) : (s.matrixIssue core).Canon := by
  unfold State.matrixIssue
  split
  · exact h
  · extract_lets _ _ _ s1 _ k2
    have h1 : s1.Canon := h.modCtx.beginAccess
    have h2 : ∀ x1, x1.Canon → (k2 x1).Canon := by
      intro x1 h3
      unfold k2
      exact h3.modCore
    split
    · exact h
    · split
      · exact h.ite (((h2 _ h1).noteConsumed).seqDone)
      · split
        · next s4 e5 =>
            have h4 : s4.Canon := h1.matPlan.ok e5
            exact (h.ite (((h2 _ h4).noteConsumed).seqDone)).ite (((h2 _ h4).modCore).modCtx)
        · exact h.seqHeld
        · exact h
        · next e6 => exact h.matrixTrap (h1.matPlan.error e6)

theorem State.Canon.matrixReadEnd {core : CoreId} (h : s.Canon) : (s.matrixReadEnd core).Canon := by
  unfold State.matrixReadEnd
  split
  · exact h
  · extract_lets _ _ _ s1 _ _ k2
    have h1 : s1.Canon := h.modCtx.beginAccess
    have h2 : ∀ x1 x2, x1.Canon → (k2 x1 x2).Canon := by
      intro x1 x2 h3
      unfold k2
      exact h3.modCore.modCtx
    split
    · exact h
    · split
      · split
        · exact (h2 _ _ h1).noteConsumed
        · exact h.ite h.seqTrap
        · exact h
      · split
        · next e4 => exact h2 _ _ ((h1.matMove rfl).ok e4)
        · next e5 => exact h.ite ((h1.matMove rfl).error e5).modCtx.seqTrap
        · exact h

theorem State.Canon.matrixWrite {core : CoreId} (h : s.Canon) : (s.matrixWrite core).Canon := by
  unfold State.matrixWrite
  split
  · exact h
  · extract_lets _ _ s1
    have h1 : s1.Canon := by
      unfold s1
      split
      · exact h.wa
      · exact h
    exact h.ite h1.modCore.modCtx.seqDone

theorem State.Canon.consumedSignal {core : CoreId} (h : s.Canon) : (s.consumedSignal core).Canon := by
  unfold State.consumedSignal
  split
  · exact h
  · exact h.modCore.signalLocal

end Sys2Proof.Machine
end

