-- ==== Sys2Proof/Proofs/CanonEngines.lean ====
section
/-! Messages, spurs and the engines keep memory canonical. -/

namespace Sys2Proof.Machine

open Sys2Proof

set_option autoImplicit true

variable {s : State}

/-! Machine/Message. -/

theorem State.Canon.replySlot {e : Env} (h : s.Canon) : Checks (e.replySlot s) := by
  unfold Env.replySlot
  split
  · exact trivial
  · exact h.trapIf.bind (fun _ _ => h.trapIf.bind (fun _ _ => h.trapIf.bind (fun _ _ => trivial)))

theorem State.Canon.msgRelease {e : Env} (h : s.Canon) : Checks (e.msgRelease s scope) := h.relWait.bind (fun _ _ => trivial)
theorem State.Canon.emit {e : Env} (h : s.Canon) : Tries (e.emit s m) := Leaves.ite h.modCtx h.commit.post
theorem State.Canon.bodySendTask (h : s.Canon) : Tries (bodySendTask multi e s) := by
  unfold Machine.bodySendTask
  extract_lets
  refine Leaves.bind (A := (fun _ => True)) ?_ ?_
  · split
    · exact trivial
    · exact h.trap
  · intro _ _
    dsimp -zeta only
    refine h.trapIf.bind fun _ _ => ?_
    extract_lets
    split
    · exact h.relWait.bind (fun _ _ => h)
    · refine Leaves.bind (A := (fun _ => True)) ?_ ?_
      · split
        · exact trivial
        · exact h.trap
      · intro _ _
        refine Leaves.bind (A := (fun _ => True)) (Leaves.ite h.replySlot trivial) fun _ _ => ?_
        exact h.msgRelease.bind (fun _ _ => h.emit)

theorem State.Canon.bodySendReply (h : s.Canon) : Tries (bodySendReply e s) :=
  Leaves.ite h (h.trapIf.bind (fun _ _ => h.msgRelease.bind (fun _ _ => h.emit)))

theorem State.Canon.reenterAll (h : s.Canon) : (s.reenterAll c a).Canon := by
  induction a generalizing s with
  | zero => exact h
  | succ n ih => exact ih h.reenter

theorem State.Canon.acceptTask (h : s.Canon) : (s.acceptTask m c).Canon := h.modTile.ite h.setCore.wakeFor
theorem State.Canon.answerSend {fail : Option (ℕ × Cause)} (h : s.Canon) : (s.answerSend send fail late).Canon := by
  unfold State.answerSend
  split
  · exact h
  · exact h.keep

theorem State.Canon.sendBack (h : s.Canon) : (s.sendBack p src tries pl).Canon := h.setPacket
theorem State.Canon.dropSpur (h : s.Canon) : (s.dropSpur vt).Canon := h.modTile
/-- What `acceptAll` does with one offer; the functions it waits for are left open, or the 32 tries of `reenterAll` would be evaluated. -/
theorem State.acceptAll_cons (s : State) (x : Offer) (r : List Offer) : s.acceptAll (x :: r) =
    match (s.reenterAll ⟨x.1.dst, x.2.1.pos⟩ 32).refusal x.2.1 ⟨x.1.dst, x.2.1.pos⟩ with
    | none => ((((s.reenterAll ⟨x.1.dst, x.2.1.pos⟩ 32).dropPacket x.1.id).acceptTask x.2.1 ⟨x.1.dst, x.2.1.pos⟩).answerSend
        x.2.2.2 none false).acceptAll r
    | some cause => .error (x, cause) := by
  delta State.acceptAll State.acceptAll._f
  generalize State.refusal = f, State.reenterAll = g
  exact Eq.refl _

theorem State.Canon.acceptAll {s t : State} (h : s.Canon) (e : s.acceptAll l = .ok t) : t.Canon := by
  induction l generalizing s with
  | nil =>
    delta State.acceptAll at e
    exact h.of_eq (Except.ok.inj e)
  | cons x r ih =>
    rw [State.acceptAll_cons] at e
    split at e
    · exact ih h.reenterAll.dropPacket.acceptTask.answerSend e
    · cases e

theorem State.Canon.gangOffer (h : s.Canon) : (s.gangOffer l).Canon := by
  unfold State.gangOffer
  split
  · exact h
  · split
    · next e => exact h.acceptAll e
    · split
      · exact h.sendBack
      · exact h.foldl fun _ _ h => h.dropPacket.answerSend

theorem State.Canon.refuseTask (h : s.Canon) : (s.refuseTask p m tries send cause).Canon :=
  h.sendBack.ite (h.dropPacket.answerSend.dropSpur.ite h.dropPacket.answerSend)

theorem State.Canon.taskArrival (h : s.Canon) : (s.taskArrival k).Canon := by
  unfold State.taskArrival
  split
  · extract_lets c s1
    have h1 : s1.Canon := h.reenterAll
    split
    · exact h
    · split
      · exact h.gangOffer
      · clear_value s1
        split
        · exact h1.dropPacket.acceptTask.answerSend
        · exact h1.refuseTask
  · exact h

theorem State.Canon.packetRetry (h : s.Canon) : (s.packetRetry k isMsg).Canon := by
  unfold State.packetRetry
  split
  · extract_lets
    split
    · exact h.restart.ite h
    · exact h
  · exact h

theorem State.Canon.takeReport (h : s.Canon) : (s.takeReport c0).Canon := by
  unfold State.takeReport
  split
  · exact h.modCore.takeTrapTag
  · exact h

theorem State.Canon.reportRefusal (h : s.Canon) : (s.reportRefusal r code val).Canon :=
  h.record.snd.ite (h.record.snd.modCore.takeReport.ite h.record.snd.modCore)

theorem State.Canon.reportOr {t : State} (h : s.Canon) (g2 : t.Canon) : (s.reportOr t).Canon := g2.ite h.takeReport
theorem State.Canon.takeLate (h : s.Canon) : (s.takeLate c tag val).Canon := h.gangTrap.ite h.takeTrapTag
theorem State.Canon.gangLate (h : s.Canon) : (s.gangLate ms).Canon := by
  unfold State.gangLate
  extract_lets
  split
  · exact h
  · exact h.keep.takeLate

theorem State.Canon.deliveryAnswer {id : ℕ} (h : s.Canon) : (s.deliveryAnswer id).Canon := by
  unfold State.deliveryAnswer
  split
  · exact h
  · extract_lets _ s1 s2
    have h1 : s1.Canon := h.keep
    have h2 : s2.Canon := h1.modCore
    split
    · exact h
    · split
      · split
        · exact h
        · split
          · exact h
          · split
            · exact h1
            · split
              · split
                · exact h2.reportRefusal
                · exact h2
              · split
                · exact h1.trapAt
                · exact h1.finishWaiting.ite (h.finishWaiting.ite h1.finishWaiting.takeLate)
      · split
        · exact h
        · split
          · exact h
          · split
            · exact h1
            · split
              · split
                · exact h2.reportRefusal
                · exact h2
              · split
                · exact h1.trapAt
                · exact h1.finishWaiting.ite (h.finishWaiting.ite h1.finishWaiting.takeLate)

theorem State.Canon.replyDelivery (h : s.Canon) : (s.replyDelivery k).Canon := by
  unfold State.replyDelivery
  split
  · split
    · exact h
    · extract_lets s1 _ _ _ _ _ _ k2
      have h1 : s1.Canon := h.dropPacket.answerSend
      have h2 : ∀ x1 x2, x1.Canon → (k2 x1 x2).Canon := by
        intro x1 x2 h3
        unfold k2
        exact h3.record.snd
      exact (h1.ite h1.keep).ite ((h2 _ _ h1).ite ((h2 _ _ h1).ite (h1.commitOthers.trimRels.poke.ite h1).reinRelease.signal))
  · exact h

/-! Machine/EngineAccess. -/

theorem State.Canon.engPart (h : s.Canon) : Leaves (Snd State.Canon) (Snd State.Canon) (s.engPart own sup k align p n) := by
  unfold State.engPart
  split
  · exact h
  · extract_lets
    dsimp -zeta only
    split
    · split
      · exact h
      · split
        · exact h
        · split
          · exact h
          · split
            · exact h
            · split
              · next e1 => exact h.homeAddr.ok e1
              · next e2 => exact h.homeAddr.error e2
    · split
      · exact h.rousePath.receiver.snd
      · split
        · exact h.rousePath.receiver.snd
        · split
          · exact h.rousePath.receiver.snd
          · split
            · exact h.rousePath.receiver.snd
            · split
              · next e3 => exact h.rousePath.receiver.snd.homeAddr.ok e3
              · next e4 => exact h.rousePath.receiver.snd.homeAddr.error e4

theorem State.Canon.engParts (h : s.Canon) : Leaves (Snd State.Canon) (Snd State.Canon) (s.engParts own sup k align l) := by
  induction l generalizing s align with
  | nil => exact h
  | cons x r ih =>
    unfold State.engParts
    split
    · next e1 => exact h.engPart.error e1
    · next s2 e3 =>
        have h2 : s2.Canon := h.engPart.ok e3
        split
        · next e4 => exact (ih h2).error e4
        · next e5 => exact (ih h2).ok e5

theorem State.Canon.engRange (h : s.Canon) : Leaves (Snd State.Canon) (Snd State.Canon) (s.engRange own sup k align base d n) := by
  unfold State.engRange
  split
  · exact h
  · exact Leaves.ite h h.engParts

theorem State.Canon.engTouch (h : s.Canon) : (s.engTouch l).Canon := by
  induction l generalizing s with
  | nil => exact h
  | cons x r ih => exact ih h.touch

theorem State.Canon.engPoke (h : s.Canon) : (s.engPoke l l1).Canon := by
  induction l generalizing s l1 with
  | nil => exact h
  | cons x r ih => exact ih h.trimRels.poke

theorem State.Canon.engRead (h : s.Canon) : Leaves (Snd State.Canon) (Snd State.Canon) (s.engRead own sup align base d n) := by
  unfold State.engRead
  split
  · next e1 => exact (h.engRange.ok e1).engTouch
  · next e2 => exact h.engRange.error e2

theorem State.Canon.engWrite (h : s.Canon) : Leaves (Snd State.Canon) State.Canon (s.engWrite own sup align base d b) := by
  unfold State.engWrite
  split
  · next e1 => exact (h.engRange.ok e1).engTouch.engPoke
  · next e2 => exact h.engRange.error e2

theorem State.Canon.engAbsent (h : s.Canon) : Snd State.Canon (s.engAbsent vt p tag ident launch) := by
  unfold State.engAbsent
  extract_lets
  dsimp -zeta only
  exact h.record.snd

/-! Machine/Spur. -/

theorem State.Canon.setBank (h : s.Canon) : (s.setBank vt b).Canon := h.modTile
theorem State.Canon.modBank {f : Bank → Bank} (h : s.Canon) : (s.modBank vt f).Canon := h.modTile
theorem State.Canon.setNeuron (h : s.Canon) : (s.setNeuron vt b n i n1).Canon := h.poke
theorem State.Canon.spurTask (h : s.Canon) : (s.spurTask vt b n tick st code).Canon := h.inject.taskArrival
theorem State.Canon.spurError (h : s.Canon) : (s.spurError vt).Canon := h.modBank
theorem State.Canon.tableRead (h : s.Canon) : (s.tableRead vt b ofs n).Canon := by
  unfold State.tableRead
  extract_lets k1
  have h1 : ∀ x1 x2 x3, x1.Canon → (k1 x1 x2 x3).Canon := by
    intro x1 x2 x3 h2
    unfold k1
    exact h2.recordFail.spurError
  split
  · exact h1 _ _ _ h.modBank
  · split
    · next e3 => exact h.engRead.ok e3
    · next s4 e5 =>
        have h4 : s4.Canon := h.engRead.error e5
        split
        · dsimp -zeta only
          exact h4.engAbsent.snd.modBank
        · exact h1 _ _ _ h4

theorem State.Canon.emitEvent (h : s.Canon) : Given State.Canon (s.emitEvent vt b e) := by
  unfold State.emitEvent
  extract_lets
  split
  · exact h.setBank
  · exact Given.ite Given.none (Given.ite (Given.intro h.setBank) (Given.intro h.setBank.inject))

theorem State.Canon.emitRun (h : s.Canon) : (s.emitRun vt a).Canon := by
  induction a generalizing s with
  | zero => exact h
  | succ n ih =>
    unfold State.emitRun
    split
    · exact h
    · split
      · exact h
      · split
        · exact h
        · split
          · split
            · next e1 => exact h.tableRead.of_eq e1
            · next e2 => exact ih (h.tableRead.of_eq e2).modBank
            · next s3 e4 =>
                have h3 : s3.Canon := h.tableRead.of_eq e4
                exact (ih h3.spurError.modBank).ite (ih h3.modBank)
          · split
            · exact h.modBank.spurTask.ite h.modBank
            · extract_lets k5
              have h5 : ∀ x1, x1.Canon → (k5 x1).Canon := by
                intro x1 h6
                unfold k5
                exact h6.modBank
              split
              · next e7 => exact h.tableRead.of_eq e7
              · next e8 => exact ih (h5 _ (h.tableRead.of_eq e8))
              · next s9 e10 =>
                  have h9 : s9.Canon := h.tableRead.of_eq e10
                  split
                  · extract_lets
                    split
                    · next e11 => exact ih (h5 _ (h9.emitEvent.some e11))
                    · exact h9
                  · exact ih (h5 _ h9.spurError)

theorem State.Canon.fireNeuron (h : s.Canon) : (s.fireNeuron vt b n t st).Canon := h.setNeuron.setNeuron.setNeuron.modBank
theorem State.Canon.applyEvent (h : s.Canon) : (s.applyEvent vt b e t).Canon := by
  unfold State.applyEvent
  extract_lets _ _ _ k1 k2
  have h1 : ∀ x1, x1.Canon → (k1 x1).Canon := by
    intro x1 h3
    unfold k1
    exact h3.setNeuron
  have h2 : ∀ x1, (k2 x1).Canon := by
    intro x1
    unfold k2
    exact (h1 _ h).ite (((h1 _ h.setNeuron).fireNeuron).ite (h1 _ h.setNeuron))
  split
  · exact h2 _
  · exact h1 _ h.setNeuron
  · exact h1 _ h.setNeuron.setNeuron
  · exact h.spurTask.ite h.spurError
  · exact h2 _

theorem State.Canon.closeRun (h : s.Canon) : (s.closeRun vt a).Canon := by
  induction a generalizing s with
  | zero => exact h
  | succ n ih =>
    unfold State.closeRun
    split
    · exact h
    · split
      · exact h
      · split
        · exact h.setBank
        · exact ih h.setBank.applyEvent.emitRun

theorem State.Canon.closeTick (h : s.Canon) : (s.closeTick vt).Canon := by
  unfold State.closeTick
  split
  · exact h
  · exact h.emitRun.closeRun.ite (h.ite h.closeRun)

theorem State.Canon.closeToward {target : ℕ} (h : s.Canon) : (s.closeToward vt target).Canon := by
  unfold State.closeToward
  split
  · exact h
  · exact h.closeTick.ite (h.ite (h.setBank.closeTick.ite h.setBank))

theorem State.Canon.paceClose (h : s.Canon) : (s.paceClose vt).Canon := by
  unfold State.paceClose
  split
  · exact h
  · exact h.ite (h.ite h.closeTick)

theorem State.Canon.closeResume (h : s.Canon) : (s.closeResume vt).Canon := by
  unfold State.closeResume
  split
  · exact h
  · exact h.closeTick.ite h

theorem State.Canon.bodySpurCfg (h : s.Canon) : Tries (bodySpurCfg e s) := by
  unfold Machine.bodySpurCfg
  split
  · exact h
  · extract_lets
    refine h.coreAddr.bind ?_
    rintro ⟨a8, s1⟩ (h1 : s1.Canon)
    dsimp -zeta only
    extract_lets _ _ _ _ _ _ _ s2
    have h2 : s2.Canon := h1.readAt.snd.commit.ws
    refine h1.readAt.snd.trapIf.bind fun _ _ => ?_
    refine Leaves.bind (A := (fun _ => True)) ?_ ?_
    · split
      · exact trivial
      · exact h1.readAt.snd.trap
    · intro _ _
      exact h1.readAt.snd.trapIf.bind (fun _ _ => Leaves.ite h2.modTile h2.poke.setBank.keep)

theorem State.Canon.bodySpurPost (h : s.Canon) : Tries (bodySpurPost e s) :=
  h.trapIf.bind (fun _ _ => h.trapIf.bind (fun _ _ => h.commit.keep.inject))

theorem State.Canon.needBank {e : Env} (h : s.Canon) : Checks (e.needBank s) := by
  unfold Env.needBank
  split
  · exact trivial
  · exact h

theorem State.Canon.bodySpurTick (h : s.Canon) : Tries (bodySpurTick e s) := by
  unfold Machine.bodySpurTick
  extract_lets _ s1 _ s2
  have h1 : s1.Canon := h.commit
  have h2 : s2.Canon := h1.closeToward
  refine h.needBank.bind fun _ _ => ?_
  split
  · exact h1.put
  · split
    · exact Leaves.ite h2 h2.put
    · exact h2

theorem State.Canon.bodySpurRead (h : s.Canon) : Tries (bodySpurRead e s) := h.trapIf.bind (fun _ _ => h.put)
theorem State.Canon.bodySpurDrain (h : s.Canon) : Tries (bodySpurDrain e s) := h.needBank.bind (fun _ _ => Leaves.ite h.commit h.commit.modBank.put)
theorem State.Canon.unitDone (h : s.Canon) : (s.unitDone unit dropped).Canon := by
  unfold State.unitDone
  split
  · exact h.modBank.ite h
  · exact h

theorem State.Canon.spurFull (h : s.Canon) : (s.spurFull p e tries unit send launch).Canon := h.sendBack.ite h.dropPacket.unitDone.answerSend
theorem State.Canon.spurArrival (h : s.Canon) : (s.spurArrival k).Canon := by
  unfold State.spurArrival
  split
  · exact h
  · split
    · split
      · exact h
      · extract_lets k1
        have h1 : ∀ x1, (k1 x1).Canon := by
          intro x1
          unfold k1
          exact h.dropPacket.unitDone.answerSend
        split
        · exact h1 _
        · exact (h1 _).ite (h.spurFull.ite h.dropPacket.setBank.unitDone.answerSend)
    · exact h

/-! Machine/Engines. -/

theorem State.Canon.ptrFormat {e : Env} (h : s.Canon) : Checks (e.ptrFormat s p) := Leaves.ite h.trap (Leaves.ite h.trap trivial)
theorem State.Canon.ptrRange {e : Env} (h : s.Canon) : Checks (e.ptrRange s p n) := Leaves.ite h.trap trivial
theorem State.Canon.ptrSpace {e : Env} (h : s.Canon) : Checks (e.ptrSpace s p) := by
  unfold Env.ptrSpace
  split
  · exact trivial
  · exact h

theorem State.Canon.issued (h : s.Canon) : (s.issued c).Canon := h.keep.modCtx.useFabric
theorem State.Canon.retireSoon (h : s.Canon) : (s.retireSoon c).Canon := h.keep
theorem State.Canon.submit {e : Env} (h : s.Canon) : Tries (e.submit s engine c dst src) :=
  Leaves.ite h (Leaves.ite h ((h.commit.issued.modCore.ite h.commit.issued).modTile))

theorem State.Canon.bodyCpy (h : s.Canon) : Tries (bodyCpy e s) := by
  unfold Machine.bodyCpy
  refine h.guardWord.bind ?_
  rintro ⟨a2, s1⟩ (h1 : s1.Canon)
  exact Leaves.ite h1.commit.retireSoon.issued (h1.ptrFormat.bind (fun _ _ => h1.ptrFormat.bind (fun _ _ => h1.ptrRange.bind (fun _ _ =>
      h1.ptrRange.bind (fun _ _ => h1.ptrSpace.bind (fun _ _ => h1.ptrSpace.bind (fun _ _ => Leaves.ite h1.commit.retireSoon.issued h1.submit)))))))

theorem State.Canon.bodyGth (h : s.Canon) : Tries (bodyGth latch e s) := by
  unfold Machine.bodyGth
  refine h.guardWord.bind ?_
  rintro ⟨a2, s1⟩ (h1 : s1.Canon)
  dsimp -zeta only
  extract_lets _ _ _ _ _ _ _ _ k2 k3
  have h2 : ∀ x1, Tries (k2 x1) := by
    intro x1
    unfold k2
    refine h1.ptrRange.bind fun _ _ => ?_
    refine Leaves.bind (A := (fun _ => True)) (Leaves.ite trivial h1.ptrSpace) fun _ _ => ?_
    exact h1.ptrSpace.bind (fun _ _ => h1.ptrSpace.bind (fun _ _ => h1.submit))
  have h3 : ∀ x1, Tries (k3 x1) := by
    intro x1
    unfold k3
    refine h1.ptrFormat.bind fun _ _ => ?_
    refine h1.ptrFormat.bind fun _ _ => ?_
    exact h1.trapIf.bind (fun _ _ => Leaves.ite (h2 ()) (h1.ptrRange.bind (fun _ _ => h2 ())))
  exact Leaves.ite h1.submit (Leaves.ite (h3 ()) (h1.ptrFormat.bind (fun _ _ => h3 ())))

theorem Leaves.rowThen {α : Type} {x : Except (EngFail × State) (α × State)} {f : α → State → RowEnd}
    (h : Leaves (Snd State.Canon) (Snd State.Canon) x) (hf : ∀ a s, s.Canon → (f a s).Canon) : (rowThen x f).Canon := by
  unfold Machine.rowThen
  split
  · exact hf _ _ h
  · exact RowEnd.Canon.ite h h

theorem State.Canon.rowWrite (h : s.Canon) : (s.rowWrite c d b).Canon := Leaves.rowThen h.engRange (fun _ _ h1 => h1.engTouch.engPoke)
theorem State.Canon.copyRow (h : s.Canon) : (s.copyRow c i).Canon := Leaves.rowThen h.engRead (fun _ _ h1 => h1.rowWrite)
theorem State.Canon.gatherRow (h : s.Canon) : (s.gatherRow c i).Canon :=
  Leaves.rowThen h.engRead fun _ _ h => Leaves.rowThen h.engRead fun _ _ h => RowEnd.Canon.ite (h.ite h.wg) h.rowWrite

theorem State.Canon.cmdAbsent (h : s.Canon) : Snd State.Canon (s.cmdAbsent c addr) := by
  unfold State.cmdAbsent
  dsimp -zeta only
  exact h.engAbsent.snd

theorem State.Canon.runRows (h : s.Canon) : Snd (Snd State.Canon) (s.runRows c a) := by
  induction a generalizing s c with
  | zero => exact h
  | succ n ih =>
    unfold State.runRows
    split
    · next e1 => exact ih ((h.copyRow.ite h.gatherRow).of_eq e1)
    · next e2 => exact (h.copyRow.ite h.gatherRow).of_eq e2
    · next e3 =>
        dsimp -zeta only
        exact ((h.copyRow.ite h.gatherRow).of_eq e3).cmdAbsent.snd

theorem State.Canon.zeroRows (h : s.Canon) : (s.zeroRows c).Canon := h.wg.ite h
theorem State.Canon.sourceRead (h : s.Canon) : (s.sourceRead c).Canon := h.modCore
theorem State.Canon.runInbox (h : s.Canon) : (s.runInbox vt gather n).Canon := by
  unfold State.runInbox
  extract_lets
  split
  · exact h
  · split
    · exact h
    · split
      · exact h
      · dsimp -zeta only
        extract_lets _ s1
        have h1 : s1.Canon := (((Snd.ite (Snd.mk (Snd.mk h)) h.runRows).snd).snd).modTile
        exact h1.zeroRows.sourceRead.retireSoon.ite h1

theorem State.Canon.bodyColl (h : s.Canon) : Tries (bodyColl kind e s) := by
  unfold Machine.bodyColl
  refine Leaves.guard h.ptrFormat fun _ => ?_
  refine Leaves.guard h.ptrFormat fun _ => ?_
  refine h.trapIf.bind fun _ _ => ?_
  extract_lets _ k1 k2
  have h1 : ∀ x1, Tries (k1 x1) := by
    intro x1
    unfold k1
    refine Leaves.bind (A := (fun _ => True)) (Leaves.ite h.ptrSpace trivial) fun _ _ => ?_
    refine Leaves.bind (A := (fun _ => True)) (Leaves.ite h.ptrSpace trivial) fun _ _ => ?_
    exact Leaves.ite h (h.relWait.bind (fun _ _ => h.submit))
  have h2 : ∀ x1, Tries (k2 x1) := by
    intro x1
    unfold k2
    exact Leaves.ite (h.ptrRange.bind (fun _ _ => h1 ())) (h1 ())
  exact h.trapIf.bind (fun _ _ => Leaves.ite (h.ptrRange.bind (fun _ _ => h2 ())) (h2 ()))

theorem State.Canon.takeContribution (h : s.Canon) : (s.takeContribution vt).Canon := by
  unfold State.takeContribution
  split
  · exact h
  · exact h.ite h.modTile

theorem State.Canon.readAll (h : s.Canon) : (s.readAll l l1).Canon := by
  induction l generalizing s l1 with
  | nil => exact h
  | cons x r ih =>
    unfold State.readAll
    split
    · exact h
    · split
      · next e1 => exact ih (h.engRead.ok e1)
      · next s2 e3 =>
          have h2 : s2.Canon := h.engRead.error e3
          split
          · exact h2
          · exact h2

theorem State.Canon.destAll (h : s.Canon) : (s.destAll n root all l).Canon := by
  induction l generalizing s with
  | nil => exact h
  | cons x r ih =>
    unfold State.destAll
    extract_lets k1
    have h1 : ∀ x1 x2 x3, x3.Canon → (k1 x1 x2 x3).Canon := by
      intro x1 x2 x3 h2
      unfold k1
      split
      · next s3 e4 =>
          have h3 : s3.Canon := (ih h2).of_eq e4
          exact h3
      · next s5 e6 =>
          have h5 : s5.Canon := (ih h2).of_eq e6
          exact h5
    split
    · exact h1 _ _ _ h
    · split
      · exact h1 _ _ _ h
      · split
        · next s7 e8 =>
            have h7 : s7.Canon := h.engRange.ok e8
            exact h1 _ _ _ h7
        · next s9 e10 =>
            have h9 : s9.Canon := h.engRange.error e10
            split
            · exact h9
            · exact h1 _ _ _ h9

theorem State.Canon.writeAll (h : s.Canon) : (s.writeAll b l).Canon := by
  induction l generalizing s with
  | nil => exact h
  | cons x r ih =>
    obtain ⟨c, _ | p⟩ := x
    · exact ih h
    · exact ih h.engTouch.engPoke

theorem State.Canon.endEpisode (h : s.Canon) : (s.endEpisode cs).Canon := h.keep.keep
theorem State.Canon.episodeWaits (h : s.Canon) : (s.episodeWaits c addr).Canon := by
  unfold State.episodeWaits
  dsimp -zeta only
  exact h.cmdAbsent.snd.modTile

theorem State.Canon.result (h : s.Canon) : (s.result cs w b).Canon := by
  unfold State.result
  split
  · next e1 => exact (h.destAll.of_eq e1).episodeWaits
  · next e2 => exact (h.destAll.of_eq e2).writeAll.endEpisode

theorem State.Canon.settleAll {id : ℕ} (h : s.Canon) : Snd State.Canon (s.settleAll id l) := by
  induction l generalizing s with
  | nil => exact h
  | cons x r ih =>
    unfold State.settleAll
    extract_lets k1
    have h1 : ∀ x1 x2, x1.Canon → Snd State.Canon (k1 x1 x2) := by
      intro x1 x2 h2
      unfold k1
      exact (ih h2.recordFail).snd
    split
    · next e3 => exact h1 _ _ (h.engRange.error e3)
    · next e4 => exact ih (h.engRange.ok e4).engTouch.engPoke

theorem State.Canon.settle {id : ℕ} (h : s.Canon) : Snd State.Canon (s.settle id) := by
  unfold State.settle
  split
  · exact h
  · exact h.settleAll.snd.modLaunch

theorem State.Canon.register (h : s.Canon) : Snd State.Canon (s.register c) := by
  unfold State.register
  split
  · exact h
  · extract_lets
    split
    · exact h
    · split
      · exact h
      · exact h.modLaunch

theorem State.Canon.episode (h : s.Canon) : (s.episode cs f).Canon := by
  unfold State.episode
  extract_lets _ k1 root3
  have h1 : ∀ x1 x2, x1.Canon → (k1 x1 x2).Canon := by
    intro x1 x2 h2
    unfold k1
    exact h2.endEpisode
  split
  · exact (h.settle.snd.ite h).endEpisode
  · split
    · exact h.settle.snd.endEpisode
    · clear_value root3
      split
      · exact h
      · extract_lets k3
        have h3 : ∀ x1 x2, x1.Canon → (k3 x1 x2).Canon := by
          intro x1 x2 h4
          unfold k3
          exact h4.endEpisode
        split
        · exact h3 _ _ h
        · split
          · next e5 => exact h3 _ _ (h.register.of_eq e5)
          · next s6 e7 =>
              have h6 : s6.Canon := h.register.of_eq e7
              exact h6.episodeWaits.ite (h3 _ _ h6)
    · split
      · next e8 => exact (h.readAll.of_eq e8).result
      · next e9 => exact h1 _ _ (h.readAll.of_eq e9)
      · next e10 => exact (h.readAll.of_eq e10).episodeWaits
    · split
      · next e11 => exact (h.readAll.of_eq e11).result
      · next e12 => exact h1 _ _ (h.readAll.of_eq e12)
      · next e13 => exact (h.readAll.of_eq e13).episodeWaits

theorem State.Canon.runEpisode (h : s.Canon) : (s.runEpisode launch ident).Canon := by
  unfold State.runEpisode
  split
  · exact h
  · split
    · exact h
    · split
      · exact h
      · exact h.episode

theorem State.Canon.bodyCollDigest (h : s.Canon) : Tries (bodyCollDigest e s) := by
  unfold Machine.bodyCollDigest
  refine Leaves.guard h.ptrFormat fun _ => ?_
  refine h.ptrFormat.bind fun _ _ => ?_
  refine Leaves.guard h.ptrRange fun _ => ?_
  exact h.ptrRange.bind (fun _ _ => Leaves.bind (A := (fun _ => True)) (Leaves.ite h.ptrSpace trivial) (fun _ _ => h.ptrSpace.bind (fun _ _ =>
      h.submit)))

theorem State.Canon.declare (h : s.Canon) : Snd State.Canon (s.declare c) := by
  unfold State.declare
  split
  · exact h
  · split
    · exact h
    · split
      · exact h
      · exact h.modLaunch

theorem State.Canon.digestOne (h : s.Canon) : Leaves (Snd State.Canon) State.Canon (s.digestOne d) := by
  unfold State.digestOne
  split
  · next e1 => exact h.engRead.error e1
  · next s2 e3 =>
      have h2 : s2.Canon := h.engRead.ok e3
      split
      · exact h2
      · exact h2.engWrite

theorem State.Canon.digestLost {id : ℕ} (h : s.Canon) : (s.digestLost id d addr cause).Canon := h.record.snd.modLaunch
theorem State.Canon.digestPass {id : ℕ} (h : s.Canon) : (s.digestPass id l).Canon := by
  induction l generalizing s with
  | nil => exact h.modLaunch
  | cons x r ih =>
    unfold State.digestPass
    split
    · exact ih h.digestLost.modLaunch
    · split
      · next e1 => exact ih (h.digestOne.ok e1)
      · next s2 e3 =>
          have h2 : s2.Canon := h.digestOne.error e3
          split
          · dsimp -zeta only
            exact h2.engAbsent.snd.modLaunch
          · exact ih h2.digestLost

theorem State.Canon.retireCmd (h : s.Canon) : (s.retireCmd c).Canon := by
  unfold State.retireCmd
  extract_lets _ _ s1 s2 s3
  have h1 : s1.Canon := h.keep.modCore
  have h2 : s2.Canon := by
    unfold s2
    split
    · exact h1
    · exact h1.recordFail.ite h1.recordFail.fillErr
  have h3 : s3.Canon := h2.ite h2.modCtx
  split
  · exact h3
  · extract_lets s4
    have h4 : s4.Canon := h3.reinRelease.ite h3.reinCarry
    exact (h4.modCtx.ite h4).signal

theorem State.Canon.digestStep (h : s.Canon) : (s.digestStep c rest).Canon := by
  unfold State.digestStep
  extract_lets k1
  have h1 : ∀ x1, x1.Canon → (k1 x1).Canon := by
    intro x1 h2
    unfold k1
    exact h2.modTile
  split
  · exact (h1 _ h).retireCmd
  · split
    · next e3 => exact (h1 _ (h.declare.of_eq e3)).retireCmd
    · next s4 e5 =>
        have h4 : s4.Canon := h.declare.of_eq e5
        split
        · dsimp -zeta only
          exact h4.cmdAbsent.snd.modTile
        · exact (h1 _ h4).retireCmd

theorem State.Canon.retireStep (h : s.Canon) : (s.retireStep k).Canon := by
  unfold State.retireStep
  split
  · exact h.ite h.retireCmd
  · split
    · exact h.ite h.digestStep
    · exact h

theorem State.Canon.bodyClassSet (h : s.Canon) : Tries (bodyClassSet unmask e s) := h.commit.modCore.put
theorem State.Canon.bodyClassTest (h : s.Canon) : Tries (bodyClassTest e s) := h.put

end Sys2Proof.Machine
end

