-- ==== Sys2Proof/Proofs/CanonLaunch.lean ====
section
/-! Registers, tandem pairs, stacks, launches, pre-emption and the pager keep memory canonical. -/

namespace Sys2Proof.Machine

open Sys2Proof

set_option autoImplicit true

variable {s : State}

/-! Machine/Sys. -/

theorem State.Canon.writeSlices (h : s.Canon) : (s.writeSlices vd gen).Canon := h.store.storeBytes
theorem State.Canon.remap (h : s.Canon) : (s.remap vd).Canon := by
  unfold State.remap
  exact h.writeSlices.writeBack

theorem State.Canon.setBounds {f : Tile → Tile} (h : s.Canon) : (s.setBounds vt f).Canon := h.modTile.remap.uncover
theorem State.Canon.sysWrite (h : s.Canon) : (s.sysWrite c n w).Canon := by
  unfold State.sysWrite
  extract_lets
  split
  · exact h.setBounds
  · exact h.setBounds
  · exact h.setBounds
  · exact h.modCtx
  · exact h.modCtx
  · exact h.modCtx
  · exact h.modCtx
  · exact h.modCore
  · exact h.modCore
  · exact h.modCtx
  · exact h.modCtx
  · exact h.modCtx
  · exact h.modCore
  · exact h.modCore
  · exact h.modCore
  · exact h.modCore
  · exact h.modCore
  · exact h.modCore
  · exact h.keep
  · exact h

theorem State.Canon.sysPut {e : Env} (h : s.Canon) : Leaves Stop.Canon State.Canon (e.sysPut s) := by
  unfold Env.sysPut
  extract_lets
  split
  · exact h
  · exact (h.commit.ite h).sysWrite

theorem State.Canon.bodyCsrr (h : s.Canon) : Tries (bodyCsrr e s) := h.put
theorem State.Canon.bodyCsrw (h : s.Canon) : Tries (bodyCsrw e s) := h.sysPut.bind (fun _ h1 => h1)
theorem State.Canon.bodyCsrx (h : s.Canon) : Tries (bodyCsrx e s) := h.sysPut.bind (fun _ h1 => h1.put)
theorem State.Canon.regEvent {kind : ℕ → Word → Bool} (h : s.Canon) : (s.regEvent kind).Canon := by
  unfold State.regEvent
  extract_lets
  split
  · exact h.ite (h.sysWrite.ite h)
  · split
    · split
      · refine State.Canon.issue ?_ h.keep
        intro x5 x6 h1
        split
        · exact h1.bodyCsrw
        · exact h1.bodyCsrx
      · exact h
    · exact h

/-! Machine/Tandem. -/

theorem State.Canon.bodyTandemOn (h : s.Canon) : Tries (bodyTandemOn e s) := Leaves.ite h.put h.commit
theorem State.Canon.bodyTandemOff (h : s.Canon) : Tries (bodyTandemOff e s) := Leaves.ite h.put (Leaves.ite h h.commit.uncouple.put)
theorem State.Canon.formPair (h : s.Canon) : (s.formPair c).Canon := h.ite h.modCore.modCore.answerD.fingerBase

/-! Machine/Stacks. -/

theorem State.Canon.modStack {f : StackWord → StackWord} (h : s.Canon) : (s.modStack vd st f).Canon := h.modDie
theorem State.Canon.modStacks {f : StackWord → StackWord} (h : s.Canon) : (s.modStacks vd st f).Canon := by
  unfold State.modStacks
  split
  · exact h.modStack.modStack
  · exact h.modStack

theorem State.Canon.stackNo {e : Env} (h : s.Canon) : Checks (e.stackNo s) := Leaves.ite h.trap trivial
theorem State.Canon.bodyOwnGive (h : s.Canon) : Tries (bodyOwnGive e s) := by
  unfold Machine.bodyOwnGive
  refine h.stackNo.bind fun _ _ => ?_
  exact h.trapIf.bind (fun _ _ => h.trapIf.bind (fun _ _ => h.commit.modStacks.modDie.ws))

theorem State.Canon.bodyOwnQuery (h : s.Canon) : Tries (bodyOwnQuery e s) := h.stackNo.bind (fun _ _ => h.commit.put)
theorem State.Canon.modHand {f : Hand → Hand} (h : s.Canon) : (s.modHand vd st f).Canon := h.modDie
theorem State.Canon.closeEnd (h : s.Canon) : (s.closeEnd vd st).Canon := by
  unfold State.closeEnd
  split
  · exact h
  · split
    · exact h
    · extract_lets s1
      have h1 : s1.Canon := h.modHand
      split
      · exact h1.finishWaiting
      · exact h1

theorem State.Canon.drainEnd (h : s.Canon) : (s.drainEnd vd st).Canon := by
  unfold State.drainEnd
  split
  · exact h.modHand.ite h
  · exact h

theorem State.Canon.writeBackEnd (h : s.Canon) : (s.writeBackEnd vd st).Canon := by
  unfold State.writeBackEnd
  split
  · exact (((h.foldl (fun _ _ h1 => h1.modTile)).writeBack).modHand).ite h
  · exact h

theorem State.Canon.leaseWaitEnd (h : s.Canon) : (s.leaseWaitEnd vd st).Canon := by
  unfold State.leaseWaitEnd
  split
  · exact h.modHand.ite h
  · exact h

theorem State.Canon.moveSums (h : s.Canon) : (s.moveSums old st new).Canon := h.keep
theorem State.Canon.switchStack (h : s.Canon) : (s.switchStack vd st).Canon := by
  unfold State.switchStack
  split
  · split
    · extract_lets _ s1
      have h1 : s1.Canon := h.modStacks.modDie.moveSums
      split
      · exact h1.signal
      · exact h1
    · exact h
  · exact h

theorem State.Canon.renewPage (h : s.Canon) : Leaves (Snd (Snd State.Canon)) (Snd State.Canon) (s.renewPage vt p) := by
  unfold State.renewPage
  extract_lets
  dsimp -zeta only
  split
  · exact h.receiver.snd
  · split
    · exact h.receiver.snd
    · extract_lets _ _ k1
      have h1 : ∀ x1, x1.Canon → (k1 x1).Canon := by
        intro x1 h2
        unfold k1
        exact h2.modTile.modDie
      split
      · exact Leaves.ite h.receiver.snd (h1 _ h.receiver.snd)
      · extract_lets _ _ _ s3
        have h3 : s3.Canon := h.receiver.snd.modTile
        exact Leaves.ite (h1 _ h.receiver.snd) (Leaves.ite h.receiver.snd (h3.ite h3.noteGrant).modDie)

theorem State.Canon.renewAll (h : s.Canon) : Leaves (Snd (Snd (Snd State.Canon))) (Snd State.Canon) (s.renewAll vt l) := by
  induction l generalizing s with
  | nil => exact h
  | cons x r ih =>
    unfold State.renewAll
    split
    · next e1 => exact h.renewPage.error e1
    · next s2 e3 =>
        have h2 : s2.Canon := h.renewPage.ok e3
        split
        · next e4 => exact (ih h2).error e4
        · next e5 => exact (ih h2).ok e5

theorem State.Canon.bodyLeaseRenew (h : s.Canon) : Tries (bodyLeaseRenew e s) := by
  unfold Machine.bodyLeaseRenew
  extract_lets
  refine h.trapIf.bind fun _ _ => ?_
  refine h.lift.bind fun _ _ => ?_
  refine h.lift.bind fun _ _ => ?_
  split
  · exact h.put
  · refine h.trapIf.bind fun _ _ => ?_
    refine h.trapIf.bind fun _ _ => ?_
    extract_lets
    split
    · next e1 => exact (h.renewAll.ok e1).put
    · dsimp -zeta only
      exact h.transFault.snd

/-! Machine/Launching. -/

theorem State.Canon.depRead (h : s.Canon) : Given (Snd State.Canon) (s.depRead vt sup align p o n) := by
  unfold State.depRead
  split
  · next e1 => exact h.engRead.ok e1
  · exact Given.none

theorem State.Canon.readProducers (h : s.Canon) : Given (Snd State.Canon) (s.readProducers vt sup p) := by
  unfold State.readProducers
  split
  · exact Given.none
  · next e1 =>
      extract_lets
      split
      · exact Given.none
      · split
        · exact Given.none
        · next e2 => exact (h.depRead.some e1).depRead.some e2

theorem State.Canon.readNode {die : ℕ} (h : s.Canon) : Given (Snd State.Canon) (s.readNode vt sup die p) := by
  unfold State.readNode
  split
  · exact Given.none
  · next e1 =>
      extract_lets
      split
      · exact Given.none
      · split
        · exact Given.none
        · next e2 => exact Given.ite Given.none (Given.intro ((h.depRead.some e1).depRead.some e2))

theorem State.Canon.validate (h : s.Canon) : Leaves (fun _ => True) (Snd (Snd State.Canon)) (s.validate vt sup b) := by
  unfold State.validate
  extract_lets d deps
  have hd : Given (Snd State.Canon) deps := Given.ite h.readProducers (Given.ite h.readNode (Given.intro (Snd.mk h)))
  clear_value deps
  split
  · exact trivial
  · split
    · exact trivial
    · split
      · exact trivial
      · split
        · exact trivial
        · exact hd

theorem State.Canon.installNode {id : ℕ} {die : ℕ} (h : s.Canon) : (s.installNode id die x).Canon := h.modDie.modLaunch
theorem State.Canon.acceptLaunch {die : ℕ} (h : s.Canon) : Snd State.Canon (s.accept die d x) := by
  unfold State.accept
  split
  · exact h.keep
  · extract_lets _ _ _ _ _ s1
    have h1 : s1.Canon := h.keep
    refine Snd.mk ?_
    split
    · exact h1.installNode
    · exact h1

theorem State.Canon.bodyLaunch (h : s.Canon) : Tries (bodyLaunch e s) := by
  unfold Machine.bodyLaunch
  extract_lets
  refine h.loadBytes.bind ?_
  rintro ⟨a5, s1⟩ (h1 : s1.Canon)
  split
  · next s2 e3 =>
      have h2 : s2.Canon := (Snd.mk h1).of_eq e3
      split
      · exact h2
      · next e4 =>
          dsimp -zeta only
          exact (h2.validate.ok e4).commit.acceptLaunch.snd.put

theorem State.Canon.bodySteal (h : s.Canon) : Tries (bodySteal e s) := h.commit.modDie
theorem State.Canon.clearHelpers (h : s.Canon) : (s.clearHelpers c l).Canon := by
  induction l generalizing s with
  | nil => exact h
  | cons x r ih =>
    unfold State.clearHelpers
    refine ih ?_
    split
    · exact h
    · exact h.setCtx

theorem State.Canon.enterCore (h : s.Canon) : (s.enterCore l c unit lo n).Canon := by
  unfold State.enterCore
  extract_lets _ _ _ s1
  have h1 : s1.Canon := h.modCore.clearHelpers.setCtx
  exact h1.acquireInfo.ite h1

theorem State.Canon.enterUnit (h : s.Canon) : (s.enterUnit l vt unit lo n l1).Canon := by
  induction l1 generalizing s with
  | nil => exact h
  | cons x r ih => exact ih (h.ite (h.enterCore.ite h.enterCore))

theorem State.Canon.enterUnits (h : s.Canon) : (s.enterUnits l l1).Canon := by
  induction l1 generalizing s with
  | nil => exact h
  | cons x r ih => exact ih (h.enterUnit.modLaunch.ite h.enterUnit.modLaunch)

theorem State.Canon.reserveBacking (h : s.Canon) : Given State.Canon (s.reserveBacking l vt) := by
  unfold State.reserveBacking
  split
  · exact h
  · extract_lets
    split
    · exact h.modTile
    · exact Given.none

theorem State.Canon.takeBounds (h : s.Canon) : Given State.Canon (s.takeBounds l vt) :=
  Given.ite (Given.intro h) (Given.ite Given.none (Given.intro h.setBounds))

theorem State.Canon.restate {id : ℕ} (h : s.Canon) : (s.restate id vd).Canon := by
  unfold State.restate
  split
  · exact h
  · split
    · exact h
    · exact h.ite h.modLaunch

theorem State.Canon.entryOpen (h : s.Canon) : Given State.Canon (s.entryOpen l x vt) :=
  Given.ite Given.none (h.takeBounds.bind (fun _ h1 => h1.reserveBacking))

theorem State.Canon.enterTile {id : ℕ} (h : s.Canon) : (s.enterTile id vt fails).Canon := by
  unfold State.enterTile
  split
  · exact h
  · split
    · exact h
    · split
      · exact h
      · next e1 => exact (h.entryOpen.some e1).modLaunch.modTile.enterUnits.restate

theorem State.Canon.coreLeave (h : s.Canon) : (s.coreLeave c).Canon := by
  unfold State.coreLeave
  extract_lets
  split
  · split
    · exact h
    · split
      · exact h.covered.leave.complete.restate
      · exact h
  · exact h

theorem State.Canon.refillOpen (h : s.Canon) : Given State.Canon (s.refillOpen l x vt unit) :=
  Given.ite Given.none (h.takeBounds.bind (fun _ h1 => h1.reserveBacking))

theorem State.Canon.refill {id : ℕ} (h : s.Canon) : (s.refill id vt leader fails).Canon := by
  unfold State.refill
  split
  · exact h
  · split
    · split
      · exact h
      · next s1 e2 =>
          have h1 : s1.Canon := h.refillOpen.some e2
          exact h1.modLaunch.enterUnit.ite h1.modLaunch.enterUnit.restate
    · exact h

theorem State.Canon.stealRequest {id : ℕ} (h : s.Canon) : (s.stealRequest id thief).Canon := by
  unfold State.stealRequest
  split
  · exact h
  · split
    · exact h
    · split
      · exact h
      · split
        · exact h.modLaunch
        · split
          · exact h
          · exact h.modLaunch.keep.restate

theorem State.Canon.stealAnswer {id : ℕ} (h : s.Canon) : (s.stealAnswer id thief).Canon := by
  unfold State.stealAnswer
  split
  · exact h
  · exact h.keep.modLaunch.restate

theorem State.Canon.dispatchReply {die : ℕ} (h : s.Canon) : (s.dispatchReply die ref launch payload).Canon := h.ite h.inject
theorem State.Canon.finishLaunch {id : ℕ} (h : s.Canon) : (s.finishLaunch id).Canon := by
  unfold State.finishLaunch
  split
  · exact h
  · exact h.modLaunch.dispatchReply.modDie.ite h

theorem State.Canon.closeLaunch (h : s.Canon) : (s.closeLaunch l).Canon := by
  unfold State.closeLaunch
  extract_lets s1 s2
  have h1 : s1.Canon := by
    unfold s1
    split
    · exact h
    · dsimp -zeta only
      exact h.settle.snd.modLaunch
  have h2 : s2.Canon := h1.digestPass
  exact h2.ite h2.modLaunch.keep

theorem State.Canon.endLaunch {id : ℕ} (h : s.Canon) : (s.endLaunch id).Canon := by
  unfold State.endLaunch
  split
  · exact h
  · exact (h.closeLaunch.ite h).finishLaunch

theorem State.Canon.decrement {id : ℕ} (h : s.Canon) : (s.decrement id).Canon := by
  unfold State.decrement
  split
  · exact h
  · split
    · extract_lets _ _ s1
      have h1 : s1.Canon := h.modLaunch
      split
      · exact h1.modDie.modLaunch
      · exact h1.modDie
    · exact h

/-! Machine/Preempt. -/

theorem State.Canon.writePieces (h : s.Canon) : Given State.Canon (s.writePieces vt save l) := by
  induction l generalizing s with
  | nil => exact h
  | cons x r ih =>
    unfold State.writePieces
    split
    · exact ih h
    · split
      · next e1 => exact ih (h.engWrite.ok e1)
      · exact Given.none

theorem State.Canon.controlReply (h : s.Canon) : (s.controlReply c).Canon := h.dispatchReply
theorem State.Canon.tileDone (h : s.Canon) : (s.tileDone c vt).Canon := h.keep.controlReply.ite h.keep
theorem State.Canon.preemptBegin {id : ℕ} (h : s.Canon) : (s.preemptBegin id).Canon := by
  unfold State.preemptBegin
  split
  · exact h
  · exact h.keep.foldl (fun _ _ h1 => h1.foldl (fun _ _ h2 => h2.commit))

theorem State.Canon.seqFault (h : s.Canon) : Given State.Canon (s.seqFault c) := by
  unfold State.seqFault
  split
  · exact Given.none
  · split
    · exact Given.none
    · extract_lets
      split
      · exact h.seqRun (fun _ _ _ h1 => h1.vectorBody)
      · exact Given.none

theorem State.Canon.errFirst (h : s.Canon) : Given State.Canon (s.errFirst c) := Given.ite Given.none (Given.map (fun _ _ => h.ite h.trapAt))
theorem State.Canon.dueFirst (h : s.Canon) : Given State.Canon (s.dueFirst cs) := by
  unfold State.dueFirst
  split
  · exact h.takeReport
  · exact Given.findSome (fun _ => Given.findSome (fun _ => h.seqFault))

theorem State.Canon.reportFirst (h : s.Canon) : Given State.Canon (s.reportFirst cs) := by
  unfold State.reportFirst
  split
  · next s1 e2 =>
      have h1 : s1.Canon := (Given.findSome (fun _ => Given.findSome (fun _ => h.errFirst))).some e2
      exact h1
  · exact h.dueFirst

theorem State.Canon.abandon (h : s.Canon) : (s.abandon c).Canon := h.ite h.unhand.modCtx
theorem State.Canon.withdraw (h : s.Canon) : (s.withdraw c).Canon := by
  unfold State.withdraw
  extract_lets s1 s2
  have h1 : s1.Canon := h.abandon
  have h2 : s2.Canon := by
    unfold s2
    split
    · exact h1.unreserve
    · exact h1
  exact (h2.ite h2.modCtx).dropGrants

theorem State.Canon.emptyCore (h : s.Canon) : (s.emptyCore c).Canon := by
  unfold State.emptyCore
  extract_lets s1
  have h1 : s1.Canon := by
    unfold s1
    refine h.foldl ?_
    intro x7 x8 h2
    split
    · exact h2
    · exact h2.ite h2.setCtx.dropGrants
  exact h1.keep.modCore

/-- As for `restoreOverflow`, the function is unfolded before it is applied. -/
theorem State.Canon.saveTile {s : State} (h : s.Canon) : (s.saveTile c l vt).Canon := by
  generalize e : State.saveTile = f
  delta State.saveTile at e
  subst e
  beta_reduce
  extract_lets +onlyGivenNames cs _ s1 s2 _ _ _ _ _
  have h2 : s2.Canon := (h.foldl fun _ _ h => h.uncouple).foldl fun _ _ h => h.foldl fun _ _ h => h.withdraw
  split
  · exact h2
  · next e => exact ((h2.writePieces.some e).modLaunch.foldl fun _ _ h => h.emptyCore).modTile.dropTokens.tileDone

theorem State.Canon.preemptSave {id : ℕ} (h : s.Canon) : (s.preemptSave id vt).Canon := by
  unfold State.preemptSave
  split
  · extract_lets
    split
    · exact h
    · split
      · next e1 => exact h.reportFirst.some e1
      · exact h.saveTile.ite h.tileDone
  · exact h.tileDone.ite h
  · exact h

theorem State.Canon.restoreCtx (h : s.Canon) : (s.restoreCtx c p b vec).Canon := by
  unfold State.restoreCtx
  extract_lets
  split
  · exact h.setCtx
  · split
    · exact h.setCtx
    · exact h.setCtx

theorem State.Canon.restoreCtxs (h : s.Canon) : Given State.Canon (s.restoreCtxs l vt save base l1) := by
  induction l1 generalizing s with
  | nil => exact h
  | cons x r ih =>
    unfold State.restoreCtxs
    extract_lets
    split
    · exact Given.none
    · split
      · split
        · exact Given.none
        · exact ih h.restoreCtx
      · exact ih h.restoreCtx

/-- The kernel evaluates what it can of a match it compares, and the places of the records are millions: what the function reads with is
left open before it is unfolded. -/
theorem State.Canon.restoreCores {s : State} (h : s.Canon) : Given State.Canon (s.restoreCores l vt save i l1) := by
  obtain ⟨read, hread⟩ : ∃ read, read = State.savedBytes := ⟨_, rfl⟩
  obtain ⟨f, hf⟩ : ∃ f, f = State.restoreCores := ⟨_, rfl⟩
  rw [← hf]
  delta State.restoreCores State.restoreCores._f at hf
  rw [← hread] at hf
  subst hf
  induction l1 generalizing s with
  | nil => exact h
  | cons x r ih =>
    dsimp -zeta only [List.brecOn, List.brecOn.go]
    extract_lets
    split
    · exact Given.none
    · extract_lets
      split
      · exact Given.none
      · next e => exact ih (h.modCore.restoreCtxs.some e)

theorem State.Canon.regang (h : s.Canon) : (s.regang l).Canon := by
  induction l generalizing s with
  | nil => exact h
  | cons x r ih =>
    unfold State.regang
    exact ih (h.ite ((h.foldl (fun _ _ h1 => h1.modCtx)).ite ((h.foldl (fun _ _ h2 => h2.freeHelper)).takeTrap)))

/-- The function is unfolded before it is applied: compared with its own body, it would be evaluated as far as it goes, and it reads at
places of millions. -/
theorem State.Canon.restoreOverflow {s : State} (h : s.Canon) : Given State.Canon (s.restoreOverflow l vt save i) := by
  generalize e : State.restoreOverflow = f
  delta State.restoreOverflow at e
  subst e
  beta_reduce
  split
  · exact Given.none
  · extract_lets
    split
    · exact Given.none
    · split
      · exact Given.none
      · exact Given.intro h.modTile

theorem State.Canon.resumeTile {id : ℕ} (h : s.Canon) : (s.resumeTile id vt).Canon := by
  unfold State.resumeTile
  split
  · exact h
  · split
    · exact h.tileDone
    · split
      · exact h.tileDone
      · split
        · exact h.tileDone
        · split
          · exact h
          · extract_lets
            split
            · exact h
            · next s1 e2 =>
                have h1 : s1.Canon := ((Given.ite (Given.intro h) h.takeBounds).bind (fun _ h3 => h3.restoreCores.bind (fun _ h4 =>
                    h4.restoreOverflow))).some e2
                exact h1.regang.modLaunch.tileDone

theorem State.Canon.orphan {gone : CtxId → Bool} (h : s.Canon) : (s.orphan gone).Canon := h.keep
theorem State.Canon.discardTile {id : ℕ} (h : s.Canon) : (s.discardTile id vt).Canon := by
  unfold State.discardTile
  exact ((h.orphan.foldl (fun _ _ h1 => h1.uncouple)).foldl (fun _ _ h2 => h2.emptyCore)).modTile.modLaunch.dropTokens

theorem State.Canon.dropGroups {id : ℕ} (h : s.Canon) : (s.dropGroups id vd).Canon := h.keep.modLaunch
theorem State.Canon.dropControls {id : ℕ} (h : s.Canon) : (s.dropControls id vt).Canon := h.foldl (fun _ _ h1 => h1.tileDone)
theorem State.Canon.cancel {id : ℕ} (h : s.Canon) : (s.cancel id).Canon := by
  unfold State.cancel
  split
  · exact h
  · extract_lets s1
    have h1 : s1.Canon := by
      unfold s1
      split
      · exact h
      · split
        · exact h
        · exact ((h.foldl (fun _ _ h2 => h2.discardTile.dropControls)).foldl (fun _ _ h3 => h3.dropGroups)).modLaunch
    exact h1.keep.controlReply

/-! Machine/Pager. -/

theorem State.Canon.pagerNotice {result : ℕ} (h : s.Canon) : (s.pagerNotice vd slot result).Canon := by
  unfold State.pagerNotice
  extract_lets
  split
  · exact h
  · exact h.ite h.inject

theorem State.Canon.servePackets {fail : Option ℕ} (h : s.Canon) : (s.servePackets vd slot fail l).Canon := by
  induction l generalizing s with
  | nil => exact h
  | cons x r ih =>
    unfold State.servePackets
    refine ih ?_
    split
    · split
      · split
        · exact h.setPacket
        · exact h.recordFail.answerRemote
      · exact h
    · exact h

theorem State.Canon.serveWaiters {result : ℕ} (h : s.Canon) : (s.serveWaiters vd slot result addr).Canon := h.keep.servePackets
theorem State.Canon.waitedRow {t : Tile} (h : s.Canon) : (t.waitedRow vt tok s).Canon := by
  unfold Tile.waitedRow
  extract_lets s1 _ s2
  have h1 : s1.Canon := h.runInbox.ite h
  have h2 : s2.Canon := (h1.runInbox.ite h1).foldl (fun _ _ h3 => h3.runEpisode)
  exact h2.emitRun.ite h2

theorem State.Canon.drainRows {t : State} (g2 : s.Canon) : (t.drainRows s vd slot).Canon :=
  (g2.modStacks.foldl (fun _ _ h1 => h1.waitedRow)).modStacks

theorem State.Canon.pagerResolve {result : ℕ} (h : s.Canon) : (s.pagerResolve vd slot result leaf).Canon := by
  unfold State.pagerResolve
  extract_lets _ s1 _ s2
  have h1 : s1.Canon := by
    unfold s1
    split
    · exact h.poke.ite h
    · exact h
  have h2 : s2.Canon := h1.store.modDie.serveWaiters
  exact h.ite (h2.drainRows.ite h2)

theorem State.Canon.pagerService {result : ℕ} (h : s.Canon) : (s.pagerService vd slot result leaf).Canon := by
  unfold State.pagerService
  split
  · exact h
  · split
    · exact h.pagerResolve.ite (h.store.ite h)
    · exact h.pagerResolve
    · exact h.pagerNotice.store.modDie
    · exact h

theorem State.Canon.engineRenew (h : s.Canon) : (s.engineRenew vt k).Canon := by
  unfold State.engineRenew
  split
  · exact h
  · extract_lets
    split
    · exact h
    · split
      · exact h.modTile.ite h.modTile
      · exact h.modTile

end Sys2Proof.Machine
end

