-- ==== Sys2Proof/Proofs/CanonPanel.lean ====
section
/-! The farrier, the fabric, reset and boot, the detector and the bridge keep memory canonical. -/

namespace Sys2Proof.Machine

open Sys2Proof

set_option autoImplicit true

variable {s : State}

/-! Machine/Farrier. -/

theorem State.Canon.setFarrier (h : s.Canon) : (s.setFarrier vd k n).Canon := h.store
theorem State.Canon.setStatus (h : s.Canon) : (s.setStatus vd lo w n).Canon := h.setFarrier
theorem State.Canon.placeSlot (h : s.Canon) : (s.placeSlot vd slot site).Canon := h.setSite.store
theorem State.Canon.setBridle {f : ℕ → ℕ} (h : s.Canon) : (s.setBridle vd slot f).Canon := h.modDie
theorem State.Canon.logEvent (h : s.Canon) : (s.logEvent vd kind site slot).Canon := (h.keep.storeBytes.setStatus.ite h.keep.storeBytes).setStatus
theorem State.Canon.fuse (h : s.Canon) : (s.fuse vd k retired).Canon := h.keep
theorem State.Canon.rePartner {t : State} (h : t.Canon) : (t.rePartner s vd).Canon := h.foldl (fun _ _ h1 => h1.ite h1.uncover)
theorem State.Canon.armRotation (h : s.Canon) : (s.armRotation vd).Canon := by
  unfold State.armRotation
  extract_lets _ _ s1
  have h1 : s1.Canon := h.modDie
  split
  · exact h
  · split
    · exact h1
    · exact h1.ite h1.modDie.setSite.setSite.rePartner.setStatus.setStatus.modTile.remap

theorem State.Canon.agreeAll (h : s.Canon) : (s.agreeAll cs).Canon := h.foldl (fun _ _ h1 => h1.foldl (fun _ _ h2 => h2.fingerBase))
theorem State.Canon.swapRegion (h : s.Canon) : (s.swapRegion vt).Canon := h.setTile.setTile
theorem State.Canon.drainTile (h : s.Canon) : (s.drainTile vd).Canon := by
  unfold State.drainTile
  split
  · exact h
  · extract_lets
    split
    · exact h
    · split
      · next e1 => exact h.dueFirst.some e1
      · exact (h.foldl (fun _ _ h2 => h2.foldl (fun _ _ h3 => h3.abandon))).agreeAll.modTile.swapRegion

theorem State.Canon.abortDrain (h : s.Canon) : (s.abortDrain vd).Canon := by
  unfold State.abortDrain
  split
  · exact h
  · exact h.modDie.setSite.setSite.rePartner.setStatus.setStatus.logEvent.ite (h.ite h.modTile.remap.setStatus)

theorem State.Canon.newSite (h : s.Canon) : (s.newSite vd).Canon := by
  unfold State.newSite
  split
  · exact h
  · exact h.ite h.setBridle.setSite.placeSlot.setStatus.setStatus

theorem State.Canon.copyTile (h : s.Canon) : (s.copyTile vd).Canon := by
  unfold State.copyTile
  split
  · exact h
  · exact h.ite h.keep.modTile.setStatus

theorem State.Canon.afresh (h : s.Canon) : (s.afresh c).Canon := by
  unfold State.afresh
  refine h.foldl ?_
  intro x3 x4 h1
  split
  · exact h1.waitAt
  · exact h1

theorem State.Canon.applyArrival (h : s.Canon) : (s.applyArrival p).Canon := by
  unfold State.applyArrival
  split
  · exact h.replyDelivery.ite h.taskArrival
  · exact h.spurArrival
  · exact h.remoteAtHome.ite (h.valueReturn.ite h.remoteAck)

theorem State.Canon.resumeSite (h : s.Canon) : (s.resumeSite vd).Canon := by
  unfold State.resumeSite
  split
  · exact h
  · split
    · exact h
    · exact ((h.modTile.foldl (fun _ _ h1 => h1.applyArrival)).foldl (fun _ _ h2 => h2.afresh)).setBridle.remap.setSite.rePartner.setStatus

theorem State.Canon.retireSite (h : s.Canon) : (s.retireSite vd).Canon := by
  unfold State.retireSite
  split
  · exact h
  · exact h.setBridle.setStatus.ite (h.ite h.setSite.setStatus.setStatus.setStatus.logEvent)

theorem State.Canon.retireNow (h : s.Canon) : (s.retireNow vd k).Canon := h.setSite.logEvent.fuse.ite h.setSite.logEvent.fuse.setStatus
theorem State.Canon.fuseOff {bad : List ℕ} (h : s.Canon) : (s.fuseOff vd k bad).Canon := h.keep.setSite
theorem State.Canon.testSite {pass : Bool} {bad : List ℕ} (h : s.Canon) : (s.testSite vd pass bad).Canon := by
  unfold State.testSite
  split
  · exact h
  · extract_lets _ s1 s2
    have h1 : s1.Canon := h.modDie
    have h2 : s2.Canon := h1.fuseOff
    exact h.ite (h1.retireNow.ite (h2.setSite.setSite.store.setStatus.logEvent.ite h2.setSite.logEvent.retireNow))

theorem State.Canon.maintain (h : s.Canon) : (s.maintain vd).Canon := h.ite ((h.ite h.setSite.rePartner.setStatus.modTile).ite h.setFarrier)
theorem State.Canon.maintainEnd {pass : Bool} {bad : List ℕ} (h : s.Canon) : (s.maintainEnd vd pass bad).Canon := by
  unfold State.maintainEnd
  split
  · exact h
  · split
    · exact h
    · extract_lets _ _ _ s1
      have h1 : s1.Canon := h.setFarrier.setStatus.modTile.fuseOff
      exact h1.setSite.setSite.store.rePartner.logEvent.ite h1.setSite.logEvent.retireNow.setSite.store.modTile.remap

theorem State.Canon.expose (h : s.Canon) : (s.expose vd k vb tb).Canon := by
  unfold State.expose
  extract_lets _ k1
  have h1 : ∀ x1 x2, x1.Canon → (k1 x1 x2).Canon := by
    intro x1 x2 h2
    unfold k1
    exact h2.store
  exact (h1 _ _ (h1 _ _ h)).store

theorem State.Canon.exposure (h : s.Canon) : (s.exposure vd bins).Canon := h.ite (h.modDie.foldl (fun _ _ h1 => h1.expose))
theorem State.Canon.fuseWrite (h : s.Canon) : (s.fuseWrite vd).Canon := h.ite (h.modDie.foldl (fun _ _ h1 => h1.fuse))
theorem State.Canon.modJournal {f : Journal → Journal} (h : s.Canon) : (s.modJournal vd k f).Canon := h.modDie
theorem State.Canon.epochCopy (h : s.Canon) : (s.epochCopy vd k pt).Canon := by
  unfold State.epochCopy
  exact h.modDie.uncover.ite h.modDie.writeBack.keep.modDie

theorem State.Canon.epochApply (h : s.Canon) : (s.epochApply vd k pt q).Canon := by
  unfold State.epochApply
  exact ((h.foldl (fun _ _ h1 => h1.poke)).keep).modDie

theorem State.Canon.epoch {full : Bool} (h : s.Canon) : (s.epoch vd k fixed full).Canon := by
  unfold State.epoch
  split
  · exact h
  · extract_lets
    split
    · exact h
    · split
      · exact h.epochCopy.ite h
      · exact ((h.bump.ite h).modJournal).ite (h.modJournal.setSite.ite h.epochApply)

theorem State.Canon.failPacket (h : s.Canon) : (s.failPacket p cause detail).Canon := by
  unfold State.failPacket
  split
  · extract_lets s1 _ s2
    have h1 : s1.Canon := h.dropPacket
    have h2 : s2.Canon := h1.foldl (fun _ _ h3 => h3.answerSend)
    exact h1.record.snd.answerSend.ite (h2.dropSpur.ite h2)
  · exact h.dropPacket.unitDone.answerSend
  · exact (h.recordFail.ite h).setPacket

theorem State.Canon.blankTile (h : s.Canon) : (s.blankTile vt).Canon := by
  unfold State.blankTile
  exact h.filterMem.modTile

theorem State.Canon.cancelOn (h : s.Canon) : (s.cancelOn vt).Canon := h.foldl (fun _ _ h1 => h1.discardTile.dropGroups.modLaunch)
theorem State.Canon.restoreScratch {bad : List ℕ} (h : s.Canon) : (s.restoreScratch vt site b bad).Canon :=
  (h.storeBytes.foldl (fun _ _ h1 => h1.bump.logEvent)).keep

theorem State.Canon.refuseCopy (h : s.Canon) : (s.refuseCopy p vt).Canon := by
  unfold State.refuseCopy
  split
  · exact (h.dropPacket.ite h.setPacket).answerSend
  · exact h

theorem State.Canon.refuseAt (h : s.Canon) : (s.refuseAt vt site).Canon := h.foldl (fun _ _ h1 => h1.failPacket.ite (h1.refuseCopy.ite h1))
theorem State.Canon.spareTakes (h : s.Canon) : (s.spareTakes vd slot lost spare img).Canon := by
  unfold State.spareTakes
  exact h.setBridle.placeSlot.setSite.setStatus.swapRegion.restoreScratch.setBridle

theorem State.Canon.siteLoss (h : s.Canon) : (s.siteLoss vd k).Canon := by
  unfold State.siteLoss
  split
  · exact h
  · extract_lets _ _ _ _ _ _ s1 _ _ s2
    have h1 : s1.Canon := (h.refuseAt.foldl (fun _ _ h3 => h3.dropLine)).cancelOn.blankTile.setSite.setSite.fuse.logEvent
    have h2 : s2.Canon := (h1.spareTakes.ite h1.store.modTile.remap).rePartner
    exact (h2.ite h2.setStatus).setStatus

theorem State.Canon.scrub (h : s.Canon) : (s.scrub vd a corrected).Canon :=
  h.ite (h.bump.ite ((((h.ite h.keep).bump).logEvent).ite (((h.ite h.keep).keep).logEvent)))

theorem State.Canon.privateError (h : s.Canon) : (s.privateError c latch).Canon := by
  unfold State.privateError
  extract_lets
  split
  · exact h
  · split
    · exact h.modCtx
    · exact (h.ite h.gangTrap).ite (h.ite (h.abandon.orphan.rollback.ite (h.ite h.abandon.unreserve.takeTrap)))

theorem State.Canon.maskedError (h : s.Canon) : (s.maskedError vd vt c kind i).Canon := by
  unfold State.maskedError
  extract_lets s1
  have h1 : s1.Canon := by
    unfold s1
    split
    · exact h.modDie
    · exact h.modTile
    · exact h.modCore
    · exact h
  exact h1.bump

theorem State.Canon.replayInterval (h : s.Canon) : (s.replayInterval c).Canon := by
  unfold State.replayInterval
  extract_lets
  split
  · exact h
  · exact h.unwind.modCtx.modCore

theorem State.Canon.escalate (h : s.Canon) : (s.escalate c).Canon := by
  unfold State.escalate
  extract_lets _ _ _ _ s1
  have h1 : s1.Canon := h.bump.logEvent.modDie.modCore
  exact h1.rollback.ite h1.takeTrap

theorem State.Canon.exchange (h : s.Canon) : (s.exchange c agree).Canon := by
  unfold State.exchange
  extract_lets _ s1
  have h1 : s1.Canon := h.replayInterval.bump
  exact h.ite (((h.rouse.ite h).fingerBase).ite (h1.escalate.ite h1))

/-! Machine/Fabric. -/

theorem State.Canon.reachTile (h : s.Canon) : (s.reachTile vt).Canon := h.modTile.ite h
theorem State.Canon.flits (h : s.Canon) : Snd State.Canon (s.flits p) := by
  unfold State.flits
  split
  · exact h
  · exact h.keep

theorem State.Canon.sendFrames (h : s.Canon) : (s.sendFrames vd e lane p).Canon := by
  unfold State.sendFrames
  extract_lets
  dsimp -zeta only
  exact h.flits.snd.modDie

theorem State.Canon.atTile {full : Bool} (h : s.Canon) : (s.atTile p full).Canon := by
  unfold State.atTile
  extract_lets s1
  have h1 : s1.Canon := h.reachTile
  split
  · exact h1.refuseTask
  · exact h1.spurFull
  · exact h1

theorem State.Canon.partMulti (h : s.Canon) : (s.partMulti p m tries send lane).Canon := by
  unfold State.partMulti
  extract_lets
  split
  · exact h
  · refine h.keep.foldl ?_
    intro x10 x11 h1
    split
    · exact h1.failPacket
    · split
      · exact h1.atTile
      · exact h1.sendFrames
      · exact h1

theorem State.Canon.moved (h : s.Canon) : (s.moved p).Canon := h.keep.setPacket
theorem State.Canon.moveFlit (h : s.Canon) : (s.moveFlit p vd lane).Canon := by
  unfold State.moveFlit
  split
  · exact h.ite h.moved.atTile
  · split
    · exact h.failPacket
    · exact h.failPacket.ite (h.ite h.sendFrames.moved)

theorem State.Canon.forward (h : s.Canon) : (s.forward k lane).Canon := by
  unfold State.forward
  split
  · exact h
  · split
    · exact h
    · extract_lets
      split
      · exact h.partMulti.ite h.moveFlit
      · exact h.moveFlit

theorem State.Canon.putLink {g : ℕ → ℕ} (h : s.Canon) : (s.putLink vd e g).Canon := by
  unfold State.putLink
  extract_lets k1
  have h1 : ∀ x1 x2 x3, x1.Canon → (k1 x1 x2 x3).Canon := by
    intro x1 x2 x3 h2
    unfold k1
    exact h2.store
  split
  · exact h1 _ _ _ (h1 _ _ _ h)
  · exact h1 _ _ _ h

theorem State.Canon.removeLane (h : s.Canon) : (s.removeLane vd e lane).Canon := h.modDie.ite (h.store.putLink.ite (h.store.putLink.ite h.store))
theorem State.Canon.transmit (h : s.Canon) : Snd State.Canon (s.transmit vd i lane) := by
  unfold State.transmit
  split
  · exact h
  · extract_lets w n k1 s2
    have h1 : ∀ x1, (k1 x1).Canon := by
      intro x1
      unfold k1
      exact h.modDie
    have h2 : s2.Canon := (h1 _).store
    clear_value w n
    exact Snd.ite (Snd.mk (h1 _)) (Snd.mk (h2.ite h2.store))

theorem State.Canon.replay (h : s.Canon) : Snd State.Canon (s.replay vd e lane good) := by
  unfold State.replay
  split
  · exact h
  · extract_lets
    dsimp -zeta only
    extract_lets s1 _ _ s2
    have h1 : s1.Canon := by
      unfold s1
      split
      · exact ((Snd.ite h.transmit (Snd.mk h)).snd).bump
      · exact (Snd.ite h.transmit (Snd.mk h)).snd
    have h2 : s2.Canon := h1.modDie
    exact h2.ite h2.removeLane

theorem State.Canon.replays (h : s.Canon) : (s.replays vd e lane a).Canon := by
  induction a generalizing s with
  | zero => exact h
  | succ n ih =>
    unfold State.replays
    dsimp -zeta only
    exact h.replay.snd.ite (ih h.replay.snd)

theorem State.Canon.inject432 (h : s.Canon) : (s.inject432 vd i a).Canon := by
  induction a generalizing s with
  | zero => exact h
  | succ n ih =>
    unfold State.inject432
    extract_lets
    dsimp -zeta only
    exact ih (h.transmit.snd.replays.ite h.transmit.snd)

theorem State.Canon.linkDone (h : s.Canon) : (s.linkDone vd e).Canon := h.ite (h.putLink.ite h.putLink)
theorem State.Canon.follow (h : s.Canon) : s.follow.Canon := by
  unfold State.follow
  refine h.keep.foldl (fun _ _ h1 => ((h1.foldl (fun _ _ h2 => h2.uncover)).ite h1).ite (h1.putLink.ite h1))

theorem State.Canon.superStore (h : s.Canon) : (s.superStore vd off w).Canon := h.poke
theorem State.Canon.tetherCmd (h : s.Canon) : (s.tetherCmd m).Canon := by
  unfold State.tetherCmd
  split
  · exact h
  · split
    · exact h
    · exact h.issued.modTile

theorem State.Canon.tether (h : s.Canon) : (s.tether vd launch b).Canon := by
  unfold State.tether
  split
  · exact h
  · split
    · exact h
    · extract_lets
      split
      · exact h.tetherCmd
      · exact h
      · exact h.keep.inject

theorem State.Canon.losePace (h : s.Canon) : (s.losePace vt).Canon := h.ite (h.modTile.ite h.modTile.modDie)
theorem State.Canon.beacon (h : s.Canon) : (s.beacon vt ofs).Canon := h.ite h.modTile
theorem State.Canon.beaconMiss (h : s.Canon) : (s.beaconMiss vt shown ofs rate).Canon := h.setTile.losePace.ite h.setTile
theorem State.Canon.referenceLost (h : s.Canon) : (s.referenceLost vt rate).Canon := h.losePace.modTile
theorem State.Canon.referenceBack (h : s.Canon) : (s.referenceBack vt).Canon := h.modTile

/-! Machine/Boot. -/

theorem State.Canon.writeBlock {f : ℕ → Byte} (h : s.Canon) : (s.writeBlock vd off n f).Canon := h.storeBytes
theorem State.Canon.bootDies (h : s.Canon) : s.bootDies.Canon := by
  unfold State.bootDies
  refine h.foldl ?_
  intro x7 x8 h1
  extract_lets
  refine (h1.foldl (fun _ _ h2 => h2.writeBlock)).foldl ?_
  intro x16 x17 h3
  split
  · exact h3.storeBytes
  · exact h3

theorem State.Canon.blankStep8 (h : s.Canon) : s.blankStep8.Canon := h.foldl (fun _ _ h1 => h1.foldl (fun _ _ h2 => h2.writeBlock))
theorem State.Canon.setCkbases (h : s.Canon) : (s.setCkbases l).Canon := (h.foldl (fun _ _ h1 => h1.modTile)).foldl (fun _ _ h2 => h2.writeSlices)
theorem State.Canon.panelReset (s : State) : (s.panelReset bad dead).Canon := by
  have h : State.reset.Canon := ⟨State.reset_memWf⟩
  unfold State.panelReset
  extract_lets _ _ _ _ _ _ _ _ t1 t2 t3
  have h1 : t2.Canon := h.keep.bootDies
  have h2 : t3.Canon := h1.setCkbases
  exact h1.blankStep8.ite (h2.ite h2.writeBlock)

theorem State.Canon.bootWipe (h : s.Canon) : s.bootWipe.Canon := h.filterMem.blankStep8
theorem State.Canon.drawBytes (h : s.Canon) : Snd State.Canon (s.drawBytes a) := by
  induction a generalizing s with
  | zero => exact h
  | succ n ih => exact (ih h.keep).snd

theorem State.Canon.attestReady (h : s.Canon) : s.attestReady.Canon := by
  unfold State.attestReady
  extract_lets
  split
  · exact h
  · dsimp -zeta only
    exact (((Snd.ite h.drawBytes (Snd.mk h)).snd).storeBytes).store

theorem State.Canon.attestRequest (h : s.Canon) : (s.attestRequest nonce).Canon := h.ite h.poke.superStore
theorem State.Canon.requestPower (h : s.Canon) : (s.requestPower vd req).Canon := h.superStore
theorem State.Canon.idleDie (h : s.Canon) : (s.idleDie vd).Canon := h.foldl (fun _ _ h1 => h1.modTile)
theorem State.Canon.enterDrowsy (h : s.Canon) : (s.enterDrowsy vd).Canon := h.ite (h.setPower.ite (h.ite h.setPower.idleDie))
theorem State.Canon.allLinks {f : State → ℕ → ℕ → State} (h : s.Canon) (hf2 : ∀ x1 x2 x3, x1.Canon → (f x1 x2 x3).Canon) : (s.allLinks f).Canon :=
  h.foldl (fun _ _ h4 => h4.foldl (fun _ _ h5 => (hf2 _ _ _ h5).ite h5))

theorem State.Canon.enterPark (h : s.Canon) : s.enterPark.Canon := by
  unfold State.enterPark
  exact h.ite (h.setPower.ite (h.ite ((h.foldl (fun _ _ h1 => h1.setPower.idleDie)).allLinks (fun _ _ _ h2 => h2.ite h2.putLink))))

theorem State.Canon.unpark (h : s.Canon) : s.unpark.Canon := (h.foldl (fun _ _ h1 => h1.setPower)).allLinks (fun _ _ _ h2 => h2.ite h2.putLink)
theorem State.Canon.wakeDie (h : s.Canon) : (s.wakeDie vd).Canon := h.setPower.ite (h.unpark.ite h)
theorem State.Canon.tileIdle (h : s.Canon) : (s.tileIdle vt).Canon := h.ite h.setTile
theorem State.Canon.unlock (h : s.Canon) : (s.unlock vd level mask good).Canon := h.ite h.modDie.setPower.keep
theorem State.Canon.observe (h : s.Canon) : (s.observe vd mask).Canon := h.setPower.ite h.setPower
theorem State.Canon.wipeTile (h : s.Canon) : (s.wipeTile vt).Canon := h.filterMem
theorem State.Canon.halt (h : s.Canon) : (s.halt vd mask).Canon := by
  unfold State.halt
  extract_lets _ s1
  have h1 : s1.Canon := h.setPower.ite h
  exact h.setPower.ite (h1.ite (((h1.foldl (fun _ _ h2 => h2.wipeTile)).ite h1).foldl (fun _ _ h3 => h3.modTile)).setPower.setPower)

theorem State.Canon.debugWrite (h : s.Canon) : (s.debugWrite a b).Canon := h.ite h.storeBytes
theorem State.Canon.debugSys (h : s.Canon) : (s.debugSys c n w).Canon := by
  unfold State.debugSys
  split
  · exact h.sysWrite.ite h
  · exact h.sysWrite

theorem State.Canon.debugCore (h : s.Canon) : (s.debugCore c j n b).Canon := by
  unfold State.debugCore
  extract_lets
  split
  · exact h.modCore.ite h
  · split
    · exact h.modCore.ite h
    · exact h
  · exact h.modCore
  · exact h.modCore

theorem State.Canon.debugRegister (h : s.Canon) : (s.debugRegister c j n b).Canon := by
  unfold State.debugRegister
  extract_lets
  split
  · exact h
  · split
    · exact h.ws
    · exact h.wp
    · exact h.wv
    · exact h.wa
    · exact h.wg
    · exact h.modCtx
    · exact h.ite h.debugSys
    · exact h.debugCore.ite h

theorem State.Canon.relock (h : s.Canon) : (s.relock vd).Canon := (h.modDie.setPower.foldl (fun _ _ h1 => h1.modTile)).setPower
theorem State.Canon.lifeMove (h : s.Canon) : (s.lifeMove life good).Canon := h.ite (h.keep.bootWipe.ite (h.keep.writeBlock.ite h.keep))
theorem State.Canon.storeField (h : s.Canon) : (s.storeField vd off lo w n).Canon := h.superStore
theorem State.Canon.ckoff (h : s.Canon) : (s.ckoff vd on).Canon := h.storeField.follow

/-! Machine/Detector. -/

theorem State.Canon.hangAt {id : ℕ} (h : s.Canon) : (s.hangAt id l).Canon := by
  induction l generalizing s with
  | nil => exact h
  | cons x r ih => exact ih (h.ite h.takeTrapTag)

theorem State.Canon.hang {id : ℕ} (h : s.Canon) : (s.hang id).Canon := by
  unfold State.hang
  split
  · exact h
  · exact h.modLaunch.hangAt.ite h

theorem State.Canon.tickAll {edges : ℕ} (h : s.Canon) : (s.tickAll ns edges).Canon := h.keep.keep

/-! Machine/Bridge. -/

theorem State.Canon.rousePanel (h : s.Canon) : s.rousePanel.Canon := h.unpark.ite h
theorem State.Canon.bridgeFail (h : s.Canon) : (s.bridgeFail cause detail).Canon := h.keep.keep.keep.keep.keep
theorem State.Canon.bridgeLaunch (h : s.Canon) : (s.bridgeLaunch off b).Canon := by
  unfold State.bridgeLaunch
  split
  · exact h
  · split
    · exact h.keep
    · split
      · exact h.bridgeFail
      · next e1 => exact (h.validate.ok e1).acceptLaunch.snd

theorem State.Canon.bridgeAt {taken : Bool} (h : s.Canon) : Leaves (Snd State.Canon) (Snd State.Canon) (s.bridgeAt p n k taken) := by
  unfold State.bridgeAt
  split
  · exact h
  · extract_lets _ s1 s2
    have h1 : s1.Canon := h.rousePanel
    have h2 : s2.Canon := h1.setPower.ite h1
    dsimp -zeta only
    exact Leaves.ite h2.rousePath.receiver.snd h2.rousePath.receiver.snd.homeAddr

theorem State.Canon.bridgeLost (h : s.Canon) : (s.bridgeLost p cause detail).Canon := (h.ite h.recordFail).bridgeFail
theorem State.Canon.bridgePuts {taken : Bool} (h : s.Canon) : (s.bridgePuts taken l).Canon := by
  induction l generalizing s taken with
  | nil => exact h.keep
  | cons x r ih =>
    unfold State.bridgePuts
    split
    · next e1 => exact ih (h.bridgeAt.ok e1).touch.poke
    · next s2 e3 =>
        have h2 : s2.Canon := h.bridgeAt.error e3
        split
        · dsimp -zeta only
          exact h2.engAbsent.snd.keep
        · exact ih h2.bridgeLost

theorem State.Canon.bridgeGo (h : s.Canon) : s.bridgeGo.Canon := by
  unfold State.bridgeGo
  split
  · exact h
  · split
    · exact h.keep.bridgeLost.bridgePuts
    · exact h.bridgePuts

theorem State.Canon.bridgeWrite (h : s.Canon) : (s.bridgeWrite off b en).Canon := h.ite (h.bridgePuts.ite h.keep)
/-- As for `restoreCores`, the access is left open before the function is unfolded. -/
theorem State.Canon.bridgeGets {s : State} (h : s.Canon) : Snd State.Canon (s.bridgeGets l) := by
  obtain ⟨read, hread⟩ : ∃ read, read = State.bridgeAt := ⟨_, rfl⟩
  have hr : ∀ (s : State) p n k b, s.Canon → Leaves (Snd State.Canon) (Snd State.Canon) (read s p n k b) :=
    hread ▸ fun _ _ _ _ _ h => h.bridgeAt
  obtain ⟨f, hf⟩ : ∃ f, f = State.bridgeGets := ⟨_, rfl⟩
  rw [← hf]
  delta State.bridgeGets State.bridgeGets._f at hf
  rw [← hread] at hf
  subst hf
  induction l generalizing s with
  | nil => exact h
  | cons x r ih =>
    conv => arg 2; whnf
    split
    · next e => exact (ih ((hr _ _ _ _ _ h).ok e).touch).snd
    · next s1 e =>
        have h1 : s1.Canon := (hr _ _ _ _ _ h).error e
        exact (ih (h1.engAbsent.snd.bridgeFail.ite h1.bridgeLost)).snd

theorem State.Canon.bridgeRead (h : s.Canon) : (s.bridgeRead off n).Canon := h.ite h.bridgeGets.snd.keep
theorem State.Canon.bridgeControl (h : s.Canon) : (s.bridgeControl off w).Canon := by
  unfold State.bridgeControl
  split
  · exact h
  · split
    · exact h.keep.ite h
    · exact h.keep
    · exact h

theorem State.Canon.bridgeBar (h : s.Canon) : (s.bridgeBar off n).Canon := h.ite h.keep.drawBytes.snd.keep
theorem State.Canon.bridgeConfig (h : s.Canon) : (s.bridgeConfig n).Canon := h.ite h.keep.drawBytes.snd.keep

end Sys2Proof.Machine
end

