-- ==== Sys2Proof/Proofs/CanonStep.lean ====
section
/-! Every row and every step keep memory canonical. -/

namespace Sys2Proof.Machine

open Sys2Proof

set_option autoImplicit true

variable {s : State}

/-! Machine/PtrOps. -/

theorem State.Canon.bodyAddp (h : s.Canon) : Tries (bodyAddp scaled e s) := by
  unfold Machine.bodyAddp
  split
  · exact h.put
  · exact h.trap

theorem State.Canon.bodySubp (h : s.Canon) : Tries (bodySubp scaled e s) := by
  unfold Machine.bodySubp
  extract_lets
  split
  · exact h.trap
  · exact Leaves.ite h.trap h.put

theorem State.Canon.bodyMkp (h : s.Canon) : Tries (bodyMkp e s) := Leaves.ite h.trap (Leaves.ite h.trap h.put)
theorem State.Canon.bodyPset (h : s.Canon) : Tries (bodyPset f e s) := by
  unfold Machine.bodyPset
  extract_lets
  split
  · exact h.trap
  · exact Leaves.ite h.trap h.put

theorem State.Canon.bodyPget (h : s.Canon) : Tries (bodyPget f e s) := by
  unfold Machine.bodyPget
  extract_lets
  split
  · exact h.trap
  · exact h.put

theorem State.Canon.bodyPabs (h : s.Canon) : Tries (bodyPabs e s) := by
  unfold Machine.bodyPabs
  split
  · exact h.trap
  · exact h.put

/-! Machine/ScalarFloat. -/

theorem State.Canon.putF {e : Env} (h : s.Canon) : Tries (e.putF s r) := h.modCtx.put
theorem State.Canon.putRound {e : Env} (h : s.Canon) : Tries (e.putRound s f x) := h.putF
theorem State.Canon.bodyF2 {f : ℕ → ℕ → FVal → FVal → ExactF} (h : s.Canon) : Tries (bodyF2 f e s) := h.putRound
theorem State.Canon.bodyFminmax (h : s.Canon) : Tries (bodyFminmax mx e s) := h.raise.put
theorem State.Canon.bodyToInt (h : s.Canon) : Tries (bodyToInt lo hi e s) := h.modCtx.put
theorem State.Canon.bodyOfInt {v : Word → ℤ} (h : s.Canon) : Tries (bodyOfInt v e s) := h.putRound
theorem State.Canon.bodyNarrow (h : s.Canon) : Tries (bodyNarrow f e s) := h.putF
theorem State.Canon.bodyWiden (h : s.Canon) : Tries (bodyWiden f e s) := h.raise.put
theorem State.Canon.bodyFcmp (h : s.Canon) : Tries (bodyFcmp rel e s) := h.raise.putP

/-! Machine/Turns. -/

theorem State.Canon.granted (h : s.Canon) : (s.granted l).Canon := by
  induction l generalizing s with
  | nil => exact h
  | cons x r ih =>
    unfold State.granted
    extract_lets _ s1
    have h1 : s1.Canon := h.modCore.modLaunch.foldl (fun _ _ h2 => h2.modCtx.ite h2)
    exact ih (h1.modCtx.ite h1).modCtx

theorem State.Canon.enter (h : s.Canon) : (s.enter c).Canon := by
  unfold State.enter
  split
  · exact h
  · exact h.enterLine

theorem State.Canon.issueSlot {core : CoreId} {ahead : Bool} (h : s.Canon) : (s.issueSlot core ahead).Canon := by
  unfold State.issueSlot
  split
  · exact h
  · split
    · next e1 => exact (h.enter.of_eq e1).waitAt
    · next e2 => exact h.ite (h.enter.of_eq e2).fetchTrap
    · next s3 e4 =>
        have h3 : s3.Canon := h.enter.of_eq e4
        split
        · exact h3
        · extract_lets
          split
          · exact h3.granted.fetchTrap.modCtx
          · extract_lets s5
            have h5 : s5.Canon := h3.granted.keep
            split
            · exact h5
            · exact h5

theorem State.Canon.eventSlot (h : s.Canon) : (s.eventSlot row a).Canon := by
  unfold State.eventSlot
  split
  · exact h.keep
  · exact h

theorem State.Canon.turn (h : s.Canon) : (s.turn a).Canon := by
  unfold State.turn
  split
  · exact h.issueSlot
  · exact h.eventSlot
  · exact h.tickAll

theorem State.Canon.nextTurn (h : s.Canon) : Snd State.Canon s.nextTurn := by
  unfold State.nextTurn
  split
  · exact h.keep
  · exact h.keep

theorem State.Canon.prepare (h : s.Canon) : s.prepare.Canon := by
  unfold State.prepare
  split
  · next e1 => exact (h.follow.pruneYields.nextTurn.of_eq e1).turn
  · next e2 => exact h.follow.pruneYields.nextTurn.of_eq e2

/-- Every row keeps memory canonical. -/
theorem State.Canon.exec (h : s.Canon) (row : Instr) : OutOk (exec row s) :=
  match row with
  | .add | .addW | .addSs | .addUs | .sub | .subW | .subSs | .subUs | .mul | .mulW | .mulhSs | .mulhUu | .mulhSu | .div | .divU | .divW
    | .divUw | .rem | .remU | .remW | .remUw | .andR | .orR | .xor | .andn | .shl | .shlW | .shr | .shrA | .shrW | .shrAw | .rot | .rotL
    | .rotW | .rotLw | .min | .minU | .max | .maxU | .bfxU | .bfxS => State.Canon.issue (fun _ _ h => h.bodyAB) h
  | .bcntClz | .bcntCtz | .bcntPopc | .extS8 | .extS16 | .extS32 | .extZ8 | .extZ16 | .extZ32 | .mov => State.Canon.issue (fun _ _ h => h.bodyA) h
  | .bfi => State.Canon.issue (fun _ _ h => h.bodyDAB) h
  | .sel | .liLo | .liHi | .movSp => State.Canon.issue (fun _ _ h => h.put) h
  | .cmpEq | .cmpNe | .cmpLt | .cmpGe | .cmpLtu | .cmpGeu => State.Canon.issue (fun _ _ h => h.bodyCmp) h
  | .movP | .movPs | .movPand | .movPor | .movPnot => State.Canon.issue (fun _ _ h => h.putP) h
  | .addp | .addpB => State.Canon.issue (fun _ _ h => h.bodyAddp) h
  | .subp | .subpB => State.Canon.issue (fun _ _ h => h.bodySubp) h
  | .mkp => State.Canon.issue (fun _ _ h => h.bodyMkp) h
  | .psetFmt | .psetBlk | .psetSpc | .psetRel | .psetTile | .psetDie | .psetOff | .psetCore => State.Canon.issue (fun _ _ h => h.bodyPset) h
  | .pgetFmt | .pgetBlk | .pgetSpc | .pgetRel | .pgetTile | .pgetDie | .pgetOff | .pgetCore => State.Canon.issue (fun _ _ h => h.bodyPget) h
  | .pabs => State.Canon.issue (fun _ _ h => h.bodyPabs) h
  | .waitdep => State.Canon.issue (fun _ _ h => h.bodyWaitdep) h
  | .trigger => State.Canon.issue (fun _ _ h => h.bodyTrigger) h
  | .br => State.Canon.issue (fun _ _ h => h.bodyBr) h
  | .brpAny | .brpAll | .brpNone | .brpNall => State.Canon.issue (fun _ _ h => h.bodyBrp) h
  | .jal => State.Canon.issue (fun _ _ h => h.bodyJal) h
  | .jalr => State.Canon.issue (fun _ _ h => h.bodyJalr) h
  | .loop => State.Canon.issue (fun _ _ h => h.bodyLoop) h
  | .fork => State.Canon.issue (fun _ _ h => h.bodyFork) h
  | .join => State.Canon.issue (fun _ _ h => h.bodyJoin) h
  | .spawn => State.Canon.issue (fun _ _ h => h.bodySpawn) h
  | .exit => State.Canon.issue (fun _ _ h => h.bodyExit) h
  | .yield => State.Canon.issue (fun _ _ h => h.bodyYield) h
  | .sleep => State.Canon.issue (fun _ _ h => h.bodySleep) h
  | .trap | .trapBkpt => State.Canon.issue (fun _ _ h => h.bodyTrap) h
  | .upret => State.Canon.issue (fun _ _ h => h.bodyUpret) h
  | .eret => State.Canon.issue (fun _ _ h => h.bodyEret) h
  | .nop | .nopSpin | .prefR | .prefW => State.Canon.issue (fun _ _ h => h.bodyNop) h
  | .nopPhase => State.Canon.issue (fun _ _ h => h.bodyPhase) h
  | .fadd | .fsub | .fmul | .fspecRcp | .fspecRsqrt | .fspecSqrt | .fspecDiv | .fspecExp2 | .fspecLog2 => State.Canon.issue (fun _ _ h => h.bodyF2) h
  | .ffma => State.Canon.issue (fun _ _ h => h.putRound) h
  | .fminmaxMin | .fminmaxMax => State.Canon.issue (fun _ _ h => h.bodyFminmax) h
  | .fcvtI64F32 | .fcvtU64F32 => State.Canon.issue (fun _ _ h => h.bodyToInt) h
  | .fcvtF32I64 | .fcvtF32U64 => State.Canon.issue (fun _ _ h => h.bodyOfInt) h
  | .fcvtF16F32 | .fcvtBf16F32 => State.Canon.issue (fun _ _ h => h.bodyNarrow) h
  | .fcvtF32F16 | .fcvtF32Bf16 => State.Canon.issue (fun _ _ h => h.bodyWiden) h
  | .fcmpEq | .fcmpLt | .fcmpLe | .fcmpUn => State.Canon.issue (fun _ _ h => h.bodyFcmp) h
  | .ldU8 | .ldS8 | .ldU16 | .ldS16 | .ldU32 | .ldS32 | .ld64 => State.Canon.issue (fun _ _ h => h.bodyLd) h
  | .ldFmt => State.Canon.issue (fun _ _ h => h.bodyLdFmt) h
  | .st8 | .st16 | .st32 | .st64 => State.Canon.issue (fun _ _ h => h.bodySt) h
  | .stFmt => State.Canon.issue (fun _ _ h => h.bodyStFmt) h
  | .lda => State.Canon.issue (fun _ _ h => h.bodyLda) h
  | .stl => State.Canon.issue (fun _ _ h => h.bodyStl) h
  | .amoAdd | .amoAnd | .amoOr | .amoXor | .amoSmin | .amoSmax | .amoUmin | .amoUmax | .amoSwap => State.Canon.issue (fun _ _ h => h.bodyAmo) h
  | .cas => State.Canon.issue (fun _ _ h => h.bodyCas) h
  | .fence | .fenceAcq | .fenceRel => State.Canon.issue (fun _ _ h => h.bodyFence) h
  | .xfence => State.Canon.issue (fun _ _ h => h.bodyXfence) h
  | .ldfeTake | .ldfePeek | .stfeFill => State.Canon.issue (fun _ _ h => h.bodyFe) h
  | .stfeForce => State.Canon.issue (fun _ _ h => h.bodyFeForce) h
  | .stfeClear => State.Canon.issue (fun _ _ h => h.bodyFeClear) h
  | .get => State.Canon.issue (fun _ _ h => State.Canon.bodyReturning (fun _ _ _ _ _ => State.Canon.noPre) h) h
  | .put => State.Canon.issue (fun _ _ h => State.Canon.bodyPosted (fun _ _ _ _ _ => State.Canon.noPre) h) h
  | .ramoAdd | .ramoAnd | .ramoOr | .ramoXor | .ramoSmin | .ramoSmax | .ramoUmin | .ramoUmax | .ramoSwap => State.Canon.issue (fun _ _ h => State.Canon.bodyRamo (fun _ _ _ _ h => h.preRel) h) h
  | .ramoFadd => State.Canon.issue (fun _ _ h => State.Canon.bodyRamo (fun _ _ _ _ h => h.preFadd) h) h
  | .flushWb | .flushWbi | .flushInv => State.Canon.issue (fun _ _ h => h.bodyFlush) h
  | .flushCode => State.Canon.issue (fun _ _ h => h.bodyFlushCode) h
  | .prefGw => State.Canon.issue (fun _ _ h => h.bodyPrefGw) h
  | .cwait => State.Canon.issue (fun _ _ h => h.bodyCwait) h
  | .csig => State.Canon.issue (fun _ _ h => h.bodyCsig) h
  | .cset => State.Canon.issue (fun _ _ h => h.bodyCset) h
  | .crd => State.Canon.issue (fun _ _ h => h.bodyCrd) h
  | .bar => State.Canon.issue (fun _ _ h => h.bodyBar) h
  | .barArrive => State.Canon.issue (fun _ _ h => h.bodyBarArrive) h
  | .barWait => State.Canon.issue (fun _ _ h => h.bodyBarWait) h
  | .barrierToken => h.sweep (fun _ _ _ _ h => h.forwardToken)
  | .barrierRelease => h.sweep (fun _ _ _ _ h => h.passRelease)
  | .vadd => State.Canon.issueV (fun _ _ h => h.bodyVadd) h
  | .vaddSat => State.Canon.issueV (fun _ _ h => h.bodyVaddSat) h
  | .vsub => State.Canon.issueV (fun _ _ h => h.bodyVsub) h
  | .vsubSat => State.Canon.issueV (fun _ _ h => h.bodyVsubSat) h
  | .vmul => State.Canon.issueV (fun _ _ h => h.bodyVmul) h
  | .vmulHi => State.Canon.issueV (fun _ _ h => h.bodyVmulHi) h
  | .vmulSat => State.Canon.issueV (fun _ _ h => h.bodyVmulSat) h
  | .vfma | .vfmaMs | .vfmaNm => State.Canon.issueV (fun _ _ h => h.bodyVfma) h
  | .vminmaxMin | .vminmaxMax => State.Canon.issueV (fun _ _ h => h.bodyVminmax) h
  | .vnegabsNeg | .vnegabsAbs => State.Canon.issueV (fun _ _ h => h.bodyVnegabs) h
  | .vcvt | .vcvtSat => State.Canon.issueV (fun _ _ h => h.bodyVcvt) h
  | .vcmpEq | .vcmpNe | .vcmpLt | .vcmpGe | .vcmpLe | .vcmpGt | .vcmpUn => State.Canon.issueV (fun _ _ h => h.bodyVcmp) h
  | .vsel => State.Canon.issueV (fun _ _ h => h.bodyVsel) h
  | .vredSum | .vredMin | .vredMax | .vredAnd | .vredOr | .vredXor => State.Canon.issueV (fun _ _ h => h.bodyVred) h
  | .vshufIdx | .vshufRot | .vshufLo | .vshufHi | .vshufRev => State.Canon.issueV (fun _ _ h => h.bodyVshuf) h
  | .vbcastS => State.Canon.issueV (fun _ _ h => h.bodyVbcastS) h
  | .vbcastLane => State.Canon.issueV (fun _ _ h => h.bodyVbcastLane) h
  | .vld | .vst => State.Canon.issueV (fun _ _ h => h.bodyVls) h
  | .vldStr | .vstStr => State.Canon.issueV (fun _ _ h => h.bodyVlsStr) h
  | .vgth | .vsct => State.Canon.issueV (fun _ _ h => h.bodyVgs) h
  | .vspecRcp | .vspecRsqrt | .vspecSqrt | .vspecDiv | .vspecExp2 | .vspecLog2 | .vspecTanh => State.Canon.issueV (fun _ _ h => h.bodyVspec) h
  | .vdotQ => State.Canon.issueV (fun _ _ h => h.bodyVdotQ) h
  | .vdotP => State.Canon.issueV (fun _ _ h => h.bodyVdotP) h
  | .vamax => State.Canon.issueV (fun _ _ h => h.bodyVamax) h
  | .vscale => State.Canon.issueV (fun _ _ h => h.bodyVscale) h
  | .vquant => State.Canon.issueV (fun _ _ h => h.bodyVquant) h
  | .vtbl => State.Canon.issueV (fun _ _ h => h.bodyVtbl) h
  | .venc => State.Canon.issueV (fun _ _ h => h.bodyVenc) h
  | .vintAnd | .vintOr | .vintXor | .vintAndn | .vintShl | .vintShr | .vintSra | .vintPopc => State.Canon.issueV (fun _ _ h => h.bodyVint) h
  | .vseq => State.Canon.issue (fun _ _ h => h.bodyVseq) h
  | .vseqe => State.Canon.issue (fun _ _ h => h.bodyVseqe) h
  | .gang2 | .gang4 | .gang8 => State.Canon.issue (fun _ _ h => h.bodyGang) h
  | .gangFormation => h.gangStep
  | .ungang => ((State.Canon.issue (fun _ _ h => h.bodyUngang) h).disband).ite (State.Canon.issue (fun _ _ h => h.bodyUngang) h)
  | .vectorSequencerExecute => h.seqRun (fun _ _ _ h => h.vectorBody)
  | .mlat => State.Canon.issueV (fun _ _ h => h.bodyMlat) h
  | .mma | .mmas | .mgait => State.Canon.issueV (fun _ _ h => h.bodyMat) h
  | .matrixQueueIssue => h.matrixIssue
  | .matrixOperandReadEnd => h.matrixReadEnd
  | .matrixAccumulatorWrite => h.matrixWrite
  | .consumedSignal => h.consumedSignal
  | .maccZero => State.Canon.issueV (fun _ _ h => h.bodyMaccZero) h
  | .maccLd => State.Canon.issueV (fun _ _ h => h.bodyMaccLd) h
  | .maccSt => State.Canon.issueV (fun _ _ h => h.bodyMaccSt) h
  | .maccCvt => State.Canon.issueV (fun _ _ h => h.bodyMaccCvt rfl) h
  | .gaitl => State.Canon.issueV (fun _ _ h => h.bodyGaitl) h
  | .spurCfg => State.Canon.issue (fun _ _ h => h.bodySpurCfg) h
  | .spurPost => ((State.Canon.issue (fun _ _ h => h.bodySpurPost) h).gangLate).ite (State.Canon.issue (fun _ _ h => h.bodySpurPost) h)
  | .spurTick => State.Canon.issue (fun _ _ h => h.bodySpurTick) h
  | .spurRead => State.Canon.issue (fun _ _ h => h.bodySpurRead) h
  | .spurDrain => State.Canon.issue (fun _ _ h => h.bodySpurDrain) h
  | .spurEventArrival => h.spurArrival
  | .spurEventRetry | .messageRetry => h.packetRetry
  | .paceTickClose => h.paceClose
  | .closeResume => h.closeResume
  | .sendUni | .sendMulti => State.Canon.issue (fun _ _ h => h.bodySendTask) h
  | .sendReply => State.Canon.issue (fun _ _ h => h.bodySendReply) h
  | .taskArrival => h.taskArrival
  | .overflowReentry => h.reenter
  | .replyDelivery => h.replyDelivery
  | .workStart => h.workStart
  | .dequeStealProbe => h.stealProbe
  | .cpy => State.Canon.issue (fun _ _ h => h.bodyCpy) h
  | .gth | .gthLatch => State.Canon.issue (fun _ _ h => h.bodyGth) h
  | .copyCommand | .gatherCommand => h.runInbox
  | .commandRetire => h.retireStep
  | .collReduce | .collRegister | .collBcast | .collJoin => State.Canon.issue (fun _ _ h => h.bodyColl) h
  | .collDigest => State.Canon.issue (fun _ _ h => h.bodyCollDigest) h
  | .collectiveEpisode => h.takeContribution.ite h.runEpisode
  | .classMask | .classUnmask => State.Canon.issue (fun _ _ h => h.bodyClassSet) h
  | .classTest => State.Canon.issue (fun _ _ h => h.bodyClassTest) h
  | .launch => State.Canon.issue (fun _ _ h => h.bodyLaunch) h
  | .launchSteal => State.Canon.issue (fun _ _ h => h.bodySteal) h
  | .launchPreempt => h.preemptBegin
  | .launchResume => h.resumeTile
  | .launchCancel => h.cancel
  | .preemptionSave => h.preemptSave
  | .launchEntry => h.enterTile
  | .coreLeave => h.coreLeave
  | .unitRefill => h.refill
  | .stealRequest => h.stealRequest
  | .stealAnswer => h.stealAnswer
  | .launchEnd => h.endLaunch
  | .graphDecrement => h.decrement
  | .sysCsrr => State.Canon.issue (fun _ _ h => h.bodyCsrr) h
  | .sysCsrw => State.Canon.issue (fun _ _ h => h.bodyCsrw) h
  | .sysCsrx => State.Canon.issue (fun _ _ h => h.bodyCsrx) h
  | .registerWrite | .dectabStore | .dectabSelect | .plbWrite | .detmodeWrite | .featackWrite | .ctlprioWrite => h.regEvent
  | .tandemOn => State.Canon.issue (fun _ _ h => h.bodyTandemOn) h
  | .tandemOff => State.Canon.issue (fun _ _ h => h.bodyTandemOff) h
  | .tandemFormation => h.formPair
  | .ownGive => State.Canon.issue (fun _ _ h => h.bodyOwnGive) h
  | .ownQuery => State.Canon.issue (fun _ _ h => h.bodyOwnQuery) h
  | .leaseRenew => State.Canon.issue (fun _ _ h => h.bodyLeaseRenew) h
  | .stackCloseEnd => h.closeEnd
  | .stackDrainEnd => h.drainEnd
  | .stackWriteBackEnd => h.writeBackEnd
  | .stackLeaseWaitEnd => h.leaseWaitEnd
  | .stackSwitch => h.switchStack
  | .remoteAccessAtHome => h.remoteAtHome
  | .remoteAckArrival => h.remoteAck
  | .getValueReturn => h.valueReturn
  | .gatewayLineFill => h.lineFill
  | .gatewayLineExpiry => h.lineExpiry
  | .translationExpiry => h.transExpiry
  | .engineLeaseRenew => h.engineRenew
  | .remapNack | .unsupportedRequest => h
  | .pagerService => h.pagerService
  | .contextWake => h.contextWake
  | .waitLimit => h.waitLimit
  | .sleepTimeout => h.sleepTimeout
  | .hang => h.hang
  | .rotationArm => h.armRotation
  | .drain => h.drainTile
  | .abort => h.abortDrain
  | .newMap => h.newSite
  | .copyState => h.copyTile
  | .resumeTile => h.resumeSite
  | .retire => h.retireSite
  | .test => h.testSite
  | .maint => h.maintain
  | .maintEnd => h.maintainEnd
  | .farrierHold | .suspectClear | .refusedClear => h.storeField
  | .ckoff => h.ckoff
  | .counterClear | .injectorArm | .linkControlWrite | .protectionDescriptorStore => h.superStore.ite h
  | .faultCountClear => h.superStore
  | .exposureCount => h.exposure
  | .wearFuseWrite => h.fuseWrite
  | .checkpointEpoch => h.epoch
  | .siteLoss => h.siteLoss
  | .fingerprintExchange => h.exchange
  | .flitForward => h.forward
  | .linkReplay => (h.bump.ite h).ite h.replay.snd
  | .injectorTrigger => h.inject432
  | .linkChangeDone => h.linkDone
  | .tetherArrival => h.tether
  | .paceBeacon => h.beacon
  | .beaconMiss => h.beaconMiss
  | .clockStretch => h.modTile.ite h
  | .referenceLoss => h.referenceLost
  | .panelReset => State.Canon.panelReset s
  | .bridgeLaunchWrite => h.bridgeLaunch
  | .bridgeDataWrite => h.bridgeGo.ite h.bridgeWrite
  | .bridgeDataRead => h.bridgeRead
  | .bridgeControlWrite => h.bridgeConfig.ite (h.bridgeBar.ite h.bridgeControl)
  | .attestationRequest => h.attestRequest
  | .attestationReportReady => h.attestReady
  | .debugUnlock => h.unlock
  | .debugHalt => (h.debugWrite.ite h.debugRegister).ite h.halt
  | .debugObserve => h.observe
  | .lifeCycleMove => h.lifeMove
  | .dieDrowsy => (h.requestPower.ite h).enterDrowsy
  | .panelPark => (h.requestPower.ite h).enterPark
  | .active => (h.requestPower.ite h).wakeDie
  | .tileIdle => h.tileIdle
  | .referenceReturn => h.referenceBack
  | .deliveryAnswer => h.deliveryAnswer
  | .scrub => h.maskedError.ite (h.privateError.ite h.scrub)
  | .debugRelock => h.relock

theorem State.Canon.step (h : s.Canon) : OutOk (step s) := by
  have hp : s.prepare.Canon := h.prepare
  unfold Machine.step
  split
  · next e => exact State.Canon.exec (hp.of_eq e) _
  · next row s1 e =>
    have h1 : s1.Canon := hp.of_eq e
    have k := h1.exec row
    split
    · next e2 =>
      rw [e2] at k
      exact h1.reportOr k
    · exact k
  · next e => exact hp.of_eq e

/-- Settles O10: every function a step is made of keeps memory canonical, from the two that change its cells up. -/
theorem stepKeepsMemoryCanonical : Obligations.StepKeepsMemoryCanonical := by
  intro s t h e
  have k : OutOk (step s) := State.Canon.step ⟨h⟩
  rw [e] at k
  exact k.wf

end Sys2Proof.Machine
end

