-- ==== Sys2Proof/Proofs/PointerFields.lean ====
section
/-! Fields of a pointer after one of them is replaced (R53, R134), and what forming and resolving an address keeps (R55, R164). -/

namespace Sys2Proof.Machine

open Sys2Proof

/-- A replaced field has the new bits in it and the old ones outside. -/
theorem setField_getLsbD (p : Word) (lo w x i : Nat) (hi : i < 64) :
    (setField p lo w x).getLsbD i = if lo ≤ i ∧ i < lo + w then x.testBit (i - lo) else p.getLsbD i := by
  simp only [setField, BitVec.getLsbD_or, BitVec.getLsbD_and, BitVec.getLsbD_not, BitVec.getLsbD_ofNat, Nat.testBit_mul_two_pow,
    Nat.testBit_two_pow_sub_one, Nat.testBit_mod_two_pow, hi]
  by_cases h1 : lo ≤ i <;> by_cases h2 : i < lo + w
  · simp [h1, h2, show i - lo < w by omega]
  · simp [h1, h2, show ¬ i - lo < w by omega]
  · simp [h1]
  · simp [h1]

/-- A field above the replaced one reads as before. -/
theorem extract_setField_above (p : Word) {lo w x at_ n : Nat} (h : lo + w ≤ at_) (hn : at_ + n ≤ 64) :
    (setField p lo w x).extractLsb' at_ n = p.extractLsb' at_ n := by
  refine BitVec.eq_of_getLsbD_eq fun i hi => ?_
  rw [BitVec.getLsbD_extractLsb', BitVec.getLsbD_extractLsb', setField_getLsbD _ _ _ _ _ (by omega), if_neg (by omega)]

theorem pSpc_setField (p : Word) {lo w x : Nat} (h : lo + w ≤ 53) : pSpc (setField p lo w x) = pSpc p := by
  rw [pSpc, extract_setField_above p h (by omega), pSpc]

theorem pRel_setField (p : Word) {lo w x : Nat} (h : lo + w ≤ 52) : pRel (setField p lo w x) = pRel p := by
  rw [pRel, setField_getLsbD _ _ _ _ _ (by omega), if_neg (by omega), pRel]

/-- The low bits of a word whose lowest field is replaced. -/
theorem setField_low (p : Word) {w x : Nat} (hw : w ≤ 64) : (setField p 0 w x).toNat % 2 ^ w = x % 2 ^ w := by
  refine Nat.eq_of_testBit_eq fun i => ?_
  simp only [Nat.testBit_mod_two_pow, BitVec.testBit_toNat]
  by_cases hi : i < w
  · rw [setField_getLsbD _ _ _ _ _ (by omega), if_pos (by omega), Nat.sub_zero]
  · simp [hi]

/-- The bits above a replaced lowest field. -/
theorem setField_high (p : Word) (w x : Nat) : (setField p 0 w x).toNat / 2 ^ w = p.toNat / 2 ^ w := by
  refine Nat.eq_of_testBit_eq fun i => ?_
  simp only [Nat.testBit_div_two_pow, BitVec.testBit_toNat]
  by_cases hi : i + w < 64
  · rw [setField_getLsbD _ _ _ _ _ hi, if_neg (by omega)]
  · rw [BitVec.getLsbD_of_ge _ _ (by omega), BitVec.getLsbD_of_ge _ _ (by omega)]

theorem offWidth_le (n : Nat) : offWidth n ≤ 45 := by
  unfold offWidth
  split <;> decide

theorem pOff_setField (p : Word) {x : Nat} (hx : x < 2 ^ offWidth (pSpc p)) : pOff (setField p 0 (offWidth (pSpc p)) x) = x := by
  have hw := offWidth_le (pSpc p)
  rw [pOff, pSpc_setField p (by omega), setField_low p (by omega), Nat.mod_eq_of_lt hx]

/-- Moving the offset stays in the space. -/
theorem pSpc_offAdd {p ea : Word} {d : Int} (h : offAdd p d = some ea) : pSpc ea = pSpc p := by
  have hw := offWidth_le (pSpc p)
  simp only [offAdd] at h
  split at h
  · cases h
  · cases h
    exact pSpc_setField p (by omega)

/-- Resolving relative coordinates stays in the space. -/
theorem pSpc_resolveRel {c : CoreId} {p q : Word} (h : resolveRel c p = some q) : pSpc q = pSpc p := by
  have h0 : pSpc (setField p 52 1 0) = pSpc p := pSpc_setField p (by omega)
  unfold resolveRel at h
  split at h
  · cases h; rfl
  · dsimp only at h
    split at h
    · obtain ⟨t, -, rfl⟩ := Option.map_eq_some_iff.1 h
      rw [pSpc_setField _ (by omega), h0]
    · obtain ⟨t, -, rfl⟩ := Option.map_eq_some_iff.1 h
      rw [pSpc_setField _ (by omega), h0]
    · obtain ⟨t, -, h⟩ := Option.bind_eq_some_iff.1 h
      obtain ⟨x, -, h⟩ := Option.bind_eq_some_iff.1 h
      obtain ⟨y, -, h⟩ := Option.bind_eq_some_iff.1 h
      cases h
      rw [pSpc_setField _ (by omega), pSpc_setField _ (by omega), pSpc_setField _ (by omega), h0]
    · obtain ⟨t, -, rfl⟩ := Option.map_eq_some_iff.1 h
      rw [pSpc_setField _ (by omega), h0]
    · obtain ⟨t, -, rfl⟩ := Option.map_eq_some_iff.1 h
      rw [pSpc_setField _ (by omega), h0]
    · cases h

/-- The effective address is in the space of the pointer operand. -/
theorem State.pSpc_formEa {s : State} {q : Req} {ea : Word} (h : s.formEa q = .ok ea) : pSpc ea = pSpc q.base := by
  unfold State.formEa at h
  split at h
  · cases h
  split at h
  · cases h
  split at h
  · cases h
  split at h
  · cases h
  · next ea' he =>
    split at h
    · cases h
    · cases h
      exact pSpc_offAdd he

/-- The resolved address is in the space of the effective address. -/
theorem State.pSpc_absolute {s : State} {c : CoreId} {l : List Nat} {ea p : Word} (h : s.absolute c l ea = .ok p) : pSpc p = pSpc ea := by
  unfold State.absolute at h
  split at h
  · cases h
  · next p' hp =>
    split at h
    · cases h
    · cases h
      exact pSpc_resolveRel hp

end Sys2Proof.Machine
end

