-- ==== Sys2Proof/Proofs/CheckedAddress.lean ====
section
/-! The address that an access is checked to (R170): what the checks leave of the state, and that nothing stands against an access of
`Claim.InTcm`. -/

namespace Sys2Proof.Machine

open Sys2Proof

/-- What holds of every value that a computation may leave. -/
theorem Leaves.intro {ε α : Type} {A : α → Prop} {x : Except ε α} (h : ∀ a, x = .ok a → A a) : Leaves (fun _ => True) A x := by
  cases x with
  | ok a => exact h a rfl
  | error e => exact True.intro

/-- A computation that has left a value goes on with it. -/
theorem except_ok_bind {ε α β : Type} (x : α) (f : α → Except ε β) : (Except.ok x >>= f) = f x := rfl

theorem except_pure {ε α : Type} (x : α) : (pure x : Except ε α) = .ok x := rfl

theorem State.lift_ok {α : Type} (s : State) {r : Except Tr α} {x : α} (h : r = .ok x) : s.lift r = .ok x := by rw [h]; rfl

theorem State.lift_leaves {α : Type} {A : α → Prop} {s : State} {r : Except Tr α} (h : ∀ a, r = .ok a → A a) :
    Leaves (fun _ => True) A (s.lift r) := by
  cases r with
  | ok a => exact h a rfl
  | error e => exact trivial

/-! A walk writes to memory alone, a translation to memory and the tile's cache. -/

theorem State.walk_ctxs (s : State) (vd va : Nat) (w : WKind) : Leaves (fun _ => True) (fun r => r.2.ctxs = s.ctxs) (s.walk vd va w) := by
  unfold State.walk
  extract_lets
  refine (Leaves.trivial _).bind fun _ _ => ?_
  refine Leaves.ite trivial (Leaves.ite trivial ?_)
  dsimp only [Leaves]
  split_ifs <;> rfl

theorem State.translate_ctxs (s : State) (ifc vd va : Nat) (w : WKind) :
    Leaves (fun _ => True) (fun r => r.2.2.ctxs = s.ctxs) (s.translate ifc vd va w) := by
  unfold State.translate
  extract_lets
  split
  · exact rfl
  · exact (s.walk_ctxs vd va w).bind fun _ h => h

/-- The checks of an access leave every context as it is, and the whole state but for the page walk of space 5. -/
def Req.Keeps (q : Req) (s t : State) : Prop := t.ctxs = s.ctxs ∧ (pSpc q.base ≠ 5 → t = s)

theorem State.coreAddr0_keeps (s : State) (c : CtxId) (q : Req) : Leaves (fun _ => True) (fun r => q.Keeps s r.2) (s.coreAddr0 c q) := by
  unfold State.coreAddr0
  refine (State.lift_leaves fun _ => State.pSpc_formEa).bind fun ea hea => ?_
  refine (State.lift_leaves fun _ => State.pSpc_absolute).bind fun p hp => ?_
  extract_lets
  refine (Leaves.trivial _).bind fun _ _ => ?_
  refine (Leaves.trivial _).bind fun _ _ => ?_
  refine (Leaves.trivial _).bind fun _ _ => ?_
  refine (Leaves.trivial _).bind fun _ _ => ?_
  refine (Leaves.trivial _).bind fun _ _ => ?_
  refine (Leaves.trivial _).bind fun _ _ => ?_
  refine Leaves.bind (A := fun r => q.Keeps s r.2) ?_ ?_
  · split
    · next h5 =>
      split
      · next e => exact ⟨(s.translate_ctxs _ _ _ _).ok e, fun h => absurd (hea ▸ hp ▸ h5) h⟩
      · exact trivial
    · exact ⟨rfl, fun _ => rfl⟩
  · rintro ⟨a, t⟩ ht
    dsimp -zeta only
    refine Leaves.guard (Leaves.trivial _) fun _ => ?_
    refine Leaves.guard trivial fun _ => ?_
    exact Leaves.guard trivial fun _ => ht

theorem State.coreAddr_keeps {s t : State} {c : CtxId} {q : Req} {a : Nat} (h : s.coreAddr c q = .ok (a, t)) : q.Keeps s t := by
  refine Leaves.ok (E := fun _ => True) (A := fun r => q.Keeps s r.2) ((s.coreAddr0_keeps c q).bind ?_) h
  rintro ⟨_, _⟩ ht
  exact (Leaves.trivial _).bind fun _ _ => ht

/-! The own TCM. -/

/-- With the conflict detector off, beginning an instruction changes nothing. -/
theorem State.taken_of_confOff {s : State} (row : Instr) (h : s.confOn s.cur = false) : s.taken row = s := by
  have hs : s.synced = s := by
    simp only [State.synced, State.syncTaken]
    split
    · rfl
    · simp [State.reinTaken, h]
  simp [State.taken, hs, State.beginAccess, h]

/-- A byte of a TCM is in no control block. -/
theorem inBlocks_flatTcm {c : CoreId} {o : Nat} (hv : c.vt < 512) (hp : c.pos < 192) (ho : o < 2 ^ 17) (n : Nat) :
    inBlocks (flatTcm c o) n = false := by
  have hk : flatKind (flatTcm c o) = 0 := by
    simp only [flatKind, flatTcm, flat]
    omega
  simp [inBlocks, hk]

section
variable {s : State} {ofs : Int} {n align : Nat} {k : AKind} {a : Nat} {spaces : List Nat} {plain held : Bool}

/-- The pointer to the bytes of `Claim.InTcm`. -/
def tcmEa (s : State) (ofs : Int) : Word := setField s.opA 0 17 ((pOff s.opA : Int) + ofs).toNat

theorem tcmEa_fields (h : Claim.InTcm s ofs n align k a) (hn : 0 < n) : pSpc (tcmEa s ofs) = 0 ∧ pRel (tcmEa s ofs) = false ∧
    unassigned (tcmEa s ofs) = 0 ∧ pOff (tcmEa s ofs) = ((pOff s.opA : Int) + ofs).toNat := by
  obtain ⟨hs, hr, hu⟩ := h.space
  have hs' : pSpc (tcmEa s ofs) = 0 := (pSpc_setField _ (by omega)).trans hs
  have hw : offWidth (pSpc s.opA) = 17 := by rw [hs]; rfl
  have hlt : ((pOff s.opA : Int) + ofs).toNat < 2 ^ 17 := by have := h.low; have := h.high; omega
  refine ⟨hs', (pRel_setField _ (by omega)).trans hr, ?_, ?_⟩
  · have hd := setField_high s.opA 17 ((pOff s.opA : Int) + ofs).toNat
    simp only [unassigned, hs] at hu
    simp only [unassigned, hs']
    simp only [tcmEa]
    omega
  · have := pOff_setField s.opA (x := ((pOff s.opA : Int) + ofs).toNat) (by rw [hw]; exact hlt)
    rwa [hw] at this

theorem State.formEa_of_inTcm (h : Claim.InTcm s ofs n align k a) (hn : 0 < n) :
    s.formEa { base := s.opA, ofs := ofs, n := n, align := align, k := k, spaces := spaces, plain := plain, held := held } =
      .ok (tcmEa s ofs) := by
  obtain ⟨hs, -, -⟩ := h.space
  obtain ⟨hf, h15⟩ := h.format
  obtain ⟨es, -, -, eo⟩ := tcmEa_fields h hn
  have hlo := h.low
  have hhi := h.high
  have hw : offWidth 0 = 17 := rfl
  have hadd : offAdd s.opA ofs = some (tcmEa s ofs) := by
    simp only [offAdd, hs, hw, tcmEa]
    rw [if_neg (by omega)]
  have h1 : ¬(pFmt s.opA = 15 ∧ s.feat0 5 = false) := fun ⟨e, f⟩ => by simp [h15 e] at f
  have h2 : ¬(pSpc (tcmEa s ofs) ≠ 4 ∧ 2 ^ offWidth (pSpc (tcmEa s ofs)) < pOff (tcmEa s ofs) + n) := by
    rw [es, eo, hw]
    omega
  simp only [State.formEa, if_neg h1, hf, hs, hadd, if_neg h2]
  rfl

theorem State.absolute_of_inTcm (h : Claim.InTcm s ofs n align k a) (hn : 0 < n) (h0 : 0 ∈ spaces) :
    s.absolute s.cur.core spaces (tcmEa s ofs) = .ok (tcmEa s ofs) := by
  obtain ⟨es, er, eu, -⟩ := tcmEa_fields h hn
  simp [State.absolute, resolveRel, er, State.spaceFault, eu, es, h0]

/-- No remote access of the context stands before an access of `Claim.InTcm`. -/
theorem State.behindRemote_of_inTcm (h : Claim.InTcm s ofs n align k a) (p : Word) (m : Nat) : s.behindRemote s.cur p m = false := by
  have hne : ∀ x : Remote, (∃ m ∈ s.net, m.pl = .remote x) → (x.issuer == s.cur) = false := fun x ⟨m, hm, e⟩ =>
    beq_eq_false_iff_ne.2 (h.alone m hm x e)
  simp only [State.behindRemote, State.acquiring, State.unperformed, Bool.or_eq_false_iff, List.any_eq_false]
  refine ⟨fun m hm => ?_, fun m hm => ?_⟩
  all_goals
    split
    · next x e => simp [hne x ⟨m, hm, e⟩]
    · simp

/-- Nothing stands against an access of `Claim.InTcm`: it is checked to its bytes, and the state stays as it is. -/
theorem State.coreAddr_of_inTcm (h : Claim.InTcm s ofs n align k a) (hn : 0 < n) (h0 : 0 ∈ spaces) :
    s.coreAddr s.cur { base := s.opA, ofs := ofs, n := n, align := align, k := k, spaces := spaces, plain := plain, held := held } =
      .ok (a, s) := by
  obtain ⟨es, er, eu, eo⟩ := tcmEa_fields h hn
  have hflat : s.flatOf s.cur.core (tcmEa s ofs) = a := by simp only [State.flatOf, es, eo, h.at_]
  have hsb : s.sbAddr s.cur.core (tcmEa s ofs) = a := by simp [State.sbAddr, es, hflat]
  have hhome : s.home s.cur.core (tcmEa s ofs) = dieOf s.cur.core.vt := by simp [State.home, namedDie, es]
  have h0 : s.coreAddr0 s.cur { base := s.opA, ofs := ofs, n := n, align := align, k := k, spaces := spaces, plain := plain, held := held } =
      .ok (a, s) := by
    simp only [State.coreAddr0, s.lift_ok (s.formEa_of_inTcm h hn), s.lift_ok (s.absolute_of_inTcm h hn h0), except_ok_bind]
    simp [trapIf, hhome, es, eo, State.spaceHomeFault, misaligned, h.aligned, h.permitted, State.confCheck, h.detector, hsb, hflat, h.unheld,
      s.behindRemote_of_inTcm h, except_ok_bind, except_pure]
  simp only [State.coreAddr, h0, except_ok_bind]
  simp [h.sound, trapIf, except_ok_bind, except_pure]

end

end Sys2Proof.Machine
end

