-- ==== Sys2Proof/Proofs/AccessFrames.lean ====
section
/-! What performing an access changes (R305, R314, R421, R425): the bytes it stores, and no register, flag or other byte. -/

namespace Sys2Proof.Machine

open Sys2Proof

section
variable {s t : State} {e : CtxId} {d : Touch}

theorem Frame.ite {u : State} {p : Prop} [Decidable p] (h : Frame s t e d) (k : Frame s u e d) : Frame s (if p then t else u) e d := by
  split <;> assumption

theorem Frame.commitOthers (l : List Nat) (h : Frame s t e d) (c : CtxId) (a n : Nat) : Frame s (t.commitOthers c a n l) e d := by
  induction l generalizing t with
  | nil => exact h
  | cons i r ih => exact ih ((h.commit _).ite h)

theorem Frame.touch (h : Frame s t e d) (c : CtxId) (a n : Nat) : Frame s (t.touch c a n) e d := (h.commitOthers _ c a n).ite h

theorem Frame.logWords (l : List Nat) (h : Frame s t e d) (c : CtxId) : Frame s (t.logWords c l) e d := by
  induction l generalizing t with
  | nil => exact h
  | cons w r ih => exact (ih h).ite (ih (h.setCtx c _ rfl))

theorem Frame.undoLog (h : Frame s t e d) (c : CtxId) (a n : Nat) (plain : Bool) : Frame s (t.undoLog c a n plain) e d :=
  (h.touch c a n).ite (((h.touch c a n).logWords _ c).ite ((h.touch c a n).commit c))

theorem Frame.trimRels (h : Frame s t e d) (lo hi : Nat) : Frame s (t.trimRels lo hi) e d := h.other rfl rfl

theorem Frame.place (h : Frame s t e d) (c : CtxId) (ea : Word) (tag : BitVec 32) (lo hi : Nat) (k : AKind) (plain : Bool) (o : Ord)
    (pre : HbInfo) (own : List Released) : Frame s (t.place c ea tag lo hi k plain o pre own).2 e d := by
  unfold State.place
  extract_lets met pre r u v own
  have hu : Frame s u e d := h.other rfl rfl
  have hv : Frame s v e d := (hu.trimRels lo hi).ite hu
  exact Frame.ite (hv.other rfl rfl) hv

theorem Frame.access (h : Frame s t e d) (c : CtxId) (ea : Word) (lo hi : Nat) (k : AKind) (plain : Bool) (o : Ord) :
    Frame s (t.access c ea lo hi k plain o) e d :=
  ((h.trimRels lo hi).ite h).ite ((h.place c ea _ lo hi k plain o _ _).modHb c _)

theorem Frame.readAt (h : Frame s t e d) (c : CtxId) (ea : Word) (a n : Nat) (plain : Bool) (o : Ord) :
    Frame s (t.readAt c ea a n plain o).2 e d := (h.touch c a n).access c ea _ _ _ plain o

theorem Frame.readSegs (l : List (Req × Nat)) (h : Frame s t e d) (c : CtxId) (o : Ord) : Frame s (t.readSegs c o l).2 e d := by
  induction l generalizing t with
  | nil => exact h
  | cons p r ih => exact ih (h.readAt c _ _ _ _ o)

theorem Frame.noteData (h : Frame s t e d) (c : CtxId) (ea : Word) (l : List Byte) : Frame s (t.noteData c ea l) e d :=
  h.ite (h.modCtx c _ fun _ => rfl)

theorem Frame.noteWrite (h : Frame s t e d) (c : CtxId) (ea : Word) (a : Nat) (l : List Byte) : Frame s (t.noteWrite c ea a l) e d := by
  unfold State.noteWrite
  split
  · exact h
  · exact (h.noteData c ea l).modCore _ _

theorem Frame.markDirty (h : Frame s t e d) (a n : Nat) : Frame s (t.markDirty a n) e d := by
  refine h.ite ?_
  induction lineSpan a (a + n) generalizing t with
  | nil => exact h
  | cons x r ih => exact ih (h.ite (h.other rfl rfl))

theorem Frame.markLines (h : Frame s t e d) (a n : Nat) : Frame s (t.markLines a n) e d := h.ite (h.other rfl rfl)

/-- Storing a byte string changes no byte beside it. -/
theorem Frame.storeBytes (h : Frame s t e d) (hm : t.memOk) {a : Nat} {l : List Byte} (hlo : d.lo ≤ a) (hhi : a + l.length ≤ d.hi) :
    Frame s (t.storeBytes a l) e d :=
  h.trans { Frame.refl t e d with memory := fun b hb => t.byte_storeBytes_ne a l (by omega) hm }

end

/-! Writes. -/

/-- The state a write outside the control blocks stores its bytes in. -/
def State.pokeBase (s : State) (a n : Nat) : State :=
  (({ s with poison := s.poison.filter (fun w => decide (w * 8 < a) || decide (a + n < w * 8 + 8)) } : State).markDirty a n).markLines a n

theorem State.poke_outside (s : State) {a : Nat} {l : List Byte} (hb : inBlocks a l.length = false) :
    s.poke a l = (s.pokeBase a l.length).storeBytes a l := by
  simp only [State.poke, State.pokeBase, State.blockBytes, State.rearm, State.noteActs, hb, Bool.false_eq_true, if_false]

theorem State.pokeBase_frame (s : State) (a n : Nat) (e : CtxId) (d : Touch) : Frame s (s.pokeBase a n) e d := by
  unfold State.pokeBase
  apply Frame.markLines
  apply Frame.markDirty
  exact (Frame.refl s e d).other rfl rfl

theorem State.Canon.pokeBase {s : State} (h : s.Canon) (a n : Nat) : (s.pokeBase a n).Canon :=
  (State.Canon.markDirty h.keep).markLines

/-- What a checked write has changed when it comes to its bytes. -/
def State.writeBase (s : State) (c : CtxId) (ea : Word) (a : Nat) (l : List Byte) (plain : Bool) (o : Ord) : State :=
  ((((s.undoLog c a l.length true).access c ea a (a + l.length) .write plain o).noteWrite c ea a l)).pokeBase a l.length

section
variable {s : State} {c : CtxId} {ea : Word} {a : Nat} {l : List Byte} {plain : Bool} {o : Ord}

theorem State.writeAt_outside (hb : inBlocks a l.length = false) :
    s.writeAt c ea a l plain o = (s.writeBase c ea a l plain o).storeBytes a l := by
  rw [State.writeAt, State.poke_outside _ hb, State.writeBase]

theorem State.writeBase_frame (e : CtxId) (d : Touch) : Frame s (s.writeBase c ea a l plain o) e d :=
  ((((Frame.refl s e d).undoLog c a l.length true).access c ea _ _ _ plain o).noteWrite c ea a l).trans (State.pokeBase_frame _ _ _ e d)

theorem State.Canon.writeBase (h : s.Canon) : (s.writeBase c ea a l plain o).Canon := h.undoLog.access.noteWrite.pokeBase a l.length

/-- A checked write changes its bytes and nothing else that a frame speaks of. -/
theorem State.writeAt_frame (h : s.memOk) (hb : inBlocks a l.length = false) (e : CtxId) {d : Touch} (hlo : d.lo ≤ a)
    (hhi : a + l.length ≤ d.hi) : Frame s (s.writeAt c ea a l plain o) e d := by
  have hw : s.Canon := ⟨h⟩
  rw [State.writeAt_outside hb]
  exact (State.writeBase_frame e d).storeBytes hw.writeBase.wf hlo hhi

/-- A checked write outside the control blocks reads back. -/
theorem State.bytes_writeAt (h : s.memOk) (hb : inBlocks a l.length = false) : (s.writeAt c ea a l plain o).bytes a l.length = l := by
  have hw : s.Canon := ⟨h⟩
  rw [State.writeAt_outside hb]
  exact State.bytes_storeBytes _ a l hw.writeBase.wf

end

theorem State.load_writeAt {s : State} {c : CtxId} {ea : Word} {a n x : Nat} {plain : Bool} {o : Ord} (h : s.memOk)
    (hb : inBlocks a n = false) : (s.writeAt c ea a (natLe n x) plain o).load a n = x % 256 ^ n := by
  have hl := State.bytes_writeAt (l := natLe n x) (c := c) (ea := ea) (plain := plain) (o := o) h (by rwa [natLe_length])
  rw [natLe_length] at hl
  rw [State.load, hl, leNat_natLe]

/-! The checks of one access outside space 5. -/

section
variable {s : State} {c : CtxId} {q : Req}

theorem Req.split_near (h : pSpc q.base ≠ 5) : q.split = [q] := by
  unfold Req.split
  split
  · next ea he => rw [pSpc_offAdd he]; simp [h]
  · rfl

theorem State.checkEach_single : s.checkEach c [q] =
    (s.coreAddr c q).map (fun r => ([(q, r.1)], if q.plain then r.2.confHold c r.1 (r.1 + q.n) q.k.writes else r.2)) := by
  unfold State.checkEach
  cases s.coreAddr c q <;> rfl

/-- Lines held for the checks that follow are let go. -/
theorem State.confHold_recs (s : State) (c : CtxId) (lo hi : Nat) (write : Bool) : { s.confHold c lo hi write with recs := s.recs } = s := by
  unfold State.confHold
  split <;> rfl

/-- A checked address has been formed and resolved. -/
theorem State.coreAddr_formed {t : State} {a : Nat} (h : s.coreAddr c q = .ok (a, t)) :
    ∃ ea p, s.formEa q = .ok ea ∧ s.absolute c.core q.spaces ea = .ok p ∧ s.home c.core p = dieOf c.core.vt := by
  unfold State.coreAddr State.coreAddr0 at h
  cases e1 : s.formEa q with
  | error t => rw [e1] at h; cases h
  | ok ea =>
    rw [e1] at h
    cases e2 : s.absolute c.core q.spaces ea with
    | error t => simp only [State.lift, except_ok_bind, e2] at h; cases h
    | ok p =>
      refine ⟨ea, p, rfl, e2, by_contra fun hh => ?_⟩
      have hb : (s.home c.core p != dieOf c.core.vt) = true := bne_iff_ne.2 hh
      simp only [State.lift, except_ok_bind, e2, trapIf, hb, if_true] at h
      cases h

theorem State.checkWhole_of_coreAddr {t : State} {a : Nat} (h5 : pSpc q.base ≠ 5) (h : s.coreAddr c q = .ok (a, t)) :
    s.checkWhole c q = .ok ([(q, a)], s) := by
  obtain ⟨ea, -, he, -, -⟩ := State.coreAddr_formed h
  obtain rfl : t = s := (State.coreAddr_keeps h).2 h5
  simp only [State.checkWhole, State.lift_ok _ he, except_ok_bind, State.checkParts, Req.split_near h5, State.checkEach_single, h, Except.map,
    State.holding]
  split
  · rw [State.confHold_recs]
  · rfl

theorem State.checkWhole_keeps {t : State} {l : List (Req × Nat)} (h5 : pSpc q.base ≠ 5) (h : s.checkWhole c q = .ok (l, t)) : t = s := by
  cases e : s.coreAddr c q with
  | ok r =>
    obtain ⟨a, u⟩ := r
    rw [State.checkWhole_of_coreAddr h5 e] at h
    cases h
    rfl
  | error x =>
    simp only [State.checkWhole, State.checkParts, Req.split_near h5, State.checkEach_single, e, Except.map, State.holding] at h
    cases he : s.formEa q <;> rw [he] at h <;> cases h

/-- A load through the core path reads the bytes at its checked address. -/
theorem State.loadBytes_of_coreAddr {t : State} {a : Nat} (h4 : pSpc q.base < 4) (h : s.coreAddr c q = .ok (a, t)) :
    s.loadBytes c q = .ok (s.bytes a q.n, (s.readSegs c Ord.plain [(q, a)]).2) := by
  obtain ⟨ea, p, he, hp, hh⟩ := State.coreAddr_formed h
  have hs : pSpc p < 4 := by rw [State.pSpc_absolute hp, State.pSpc_formEa he]; exact h4
  have h5 : pSpc q.base ≠ 5 := by omega
  simp only [State.loadBytes, State.lift_ok _ he, State.lift_ok _ hp, except_ok_bind, hh, State.checkWhole_of_coreAddr h5 h]
  rw [if_neg (by omega), if_neg (by omega)]
  simp [State.readSegs, except_pure]

/-- A load outside space 5 changes no register, flag or byte. -/
theorem State.loadBytes_frame {t : State} {b : List Byte} (h5 : pSpc q.base ≠ 5) (h : s.loadBytes c q = .ok (b, t)) (e : CtxId)
    (d : Touch) : Frame s t e d := by
  refine Leaves.ok (E := fun _ => True) (A := fun r => Frame s r.2 e d) ?_ h
  unfold State.loadBytes
  refine (State.lift_leaves fun _ => State.pSpc_formEa).bind fun ea hea => ?_
  refine (State.lift_leaves fun _ => State.pSpc_absolute).bind fun p hp => ?_
  extract_lets away
  split
  · refine (Leaves.trivial _).bind fun _ _ => ?_
    refine (Leaves.trivial _).bind fun _ _ => ?_
    refine (Leaves.trivial _).bind fun _ _ => ?_
    refine (Leaves.trivial _).bind fun _ _ => ?_
    exact Leaves.ite True.intro (Frame.refl s e d)
  split
  · next hn => exact absurd (hea ▸ hp ▸ hn.1) h5
  · refine (Leaves.intro (A := fun r => r.2 = s) fun r hr => State.checkWhole_keeps h5 hr).bind ?_
    rintro ⟨l, _⟩ rfl
    exact (Frame.refl _ e d).readSegs l c Ord.plain

end

end Sys2Proof.Machine
end

