-- ==== Sys2Proof/Proofs/LoadsStores.lean ====
section
/-! LD and ST of a size (R15, R172): the body of each row, what completes and what stops it. -/

namespace Sys2Proof.Machine

open Sys2Proof

/-! What an instruction's body decides, once it may be performed. -/

section
variable {row : Instr} {body : Body} {s s1 s' : State}

theorem completes_of_body (h : s.Ready row) (hx : exec row s = .next (issue row body s))
    (hb : body (Claim.env s row) (s.taken row) = .ok (.next, s')) : Completes row s .next s' := by
  unfold Claim.env at hb
  rw [Completes, hx, issue_ready row body s h, hb]

theorem stops_of_body {x : Stop} (h : s.Ready row) (hx : exec row s = .next (issue row body s))
    (hb : body (Claim.env s row) (s.taken row) = .error x) : Claim.Stops row s x := by
  unfold Claim.env at hb
  cases x with
  | trap t u =>
    simp only [Claim.Stops, Traps, hx, issue_ready row body s h, hb, State.deliverOr]
    cases s.synced.pushHeld s.cur <;> rfl
  | wait w u => simp only [Claim.Stops, Waits, hx, issue_ready row body s h, hb]

/-- Completing keeps the frame of the instruction's own effect. -/
theorem performs_of_frame {w : Touch} (hc : Completes row s .next s') (h1 : Frame s1 s' s.cur w)
    (h0 : pSpc s.opA ≠ 5 → Frame s s1 s.cur w) : Claim.Performs row s s1 s' w :=
  have ha : Frame s1 (s.after row .next s') s.cur w := h1.trans (after_frame s row .next s.cur w)
  ⟨hc, ha, fun h5 => (h0 h5).trans ha⟩

/-- Where no page walk takes part, what is performed is given. -/
theorem gives_of_performs {w : Touch} (h : Claim.Performs row s s1 s' w) (h5 : pSpc s.opA ≠ 5) : Gives row s s' w := ⟨h.1, h.2.2 h5⟩

/-- Beginning an instruction changes no scalar register. -/
theorem State.rs_taken (s : State) (row : Instr) (r : BitVec 5) : (s.taken row).rs s.cur r = s.rs s.cur r :=
  (taken_frame s row s.cur Touch.none).regs _ _ (by simp [Touch.none])

/-- The access of a form B instruction. -/
theorem reqB_taken (s : State) (row : Instr) (n : Nat) (k : AKind) (l : List Nat) :
    (Claim.env s row).reqB (s.taken row) n n k l true = Claim.reqB s n k l true true := by
  simp only [Env.reqB, Env.a, Claim.env, s.rs_taken, Claim.reqB, State.opA, ofsB]

end

/-! Loads. -/

/-- What a load of n bytes writes. -/
def loadValue (n : Nat) (signed : Bool) (v : Nat) : Word := if signed then Claim.sextN n v else BitVec.ofNat 64 v

theorem signedOf_eq_toInt {w : Nat} (hw : 0 < w) (v : Nat) : signedOf w v = (BitVec.ofNat w v).toInt := by
  obtain ⟨u, rfl⟩ : ∃ u, w = u + 1 := ⟨w - 1, by omega⟩
  rw [BitVec.toInt_eq_toNat_cond, BitVec.toNat_ofNat, signedOf, Nat.add_sub_cancel]
  have hp := pow_succ 2 u
  split <;> split <;> omega

theorem loadValue_signed {n : Nat} (hn : 0 < n) : loadValue n true = sext (8 * n) := by
  funext v
  rw [sext, signedOf_eq_toInt (by omega)]
  rfl

theorem loadValue_unsigned (n : Nat) : loadValue n false = zext := rfl

/-- The spaces of Table 58 that a load of n bytes accepts. -/
def loadSpaces (n : Nat) : List Nat := if n = 4 then [0, 1, 2, 3, 4, 5] else [0, 1, 2, 3, 5]

theorem zero_mem_loadSpaces (n : Nat) : 0 ∈ loadSpaces n := by
  unfold loadSpaces
  split <;> decide

section
variable {row : Instr} {n : Nat} {signed : Bool} {s s1 : State}

theorem loads_pos (h : (row, n, signed) ∈ Claim.loads) : 0 < n := by
  have : ∀ x ∈ Claim.loads, 0 < x.2.1 := by decide
  exact this _ h

theorem exec_load (h : (row, n, signed) ∈ Claim.loads) (s : State) : exec row s = .next (issue row (bodyLd n (loadValue n signed)) s) := by
  simp only [Claim.loads, List.mem_cons, Prod.mk.injEq, List.not_mem_nil, or_false] at h
  rcases h with ⟨rfl, rfl, rfl⟩ | ⟨rfl, rfl, rfl⟩ | ⟨rfl, rfl, rfl⟩ | ⟨rfl, rfl, rfl⟩ | ⟨rfl, rfl, rfl⟩ | ⟨rfl, rfl, rfl⟩ |
    ⟨rfl, rfl, rfl⟩
  · rw [loadValue_unsigned]; rfl
  · rw [loadValue_signed (by decide)]; rfl
  · rw [loadValue_unsigned]; rfl
  · rw [loadValue_signed (by decide)]; rfl
  · rw [loadValue_unsigned]; rfl
  · rw [loadValue_signed (by decide)]; rfl
  · rw [loadValue_unsigned]; rfl

theorem bodyLd_eq (s : State) (row : Instr) (n : Nat) (ext : Nat → Word) : bodyLd n ext (Claim.env s row) (s.taken row) =
    ((s.taken row).loadBytes s.cur (Claim.reqB s n .read (loadSpaces n) true true)).map
      (fun r => (.next, r.2.ws s.cur s.op.d (ext (leNat r.1)))) := by
  rw [bodyLd, reqB_taken]
  simp only [Claim.env, Env.put, loadSpaces]
  cases State.loadBytes _ _ _ <;> rfl

theorem load_performs (hm : (row, n, signed) ∈ Claim.loads) (hr : s.Ready row) {b : List Byte}
    (h : (s.taken row).loadBytes s.cur (Claim.reqB s n .read (loadSpaces n) true true) = .ok (b, s1)) :
    Claim.Performs row s s1 (s1.ws s.cur s.op.d (loadValue n signed (leNat b))) (Touch.reg s.op.d) := by
  refine performs_of_frame (completes_of_body hr (exec_load hm s) ?_) ?_ fun h5 => ?_
  · rw [bodyLd_eq, h]; rfl
  · exact (Frame.refl _ _ _).ws (by simp [Touch.reg]) _
  · exact (taken_frame s row s.cur _).trans (State.loadBytes_frame (q := Claim.reqB s n .read (loadSpaces n) true true) h5 h s.cur _)

theorem load_stops (hm : (row, n, signed) ∈ Claim.loads) (hr : s.Ready row) {x : Stop}
    (h : (s.taken row).loadBytes s.cur (Claim.reqB s n .read (loadSpaces n) true true) = .error x) : Claim.Stops row s x := by
  refine stops_of_body hr (exec_load hm s) ?_
  rw [bodyLd_eq, h]
  rfl

/-- A load reads the bytes of the state in which it begins. -/
theorem load_reads {a : Nat} (h4 : pSpc s.opA < 4)
    (h : (s.taken row).coreAddr s.cur (Claim.reqB s n .read (loadSpaces n) true true) = .ok (a, s1)) :
    ∃ s2, (s.taken row).loadBytes s.cur (Claim.reqB s n .read (loadSpaces n) true true) = .ok (s.bytes a n, s2) := by
  have hb : (s.taken row).bytes a n = s.bytes a n :=
    List.map_congr_left fun i _ => (taken_frame s row s.cur Touch.none).memory _ (by simp [Touch.none])
  rw [← hb]
  exact ⟨_, State.loadBytes_of_coreAddr (q := Claim.reqB s n .read (loadSpaces n) true true) h4 h⟩

theorem load_tcm (hm : (row, n, signed) ∈ Claim.loads) (hr : s.Ready row) {a : Nat} (h : Claim.InTcm s s.op.immS.toInt n n .read a) :
    ∃ s', Gives row s s' (Touch.reg s.op.d) ∧
      s'.rs s.cur s.op.d = if s.op.d = 0 then 0 else loadValue n signed (s.load a n) := by
  have h0 : pSpc s.opA = 0 := h.space.1
  have hc : (s.taken row).coreAddr s.cur (Claim.reqB s n .read (loadSpaces n) true true) = .ok (a, s) := by
    rw [State.taken_of_confOff row h.detector]
    exact State.coreAddr_of_inTcm h (loads_pos hm) (zero_mem_loadSpaces n)
  obtain ⟨s2, h2⟩ := load_reads (by omega) hc
  refine ⟨_, gives_of_performs (load_performs hm hr h2) (by omega), ?_⟩
  split
  · next hd => rw [hd, State.rs_zero]
  · next hd => rw [State.rs_ws_same _ _ _ hd]; rfl

end

/-! Stores. -/

section
variable {row : Instr} {n : Nat} {s s1 : State}

theorem stores_pos (h : (row, n) ∈ Claim.stores) : 0 < n := by
  have : ∀ x ∈ Claim.stores, 0 < x.2 := by decide
  exact this _ h

theorem exec_store (h : (row, n) ∈ Claim.stores) (s : State) : exec row s = .next (issue row (bodySt n) s) := by
  simp only [Claim.stores, List.mem_cons, Prod.mk.injEq, List.not_mem_nil, or_false] at h
  rcases h with ⟨rfl, rfl⟩ | ⟨rfl, rfl⟩ | ⟨rfl, rfl⟩ | ⟨rfl, rfl⟩ <;> rfl

theorem bodySt_eq (s : State) (row : Instr) (n : Nat) : bodySt n (Claim.env s row) (s.taken row) =
    ((s.taken row).coreAddr s.cur (Claim.reqB s n .write spStore true true)).map (fun r => (.next,
      r.2.writeAt s.cur (Claim.reqB s n .write spStore true true).ea r.1 (natLe n (r.2.rs s.cur s.op.d).toNat) true Ord.plain)) := by
  rw [bodySt, reqB_taken]
  simp only [Claim.env, Env.dv]
  cases State.coreAddr _ _ _ <;> rfl

/-- The checks of a store leave the register whose value it stores. -/
theorem State.rs_of_coreAddr {q : Req} {a : Nat} (h : (s.taken row).coreAddr s.cur q = .ok (a, s1)) (r : BitVec 5) :
    s1.rs s.cur r = s.rs s.cur r := by
  rw [← s.rs_taken row]
  refine State.rs_of_ctx ?_ r
  rw [State.ctx, State.ctx, (State.coreAddr_keeps h).1]

theorem store_performs (hm : (row, n) ∈ Claim.stores) (hr : s.Ready row) {a : Nat}
    (h : (s.taken row).coreAddr s.cur (Claim.reqB s n .write spStore true true) = .ok (a, s1)) (hw : s1.memOk) (hb : inBlocks a n = false) :
    ∃ s', Claim.Performs row s s1 s' { Touch.none with lo := a, hi := a + n } ∧ s'.load a n = s.opD.toNat % 2 ^ (8 * n) := by
  refine ⟨_, performs_of_frame (completes_of_body hr (exec_store hm s) (by rw [bodySt_eq, h]; rfl)) ?_ fun h5 => ?_, ?_⟩
  · exact State.writeAt_frame hw (by rwa [natLe_length]) s.cur (Nat.le_refl a) (by rw [natLe_length])
  · rw [(State.coreAddr_keeps h).2 h5]
    exact taken_frame s row s.cur _
  · rw [State.load_writeAt hw hb, State.rs_of_coreAddr h, pow_mul]
    rfl

theorem store_stops (hm : (row, n) ∈ Claim.stores) (hr : s.Ready row) {x : Stop}
    (h : (s.taken row).coreAddr s.cur (Claim.reqB s n .write spStore true true) = .error x) : Claim.Stops row s x := by
  refine stops_of_body hr (exec_store hm s) ?_
  rw [bodySt_eq, h]
  rfl

theorem store_tcm (hm : (row, n) ∈ Claim.stores) (hw : s.memOk) (hr : s.Ready row) {a : Nat}
    (h : Claim.InTcm s s.op.immS.toInt n n .write a) :
    ∃ s', Gives row s s' { Touch.none with lo := a, hi := a + n } ∧ s'.load a n = s.opD.toNat % 2 ^ (8 * n) := by
  have h0 : pSpc s.opA = 0 := h.space.1
  have hn := stores_pos hm
  have hc : (s.taken row).coreAddr s.cur (Claim.reqB s n .write spStore true true) = .ok (a, s) := by
    rw [State.taken_of_confOff row h.detector]
    exact State.coreAddr_of_inTcm h hn (by decide)
  have hb : inBlocks a n = false := by
    have hhi := h.high
    rw [h.at_]
    exact inBlocks_flatTcm h.core.1 h.core.2 (by omega) n
  obtain ⟨s', hp, hl⟩ := store_performs hm hr hc hw hb
  exact ⟨s', gives_of_performs hp (by omega), hl⟩

end

/-- Settles O32: a load or store does what the access path does at its checked address, and nothing stands against an access of
`Claim.InTcm`. -/
theorem loadsAndStores : Obligations.LoadsAndStores :=
  ⟨fun _ _ _ _ hm hr => ⟨fun _ _ h => load_performs hm hr h, fun _ h => load_stops hm hr h, fun _ _ h4 h => load_reads h4 h⟩,
    fun _ _ _ hm hr => ⟨fun _ _ h hw hb => store_performs hm hr h hw hb, fun _ h => store_stops hm hr h⟩,
    fun _ _ _ _ _ hm hr h => load_tcm hm hr h,
    fun _ _ _ _ hm hw hr h => store_tcm hm hw hr h⟩

end Sys2Proof.Machine
end

