-- ==== Sys2Proof/Proofs/ResetValues.lean ====
section
/-! The state after reset (R63): every table is empty, so that each part reads as its own reset value. -/

namespace Sys2Proof.Machine

open Sys2Proof

@[simp] theorem State.reset_ctx (c : CtxId) : State.reset.ctx c = Ctx.reset c.ctx := rfl
@[simp] theorem State.reset_core (c : CoreId) : State.reset.core c = Core.reset := rfl
@[simp] theorem State.reset_tile (vt : Nat) : State.reset.tile vt = Tile.reset := rfl
@[simp] theorem State.reset_byte (a : Nat) : State.reset.byte a = background a := rfl

/-- Every die of the panel after reset is a good one that hides no position. -/
theorem State.reset_info (vd : Nat) : (State.reset.info vd).hidden = [] := by
  simp only [State.info, State.reset, List.getD_eq_getElem?_getD, List.getElem?_map]
  cases (List.range 64)[vd]? <;> rfl

theorem State.reset_logical (vd : Nat) {pos : Nat} (h : pos < 192) : State.reset.logical vd pos = pos := by
  have hl : ∀ p ∈ List.range pos, State.reset.livePos vd p = true := fun p hp => by
    have := List.mem_range.1 hp
    simp only [State.livePos, State.reset_info, List.contains_nil, Bool.not_false, Bool.and_true, decide_eq_true_eq]
    omega
  rw [State.logical, List.filter_eq_self.2 hl, List.length_range]

/-- Farrier word 1 as boot leaves it: the spare is site 8, and no bit above the spare's is set (Tables 126, 127). -/
theorem State.reset_farrier_one {vd : Nat} (h : vd < 64) : State.reset.farrier vd 1 = 0xf80 := by
  have hb : ∀ i < 8, State.reset.byte (flatCommons vd 0x7fe8008 + i) = byteOf 0xf80 i := fun i hi => by
    have ho : flatCommons vd 0x7fe8008 + i = (2 * 2 ^ 20 + vd) * 2 ^ 44 + (0x7fe8008 + i) := by simp only [flatCommons, flat]; omega
    have hk : flatKind (flatCommons vd 0x7fe8008 + i) = 2 := by simp only [ho, flatKind]; omega
    have hv : flatOwner (flatCommons vd 0x7fe8008 + i) = vd := by simp only [ho, flatOwner]; omega
    have hf : flatOff (flatCommons vd 0x7fe8008 + i) = 0x7fe8008 + i := by simp only [ho, flatOff]; omega
    have hp : fullPanel.getD vd (DieInfo.full vd) = DieInfo.full vd := by
      simp [fullPanel, List.getD_eq_getElem?_getD, List.getElem?_range h]
    have hs : (DieInfo.full vd).spare = 8 := rfl
    rw [State.reset_byte, background, if_pos hk, hv, hf, bootByte, if_neg (by omega), if_neg (by omega)]
    dsimp only
    have hi' : 0x7fe8008 + i - 0x7fe8000 - 8 = i := by omega
    rw [hp, if_neg (by omega), if_neg (by omega), if_pos (by omega), farrierByte, hs, if_neg (by omega), if_pos (by omega), hi',
      if_neg (by decide)]
  have hl : State.reset.bytes (flatCommons vd 0x7fe8008) 8 = natLe 8 0xf80 :=
    List.map_congr_left fun i hi => hb i (List.mem_range.1 hi)
  rw [State.farrier, State.load, hl, leNat_natLe, Nat.mod_eq_of_lt (by norm_num)]

/-- A table of zeros is monotonic. -/
theorem tblMono_zero (n : Nat) : tblMono (fun _ => 0) n = true := by
  induction n with
  | zero => decide
  | succ n ih => simp only [tblMono, ih]; decide

/-- DECTAB after reset: an empty table is monotonic, and entry 0 is selected (Table 22). -/
theorem Core.reset_dectab : Core.reset.dectab = 2 ^ 62 := by
  have h : tblMono (fun i => (Core.reset.dec.get i 0).toNat) 255 = true := tblMono_zero 255
  simp only [Core.dectab, h]
  rfl

/-- A register of Table 13 with one value at reset for every context. -/
theorem State.reset_sysRead (c : CtxId) : ∀ x ∈ [(0x01, (0 : Word)), (0x02, 0), (0x03, 0x1400), (0x08, 0), (0x09, 0), (0x0b, 0), (0x0c, 0),
    (0x0d, 0), (0x0e, 0), (0x0f, 0), (0x10, 0), (0x11, 0), (0x12, 0), (0x13, 0), (0x14, 0x4000000000000000), (0x15, 0), (0x16, 0),
    (0x17, 0x01000000), (0x18, 0), (0x19, 0), (0x1a, 0), (0x1d, 0)], State.reset.sysRead c x.1 = x.2 := by
  have hcycle : State.reset.sysRead c 0x02 = 0 := by
    simp [State.sysRead, State.edgesAt, Tile.reset, Core.reset, show State.reset.edges = 0 from rfl]
  have hplb0 : State.reset.sysRead c 0x08 = 0 := by simp [State.sysRead, Tile.reset]
  have hplb1 : State.reset.sysRead c 0x09 = 0 := by simp [State.sysRead, Tile.reset]
  have hskew : State.reset.sysRead c 0x03 = 0x1400 := by simp [State.sysRead, Tile.reset, Config.skew]
  have hmode : State.reset.sysRead c 0x11 = 0 := by simp [State.sysRead, Ctx.reset]
  have hflags : State.reset.sysRead c 0x12 = 0 := by
    simp [State.sysRead, Ctx.reset, State.tileOr, show State.reset.ctxs = [] from rfl]
  have hdec : State.reset.sysRead c 0x14 = 0x4000000000000000 := congrArg (BitVec.ofNat 64) Core.reset_dectab
  simp only [List.forall_mem_cons, List.not_mem_nil, false_implies, implies_true, and_true]
  exact ⟨rfl, hcycle, hskew, hplb0, hplb1, rfl, rfl, rfl, rfl, rfl, rfl, hmode, hflags, rfl, hdec, rfl, rfl, rfl, rfl, rfl, rfl, rfl⟩

theorem State.reset_ctxid {c : CtxId} (hp : c.core.pos < 192) :
    State.reset.ctxid c = c.core.pos * 2 ^ 32 + c.core.vt * 2 ^ 12 + c.core.pos * 2 ^ 4 + c.ctx := by
  simp only [State.ctxid, State.reset_logical _ hp, State.reset_ctx, Ctx.reset, identC, identOf]
  norm_num
  omega

theorem State.reset_vdie (vt : Nat) : State.reset.vdie (dieOf vt) % 2 ^ 8 = vt / 8 % 2 ^ 8 := by
  have hkind : ∀ b : Bool, (if b = true then 2 ^ 16 else 0) % 2 ^ 8 = 0 := by decide
  have hc := hkind (State.reset.info (dieOf vt)).canter
  simp only [State.vdie, dieOf] at hc ⊢
  omega

theorem State.reset_harvest {vd : Nat} (h : vd < 64) : State.reset.harvest vd = 192 * 2 ^ 13 + 32 * 2 ^ 7 + 64 := by
  have hl : State.reset.liveCount vd = 192 := by rw [State.liveCount, State.reset_info]; rfl
  have hg : State.reset.nGallops = 32 := by decide
  have hn : State.reset.nDies = 64 := by decide
  rw [State.harvest, State.reset_farrier_one h, hl, hg, hn, show 0xf80 / 2 ^ 13 % 2 = 0 by decide, Nat.zero_mul, Nat.zero_add]

/-- A register of Table 13 that names the context, its tile, its die or the panel, or states what is offered. -/
theorem State.reset_identity {c : CtxId} (ht : c.core.vt < 512) (hp : c.core.pos < 192) (hc : c.ctx < 11) :
    let r := fun n => (State.reset.sysRead c n).toNat
    r 0x04 = c.core.pos * 2 ^ 32 + c.core.vt * 2 ^ 12 + c.core.pos * 2 ^ 4 + c.ctx ∧ r 0x05 = c.core.vt ∧ r 0x06 % 2 ^ 6 = c.core.vt / 8 ∧
    r 0x07 = 192 * 2 ^ 13 + 32 * 2 ^ 7 + 64 ∧ r 0x0a = 760 * 2 ^ 48 + 760 * 2 ^ 16 ∧ r 0x1b = Config.feat0.toNat ∧ r 0x1c = Config.feat1.toNat := by
  have hd : dieOf c.core.vt < 64 := by simp only [dieOf]; omega
  refine ⟨?_, ?_, ?_, ?_, ?_, ?_, ?_⟩
  · simp only [State.sysRead, State.reset_ctxid hp, BitVec.toNat_ofNat]
    omega
  · simp only [State.sysRead, BitVec.toNat_ofNat]
    omega
  · have hv := State.reset_vdie c.core.vt
    simp only [State.sysRead, BitVec.toNat_ofNat]
    omega
  · simp only [State.sysRead, State.reset_harvest hd, BitVec.toNat_ofNat]
    norm_num
  · simp only [State.sysRead, State.reset_tile, Tile.reset, Config.ckbase, BitVec.toNat_ofNat]
    norm_num
  · simp only [State.sysRead]
    decide
  · simp only [State.sysRead]
    decide

theorem getElem?_replicate_getD {α : Type} (n : Nat) (x : α) (r : Nat) : (Array.replicate n x)[r]?.getD x = x := by
  rw [Array.getElem?_replicate]
  split <;> rfl

/-- Every register of a context reads as its reset value (log 3). -/
theorem State.reset_registers (c : CtxId) : (∀ r, State.reset.rs c r = 0) ∧ (∀ r, State.reset.rp c r = if r = 0 then 0xffff else 0) ∧
    (∀ r, State.reset.rv c r = 0) ∧ (∀ r (i : Fin 256), (State.reset.ra c r)[i] = 0) ∧ ∀ r (i : Fin 16), (State.reset.rg c r)[i] = 0 := by
  refine ⟨fun r => ?_, fun r => ?_, fun r => ?_, fun r i => ?_, fun r i => ?_⟩
  · simp [State.rs, Ctx.reset, getElem?_replicate_getD]
  · simp [State.rp, Ctx.reset, getElem?_replicate_getD]
  · simp [State.rv, Ctx.reset, getElem?_replicate_getD]
  · simp [State.ra, Ctx.reset, getElem?_replicate_getD]
  · simp [State.rg, Ctx.reset, getElem?_replicate_getD]

/-- Settles O8, table by table: each part of the machine reads as its reset value. -/
theorem resetState : Obligations.ResetState :=
  ⟨fun c n w h => State.reset_sysRead c (n, w) h, fun _ ht hp hc => State.reset_identity ht hp hc,
    fun c => ⟨rfl, rfl, rfl, rfl, rfl, rfl, rfl, rfl, rfl, rfl, rfl, State.reset_registers c⟩,
    fun _ => ⟨rfl, rfl, rfl, rfl, rfl, rfl, fun _ => rfl, rfl, rfl, rfl, rfl, rfl, rfl, rfl⟩,
    fun a h => by rw [State.reset_byte, background, if_neg h], rfl, rfl, rfl⟩

end Sys2Proof.Machine
end

