-- ==== Sys2Proof/Proofs/QuietSteps.lean ====
section
/-! What stays as it was when messages are released, counters rise, sleepers wake and instructions complete (R84, R156, R275, R421): memory, the
tiles, every core but its counters and counts of messages, and every context but its activation, what it knows, and its sleep. -/

namespace Sys2Proof.Machine

open Sys2Proof

/-- A part of a core that an update does not change, in every core. -/
theorem State.core_modCore_proj {α : Type} (s : State) (c : CoreId) (f : Core → Core) (g : Core → α) (hf : ∀ k, g (f k) = g k) (d : CoreId) :
    g ((s.modCore c f).core d) = g (s.core d) := by
  by_cases h : d.key = c.key
  · simp only [State.core, State.modCore, State.setCore, h, Tab.get_set_same, hf]
  · rw [State.core_modCore_ne _ _ h]

/-- A state without its contexts and the detector's records: what beginning an instruction leaves alone. -/
def State.bare (s : State) : State := { s with ctxs := [], recs := [] }

/-- A context's state with a sleep taken as woken, and one that is in no use whatever its slot. -/
def CState.woken : CState → CState
  | .waiting w since => .waiting w.wake since
  | .outside => .free
  | x => x

/-- A context without its activation, its writes and what it knows, whether it sleeps or has been woken. -/
def Ctx.still (k : Ctx) : Ctx :=
  { k with st := k.st.woken, act := ⟨none, [], [], true⟩, wlog := [], joins := [], hb := Hb.none_ }

/-- A core without its counters and counts. -/
def Core.still (k : Core) : Core := { k with rein := [], fingers := [], pending := 0, reinHb := [] }

theorem Ctx.reset_still (i j : Nat) : (Ctx.reset i).still = (Ctx.reset j).still := by
  unfold Ctx.reset Ctx.still
  split <;> split <;> rfl

theorem Wait.wake_wake (w : Wait) : w.wake.wake = w.wake := by cases w <;> rfl

theorem Ctx.wake_still (k : Ctx) : k.wake.still = k.still := by
  unfold Ctx.wake
  split
  · next w since e => simp only [Ctx.still, CState.woken, e, Wait.wake_wake]
  · rfl

theorem CState.woken_eq_ready {x : CState} : x.woken = .ready ↔ x = .ready := by cases x <;> simp [CState.woken]

/-- A wait that no wake ends stands as it did. -/
theorem CState.woken_eq_waiting {x : CState} {w : Wait} {since : Nat} (hs : ∀ b, w ≠ .sleep b) (ht : ∀ n b, w ≠ .timed n b) :
    x.woken = .waiting w since ↔ x = .waiting w since := by
  cases x with
  | waiting v at_ => cases v <;> simp only [CState.woken, Wait.wake, CState.waiting.injEq] <;> grind
  | _ => simp [CState.woken]

/-- From s to t nothing differs but what releasing messages, counting signals and waking sleepers change; of contexts, in those of P. -/
structure Quiet (s t : State) (P : CtxId → Prop) : Prop where
  mem : t.mem = s.mem
  tiles : t.tiles = s.tiles
  cores : ∀ d, (t.core d).still = (s.core d).still
  ctxs : ∀ d, P d → (t.ctx d).still = (s.ctx d).still

section
variable {s t : State} {P : CtxId → Prop}

theorem Quiet.refl (s : State) (P : CtxId → Prop) : Quiet s s P := ⟨rfl, rfl, fun _ => rfl, fun _ _ => rfl⟩

theorem Quiet.trans {u : State} (h : Quiet s t P) (k : Quiet t u P) : Quiet s u P :=
  ⟨k.mem.trans h.mem, k.tiles.trans h.tiles, fun d => (k.cores d).trans (h.cores d), fun d hd => (k.ctxs d hd).trans (h.ctxs d hd)⟩

theorem Quiet.mono {Q : CtxId → Prop} (h : Quiet s t P) (hq : ∀ d, Q d → P d) : Quiet s t Q :=
  ⟨h.mem, h.tiles, h.cores, fun d hd => h.ctxs d (hq d hd)⟩

theorem Quiet.ite {u : State} {p : Prop} [Decidable p] (h : Quiet s t P) (k : Quiet s u P) : Quiet s (if p then t else u) P := by
  split <;> assumption

/-- An update of neither memory, tiles, cores nor contexts. -/
theorem Quiet.other {u : State} (h : Quiet s t P) (hm : u.mem = t.mem) (ht : u.tiles = t.tiles) (hk : u.cores = t.cores)
    (hc : u.ctxs = t.ctxs) : Quiet s u P :=
  h.trans ⟨hm, ht, fun d => by simp only [State.core, hk], fun d _ => by simp only [State.ctx, hc]⟩

theorem Quiet.modCtx (h : Quiet s t P) (c : CtxId) (f : Ctx → Ctx) (hf : ∀ k, (f k).still = k.still) : Quiet s (t.modCtx c f) P :=
  h.trans ⟨rfl, rfl, fun _ => rfl, fun _ _ => t.ctx_modCtx_proj c f Ctx.still hf Ctx.reset_still⟩

/-- An update of a context that P leaves out. -/
theorem Quiet.modCtx_apart (h : Quiet s t P) (c : CtxId) (f : Ctx → Ctx) (hP : ∀ d, P d → d.key ≠ c.key) : Quiet s (t.modCtx c f) P :=
  h.trans ⟨rfl, rfl, fun _ => rfl, fun d hd => by rw [t.ctx_modCtx_ne f (hP d hd)]⟩

theorem Quiet.modCore (h : Quiet s t P) (c : CoreId) (f : Core → Core) (hf : ∀ k, (f k).still = k.still) : Quiet s (t.modCore c f) P :=
  h.trans ⟨rfl, rfl, t.core_modCore_proj c f Core.still hf, fun _ _ => rfl⟩

theorem Quiet.post (h : Quiet s t P) (c : CtxId) (b : Bool) (tag : BitVec 32) (m : Msg) : Quiet s (t.post c b tag m) P := by
  unfold State.post
  split <;> exact h.other rfl rfl rfl rfl

theorem Quiet.sendAll (l : List (Msg × BitVec 32)) (h : Quiet s t P) (c : CtxId) : Quiet s (t.sendAll c l) P := by
  induction l generalizing t with
  | nil => exact h
  | cons p r ih =>
    obtain ⟨m, tag⟩ := p
    simp only [State.sendAll]
    apply ih
    apply Quiet.post
    exact Quiet.ite h (h.modCore _ _ fun _ => rfl)

theorem Quiet.commit (h : Quiet s t P) (c : CtxId) : Quiet s (t.commit c) P := by
  simp only [State.commit]
  split
  · exact h
  · exact (h.modCtx c (fun k => { k with act := { k.act with buf := [], log := [], within := false } }) fun _ => rfl).sendAll _ c

theorem Quiet.wakeFrom (l : List Nat) (h : Quiet s t P) (c : CoreId) : Quiet s (t.wakeFrom c l) P := by
  induction l generalizing t with
  | nil => exact h
  | cons i r ih =>
    simp only [State.wakeFrom]
    apply ih
    split
    · exact h.modCtx _ _ Ctx.wake_still
    · exact h

theorem Quiet.wakeCore (h : Quiet s t P) (c : CoreId) : Quiet s (t.wakeCore c) P := h.wakeFrom _ c

theorem Quiet.signal (h : Quiet s t P) (c : CoreId) (n i : Nat) (b : Bool) : Quiet s (t.signal c n i b) P := by
  have hr : Quiet s (t.modCore c (fun k => { k with rein := k.rein.set n ((k.reinAt n).add i b) })) P := h.modCore c _ fun _ => rfl
  exact Quiet.ite hr (hr.wakeCore c)

theorem Quiet.reinCarry (h : Quiet s t P) (c : CoreId) (n : Nat) (i : HbInfo) : Quiet s (t.reinCarry c n i) P :=
  h.ite (h.modCore c _ fun _ => rfl)

theorem Quiet.reinSignal (h : Quiet s t P) (c : CtxId) (n : Nat) : Quiet s (t.reinSignal c n) P := h.ite (h.reinCarry _ _ _)

theorem Quiet.signalLocal (h : Quiet s t P) (c : CtxId) (g : Option (Nat × Nat)) : Quiet s (t.signalLocal c g) P := by
  unfold State.signalLocal
  split
  · exact h
  · exact ((h.commit c).reinSignal c _).signal _ _ _ _

theorem Quiet.modHb (h : Quiet s t P) (c : CtxId) (f : Hb → Hb) : Quiet s (t.modHb c f) P := h.modCtx c _ fun _ => rfl

theorem Quiet.acquireInfo (h : Quiet s t P) (c : CtxId) (i : HbInfo) : Quiet s (t.acquireInfo c i) P := h.modHb c _

theorem Quiet.newInterval (h : Quiet s t P) (c : CtxId) : Quiet s (t.newInterval c) P := h.other rfl rfl rfl rfl

theorem Quiet.reinTaken (h : Quiet s t P) (c : CtxId) (n : Nat) : Quiet s (t.reinTaken c n) P := by
  have ha : Quiet s (t.acquireInfo c ((t.core c.core).reinAcq.get n [])) P := h.acquireInfo c _
  refine Quiet.ite h (Quiet.ite ?_ ha)
  exact (ha.newInterval c).modCtx c _ fun _ => rfl

theorem Quiet.endAccess (h : Quiet s t P) (c : CtxId) (row : Instr) (o : Fields) (off : Bool) : Quiet s (t.endAccess c row o off) P :=
  h.ite ((h.modHb c _).ite (h.modHb c _))

theorem Quiet.fingerAdd (h : Quiet s t P) (c : CtxId) (pc : Word) (row : Instr) (o : Fields) (b b' : Bool) (g : Option (Nat × Nat)) :
    Quiet s (t.fingerAdd c pc row o b b' g) P := by
  refine Quiet.ite h (Quiet.modCore ?_ _ _ fun _ => rfl)
  exact h.modCtx c _ fun _ => rfl

theorem Quiet.syncTaken (l : List CtxId) (h : Quiet s t P) (o : Fields) : Quiet s (t.syncTaken o l) P := by
  induction l generalizing t with
  | nil => exact h
  | cons c r ih =>
    simp only [State.syncTaken]
    split
    · exact h
    · exact ih (h.reinTaken _ _)

theorem Quiet.beginAccess (h : Quiet s t P) (c : CtxId) (row : Instr) (o : Fields) (i : HbInfo) : Quiet s (t.beginAccess c row o i) P :=
  h.ite (h.modHb c _)

end

/-! Completing an instruction. -/

/-- What completing an instruction makes of its context before its signal (R84). -/
def Ctx.completed (k : Ctx) (row : Instr) (ctl : Ctl) : Ctx :=
  { k.advance ctl with count := k.count + 1, st := .ready, joined := k.keepsJoin row, gdone := 0,
                       gang := k.gang.map (fun g => { g with keep := none }) }

/-- A completion is quiet but for the context's own advance. -/
theorem State.complete_quiet (s : State) (c : CtxId) (row : Instr) (o : Fields) (off : Bool) {ctl : Ctl} (g : Option (Nat × Nat))
    (hc : ctl ≠ .ended) :
    Quiet ((s.endAccess c row o off).modCtx c (fun k => k.completed row ctl)) (s.complete c row o off ctl g) (fun _ => True) := by
  unfold State.complete
  extract_lets pc ends s1 s2 s3 s4
  have e2 : s2 = (s.endAccess c row o off).modCtx c (fun k => k.completed row ctl) := if_neg hc
  have e3 : s3 = s2.fingerAdd c pc row o off ends g := if_neg hc
  rw [← e2]
  have h3 : Quiet s2 s3 (fun _ => True) := e3 ▸ (Quiet.refl s2 _).fingerAdd _ _ _ _ _ _ _
  have h4 : Quiet s2 s4 (fun _ => True) := (h3.commit c).ite h3
  exact h4.ite ((h4.signalLocal _ _).signalLocal _ _)

/-- Completing an instruction leaves every other context, and the cores. -/
theorem Quiet.complete {s t : State} {P : CtxId → Prop} (h : Quiet s t P) (c : CtxId) (row : Instr) (o : Fields) (off : Bool) {ctl : Ctl}
    (g : Option (Nat × Nat)) (hc : ctl ≠ .ended) (hP : ∀ d, P d → d.key ≠ c.key) : Quiet s (t.complete c row o off ctl g) P :=
  ((h.endAccess c row o off).modCtx_apart c _ hP).trans ((t.complete_quiet c row o off g hc).mono fun _ _ => True.intro)

/-- The context of a completed instruction is ready at the next head (R71, R84). -/
theorem State.complete_next (s : State) (c : CtxId) (row : Instr) (o : Fields) (off : Bool) (g : Option (Nat × Nat)) :
    let t := s.complete c row o off .next g
    (t.ctx c).st = .ready ∧ (t.ctx c).pc = (nextHead (s.ctx c).line (s.ctx c).pc).1 := by
  have h := (s.complete_quiet c row o off g (ctl := .next) (by decide)).ctxs c True.intro
  have h0 := ((Quiet.refl s (fun _ => True)).endAccess c row o off).ctxs c True.intro
  have hst := congrArg Ctx.st h
  have hpc := congrArg Ctx.pc h
  have hline := congrArg Ctx.line h0
  have hpc0 := congrArg Ctx.pc h0
  simp only [Ctx.still, State.ctx_modCtx_same, Ctx.completed, Ctx.advance] at hst hpc hline hpc0
  replace hst := CState.woken_eq_ready.1 hst
  exact ⟨hst, by rw [hpc, hline, hpc0]⟩

/-! Beginning an instruction. -/

section
variable (s : State) (row : Instr)

theorem State.bare_reinTaken (c : CtxId) (n : Nat) : (s.reinTaken c n).bare = s.bare := by
  simp only [State.reinTaken]
  split
  · rfl
  · split <;> rfl

theorem State.bare_syncTaken (o : Fields) (l : List CtxId) : (s.syncTaken o l).bare = s.bare := by
  induction l generalizing s with
  | nil => rfl
  | cons c r ih =>
    simp only [State.syncTaken]
    split
    · rfl
    · rw [ih, State.bare_reinTaken]

theorem State.bare_beginAccess (c : CtxId) (o : Fields) (i : HbInfo) : (s.beginAccess c row o i).bare = s.bare := by
  simp only [State.beginAccess]
  split <;> rfl

theorem State.bare_synced : s.synced.bare = s.bare := s.bare_syncTaken _ _

/-- Beginning an instruction changes contexts and the detector's records alone. -/
theorem State.bare_taken : (s.taken row).bare = s.bare := by rw [State.taken, State.bare_beginAccess, State.bare_synced]

theorem State.synced_quiet (P : CtxId → Prop) : Quiet s s.synced P := (Quiet.refl s P).syncTaken _ _
theorem State.taken_quiet (P : CtxId → Prop) : Quiet s (s.taken row) P := (s.synced_quiet P).beginAccess _ _ _ _

/-- What reads neither contexts nor the detector's records. -/
theorem State.eq_of_bare {α : Type} {s t : State} (g : State → α) (hg : ∀ s, g s = g s.bare) (h : t.bare = s.bare) : g t = g s := by
  rw [hg, hg s, h]

@[simp] theorem State.mem_taken : (s.taken row).mem = s.mem := State.eq_of_bare State.mem (fun _ => rfl) (s.bare_taken row)
@[simp] theorem State.core_taken (c : CoreId) : (s.taken row).core c = s.core c :=
  State.eq_of_bare (fun x => x.core c) (fun _ => rfl) (s.bare_taken row)
@[simp] theorem State.tile_taken (vt : Nat) : (s.taken row).tile vt = s.tile vt :=
  State.eq_of_bare (fun x => x.tile vt) (fun _ => rfl) (s.bare_taken row)
@[simp] theorem State.core_synced (c : CoreId) : s.synced.core c = s.core c :=
  State.eq_of_bare (fun x => x.core c) (fun _ => rfl) s.bare_synced

theorem State.ctx_reinTaken_ne {c d : CtxId} (h : d.key ≠ c.key) (n : Nat) : (s.reinTaken c n).ctx d = s.ctx d := by
  have ha : ∀ i, (s.acquireInfo c i).ctx d = s.ctx d := fun i => s.ctx_modCtx_ne _ h
  simp only [State.reinTaken]
  split
  · rfl
  · split
    · rw [State.ctx_modCtx_ne _ _ h]
      exact ha _
    · exact ha _

theorem State.ctx_synced_ne {d : CtxId} (h : d.key ≠ s.cur.key) : s.synced.ctx d = s.ctx d := by
  simp only [State.synced, State.syncTaken]
  split
  · rfl
  · exact s.ctx_reinTaken_ne h _

/-- Beginning an instruction leaves every other context. -/
theorem State.ctx_taken_ne {d : CtxId} (h : d.key ≠ s.cur.key) : (s.taken row).ctx d = s.ctx d := by
  rw [← s.ctx_synced_ne h, State.taken]
  simp only [State.beginAccess]
  split
  · rfl
  · exact s.synced.ctx_modCtx_ne _ h

/-- A part of a context that beginning an instruction leaves. -/
theorem State.ctx_taken_proj {α : Type} (g : Ctx → α) (hg : ∀ k : Ctx, g k = g k.still) (d : CtxId) : g ((s.taken row).ctx d) = g (s.ctx d) := by
  rw [hg, hg (s.ctx d), (s.taken_quiet row (fun _ => True)).ctxs d True.intro]

end

end Sys2Proof.Machine
end

