-- ==== Sys2Proof/Proofs/SpawnExit.lean ====
section
/-! Branch targets as the spec's tables give them, SPAWN and EXIT (R77, R151–R153). -/

namespace Sys2Proof.Machine

open Sys2Proof

/-! Targets. -/

theorem offWidth_eq_offBits (n : Nat) : offWidth n = Claim.offBits n := rfl

/-- A replaced offset field, as a number. -/
theorem setField_eq_withOff (p : Word) {x : Nat} (hx : x < 2 ^ offWidth (pSpc p)) : setField p 0 (offWidth (pSpc p)) x = Claim.withOff p x := by
  have hle := offWidth_le (pSpc p)
  have hhigh := setField_high p (offWidth (pSpc p)) x
  have hlow := setField_low p (x := x) (show offWidth (pSpc p) ≤ 64 by omega)
  rw [Nat.mod_eq_of_lt hx] at hlow
  have hdiv := Nat.div_add_mod p.toNat (2 ^ offWidth (pSpc p))
  have hdiv' := Nat.div_add_mod (setField p 0 (offWidth (pSpc p)) x).toNat (2 ^ offWidth (pSpc p))
  rw [hhigh, hlow] at hdiv'
  have hb := (setField p 0 (offWidth (pSpc p)) x).isLt
  apply BitVec.eq_of_toNat_eq
  rw [Claim.withOff, BitVec.toNat_ofNat, ← offWidth_eq_offBits, Nat.mod_eq_of_lt] <;> omega

/-- A moved offset field, as AddP forms it and as Table 52 gives it. -/
theorem offAdd_eq_moved (p : Word) (d : Int) : offAdd p d = Claim.moved p d := by
  change (if (pOff p : Int) + d < 0 ∨ ((2 ^ offWidth (pSpc p) : Nat) : Int) ≤ (pOff p : Int) + d then none
      else some (setField p 0 (offWidth (pSpc p)) ((pOff p : Int) + d).toNat)) =
    if 0 ≤ (pOff p : Int) + d ∧ (pOff p : Int) + d < 2 ^ offWidth (pSpc p) then some (Claim.withOff p ((pOff p : Int) + d).toNat) else none
  generalize (pOff p : Int) + d = o
  by_cases h : 0 ≤ o ∧ o < 2 ^ offWidth (pSpc p)
  · obtain ⟨hlo, hhi⟩ := h
    rw [if_neg (by push_cast; omega), if_pos ⟨hlo, hhi⟩, setField_eq_withOff]
    zify
    rwa [Int.toNat_of_nonneg hlo]
  · rw [if_pos (by push_cast; omega), if_neg h]

/-- The base of the line of an address, as a mask and as a multiple of 64. -/
theorem lineBase_eq_lineOfPc (pc : Word) : lineBase pc = Claim.lineOfPc pc := by
  refine BitVec.eq_of_getLsbD_eq fun i hi => ?_
  have h63 : (63 : Word).getLsbD i = decide (i < 6) := by
    rw [show (63 : Word) = BitVec.ofNat 64 (2 ^ 6 - 1) from rfl, BitVec.getLsbD_ofNat, Nat.testBit_two_pow_sub_one]
    simp [hi]
  have hmul : (pc.toNat / 64 * 64).testBit i = (decide (6 ≤ i) && (pc.toNat / 2 ^ 6).testBit (i - 6)) := Nat.testBit_mul_two_pow _ i 6
  rw [lineBase, Claim.lineOfPc, BitVec.getLsbD_and, BitVec.getLsbD_not, h63, BitVec.getLsbD_ofNat, hmul, Nat.testBit_div_two_pow]
  by_cases h6 : i < 6
  · simp [h6]
  · simp [h6, hi, show i - 6 + 6 = i by omega, show 6 ≤ i by omega, BitVec.getElem_eq_testBit_toNat]

section
variable {s : State} {row : Instr}

theorem State.leadOf_taken (hr : s.Ready row) : (s.taken row).leadOf s.cur = s.cur := by
  have hg : ((s.taken row).ctx s.cur).gang = none := (s.ctx_taken_proj row Ctx.gang (fun _ => rfl) s.cur).trans hr.alone
  simp only [State.leadOf, State.members, hg, List.headD_cons]

theorem State.members_synced (hr : s.Ready row) : s.synced.members s.cur = [s.cur] := by
  have hg : (s.synced.ctx s.cur).gang = none := by
    have := congrArg Ctx.gang ((s.synced_quiet (fun _ => True)).ctxs s.cur True.intro)
    exact this.trans hr.alone
  simp only [State.members, hg]

/-- The PC of an instruction that may be performed. -/
theorem Env.pc_taken (hr : s.Ready row) : (Claim.env s row).pc (s.taken row) = (s.ctx s.cur).pc := by
  rw [Env.pc, show (Claim.env s row).me = s.cur from rfl, State.leadOf_taken hr]
  exact s.ctx_taken_proj row Ctx.pc (fun _ => rfl) s.cur

/-- The target of an instruction that may be performed is that of the tables (R77). -/
theorem Env.target_taken (hr : s.Ready row) {t : Word} (ht : Claim.target s = some t) :
    (Claim.env s row).target (s.taken row) = .ok t := by
  have hb : branchTarget ((Claim.env s row).pc (s.taken row)) (Claim.env s row).o.immS = some t := by
    rw [branchTarget, offAdd_eq_moved, lineBase_eq_lineOfPc, Env.pc_taken hr]
    exact ht
  simp only [Env.target, hb]

/-- An instruction whose body goes on in some way completes in that way. -/
theorem completes_of_body_ctl {body : Body} {ctl : Ctl} {s' : State} (h : s.Ready row) (hx : exec row s = .next (issue row body s))
    (hb : body (Claim.env s row) (s.taken row) = .ok (ctl, s')) : Completes row s ctl s' := by
  unfold Claim.env at hb
  rw [Completes, hx, issue_ready row body s h, hb]

/-- An instruction whose body writes s[D] gives it. -/
theorem givesReg_of_body {body : Body} {v : Word} (h : s.Ready row) (hx : exec row s = .next (issue row body s))
    (hb : body (Claim.env s row) (s.taken row) = .ok (.next, (s.taken row).ws s.cur s.op.d v)) : GivesReg row s v := by
  refine ⟨completes_of_body h hx hb, ?_⟩
  exact ((taken_frame s row s.cur _).ws (by simp [Touch.reg]) v).trans (after_frame s row .next s.cur _)

/-- A release beyond the context waits for its posted accesses (R167). -/
theorem Env.relWait_taken {scope : Nat} (hs : 1 ≤ scope) : (Claim.env s row).relWait (s.taken row) scope =
    if 0 < (s.ctx s.cur).posted then .error (.wait .earlier (s.taken row)) else .ok () := by
  have hp : ((Claim.env s row).k (s.taken row)).posted = (s.ctx s.cur).posted := s.ctx_taken_proj row Ctx.posted (fun _ => rfl) s.cur
  simp only [Env.relWait, hp, hs, true_and]

/-- A remote error record is reported before anything else (R190). -/
theorem Env.reportErr_some {r : RemErr} (he : (s.ctx s.cur).err = some r) :
    (Claim.env s row).reportErr (s.taken row) = .error (.trap r.trap (s.taken row)) := by
  have hk : ((Claim.env s row).k (s.taken row)).err = some r := (s.ctx_taken_proj row Ctx.err (fun _ => rfl) s.cur).trans he
  simp only [Env.reportErr, hk]

theorem Env.reportErr_none (he : (s.ctx s.cur).err = none) : (Claim.env s row).reportErr (s.taken row) = .ok () := by
  have hk : ((Claim.env s row).k (s.taken row)).err = none := (s.ctx_taken_proj row Ctx.err (fun _ => rfl) s.cur).trans he
  simp only [Env.reportErr, hk]

end

/-! Free helpers. -/

/-- Contexts of distinct numbers of a core, or of two cores, have distinct keys. -/
theorem CtxId.key_ne_of_ctx_ne {c d : CtxId} (hc : c.ctx < 16) (hd : d.ctx < 16) (h : c.ctx ≠ d.ctx) : c.key ≠ d.key := by
  simp only [CtxId.key]
  omega

theorem mem_helperCtx {i : Nat} (h : i ∈ helperCtx) : 1 ≤ i ∧ i ≤ 10 := by
  have : ∀ j ∈ helperCtx, 1 ≤ j ∧ j ≤ 10 := by decide
  exact this i h

/-- The free helper of a core depends on its helpers' states, on those of the leaders that may claim them, and on its launch. -/
theorem State.freeHelperOf_congr {s t : State} {c : CoreId} (hc : t.core c = s.core c)
    (hx : ∀ d : CtxId, d.ctx ∈ helperCtx → t.ctx d = s.ctx d) : t.freeHelperOf c = s.freeHelperOf c := by
  have hcount : t.helperCount c = s.helperCount c := by simp only [State.helperCount, hc]
  have hclaim : ∀ i ∈ helperCtx, t.claimant ⟨c, i⟩ = s.claimant ⟨c, i⟩ := fun i hi => by
    have hd := fun pos => hx ⟨⟨c.vt, pos⟩, i⟩ hi
    simp only [State.claimant, hd]
  refine List.find?_congr fun i hi => ?_
  rw [hcount, hx ⟨c, i⟩ hi, hclaim i hi]

theorem State.freeHelperOf_mem {s : State} {c : CoreId} {h : Nat} (hf : s.freeHelperOf c = some h) : h ∈ helperCtx :=
  List.mem_of_find?_eq_some hf

theorem State.mayLeave_congr {s t : State} {c : CoreId} (hc : t.core c = s.core c) (ht : t.tile c.vt = s.tile c.vt)
    (hx : ∀ d : CtxId, d.ctx ∈ helperCtx → t.ctx d = s.ctx d) : t.mayLeave c = s.mayLeave c := by
  have hall : helperCtx.all (fun i => (t.ctx ⟨c, i⟩).st == .free) = helperCtx.all (fun i => (s.ctx ⟨c, i⟩).st == .free) := by
    rw [Bool.eq_iff_iff, List.all_eq_true, List.all_eq_true]
    exact forall₂_congr fun i hi => by rw [hx ⟨c, i⟩ hi]
  simp only [State.mayLeave, hc, ht, hall]

/-- Beginning an instruction of context 0 leaves every helper. -/
theorem State.helper_taken {s : State} (row : Instr) (h0 : s.cur.ctx = 0) {d : CtxId} (hd : d.ctx ∈ helperCtx) :
    (s.taken row).ctx d = s.ctx d :=
  s.ctx_taken_ne row (CtxId.key_ne_of_ctx_ne (by have := mem_helperCtx hd; omega) (by omega) (by have := mem_helperCtx hd; omega))

/-! Starting a helper. -/

theorem startRegs_getD (sp : Nat) (regs : List Word) {i : Nat} (hi : i < 32) : (startRegs sp regs).toArray.getD i 0 =
    if i = 2 then BitVec.ofNat 64 sp else if 20 ≤ i then regs.getD (i - 20) 0 else 0 := by
  simp [startRegs, Array.getD, hi]

/-- A new agreed point stands beside the contexts and memory, in a core's record of its intervals. -/
theorem State.fingerBase_quiet (s : State) (c : CtxId) : (s.fingerBase c).mem = s.mem ∧ (s.fingerBase c).ctxs = s.ctxs ∧
    ∀ d, ((s.fingerBase c).core d).still = (s.core d).still := by
  unfold State.fingerBase
  split
  · exact ⟨rfl, rfl, s.core_modCore_proj _ _ Core.still fun _ => rfl⟩
  · exact ⟨rfl, rfl, fun _ => rfl⟩

/-- The context that a start makes (R65); `all`: what its slot's earlier use was ordered after. -/
def Start.context (x : Start) (c : CtxId) (l : CoreLaunch) (all : HbInfo) : Ctx :=
  { Ctx.reset c.ctx with
    pc := x.pc, entry := .from_ x.src, s := startRegs (0x1ffc0 - c.ctx * l.stack) x.regs, mode := BitVec.ofNat 3 l.mode,
    seed := BitVec.ofNat 32 l.seed ^^^ BitVec.ofNat 32 (identC c), st := .ready, origin := x.origin, cls := x.cls, prio := x.prio,
    act := { task := x.task, buf := [], log := [], within := true }, hb := { Hb.none_ with info := x.info, all := all } }

/-- A start writes its context, and beside it only the record of the core's intervals. -/
theorem State.startHelper_eq {s : State} {c : CtxId} {l : CoreLaunch} (hl : (s.core c.core).launch = some l) (x : Start) :
    ∃ (s1 : State) (all : HbInfo), s.startHelper c x = (s1.setCtx c (x.context c l all)).fingerBase c ∧ s1.mem = s.mem ∧ s1.ctxs = s.ctxs ∧
      ∀ d, (s1.core d).still = (s.core d).still := by
  simp only [State.startHelper, hl]
  exact ⟨_, _, rfl, rfl, rfl, s.core_modCore_proj _ _ Core.still fun _ => rfl⟩

/-- What a started helper receives (R65), and what its start leaves. -/
theorem State.started {s : State} {c : CtxId} {l : CoreLaunch} (hl : (s.core c.core).launch = some l) (x : Start) :
    Claim.Started s (s.startHelper c x) l c x.pc x.regs ∧ ((s.startHelper c x).ctx c).entry = .from_ x.src ∧
      ∀ d, ((s.startHelper c x).core d).still = (s.core d).still := by
  obtain ⟨s1, all, e, hm1, hc1, hk1⟩ := State.startHelper_eq hl x
  obtain ⟨hm, hctx, hcores⟩ := (s1.setCtx c (x.context c l all)).fingerBase_quiet c
  rw [e]
  generalize (s1.setCtx c (x.context c l all)).fingerBase c = t at *
  have hc : t.ctx c = x.context c l all := by rw [State.ctx, hctx]; exact s1.ctx_setCtx_same c _
  have hother : ∀ d : CtxId, d.key ≠ c.key → t.ctx d = s.ctx d := fun d hd => by
    rw [State.ctx, hctx, State.ctx, ← hc1]; exact s1.ctx_setCtx_ne _ hd
  have hreg : ∀ r : BitVec 5, r ≠ 0 → t.rs c r =
      if r.toNat = 2 then BitVec.ofNat 64 (0x1ffc0 - c.ctx * l.stack) else if 20 ≤ r.toNat then x.regs.getD (r.toNat - 20) 0 else 0 :=
    fun r hr => by rw [State.rs, if_neg hr, hc, Start.context, startRegs_getD _ _ r.isLt]
  refine ⟨⟨?_, ?_, ?_, hreg 2 (by decide), fun r hr => ?_, ?_, ?_, hm.trans hm1, hother⟩, ?_, fun d => (hcores d).trans (hk1 d)⟩
  case refine_4 => rw [hreg r (by rintro rfl; exact absurd hr (by decide)), if_neg (by omega), if_pos hr]
  all_goals rw [hc]; rfl

/-- A register write leaves every other context. -/
theorem State.ctx_ws_ne (s : State) {c d : CtxId} (r : BitVec 5) (v : Word) (h : d.key ≠ c.key) : (s.ws c r v).ctx d = s.ctx d := by
  rw [State.ws]
  split
  · rfl
  · exact s.ctx_modCtx_ne _ h

/-! SPAWN. -/

/-- The start of a helper that SPAWN makes (R65, R151). -/
def State.spawnStart (s : State) (t : Word) : Start :=
  { pc := t, src := (s.ctx s.cur).pc, regs := [s.opA, 0, 0, 0, 0, 0, 0, BitVec.ofNat 64 (identC s.cur)], origin := .spawn, cls := 0, prio := 0,
    task := none, info := (s.taken .spawn).release s.cur }

/-- The state in which SPAWN starts its helper: the eligible tasks are passed over (R350). -/
def State.passing (s : State) : State := (s.taken .spawn).modCore s.cur.core (fun k => k.pass none)

section
variable {s : State} {t : Word}

theorem State.freeHelperOf_taken (h0 : s.cur.ctx = 0) : (s.taken .spawn).freeHelperOf s.cur.core = s.freeHelperOf s.cur.core :=
  State.freeHelperOf_congr (s.core_taken _ _) fun _ hd => State.helper_taken _ h0 hd

theorem bodySpawn_none (hr : s.Ready .spawn) (ht : Claim.target s = some t) (h0 : s.cur.ctx = 0) (hf : s.freeHelperOf s.cur.core = none) :
    bodySpawn (Claim.env s .spawn) (s.taken .spawn) = .ok (.next, (s.taken .spawn).ws s.cur s.op.d 0) := by
  simp only [bodySpawn, Env.target_taken hr ht, except_ok_bind, show (Claim.env s .spawn).me = s.cur from rfl, State.freeHelperOf_taken h0, hf]
  rfl

theorem bodySpawn_some {h : Nat} (hr : s.Ready .spawn) (ht : Claim.target s = some t) (h0 : s.cur.ctx = 0)
    (hf : s.freeHelperOf s.cur.core = some h) : bodySpawn (Claim.env s .spawn) (s.taken .spawn) =
      if 0 < (s.ctx s.cur).posted then .error (.wait .earlier (s.taken .spawn))
      else .ok (.next, (s.passing.startHelper ⟨s.cur.core, h⟩ (s.spawnStart t)).ws s.cur s.op.d (BitVec.ofNat 64 h)) := by
  have hpc : (Claim.env s .spawn).pc ((s.taken .spawn).modCore s.cur.core (fun k => k.pass none)) = (s.ctx s.cur).pc := Env.pc_taken hr
  have ha : (Claim.env s .spawn).a ((s.taken .spawn).modCore s.cur.core (fun k => k.pass none)) = s.opA := s.rs_taken .spawn s.op.s1
  simp only [bodySpawn, Env.target_taken hr ht, except_ok_bind, show (Claim.env s .spawn).me = s.cur from rfl, State.freeHelperOf_taken h0, hf,
    Env.relWait_taken (Nat.le_refl 1), hpc, ha]
  split <;> rfl

/-- The helper that SPAWN starts. -/
theorem spawn_started {h : Nat} {l : CoreLaunch} (hl : (s.core s.cur.core).launch = some l) :
    Claim.Started s.passing (s.passing.startHelper ⟨s.cur.core, h⟩ (s.spawnStart t)) l ⟨s.cur.core, h⟩ t (s.spawnStart t).regs ∧
      ((s.passing.startHelper ⟨s.cur.core, h⟩ (s.spawnStart t)).ctx ⟨s.cur.core, h⟩).entry = .from_ (s.ctx s.cur).pc := by
  have hl' : (s.passing.core s.cur.core).launch = some l := by
    rw [State.passing, State.core_modCore_same, s.core_taken]
    exact hl
  obtain ⟨hstart, hentry, -⟩ := State.started (c := ⟨s.cur.core, h⟩) hl' (s.spawnStart t)
  exact ⟨hstart, hentry⟩

end

/-! EXIT. -/

/-- A free context is none that a wake touches. -/
theorem State.ctx_wakeFrom_of_free {s : State} {d : CtxId} (h : (s.ctx d).st = .free) (c : CoreId) (l : List Nat) :
    (s.wakeFrom c l).ctx d = s.ctx d := by
  induction l generalizing s with
  | nil => rfl
  | cons i r ih =>
    simp only [State.wakeFrom]
    split
    · next w since hw =>
      have hd : d.key ≠ (⟨c, i⟩ : CtxId).key := fun hk => by
        have := State.ctx_key_proj s (fun k => k.still.st) (fun i j => congrArg Ctx.st (Ctx.reset_still i j)) hk
        simp [Ctx.still, h, hw, CState.woken] at this
      have hu := s.ctx_modCtx_ne Ctx.wake hd
      exact (ih (hu ▸ h)).trans hu
    · exact ih h

theorem State.ctx_dropGrants (s : State) (c d : CtxId) : (s.dropGrants c).ctx d = s.ctx d := by
  simp only [State.dropGrants]
  split <;> rfl

theorem State.mem_dropGrants (s : State) (c : CtxId) : (s.dropGrants c).mem = s.mem := by
  simp only [State.dropGrants]
  split <;> rfl

/-- A freed helper's slot. -/
theorem State.ctx_freeHelper_same (s : State) {c : CtxId} (h : c.ctx ≠ 0) (keep : Bool) : ((s.freeHelper c keep).ctx c).st = .free := by
  simp only [State.freeHelper, State.wakeCore]
  generalize hu : ({ s.setCtx c _ with feq := _ } : State).dropGrants c = u
  have hst : (u.ctx c).st = .free := by
    rw [← hu, State.ctx_dropGrants]
    have := congrArg Ctx.st (s.ctx_setCtx_same c { (s.ctx c).cleared c with kept := if keep then (s.ctx c).ff else 0 })
    refine Eq.trans this ?_
    simp only [Ctx.cleared, Ctx.reset, if_neg h]
  rw [State.ctx_wakeFrom_of_free hst]
  exact hst

theorem State.mem_wakeFrom (s : State) (c : CoreId) (l : List Nat) : (s.wakeFrom c l).mem = s.mem :=
  ((Quiet.refl s (fun _ => False)).wakeFrom l c).mem

theorem State.mem_freeHelper (s : State) (c : CtxId) (keep : Bool) : (s.freeHelper c keep).mem = s.mem := by
  simp only [State.freeHelper, State.wakeCore, State.mem_wakeFrom, State.mem_dropGrants]
  rfl

theorem State.mem_commit (s : State) (c : CtxId) : (s.commit c).mem = s.mem := ((Quiet.refl s (fun _ => False)).commit c).mem

theorem State.mem_covered (s : State) (c : CtxId) : (s.covered c).mem = s.mem := by
  rw [State.covered]
  split <;> rfl

theorem State.mem_complete (s : State) (c : CtxId) (row : Instr) (o : Fields) (off : Bool) (g : Option (Nat × Nat)) :
    (s.complete c row o off .next g).mem = s.mem :=
  ((Quiet.refl s (fun _ => False)).complete c row o off g (ctl := .next) (by decide) fun _ h => h.elim).mem

theorem State.mem_finishWaiting (s : State) (c : CtxId) : (s.finishWaiting c).mem = s.mem := by
  simp only [State.finishWaiting]
  split
  · rfl
  · split
    · exact State.mem_complete ..
    · rfl

theorem State.mem_answerD (s : State) (c : CtxId) (v : Word) : (s.answerD c v).mem = s.mem := by
  rw [State.answerD]
  split
  · rw [State.mem_finishWaiting, State.mem_ws]
  · rfl

theorem State.mem_uncouple (s : State) (c : CoreId) : (s.uncouple c).mem = s.mem := by
  simp only [State.uncouple]
  split
  · rfl
  · split
    · exact State.mem_answerD ..
    · rfl

theorem State.mem_leave (s : State) (c : CoreId) : (s.leave c).mem = s.mem := by
  unfold State.leave
  extract_lets id u k0 u1 bar left u2
  have hu : u2.mem = s.mem := State.mem_uncouple s c
  split <;> exact hu

/-- A map over a table's entries that keeps the keys. -/
theorem Tab.find_map_of_key {α : Type} (t : Tab α) {f : Nat × α → Nat × α} (hf : ∀ p, (f p).1 = p.1) (k : Nat) :
    Tab.find (t.map f : List (Nat × α)) k = (Tab.find t k).map (fun x => (f (k, x)).2) := by
  induction t with
  | nil => rfl
  | cons p r ih =>
    obtain ⟨j, x⟩ := p
    by_cases h : j = k
    · subst h
      simp [Tab.find, hf]
    · simp [Tab.find, hf, h, ih]

/-- Dropping the tokens of a launch leaves every core's launch. -/
theorem State.launch_dropTokens (s : State) (vt id : Nat) (c : CoreId) : ((s.dropTokens vt id).core c).launch = (s.core c).launch := by
  simp only [State.core, State.dropTokens, Tab.get]
  rw [Tab.find_map_of_key _ (fun p => by split <;> rfl)]
  cases Tab.find s.cores c.key with
  | none => rfl
  | some k => simp only [Option.map_some, Option.getD_some]; split <;> rfl

/-- A core that has left is outside any launch. -/
theorem State.launch_leave (s : State) (c : CoreId) : ((s.leave c).core c).launch = none := by
  unfold State.leave
  extract_lets id u k0 u1 bar left u2
  have hu : (u2.core c).launch = none := congrArg Core.launch (u1.core_modCore_same c _)
  split
  · exact hu
  · rw [State.launch_dropTokens]
    exact hu

section
variable {s : State}

theorem State.settled_congr {s t : State} {c : CtxId} (hc : t.core c.core = s.core c.core) (hp : (t.ctx c).posted = (s.ctx c).posted)
    (hr : (t.ctx c).remote = (s.ctx c).remote) (hm : (t.ctx c).commands = (s.ctx c).commands) : t.settled c = s.settled c := by
  simp only [State.settled, hc, hp, hr, hm]

theorem State.settled_synced (c : CtxId) : s.synced.settled c = s.settled c := by
  have h := (s.synced_quiet (fun _ => True)).ctxs c True.intro
  have hp := congrArg Ctx.posted h
  have hr := congrArg Ctx.remote h
  have hm := congrArg Ctx.commands h
  exact State.settled_congr (s.core_synced _) hp hr hm

/-- EXIT with its work done and no error to report ends its context. -/
theorem bodyExit_settled (hr : s.Ready .exit) (hs : s.settled s.cur = true) (he : (s.ctx s.cur).err = none) :
    bodyExit (Claim.env s .exit) (s.taken .exit) = (s.taken .exit).endContext s.cur := by
  have hm : (Claim.env s .exit).s0.members (Claim.env s .exit).me = [s.cur] := State.members_synced hr
  have hd : (Claim.env s .exit).s0.settled s.cur = true := (State.settled_synced _).trans hs
  have ht : (Claim.env s .exit).reportErr (s.taken .exit) = .ok () := Env.reportErr_none he
  simp only [bodyExit, hm, hd, ht, except_ok_bind, List.all_cons, List.all_nil]
  rfl

theorem bodyExit_unsettled (hr : s.Ready .exit) (hs : s.settled s.cur = false) :
    bodyExit (Claim.env s .exit) (s.taken .exit) = .error (.wait .earlier (s.taken .exit)) := by
  have hm : (Claim.env s .exit).s0.members (Claim.env s .exit).me = [s.cur] := State.members_synced hr
  have hd : (Claim.env s .exit).s0.settled s.cur = false := (State.settled_synced _).trans hs
  simp only [bodyExit, hm, hd, List.all_cons, List.all_nil]
  rfl

end

/-- Settles O23: SPAWN by the start of a helper, EXIT by the ways in which a context ends. -/
theorem spawnAndExit : Obligations.SpawnAndExit := by
  unfold Obligations.SpawnAndExit
  refine ⟨fun s t l hr ht hl h0 => ⟨fun hf => ?_, fun h hf hp => ?_, fun h hf hp => ?_⟩, fun s hr => ⟨fun hs => ?_, fun hs he =>
    ⟨fun h0 => ?_, fun h0 hl => ?_, fun h0 hl => ?_⟩⟩⟩
  · exact givesReg_of_body hr rfl (bodySpawn_none hr ht h0 hf)
  · refine stops_of_body hr rfl ((bodySpawn_some hr ht h0 hf).trans (if_pos hp))
  · have hb := (bodySpawn_some hr ht h0 hf).trans (if_neg (by omega))
    refine ⟨_, completes_of_body hr rfl hb, ?_⟩
    obtain ⟨⟨hst, hpc, hsup, hsp, hregs, -, -, hmem, -⟩, hentry⟩ := spawn_started (t := t) (h := h) hl
    have hm := mem_helperCtx (State.freeHelperOf_mem hf)
    generalize s.passing.startHelper ⟨s.cur.core, h⟩ (s.spawnStart t) = u at *
    have hk : (⟨s.cur.core, h⟩ : CtxId).key ≠ s.cur.key := by simp only [CtxId.key]; omega
    have hctx : (u.ws s.cur s.op.d (BitVec.ofNat 64 h)).ctx ⟨s.cur.core, h⟩ = u.ctx ⟨s.cur.core, h⟩ := u.ctx_ws_ne _ _ hk
    have hrs : ∀ r, (u.ws s.cur s.op.d (BitVec.ofNat 64 h)).rs ⟨s.cur.core, h⟩ r = u.rs ⟨s.cur.core, h⟩ r :=
      fun r => u.rs_ws_ctx_ne _ r _ hk
    simp only [hctx, hrs, State.mem_ws]
    refine ⟨hst, hpc, hentry, hsup, hregs 20 (by decide), hregs 27 (by decide), fun r h1 h2 => ?_, hsp, ?_, hmem.trans (s.mem_taken _)⟩
    · rw [hregs r (by omega)]
      simp only [State.spawnStart]
      interval_cases r.toNat <;> rfl
    · split
      · next hd => rw [hd]; rfl
      · next hd => exact u.rs_ws_same _ _ hd
  · exact stops_of_body hr rfl (bodyExit_unsettled hr hs)
  · have hb := (bodyExit_settled hr hs he).trans (if_neg h0)
    refine ⟨_, completes_of_body_ctl hr rfl hb, State.ctx_freeHelper_same _ h0 _, ?_⟩
    rw [State.mem_freeHelper, State.mem_commit, State.mem_covered, s.mem_taken]
  · have hml : (s.taken .exit).mayLeave s.cur.core = true := by
      rw [State.mayLeave_congr (s.core_taken _ _) (s.tile_taken _ _) fun d hd => State.helper_taken _ h0 hd, hl]
    have hb := ((bodyExit_settled hr hs he).trans (if_pos h0)).trans (if_pos hml)
    refine ⟨_, completes_of_body_ctl hr rfl hb, State.launch_leave _ _, ?_⟩
    rw [State.mem_leave, State.mem_covered, s.mem_taken]
  · have hml : ¬ (s.taken .exit).mayLeave s.cur.core = true := by
      rw [State.mayLeave_congr (s.core_taken _ _) (s.tile_taken _ _) fun d hd => State.helper_taken _ h0 hd, hl]; decide
    have hb := ((bodyExit_settled hr hs he).trans (if_pos h0)).trans (if_neg hml)
    exact stops_of_body hr rfl hb

end Sys2Proof.Machine
end

