-- ==== Sys2Proof/Proofs/TrapEntry.lean ====
section
/-! Entry of traps and upcalls, double traps, and the frame of a running upcall (R39, R360–R362). -/

namespace Sys2Proof.Machine

open Sys2Proof

/-! Parts of a stored byte string. -/

theorem memStore_append (m : List Host.Cell) (a : Nat) (l r : List Byte) : memStore m a (l ++ r) = memStore (memStore m a l) (a + l.length) r := by
  induction l generalizing m a with
  | nil => rfl
  | cons b l ih => simp only [List.cons_append, memStore, ih, List.length_cons, Nat.add_assoc, Nat.add_comm 1]

/-- A part of a stored byte string reads back. -/
theorem State.bytes_storeBytes_part (s : State) (a : Nat) (x l y : List Byte) (w : s.memOk) :
    (s.storeBytes a (x ++ l ++ y)).bytes (a + x.length) l.length = l := by
  refine List.ext_getElem (by simp [State.bytes]) fun i _ hi => ?_
  have h := memByte_memStore_same s.mem (x ++ l ++ y) a (x.length + i) (by simp; omega) w
  simp only [State.bytes, State.byte, State.storeBytes, List.getElem_map, List.getElem_range, Nat.add_assoc, h]
  simp [hi]

theorem State.mem_storeBytes (s : State) (a : Nat) (l : List Byte) : (s.storeBytes a l).mem = memStore s.mem a l := rfl

theorem State.load_storeBytes_part (s : State) {a b n v : Nat} {l : List Byte} (x y : List Byte) (hl : l = x ++ natLe n v ++ y)
    (hb : b = a + x.length) (w : s.memOk) : (s.storeBytes a l).load b n = v % 256 ^ n := by
  have h := s.bytes_storeBytes_part a x (natLe n v) y w
  rw [natLe_length] at h
  rw [hl, hb, State.load, h, leNat_natLe]

theorem State.byte_storeBytes_at (s : State) (a : Nat) {l : List Byte} {i : Nat} {z : Byte} (h : l[i]? = some z) (w : s.memOk) :
    (s.storeBytes a l).byte (a + i) = z := by
  obtain ⟨hi, hz⟩ := List.getElem?_eq_some_iff.1 h
  exact (memByte_memStore_same s.mem l a i hi w).trans hz

theorem toNat_mod_word (w : Word) : w.toNat % 256 ^ 8 = w.toNat := by
  have := w.isLt
  omega

/-! The words of a frame (Tables 18, 19). -/

section
variable (t : Tr) (up imp : Bool)

theorem Cause.code_lt (x : Cause) : x.code < 32 := by cases x <;> decide

theorem causeWord_toNat : (causeWord t up imp).toNat =
    t.detail % 256 * 2 ^ 16 + (if up then 2 ^ 9 else 0) + (if imp then 2 ^ 8 else 0) + t.cause.code := by
  have := t.cause.code_lt
  rw [causeWord, BitVec.toNat_ofNat, Nat.mod_eq_of_lt]
  split <;> split <;> omega

theorem causeWord_code : ((causeWord t up imp).extractLsb' 0 8).toNat = t.cause.code := by
  have := t.cause.code_lt
  rw [BitVec.extractLsb'_toNat, causeWord_toNat]
  split <;> split <;> omega

theorem causeWord_detail (h : t.detail < 256) : ((causeWord t up imp).extractLsb' 16 8).toNat = t.detail := by
  have := t.cause.code_lt
  rw [BitVec.extractLsb'_toNat, causeWord_toNat, Nat.shiftRight_eq_div_pow]
  split <;> split <;> omega

theorem causeWord_imprecise : (causeWord t up imp).getLsbD 8 = imp := by
  have := t.cause.code_lt
  rw [BitVec.getLsbD, causeWord_toNat, Nat.testBit_eq_decide_div_mod_eq]
  cases up <;> cases imp <;> simp <;> omega

theorem causeWord_upcall : (causeWord t up imp).getLsbD 9 = up := by
  have := t.cause.code_lt
  rw [BitVec.getLsbD, causeWord_toNat, Nat.testBit_eq_decide_div_mod_eq]
  cases up <;> cases imp <;> simp <;> omega

theorem tagWord_count (tag : Nat) : ((tagWord t tag).extractLsb' 0 32).toNat = tag % 2 ^ 32 := by
  rw [BitVec.extractLsb'_toNat, tagWord, BitVec.toNat_ofNat]
  omega

end

/-! The branches of taking a trap. -/

section
variable {s : State} {c : CtxId} {pc : Word} {t : Tr} {imp : Bool}

/-- The state in which a trap is taken: requests for a full/empty word and lines granted to the context are given up. -/
def State.trapping (s : State) (c : CtxId) : State := ({ s with feq := s.feq.filter (fun r => r.ctx != c) } : State).dropGrants c

theorem State.trapping_eq_dropGrants (s : State) (c : CtxId) :
    ({ s with feq := s.feq.filter (fun r => r.ctx != c) } : State).dropGrants c = s.trapping c := rfl

/-- Taking a trap gives up requests of the context and lines of its die's gateway, and changes nothing else beforehand. -/
theorem State.trapping_eq (s : State) (c : CtxId) : ∃ feq dies, s.trapping c = { s with feq := feq, dies := dies } := by
  simp only [State.trapping, State.dropGrants]
  split
  · exact ⟨_, _, rfl⟩
  · exact ⟨_, s.dies, rfl⟩

theorem State.ctx_trapping (s : State) (c d : CtxId) : (s.trapping c).ctx d = s.ctx d := State.ctx_dropGrants ..
theorem State.mem_trapping (s : State) (c : CtxId) : (s.trapping c).mem = s.mem := State.mem_dropGrants ..
theorem State.cores_trapping (s : State) (c : CtxId) : (s.trapping c).cores = s.cores := by
  obtain ⟨feq, dies, e⟩ := s.trapping_eq c
  rw [e]
theorem State.core_trapping (s : State) (c : CtxId) (d : CoreId) : (s.trapping c).core d = s.core d := by
  simp only [State.core, State.cores_trapping]

theorem State.rs_trapping (s : State) (c d : CtxId) (r : BitVec 5) : (s.trapping c).rs d r = s.rs d r := by
  simp only [State.rs, State.ctx_trapping]

/-- PAGE_ABSENT in user mode, with a vector for it and no upcall running, is an upcall (R362). -/
theorem State.takeTrap_upcall (hp : t.cause = .pageAbsent) (hs : (s.ctx c).sup = false) (hv : (s.core c.core).upcallVec ≠ 0)
    (hup : (s.ctx c).upcallBit = false) : s.takeTrap c pc false t = (s.trapping c).enterUpcall c pc (s.ctx c).count t := by
  have hu : t.cause ≠ .uncorrectable := by rw [hp]; decide
  simp only [State.takeTrap, State.takeTrapTag, if_neg hu, State.trapping_eq_dropGrants, State.ctx_trapping, State.core_trapping]
  rw [if_pos (by simpa [hp, hs, hup] using hv)]

section
variable (hu : t.cause ≠ .uncorrectable)
  (hno : ¬(t.cause = .pageAbsent ∧ imp = false ∧ (s.ctx c).sup = false ∧ (s.core c.core).upcallVec ≠ 0 ∧ (s.ctx c).upcallBit = false))
include hu hno

/-- In supervisor mode with a frame held, a trap is a double trap (R361). -/
theorem State.takeTrap_double (hd : (s.ctx c).sup = true ∧ (s.ctx c).causeCode ≠ 0) :
    s.takeTrap c pc imp t = (s.trapping c).doubleTrap c pc t := by
  simp only [State.takeTrap, State.takeTrapTag, if_neg hu, State.trapping_eq_dropGrants, State.ctx_trapping, State.core_trapping]
  rw [if_neg (by simpa using hno), if_pos hd]

/-- A trap while an upcall runs first stores its frame (R362). -/
theorem State.takeTrap_push {v : State} (hd : ¬((s.ctx c).sup = true ∧ (s.ctx c).causeCode ≠ 0)) (hup : (s.ctx c).upcallBit = true)
    (hv : (s.trapping c).pushFrame c [(0, (s.ctx c).cause), (1, (s.ctx c).trapPc), (2, (s.ctx c).trapVal), (3, (s.ctx c).trapTag)] = some v) :
    s.takeTrap c pc imp t = (v.ws c 2 (setField (s.rs c 2) 0 64 ((s.rs c 2).toNat - 32))).enterTrap c pc imp (s.ctx c).count t := by
  simp only [State.takeTrap, State.takeTrapTag, if_neg hu, State.trapping_eq_dropGrants, State.ctx_trapping, State.core_trapping, State.rs_trapping]
  rw [if_neg (by simpa using hno), if_neg hd, if_pos hup, hv]

/-- Any other trap is entered through TRAPVEC (R360). -/
theorem State.takeTrap_enter (hd : ¬((s.ctx c).sup = true ∧ (s.ctx c).causeCode ≠ 0)) (hup : (s.ctx c).upcallBit = false) :
    s.takeTrap c pc imp t = (s.trapping c).enterTrap c pc imp (s.ctx c).count t := by
  simp only [State.takeTrap, State.takeTrapTag, if_neg hu, State.trapping_eq_dropGrants, State.ctx_trapping, State.core_trapping]
  rw [if_neg (by simpa using hno), if_neg hd, if_neg (by rw [hup]; decide)]

end

/-! What an entry writes. -/

/-- What the entry of a trap writes, and what it leaves (R360). -/
theorem State.enterTrap_enters (s : State) (c : CtxId) (pc : Word) (tag : Nat) (t : Tr) : let u := s.enterTrap c pc false tag t
    (u.ctx c).causeCode = t.cause.code ∧ (u.ctx c).cause.getLsbD 8 = false ∧ (u.ctx c).cause.getLsbD 9 = false ∧
    (u.ctx c).trapPc = pc ∧ (u.ctx c).trapVal = t.val ∧ ((u.ctx c).trapTag.extractLsb' 0 32).toNat = tag % 2 ^ 32 ∧
    (u.ctx c).sup = true ∧ (u.ctx c).pc = (s.core c.core).trapVec ∧ (u.ctx c).entry = .vector ∧ (u.ctx c).st = .ready := by
  intro u
  have hu : u.ctx c = _ := s.ctx_modCtx_same c _
  rw [hu]
  exact ⟨causeWord_code t false false, causeWord_imprecise t false false, causeWord_upcall t false false, rfl, rfl, tagWord_count t tag, rfl, rfl,
    rfl, rfl⟩


/-- What the entry of an upcall writes (R362). -/
theorem State.enterUpcall_enters (s : State) (c : CtxId) (pc : Word) (tag : Nat) (t : Tr) : let u := s.enterUpcall c pc tag t
    (u.ctx c).causeCode = t.cause.code ∧ (u.ctx c).upcallBit = true ∧ (u.ctx c).trapPc = pc ∧ (u.ctx c).trapVal = t.val ∧
    (u.ctx c).sup = (s.ctx c).sup ∧ (u.ctx c).pc = (s.core c.core).upcallVec ∧ (u.ctx c).entry = .vector := by
  intro u
  have hu : u.ctx c = _ := s.ctx_modCtx_same c _
  rw [hu]
  exact ⟨causeWord_code t true false, causeWord_upcall t true false, rfl, rfl, rfl, rfl, rfl⟩

/-- The DETAIL of the frame of a trap and of an upcall. -/
theorem State.enterTrap_detail (s : State) (c : CtxId) (pc : Word) (tag : Nat) (ht : t.detail < 256) :
    (((s.enterTrap c pc imp tag t).ctx c).cause.extractLsb' 16 8).toNat = t.detail := by
  rw [State.enterTrap, State.ctx_modCtx_same]
  exact causeWord_detail t false imp ht

theorem State.enterUpcall_detail (s : State) (c : CtxId) (pc : Word) (tag : Nat) (ht : t.detail < 256) :
    (((s.enterUpcall c pc tag t).ctx c).cause.extractLsb' 16 8).toNat = t.detail := by
  rw [State.enterUpcall, State.ctx_modCtx_same]
  exact causeWord_detail t true false ht

/-- What no entry changes: the registers that a frame does not hold. -/
def Ctx.operands (k : Ctx) : Vector Word 32 × Vector Half 8 × BitVec 5 × BitVec 3 := (k.s, k.p, k.ff, k.mode)

theorem State.enterTrap_keeps (s : State) (c : CtxId) (pc : Word) (tag : Nat) :
    ((s.enterTrap c pc imp tag t).ctx c).operands = (s.ctx c).operands := by
  rw [State.enterTrap, State.ctx_modCtx_same]
  rfl

theorem State.enterUpcall_keeps (s : State) (c : CtxId) (pc : Word) (tag : Nat) :
    ((s.enterUpcall c pc tag t).ctx c).operands = (s.ctx c).operands := by
  rw [State.enterUpcall, State.ctx_modCtx_same]
  rfl

/-- Contexts that agree in these registers read alike. -/
theorem State.regs_of_operands {s u : State} (h : (u.ctx c).operands = (s.ctx c).operands) :
    (∀ r, u.rs c r = s.rs c r) ∧ (∀ r, u.rp c r = s.rp c r) ∧ (u.ctx c).ff = (s.ctx c).ff ∧ (u.ctx c).mode = (s.ctx c).mode := by
  simp only [Ctx.operands, Prod.mk.injEq] at h
  obtain ⟨hs, hp, hf, hm⟩ := h
  exact ⟨fun r => by rw [State.rs, hs, State.rs], fun r => by rw [State.rp, hp, State.rp], hf, hm⟩

/-! A double trap. -/

/-- The lowest free slot depends on memory alone. -/
theorem State.freeSlot_congr {s t : State} (h : t.mem = s.mem) (vd n slot : Nat) : t.freeSlot vd n slot = s.freeSlot vd n slot := by
  have hb : ∀ a, t.byte a = s.byte a := fun a => by rw [State.byte, h, State.byte]
  induction n generalizing slot with
  | zero => rfl
  | succ n ih => rw [State.freeSlot, State.freeSlot, hb, ih]

/-- The cause, the kind and the mark of a used slot in an entry of the fault queue (Table 112). -/
theorem FaultRec.image_bytes (r : FaultRec) (pace : Nat) : (r.image pace)[15]? = some (BitVec.ofNat 8 r.cause) ∧
    (r.image pace)[16]? = some (BitVec.ofNat 8 r.kind) ∧ (r.image pace)[17]? = some 1 := by
  simp [FaultRec.image, natLe, byteOf]

/-- A record that finds a free slot stands there (Table 112). -/
theorem State.record_free {vd slot : Nat} (r : FaultRec) (w : s.memOk) (h : s.freeSlot vd 255 0 = some slot) :
    let u := (s.record vd r).2
    let a := faultSlot vd slot
    u.ctxs = s.ctxs ∧ u.load a 8 = r.addr.toNat ∧ u.byte (a + 15) = BitVec.ofNat 8 r.cause ∧ u.byte (a + 16) = BitVec.ofNat 8 r.kind ∧
      u.byte (a + 17) = 1 := by
  have hu : (s.record vd r).2 = s.storeBytes (faultSlot vd slot) (r.image (s.paceAt (8 * vd))) := by simp only [State.record, h]
  simp only [hu]
  generalize s.paceAt (8 * vd) = pace
  generalize faultSlot vd slot = a
  have hload : (s.storeBytes a (r.image pace)).load a 8 = r.addr.toNat % 256 ^ 8 :=
    s.load_storeBytes_part [] (natLe 4 r.tag ++ natLe 3 r.ident ++ natLe 1 r.cause ++ natLe 1 r.kind ++ natLe 1 1 ++ natLe 2 r.launch ++ natLe 4 0 ++
      natLe 8 pace) (by simp only [FaultRec.image, List.append_assoc, List.nil_append]) (Nat.add_zero _).symm w
  obtain ⟨hcause, hkind, hused⟩ := r.image_bytes pace
  exact ⟨State.storeBytes_ctxs .., hload.trans (toNat_mod_word _), s.byte_storeBytes_at a hcause w, s.byte_storeBytes_at a hkind w,
    s.byte_storeBytes_at a hused w⟩

end

/-! The frame of a running upcall, stored below an s2 that points into the core's own TCM. -/

/-- Nothing stands in the way of the stores of a running upcall's frame below s2, in the core's own TCM (R362). -/
structure FrameRoom (s : State) (c : CtxId) : Prop where
  core : c.core.vt < 512 ∧ c.core.pos < 192
  user : (s.ctx c).sup = false
  idle : ∀ i, (s.ctx ⟨c.core, i⟩).act.task = none
  single : (s.core c.core).tandem = none
  unheld : (s.core c.core).sb = []
  detector : (s.core c.core).detmode.getLsbD 0 = false
  alone : ∀ m ∈ s.net, ∀ x, m.pl = .remote x → x.issuer ≠ c
  s2 : (s.rs c 2).toNat < 2 ^ 17 ∧ 32 ≤ (s.rs c 2).toNat ∧ (s.rs c 2).toNat % 8 = 0
  permitted : ∀ i < 4, s.permitted c.core.vt false 0 ((s.rs c 2).toNat - 32 + 8 * i) 8 .write = true
  canon : s.memOk

/-- The address of doubleword i of the frame. -/
def State.frameAt (s : State) (c : CtxId) (i : Nat) : Nat := flatTcm c.core ((s.rs c 2).toNat - 32 + 8 * i)

/-- The fields of a pointer that is a plain TCM offset. -/
theorem fields_of_lt {p : Word} (h : p.toNat < 2 ^ 17) :
    pSpc p = 0 ∧ pRel p = false ∧ unassigned p = 0 ∧ pOff p = p.toNat ∧ pFmt p = 0 ∧ fmtOk p = true := by
  have hz : ∀ lo w : Nat, 17 ≤ lo → (p.extractLsb' lo w).toNat = 0 := fun lo w hlo => by
    have hd : p.toNat / 2 ^ lo = 0 := Nat.div_eq_of_lt (h.trans_le (Nat.pow_le_pow_right (by decide) hlo))
    rw [BitVec.extractLsb'_toNat, Nat.shiftRight_eq_div_pow, hd, Nat.zero_mod]
  have hspc : pSpc p = 0 := hz 53 3 (by decide)
  have hfmt : pFmt p = 0 := hz 59 5 (by decide)
  have hblk : pBlk p = 0 := hz 56 3 (by decide)
  have hrel : pRel p = false := by
    rw [pRel, BitVec.getLsbD, Nat.testBit_lt_two_pow (h.trans_le (by decide))]
  refine ⟨hspc, hrel, ?_, ?_, hfmt, by simp [fmtOk, hfmt, hblk]⟩
  · simp only [unassigned, hspc]
    omega
  · rw [pOff, hspc]
    exact Nat.mod_eq_of_lt h

/-- A state after stores, with what they leave of poison and of releases. -/
def State.stored (s : State) (rels : List RelRec) (poison : List Nat) (a : Nat) (l : List Byte) : State :=
  { s with rels := rels, poison := poison, mem := memStore s.mem a l }

theorem State.mem_stored (s : State) (rels : List RelRec) (poison : List Nat) (a : Nat) (l : List Byte) :
    (s.stored rels poison a l).mem = memStore s.mem a l := rfl
theorem State.ctxs_stored (s : State) (rels : List RelRec) (poison : List Nat) (a : Nat) (l : List Byte) :
    (s.stored rels poison a l).ctxs = s.ctxs := rfl
theorem State.cores_stored (s : State) (rels : List RelRec) (poison : List Nat) (a : Nat) (l : List Byte) :
    (s.stored rels poison a l).cores = s.cores := rfl

section
variable {s : State} {c : CtxId} {i : Nat}

theorem FrameRoom.coreAddr (h : FrameRoom s c) (hi : i < 4) : s.coreAddr c (s.frameReq c i) = .ok (s.frameAt c i, s) := by
  obtain ⟨hlt, hlo, h8⟩ := h.s2
  obtain ⟨hspc, hrel, hun, hoff, hfmt, hok⟩ := fields_of_lt hlt
  have hnat : ((pOff (s.rs c 2) : Int) + ((i : Int) * 8 - 32)).toNat = (s.rs c 2).toNat - 32 + 8 * i := by omega
  obtain ⟨ea, hea⟩ : ∃ ea, ea = setField (s.rs c 2) 0 17 ((s.rs c 2).toNat - 32 + 8 * i) := ⟨_, rfl⟩
  have hadd : offAdd (s.rs c 2) ((i : Int) * 8 - 32) = some ea := by
    simp only [offAdd, hspc, hnat, hea, show offWidth 0 = 17 from rfl]
    rw [if_neg (by omega)]
  have hval : ea.toNat = (s.rs c 2).toNat - 32 + 8 * i := by
    have hhigh := setField_high (s.rs c 2) 17 ((s.rs c 2).toNat - 32 + 8 * i)
    have hlow := setField_low (s.rs c 2) (w := 17) (x := (s.rs c 2).toNat - 32 + 8 * i) (by decide)
    rw [← hea] at hhigh hlow
    omega
  obtain ⟨espc, erel, eun, eoff, efmt, eok⟩ := fields_of_lt (p := ea) (by omega)
  have hform : s.formEa (s.frameReq c i) = .ok ea := by
    simp only [State.formEa, State.frameReq, hfmt, hok, hspc, hadd, espc, eoff, hval, show offWidth 0 = 17 from rfl]
    rw [if_neg (by omega), if_neg (by decide), if_neg (by decide), if_neg (by omega)]
  have habs : s.absolute c.core spStore ea = .ok ea := by
    simp [State.absolute, resolveRel, erel, State.spaceFault, eun, espc, spStore]
  have hhome : s.home c.core ea = dieOf c.core.vt := by simp [State.home, namedDie, espc]
  have hflat : s.flatOf c.core ea = s.frameAt c i := by simp only [State.flatOf, espc, eoff, hval, State.frameAt]
  have hsb : s.sbAddr c.core ea = s.frameAt c i := by simp [State.sbAddr, espc, hflat]
  have hne : ∀ x : Remote, (∃ m ∈ s.net, m.pl = .remote x) → (x.issuer == c) = false := fun x ⟨m, hm, e⟩ =>
    beq_eq_false_iff_ne.2 (h.alone m hm x e)
  have hbehind : s.behindRemote c ea 8 = false := by
    simp only [State.behindRemote, State.acquiring, State.unperformed, Bool.or_eq_false_iff, List.any_eq_false]
    refine ⟨fun m hm => ?_, fun m hm => ?_⟩
    all_goals
      split
      · next x e => simp [hne x ⟨m, hm, e⟩]
      · simp
  have hperm : s.permitted c.core.vt false 0 (pOff ea) 8 .write = true := by rw [eoff, hval]; exact h.permitted i hi
  have hmis : misaligned ea 8 = false := by
    rw [misaligned, eoff, hval, decide_eq_false (by omega), Bool.and_false]
  have hdet : s.confOn c = false := by rw [State.confOn, h.detector, Bool.false_and]
  have hheld : ∀ lo hi w, s.sbHolds c.core lo hi w = false := fun lo hi w => by simp only [State.sbHolds, h.unheld, List.any_nil]
  have h0 : s.coreAddr0 c (s.frameReq c i) = .ok (s.frameAt c i, s) := by
    simp only [State.coreAddr0, s.lift_ok hform]
    simp only [State.frameReq, s.lift_ok habs, except_ok_bind]
    simp [trapIf, hhome, espc, State.spaceHomeFault, hmis, h.user, hperm, State.confCheck, hdet, hheld, hbehind, hflat, except_ok_bind, except_pure]
  simp only [State.coreAddr, h0, except_ok_bind]
  simp [State.frameReq, AKind.reads, trapIf, except_ok_bind, except_pure]

theorem FrameRoom.not_within (h : FrameRoom s c) (i : Nat) : (s.ctx ⟨c.core, i⟩).isWithin = false := by
  simp [Ctx.isWithin, h.idle i]

/-- A byte of a TCM lies there. -/
theorem flatTcm_parts {k : CoreId} {o : Nat} (hk : k.vt < 512 ∧ k.pos < 192) (ho : o < 2 ^ 17) :
    flatKind (flatTcm k o) = 0 ∧ (⟨flatOwner (flatTcm k o) / 192, flatOwner (flatTcm k o) % 192⟩ : CoreId) = k ∧
      flatTcm k o + 2 ^ 17 ≤ 2 ^ 64 := by
  obtain ⟨hv, hp⟩ := hk
  have hown : flatOwner (flatTcm k o) = k.vt * 192 + k.pos := by
    simp only [flatOwner, flatTcm, flat]
    omega
  refine ⟨?_, ?_, ?_⟩
  · simp only [flatKind, flatTcm, flat]
    omega
  · have hdiv : (k.vt * 192 + k.pos) / 192 = k.vt := by omega
    have hmod : (k.vt * 192 + k.pos) % 192 = k.pos := by omega
    rw [hown, hdiv, hmod]
  · simp only [flatTcm, flat]
    omega

theorem State.commitOthers_idle (s : State) (c : CtxId) (a n : Nat) (l : List Nat)
    (h : ∀ i, (s.ctx ⟨⟨flatOwner a / 192, flatOwner a % 192⟩, i⟩).isWithin = false) : s.commitOthers c a n l = s := by
  induction l with
  | nil => rfl
  | cons i r ih => simp only [State.commitOthers, h i, Bool.false_eq_true, false_and, and_false, if_false, ih]

/-- A store of the frame commits no activation, and marks no line. -/
theorem FrameRoom.writeAt (h : FrameRoom s c) (ea : Word) (hi : i < 4) (w : Word) :
    ∃ rels poison, s.writeAt c ea (s.frameAt c i) (natLe 8 w.toNat) true Ord.plain = s.stored rels poison (s.frameAt c i) (natLe 8 w.toNat) := by
  obtain ⟨hlt, hlo, h8⟩ := h.s2
  have hb := inBlocks_flatTcm (o := (s.rs c 2).toNat - 32 + 8 * i) h.core.1 h.core.2 (by omega) (natLe 8 w.toNat).length
  obtain ⟨hkind, hcore, -⟩ := flatTcm_parts h.core (o := (s.rs c 2).toNat - 32 + 8 * i) (by omega)
  rw [← State.frameAt] at hkind hcore hb
  rw [State.writeAt_outside hb]
  generalize natLe 8 w.toNat = l
  generalize s.frameAt c i = a at *
  have htouch : s.touch c a l.length = s := by
    rw [State.touch, if_pos hkind, State.commitOthers_idle]
    rw [hcore]
    exact h.not_within
  have hself : (s.ctx c).isWithin = false := h.not_within c.ctx
  have hundo : s.undoLog c a l.length true = s := by
    rw [State.undoLog, htouch]
    exact if_pos (by rw [hself, Bool.not_false])
  have haccess : s.access c ea a (a + l.length) .write true Ord.plain = s.trimRels a (a + l.length) := by
    simp only [State.access, State.confOn, h.detector, Bool.false_and, Bool.not_false, if_true]
  have hnote : (s.trimRels a (a + l.length)).noteWrite c ea a l = s.trimRels a (a + l.length) := by
    have hs : ((s.trimRels a (a + l.length)).core c.core).tandem = none := h.single
    simp only [State.noteWrite, hs]
  rw [State.writeBase, hundo, haccess, hnote, State.pokeBase, State.markDirty, if_pos (by omega), State.markLines, if_pos (by omega)]
  exact ⟨_, _, rfl⟩

/-- A descriptor of a region, and so what it grants, is beyond every TCM. -/
theorem State.permitted_congr {s t : State} (h : ∀ b, 2 ^ 65 ≤ b → t.byte b = s.byte b) (vt : Nat) (sup : Bool) (spc off n : Nat) (k : AKind) :
    t.permitted vt sup spc off n k = s.permitted vt sup spc off n k := by
  have hload : ∀ b m, 2 ^ 65 ≤ b → t.load b m = s.load b m := fun b m hb => by
    simp only [State.load, State.bytes]
    congr 1
    exact List.map_congr_left fun i _ => h _ (by omega)
  have hregion : ∀ i, t.region vt i = s.region vt i := fun i => by
    have hat : ∀ o, 2 ^ 65 ≤ flatCommons (dieOf vt) o := fun o => by
      simp only [flatCommons, flat]
      omega
    rw [State.region, hload _ _ (hat _), hload _ _ ((hat _).trans (Nat.le_add_right _ _)), State.region]
  simp only [State.permitted, hregion]

theorem FrameRoom.stored (h : FrameRoom s c) {rels : List RelRec} {poison : List Nat} {a : Nat} {l : List Byte} (ha : a + l.length ≤ 2 ^ 65) :
    FrameRoom (s.stored rels poison a l) c where
  core := h.core
  user := h.user
  idle := h.idle
  single := h.single
  unheld := h.unheld
  detector := h.detector
  alone := h.alone
  s2 := h.s2
  permitted := fun i hi => by
    have hbyte : ∀ b, 2 ^ 65 ≤ b → (s.stored rels poison a l).byte b = s.byte b := fun b hb =>
      memByte_memStore_ne s.mem l a (Or.inr (ha.trans hb)) h.canon
    rw [State.permitted_congr hbyte]
    exact h.permitted i hi
  canon := memStore_wf l a h.canon

/-- The doublewords of a frame from the k-th on are stored in order (R362). -/
theorem FrameRoom.pushFrame (ws : List Word) {k : Nat} (h : FrameRoom s c) (hk : k + ws.length ≤ 4) :
    ∃ rels poison, s.pushFrame c ((List.range' k ws.length).zip ws) =
      some (s.stored rels poison (s.frameAt c k) (ws.flatMap fun w => natLe 8 w.toNat)) := by
  induction ws generalizing s k with
  | nil => exact ⟨s.rels, s.poison, rfl⟩
  | cons w r ih =>
    rw [List.length_cons] at hk
    obtain ⟨rels, poison, hw⟩ := h.writeAt (s.frameReq c k).ea (i := k) (by omega) w
    have hin : s.frameAt c k + (natLe 8 w.toNat).length ≤ 2 ^ 65 := by
      obtain ⟨-, -, hle⟩ := flatTcm_parts h.core (o := (s.rs c 2).toNat - 32 + 8 * k) (by have := h.s2; omega)
      rw [natLe_length, State.frameAt]
      omega
    obtain ⟨rels', poison', hr⟩ := ih (h.stored (rels := rels) (poison := poison) hin) (k := k + 1) (by omega)
    refine ⟨rels', poison', ?_⟩
    have hnext : (s.stored rels poison (s.frameAt c k) (natLe 8 w.toNat)).frameAt c (k + 1) = s.frameAt c k + (natLe 8 w.toNat).length := by
      rw [natLe_length]
      simp only [State.frameAt, State.rs, flatTcm, flat]
      change _ + ((s.rs c 2).toNat - 32 + 8 * (k + 1)) = _ + ((s.rs c 2).toNat - 32 + 8 * k) + 8
      omega
    rw [List.length_cons, List.range'_succ, List.zip_cons_cons, State.pushFrame]
    simp only [h.coreAddr (i := k) (by omega), hw, hr, hnext, Option.some.injEq]
    simp only [State.stored, List.flatMap_cons, memStore_append]

/-- A trap begins where the frame's stores find room. -/
theorem FrameRoom.trapping (h : FrameRoom s c) : FrameRoom (s.trapping c) c := by
  obtain ⟨feq, dies, e⟩ := s.trapping_eq c
  rw [e]
  exact ⟨h.core, h.user, h.idle, h.single, h.unheld, h.detector, h.alone, h.s2,
    fun i hi => (State.permitted_congr (s := s) (fun _ _ => rfl) ..).trans (h.permitted i hi), h.canon⟩

/-- The stack pointer moved below a frame. -/
theorem setField_word (p : Word) {x : Nat} (hx : x < 2 ^ 64) : (setField p 0 64 x).toNat = x := by
  have hlow := setField_low p (w := 64) (x := x) (by decide)
  have := (setField p 0 64 x).isLt
  omega

end

/-- A load depends on memory alone. -/
theorem State.load_of_mem {s t : State} (h : t.mem = s.mem) (a n : Nat) : t.load a n = s.load a n := by
  simp only [State.load, State.bytes, State.byte, h]

/-- The bytes of the frame that a context holds, as they are stored below s2 (R362). -/
def Ctx.frameBytes (k : Ctx) : List Byte := [k.cause, k.trapPc, k.trapVal, k.trapTag].flatMap fun w => natLe 8 w.toNat

/-- A trap while an upcall runs, whose frame finds room below s2: the frame stands there, s2 is moved, and the trap is entered (R362). -/
theorem FrameRoom.takeTrap {s : State} {c : CtxId} {pc : Word} {t : Tr} (h : FrameRoom s c) (hu : t.cause ≠ .uncorrectable)
    (hp : t.cause ≠ .pageAbsent) (hup : (s.ctx c).upcallBit = true) :
    ∃ v : State, v.mem = memStore s.mem (flatTcm c.core ((s.rs c 2).toNat - 32)) (s.ctx c).frameBytes ∧ v.ctxs = s.ctxs ∧ v.cores = s.cores ∧
      s.takeTrap c pc false t = (v.ws c 2 (setField (s.rs c 2) 0 64 ((s.rs c 2).toNat - 32))).enterTrap c pc false (s.ctx c).count t := by
  obtain ⟨rels, poison, hpush⟩ :=
    h.trapping.pushFrame [(s.ctx c).cause, (s.ctx c).trapPc, (s.ctx c).trapVal, (s.ctx c).trapTag] (k := 0) (by simp)
  have hat : (s.trapping c).frameAt c 0 = flatTcm c.core ((s.rs c 2).toNat - 32) := by
    simp only [State.frameAt, State.rs, s.ctx_trapping, Nat.mul_zero, Nat.add_zero]
  have hctxs : (s.trapping c).ctxs = s.ctxs := by
    obtain ⟨feq, dies, e⟩ := s.trapping_eq c
    rw [e]
  rw [← Ctx.frameBytes, hat] at hpush
  refine ⟨(s.trapping c).stored rels poison (flatTcm c.core ((s.rs c 2).toNat - 32)) (s.ctx c).frameBytes, ?_,
    (State.ctxs_stored ..).trans hctxs, (State.cores_stored ..).trans (s.cores_trapping c), ?_⟩
  · rw [State.mem_stored, s.mem_trapping]
  · have hpush' : (s.trapping c).pushFrame c [(0, (s.ctx c).cause), (1, (s.ctx c).trapPc), (2, (s.ctx c).trapVal), (3, (s.ctx c).trapTag)] =
      some ((s.trapping c).stored rels poison (flatTcm c.core ((s.rs c 2).toNat - 32)) (s.ctx c).frameBytes) := hpush
    exact State.takeTrap_push hu (fun hc => hp hc.1) (by simp [h.user]) hup hpush'

/-- The doublewords of a stored frame read back. -/
theorem Ctx.frameBytes_load {s u : State} {a : Nat} (k : Ctx) (hm : u.mem = memStore s.mem a k.frameBytes) (w : s.memOk) :
    u.load a 8 = k.cause.toNat ∧ u.load (a + 8) 8 = k.trapPc.toNat ∧ u.load (a + 16) 8 = k.trapVal.toNat ∧
      u.load (a + 24) 8 = k.trapTag.toNat := by
  have hb : k.frameBytes = natLe 8 k.cause.toNat ++ (natLe 8 k.trapPc.toNat ++ (natLe 8 k.trapVal.toNat ++ natLe 8 k.trapTag.toNat)) := by
    simp only [Ctx.frameBytes, List.flatMap_cons, List.flatMap_nil, List.append_nil]
  have hpart : ∀ (x y : List Byte) (v : Word) (i : Nat), k.frameBytes = x ++ natLe 8 v.toNat ++ y → x.length = i → u.load (a + i) 8 = v.toNat :=
    fun x y v i hl hi => by
      rw [State.load_of_mem (s := s.storeBytes a k.frameBytes) (hm.trans (s.mem_storeBytes a k.frameBytes).symm),
        s.load_storeBytes_part (a := a) (b := a + i) x y hl (by rw [hi]) w, toNat_mod_word]
  have hfirst := hpart [] (natLe 8 k.trapPc.toNat ++ (natLe 8 k.trapVal.toNat ++ natLe 8 k.trapTag.toNat)) k.cause 0
    (by rw [hb, List.nil_append]) List.length_nil
  rw [Nat.add_zero] at hfirst
  refine ⟨hfirst, hpart (natLe 8 k.cause.toNat) (natLe 8 k.trapVal.toNat ++ natLe 8 k.trapTag.toNat) _ 8 ?_ ?_,
    hpart (natLe 8 k.cause.toNat ++ natLe 8 k.trapPc.toNat) (natLe 8 k.trapTag.toNat) _ 16 ?_ ?_,
    hpart (natLe 8 k.cause.toNat ++ natLe 8 k.trapPc.toNat ++ natLe 8 k.trapVal.toNat) [] _ 24 ?_ ?_⟩
  all_goals simp only [hb, List.append_assoc, List.append_nil, List.length_append, natLe_length]

theorem Ctx.frameBytes_length (k : Ctx) : k.frameBytes.length = 32 := by
  simp only [Ctx.frameBytes, List.flatMap_cons, List.flatMap_nil, List.length_append, natLe_length, List.length_nil]

/-- Settles O14, from the branches of taking a trap. -/
theorem trapsAndUpcallsEnter : Obligations.TrapsAndUpcallsEnter := by
  unfold Obligations.TrapsAndUpcallsEnter
  refine ⟨?trap, ?upcall, ?double, fun s c pc t h => by rw [State.fetchTrap, if_pos h], ?nested⟩
  case trap =>
    intro s c pc t hu hd k hsup hup hno u
    have he : u = (s.trapping c).enterTrap c pc false (s.ctx c).count t :=
      State.takeTrap_enter hu (fun ⟨hp, _, hs, hv, _⟩ => hno ⟨hp, hs, hv⟩) hsup hup
    obtain ⟨hcode, himp, hupc, hpc, hval, htag, hs, hvec, hent, hst⟩ := (s.trapping c).enterTrap_enters c pc (s.ctx c).count t
    obtain ⟨hrs, hrp, hff, hmode⟩ := State.regs_of_operands (s := s)
      (((s.trapping c).enterTrap_keeps (imp := false) (t := t) c pc (s.ctx c).count).trans (congrArg Ctx.operands (s.ctx_trapping c c)))
    rw [he]
    refine ⟨hcode, himp, hupc, State.enterTrap_detail _ _ _ _ hd, hpc, hval, htag, hs, ?_, hent, hst, hrs, hrp, hff, hmode, s.mem_trapping c,
      s.cores_trapping c, fun d hne => ?_⟩
    · rw [hvec, s.core_trapping]
    · rw [State.enterTrap, State.ctx_modCtx_ne _ _ hne, s.ctx_trapping]
  case upcall =>
    intro s c pc t hp hd k hsup hvec0 hup u
    have he : u = (s.trapping c).enterUpcall c pc (s.ctx c).count t := State.takeTrap_upcall hp hsup hvec0 hup
    obtain ⟨hcode, hupc, hpc, hval, hs, hvec, hent⟩ := (s.trapping c).enterUpcall_enters c pc (s.ctx c).count t
    obtain ⟨hrs, hrp, -, -⟩ := State.regs_of_operands (s := s)
      (((s.trapping c).enterUpcall_keeps (t := t) c pc (s.ctx c).count).trans (congrArg Ctx.operands (s.ctx_trapping c c)))
    rw [he]
    refine ⟨by rw [hcode, hp]; rfl, hupc, State.enterUpcall_detail _ _ _ _ hd, hpc, hval, ?_, ?_, hent, hrs, hrp, s.mem_trapping c⟩
    · rw [hs, s.ctx_trapping]; exact hsup
    · rw [hvec, s.core_trapping]
  case double =>
    intro s c pc imp t slot w hu k hsup hcode hslot u a
    have he : u = (s.trapping c).doubleTrap c pc t :=
      State.takeTrap_double hu (fun ⟨_, _, hs, _⟩ => by rw [hsup] at hs; exact absurd hs (by decide)) ⟨hsup, hcode⟩
    have hmem : ((s.trapping c).setCtx c { (s.trapping c).ctx c with st := .halted t.cause.code }).mem = s.mem := s.mem_trapping c
    obtain ⟨hctxs, hload, hcause, hkind, hused⟩ := State.record_free
      { addr := pc, tag := ((s.trapping c).ctx c).count % 2 ^ 32, ident := identC c, cause := t.cause.code, kind := 4,
        launch := (((s.trapping c).setCtx c { (s.trapping c).ctx c with st := .halted t.cause.code }).core c.core).launchId }
      (by rw [State.memOk, hmem]; exact w) ((State.freeSlot_congr hmem _ _ _).trans hslot)
    have hk : u.ctx c = { s.ctx c with st := .halted t.cause.code } := by
      rw [he, State.doubleTrap, State.ctx, hctxs]
      exact ((s.trapping c).ctx_setCtx_same c _).trans (by rw [s.ctx_trapping])
    rw [hk, he]
    exact ⟨rfl, rfl, rfl, rfl, rfl, hload, hcause, hkind, hused⟩
  case nested =>
    intro s c pc t w hu hp k p hsup hup hact htan hsb hidle hvt hpos hdet hnet hlt hlo h8 hperm u a
    have hroom : FrameRoom s c := ⟨⟨hvt, hpos⟩, hsup, hidle, htan, hsb, hdet, hnet, ⟨hlt, hlo, h8⟩, hperm, w⟩
    obtain ⟨v, hmem, hctxs, hcores, he⟩ := hroom.takeTrap (pc := pc) hu hp hup
    obtain ⟨hcode, -, hupc, hpc, -, -, hs, hvec, -, -⟩ :=
      (v.ws c 2 (setField (s.rs c 2) 0 64 ((s.rs c 2).toNat - 32))).enterTrap_enters c pc (s.ctx c).count t
    obtain ⟨hrs, -, -, -⟩ := State.regs_of_operands
      ((v.ws c 2 (setField (s.rs c 2) 0 64 ((s.rs c 2).toNat - 32))).enterTrap_keeps (imp := false) (t := t) c pc (s.ctx c).count)
    have hum : u.mem = memStore s.mem a (s.ctx c).frameBytes := by
      simp only [u]
      rw [he, ← hmem]
      exact State.mem_ws ..
    obtain ⟨h0, h1, h2, h3⟩ := Ctx.frameBytes_load (s.ctx c) hum w
    rw [← he] at hcode hupc hpc hs hvec hrs
    refine ⟨h0, h1, h2, h3, ?_, hcode, hupc, hpc, hs, ?_, fun b hb => ?_⟩
    · rw [hrs, State.rs_ws_same _ _ _ (by decide), setField_word _ (by omega)]
    · rw [hvec, State.core, State.cores_ws, hcores, ← State.core]
    · rw [State.byte, hum]
      exact memByte_memStore_ne s.mem _ a (by rw [Ctx.frameBytes_length]; omega) w

end Sys2Proof.Machine
end

