-- ==== Sys2Proof/Proofs/CountersBarriers.lean ====
section
/-! Rein counters and core barriers (R27, R195–R198). -/

namespace Sys2Proof.Machine

open Sys2Proof

section
variable {s s' : State} {row : Instr} {body : Body} {w : Touch}

/-- An instruction whose body keeps to what `w` names gives its result. -/
theorem gives_of_body (h : s.Ready row) (hx : exec row s = .next (issue row body s))
    (hb : body (Claim.env s row) (s.taken row) = .ok (.next, s')) (hf : Frame (s.taken row) s' s.cur w) : Gives row s s' w :=
  ⟨completes_of_body h hx hb, ((taken_frame s row s.cur w).trans hf).trans (after_frame s row .next s.cur w)⟩

end

/-! Counters. -/

section
variable {s t : State} {e : CtxId} {d : Touch}

theorem Frame.clearE (h : Frame s t e d) (c : CtxId) (n : Nat) : Frame s (t.clearE c n) e d := h.ite (h.modCore _ _)

theorem Frame.reinWait (h : Frame s t e d) (c : CtxId) (n : Nat) : Frame s (t.reinWait c n) e d := h.ite ((h.acquireInfo _ _).reinTaken _ _)

theorem Frame.arrive (h : Frame s t e d) (c : CtxId) : Frame s (t.arrive c) e d := by
  unfold State.arrive
  exact h.modCore _ _

/-- Releasing messages leaves the counters. -/
theorem State.rein_sendAll (l : List (Msg × BitVec 32)) (s : State) (c : CtxId) (k : CoreId) : ((s.sendAll c l).core k).rein = (s.core k).rein := by
  induction l generalizing s with
  | nil => rfl
  | cons p r ih =>
    obtain ⟨m, tag⟩ := p
    simp only [State.sendAll]
    rw [ih]
    have hpost : ∀ (u : State) b, ((u.post c b tag m).core k).rein = (u.core k).rein := fun u b => by
      unfold State.post
      split <;> rfl
    rw [hpost]
    split
    · rfl
    · refine s.core_modCore_proj _ _ Core.rein ?_ k
      exact fun _ => rfl

theorem State.rein_commit (s : State) (c : CtxId) (k : CoreId) : ((s.commit c).core k).rein = (s.core k).rein := by
  simp only [State.commit]
  split
  · rfl
  · exact State.rein_sendAll ..

theorem State.cores_wakeFrom (l : List Nat) (s : State) (c : CoreId) : (s.wakeFrom c l).cores = s.cores := by
  induction l generalizing s with
  | nil => rfl
  | cons i r ih =>
    simp only [State.wakeFrom]
    rw [ih]
    split <;> rfl

/-- What a signal makes of the counters of its core (R27). -/
theorem State.rein_signal (s : State) (c : CoreId) (n i : Nat) (b : Bool) :
    ((s.signal c n i b).core c).rein = (s.core c).rein.set n (((s.core c).reinAt n).add i b) := by
  have hset : ((s.modCore c (fun k => { k with rein := k.rein.set n ((k.reinAt n).add i b) })).core c).rein =
      (s.core c).rein.set n (((s.core c).reinAt n).add i b) := by rw [State.core_modCore_same]
  simp only [State.signal]
  split
  · exact hset
  · rw [State.wakeCore, State.core, State.cores_wakeFrom]
    exact hset

theorem Core.reinAt_of_rein {k q : Core} (h : k.rein = q.rein) (n : Nat) : k.reinAt n = q.reinAt n := by simp only [Core.reinAt, h]

theorem Core.reinAt_set {k q : Core} {n : Nat} {r : Rein} (h : k.rein = q.rein.set n r) :
    k.reinAt n = r ∧ ∀ m, m ≠ n → k.reinAt m = q.reinAt m := by
  refine ⟨by rw [Core.reinAt, h, Tab.get_set_same], fun m hm => ?_⟩
  rw [Core.reinAt, h, Tab.get_set_ne _ _ _ hm, Core.reinAt]

/-- Clearing E keeps the count. -/
theorem State.count_clearE (s : State) (c : CtxId) (n : Nat) : (((s.clearE c n).core c.core).reinAt n).v = ((s.core c.core).reinAt n).v := by
  simp only [State.clearE]
  split
  · rfl
  · rw [State.core_modCore_same, Core.reinAt, Tab.get_set_same]

theorem State.cores_acquireInfo (s : State) (c : CtxId) (i : HbInfo) : (s.acquireInfo c i).cores = s.cores := rfl

theorem State.cores_reinTaken (s : State) (c : CtxId) (n : Nat) : (s.reinTaken c n).cores = s.cores := by
  simp only [State.reinTaken]
  split
  · rfl
  · split <;> rfl

theorem State.cores_reinWait (s : State) (c : CtxId) (n : Nat) : (s.reinWait c n).cores = s.cores := by
  rw [State.reinWait]
  split
  · rfl
  · rw [State.cores_reinTaken]
    rfl

end

section
variable {s : State} {row : Instr}

/-- The threshold and the increment of a rein instruction. -/
theorem Env.a16_taken : (Claim.env s row).a16 (s.taken row) = s.opA.toNat % 65536 :=
  congrArg (fun w : Word => w.toNat % 65536) (s.rs_taken row s.op.s1)

theorem err_taken : ((Claim.env s row).k (s.taken row)).err = (s.ctx s.cur).err := s.ctx_taken_proj row Ctx.err (fun _ => rfl) s.cur

/-- A CWAIT whose context holds no record of its counter. -/
theorem bodyCwait_unreported (he : ∀ r, (s.ctx s.cur).err = some r → r.ctr ≠ some (s.op.imm.toNat % 256)) :
    bodyCwait (Claim.env s .cwait) (s.taken .cwait) =
      if ((s.core s.cur.core).reinAt (s.op.imm.toNat % 256)).v.toNat < s.opA.toNat % 65536 then
        .error (.wait (.counter (s.op.imm.toNat % 256) (s.opA.toNat % 65536)) (s.taken .cwait))
      else .ok (.next, ((s.taken .cwait).clearE s.cur (s.op.imm.toNat % 256)).reinWait s.cur (s.op.imm.toNat % 256)) := by
  simp only [bodyCwait, err_taken, Env.a16_taken, State.core_taken]
  cases hr : (s.ctx s.cur).err with
  | none => rfl
  | some r =>
    have hc : (r.ctr == some (Claim.env s .cwait).cn) = false := beq_eq_false_iff_ne.2 (he r hr)
    simp only [hc, trapIf]
    rfl

theorem bodyCwait_reported {r : RemErr} (he : (s.ctx s.cur).err = some r) (hc : r.ctr = some (s.op.imm.toNat % 256)) :
    bodyCwait (Claim.env s .cwait) (s.taken .cwait) = .error (.trap r.trap (s.taken .cwait)) := by
  have hb : (r.ctr == some (Claim.env s .cwait).cn) = true := beq_iff_eq.2 hc
  simp only [bodyCwait, err_taken, he, hb, trapIf]
  rfl

end

/-! Arrivals. -/

section
variable {s : State} {row : Instr}

theorem posted_taken : ((Claim.env s row).k (s.taken row)).posted = (s.ctx s.cur).posted := s.ctx_taken_proj row Ctx.posted (fun _ => rfl) s.cur

/-- After a commit, an arrival is recorded. -/
theorem State.arrive_arrived (s : State) (c : CtxId) : ((s.arrive c).core c.core).bar.arrived = true := by
  rw [State.arrive, State.core_modCore_same]

theorem Frame.commit_arrive (s : State) (c e : CtxId) (d : Touch) : Frame s ((s.commit c).arrive c) e d := ((Frame.refl s e d).commit c).arrive c

/-- A barrier form that finds no arrival recorded reports an error record first, then waits for posted accesses (R190, R196). -/
theorem bodyBar_first (h : (s.core s.cur.core).bar.arrived = false) : bodyBar (Claim.env s row) (s.taken row) =
    ((Claim.env s row).reportErr (s.taken row) >>= fun _ => if 0 < (s.ctx s.cur).posted then .error (.wait .earlier (s.taken row))
      else .error (.wait .bar (((s.taken row).commit s.cur).arrive s.cur))) := by
  simp only [bodyBar, State.core_taken, show (Claim.env s row).me = s.cur from rfl, h, Env.relWait_taken (show 1 ≤ 2 by decide),
    Bool.false_eq_true, if_false]
  cases (Claim.env s row).reportErr (s.taken row) with
  | error x => rfl
  | ok u =>
    by_cases hp : 0 < (s.ctx s.cur).posted
    · simp only [hp, if_true, except_ok_bind]
      rfl
    · simp only [hp, if_false, except_ok_bind]

theorem bodyBar_again (h : (s.core s.cur.core).bar.arrived = true) : bodyBar (Claim.env s row) (s.taken row) =
    .error (.wait .bar (if row = .bar then (s.taken row).commit s.cur else s.taken row)) := by
  simp only [bodyBar, State.core_taken, show (Claim.env s row).me = s.cur from rfl, h, if_true]
  rfl

theorem bodyBarArrive_first (h : (s.core s.cur.core).bar.arrived = false) : bodyBarArrive (Claim.env s row) (s.taken row) =
    ((Claim.env s row).reportErr (s.taken row) >>= fun _ => if 0 < (s.ctx s.cur).posted then .error (.wait .earlier (s.taken row))
      else .ok (.next, ((s.taken row).commit s.cur).arrive s.cur)) := by
  simp only [bodyBarArrive, State.core_taken, show (Claim.env s row).me = s.cur from rfl, h, Env.relWait_taken (show 1 ≤ 2 by decide),
    Bool.false_eq_true, if_false]
  cases (Claim.env s row).reportErr (s.taken row) with
  | error x => rfl
  | ok u =>
    by_cases hp : 0 < (s.ctx s.cur).posted
    · simp only [hp, if_true, except_ok_bind]
      rfl
    · simp only [hp, if_false, except_ok_bind]

theorem bodyBarArrive_again (h : (s.core s.cur.core).bar.arrived = true) : bodyBarArrive (Claim.env s row) (s.taken row) =
    if 0 < (s.ctx s.cur).posted then .error (.wait .earlier (s.taken row)) else .error (.wait .bar (s.taken row)) := by
  simp only [bodyBarArrive, State.core_taken, show (Claim.env s row).me = s.cur from rfl, h, Env.relWait_taken (show 1 ≤ 2 by decide), if_true]
  split <;> rfl

/-- The barrier forms (R190, R196, R198): BAR and BAR.wait act alike. -/
theorem bar_arrivals (hr : s.Ready row) {body : Body} (hx : exec row s = .next (issue row body s))
    (hb : row = .barArrive ∧ body = bodyBarArrive ∨ row ≠ .barArrive ∧ body = bodyBar) :
    (∀ r, (s.core s.cur.core).bar.arrived = false → (s.ctx s.cur).err = some r → Traps row s r.trap (s.taken row)) ∧
    ((s.core s.cur.core).bar.arrived = true → row ≠ .barArrive ∨ (s.ctx s.cur).posted = 0 →
      ∃ s', Waits row s .bar s' ∧ s'.mem = s.mem) ∧
    ((s.core s.cur.core).bar.arrived = true → row = .barArrive → 0 < (s.ctx s.cur).posted → Waits row s .earlier (s.taken row)) ∧
    ((s.ctx s.cur).err = none → (s.core s.cur.core).bar.arrived = false → 0 < (s.ctx s.cur).posted → Waits row s .earlier (s.taken row)) ∧
    ((s.ctx s.cur).err = none → (s.core s.cur.core).bar.arrived = false → (s.ctx s.cur).posted = 0 →
      ∃ s', (s'.core s.cur.core).bar.arrived = true ∧
      (if row = .barArrive then Gives row s s' Touch.none else Waits row s .bar s')) := by
  have herr : ∀ r, (s.core s.cur.core).bar.arrived = false → (s.ctx s.cur).err = some r →
      body (Claim.env s row) (s.taken row) = .error (.trap r.trap (s.taken row)) := fun r ha he => by
    obtain ⟨-, rfl⟩ | ⟨-, rfl⟩ := hb
    · rw [bodyBarArrive_first ha, Env.reportErr_some he]; rfl
    · rw [bodyBar_first ha, Env.reportErr_some he]; rfl
  have hposted : (s.ctx s.cur).err = none → (s.core s.cur.core).bar.arrived = false → 0 < (s.ctx s.cur).posted →
      body (Claim.env s row) (s.taken row) = .error (.wait .earlier (s.taken row)) := fun he ha hp => by
    obtain ⟨-, rfl⟩ | ⟨-, rfl⟩ := hb
    · rw [bodyBarArrive_first ha, Env.reportErr_none he, except_ok_bind, if_pos hp]
    · rw [bodyBar_first ha, Env.reportErr_none he, except_ok_bind, if_pos hp]
  refine ⟨fun r ha he => stops_of_body hr hx (herr r ha he), fun ha hn => ?_, fun ha hrow hp => ?_,
    fun he ha hp => stops_of_body hr hx (hposted he ha hp), fun he ha hp =>
      ⟨((s.taken row).commit s.cur).arrive s.cur, State.arrive_arrived .., ?_⟩⟩
  · obtain ⟨hrow, rfl⟩ | ⟨hrow, rfl⟩ := hb
    · have hz : ¬0 < (s.ctx s.cur).posted := by
        have := hn.resolve_left fun h => h hrow
        omega
      exact ⟨_, stops_of_body hr hx ((bodyBarArrive_again ha).trans (if_neg hz)), s.mem_taken row⟩
    · refine ⟨_, stops_of_body hr hx (bodyBar_again ha), ?_⟩
      split
      · rw [State.mem_commit, s.mem_taken]
      · rw [s.mem_taken]
  · obtain ⟨-, rfl⟩ | ⟨hne, -⟩ := hb
    · exact stops_of_body hr hx ((bodyBarArrive_again ha).trans (if_pos hp))
    · exact absurd hrow hne
  · have hz : ¬0 < (s.ctx s.cur).posted := by omega
    obtain ⟨hrow, rfl⟩ | ⟨hrow, rfl⟩ := hb
    · rw [if_pos hrow]
      exact gives_of_body hr hx (by rw [bodyBarArrive_first ha, Env.reportErr_none he, except_ok_bind, if_neg hz]) (Frame.commit_arrive ..)
    · rw [if_neg hrow]
      exact stops_of_body hr hx (by rw [bodyBar_first ha, Env.reportErr_none he, except_ok_bind, if_neg hz])

end

/-! Tokens. -/

theorem Tab.get_erase_same {α : Type} (t : Tab α) (k : Nat) (d : α) : Tab.get (Tab.erase t k) k d = d := by
  have h : Tab.find (Tab.erase t k) k = none := by
    induction t with
    | nil => rfl
    | cons p r ih =>
      simp only [Tab.erase, List.filter_cons] at ih ⊢
      split
      · next hp => simpa [Tab.find, bne_iff_ne.1 hp] using ih
      · exact ih
  rw [Tab.get, h]
  rfl

section
variable {s : State} {id : Nat} {c d : CoreId}

/-- A core's part in a sweep reads back. -/
theorem Core.barOf_setBar (k : Core) (id : Nat) (b : BarState) : (k.setBar id b).barOf id = b := by
  have hthru : Tab.get (if b = Core.reset.bar then k.thru.erase id else k.thru.set id b) id Core.reset.bar = b := by
    split
    · next h => rw [Tab.get_erase_same, h]
    · exact Tab.get_set_same ..
  cases hl : k.launch with
  | none => simp only [Core.setBar, Core.barOf, hl, hthru]
  | some l =>
    by_cases hid : l.id = id
    · simp only [Core.setBar, Core.barOf, hl, hid, if_true]
    · simp only [Core.setBar, Core.barOf, hl, hid, if_false, hthru]

theorem Core.launch_setBar (k : Core) (id : Nat) (b : BarState) : (k.setBar id b).launch = k.launch := by
  cases hl : k.launch with
  | none => simp only [Core.setBar, hl]
  | some l => simp only [Core.setBar, hl]; split <;> rfl

theorem Core.barOf_own {k : Core} {l : CoreLaunch} (h : k.launch = some l) : k.barOf l.id = k.bar := by simp only [Core.barOf, h, if_true]

theorem State.barOf_modBar_same (s : State) (id : Nat) (c : CoreId) (f : BarState → BarState) :
    ((s.modBar id c f).core c).barOf id = f ((s.core c).barOf id) := by
  rw [State.modBar, State.core_modCore_same, Core.barOf_setBar]

theorem State.core_modBar_ne (s : State) (id : Nat) (f : BarState → BarState) (h : d.key ≠ c.key) : (s.modBar id c f).core d = s.core d :=
  s.core_modCore_ne _ h

theorem State.launch_modBar (s : State) (id : Nat) (c d : CoreId) (f : BarState → BarState) :
    ((s.modBar id c f).core d).launch = (s.core d).launch :=
  s.core_modCore_proj _ _ Core.launch (fun _ => Core.launch_setBar ..) d

end

/-- A core's own sweep is the first that meets it. -/
theorem State.sweep_own {s : State} {c : CoreId} {l : CoreLaunch} (f : State → Nat → CoreId → Half → State) (h : (s.core c).launch = some l) :
    s.sweep f c 0 = f s l.id c (s.nearRect l.id c) := by
  have hs : (s.sweepsAt c)[0]? = some l.id := by simp only [State.sweepsAt, h, List.singleton_append, List.getElem?_cons_zero]
  simp only [State.sweep, hs]

/-- A position of a tile has its own key, and so its neighbours in the tile. -/
theorem CoreId.key_ne_of_pos_ne {c d : CoreId} (hv : c.vt = d.vt) (h : c.pos ≠ d.pos) : c.key ≠ d.key := by
  simp only [CoreId.key, hv]
  omega

section
variable {s : State} {c : CoreId} {l : CoreLaunch}

/-- A core with its row's token forwards it: east within the row, north from the last column, and at the last corner it starts the release (R197). -/
theorem State.forwardToken_forwards (near : Half) (hl : (s.core c).launch = some l) (hp : s.passes l.id c = false)
    (ha : (s.core c).bar.arrived = true) (hw : posX c.pos = rectX0 (s.core c).barRect ∨ (s.core c).bar.west = true) :
    let r := (s.core c).barRect
    let b := (s.core c).bar
    let t := s.forwardToken l.id c near
    t.ctxs = s.ctxs ∧ t.mem = s.mem ∧
      (posX c.pos < rectX1 r → b.sentEast = false → (t.core c).bar.sentEast = true ∧
        ((t.core ⟨c.vt, c.pos + 1⟩).barOf l.id).west = true) ∧
      (rectX1 r ≤ posX c.pos → (posY c.pos ≤ rectY0 r ∨ b.south = true) →
        (posY c.pos < rectY1 r → b.sentNorth = false → (t.core c).bar.sentNorth = true ∧
          ((t.core ⟨c.vt, c.pos + 12⟩).barOf l.id).south = true) ∧
        (rectY1 r ≤ posY c.pos → (t.core c).bar.release = true)) := by
  have hr : s.rectOf l.id c near = (s.core c).barRect := by rw [State.rectOf, hp]; rfl
  have hb : (s.core c).barOf l.id = (s.core c).bar := Core.barOf_own hl
  have hd : s.rowDone l.id c (s.core c).barRect = true := by simpa [State.rowDone, hb, ha] using hw
  have hbar : ∀ (u : State) f, ((u.modBar l.id c f).core c).launch = some l → ((u.modBar l.id c f).core c).bar = f ((u.core c).barOf l.id) :=
    fun u f h => (Core.barOf_own h).symm.trans (u.barOf_modBar_same ..)
  have hlm : ∀ f, ((s.modBar l.id c f).core c).launch = some l := fun f => (s.launch_modBar ..).trans hl
  have heast : c.key ≠ (east c).key := CoreId.key_ne_of_pos_ne rfl (by simp [east])
  have hnorth : c.key ≠ (north c).key := CoreId.key_ne_of_pos_ne rfl (by simp [north])
  simp only [State.forwardToken, hr, hb, hd, Bool.not_true, Bool.false_eq_true, if_false]
  by_cases hx : posX c.pos < rectX1 (s.core c).barRect
  · simp only [hx, if_true]
    refine ⟨?_, ?_, fun _ hse => ?_, fun hx' => absurd hx (by omega)⟩
    · split <;> rfl
    · split <;> rfl
    · simp only [hse, Bool.false_eq_true, if_false]
      refine ⟨?_, ?_⟩
      · rw [State.core_modBar_ne _ _ _ heast, hbar _ _ (hlm _)]
      · exact congrArg BarState.west (State.barOf_modBar_same ..)
  · simp only [hx, if_false, false_implies, true_and]
    by_cases hs : rectY0 (s.core c).barRect < posY c.pos ∧ (s.core c).bar.south = false
    · obtain ⟨hy0, hs0⟩ := hs
      simp only [hy0, hs0, and_self, if_true]
      refine ⟨trivial, trivial, fun _ h => ?_⟩
      simp [Nat.not_le.2 hy0] at h
    · simp only [if_neg hs]
      by_cases hy : posY c.pos < rectY1 (s.core c).barRect
      · simp only [hy, if_true]
        refine ⟨?_, ?_, fun _ _ => ⟨fun _ hsn => ?_, fun hy' => absurd hy (by omega)⟩⟩
        · split <;> rfl
        · split <;> rfl
        · simp only [hsn, Bool.false_eq_true, if_false]
          refine ⟨?_, ?_⟩
          · rw [State.core_modBar_ne _ _ _ hnorth, hbar _ _ (hlm _)]
          · exact congrArg BarState.south (State.barOf_modBar_same ..)
      · simp only [hy, if_false, false_implies, true_and]
        refine ⟨?_, ?_, fun _ _ _ => ?_⟩
        · split <;> rfl
        · split <;> rfl
        · split
          · next h => exact h
          · rw [hbar _ _ (hlm _)]

end

/-! The release. -/

/-- Context i of a core waits in a barrier form at this instruction. -/
def State.WaitsInBar (s : State) (c : CoreId) (i : Nat) (x : Inst) : Prop :=
  (∃ since, (s.ctx ⟨c, i⟩).st = .waiting .bar since) ∧ decodeHead (s.ctx ⟨c, i⟩).line (headIndex (s.ctx ⟨c, i⟩).pc) = .ok x

/-- Context i of a core, which stood in s, goes on in t. -/
def State.GoesOn (s t : State) (c : CoreId) (i : Nat) : Prop :=
  (t.ctx ⟨c, i⟩).st = .ready ∧ (t.ctx ⟨c, i⟩).pc = (nextHead (s.ctx ⟨c, i⟩).line (s.ctx ⟨c, i⟩).pc).1

/-- The contexts of other slots than those listed. -/
def Apart (c : CoreId) (l : List Nat) (d : CtxId) : Prop := ∀ i ∈ l, d.key ≠ (⟨c, i⟩ : CtxId).key

section
variable {s t u : State} {c : CoreId} {i : Nat} {x : Inst} {info : HbInfo}

theorem Ctx.still_parts {k q : Ctx} (h : k.still = q.still) : k.pc = q.pc ∧ k.line = q.line ∧ k.gang = q.gang ∧ k.err = q.err ∧
    (∀ since, k.st = .waiting .bar since ↔ q.st = .waiting .bar since) ∧ (k.st = .ready ↔ q.st = .ready) := by
  have hpc := congrArg Ctx.pc h
  have hline := congrArg Ctx.line h
  have hgang := congrArg Ctx.gang h
  have herr := congrArg Ctx.err h
  have hst : k.st.woken = q.st.woken := congrArg Ctx.st h
  refine ⟨hpc, hline, hgang, herr, fun since => ?_, ?_⟩
  · have hb : ∀ y : CState, y.woken = .waiting .bar since ↔ y = .waiting .bar since :=
      fun y => CState.woken_eq_waiting (by simp) (by simp)
    rw [← hb, hst, hb]
  · rw [← CState.woken_eq_ready, hst, CState.woken_eq_ready]

/-- What is quiet for a context leaves it at its barrier form, and ready when it is. -/
theorem WaitsInBar.of_still (h : (t.ctx ⟨c, i⟩).still = (s.ctx ⟨c, i⟩).still) : t.WaitsInBar c i x ↔ s.WaitsInBar c i x := by
  obtain ⟨hpc, hline, -, -, hst, -⟩ := Ctx.still_parts h
  simp only [State.WaitsInBar, hpc, hline, hst]

theorem GoesOn.of_still (h : (u.ctx ⟨c, i⟩).still = (t.ctx ⟨c, i⟩).still) (hg : s.GoesOn t c i) : s.GoesOn u c i := by
  obtain ⟨hpc, -, -, -, -, hr⟩ := Ctx.still_parts h
  exact ⟨hr.2 hg.1, hpc.trans hg.2⟩

/-- A context alone that waits is completed at its instruction. -/
theorem State.finishWaiting_alone {d : CtxId} (hg : (s.ctx d).gang = none) (hd : decodeHead (s.ctx d).line (headIndex (s.ctx d).pc) = .ok x) :
    s.finishWaiting d = s.complete d x.row x.o false .next (syncSignal x.o) := by
  simp only [State.finishWaiting, hg, hd]

theorem State.leadOf_alone {d : CtxId} (hg : (s.ctx d).gang = none) : s.leadOf d = d := by
  simp only [State.leadOf, State.members, hg, List.headD_cons]

theorem State.standing_alone (hg : (s.ctx ⟨c, i⟩).gang = none)
    (hd : decodeHead (s.ctx ⟨c, i⟩).line (headIndex (s.ctx ⟨c, i⟩).pc) = .ok x) : s.standing ⟨c, i⟩ = some x := by
  simp only [State.standing, State.leadOf_alone hg, hd]

/-- What a release does at one context of its core. -/
def State.releaseOne (s : State) (c : CoreId) (info : HbInfo) (i : Nat) : State := s.releaseWaiters c info [i]

theorem State.releaseWaiters_cons (s : State) (c : CoreId) (info : HbInfo) (i : Nat) (r : List Nat) :
    s.releaseWaiters c info (i :: r) = (s.releaseOne c info i).releaseWaiters c info r := rfl

theorem State.releaseWaiters_append (s : State) (c : CoreId) (info : HbInfo) (l r : List Nat) :
    s.releaseWaiters c info (l ++ r) = (s.releaseWaiters c info l).releaseWaiters c info r := by
  induction l generalizing s with
  | nil => rfl
  | cons i l ih => rw [List.cons_append, State.releaseWaiters_cons, ih, ← State.releaseWaiters_cons]

/-- A context that waits in BAR or BAR.wait completes; one that does not wait at a barrier form is left. -/
theorem State.releaseOne_bar (hw : s.WaitsInBar c i x) (hg : (s.ctx ⟨c, i⟩).gang = none) (hx : x.row ≠ .barArrive) :
    s.releaseOne c info i = (s.acquireInfo ⟨c, i⟩ info).finishWaiting ⟨c, i⟩ := by
  obtain ⟨⟨since, hst⟩, hd⟩ := hw
  simp only [State.releaseOne, State.releaseWaiters, hst, State.standing_alone hg hd, hx, if_false]

theorem State.releaseOne_arrive (hw : s.WaitsInBar c i x) (hg : (s.ctx ⟨c, i⟩).gang = none) (hx : x.row = .barArrive) :
    s.releaseOne c info i = s.arriveLate ⟨c, i⟩ := by
  obtain ⟨⟨since, hst⟩, hd⟩ := hw
  simp only [State.releaseOne, State.releaseWaiters, hst, State.standing_alone hg hd, hx, if_true]

theorem State.releaseOne_idle (hg : (s.ctx ⟨c, i⟩).gang = none) (h : ∀ x, ¬s.WaitsInBar c i x) : s.releaseOne c info i = s := by
  simp only [State.releaseOne, State.releaseWaiters]
  split
  · next since y hst hstand =>
    refine absurd ?_ (h y)
    simp only [State.standing, State.leadOf_alone hg] at hstand
    refine ⟨⟨since, hst⟩, ?_⟩
    split at hstand
    · next z hz => rw [hz, Option.some.inj hstand]
    · cases hstand
  · rfl

/-- The contexts of a core that wait in BAR or BAR.wait go on, and nothing else but the quiet changes; none waits in BAR.arrive. -/
theorem State.releaseWaiters_goes (l : List Nat) (hn : l.Nodup) (hl : ∀ i ∈ l, i < 16) (hg : ∀ i ∈ l, (s.ctx ⟨c, i⟩).gang = none)
    (hx : ∀ i ∈ l, ∀ x, s.WaitsInBar c i x → x.row ≠ .barArrive) :
    Quiet s (s.releaseWaiters c info l) (Apart c l) ∧ ∀ i ∈ l, ∀ x, s.WaitsInBar c i x → s.GoesOn (s.releaseWaiters c info l) c i := by
  induction l generalizing s with
  | nil => exact ⟨Quiet.refl .., fun _ h => absurd h List.not_mem_nil⟩
  | cons i r ih =>
    obtain ⟨hir, hnr⟩ := List.nodup_cons.1 hn
    have hi := List.mem_cons_self (a := i) (l := r)
    have hr : ∀ j ∈ r, j ∈ i :: r := fun j hj => List.mem_cons_of_mem i hj
    have hkey : ∀ j ∈ r, Apart c [i] ⟨c, j⟩ := fun j hj k hk => by
      rw [List.mem_singleton.1 hk]
      exact CtxId.key_ne_of_ctx_ne (hl j (hr j hj)) (hl i hi) fun (e : j = i) => hir (e ▸ hj)
    have hone : Quiet s (s.releaseOne c info i) (Apart c [i]) ∧ ∀ x, s.WaitsInBar c i x → s.GoesOn (s.releaseOne c info i) c i := by
      by_cases hw : ∃ x, s.WaitsInBar c i x
      · obtain ⟨x, hw⟩ := hw
        rw [State.releaseOne_bar hw (hg i hi) (hx i hi x hw)]
        have hq := (Quiet.refl s (fun _ => True)).acquireInfo ⟨c, i⟩ info
        obtain ⟨hpc, hline, hgang, -, -, -⟩ := Ctx.still_parts (hq.ctxs ⟨c, i⟩ trivial)
        rw [State.finishWaiting_alone (x := x) (hgang.trans (hg i hi)) (by rw [hpc, hline]; exact hw.2)]
        refine ⟨(hq.mono fun _ _ => trivial).complete ⟨c, i⟩ x.row x.o false _ (by decide)
          fun d hd => hd i (List.mem_singleton_self i), fun _ _ => ?_⟩
        obtain ⟨hst, hnext⟩ := (s.acquireInfo ⟨c, i⟩ info).complete_next ⟨c, i⟩ x.row x.o false (syncSignal x.o)
        exact ⟨hst, by rw [hnext, hpc, hline]⟩
      · rw [not_exists] at hw
        rw [State.releaseOne_idle (hg i hi) hw]
        exact ⟨Quiet.refl .., fun x h => absurd h (hw x)⟩
    obtain ⟨hq, hgo⟩ := hone
    have hstill : ∀ j ∈ r, ((s.releaseOne c info i).ctx ⟨c, j⟩).still = (s.ctx ⟨c, j⟩).still := fun j hj => hq.ctxs _ (hkey j hj)
    obtain ⟨hq', hgo'⟩ := ih (s := s.releaseOne c info i) hnr (fun j hj => hl j (hr j hj))
      (fun j hj => (Ctx.still_parts (hstill j hj)).2.2.1.trans (hg j (hr j hj)))
      (fun j hj x hw => hx j (hr j hj) x ((WaitsInBar.of_still (hstill j hj)).1 hw))
    rw [State.releaseWaiters_cons]
    refine ⟨(hq.mono fun d hd j hj => hd j (List.mem_singleton.1 hj ▸ hi)).trans
      (hq'.mono fun d hd j hj => hd j (hr j hj)), fun j hj x hw => ?_⟩
    obtain rfl | hj := List.mem_cons.1 hj
    · refine GoesOn.of_still (hq'.ctxs _ fun k hk => ?_) (hgo x hw)
      exact (hkey k hk j (List.mem_singleton_self j)).symm
    · obtain ⟨hpc, hline, -, -, -, -⟩ := Ctx.still_parts (hstill j hj)
      have h := hgo' j hj x ((WaitsInBar.of_still (hstill j hj)).2 hw)
      rwa [State.GoesOn, hpc, hline] at h

/-- New intervals of contexts are the detector's records alone. -/
theorem State.newIntervals_eq (l : List Nat) (s : State) (c : CoreId) :
    let t := l.foldl (fun s i => s.newInterval ⟨c, i⟩) s
    t.cores = s.cores ∧ t.mem = s.mem ∧ t.ctxs = s.ctxs := by
  induction l generalizing s with
  | nil => exact ⟨rfl, rfl, rfl⟩
  | cons i r ih => exact ih (s.newInterval ⟨c, i⟩)

/-- The part of a pass of the release that comes before the contexts that wait: the episode of the core ends (R197, R198). -/
theorem State.passRelease_own {l : CoreLaunch} (near : Half) (hl : (s.core c).launch = some l) (hr : (s.core c).bar.release = true) :
    ∃ s1 : State, s.passRelease l.id c near = s1.releaseWaiters c (s.core c).bar.hb allCtx ∧ s1.mem = s.mem ∧ s1.ctxs = s.ctxs ∧
      (s1.core c).bar = { Core.reset.bar with phase := !(s.core c).bar.phase } := by
  have hb : (s.core c).barOf l.id = (s.core c).bar := Core.barOf_own hl
  have hgiven : ∀ (u : State) (d : CoreId) f (p : Prop) [Decidable p], (p → c.key ≠ d.key) →
      ((if p then u.modBar l.id d f else u).core c) = u.core c ∧ (if p then u.modBar l.id d f else u).mem = u.mem ∧
        (if p then u.modBar l.id d f else u).ctxs = u.ctxs := fun u d f p _ hd => by
    split
    · next hp => exact ⟨u.core_modBar_ne _ _ (hd hp), rfl, rfl⟩
    · exact ⟨rfl, rfl, rfl⟩
  unfold State.passRelease
  extract_lets b r give s1 s2 fresh s3
  have hb' : b = (s.core c).bar := hb
  obtain ⟨hk1, hm1, hc1⟩ := hgiven s (west c) (fun n => { n with release := true, hb := n.hb.join b.hb }) (rectX0 r < posX c.pos)
    fun h => CoreId.key_ne_of_pos_ne rfl (by simp only [posX, west] at h ⊢; omega)
  obtain ⟨hk2, hm2, hc2⟩ := hgiven s1 (south c) (fun n => { n with release := true, hb := n.hb.join b.hb })
    (posX c.pos = rectX1 r ∧ rectY0 r < posY c.pos)
    fun ⟨_, h⟩ => CoreId.key_ne_of_pos_ne rfl (by simp only [posY, south] at h ⊢; omega)
  have hk : s2.core c = s.core c := hk2.trans hk1
  have hl3 : (s3.core c).launch = some l := by rw [State.launch_modBar, hk, hl]
  have hbar : (s3.core c).bar = { Core.reset.bar with phase := !(s.core c).bar.phase } := by
    rw [← Core.barOf_own hl3, State.barOf_modBar_same, hk, hb]
  have hid : (s3.core c).launchId = l.id := by rw [Core.launchId, hl3]
  obtain ⟨hk4, hm4, hc4⟩ := s3.newIntervals_eq allCtx c
  refine ⟨allCtx.foldl (fun s i => s.newInterval ⟨c, i⟩) s3, ?_, (hm4.trans hm2).trans hm1, (hc4.trans hc2).trans hc1, ?_⟩
  case refine_2 => rw [State.core, hk4, ← State.core, hbar]
  rw [if_neg (by rw [hb', hr]; decide), if_neg (by simp [hid, hl3]), hb']

/-- A release at contexts of a core of which none waits in BAR.arrive (R197, R198). -/
theorem State.release_all {l : List Nat} {b : BarState} (hn : l.Nodup) (hl : ∀ i ∈ l, i < 16) (hb : (s.core c).bar = b)
    (hg : ∀ i ∈ l, (s.ctx ⟨c, i⟩).gang = none) (hx : ∀ i ∈ l, ∀ x, s.WaitsInBar c i x → x.row ≠ .barArrive) :
    (s.releaseWaiters c info l).mem = s.mem ∧ ((s.releaseWaiters c info l).core c).bar = b ∧
      ∀ i ∈ l, ∀ x, s.WaitsInBar c i x → s.GoesOn (s.releaseWaiters c info l) c i := by
  obtain ⟨hq, hgo⟩ := State.releaseWaiters_goes (info := info) l hn hl hg hx
  have hbar := congrArg Core.bar (hq.cores c)
  exact ⟨hq.mem, hbar.trans hb, hgo⟩

/-- A BAR.arrive that waits arrives for the next episode and goes on (R198). -/
theorem State.releaseOne_arrives (hw : s.WaitsInBar c i x) (hg : (s.ctx ⟨c, i⟩).gang = none) (hx : x.row = .barArrive)
    (he : (s.ctx ⟨c, i⟩).err = none) (ha : (s.core c).bar.arrived = false) : let t := s.releaseOne c info i
    t.mem = s.mem ∧ (t.core c).bar.arrived = true ∧ (t.core c).bar.phase = (s.core c).bar.phase ∧ s.GoesOn t c i ∧
      ∀ d, Apart c [i] d → (t.ctx d).still = (s.ctx d).still := by
  have hc : Quiet s (s.commit ⟨c, i⟩) (fun _ => True) := (Quiet.refl s _).commit ⟨c, i⟩
  have hctx : ∀ d, (((s.commit ⟨c, i⟩).arrive ⟨c, i⟩).ctx d).still = (s.ctx d).still := fun d => hc.ctxs d trivial
  obtain ⟨hpc, hline, hgang, -, -, -⟩ := Ctx.still_parts (hctx ⟨c, i⟩)
  have hone : s.releaseOne c info i = ((s.commit ⟨c, i⟩).arrive ⟨c, i⟩).complete ⟨c, i⟩ x.row x.o false .next (syncSignal x.o) := by
    rw [State.releaseOne_arrive hw hg hx, ← State.finishWaiting_alone (hgang.trans hg) (by rw [hpc, hline]; exact hw.2)]
    simp only [State.arriveLate, hg, Option.isSome_none, Bool.false_eq_true, if_false, he, ha]
  have hq := (Quiet.refl ((s.commit ⟨c, i⟩).arrive ⟨c, i⟩) (Apart c [i])).complete ⟨c, i⟩ x.row x.o false (syncSignal x.o)
    (ctl := .next) (by decide) fun d hd => hd i (List.mem_singleton_self i)
  obtain ⟨hst, hnext⟩ := ((s.commit ⟨c, i⟩).arrive ⟨c, i⟩).complete_next ⟨c, i⟩ x.row x.o false (syncSignal x.o)
  rw [hpc, hline] at hnext
  have hbar : ((s.releaseOne c info i).core c).bar = (((s.commit ⟨c, i⟩).arrive ⟨c, i⟩).core c).bar := by
    have h := congrArg Core.bar (hq.cores c)
    rw [← hone] at h
    exact h
  have hphase : ((s.commit ⟨c, i⟩).core c).bar.phase = (s.core c).bar.phase := by
    have h := congrArg Core.bar (hc.cores c)
    exact congrArg BarState.phase h
  intro t
  refine ⟨?_, ?_, ?_, ?_, fun d hd => ?_⟩
  · simp only [t]
    rw [hone, hq.mem]
    exact hc.mem
  · rw [hbar]
    exact State.arrive_arrived ..
  · rw [hbar, State.arrive, State.core_modCore_same]
    exact hphase
  · simp only [t]
    rw [hone]
    exact ⟨hst, hnext⟩
  · simp only [t]
    rw [hone, hq.ctxs d hd, hctx]

/-- The release at a core where one BAR.arrive waits, which arrives for the next episode (R198). -/
theorem State.release_late {b : BarState} {j : Nat} {y : Inst} (hb : (s.core c).bar = b) (ha : b.arrived = false)
    (hg : ∀ i ∈ allCtx, (s.ctx ⟨c, i⟩).gang = none) (hj : j ∈ allCtx) (hw : s.WaitsInBar c j y) (hy : y.row = .barArrive)
    (he : (s.ctx ⟨c, j⟩).err = none) (honly : ∀ i ∈ allCtx, ∀ x, s.WaitsInBar c i x → x.row = .barArrive → i = j) :
    let t := s.releaseWaiters c info allCtx
    t.mem = s.mem ∧ (t.core c).bar.arrived = true ∧ (t.core c).bar.phase = b.phase ∧ s.GoesOn t c j := by
  obtain ⟨pre, post, hsplit⟩ := List.append_of_mem hj
  have hn : (pre ++ j :: post).Nodup := hsplit ▸ by decide
  have hlt : ∀ i ∈ allCtx, i < 16 := by decide
  obtain ⟨hnpre, hnpost', hdisj⟩ := List.nodup_append.1 hn
  obtain ⟨hjpost, hnpost⟩ := List.nodup_cons.1 hnpost'
  have hpre : ∀ i ∈ pre, i ∈ allCtx ∧ i ≠ j := fun i hi => ⟨by rw [hsplit]; simp [hi], hdisj i hi j (by simp)⟩
  have hpost : ∀ i ∈ post, i ∈ allCtx ∧ i ≠ j := fun i hi => ⟨by rw [hsplit]; simp [hi], fun e => hjpost (e ▸ hi)⟩
  have hkey : ∀ {a b}, a ∈ allCtx → b ∈ allCtx → a ≠ b → (⟨c, a⟩ : CtxId).key ≠ (⟨c, b⟩ : CtxId).key := fun ha hb hne =>
    CtxId.key_ne_of_ctx_ne (hlt _ ha) (hlt _ hb) hne
  -- the contexts before the late arrival
  obtain ⟨hq1, -⟩ := State.releaseWaiters_goes (info := info) pre hnpre (fun i hi => hlt i (hpre i hi).1) (fun i hi => hg i (hpre i hi).1)
    fun i hi x hwi hr => (hpre i hi).2 (honly i (hpre i hi).1 x hwi hr)
  have hjs := hq1.ctxs ⟨c, j⟩ fun i hi => hkey hj (hpre i hi).1 (hpre i hi).2.symm
  obtain ⟨hpc1, hline1, hgang1, herr1, -, -⟩ := Ctx.still_parts hjs
  have hbar1 : ((s.releaseWaiters c info pre).core c).bar = b := by
    have h := congrArg Core.bar (hq1.cores c)
    exact h.trans hb
  -- the late arrival
  obtain ⟨hm2, harr2, hph2, hgo2, hst2⟩ := State.releaseOne_arrives (info := info) ((WaitsInBar.of_still hjs).2 hw) (hgang1.trans (hg j hj)) hy
    (herr1.trans he) (by rw [hbar1, ha])
  generalize h1 : s.releaseWaiters c info pre = s1 at *
  -- the contexts after it
  have hs2 : ∀ i ∈ post, ((s1.releaseOne c info j).ctx ⟨c, i⟩).still = (s.ctx ⟨c, i⟩).still := fun i hi => by
    rw [hst2 _ fun k hk => by rw [List.mem_singleton.1 hk]; exact hkey (hpost i hi).1 hj (hpost i hi).2]
    exact hq1.ctxs _ fun k hk => hkey (hpost i hi).1 (hpre k hk).1 (hdisj k hk i (by simp [hi])).symm
  obtain ⟨hq3, -⟩ := State.releaseWaiters_goes (s := s1.releaseOne c info j) (info := info) post hnpost (fun i hi => hlt i (hpost i hi).1)
    (fun i hi => (Ctx.still_parts (hs2 i hi)).2.2.1.trans (hg i (hpost i hi).1))
    fun i hi x hwi hr => (hpost i hi).2 (honly i (hpost i hi).1 x ((WaitsInBar.of_still (hs2 i hi)).1 hwi) hr)
  have hbar3 := congrArg Core.bar (hq3.cores c)
  have hgo3 := GoesOn.of_still (hq3.ctxs ⟨c, j⟩ fun i hi => hkey hj (hpost i hi).1 (hpost i hi).2.symm) hgo2
  rw [State.GoesOn, hpc1, hline1] at hgo3
  intro t
  have ht : t = (s1.releaseOne c info j).releaseWaiters c info post := by
    simp only [t]
    rw [hsplit, State.releaseWaiters_append, h1, State.releaseWaiters_cons]
  rw [ht]
  refine ⟨(hq3.mem.trans hm2).trans hq1.mem, ?_, ?_, hgo3⟩
  · exact (congrArg BarState.arrived hbar3).trans harr2
  · exact (congrArg BarState.phase hbar3).trans (hph2.trans (congrArg BarState.phase hbar1))

end

/-- Settles O37, from the bodies of the rein and barrier instructions and the steps of a sweep. -/
theorem countersAndBarriers : Obligations.CountersAndBarriers := by
  unfold Obligations.CountersAndBarriers
  refine ⟨?cwait, ?csig, ?cset, ?crd, ?bar, ?token, ?release⟩
  case cwait =>
    refine fun s hr => ⟨fun r he hc => stops_of_body hr rfl (bodyCwait_reported he hc), fun he =>
      ⟨fun hlt => stops_of_body hr rfl ((bodyCwait_unreported he).trans (if_pos hlt)), fun hle => ⟨_, gives_of_body hr rfl
        ((bodyCwait_unreported he).trans (if_neg (by omega))) (((Frame.refl ..).clearE _ _).reinWait _ _), ?_⟩⟩⟩
    rw [State.core, State.cores_reinWait, ← State.core, State.count_clearE, s.core_taken]
  case csig =>
    intro s hr
    by_cases hz : s.opA.toNat % 65536 = 0
    · refine ⟨(s.taken .csig).commit s.cur, gives_of_body hr rfl ?_ ((Frame.refl ..).commit _), ?_⟩
      · simp only [bodyCsig, Env.a16_taken, hz, if_true]
        rfl
      · have hk : (((s.taken .csig).commit s.cur).core s.cur.core).rein = (s.core s.cur.core).rein := by rw [State.rein_commit, s.core_taken]
        refine ⟨?_, fun m _ => Core.reinAt_of_rein hk m⟩
        have := ((s.core s.cur.core).reinAt (s.op.imm.toNat % 256)).v.isLt
        rw [Core.reinAt_of_rein hk, hz]
        omega
    · refine ⟨((s.taken .csig).commit s.cur).signal s.cur.core (s.op.imm.toNat % 256) (s.opA.toNat % 65536) false,
        gives_of_body hr rfl ?_ (((Frame.refl ..).commit _).signal _ _ _ _), ?_⟩
      · simp only [bodyCsig, Env.a16_taken, hz, if_false]
        rfl
      · obtain ⟨hsame, hother⟩ := Core.reinAt_set
          (((s.taken .csig).commit s.cur).rein_signal s.cur.core (s.op.imm.toNat % 256) (s.opA.toNat % 65536) false)
        have hk : (((s.taken .csig).commit s.cur).core s.cur.core).rein = (s.core s.cur.core).rein := by rw [State.rein_commit, s.core_taken]
        refine ⟨?_, fun m hm => (hother m hm).trans (Core.reinAt_of_rein hk m)⟩
        rw [hsame, Core.reinAt_of_rein hk, Rein.add, BitVec.toNat_ofNat, Nat.mod_eq_of_lt (by omega)]
  case cset =>
    intro s hr
    have hk : (((s.taken .cset).commit s.cur).core s.cur.core).rein = (s.core s.cur.core).rein := by rw [State.rein_commit, s.core_taken]
    have hset : ∀ n v, (((((s.taken .cset).commit s.cur).modCore s.cur.core
        (fun k => { k with rein := k.rein.set n { (k.reinAt n) with v := v } })).reinClear s.cur.core n).core s.cur.core).rein =
          (s.core s.cur.core).rein.set n { ((s.core s.cur.core).reinAt n) with v := v } := fun n v => by
      rw [State.reinClear, State.core_modCore_same, State.core_modCore_same, hk, Core.reinAt_of_rein hk]
    obtain ⟨hsame, hother⟩ := Core.reinAt_set (hset (s.op.imm.toNat % 256) (BitVec.ofNat 16 (s.opA.toNat % 65536)))
    refine ⟨_, gives_of_body hr rfl ?_ ?_, ?_, ?_, hother⟩
    · simp only [bodyCset, Env.a16_taken]
      rfl
    · unfold State.reinClear
      exact (((Frame.refl ..).commit _).modCore _ _).modCore _ _
    · rw [hsame, BitVec.toNat_ofNat, Nat.mod_eq_of_lt (by omega)]
    · rw [hsame]
  case crd =>
    intro s hr
    refine givesReg_of_body hr rfl ?_
    simp only [bodyCrd, State.core_taken]
    rfl
  case bar =>
    intro row s hrow hr
    have hm : row = .bar ∨ row = .barArrive ∨ row = .barWait := by simpa using hrow
    obtain rfl | rfl | rfl := hm
    · exact bar_arrivals hr rfl (.inr ⟨by decide, rfl⟩)
    · exact bar_arrivals hr rfl (.inl ⟨rfl, rfl⟩)
    · exact bar_arrivals hr rfl (.inr ⟨by decide, rfl⟩)
  case token =>
    intro s l c r b hpos hk hl hp ha hw
    refine ⟨s.forwardToken l.id c (s.nearRect l.id c), ?_, State.forwardToken_forwards _ hl hp ha hw⟩
    exact congrArg Host.Outcome.next ((congrArg (s.sweep State.forwardToken c) hk).trans (State.sweep_own _ hl))
  case release =>
    intro s l c waits goes hpos hk hl hrel hg
    have hx : exec .barrierRelease s = .next (s.passRelease l.id c (s.nearRect l.id c)) :=
      congrArg Host.Outcome.next ((congrArg (s.sweep State.passRelease c) hk).trans (State.sweep_own _ hl))
    obtain ⟨s1, he, hm1, hc1, hb1⟩ := State.passRelease_own (s.nearRect l.id c) hl hrel
    have hctx : ∀ d, s1.ctx d = s.ctx d := fun d => by simp only [State.ctx, hc1]
    have hwaits : ∀ i x, s1.WaitsInBar c i x ↔ s.WaitsInBar c i x := fun i x => by simp only [State.WaitsInBar, hctx]
    have hgoes : ∀ t i, s1.GoesOn t c i ↔ s.GoesOn t c i := fun t i => by simp only [State.GoesOn, hctx]
    have hgang : ∀ i ∈ allCtx, (s1.ctx ⟨c, i⟩).gang = none := fun i hi => (congrArg Ctx.gang (hctx _)).trans (hg i hi)
    refine ⟨fun hnone => ?_, fun j hj y hw hy herr honly => ?_⟩
    · obtain ⟨hmem, hbar, hgo⟩ := State.release_all (by decide) (by decide) hb1 hgang (info := (s.core c).bar.hb)
        fun i hi x hw => hnone i hi x ((hwaits i x).1 hw)
      refine ⟨_, hx, by rw [he, hmem, hm1], ?_⟩
      rw [he, hbar]
      exact ⟨rfl, rfl, rfl, fun i hi x hw _ => (hgoes _ i).1 (hgo i hi x ((hwaits i x).2 hw))⟩
    · obtain ⟨hmem, harr, hphase, hgo⟩ := State.release_late hb1 rfl hgang (info := (s.core c).bar.hb) hj ((hwaits j y).2 hw) hy
        ((congrArg Ctx.err (hctx _)).trans herr) fun i hi x hw => honly i hi x ((hwaits i x).1 hw)
      refine ⟨_, hx, ?_⟩
      rw [he]
      exact ⟨hmem.trans hm1, harr, hphase, (hgoes _ j).1 hgo⟩

end Sys2Proof.Machine
end

