-- ==== Sys2Proof/Proofs/Messages.lean ====
section
/-! Messages at their destination, refused messages on their way again, and the answers of a SEND (R273–R280). -/

namespace Sys2Proof.Machine

open Sys2Proof

/-! Packets. -/

section
variable {s : State} {k : Nat} {p x : Packet} {m : Msg} {tries : Nat} {send : Option Nat}

theorem Packet.id_of_packet (h : s.packet k = some p) : p.id = k := by simpa using List.find?_some h

/-- A packet that takes another's place. -/
theorem State.packet_setPacket (h : s.packet k = some p) (hx : x.id = k) : (s.setPacket x).packet k = some x := by
  have hf : ((fun q : Packet => q.id == k) ∘ fun q => if q.id = x.id then x else q) = fun q => q.id == k := by
    funext q
    by_cases hq : q.id = x.id
    · simp only [Function.comp_apply, hq, if_true]
    · simp only [Function.comp_apply, hq, if_false]
  rw [State.packet, State.setPacket, List.find?_map, hf, ← State.packet, h, Option.map_some, if_pos ((Packet.id_of_packet h).trans hx.symm)]

/-- Fixing the site of a packet changes nothing else of it. -/
theorem State.fixSite_parts (s : State) (p : Packet) (vd : Nat) : let q := s.fixSite p vd
    q.id = p.id ∧ q.pl = p.pl ∧ q.retry = p.retry ∧ q.at_ = p.at_ ∧ q.dst = p.dst ∧ q.seq = p.seq := by
  simp only [State.fixSite]
  split
  · split
    · exact ⟨rfl, rfl, rfl, rfl, rfl, rfl⟩
    · split <;> exact ⟨rfl, rfl, rfl, rfl, rfl, rfl⟩
  · split <;> exact ⟨rfl, rfl, rfl, rfl, rfl, rfl⟩

/-- A packet that starts again stands where it stood, as the latest there. -/
theorem State.packet_restart (h : s.packet k = some p) (hx : x.id = k) :
    ∃ q, (s.restart x).packet k = some q ∧ q.pl = x.pl ∧ q.retry = x.retry ∧ q.at_ = x.at_ ∧ q.dst = x.dst ∧ q.seq = s.nextId := by
  obtain ⟨hid, hpl, hretry, hat, hdst, hseq⟩ := s.fixSite_parts { x with site := none, sites := [], seq := s.nextId } (dieOf x.at_)
  exact ⟨_, State.packet_setPacket (s := { s with nextId := s.nextId + 1 }) h (hid.trans hx), hpl, hretry, hat, hdst, hseq⟩

/-- A refused packet stands at its sender's tile, for a time. -/
theorem State.packet_sendBack (h : s.packet k = some p) (src n : Nat) (pl : Payload) : ∃ q, (s.sendBack p src n pl).packet k = some q ∧
    q.pl = pl ∧ q.at_ = src / 4096 % 512 ∧ q.retry = some (s.edges + retryEdges n) := by
  have hid : p.id = k := Packet.id_of_packet h
  exact ⟨{ p with at_ := src / 4096 % 512, site := none, sites := [], retry := some (s.edges + retryEdges n), pl := pl },
    State.packet_setPacket h hid, rfl, rfl, rfl⟩

theorem State.not_mem_dropPacket (s : State) (k : Nat) : ∀ q ∈ (s.dropPacket k).net, q.id ≠ k := fun q hq => by
  simpa using (List.mem_filter.1 hq).2

/-- What stands at its destination is a packet of the fabric. -/
theorem State.packet_of_arrivedMsg (h : s.arrivedMsg k = some (p, m, tries, send)) : s.packet k = some p := by
  simp only [State.arrivedMsg] at h
  split at h
  · next q hq =>
    split at h
    · split at h
      · rw [hq, (Prod.mk.inj (Option.some.inj h)).1]
      · cases h
    · cases h
  · cases h

end

/-! Arrivals of tasks. -/

section
variable {s t : State} {e : CtxId} {d : Touch}

theorem State.net_wakeFrom (l : List Nat) (s : State) (c : CoreId) : (s.wakeFrom c l).net = s.net := by
  induction l generalizing s with
  | nil => rfl
  | cons i r ih =>
    simp only [State.wakeFrom]
    rw [ih]
    split <;> rfl

theorem State.net_wakeFor (s : State) (c : CoreId) (cls : Nat) : (s.wakeFor c cls).net = s.net := by
  rw [State.wakeFor]
  split
  · exact State.net_wakeFrom ..
  · rfl

theorem State.cores_wakeFor (s : State) (c : CoreId) (cls : Nat) : (s.wakeFor c cls).cores = s.cores := by
  rw [State.wakeFor]
  split
  · exact State.cores_wakeFrom ..
  · rfl

theorem Frame.wakeFor (h : Frame s t e d) (c : CoreId) (cls : Nat) : Frame s (t.wakeFor c cls) e d := (h.wakeFrom _ c).ite h

/-- The answer of a destination touches the sends alone. -/
theorem State.answerSend_eq (s : State) (send : Option Nat) (fail : Option (Nat × Cause)) (late : Bool) :
    ∃ l, s.answerSend send fail late = { s with sends := l } := by
  cases send with
  | none => exact ⟨s.sends, rfl⟩
  | some id => exact ⟨_, rfl⟩

theorem Frame.answerSend (h : Frame s t e d) (send : Option Nat) (fail : Option (Nat × Cause)) (late : Bool) :
    Frame s (t.answerSend send fail late) e d := by
  obtain ⟨l, hl⟩ := t.answerSend_eq send fail late
  rw [hl]
  exact h.other rfl rfl

/-- Without a task in the overflow area, or with a full run queue, none comes back. -/
theorem State.reenter_idle {c : CoreId} (h : 32 ≤ (s.core c).runq.length ∨ (s.tile c.vt).overflow.any (fun o => o.1 == c.pos) = false) :
    s.reenter c = s := by
  unfold State.reenter
  split
  · next o ho =>
    refine if_pos (Or.inl (h.resolve_right fun ha => ?_))
    have hany := List.any_eq_false.1 ha o (List.mem_of_find?_eq_some ho)
    have hsome := List.find?_some ho
    exact hany hsome
  · rfl

theorem State.reenterAll_idle {c : CoreId} (h : 32 ≤ (s.core c).runq.length ∨ (s.tile c.vt).overflow.any (fun o => o.1 == c.pos) = false)
    (n : Nat) : s.reenterAll c n = s := by
  induction n with
  | zero => rfl
  | succ n ih => rw [State.reenterAll, State.reenter_idle h, ih]

variable {k : Nat} {p : Packet} {m : Msg} {tries : Nat} {send : Option Nat}

section
variable (h : s.arrivedMsg k = some (p, m, tries, send)) (hk : m.kind = 0) (hb : s.msgBehind k m p.dst = false)
  (hg : (s.gangOffers send).length ≤ 1)
  (hr : 32 ≤ (s.core ⟨p.dst, m.pos⟩).runq.length ∨ (s.tile p.dst).overflow.any (fun o => o.1 == m.pos) = false)
include h hk hb hg hr

theorem State.taskArrival_accepts (hn : s.refusal m ⟨p.dst, m.pos⟩ = none) :
    s.taskArrival k = ((s.dropPacket k).acceptTask m ⟨p.dst, m.pos⟩).answerSend send none false := by
  simp only [State.taskArrival, h, hk, hb, ne_eq, not_true_eq_false, Bool.false_eq_true, or_self, if_false,
    show ¬1 < (s.gangOffers send).length by omega, State.reenterAll_idle (c := ⟨p.dst, m.pos⟩) hr, hn]

theorem State.taskArrival_refuses {cause : Cause} (hn : s.refusal m ⟨p.dst, m.pos⟩ = some cause) :
    s.taskArrival k = s.refuseTask p m tries send cause := by
  simp only [State.taskArrival, h, hk, hb, ne_eq, not_true_eq_false, Bool.false_eq_true, or_self, if_false,
    show ¬1 < (s.gangOffers send).length by omega, State.reenterAll_idle (c := ⟨p.dst, m.pos⟩) hr, hn]

end

/-- An accepted task stands at the end of a run queue with room. -/
theorem State.acceptTask_queues {c : CoreId} (h : (s.core c).runq.length < 32) : let t := s.acceptTask m c
    (t.core c).runq = (s.core c).runq ++ [m.task c ((s.core c).arrivals % 2 ^ 32)] ∧ t.net = s.net ∧ ∀ e d, Frame s t e d := by
  simp only [State.acceptTask, if_neg (Nat.not_le.2 h)]
  refine ⟨?_, State.net_wakeFor .., fun e d => Frame.wakeFor ?_ _ _⟩
  · rw [State.core, State.cores_wakeFor]
    exact congrArg Core.runq (s.core_setCore_same c _)
  · exact (Frame.refl s e d).other rfl rfl

end

/-! Answers. -/

section
variable {s : State} {c : CtxId} {k : Nat} {r : SendRec} {since : Nat}

theorem State.trapAt_alone (hg : (s.ctx c).gang = none) (t : Tr) : s.trapAt c t = s.deliver c [c] 0 c t := by
  simp only [State.trapAt, State.leadOf_alone hg, State.members, hg, List.idxOf_cons_self]

section
variable (hf : s.sends.find? (fun x => x.id == k) = some r) (hl : r.left = 0) (hgo : r.gone = false) (hbuf : r.buffered = false)
  (hst : (s.ctx r.ctx).st = .waiting (.answer k) since)
include hf hl hgo hbuf hst

/-- The last answer of a SEND that was accepted everywhere completes it (R276). -/
theorem State.deliveryAnswer_completes (hlate : r.late = false) (hfail : r.fail = none) :
    s.deliveryAnswer k = ({ s with sends := s.sends.filter (fun x => x.id != k) } : State).finishWaiting r.ctx := by
  simp only [State.deliveryAnswer, hf, hl, hgo, hbuf, hst, hfail, hlate]
  simp

/-- The last answer of a SEND that was refused traps at it (R276). -/
theorem State.deliveryAnswer_traps {u code : Nat} (hg : (s.ctx r.ctx).gang = none) (hfail : r.fail = some (u, code))
    (hheld : s.pushHeld r.ctx = none) :
    s.deliveryAnswer k = ({ s with sends := s.sends.filter (fun x => x.id != k) } : State).deliver r.ctx [r.ctx] 0 r.ctx
      (sendTrap code (if r.spur then r.val else BitVec.ofNat 64 (r.pos * 512 + u))) := by
  have hh : s.trapHeld r.ctx = false := by rw [State.trapHeld, State.leadOf_alone hg, hheld]; rfl
  rw [← State.trapAt_alone (s := { s with sends := s.sends.filter (fun x => x.id != k) }) hg]
  simp only [State.deliveryAnswer, hf, hl, hgo, hbuf, hst, hfail, hh]
  simp

end

end

/-! Replies. -/

section
variable {s t : State} {e : CtxId} {d : Touch} {c : CoreId}

theorem Frame.reinRelease (h : Frame s t e d) (c : CoreId) (n : Nat) (i : HbInfo) : Frame s (t.reinRelease c n i) e d := h.ite (h.modCore _ _)

theorem State.rein_reinRelease (s : State) (c : CoreId) (n : Nat) (i : HbInfo) : ((s.reinRelease c n i).core c).rein = (s.core c).rein := by
  rw [State.reinRelease]
  split
  · rfl
  · rw [State.core_modCore_same]

theorem State.mem_reinRelease (s : State) (c : CoreId) (n : Nat) (i : HbInfo) : (s.reinRelease c n i).mem = s.mem := by
  rw [State.reinRelease]
  split <;> rfl

theorem State.net_reinRelease (s : State) (c : CoreId) (n : Nat) (i : HbInfo) : (s.reinRelease c n i).net = s.net := by
  rw [State.reinRelease]
  split <;> rfl

theorem State.net_signal (s : State) (c : CoreId) (n i : Nat) (b : Bool) : (s.signal c n i b).net = s.net := by
  simp only [State.signal]
  split
  · rfl
  · exact State.net_wakeFrom ..

theorem State.mem_signal (s : State) (c : CoreId) (n i : Nat) (b : Bool) : (s.signal c n i b).mem = s.mem := by
  simp only [State.signal]
  split
  · rfl
  · exact State.mem_wakeFrom ..

theorem State.rein_commitOthers (l : List Nat) (s : State) (c : CtxId) (a n : Nat) (k : CoreId) :
    ((s.commitOthers c a n l).core k).rein = (s.core k).rein := by
  induction l generalizing s with
  | nil => rfl
  | cons i r ih =>
    simp only [State.commitOthers]
    rw [ih]
    split
    · exact State.rein_commit ..
    · rfl

theorem State.bytes_of_mem (h : t.mem = s.mem) (a n : Nat) : t.bytes a n = s.bytes a n := by simp only [State.bytes, State.byte, h]

/-- A write to a TCM marks no line. -/
theorem State.poke_tcm {a : Nat} {l : List Byte} (ha : flatKind a = 0) : ∃ p, s.poke a l = ({ s with poison := p } : State).storeBytes a l := by
  have hb : inBlocks a l.length = false := by simp [inBlocks, ha]
  rw [State.poke_outside _ hb, State.pokeBase, State.markDirty, if_pos (by omega), State.markLines, if_pos (by omega)]
  exact ⟨_, rfl⟩

/-- The counter of a reply is incremented, saturating (R27, R280). -/
theorem State.replied {n : Nat} (i : HbInfo) (c : CoreId) :
    ((((s.reinRelease c n i).signal c n 1 false).core c).reinAt n).v.toNat = min (((s.core c).reinAt n).v.toNat + 1) 0xffff := by
  obtain ⟨hsame, -⟩ := Core.reinAt_set ((s.reinRelease c n i).rein_signal c n 1 false)
  rw [hsame, Core.reinAt_of_rein (s.rein_reinRelease c n i), Rein.add, BitVec.toNat_ofNat, Nat.mod_eq_of_lt (by omega)]

/-- The state in which a reply is delivered: its packet is taken, and its send has its answer. -/
def State.replying (s : State) (k : Nat) (send : Option Nat) : State := (s.dropPacket k).answerSend send none false

theorem State.replying_eq (s : State) (k : Nat) (send : Option Nat) : ∃ l, s.replying k send = { s.dropPacket k with sends := l } :=
  State.answerSend_eq ..

theorem State.core_replying (s : State) (k : Nat) (send : Option Nat) (c : CoreId) : (s.replying k send).core c = s.core c := by
  obtain ⟨l, hl⟩ := s.replying_eq k send
  rw [hl]
  rfl

theorem State.mem_replying (s : State) (k : Nat) (send : Option Nat) : (s.replying k send).mem = s.mem := by
  obtain ⟨l, hl⟩ := s.replying_eq k send
  rw [hl]
  rfl

theorem State.net_replying (s : State) (k : Nat) (send : Option Nat) : (s.replying k send).net = (s.dropPacket k).net := by
  obtain ⟨l, hl⟩ := s.replying_eq k send
  rw [hl]

theorem Frame.replying (s : State) (k : Nat) (send : Option Nat) (e : CtxId) (d : Touch) : Frame s (s.replying k send) e d := by
  have h : Frame s (s.dropPacket k) e d := (Frame.refl s e d).other rfl rfl
  exact h.answerSend _ _ _

variable {k : Nat} {p : Packet} {m : Msg} {tries : Nat} {send : Option Nat}

/-- The state in which a reply's bytes are stored: activations whose window they touch have committed. -/
def State.replyBase (s : State) (k : Nat) (send : Option Nat) (c : CoreId) (off : Nat) : State :=
  ((s.replying k send).commitOthers ⟨c, 16⟩ (flatTcm c off) 48 allCtx).trimRels (flatTcm c off) (flatTcm c off + 48)

section
variable (h : s.arrivedMsg k = some (p, m, tries, send)) (hk : m.kind = 1) (hb : ¬(m.vt = 0 ∧ m.pos = 0xff))
  (hl : (s.core ⟨p.dst, m.pos⟩).launch.isSome = true)
include h hk hb hl

/-- A reply without a slot increments its counter (R280). -/
theorem State.replyDelivery_counts (hs : m.reply.getLsbD 14 = false) : s.replyDelivery k =
    ((s.replying k send).reinRelease ⟨p.dst, m.pos⟩ (m.reply.toNat / 2 ^ 15 % 2 ^ 8) m.hb).signal ⟨p.dst, m.pos⟩
      (m.reply.toNat / 2 ^ 15 % 2 ^ 8) 1 false := by
  have hln : (((s.replying k send).core ⟨p.dst, m.pos⟩).launch).isNone = false := by rw [s.core_replying]; simpa using hl
  rw [State.replying] at hln
  simp only [State.replyDelivery, h, hk, ne_eq, not_true_eq_false, if_false, hb, hln, hs, Bool.false_and, Bool.false_eq_true]
  rfl

/-- A reply with a slot that its core may write stores its payload there first (R280). -/
theorem State.replyDelivery_writes (hs : m.reply.getLsbD 14 = true)
    (hp : s.permitted p.dst false 0 (m.reply.toNat / 2 ^ 3 % 2 ^ 11 * 64) 48 .write = true) : s.replyDelivery k =
    (((s.replyBase k send ⟨p.dst, m.pos⟩ (m.reply.toNat / 2 ^ 3 % 2 ^ 11 * 64)).poke
        (flatTcm ⟨p.dst, m.pos⟩ (m.reply.toNat / 2 ^ 3 % 2 ^ 11 * 64)) m.payload).reinRelease ⟨p.dst, m.pos⟩
          (m.reply.toNat / 2 ^ 15 % 2 ^ 8) m.hb).signal ⟨p.dst, m.pos⟩ (m.reply.toNat / 2 ^ 15 % 2 ^ 8) 1 false := by
  have hln : (((s.replying k send).core ⟨p.dst, m.pos⟩).launch).isNone = false := by rw [s.core_replying]; simpa using hl
  have hpr : (s.replying k send).permitted p.dst false 0 (natBits m.reply.toNat 3 11 * 64) 48 .write = true := by
    rw [State.permitted_congr (s := s) fun b _ => by rw [State.byte, s.mem_replying, State.byte]]
    exact hp
  rw [State.replying] at hln hpr
  simp only [State.replyDelivery, h, hk, ne_eq, not_true_eq_false, if_false, hb, hln, hs, hpr, Bool.not_true, Bool.and_false, Bool.false_eq_true,
    if_true]
  rfl

end

theorem State.replyBase_frame (s : State) (k : Nat) (send : Option Nat) (c : CoreId) (off : Nat) (e : CtxId) (d : Touch) :
    Frame s (s.replyBase k send c off) e d := ((Frame.replying s k send e d).commitOthers _ _ _ _).trimRels _ _

theorem State.rein_replyBase (s : State) (k : Nat) (send : Option Nat) (c : CoreId) (off : Nat) :
    ((s.replyBase k send c off).core c).rein = (s.core c).rein := by
  have htrim : ∀ (u : State) lo hi, (u.trimRels lo hi).core c = u.core c := fun _ _ _ => rfl
  rw [State.replyBase, htrim, State.rein_commitOthers, s.core_replying]

theorem State.replyBase_canon (w : s.memOk) (k : Nat) (send : Option Nat) (c : CoreId) (off : Nat) : (s.replyBase k send c off).Canon := by
  have h : s.Canon := ⟨w⟩
  exact h.dropPacket.answerSend.commitOthers.trimRels

/-- What a write to a TCM stores, and what it leaves. -/
theorem State.poke_stores {u : State} {a : Nat} (w : u.memOk) (ha : flatKind a = 0) (hf : Frame s u e d) {l : List Byte} (hlo : d.lo ≤ a)
    (hhi : a + l.length ≤ d.hi) : Frame s (u.poke a l) e d ∧ (u.poke a l).bytes a l.length = l ∧ (u.poke a l).cores = u.cores := by
  obtain ⟨q, hq⟩ := u.poke_tcm (l := l) ha
  have hp : Frame s { u with poison := q } e d := hf.other rfl rfl
  rw [hq]
  exact ⟨hp.storeBytes w hlo hhi, State.bytes_storeBytes _ _ _ w, rfl⟩

end

/-- Settles O47, clause by clause: arrivals, retries, answers and replies. -/
theorem messagesAreDelivered : Obligations.MessagesAreDelivered := by
  unfold Obligations.MessagesAreDelivered
  refine ⟨?arrival, ?retry, ?answer, ?reply⟩
  case arrival =>
    intro s p m tries send h hk hb hg c
    refine ⟨fun hn hroom hover => ?_, fun hn htries hr => ?_⟩
    · obtain ⟨hq, hnet, hframe⟩ := State.acceptTask_queues (s := s.dropPacket s.ev.k) (m := m) (c := c) hroom
      obtain ⟨l, hl⟩ := ((s.dropPacket s.ev.k).acceptTask m c).answerSend_eq send none false
      have hx : exec .taskArrival s = .next (((s.dropPacket s.ev.k).acceptTask m c).answerSend send none false) :=
        congrArg Host.Outcome.next (State.taskArrival_accepts h hk hb hg (.inr hover) hn)
      have hf : Frame s (s.dropPacket s.ev.k) ⟨c, 0⟩ Touch.none := (Frame.refl ..).other rfl rfl
      refine ⟨_, m.task c ((s.core c).arrivals % 2 ^ 32), ⟨hx, (hf.trans (hframe _ _)).answerSend _ _ _⟩, ?_, rfl, rfl, ?_, rfl, rfl, rfl, ?_⟩
      · rw [hl]
        exact hq
      · simp only [Msg.task, BitVec.toNat_setWidth]
        omega
      · rw [hl]
        intro q hqm
        exact s.not_mem_dropPacket s.ev.k q (hnet ▸ hqm)
    · have hp := State.packet_of_arrivedMsg h
      have hx : exec .taskArrival s = .next (s.sendBack p m.src (tries + 1) (.msg m (tries + 1) send)) :=
        congrArg Host.Outcome.next ((State.taskArrival_refuses h hk hb hg hr hn).trans (if_pos ⟨rfl, htries⟩))
      obtain ⟨q, hq, hpl, hat, hretry⟩ := State.packet_sendBack hp m.src (tries + 1) (.msg m (tries + 1) send)
      exact ⟨_, q, ⟨hx, (Frame.refl ..).other rfl rfl⟩, hq, hpl, hat, hretry, rfl⟩
  case retry =>
    intro s p m tries at_ send hp hpl hretry
    by_cases hle : at_ ≤ s.edges
    · have hx : exec .messageRetry s = .next (s.restart { p with retry := none }) := by
        refine congrArg Host.Outcome.next ?_
        simp only [State.packetRetry, hp, hpl, hretry, hle, and_self, if_true]
      have hid : p.id = s.ev.k := Packet.id_of_packet hp
      obtain ⟨q, hq, hqpl, hqretry, hqat, hqdst, hqseq⟩ := State.packet_restart (x := { p with retry := none }) hp hid
      refine ⟨_, ⟨hx, (Frame.refl ..).other rfl rfl⟩, ?_⟩
      rw [if_pos hle]
      exact ⟨q, hq, hqpl, hqretry, hqat, hqdst, hqseq⟩
    · have hx : exec .messageRetry s = .next s := by
        refine congrArg Host.Outcome.next ?_
        simp only [State.packetRetry, hp, hpl, hretry, hle, false_and, if_false]
      exact ⟨s, ⟨hx, Frame.refl ..⟩, by rw [if_neg hle]⟩
  case answer =>
    intro s r i since hf hl hgo hbuf hlate hst hg hd hh s1
    cases hfail : r.fail with
    | none =>
      refine congrArg Host.Outcome.next ((State.deliveryAnswer_completes hf hl hgo hbuf hst hlate hfail).trans ?_)
      exact State.finishWaiting_alone (s := s1) hg hd
    | some x =>
      obtain ⟨u, code⟩ := x
      exact congrArg Host.Outcome.next (State.deliveryAnswer_traps hf hl hgo hbuf hst hg hfail (hh (by rw [hfail]; exact Option.some_ne_none _)))
  case reply =>
    intro s p m tries send h hk hb hdst hpos c n off hl
    refine ⟨fun hs => ?_, fun hs hp w => ?_⟩
    · have hx : exec .replyDelivery s = .next (((s.replying s.ev.k send).reinRelease c n m.hb).signal c n 1 false) :=
        congrArg Host.Outcome.next (State.replyDelivery_counts h hk hb hl hs)
      refine ⟨_, ⟨hx, ((Frame.replying ..).reinRelease _ _ _).signal _ _ _ _⟩, ?_, fun q hq => ?_⟩
      · rw [State.replied, s.core_replying]
      · rw [State.net_signal, State.net_reinRelease, s.net_replying] at hq
        exact s.not_mem_dropPacket _ q hq
    · have hx : exec .replyDelivery s =
          .next ((((s.replyBase s.ev.k send c off).poke (flatTcm c off) m.payload).reinRelease c n m.hb).signal c n 1 false) :=
        congrArg Host.Outcome.next (State.replyDelivery_writes h hk hb hl hs hp)
      have hoff : off < 2 ^ 17 := by simp only [off]; omega
      obtain ⟨hkind, -, -⟩ := flatTcm_parts (k := c) ⟨hdst, hpos⟩ hoff
      obtain ⟨hf, hbytes, hcores⟩ := State.poke_stores (e := ⟨c, 0⟩)
        (d := { Touch.none with lo := flatTcm c off, hi := flatTcm c off + m.payload.length }) (State.replyBase_canon w s.ev.k send c off).wf hkind
        (State.replyBase_frame ..) (l := m.payload) (le_refl (flatTcm c off)) (le_refl (flatTcm c off + m.payload.length))
      refine ⟨_, ⟨hx, (hf.reinRelease _ _ _).signal _ _ _ _⟩, ?_, ?_⟩
      · rw [State.bytes_of_mem ((State.mem_signal ..).trans (State.mem_reinRelease ..)), hbytes]
      · have hrein : (((s.replyBase s.ev.k send c off).poke (flatTcm c off) m.payload).core c).rein = (s.core c).rein := by
          rw [State.core, hcores, ← State.core, s.rein_replyBase]
        rw [State.replied, Core.reinAt_of_rein hrein]

end Sys2Proof.Machine
end

