-- ==== Sys2Proof/Proofs/WorkStarts.lean ====
section
/-! The order in which a core starts its work, and the entries that it steals or takes back (R31, R350, R351, Table 106). -/

namespace Sys2Proof.Machine

open Sys2Proof

/-! The earliest arrival. -/

theorem foldl_earlier (l : List Task) (t : Task) : l.foldl earlier t ∈ t :: l ∧ ∀ x ∈ t :: l, (l.foldl earlier t).seq ≤ x.seq := by
  induction l generalizing t with
  | nil => simp
  | cons a r ih =>
    obtain ⟨hmem, hle⟩ := ih (earlier t a)
    have he : earlier t a ∈ [t, a] ∧ (earlier t a).seq ≤ t.seq ∧ (earlier t a).seq ≤ a.seq := by
      unfold earlier
      split
      · exact ⟨by simp, by omega, le_refl _⟩
      · exact ⟨by simp, le_refl _, by omega⟩
    obtain ⟨hin, hlt, hla⟩ := he
    refine ⟨?_, fun x hx => ?_⟩
    · obtain h | h := List.mem_cons.1 hmem
      · rw [List.foldl_cons, h]
        have : t :: a :: r = [t, a] ++ r := rfl
        rw [this]
        exact List.mem_append_left r hin
      · exact List.mem_cons_of_mem t (List.mem_cons_of_mem a h)
    · have h0 := hle (earlier t a) List.mem_cons_self
      obtain rfl | hx := List.mem_cons.1 hx
      · exact h0.trans hlt
      · obtain rfl | hx := List.mem_cons.1 hx
        · exact h0.trans hla
        · exact hle x (List.mem_cons_of_mem _ hx)

/-- The first task of a list that is not empty is the earliest of it. -/
theorem firstTask_spec {l : List Task} (h : l ≠ []) : ∃ t, firstTask l = some t ∧ t ∈ l ∧ ∀ x ∈ l, t.seq ≤ x.seq := by
  cases l with
  | nil => exact absurd rfl h
  | cons a r => exact ⟨_, rfl, foldl_earlier r a⟩

/-- The highest priority of a list of tasks. -/
theorem foldl_max_prio (l : List Task) (n : Nat) : n ≤ l.foldl (fun m t => max m t.prio) n ∧
    (∀ x ∈ l, x.prio ≤ l.foldl (fun m t => max m t.prio) n) ∧
    (l.foldl (fun m t => max m t.prio) n = n ∨ ∃ x ∈ l, l.foldl (fun m t => max m t.prio) n = x.prio) := by
  induction l generalizing n with
  | nil => simp
  | cons a r ih =>
    obtain ⟨h1, h2, h3⟩ := ih (max n a.prio)
    simp only [List.foldl_cons, List.mem_cons]
    refine ⟨by omega, fun x hx => ?_, ?_⟩
    · obtain rfl | hx := hx
      · omega
      · exact h2 x hx
    · obtain h | ⟨x, hx, h⟩ := h3
      · by_cases hn : n ≤ a.prio
        · exact Or.inr ⟨a, Or.inl rfl, by omega⟩
        · exact Or.inl (by omega)
      · exact Or.inr ⟨x, Or.inr hx, h⟩

/-! The choice of work (Table 106). -/

theorem firstTask_nil {l : List Task} (h : l = []) : firstTask l = none := by rw [h]; rfl

/-- A core's next work, rank by rank (R350). -/
theorem Core.nextWork_order (k : Core) : let q := k.runq.filter k.eligible
    let first := fun (l : List Task) (t : Task) => t ∈ l ∧ ∀ x ∈ l, t.seq ≤ x.seq
    let old := q.filter (fun t => decide (16 ≤ t.passed))
    let urgent := q.filter (fun t => t.prio == 3)
    (old ≠ [] → ∃ t, k.nextWork = some (.task t) ∧ first old t) ∧
    (old = [] → urgent ≠ [] → ∃ t, k.nextWork = some (.task t) ∧ first urgent t) ∧
    (old = [] → urgent = [] → ∀ d r, k.deque = d :: r → k.nextWork = some (.entry d)) ∧
    (old = [] → urgent = [] → k.deque = [] → q ≠ [] → ∃ t, k.nextWork = some (.task t) ∧ t ∈ q ∧ (∀ x ∈ q, x.prio ≤ t.prio) ∧
      ∀ x ∈ q, x.prio = t.prio → t.seq ≤ x.seq) ∧
    (q = [] → k.deque = [] → k.nextWork = none) := by
  intro q first old urgent
  refine ⟨fun ho => ?_, fun ho hu => ?_, fun ho hu d r hd => ?_, fun ho hu hd hq => ?_, fun hq hd => ?_⟩
  · obtain ⟨t, ht, hspec⟩ := firstTask_spec ho
    exact ⟨t, by simp only [Core.nextWork]; rw [ht], hspec⟩
  · obtain ⟨t, ht, hspec⟩ := firstTask_spec hu
    exact ⟨t, by simp only [Core.nextWork]; rw [firstTask_nil ho, ht], hspec⟩
  · simp only [Core.nextWork]
    rw [firstTask_nil ho, firstTask_nil hu, hd]
  · obtain ⟨-, hmax, htop⟩ := foldl_max_prio q 0
    have hne : q.filter (fun t => t.prio == q.foldl (fun m t => max m t.prio) 0) ≠ [] := by
      obtain ⟨a, r, hqa⟩ := List.exists_cons_of_ne_nil hq
      have ha : a ∈ q := by rw [hqa]; exact List.mem_cons_self
      have hex : ∃ x ∈ q, x.prio = q.foldl (fun m t => max m t.prio) 0 := by
        obtain h0 | ⟨x, hx, h⟩ := htop
        · exact ⟨a, ha, by have := hmax a ha; omega⟩
        · exact ⟨x, hx, h.symm⟩
      obtain ⟨x, hx, hxp⟩ := hex
      exact List.ne_nil_of_mem (List.mem_filter.2 ⟨hx, beq_iff_eq.2 hxp⟩)
    obtain ⟨t, ht, hmem, hfirst⟩ := firstTask_spec hne
    obtain ⟨htq, htp⟩ := List.mem_filter.1 hmem
    have htp := beq_iff_eq.1 htp
    refine ⟨t, ?_, htq, fun x hx => (hmax x hx).trans (le_of_eq htp.symm), fun x hx hxp => ?_⟩
    · simp only [Core.nextWork]
      rw [firstTask_nil ho, firstTask_nil hu, hd, ht]
      rfl
    · exact hfirst x (List.mem_filter.2 ⟨hx, beq_iff_eq.2 (hxp.trans htp)⟩)
  · have hnone : ∀ f, firstTask ((k.runq.filter k.eligible).filter f) = none := fun f =>
      firstTask_nil (by rw [show k.runq.filter k.eligible = [] from hq, List.filter_nil])
    simp only [Core.nextWork, hnone, hd, Option.map_none]

/-! Starting work. -/

/-- A start leaves the run queues and the deques. -/
theorem State.queues_started {s : State} {c : CtxId} {l : CoreLaunch} (hl : (s.core c.core).launch = some l) (x : Start) (d : CoreId) :
    ((s.startHelper c x).core d).runq = (s.core d).runq ∧ ((s.startHelper c x).core d).deque = (s.core d).deque := by
  obtain ⟨-, -, hstill⟩ := State.started hl x
  have hq := congrArg Core.runq (hstill d)
  have hd := congrArg Core.deque (hstill d)
  exact ⟨hq, hd⟩

section
variable {s : State} {c : CoreId} {h : Nat} {l : CoreLaunch}

/-- The state in which a core starts a task: it has left the run queue, and the others are passed over. -/
def State.takingTask (s : State) (c : CoreId) (t : Task) : State :=
  s.modCore c (fun k => { (k.pass (some t.seq)) with runq := (k.pass (some t.seq)).runq.filter (fun x => x.seq != t.seq) })

/-- The state in which a core starts the bottom entry of its deque. -/
def State.takingEntry (s : State) (c : CoreId) : State := s.modCore c (fun k => { (k.pass none) with deque := k.deque.drop 1 })

/-- The state in which the top entry of a core's deque is stolen (R351). -/
def State.stealing (s : State) (v : CoreId) : State := s.modCore v (fun k => { k with deque := k.deque.dropLast })

section
variable (hm : s.mayStart c = true) (hf : s.freeHelperOf c = some h) (hl : (s.core c).launch = some l)
include hm hf hl

theorem State.workStart_task {t : Task} (hn : (s.core c).nextWork = some (.task t)) : let u := s.workStart c
    Claim.Started s u l ⟨c, h⟩ t.start.pc t.start.regs ∧ (∀ x ∈ (u.core c).runq, x.seq ≠ t.seq) ∧ (u.core c).deque = (s.core c).deque := by
  have hu : s.workStart c = (s.takingTask c t).startHelper ⟨c, h⟩ t.start := by
    simp only [State.workStart, hm, hf, hn, Bool.not_true, Bool.false_eq_true, if_false]
    rfl
  have hl' : ((s.takingTask c t).core (⟨c, h⟩ : CtxId).core).launch = some l := by
    rw [State.takingTask, State.core_modCore_same]
    exact hl
  obtain ⟨hq, hd⟩ := State.queues_started hl' t.start c
  intro u
  simp only [u, hu]
  refine ⟨(State.started hl' t.start).1, fun x hx => ?_, ?_⟩
  · rw [hq, State.takingTask, State.core_modCore_same] at hx
    simpa using (List.mem_filter.1 hx).2
  · rw [hd, State.takingTask, State.core_modCore_same]
    rfl

theorem State.workStart_entry {d : DqEntry} (hn : (s.core c).nextWork = some (.entry d)) : let u := s.workStart c
    Claim.Started s u l ⟨c, h⟩ d.start.pc d.start.regs ∧ (u.core c).deque = (s.core c).deque.drop 1 ∧
      (u.core c).runq.map (fun x => x.seq) = (s.core c).runq.map (fun x => x.seq) := by
  have hu : s.workStart c = (s.takingEntry c).startHelper ⟨c, h⟩ d.start := by
    simp only [State.workStart, hm, hf, hn, Bool.not_true, Bool.false_eq_true, if_false]
    rfl
  have hl' : ((s.takingEntry c).core (⟨c, h⟩ : CtxId).core).launch = some l := by
    rw [State.takingEntry, State.core_modCore_same]
    exact hl
  obtain ⟨hq, hd⟩ := State.queues_started hl' d.start c
  intro u
  simp only [u, hu]
  refine ⟨(State.started hl' d.start).1, ?_, ?_⟩
  · rw [hd, State.takingEntry, State.core_modCore_same]
  · rw [hq, State.takingEntry, State.core_modCore_same, Core.pass, List.map_map]
    refine List.map_congr_left fun x _ => ?_
    simp only [Function.comp_apply]
    split <;> rfl

end

/-- A core of the tile whose entry is stolen is another core (R351). -/
theorem State.stealFrom_other {v : CoreId} (hv : s.stealFrom c = some v) : v.vt = c.vt ∧ v ≠ c := by
  have hmem := List.mem_of_find?_eq_some hv
  obtain ⟨i, hi, rfl⟩ := List.mem_map.1 hmem
  have hlt := List.mem_range.1 hi
  refine ⟨rfl, fun he => ?_⟩
  have hpos := congrArg CoreId.pos he
  simp only at hpos
  omega

theorem State.stealProbe_starts {v : CoreId} {d : DqEntry} {ds : List DqEntry} (hm : s.maySteal c = true) (hf : s.freeHelperOf c = some h)
    (hl : (s.core c).launch = some l) (hv : s.stealFrom c = some v) (hd : (s.core v).deque = ds ++ [d]) : let u := s.stealProbe c
    Claim.Started s u l ⟨c, h⟩ d.start.pc d.start.regs ∧ (u.core v).deque = ds := by
  have hlast : (s.core v).deque.getLast? = some d := by rw [hd, List.getLast?_concat]
  have hu : s.stealProbe c = (s.stealing v).startHelper ⟨c, h⟩ d.start := by
    simp only [State.stealProbe, hm, hf, hv, hlast, Bool.not_true, Bool.false_eq_true, if_false]
    rfl
  have hl' : ((s.stealing v).core (⟨c, h⟩ : CtxId).core).launch = some l := by
    rw [State.stealing, ← hl]
    refine s.core_modCore_proj v _ Core.launch ?_ c
    exact fun _ => rfl
  obtain ⟨-, hq⟩ := State.queues_started hl' d.start v
  intro u
  simp only [u, hu]
  refine ⟨(State.started hl' d.start).1, ?_⟩
  rw [hq, State.stealing, State.core_modCore_same]
  exact (congrArg List.dropLast hd).trans List.dropLast_concat

/-- A task that comes back from the overflow area has the number of its arrival in the run queue. -/
def State.backTask (s : State) (c : CoreId) (o : Nat × Task) : Task := { o.2 with seq := (s.core c).arrivals % 2 ^ 32 }

/-- The state in which a task of the overflow area stands in the run queue again (R31). -/
def State.takingBack (s : State) (c : CoreId) (o : Nat × Task) : State :=
  (s.modCore c (fun k => { k with runq := k.runq ++ [s.backTask c o], arrivals := k.arrivals + 1 })).modTile c.vt
    (fun x => { x with overflow := x.overflow.erase o })

theorem State.reenter_takes {o : Nat × Task} (ho : (s.tile c.vt).overflow.find? (fun x => x.1 == c.pos) = some o)
    (hroom : (s.core c).runq.length < 32) (hs : (s.tile c.vt).stopped = false) : s.reenter c = (s.takingBack c o).wakeFor c o.2.cls := by
  simp only [State.reenter, ho, hs, Bool.false_eq_true, or_false, if_neg (Nat.not_le.2 hroom)]
  rfl

theorem State.takingBack_eq (s : State) (c : CoreId) (o : Nat × Task) :
    (s.takingBack c o).ctxs = s.ctxs ∧ (s.takingBack c o).mem = s.mem ∧
      ((s.takingBack c o).core c).runq = (s.core c).runq ++ [s.backTask c o] ∧
      ((s.takingBack c o).tile c.vt).overflow = (s.tile c.vt).overflow.erase o := by
  have hcore : ∀ (u : State) vt f, (u.modTile vt f).core c = u.core c := fun _ _ _ => rfl
  refine ⟨rfl, rfl, ?_, ?_⟩
  · rw [State.takingBack, hcore, State.core_modCore_same]
  · rw [State.takingBack, State.tile_modTile_same]
    rfl

theorem State.tile_wakeFor (s : State) (c : CoreId) (cls vt : Nat) : (s.wakeFor c cls).tile vt = s.tile vt := by
  rw [State.wakeFor]
  split
  · have h := ((Quiet.refl s (fun _ => False)).wakeCore c).tiles
    simp only [State.tile, h]
  · rfl

end

/-- Settles O48: the choice of work by the earliest of its rank, and the starts by what a started helper receives. -/
theorem workStarts : Obligations.WorkStarts := by
  unfold Obligations.WorkStarts
  refine ⟨Core.nextWork_order, ?start, ?steal, ?back⟩
  case start =>
    intro s h l c hm hf hl
    exact ⟨fun t hn => ⟨_, rfl, State.workStart_task hm hf hl hn⟩, fun d hn => ⟨_, rfl, State.workStart_entry hm hf hl hn⟩⟩
  case steal =>
    intro s h l v d ds c hm hf hl hv hd
    obtain ⟨hvt, hne⟩ := State.stealFrom_other hv
    exact ⟨hvt, hne, _, rfl, State.stealProbe_starts hm hf hl hv hd⟩
  case back =>
    intro s o c ho hroom hs
    have hx : exec .overflowReentry s = .next ((s.takingBack c o).wakeFor c o.2.cls) := congrArg Host.Outcome.next (State.reenter_takes ho hroom hs)
    obtain ⟨hctxs, hmem, hrunq, htile⟩ := s.takingBack_eq c o
    have hf : Frame s (s.takingBack c o) ⟨c, 0⟩ Touch.none := (Frame.refl ..).other hctxs hmem
    refine ⟨_, s.backTask c o, ⟨hx, hf.wakeFor _ _⟩, ?_, rfl, rfl, rfl, rfl, ?_⟩
    · rw [State.core, State.cores_wakeFor, ← State.core, hrunq]
    · rw [State.tile_wakeFor, htile]

end Sys2Proof.Machine
end

