-- ==== Sys2Proof/Proofs/SystemRegisters.lean ====
section
/-! System registers and task classes (R35–R52, R294, R296). -/

namespace Sys2Proof.Machine

open Sys2Proof

/-! The flags of a tile, and what a beginning instruction leaves of every register. -/

/-- What holds of an entry of a table holds of one after a write that changes nothing about it. -/
theorem Tab.any_set {α : Type} (t : Tab α) (k : Nat) (x : α) (P : Nat × α → Bool) (hs : ∀ y, Tab.find t k = some y → P (k, x) = P (k, y))
    (hn : Tab.find t k = none → P (k, x) = false) : List.any (Tab.set t k x) P = List.any t P := by
  have hmem : ∀ (u : Tab α) y, Tab.find u k = some y → (k, y) ∈ (u : List (Nat × α)) := fun u y hy => by
    induction u with
    | nil => cases hy
    | cons p r ih =>
      obtain ⟨j, z⟩ := p
      by_cases hj : j = k
      · simp only [Tab.find, hj, if_true, Option.some.injEq] at hy
        rw [hj, hy]
        exact List.mem_cons_self
      · simp only [Tab.find, hj, if_false] at hy
        exact List.mem_cons_of_mem _ (ih hy)
  induction t with
  | nil => simpa [Tab.set] using hn rfl
  | cons p r ih =>
    obtain ⟨j, z⟩ := p
    by_cases hlt : k < j
    · simp only [Tab.set, hlt, if_true]
      rw [List.any_cons]
      cases hf : Tab.find ((j, z) :: r) k with
      | none => rw [hn hf, Bool.false_or]
      | some y =>
        rw [hs y hf]
        cases hp : P (k, y) with
        | false => rw [Bool.false_or]
        | true => rw [Bool.true_or, eq_comm, List.any_eq_true]; exact ⟨_, hmem _ y hf, hp⟩
    · by_cases hj : j = k
      · subst hj
        have hz := hs z (by simp only [Tab.find, if_true])
        simp only [Tab.set, lt_irrefl, if_false, if_true, List.any_cons, hz]
      · have hfind : Tab.find ((j, z) :: r) k = Tab.find r k := by simp only [Tab.find, hj, if_false]
        simp only [Tab.set, hlt, hj, if_false, List.any_cons]
        rw [ih (fun y hy => hs y (hfind.trans hy)) fun hy => hn (hfind.trans hy)]

/-- A bit of an OR over a list. -/
theorem getLsbD_foldl_or {α : Type} {w : Nat} (l : List α) (g : α → BitVec w) (a : BitVec w) (i : Nat) :
    (l.foldl (fun f x => f ||| g x) a).getLsbD i = (a.getLsbD i || l.any fun x => (g x).getLsbD i) := by
  induction l generalizing a with
  | nil => simp
  | cons x r ih => rw [List.foldl_cons, ih, BitVec.getLsbD_or, List.any_cons, Bool.or_assoc]

/-- What a helper's slot gives to the flags of its tile (R46). -/
def Ctx.given (k : Ctx) : BitVec 5 := if k.st.live then k.ff else k.kept

theorem State.tileOr_modCtx (s : State) (c : CtxId) (f : Ctx → Ctx) (hf : ∀ k, (f k).given = k.given) (vt : Nat) :
    (s.modCtx c f).tileOr vt = s.tileOr vt := by
  have hz : ∀ i, (Ctx.reset i).given = 0 := fun i => by
    unfold Ctx.reset Ctx.given
    split <;> rfl
  refine BitVec.eq_of_getLsbD_eq fun i _ => ?_
  simp only [State.tileOr]
  rw [getLsbD_foldl_or, getLsbD_foldl_or, List.any_filter, List.any_filter]
  congr 1
  refine Tab.any_set s.ctxs c.key (f (s.ctx c)) _ (fun y hy => ?_) fun hy => ?_
  · have hc : s.ctx c = y := by rw [State.ctx, Tab.get, hy]; rfl
    have := hf (s.ctx c)
    rw [hc] at this
    simp only [Ctx.given] at this
    simp only [hc, this]
  · have hc : s.ctx c = Ctx.reset c.ctx := by rw [State.ctx, Tab.get, hy]; rfl
    have := (hf (s.ctx c)).trans (hc ▸ hz c.ctx)
    simp only [Ctx.given] at this
    simp only [this]
    simp

section
variable (s : State) (row : Instr) (vt : Nat)

theorem State.tileOr_modHb (c : CtxId) (f : Hb → Hb) : (s.modHb c f).tileOr vt = s.tileOr vt := by
  refine s.tileOr_modCtx c _ ?_ vt
  exact fun _ => rfl

theorem State.tileOr_reinTaken (c : CtxId) (n : Nat) : (s.reinTaken c n).tileOr vt = s.tileOr vt := by
  have ha : ∀ i, (s.acquireInfo c i).tileOr vt = s.tileOr vt := fun i => s.tileOr_modHb vt c _
  have hn : ∀ u : State, (u.newInterval c).tileOr vt = u.tileOr vt := fun _ => rfl
  simp only [State.reinTaken]
  split
  · rfl
  · split
    · refine (State.tileOr_modCtx _ c _ ?_ vt).trans ((hn _).trans (ha _))
      exact fun _ => rfl
    · exact ha _

theorem State.tileOr_syncTaken (o : Fields) (l : List CtxId) : (s.syncTaken o l).tileOr vt = s.tileOr vt := by
  induction l generalizing s with
  | nil => rfl
  | cons c r ih =>
    simp only [State.syncTaken]
    split
    · rfl
    · rw [ih, State.tileOr_reinTaken]

theorem State.tileOr_taken : (s.taken row).tileOr vt = s.tileOr vt := by
  have hb : ∀ (u : State) c o i, (u.beginAccess c row o i).tileOr vt = u.tileOr vt := fun u c o i => by
    simp only [State.beginAccess]
    split
    · rfl
    · exact u.tileOr_modHb vt c _
  rw [State.taken, hb, State.synced, State.tileOr_syncTaken]

/-- The fields of a context that system registers read. -/
def Ctx.special (k : Ctx) : Word × Word × Word × Word × BitVec 32 × BitVec 3 × BitVec 5 × Bool × Word :=
  (k.cause, k.trapPc, k.trapVal, k.trapTag, k.seed, k.mode, k.ff, k.sup, k.lpct)

/-- A system register depends on the state beside its contexts, on its own context's fields, and on the flags of the tile. -/
theorem State.sysRead_congr {s t : State} {c : CtxId} (hb : t.bare = s.bare) (hk : (t.ctx c).special = (s.ctx c).special)
    (ho : t.tileOr c.core.vt = s.tileOr c.core.vt) (n : Nat) : t.sysRead c n = s.sysRead c n := by
  simp only [Ctx.special, Prod.mk.injEq] at hk
  obtain ⟨hcause, hpc, hval, htag, hseed, hmode, hff, hsup, hlpct⟩ := hk
  have hcore : t.core c.core = s.core c.core := State.eq_of_bare (fun x => x.core c.core) (fun _ => rfl) hb
  have htile : t.tile c.core.vt = s.tile c.core.vt := State.eq_of_bare (fun x => x.tile c.core.vt) (fun _ => rfl) hb
  have hpace : t.paceAt c.core.vt = s.paceAt c.core.vt := State.eq_of_bare (fun x => x.paceAt c.core.vt) (fun _ => rfl) hb
  have hedges : t.edgesAt c.core.vt = s.edgesAt c.core.vt := State.eq_of_bare (fun x => x.edgesAt c.core.vt) (fun _ => rfl) hb
  have hvdie : t.vdie (dieOf c.core.vt) = s.vdie (dieOf c.core.vt) := State.eq_of_bare (fun x => x.vdie (dieOf c.core.vt)) (fun _ => rfl) hb
  have hharvest : t.harvest (dieOf c.core.vt) = s.harvest (dieOf c.core.vt) :=
    State.eq_of_bare (fun x => x.harvest (dieOf c.core.vt)) (fun _ => rfl) hb
  have hlogical : t.logical (dieOf c.core.vt) c.core.pos = s.logical (dieOf c.core.vt) c.core.pos :=
    State.eq_of_bare (fun x => x.logical (dieOf c.core.vt) c.core.pos) (fun _ => rfl) hb
  have hpend : t.classPend c.core = s.classPend c.core := State.eq_of_bare (fun x => x.classPend c.core) (fun _ => rfl) hb
  have hack : t.featAck = s.featAck := State.eq_of_bare State.featAck (fun _ => rfl) hb
  have hctxid : t.ctxid c = s.ctxid c := by simp only [State.ctxid, hlogical, hsup]
  simp only [State.sysRead, hcore, htile, ho, hcause, hpc, hval, htag, hseed, hmode, hff, hsup, hlpct, hpace, hedges, hvdie, hharvest, hctxid, hpend,
    hack]

/-- Beginning an instruction changes no system register. -/
theorem State.sysRead_taken (c : CtxId) (n : Nat) : (s.taken row).sysRead c n = s.sysRead c n :=
  State.sysRead_congr (s.bare_taken row) (s.ctx_taken_proj row Ctx.special (fun _ => rfl) c) (s.tileOr_taken row c.core.vt) n

/-- Nor does a write of a scalar register. -/
theorem State.sysRead_ws (c : CtxId) (r : BitVec 5) (v : Word) (n : Nat) : (s.ws c r v).sysRead c n = s.sysRead c n := by
  rw [State.ws]
  split
  · rfl
  · apply State.sysRead_congr
    · rfl
    · rw [State.ctx_modCtx_same]
      rfl
    · refine s.tileOr_modCtx c _ ?_ c.core.vt
      exact fun _ => rfl

/-- Nor what the checks of a write depend on. -/
theorem State.sysCheck_taken (c : CtxId) (n : Nat) (w : Word) : (s.taken row).sysCheck c n w = s.sysCheck c n w :=
  State.eq_of_bare (fun x => x.sysCheck c n w) (fun _ => rfl) (s.bare_taken row)

end

/-! Writes. -/

/-- The registers without behaviour of their own (R39–R52). -/
def plainRegs : List Nat := [0x0b, 0x0c, 0x0d, 0x0e, 0x0f, 0x10, 0x11, 0x13, 0x15, 0x17, 0x18, 0x19, 0x1a]

/-- What such a register reads of its context and its core. -/
def plainRead (k : Ctx) (q : Core) : Nat → Word
  | 0x0b => k.cause
  | 0x0c => k.trapPc
  | 0x0d => k.trapVal
  | 0x0e => k.trapTag
  | 0x0f => q.trapVec
  | 0x10 => q.upcallVec
  | 0x11 => BitVec.ofNat 64 (k.seed.toNat * 2 ^ 32 + k.mode.toNat)
  | 0x13 => k.lpct
  | 0x15 => q.classEn.setWidth 64
  | 0x17 => q.waitLim.setWidth 64
  | 0x18 => q.barRect.setWidth 64
  | 0x19 => q.detmode.setWidth 64
  | 0x1a => if q.ctlPrio then 1 else 0
  | _ => 0

/-- What a write of a register makes of its context. -/
def Ctx.regWritten (k : Ctx) (w : Word) : Nat → Ctx
  | 0x0b => { k with cause := w }
  | 0x0c => { k with trapPc := w }
  | 0x0d => { k with trapVal := w }
  | 0x0e => { k with trapTag := w }
  | 0x11 => { k with mode := w.setWidth 3, seed := w.extractLsb' 32 32 }
  | 0x12 => { k with ff := w.setWidth 5 }
  | 0x13 => { k with lpct := w }
  | _ => k

/-- What a write of a register makes of its core. -/
def Core.regWritten (q : Core) (w : Word) : Nat → Core
  | 0x0f => { q with trapVec := w }
  | 0x10 => { q with upcallVec := w }
  | 0x14 =>
    { q with decIdx := w.extractLsb' 40 8, dec := if w.getLsbD 63 then q.dec.set (w.extractLsb' 40 8 : BitVec 8).toNat (w.setWidth 19) else q.dec }
  | 0x15 => { q with classEn := w.setWidth 16 }
  | 0x17 => { q with waitLim := w.setWidth 32 }
  | 0x18 => { q with barRect := w.setWidth 16 }
  | 0x19 => { q with detmode := w.setWidth 3 }
  | 0x1a => { q with ctlPrio := w.getLsbD 0 }
  | _ => q

section
variable (s : State) (c : CtxId) (w : Word)

theorem State.sysRead_plain {n : Nat} (h : n ∈ plainRegs) : s.sysRead c n = plainRead (s.ctx c) (s.core c.core) n := by
  simp only [plainRegs, List.mem_cons, List.not_mem_nil, or_false] at h
  rcases h with rfl | rfl | rfl | rfl | rfl | rfl | rfl | rfl | rfl | rfl | rfl | rfl | rfl <;> rfl

/-- What a new slice map leaves (R443). -/
theorem State.remap_keeps (vd : Nat) : (s.remap vd).ctxs = s.ctxs ∧ (s.remap vd).cores = s.cores ∧ (s.remap vd).tiles = s.tiles := by
  have hback : ∀ (u : State) f, (u.writeBack f).ctxs = u.ctxs ∧ (u.writeBack f).cores = u.cores ∧ (u.writeBack f).tiles = u.tiles :=
    fun _ _ => ⟨rfl, rfl, rfl⟩
  have hslices : ∀ gen, (s.writeSlices vd gen).ctxs = s.ctxs ∧ (s.writeSlices vd gen).cores = s.cores ∧
      (s.writeSlices vd gen).tiles = s.tiles := fun gen => by
      simp only [State.writeSlices, State.store, State.storeBytes_ctxs, State.storeBytes_cores, State.storeBytes_tiles, and_self]
  unfold State.remap
  extract_lets t
  obtain ⟨h1, h2, h3⟩ := hback t (fun x => s.lineDie (x * 64) == vd && s.sliceOf vd (flatPa (x * 64)) != t.sliceOf vd (flatPa (x * 64)))
  obtain ⟨k1, k2, k3⟩ := hslices ((s.load (flatCommons vd 0x7fea000) 8 % 4 + 1) % 4)
  exact ⟨h1.trans k1, h2.trans k2, h3.trans k3⟩

theorem State.uncover_keeps (vd k : Nat) :
    (s.uncover vd k).ctxs = s.ctxs ∧ (s.uncover vd k).cores = s.cores ∧ (s.uncover vd k).tiles = s.tiles := by
  have hdie : ∀ (u : State) f, (u.modDie vd f).ctxs = u.ctxs ∧ (u.modDie vd f).cores = u.cores ∧ (u.modDie vd f).tiles = u.tiles :=
    fun _ _ => ⟨rfl, rfl, rfl⟩
  obtain ⟨h1, h2, h3⟩ := hdie (s.setSite vd k 4 1 0) (fun d => { d with journals := d.journals.erase k })
  rw [State.uncover, h1, h2, h3, State.setSite, State.store, State.storeBytes_ctxs, State.storeBytes_cores, State.storeBytes_tiles]
  exact ⟨rfl, rfl, rfl⟩

/-- New bounds of a tile touch neither contexts nor cores, and no other field of the tile. -/
theorem State.setBounds_eq (vt : Nat) (f : Tile → Tile) :
    (s.setBounds vt f).ctxs = s.ctxs ∧ (s.setBounds vt f).cores = s.cores ∧ (s.setBounds vt f).tile vt = f (s.tile vt) := by
  obtain ⟨h1, h2, h3⟩ := ((s.modTile vt f).remap (dieOf vt)).uncover_keeps (dieOf vt) (s.curSite (dieOf vt) (slotOf vt))
  obtain ⟨k1, k2, k3⟩ := (s.modTile vt f).remap_keeps (dieOf vt)
  refine ⟨h1.trans k1, h2.trans k2, ?_⟩
  rw [State.setBounds, State.tile, h3, k3, ← State.tile, State.tile_modTile_same]

/-- A write of a register changes its own context and core as `regWritten` says, and no other context's operands. -/
theorem State.sysWrite_parts (n : Nat) : (s.sysWrite c n w).ctx c = (s.ctx c).regWritten w n ∧
    (s.sysWrite c n w).core c.core = (s.core c.core).regWritten w n ∧
    ∀ e : CtxId, ((s.sysWrite c n w).ctx e).s = (s.ctx e).s ∧ ((s.sysWrite c n w).ctx e).p = (s.ctx e).p := by
  have hctx : ∀ f : Ctx → Ctx, (∀ k, ((f k).s, (f k).p) = (k.s, k.p)) → (s.modCtx c f).ctx c = f (s.ctx c) ∧
      (s.modCtx c f).core c.core = s.core c.core ∧
      ∀ e : CtxId, ((s.modCtx c f).ctx e).s = (s.ctx e).s ∧ ((s.modCtx c f).ctx e).p = (s.ctx e).p :=
    fun f hf => ⟨s.ctx_modCtx_same c f, rfl, fun e => Prod.mk.inj (s.ctx_modCtx_proj c f (fun k => (k.s, k.p)) hf
      (fun i j => by unfold Ctx.reset; rfl))⟩
  have hcore : ∀ f : Core → Core, (s.modCore c.core f).ctx c = s.ctx c ∧ (s.modCore c.core f).core c.core = f (s.core c.core) ∧
      ∀ e : CtxId, ((s.modCore c.core f).ctx e).s = (s.ctx e).s ∧ ((s.modCore c.core f).ctx e).p = (s.ctx e).p :=
    fun f => ⟨rfl, s.core_modCore_same c.core f, fun e => ⟨rfl, rfl⟩⟩
  have hbounds : ∀ f : Tile → Tile, (s.setBounds c.core.vt f).ctx c = s.ctx c ∧ (s.setBounds c.core.vt f).core c.core = s.core c.core ∧
      ∀ e : CtxId, ((s.setBounds c.core.vt f).ctx e).s = (s.ctx e).s ∧ ((s.setBounds c.core.vt f).ctx e).p = (s.ctx e).p := fun f => by
    obtain ⟨h1, h2, -⟩ := s.setBounds_eq c.core.vt f
    simp only [State.ctx, State.core, h1, h2, and_self, implies_true]
  unfold State.sysWrite
  extract_lets v
  split
  case h_1 | h_2 | h_3 => exact hbounds _
  case h_4 | h_5 | h_6 | h_7 | h_10 | h_11 | h_12 => exact hctx _ fun _ => rfl
  case h_8 | h_9 | h_13 | h_14 | h_15 | h_16 | h_17 | h_18 => exact hcore _
  case h_19 => exact ⟨rfl, rfl, fun _ => ⟨rfl, rfl⟩⟩
  case h_20 => exact ⟨by simp only [Ctx.regWritten], by simp only [Core.regWritten], fun _ => ⟨rfl, rfl⟩⟩

theorem State.mem_sysWrite {n : Nat} (h : n ∉ [0x08, 0x09, 0x0a]) : (s.sysWrite c n w).mem = s.mem := by
  unfold State.sysWrite
  extract_lets v
  split
  case h_1 | h_2 | h_3 => exact absurd (by decide) h
  all_goals rfl

end

/-- Values without reserved bits fit their fields (R37). -/
theorem div_of_sysReserved {n v : Nat} (h : sysReserved n v = false) :
    (n = 0x11 → v / 2 ^ 3 % 2 ^ 29 = 0) ∧ (n = 0x15 → v / 2 ^ 16 = 0) ∧ (n = 0x17 → v / 2 ^ 32 = 0) ∧ (n = 0x18 → v / 2 ^ 16 = 0) ∧
      (n = 0x19 → v / 2 ^ 3 = 0) ∧ (n = 0x1a → v / 2 = 0) := by
  refine ⟨?_, ?_, ?_, ?_, ?_, ?_⟩ <;> rintro rfl
  · exact bne_eq_false_iff_eq.1 (Bool.or_eq_false_iff.1 h).1
  · exact bne_eq_false_iff_eq.1 h
  · exact bne_eq_false_iff_eq.1 h
  · exact bne_eq_false_iff_eq.1 (Bool.or_eq_false_iff.1 h).1
  · exact bne_eq_false_iff_eq.1 h
  · exact bne_eq_false_iff_eq.1 h

section
variable (k : Ctx) (q : Core) (w : Word)

/-- MODE and SEED are the two halves of their register (R44). -/
theorem seed_append_mode : BitVec.ofNat 64 (k.seed.toNat * 2 ^ 32 + k.mode.toNat) = k.seed ++ k.mode.setWidth 32 := by
  have hseed := k.seed.isLt
  have hmode : k.mode.toNat < 2 ^ 32 := k.mode.isLt.trans (by norm_num)
  apply BitVec.eq_of_toNat_eq
  rw [BitVec.toNat_append, BitVec.toNat_ofNat, BitVec.toNat_setWidth, Nat.mod_eq_of_lt hmode, ← Nat.shiftLeft_add_eq_or_of_lt hmode,
    Nat.shiftLeft_eq, Nat.mod_eq_of_lt (by omega)]

/-- A register without behaviour of its own reads back a value that has none of its reserved bits set. -/
theorem plainRead_regWritten {n : Nat} (hn : n ∈ plainRegs) (hr : sysReserved n w.toNat = false) :
    plainRead (k.regWritten w n) (q.regWritten w n) n = w := by
  obtain ⟨hmode, hclass, hlim, hrect, hdet, hprio⟩ := div_of_sysReserved hr
  have hw := w.isLt
  have hfits : ∀ m, m ≤ 64 → w.toNat / 2 ^ m = 0 → (w.setWidth m).setWidth 64 = w := fun m hm h => by
    have hlt : w.toNat < 2 ^ m := by
      rcases Nat.div_eq_zero_iff.1 h with h | h
      · exact absurd h (by positivity)
      · exact h
    exact BitVec.eq_of_toNat_eq (by
      rw [BitVec.toNat_setWidth, BitVec.toNat_setWidth, Nat.mod_eq_of_lt hlt, Nat.mod_eq_of_lt hw])
  simp only [plainRegs, List.mem_cons, List.not_mem_nil, or_false] at hn
  rcases hn with rfl | rfl | rfl | rfl | rfl | rfl | rfl | rfl | rfl | rfl | rfl | rfl | rfl
  case inr.inr.inr.inr.inr.inr.inl =>
    have := hmode rfl
    apply BitVec.eq_of_toNat_eq
    simp only [plainRead, Ctx.regWritten, BitVec.extractLsb'_toNat, BitVec.toNat_ofNat, BitVec.toNat_setWidth, Nat.shiftRight_eq_div_pow]
    omega
  case inr.inr.inr.inr.inr.inr.inr.inr.inl => exact hfits 16 (by decide) (hclass rfl)
  case inr.inr.inr.inr.inr.inr.inr.inr.inr.inl => exact hfits 32 (by decide) (hlim rfl)
  case inr.inr.inr.inr.inr.inr.inr.inr.inr.inr.inl => exact hfits 16 (by decide) (hrect rfl)
  case inr.inr.inr.inr.inr.inr.inr.inr.inr.inr.inr.inl => exact hfits 3 (by decide) (hdet rfl)
  case inr.inr.inr.inr.inr.inr.inr.inr.inr.inr.inr.inr =>
    have hlt : w.toNat < 2 := by have := hprio rfl; omega
    have hbit : w.getLsbD 0 = decide (w.toNat = 1) := by
      rw [BitVec.getLsbD, Nat.testBit_zero]
      exact decide_eq_decide.2 (by omega)
    simp only [plainRead, Core.regWritten, hbit, decide_eq_true_eq]
    split
    · exact BitVec.eq_of_toNat_eq (by simpa using Eq.symm ‹_›)
    · exact BitVec.eq_of_toNat_eq (by simp; omega)
  all_goals rfl

/-- A write leaves the fields of the other registers. -/
theorem Ctx.regWritten_others (n : Nat) : (0x0b ≠ n → (k.regWritten w n).cause = k.cause) ∧ (0x0c ≠ n → (k.regWritten w n).trapPc = k.trapPc) ∧
    (0x0d ≠ n → (k.regWritten w n).trapVal = k.trapVal) ∧ (0x0e ≠ n → (k.regWritten w n).trapTag = k.trapTag) ∧
    (0x11 ≠ n → (k.regWritten w n).seed = k.seed ∧ (k.regWritten w n).mode = k.mode) ∧ (0x13 ≠ n → (k.regWritten w n).lpct = k.lpct) := by
  unfold Ctx.regWritten
  split <;> simp

theorem Core.regWritten_others (n : Nat) : (0x0f ≠ n → (q.regWritten w n).trapVec = q.trapVec) ∧
    (0x10 ≠ n → (q.regWritten w n).upcallVec = q.upcallVec) ∧ (0x15 ≠ n → (q.regWritten w n).classEn = q.classEn) ∧
    (0x17 ≠ n → (q.regWritten w n).waitLim = q.waitLim) ∧ (0x18 ≠ n → (q.regWritten w n).barRect = q.barRect) ∧
    (0x19 ≠ n → (q.regWritten w n).detmode = q.detmode) ∧ (0x1a ≠ n → (q.regWritten w n).ctlPrio = q.ctlPrio) := by
  unfold Core.regWritten
  split <;> simp

/-- So another register without behaviour of its own keeps its value. -/
theorem plainRead_regWritten_ne {n m : Nat} (hm : m ∈ plainRegs) (h : m ≠ n) :
    plainRead (k.regWritten w n) (q.regWritten w n) m = plainRead k q m := by
  obtain ⟨hcause, hpc, hval, htag, hmode, hlpct⟩ := k.regWritten_others w n
  obtain ⟨hvec, hup, hclass, hlim, hrect, hdet, hprio⟩ := q.regWritten_others w n
  simp only [plainRegs, List.mem_cons, List.not_mem_nil, or_false] at hm
  rcases hm with rfl | rfl | rfl | rfl | rfl | rfl | rfl | rfl | rfl | rfl | rfl | rfl | rfl
  · exact hcause h
  · exact hpc h
  · exact hval h
  · exact htag h
  · exact hvec h
  · exact hup h
  · simp only [plainRead, hmode h]
  · exact hlpct h
  · simp only [plainRead, hclass h]
  · simp only [plainRead, hlim h]
  · simp only [plainRead, hrect h]
  · simp only [plainRead, hdet h]
  · simp only [plainRead, hprio h]

end

section
variable {s : State} {c : CtxId} {n : Nat} {w : Word}

theorem State.sysRead_sysWrite (hn : n ∈ plainRegs) (hr : sysReserved n w.toNat = false) : (s.sysWrite c n w).sysRead c n = w := by
  obtain ⟨hk, hq, -⟩ := s.sysWrite_parts c w n
  rw [State.sysRead_plain _ c hn, hk, hq, plainRead_regWritten _ _ w hn hr]

theorem State.sysRead_sysWrite_ne {m : Nat} (hm : m ∈ plainRegs) (h : m ≠ n) : (s.sysWrite c n w).sysRead c m = s.sysRead c m := by
  obtain ⟨hk, hq, -⟩ := s.sysWrite_parts c w n
  rw [State.sysRead_plain _ c hm, State.sysRead_plain _ c hm, hk, hq, plainRead_regWritten_ne _ _ w hm h]

theorem State.sysReserved_of_sysCheck (h : s.sysCheck c n w = none) : sysReserved n w.toNat = false := by
  simp only [State.sysCheck] at h
  split at h
  · cases h
  · split at h
    · cases h
    · exact Bool.eq_false_iff.2 ‹_›

/-- The registers that any value without reserved bits may be written to (R37). -/
theorem State.sysCheck_none (h : sysReserved n w.toNat = false) (hn : n ∉ [0x08, 0x09, 0x0a, 0x11, 0x19, 0x1d]) : s.sysCheck c n w = none := by
  simp only [List.mem_cons, List.not_mem_nil, or_false, not_or] at hn
  obtain ⟨h8, h9, ha, h11, h19, h1d⟩ := hn
  simp [State.sysCheck, h, h8, h9, ha, h11, h19, h1d]

/-- A register write outside a launch is its row (R37). -/
theorem State.regEvent_outside {kind : Nat → Word → Bool} (hl : (s.core s.ev.ctx.core).launch = none)
    (hd : (s.tile s.ev.ctx.core.vt).draining = false) (hs : (s.tile s.ev.ctx.core.vt).stopped = false) (ha : s.attest.dark = false)
    (hr : ∃ x, regAcc s.ev.k = some x ∧ x ≠ .ro) (hc : s.sysCheck s.ev.ctx s.ev.k s.ev.w = none) (hk : kind s.ev.k s.ev.w = true) :
    s.regEvent kind = s.sysWrite s.ev.ctx s.ev.k s.ev.w := by
  obtain ⟨x, hx, hro⟩ := hr
  simp [State.regEvent, hl, hd, hs, ha, hx, hro, hc, hk]

end

/-! The rows. -/

section
variable {row : Instr} {s : State}

/-- The state in which a register takes its value: a write with a scope beyond the context commits first (R421). -/
def State.wrote (s : State) (row : Instr) : State :=
  let n := s.op.imm.toNat % 256
  (if sysWide n then (s.taken row).commit s.cur else (s.taken row)).sysWrite s.cur n s.opA

theorem State.mem_wrote (h : s.op.imm.toNat % 256 ∉ [0x08, 0x09, 0x0a]) : (s.wrote row).mem = s.mem := by
  rw [State.wrote, State.mem_sysWrite _ _ _ h]
  split
  · rw [State.mem_commit, mem_taken]
  · exact mem_taken ..

theorem Env.sysPut_taken : (Claim.env s row).sysPut (s.taken row) =
    (s.sysCheck s.cur (s.op.imm.toNat % 256) s.opA).elim (.ok (s.wrote row)) fun t => .error (.trap t (s.taken row)) := by
  have hc := s.sysCheck_taken row s.cur (s.op.imm.toNat % 256) s.opA
  have ha : (Claim.env s row).a (s.taken row) = s.opA := State.rs_taken ..
  simp only [Env.sysPut, ha, sysNum]
  rw [show (s.taken row).sysCheck (Claim.env s row).me ((Claim.env s row).o.imm.toNat % 256) s.opA = _ from hc]
  cases s.sysCheck s.cur (s.op.imm.toNat % 256) s.opA <;> rfl

/-- csrw and csrx of a value that fails a check trap and write nothing. -/
theorem sysPut_traps {t : Tr} (hrow : row = .sysCsrw ∨ row = .sysCsrx) (h : s.Ready row)
    (hc : s.sysCheck s.cur (s.op.imm.toNat % 256) s.opA = some t) : Traps row s t (s.taken row) := by
  obtain rfl | rfl := hrow
  · refine stops_of_body (x := .trap t (s.taken .sysCsrw)) h rfl ?_
    rw [bodyCsrw, Env.sysPut_taken, hc]
    rfl
  · refine stops_of_body (x := .trap t (s.taken .sysCsrx)) h rfl ?_
    rw [bodyCsrx, Env.sysPut_taken, hc]
    rfl

/-- Those of a value that passes write it, and csrx gives the old one. -/
theorem sysPut_completes (hrow : row = .sysCsrw ∨ row = .sysCsrx) (h : s.Ready row)
    (hc : s.sysCheck s.cur (s.op.imm.toNat % 256) s.opA = none) : Completes row s .next
      (if row = .sysCsrx then (s.wrote row).ws s.cur s.op.d (s.sysRead s.cur (s.op.imm.toNat % 256)) else s.wrote row) := by
  obtain rfl | rfl := hrow
  · refine completes_of_body h rfl ?_
    rw [bodyCsrw, Env.sysPut_taken, hc]
    rfl
  · refine completes_of_body h rfl ?_
    rw [bodyCsrx, Env.sysPut_taken, hc, sysNum]
    exact congrArg (fun v => Except.ok (Ctl.next, (s.wrote .sysCsrx).ws s.cur s.op.d v)) (s.sysRead_taken .sysCsrx s.cur (s.op.imm.toNat % 256))

/-- class.mask and class.unmask (R294). -/
theorem classSet_gives (unmask : Bool) (h : s.Ready row) (hx : exec row s = .next (issue row (bodyClassSet unmask) s)) :
    let old := (s.core s.cur.core).classEn
    let m : Half := s.opA.setWidth 16
    ∃ s', Gives row s s' (Touch.reg s.op.d) ∧ s'.rs s.cur s.op.d = (if s.op.d = 0 then 0 else old.setWidth 64) ∧
      (s'.core s.cur.core).classEn = if unmask then old ||| m else old &&& ~~~m := by
  intro old m
  refine ⟨(((s.taken row).commit s.cur).modCore s.cur.core (fun k => { k with classEn := if unmask then old ||| m else old &&& ~~~m })).ws
    s.cur s.op.d (old.setWidth 64), gives_of_body h hx ?_ ?_, ?_, ?_⟩
  · have ha : (Claim.env s row).a (s.taken row) = s.opA := State.rs_taken ..
    simp only [bodyClassSet, ha, Env.put, show (Claim.env s row).me = s.cur from rfl, s.core_taken]
    rfl
  · exact (((Frame.refl ..).commit _).modCore _ _).ws (by simp [Touch.reg]) _
  · by_cases hd : s.op.d = 0
    · rw [if_pos hd, hd]
      rfl
    · rw [if_neg hd]
      exact State.rs_ws_same _ _ _ hd
  · rw [State.core, State.cores_ws, ← State.core, State.core_modCore_same]

/-- A class is pending when a task of it waits in the run queue or the overflow area (R48). -/
theorem State.getLsbD_classPend {i : Nat} (c : CoreId) (hi : i < 16) : (s.classPend c).getLsbD i = true ↔
    (∃ t ∈ (s.core c).runq, t.cls = i) ∨ ∃ o ∈ (s.tile c.vt).overflow, o.1 = c.pos ∧ o.2.cls = i := by
  have hbit : ∀ k, (BitVec.ofNat 16 (2 ^ k)).getLsbD i = decide (k = i) := fun k => by
    rw [BitVec.getLsbD_ofNat, Nat.testBit_two_pow, decide_eq_true hi, Bool.true_and]
  simp only [State.classPend, getLsbD_foldl_or, hbit, List.any_append, List.any_map]
  simp

end

/-- Settles O52: the writes by the check of Table 13 and the state `wrote`; what is read back by the fields that `regWritten` names. -/
theorem systemRegistersAndClasses : Obligations.SystemRegistersAndClasses := by
  unfold Obligations.SystemRegistersAndClasses
  refine ⟨?csrr, ?reads, ?put, ?readsBack, ?write, ?events, ?mask, ?test⟩
  case csrr =>
    intro s hr
    refine givesReg_of_body hr rfl ?_
    exact congrArg (fun v => Except.ok (Ctl.next, (s.taken .sysCsrr).ws s.cur s.op.d v)) (s.sysRead_taken .sysCsrr s.cur (s.op.imm.toNat % 256))
  case reads =>
    intro s c k
    exact ⟨rfl, rfl, rfl, rfl, rfl, rfl, rfl, rfl, rfl, seed_append_mode k, rfl⟩
  case put =>
    intro row s hrow hr n
    cases hc : s.sysCheck s.cur n s.opA with
    | some t => exact sysPut_traps hrow hr hc
    | none => exact sysPut_completes hrow hr hc
  case readsBack =>
    intro row s hrow hr n v hn
    obtain ⟨hres, hno⟩ : sysReserved n v = false ∧ n ∉ [0x08, 0x09, 0x0a, 0x11, 0x19, 0x1d] := by
      generalize n = m at hn
      simp only [List.mem_cons, List.not_mem_nil, or_false] at hn
      obtain (rfl | rfl | rfl | rfl | rfl) | ⟨rfl, h⟩ | ⟨rfl, h, h'⟩ | ⟨rfl, h⟩ | ⟨rfl, h⟩ | ⟨rfl, h⟩ := hn
      case inr.inr.inl => exact ⟨Bool.or_eq_false_iff.2 ⟨bne_eq_false_iff_eq.2 (Nat.div_eq_of_lt h), bne_eq_false_iff_eq.2 h'⟩, by decide⟩
      case inl.inl | inl.inr.inl | inl.inr.inr.inl | inl.inr.inr.inr.inl | inl.inr.inr.inr.inr => exact ⟨rfl, by decide⟩
      all_goals exact ⟨bne_eq_false_iff_eq.2 (Nat.div_eq_of_lt h), by decide⟩
    refine ⟨_, sysPut_completes hrow hr (State.sysCheck_none hres hno), fun hback => ?_, fun hx hd => ?_, ?_⟩
    · have hp : n ∈ plainRegs := (by decide : [0x0c, 0x0d, 0x0f, 0x10, 0x13, 0x0e, 0x15, 0x17, 0x1a] ⊆ plainRegs) hback
      split
      · rw [State.sysRead_ws]
        exact State.sysRead_sysWrite hp hres
      · exact State.sysRead_sysWrite hp hres
    · rw [if_pos hx]
      exact State.rs_ws_same _ _ _ hd
    · have hm : (s.wrote row).mem = s.mem := State.mem_wrote fun h => hno (List.mem_append_left [0x11, 0x19, 0x1d] h)
      split
      · rw [State.mem_ws, hm]
      · exact hm
  case write =>
    intro s c n w hc t plain
    have hres := State.sysReserved_of_sysCheck hc
    obtain ⟨hk, hq, hregs⟩ := s.sysWrite_parts c w n
    refine ⟨fun e r => ?_, fun e r => ?_, State.mem_sysWrite s c w, fun hn => ⟨State.sysRead_sysWrite hn hres, fun m hm hne =>
      State.sysRead_sysWrite_ne hm hne⟩, ?_, ?_, ?_, ?_, ?_, ?_⟩
    · simp only [State.rs, t, (hregs e).1]
    · simp only [State.rp, t, (hregs e).2]
    all_goals rintro rfl
    · simp only [t, hk, Ctx.regWritten, BitVec.toNat_setWidth]
    · refine ⟨?_, fun i => ?_⟩
      · simp only [t, hq, Core.regWritten, BitVec.extractLsb'_toNat, Nat.shiftRight_eq_div_pow]
      · simp only [t, hq, Core.regWritten, BitVec.extractLsb'_toNat, Nat.shiftRight_eq_div_pow]
        by_cases hw : w.getLsbD 63 = true
        · rw [if_pos hw]
          by_cases hi : i = w.toNat / 2 ^ 40 % 256
          · rw [if_pos ⟨hw, hi⟩, hi]
            exact Tab.get_set_same ..
          · rw [if_neg fun h => hi h.2]
            exact Tab.get_set_ne _ _ _ hi
        · rw [if_neg hw, if_neg fun h => hw h.1]
    · exact congrArg Tile.plb0 (s.setBounds_eq c.core.vt _).2.2
    · exact congrArg Tile.plb1 (s.setBounds_eq c.core.vt _).2.2
    · exact congrArg Tile.plb2 (s.setBounds_eq c.core.vt _).2.2
    · exact ⟨rfl, rfl⟩
  case events =>
    intro row s c n w hrow hl hd hs ha hacc hc
    have hout : ∀ kind : Nat → Word → Bool, kind n w = true → (.next (s.regEvent kind) : Out) = .next (s.sysWrite c n w) :=
      fun _ hk => congrArg Host.Outcome.next (State.regEvent_outside hl hd hs ha hacc hc hk)
    subst hrow
    split
    case isTrue h => exact hout _ (by simpa [or_assoc] using h)
    split
    · split
      · exact hout _ (by simp [*])
      · exact hout _ (by simp_all)
    split
    · exact hout _ (by simp [*])
    split
    · exact hout _ (by simp [*])
    split
    · exact hout _ (by simp [*])
    · exact hout _ (by simp_all)
  case mask =>
    intro row unmask s hrow hr
    simp only [List.mem_cons, List.not_mem_nil, or_false, Prod.mk.injEq] at hrow
    obtain ⟨rfl, rfl⟩ | ⟨rfl, rfl⟩ := hrow
    · exact classSet_gives false hr rfl
    · exact classSet_gives true hr rfl
  case test =>
    intro s hr
    refine ⟨((s.classPend s.cur.core &&& s.opA.setWidth 16).setWidth 64), givesReg_of_body hr rfl ?_, fun i hi => ?_⟩
    · have hp : (s.taken .classTest).classPend s.cur.core = s.classPend s.cur.core :=
        State.eq_of_bare (fun x => x.classPend s.cur.core) (fun _ => rfl) (s.bare_taken .classTest)
      have ha : (Claim.env s .classTest).a (s.taken .classTest) = s.opA := State.rs_taken ..
      rw [bodyClassTest, ha]
      exact congrArg (fun v : Half => Except.ok (Ctl.next, (s.taken .classTest).ws s.cur s.op.d ((v &&& s.opA.setWidth 16).setWidth 64))) hp
    · rw [BitVec.getLsbD_setWidth, BitVec.getLsbD_and, BitVec.getLsbD_setWidth, decide_eq_true hi]
      by_cases h16 : i < 16
      · rw [← State.getLsbD_classPend s.cur.core h16]
        simp [h16, and_comm]
      · simp [h16]

end Sys2Proof.Machine
end

