-- ==== Sys2Proof/Proofs/WaitLimits.lean ====
section
/-! HANG and a context 0 whose gang stands by another (R231, R359). -/

namespace Sys2Proof.Machine

open Sys2Proof

/-- A launch on two cores whose detector is armed and that has nothing to deal. -/
def hungLaunch : Launch :=
  { id := 1, die := 0, desc := descOf [], producers := [], shares := [], triggered := [], node := none, succ := [], ended := false, stage := 0,
    cancelled := false, failCause := 0, failDetail := 0, failTile := none, failed := [], parked := [], parkedCores := [], closing := false,
    dtoken := none, dfail := none, digestFail := 0, settleFail := 0, dealt := 0, regs := [], digests := [], sums := [], idleSince := 0,
    hangArmed := true, hb := [] }

/-- A core of it without helpers. -/
def hungCore : Core :=
  { Core.reset with
    launch := some { id := 1, h := 0, stack := 0, vec := false, mode := 0, seed := 0, leader := 0, unit := [], notice := 0, nclass := 0 } }

/-- The first core's context 0: an upcall runs, with s2 in the core's own TCM. -/
def hungUpcall : CtxId := ⟨⟨0, 1⟩, 0⟩

/-- The second core's context 0: past its WAITLIM, in a gang. -/
def hungFollower : CtxId := ⟨⟨0, 2⟩, 0⟩

/-- The leader that the gang names: the first core's context 0, by a number of the core before it. That core's scoreboard holds the bytes below
s2 back, the first core's does not. -/
def hungLeader : CtxId := ⟨⟨0, 0⟩, 16⟩

/-- The state: both contexts wait at a barrier; the region descriptor of the tile grants the TCM to user accesses. -/
def hung : State :=
  { State.reset with
    mem := [⟨flatCommons 0 0x7fe4007, 0x87⟩, ⟨flatCommons 0 0x7fe4009, 0x10⟩]
    ctxs := [(hungUpcall.key, { Ctx.reset 0 with st := .waiting .bar 0, cause := 0x200, s := (Vector.replicate 32 0).set 2 0x100 }),
      (hungFollower.key, { Ctx.reset 0 with st := .waiting .bar 0, gang := some ⟨[hungLeader], none⟩ })]
    cores := [(0, { Core.reset with sb := [⟨0, some (0, 2 ^ 100), none⟩] }), (1, hungCore), (2, { hungCore with waitLim := 1 })]
    launches := [hungLaunch]
    edges := 4096
    ev := { EvArgs.zero with k := 1 } }

/-- The detector is due: every core is listed, nothing can be dealt, the fabric is idle. -/
theorem hung_due : hung.allListed 1 = true ∧ hung.canDeal hungLaunch = false ∧ hung.fabricIdle 1 = true := ⟨by decide, by decide, by decide⟩

/-- The follower's WAIT_LIMIT is held back with the stores of its leader's frame, so that HANG would not yield to it. -/
theorem hung_follower_held : hung.hangYields hungFollower = false := by decide

/-- But the HANG of the first core moves the mode of that leader to supervisor, which ends what held them back; the follower leaves its own to
WAIT_LIMIT. -/
theorem hung_follower_cause : ((hung.hang 1).ctx hungFollower).causeCode = 0 := by decide

/-- Refutes O49: in its third clause `hangYields` speaks of the state before the contexts of the launch take HANG in turn, and the clause, unlike the
two before it, admits a context 0 in a gang. Such a context's WAIT_LIMIT depends on the leader that its gang names, which an earlier HANG of the
same turn can change, as it does in `hung`. -/
theorem not_waitsAreLimited : ¬ Obligations.WaitsAreLimited := by
  unfold Obligations.WaitsAreLimited
  rintro ⟨-, -, hhang⟩
  obtain ⟨hlisted, hdeal, hidle⟩ := hung_due
  obtain ⟨t, l', hx, -, -, hall⟩ := hhang hung hungLaunch rfl rfl hlisted hdeal hidle (by decide)
  have ht : hung.hang 1 = t := by
    injection hx
  obtain ⟨hcause, -⟩ := hall hungFollower.core (by decide) (by decide) (.inr ⟨.bar, 0, rfl⟩) hung_follower_held (by decide) rfl (by decide)
  rw [← ht] at hcause
  exact absurd (hung_follower_cause.symm.trans hcause) (by decide)

end Sys2Proof.Machine
end

