-- ==== Sys2Proof/Proofs/Encoding.lean ====
section
/-! The encoder and the decoder: head and tail halfwords, the fields of each form, the rows that majors and function codes select
(R67–R69, R76–R81, R85). -/

namespace Sys2Proof

open Laws.Selects (formOfInfo latchAgrees Statement)

/-! The head halfword (Table 30). -/

section
variable (o : Fields) (m : Nat)

@[simp] theorem encodeHead_r0 : (encodeHead o m).extractLsb' 0 1 = o.r0 := by ext i; grind [encodeHead]
@[simp] theorem encodeHead_d : (encodeHead o m).extractLsb' 1 5 = o.d := by ext i; grind [encodeHead]
@[simp] theorem encodeHead_major : (encodeHead o m).extractLsb' 6 7 = BitVec.ofNat 7 m := by ext i; grind [encodeHead]
@[simp] theorem encodeHead_y : (encodeHead o m).extractLsb' 13 1 = BitVec.ofBool o.sync.isSome := by ext i; grind [encodeHead]
@[simp] theorem encodeHead_t : (encodeHead o m).extractLsb' 14 2 = o.t := by ext i; grind [encodeHead]

@[simp] theorem encodeHead_getLsbD_y : (encodeHead o m).getLsbD 13 = o.sync.isSome := by
  rw [BitVec.getLsbD_eq_extractLsb', encodeHead_y]
  cases o.sync.isSome <;> rfl

end

/-- The head of the fields a head gives is that head. -/
theorem encodeHead_of_fields {h : Half} {o : Fields} (hr : o.r0 = h.extractLsb' 0 1) (hd : o.d = h.extractLsb' 1 5)
    (hy : o.sync.isSome = h.getLsbD 13) (ht : o.t = h.extractLsb' 14 2) : encodeHead o (h.extractLsb' 6 7).toNat = h := by
  rw [encodeHead, ht, hy, hd, hr, BitVec.ofNat_toNat, BitVec.setWidth_eq]
  ext i
  grind

/-! The tail (R68, R76). -/

theorem tailLen_eq (h : Half) : tailLen h = (h.extractLsb' 14 2).toNat + (h.getLsbD 13).toNat := by
  rw [tailLen, BitVec.getLsbD_eq_extractLsb']
  congr 1
  generalize h.extractLsb' 13 1 = y
  revert y
  decide

section
variable (o : Fields) (m : Nat) (h0 h1 h2 : Half)

theorem length_encodeTail : (encodeTail o h0 h1 h2).length = tailLen (encodeHead o m) := by
  have ht : o.t.toNat < 4 := o.t.isLt
  rw [tailLen_eq, encodeHead_t, encodeHead_getLsbD_y, encodeTail, List.length_append, List.length_take]
  cases o.sync <;> simp <;> omega

/-- The decoder reads the operand halfwords that T supplies back, and zero beyond them. -/
theorem operandAt_encodeTail {k : Nat} (hk : k < 3) :
    operandAt (encodeHead o m) (encodeTail o h0 h1 h2) k = if k < o.t.toNat then [h0, h1, h2].getD k 0 else 0 := by
  rw [operandAt, encodeHead_t]
  split
  · next hlt => simp [tailAt, encodeTail, List.getElem?_append, hlt, hk]
  · rfl

theorem syncOf_encodeTail : syncOf (encodeHead o m) (encodeTail o h0 h1 h2) = o.sync := by
  have ht : o.t.toNat < 4 := o.t.isLt
  rw [syncOf, encodeHead_t, encodeHead_getLsbD_y]
  cases hs : o.sync with
  | none => rfl
  | some y =>
    have hlen : ([h0, h1, h2].take o.t.toNat).length = o.t.toNat := by rw [List.length_take]; exact min_eq_left (Nat.le_of_lt_succ ht)
    simp [tailAt, encodeTail, hs, hlen]

end

section
variable {h : Half} {tl : List Half} (hl : tl.length = tailLen h)
include hl

/-- The operand halfwords are the first T of the tail. -/
theorem take_operandAt : [operandAt h tl 0, operandAt h tl 1, operandAt h tl 2].take (h.extractLsb' 14 2).toNat =
    tl.take (h.extractLsb' 14 2).toNat := by
  rw [tailLen_eq] at hl
  have ht : (h.extractLsb' 14 2).toNat < 4 := (h.extractLsb' 14 2).isLt
  have hop : ∀ k, k < (h.extractLsb' 14 2).toNat → tl[k]? = some (operandAt h tl k) := fun k hk => by
    rw [operandAt, if_pos hk, tailAt, List.getD_eq_getElem?_getD, List.getElem?_eq_getElem (by omega), Option.getD_some]
  refine List.ext_getElem? fun k => ?_
  rw [List.getElem?_take, List.getElem?_take]
  split
  · next hk =>
    rw [hop k hk]
    obtain rfl | rfl | rfl : k = 0 ∨ k = 1 ∨ k = 2 := by omega
    all_goals rfl
  · rfl

/-- What is left of the tail is the sync halfword (R68). -/
theorem drop_eq_syncOf : tl.drop (h.extractLsb' 14 2).toNat = (syncOf h tl).toList := by
  rw [tailLen_eq] at hl
  rw [syncOf]
  cases hy : h.getLsbD 13 <;> rw [hy] at hl
  case false => exact List.drop_eq_nil_of_le hl.le
  case true =>
    rw [Bool.toNat_true] at hl
    rw [List.drop_eq_getElem_cons (by omega), List.drop_eq_nil_of_le (by omega)]
    simp [tailAt, hl]

/-- The halfwords of a whole tail are its operand halfwords and its sync halfword. -/
theorem operands_append_sync :
    [operandAt h tl 0, operandAt h tl 1, operandAt h tl 2].take (h.extractLsb' 14 2).toNat ++ (syncOf h tl).toList = tl := by
  rw [take_operandAt hl, ← drop_eq_syncOf hl, List.take_append_drop]

end

/-! The forms. -/

/-- The head and tail halfwords of an instruction of a form. -/
def Form.encode : Form → Nat → Fields → Half × List Half
  | .A => encodeAB
  | .B => encodeAB
  | .C => encodeC

/-- A row's encoding is that of its form and major. -/
theorem encode_of_form {r : Instr} {f : Form} (h : formOfInfo r.info = some f) (o : Fields) :
    Sys2Proof.encode ⟨r, o⟩ = some (f.encode r.major o) := by
  unfold Sys2Proof.encode Instr.major
  cases hi : r.info <;> rw [hi] at h <;> cases h <;> rfl

/-- The fields that a form reads from a head and its whole tail encode to them: the decoder drops no bit. -/
theorem Form.encode_fields (f : Form) {h : Half} {tl : List Half} (hl : tl.length = tailLen h) :
    f.encode (h.extractLsb' 6 7).toNat (f.fields h tl) = (h, tl) := by
  have hab : halfAB (fieldsAB h tl) = operandAt h tl 0 := by simp only [halfAB, fieldsAB]; ext i; grind
  have hi1 : (fieldsAB h tl).imm.extractLsb' 0 16 = operandAt h tl 1 := by simp only [fieldsAB]; ext i; grind
  have hi2 : (fieldsAB h tl).imm.extractLsb' 16 16 = operandAt h tl 2 := by simp only [fieldsAB]; ext i; grind
  have hc0 : halfC0 (fieldsC h tl) = operandAt h tl 0 := by simp only [halfC0, fieldsC]; ext i; grind
  have hc1 : halfC1 (fieldsC h tl) = operandAt h tl 1 := by simp only [halfC1, fieldsC]; ext i; grind
  have hc2 : (fieldsC h tl).imm.extractLsb' 0 16 = operandAt h tl 2 := by simp only [fieldsC]; ext i; grind
  have hs : (syncOf h tl).isSome = h.getLsbD 13 := by unfold syncOf; cases h.getLsbD 13 <;> rfl
  cases f with
  | A | B =>
    simp only [Form.encode, encodeAB, Form.fields, encodeTail, hab, hi1, hi2]
    exact Prod.ext (encodeHead_of_fields rfl rfl hs rfl) (operands_append_sync hl)
  | C =>
    simp only [Form.encode, encodeC, Form.fields, encodeTail, hc0, hc1, hc2]
    exact Prod.ext (encodeHead_of_fields rfl rfl hs rfl) (operands_append_sync hl)

/-! The rows (Table 36). -/

/-- Every row of the table has the table's major, and the form of that major. -/
theorem rowTable_agrees : ∀ x ∈ rowTable, x.2.2.major = x.1 ∧ formOfInfo x.2.2.info = formOf x.1 := by decide +kernel

/-- A row that a major selects has that major, and its form. -/
theorem rowOf_agrees {m fn : Nat} {latch : Bool} {r : Instr} (h : rowOf m fn latch = .ok r) :
    r.major = m ∧ formOfInfo r.info = formOf m := by
  unfold rowOf at h
  split at h
  · cases h; subst m; decide
  split at h
  · cases h; subst m; decide
  split at h
  · subst m
    split at h
    · cases h; decide
    · split at h <;> cases h; decide
  split at h
  · subst m
    split at h <;> cases h; decide
  split at h
  · subst m
    split at h
    · split at h <;> cases h <;> decide
    · cases h
  · split at h
    · next x hx =>
      cases h
      have hm := List.find?_some hx
      rw [Bool.and_eq_true, beq_iff_eq] at hm
      rw [← hm.1]
      exact rowTable_agrees x (List.mem_of_find?_eq_some hx)
    · cases h

theorem rowOf_ne_illegalMajor (m fn : Nat) (latch : Bool) : rowOf m fn latch ≠ .error .illegalMajor := by
  unfold rowOf
  repeat' split
  all_goals nofun

/-- A major without a form is illegal (R85). -/
theorem decodeInstr_of_noForm {h : Half} (tl : List Half) (hf : formOf (h.extractLsb' 6 7).toNat = none) :
    decodeInstr h tl = .error .illegalMajor := by
  simp only [decodeInstr, hf]

/-- A major with a form: the tail reaches the form's fields, and the function code selects the row (R76, R85). -/
theorem decodeInstr_of_form {h : Half} (tl : List Half) {f : Form} (hf : formOf (h.extractLsb' 6 7).toNat = some f) :
    decodeInstr h tl = if (h.extractLsb' 14 2).toNat < f.minT then .error .shortTail
      else (rowOf (h.extractLsb' 6 7).toNat (f.fields h tl).fn.toNat ((f.fields h tl).imm.getLsbD 9)).map (fun r => ⟨r, f.fields h tl⟩) := by
  simp only [decodeInstr, hf]
  congr 1
  cases rowOf (h.extractLsb' 6 7).toNat (f.fields h tl).fn.toNat ((f.fields h tl).imm.getLsbD 9) <;> rfl

/-- What the decoder answers: the row that the function code selects, with the fields of the form of the major. -/
theorem decodeInstr_ok {h : Half} {tl : List Half} {i : Inst} (hd : decodeInstr h tl = .ok i) : ∃ f : Form,
    formOf (h.extractLsb' 6 7).toNat = some f ∧ i.o = f.fields h tl ∧
      rowOf (h.extractLsb' 6 7).toNat i.o.fn.toNat (i.o.imm.getLsbD 9) = .ok i.row := by
  cases hf : formOf (h.extractLsb' 6 7).toNat with
  | none => rw [decodeInstr_of_noForm tl hf] at hd; cases hd
  | some f =>
    rw [decodeInstr_of_form tl hf] at hd
    split at hd
    · cases hd
    · cases hr : rowOf (h.extractLsb' 6 7).toNat (f.fields h tl).fn.toNat ((f.fields h tl).imm.getLsbD 9) <;> rw [hr] at hd <;> cases hd
      exact ⟨f, rfl, rfl, hr⟩

theorem decodeInstr_illegalMajor {h : Half} {tl : List Half} :
    decodeInstr h tl = .error .illegalMajor ↔ formOf (h.extractLsb' 6 7).toNat = none := by
  refine ⟨fun hd => ?_, decodeInstr_of_noForm tl⟩
  cases hf : formOf (h.extractLsb' 6 7).toNat with
  | none => rfl
  | some f =>
    rw [decodeInstr_of_form tl hf] at hd
    split at hd
    · cases hd
    · cases hr : rowOf (h.extractLsb' 6 7).toNat (f.fields h tl).fn.toNat ((f.fields h tl).imm.getLsbD 9) <;> rw [hr] at hd <;> cases hd
      exact absurd hr (rowOf_ne_illegalMajor _ _ _)

/-- The majors without a form (R85). -/
theorem formOf_eq_none {m : Nat} (hm : m < 128) : formOf m = none ↔
    m = 0 ∨ m = 0x7f ∨ m = 0x2f ∨ (0x4c ≤ m ∧ m ≤ 0x4f) ∨ m = 0x72 ∨ m = 0x73 := by
  unfold formOf
  split
  · simp only [true_iff]; omega
  · split
    · simp; omega
    · split <;> simp <;> omega

/-- Settles O2: the decoder's fields encode to the halfwords they were read from, and a row has the major and form that selected it. -/
theorem encodeDecode : Obligations.EncodeDecode := by
  refine ⟨fun h tl i hl hd => ?_, fun h tl => decodeInstr_illegalMajor.trans (formOf_eq_none (h.extractLsb' 6 7).isLt)⟩
  obtain ⟨f, hf, ho, hr⟩ := decodeInstr_ok hd
  obtain ⟨hm, hi⟩ := rowOf_agrees hr
  rw [← f.encode_fields hl, ← hm, ← ho]
  exact encode_of_form (hi.trans hf) i.o

/-! Decoding what was encoded. -/

section
variable {o : Fields}

@[simp] theorem halfAB_pg : (halfAB o).extractLsb' 13 3 = o.pg := by ext i; grind [halfAB]
@[simp] theorem halfAB_fn : (halfAB o).extractLsb' 10 3 = o.fn.extractLsb' 0 3 := by ext i; grind [halfAB]
@[simp] theorem halfAB_s1 : (halfAB o).extractLsb' 5 5 = o.s1 := by ext i; grind [halfAB]
@[simp] theorem halfAB_s2 : (halfAB o).extractLsb' 0 5 = o.s2 := by ext i; grind [halfAB]
@[simp] theorem halfC0_pg : (halfC0 o).extractLsb' 13 3 = o.pg := by ext i; grind [halfC0]
@[simp] theorem halfC0_fn : (halfC0 o).extractLsb' 7 6 = o.fn := by ext i; grind [halfC0]
@[simp] theorem halfC0_s1 : (halfC0 o).extractLsb' 2 5 = o.s1 := by ext i; grind [halfC0]
@[simp] theorem halfC0_sz : (halfC0 o).extractLsb' 0 2 = o.sz := by ext i; grind [halfC0]
@[simp] theorem halfC1_s2 : (halfC1 o).extractLsb' 11 5 = o.s2 := by ext i; grind [halfC1]
@[simp] theorem halfC1_s3 : (halfC1 o).extractLsb' 6 5 = o.s3 := by ext i; grind [halfC1]
@[simp] theorem halfC1_sc : (halfC1 o).extractLsb' 3 3 = o.sc := by ext i; grind [halfC1]
@[simp] theorem halfC1_md : (halfC1 o).extractLsb' 0 3 = o.md := by ext i; grind [halfC1]

/-- A number whose high part is zero is its low part, widened. -/
theorem setWidth_extractLsb'_low {w k : Nat} {x : BitVec (k + w)} (h : x.extractLsb' w k = 0) : (x.extractLsb' 0 w).setWidth (k + w) = x := by
  conv_rhs => rw [← BitVec.extractLsb'_append_extractLsb' (x := x), h]
  ext i
  grind

/-- Forms A and B lose no field of their shape (Tables 31, 32). -/
theorem fieldsAB_encodeAB (m : Nat) (h : o.shapeA = true) : fieldsAB (encodeAB m o).1 (encodeAB m o).2 = o := by
  simp only [Fields.shapeA, Bool.and_eq_true, Bool.or_eq_true, beq_iff_eq, bne_iff_ne, decide_eq_true_eq] at h
  obtain ⟨⟨⟨⟨⟨⟨⟨hfn, hs3⟩, hsz⟩, hsc⟩, hmd⟩, h0⟩, h1⟩, h2⟩ := h
  have hpos : o.t ≠ 0 → 0 < o.t.toNat := fun h => by bv_omega
  have hfn' : (o.fn.extractLsb' 0 3).setWidth 6 = o.fn := setWidth_extractLsb'_low hfn
  have himm : (if 2 < o.t.toNat then o.imm.extractLsb' 16 16 else 0) ++ (if 1 < o.t.toNat then o.imm.extractLsb' 0 16 else 0) = o.imm := by
    have happ : o.imm.extractLsb' 16 16 ++ o.imm.extractLsb' 0 16 = o.imm := BitVec.extractLsb'_append_extractLsb'
    obtain hi | hi := h1
    · rw [if_pos (show 1 < o.t.toNat from hi)]
      obtain ht | hz := h2
      · rw [ht]
        exact happ
      · rw [hz, ite_self, ← hz, happ]
    · rw [hi]
      split <;> split <;> rfl
  simp only [fieldsAB, encodeAB, syncOf_encodeTail, operandAt_encodeTail, encodeHead_r0, encodeHead_t, encodeHead_d,
    show 0 < 3 by decide, show 1 < 3 by decide, show 2 < 3 by decide, List.getD_cons_zero, List.getD_cons_succ, himm]
  obtain ht | ⟨⟨⟨hpg, hs1⟩, hs2⟩, hf0⟩ := h0
  · simp only [hpos ht, if_true, halfAB_pg, halfAB_fn, halfAB_s1, halfAB_s2, hfn']
    obtain ⟨r0, t, d, pg, fn, s1, s2, s3, sz, sc, md, imm, sync⟩ := o
    simp only at hs3 hsz hsc hmd
    subst hs3 hsz hsc hmd
    rfl
  · have hz : halfAB o = 0 := by rw [halfAB, hpg, hs1, hs2, hf0]; rfl
    rw [hz]
    obtain ⟨r0, t, d, pg, fn, s1, s2, s3, sz, sc, md, imm, sync⟩ := o
    simp only at *
    subst hs3 hsz hsc hmd hpg hs1 hs2 hf0
    simp

/-- Form C loses no field of its shape (Table 33). -/
theorem fieldsC_encodeC (m : Nat) (h : o.shapeC = true) : fieldsC (encodeC m o).1 (encodeC m o).2 = o := by
  simp only [Fields.shapeC, Bool.and_eq_true, Bool.or_eq_true, beq_iff_eq, decide_eq_true_eq] at h
  obtain ⟨⟨ht, hi⟩, hhi⟩ := h
  have himm : (if 2 < o.t.toNat then o.imm.extractLsb' 0 16 else 0).setWidth 32 = o.imm := by
    obtain h3 | hz := hi
    · rw [h3]
      exact setWidth_extractLsb'_low hhi
    · rw [hz]
      split <;> rfl
  simp only [fieldsC, encodeC, syncOf_encodeTail, operandAt_encodeTail, encodeHead_r0, encodeHead_t, encodeHead_d,
    show 0 < 3 by decide, show 1 < 3 by decide, show 2 < 3 by decide, List.getD_cons_zero, List.getD_cons_succ,
    show 0 < o.t.toNat by omega, show 1 < o.t.toNat by omega, if_true, himm,
    halfC0_pg, halfC0_fn, halfC0_s1, halfC0_sz, halfC1_s2, halfC1_s3, halfC1_sc, halfC1_md]

end

/-! The rows, by their lemmas of PerInstr. -/

open Laws.Selects in
/-- Every row agrees with the decoder's table: its lemma, in the order of the constructors. -/
theorem statement_all (r : Instr) : Statement r :=
  @Instr.casesOn Statement r
      add addW addSs addUs sub subW subSs subUs mul mulW mulhSs mulhUu mulhSu div divU divW divUw rem remU remW remUw andR orR xor andn shl
      shlW shr shrA shrW shrAw rot rotL rotW rotLw min minU max maxU bcntClz bcntCtz bcntPopc extS8 extS16 extS32 extZ8 extZ16 extZ32 bfxU
      bfxS bfi sel cmpEq cmpNe cmpLt cmpGe cmpLtu cmpGeu liLo liHi mov movP movSp movPs movPand movPor movPnot addp addpB subp subpB mkp
      psetFmt psetBlk psetSpc psetRel psetTile psetDie psetOff psetCore pgetFmt pgetBlk pgetSpc pgetRel pgetTile pgetDie pgetOff pgetCore
      pabs waitdep trigger br brpAny brpAll brpNone brpNall jal jalr loop fork join spawn exit yield sleep trap trapBkpt upret eret nop
      nopSpin nopPhase fadd fsub fmul ffma fminmaxMin fminmaxMax fcvtI64F32 fcvtF32I64 fcvtU64F32 fcvtF32U64 fcvtF16F32 fcvtF32F16
      fcvtBf16F32 fcvtF32Bf16 fcmpEq fcmpLt fcmpLe fcmpUn fspecRcp fspecRsqrt fspecSqrt fspecDiv fspecExp2 fspecLog2 ldU8 ldS8 ldU16 ldS16
      ldU32 ldS32 ld64 ldFmt st8 st16 st32 st64 stFmt lda stl amoAdd amoAnd amoOr amoXor amoSmin amoSmax amoUmin amoUmax amoSwap cas fence
      fenceAcq fenceRel xfence ldfeTake ldfePeek stfeFill stfeForce stfeClear get put ramoAdd ramoAnd ramoOr ramoXor ramoSmin ramoSmax
      ramoUmin ramoUmax ramoSwap ramoFadd flushWb flushWbi flushInv flushCode prefR prefW prefGw cwait csig cset crd bar barArrive barWait
      barrierToken barrierRelease vadd vaddSat vsub vsubSat vmul vmulHi vmulSat vfma vfmaMs vfmaNm vminmaxMin vminmaxMax vnegabsNeg
      vnegabsAbs vcvt vcvtSat vcmpEq vcmpNe vcmpLt vcmpGe vcmpLe vcmpGt vcmpUn vsel vredSum vredMin vredMax vredAnd vredOr vredXor vshufIdx
      vshufRot vshufLo vshufHi vshufRev vbcastS vbcastLane vld vldStr vst vstStr vgth vsct vspecRcp vspecRsqrt vspecSqrt vspecDiv vspecExp2
      vspecLog2 vspecTanh vdotQ vdotP vamax vscale vquant vtbl venc vintAnd vintOr vintXor vintAndn vintShl vintShr vintSra vintPopc vseq
      vseqe gang2 gang4 gang8 gangFormation ungang vectorSequencerExecute mlat mma mmas matrixQueueIssue matrixOperandReadEnd
      matrixAccumulatorWrite consumedSignal maccZero maccLd maccSt maccCvt gaitl mgait spurCfg spurPost spurTick spurRead spurDrain
      spurEventArrival spurEventRetry paceTickClose closeResume sendUni sendMulti sendReply taskArrival messageRetry overflowReentry
      replyDelivery workStart dequeStealProbe cpy gth gthLatch copyCommand gatherCommand commandRetire collReduce collRegister collBcast
      collJoin collDigest collectiveEpisode classMask classUnmask classTest launch launchSteal launchPreempt launchResume launchCancel
      preemptionSave launchEntry coreLeave unitRefill stealRequest stealAnswer launchEnd graphDecrement sysCsrr sysCsrw sysCsrx
      registerWrite dectabStore dectabSelect plbWrite detmodeWrite featackWrite ctlprioWrite tandemOn tandemOff tandemFormation ownGive
      ownQuery leaseRenew stackCloseEnd stackDrainEnd stackWriteBackEnd stackLeaseWaitEnd stackSwitch remoteAccessAtHome remoteAckArrival
      getValueReturn gatewayLineFill gatewayLineExpiry translationExpiry engineLeaseRenew remapNack pagerService contextWake waitLimit
      sleepTimeout hang rotationArm drain abort newMap copyState resumeTile retire test maint maintEnd farrierHold ckoff suspectClear
      counterClear faultCountClear exposureCount wearFuseWrite checkpointEpoch siteLoss fingerprintExchange flitForward linkReplay
      injectorArm injectorTrigger linkControlWrite linkChangeDone tetherArrival paceBeacon beaconMiss clockStretch referenceLoss panelReset
      bridgeLaunchWrite bridgeDataWrite bridgeDataRead bridgeControlWrite unsupportedRequest attestationRequest attestationReportReady
      debugUnlock debugHalt debugObserve lifeCycleMove dieDrowsy panelPark active tileIdle refusedClear protectionDescriptorStore
      referenceReturn deliveryAnswer scrub debugRelock

/-- The decoder reads the fields of a form back from their encoding, when the fields have the form's shape. -/
theorem Inst.fields_encode {i : Inst} {f : Form} (hf : formOfInfo i.row.info = some f) (hs : i.shapeOk = true) (m : Nat) :
    f.fields (f.encode m i.o).1 (f.encode m i.o).2 = i.o := by
  unfold Inst.shapeOk at hs
  cases hi : i.row.info <;> rw [hi] at hf hs <;> cases hf
  case A => exact fieldsAB_encodeAB m hs
  case B => exact fieldsAB_encodeAB m (Bool.and_eq_true_iff.1 hs).1
  case C => exact fieldsC_encodeC m hs

/-- The operand tail is as long as its form asks (R76). -/
theorem Inst.minT_le {i : Inst} {f : Form} (hf : formOfInfo i.row.info = some f) (hs : i.shapeOk = true) : f.minT ≤ i.o.t.toNat := by
  unfold Inst.shapeOk at hs
  cases hi : i.row.info <;> rw [hi] at hf hs <;> cases hf
  case A => exact Nat.zero_le _
  case B =>
    have ht : i.o.t ≠ 0 := by simpa [Fields.shapeB] using (Bool.and_eq_true_iff.1 hs).2
    change 1 ≤ _
    bv_omega
  case C =>
    have ht : 2 ≤ i.o.t.toNat := by
      simp only [Fields.shapeC, Bool.and_eq_true, decide_eq_true_eq] at hs
      exact hs.1.1
    exact ht

theorem Form.encode_head (f : Form) (m : Nat) (o : Fields) : (f.encode m o).1 = encodeHead o m := by cases f <;> rfl

theorem Form.length_encode (f : Form) (m : Nat) (o : Fields) : (f.encode m o).2.length = tailLen (f.encode m o).1 := by
  cases f <;> exact length_encodeTail ..

/-- A listed row is the one its major and function code select. -/
theorem Inst.rowOf_listed {i : Inst} (hl : i.listed = true) : ∃ f, formOfInfo i.row.info = some f ∧ formOf i.row.major = some f ∧
    rowOf i.row.major i.o.fn.toNat (i.o.imm.getLsbD 9) = .ok i.row := by
  obtain ⟨hfn, hx⟩ := Bool.and_eq_true_iff.1 hl
  have hreg : i.row ≠ .collRegister := fun h => by simp [h] at hx
  have hlatch : latchAgrees i.row (i.o.imm.getLsbD 9) = true := by
    unfold latchAgrees
    split <;> simp_all
  have hst := statement_all i.row
  unfold Statement at hst
  split at hst
  · next f u hf hu =>
    rw [hu] at hfn
    refine ⟨f, hf, hst.1, ?_⟩
    rw [hst.2 i.o.fn _ hfn hlatch, if_neg hreg]
  · next hno =>
    cases hi : i.row.info <;> rw [hi] at hfn hno
    case event => cases hfn
    all_goals exact (hno _ _ rfl rfl).elim

theorem formOf_lt {m : Nat} {f : Form} (h : formOf m = some f) : m < 128 := by
  by_contra hm
  rw [formOf, if_pos (by omega)] at h
  cases h

/-- Settles O1: a form's encoder and field reader are inverse on fields of its shape, and the encoded major and function code select the row. -/
theorem decodeEncode : Obligations.DecodeEncode := by
  intro i hw
  simp only [Inst.wellFormed, Bool.and_eq_true] at hw
  obtain ⟨⟨hl, hs⟩, -⟩ := hw
  obtain ⟨f, hf, hm, hr⟩ := i.rowOf_listed hl
  have ho := i.fields_encode hf hs i.row.major
  have hmaj : ((f.encode i.row.major i.o).1.extractLsb' 6 7).toNat = i.row.major := by
    rw [f.encode_head, encodeHead_major, BitVec.toNat_ofNat, Nat.mod_eq_of_lt (formOf_lt hm)]
  refine ⟨(f.encode i.row.major i.o).1, (f.encode i.row.major i.o).2, encode_of_form hf i.o, f.length_encode _ _, ?_⟩
  rw [decodeInstr_of_form (f.encode i.row.major i.o).2 (hmaj.symm ▸ hm), hmaj, ho, hr, if_neg]
  · rfl
  · rw [f.encode_head, encodeHead_t]
    exact (i.minT_le hf hs).not_gt

/-- Settles O4: the decoder runs on each word. -/
theorem decodeWords : Obligations.DecodeWords := by
  unfold Obligations.DecodeWords
  and_intros <;> rfl

end Sys2Proof
end

