-- ==== Sys2Proof/Proofs/Lines.lean ====
section
/-! A line of bytes and its halfwords (R67–R70), and entering a line in a core's own TCM (R70–R74). -/

namespace Sys2Proof

/-! A line of one instruction. -/

theorem halfAt_flatMap_halfBytes (l : List Half) (k : Nat) : halfAt (l.flatMap halfBytes) k = l.getD k 0 := by
  induction l generalizing k with
  | nil =>
    rw [List.flatMap_nil, halfAt, List.getD_nil, List.getD_nil, List.getD_nil]
    rfl
  | cons h l ih =>
    cases k with
    | zero =>
      change h.extractLsb' 8 8 ++ h.extractLsb' 0 8 = h
      exact BitVec.extractLsb'_append_extractLsb'
    | succ k => exact ih k

section
variable {h : Half} {tl : List Half} (hl : tl.length = tailLen h)

/-- The header of the line counts one head. -/
theorem halfAt_lineOf_header (h : Half) (tl : List Half) : halfAt (lineOf h tl) 0 = 1 := halfAt_flatMap_halfBytes _ 0

theorem halfAt_lineOf_head (h : Half) (tl : List Half) : halfAt (lineOf h tl) 1 = h := halfAt_flatMap_halfBytes _ 1

theorem headCount_lineOf (h : Half) (tl : List Half) : headCount (lineOf h tl) = 1 := by
  rw [headCount, halfAt_lineOf_header]
  rfl

theorem tailSum_lineOf (h : Half) (tl : List Half) : tailSum (lineOf h tl) 1 = tailLen h := by
  rw [tailSum, tailSum, halfAt_lineOf_head, Nat.zero_add]

theorem tailLen_le (h : Half) : tailLen h ≤ 4 := by
  have ht : (h.extractLsb' 14 2).toNat < 4 := (h.extractLsb' 14 2).isLt
  have hy : (h.extractLsb' 13 1).toNat < 2 := (h.extractLsb' 13 1).isLt
  rw [tailLen]
  omega

include hl

/-- The tail stands at the top of the line (R69). -/
theorem halfAt_lineOf_tail {j : Nat} (hj : j < tl.length) : halfAt (lineOf h tl) (32 - tl.length + j) = tl[j] := by
  have h4 := tailLen_le h
  have hgap : ([1, h] ++ List.replicate (30 - tl.length) 0).length = 32 - tl.length := by simp; omega
  rw [lineOf, halfAt_flatMap_halfBytes, List.getD_eq_getElem?_getD, List.getElem?_append_right (by omega), hgap, Nat.add_sub_cancel_left,
    List.getElem?_eq_getElem hj, Option.getD_some]

theorem headParts_lineOf : headParts (lineOf h tl) 0 = (h, tl) := by
  simp only [headParts, Nat.zero_add, Nat.add_zero, tailSum_lineOf, halfAt_lineOf_head, ← hl]
  refine Prod.ext rfl (List.ext_getElem (by simp) fun j _ hj => ?_)
  simp only [List.getElem_map, List.getElem_range, halfAt_lineOf_tail hl hj]

end

/-- Settles O3: the line's halfwords are the header 1, the head, and the tail at its top. -/
theorem lineHoldsInstruction : Obligations.LineHoldsInstruction := by
  intro h tl hl
  refine ⟨?_, headCount_lineOf h tl, by rw [decodeHead, headParts_lineOf hl]⟩
  have h4 := tailLen_le h
  rw [lineError, halfAt_lineOf_header, headCount_lineOf, tailSum_lineOf, if_neg (by decide), if_neg (by omega)]

end Sys2Proof

namespace Sys2Proof.Machine

open Sys2Proof

/-! Entering a line. -/

theorem toNat_lineBase (pc : Word) : (lineBase pc).toNat = pc.toNat / 64 * 64 := by
  have := pc.isLt
  rw [lineBase_eq_lineOfPc, Claim.lineOfPc, BitVec.toNat_ofNat, Nat.mod_eq_of_lt (by omega)]

theorem pSpc_lineBase (pc : Word) : pSpc (lineBase pc) = pSpc pc := by
  simp only [pSpc, BitVec.extractLsb'_toNat, Nat.shiftRight_eq_div_pow, toNat_lineBase]
  omega

theorem unassigned_lineBase {pc : Word} (h0 : pSpc pc = 0) (hu : unassigned pc = 0) : unassigned (lineBase pc) = 0 := by
  simp only [unassigned, pSpc_lineBase, h0, toNat_lineBase] at hu ⊢
  omega

section
variable {s : State} {c : CtxId} {base : Word}

theorem State.home_tcm (h0 : pSpc base = 0) : s.home c.core base = dieOf c.core.vt := by
  simp [State.home, namedDie, h0]

/-- The core with a line of its own TCM in its code store (R75). -/
def State.lineHeld (s : State) (c : CtxId) (base : Word) : State :=
  let a := flatTcm c.core (pOff base)
  s.modCore c.core (fun k => { k with code := k.code.set a ⟨some a, s.bytes a 64⟩ })

/-- A permitted fetch from the core's own TCM reads the bytes there (R73–R75). -/
theorem State.fetchLine_tcm (h0 : pSpc base = 0) (hu : unassigned base = 0)
    (hp : s.permitted c.core.vt (s.ctx c).sup 0 (pOff base) 64 .fetch = true)
    (hc : (s.core c.core).code.find (flatTcm c.core (pOff base)) = none) (hx : s.poisoned (flatTcm c.core (pOff base)) 64 = false) :
    s.fetchLine c base = .line (s.bytes (flatTcm c.core (pOff base)) 64) (s.lineHeld c base) := by
  have hf : s.spaceFault base = false := by simp [State.spaceFault, hu, h0]
  have ha : s.flatOf c.core base = flatTcm c.core (pOff base) := by simp [State.flatOf, h0]
  have hk : s.lineKey c.core base = flatTcm c.core (pOff base) := by simp [State.lineKey, h0, ha]
  have ht : ∀ b, s.takeLine c base (some (flatTcm c.core (pOff base))) b false =
      .line b (s.modCore c.core (fun k => { k with code := k.code.set (flatTcm c.core (pOff base)) ⟨some (flatTcm c.core (pOff base)), b⟩ })) :=
    fun b => by simp [State.takeLine, hk, hc]
  simp [State.fetchLine, hf, State.home_tcm h0, h0, hp, ha, hx, ht, State.lineHeld]

end

/-- A valid line with the head raises nothing (R70, R72). -/
theorem lineFault_none {line : List Byte} {pc : Word} (e : Entry) (hl : lineError line = none) (hh : headIndex pc < headCount line) :
    lineFault line pc e = none := by
  simp only [lineFault, hl, if_neg hh.not_ge]

section
variable {s t : State} {c : CtxId} {line : List Byte}

/-- Control that reaches a head of a valid line stands at it, however it got there (R70–R72). -/
theorem State.enterLine_stands (hspc : pSpc (s.ctx c).pc = 0) (hfmt : pFmt (s.ctx c).pc = 0) (hblk : pBlk (s.ctx c).pc = 0)
    (hrel : pRel (s.ctx c).pc = false) (heven : ((s.ctx c).pc.extractLsb' 0 6).toNat % 2 = 0) (hne : ((s.ctx c).pc.extractLsb' 0 6).toNat ≠ 0)
    (hat : s.lineAt c (lineBase (s.ctx c).pc) = .line line t) (hl : lineError line = none) (hh : headIndex (s.ctx c).pc < headCount line) :
    s.enterLine c = .at_ (t.stand c (s.ctx c).pc line) := by
  have hcount : headCount line ≠ 0 := by omega
  have hodd : ((s.ctx c).pc.extractLsb' 0 6).toNat % 2 ≠ 1 := by omega
  simp only [State.enterLine, hspc, hfmt, hblk, hrel]
  by_cases hsk : (s.ctx c).entry = .skipped
  · simp [hsk, State.enterSecond, hat, hl, hcount]
  · rw [if_neg (by decide), if_neg hsk, if_neg (not_or.2 ⟨hne, hodd⟩), hat]
    simp only [hcount, and_false, if_false, lineFault_none _ hl hh]

theorem Frame.stand {e : CtxId} {d : Touch} (h : Frame s t e d) (c : CtxId) (pc : Word) (line : List Byte) : Frame s (t.stand c pc line) e d :=
  h.modCtx c (fun k => { k with pc := pc, entry := .inLine, line := line }) fun _ => rfl

@[simp] theorem State.ctx_stand (s : State) (c : CtxId) (pc : Word) (line : List Byte) :
    (s.stand c pc line).ctx c = { s.ctx c with pc := pc, entry := .inLine, line := line } := s.ctx_modCtx_same c _

end

/-- Settles O6: the line is no line of a checked body, and its fetch and its checks find nothing wrong. -/
theorem fetchReadsLine : Obligations.FetchReadsLine := by
  intro s c pc base line hspc hfmt hblk hrel hun heven hne hp hc hbody hx hl hh
  have hat : s.lineAt c base = .line line (s.lineHeld c base) := by
    rw [State.lineAt, List.find?_eq_none.2 (by simpa using hbody)]
    exact State.fetchLine_tcm ((pSpc_lineBase pc).trans hspc) (unassigned_lineBase hspc hun) hp hc hx
  refine ⟨(s.lineHeld c base).stand c pc line, State.enterLine_stands hspc hfmt hblk hrel heven hne hat hl hh, ?_, ?_, ?_, ?_⟩
  · rw [State.ctx_stand]
  · rw [State.ctx_stand]
  · rw [State.ctx_stand]
  · exact ((Frame.refl s c Touch.none).modCore _ _).stand c pc line

end Sys2Proof.Machine
end

