-- ==== Sys2Proof/Proofs/Completion.lean ====
section
/-! What completing an instruction makes of its context and of the counters of its core (R27, R71, R84, R168). -/

namespace Sys2Proof.Machine

open Sys2Proof

/-! The context. -/

theorem Ctx.still_entry {k q : Ctx} (h : k.still = q.still) : k.entry = q.entry ∧ k.count = q.count := by
  have hentry := congrArg Ctx.entry h
  have hcount := congrArg Ctx.count h
  exact ⟨hentry, hcount⟩

/-- The context of a completed instruction has advanced; its signals leave it ready (R71, R84). -/
theorem State.complete_advances (s : State) (c : CtxId) (row : Instr) (o : Fields) (off : Bool) {ctl : Ctl} (g : Option (Nat × Nat))
    (hc : ctl ≠ .ended) : let t := s.complete c row o off ctl g
    (t.ctx c).pc = ((s.ctx c).advance ctl).pc ∧ (t.ctx c).entry = ((s.ctx c).advance ctl).entry ∧ (t.ctx c).count = (s.ctx c).count + 1 ∧
      (t.ctx c).st = .ready := by
  have hdone := (s.complete_quiet c row o off g hc).ctxs c True.intro
  have hbegun := ((Quiet.refl s (fun _ => True)).endAccess c row o off).ctxs c True.intro
  rw [State.ctx_modCtx_same] at hdone
  generalize (s.endAccess c row o off).ctx c = k at hdone hbegun
  obtain ⟨hpc, hline, -⟩ := Ctx.still_parts hbegun
  obtain ⟨hpc', -, -, -, -, hst⟩ := Ctx.still_parts hdone
  obtain ⟨hentry, hcount⟩ := Ctx.still_entry hbegun
  obtain ⟨hentry', hcount'⟩ := Ctx.still_entry hdone
  have hadv : (k.advance ctl).pc = ((s.ctx c).advance ctl).pc ∧ (k.advance ctl).entry = ((s.ctx c).advance ctl).entry := by
    cases ctl <;> simp only [Ctx.advance, hpc, hline, hentry, and_self]
  exact ⟨hpc'.trans hadv.1, hentry'.trans hadv.2, hcount'.trans (congrArg (· + 1) hcount), hst.2 rfl⟩

/-! The counters. -/

section
variable (s : State) (c : CtxId) (row : Instr) (o : Fields) (off : Bool)

theorem State.cores_endAccess : (s.endAccess c row o off).cores = s.cores := by
  simp only [State.endAccess]
  split
  · rfl
  · split <;> rfl

theorem State.rein_fingerAdd (pc : Word) (ends : Bool) (g : Option (Nat × Nat)) (k : CoreId) :
    ((s.fingerAdd c pc row o off ends g).core k).rein = (s.core k).rein := by
  simp only [State.fingerAdd]
  split
  · rfl
  · refine (State.core_modCore_proj _ _ _ Core.rein ?_ k).trans ?_
    · exact fun _ => rfl
    · rfl

theorem State.rein_reinSignal (n : Nat) (k : CoreId) : ((s.reinSignal c n).core k).rein = (s.core k).rein := by
  simp only [State.reinSignal, State.reinCarry]
  split
  · rfl
  · split
    · rfl
    · refine s.core_modCore_proj _ _ Core.rein ?_ k
      exact fun _ => rfl

/-- What a signal of a completing instruction makes of the counters (R27, R84). -/
theorem State.rein_signalLocal (n i : Nat) :
    ((s.signalLocal c (some (n, i))).core c.core).rein = (s.core c.core).rein.set n (((s.core c.core).reinAt n).add i false) := by
  have h : (((s.commit c).reinSignal c n).core c.core).rein = (s.core c.core).rein := by rw [State.rein_reinSignal, State.rein_commit]
  rw [State.signalLocal, State.rein_signal, h, Core.reinAt_of_rein h]

/-- A completion counts the instruction's signals, and nothing when its access is posted (R84, R168). -/
theorem State.rein_complete {ctl : Ctl} (g : Option (Nat × Nat)) (hc : ctl ≠ .ended) (hcons : consumedOf row o = none) : ∃ u : State,
    (u.core c.core).rein = (s.core c.core).rein ∧
      s.complete c row o off ctl g = if ctl = .async then u else u.signalLocal c g := by
  unfold State.complete
  extract_lets pc ends s1 s2 s3 s4
  have h1 : (s1.core c.core).rein = (s.core c.core).rein := by rw [State.core, State.cores_endAccess, State.core]
  have h2 : (s2.core c.core).rein = (s1.core c.core).rein := by simp only [s2, if_neg hc, State.core_modCtx]
  have h3 : (s3.core c.core).rein = (s2.core c.core).rein := by simp only [s3, if_neg hc, State.rein_fingerAdd]
  have h4 : (s4.core c.core).rein = (s3.core c.core).rein := by
    simp only [s4]
    split
    · exact State.rein_commit _ _ _
    · rfl
  exact ⟨s4, by rw [h4, h3, h2, h1], by rw [hcons]; rfl⟩

end

/-- Settles O13: a completion is quiet but for the advance of its context and the signal's own counter. -/
theorem completionAdvancesAndSignals : Obligations.CompletionAdvancesAndSignals := by
  unfold Obligations.CompletionAdvancesAndSignals
  constructor
  · intro s c row o off ctl g hc t
    obtain ⟨hpc, hentry, hcount, hst⟩ := s.complete_advances c row o off g hc
    refine ⟨hpc.trans ?_, hentry.trans ?_, hcount, hst, (Frame.refl s c Touch.none).complete c row o off ctl g⟩
    · cases ctl with
      | ended => exact absurd rfl hc
      | _ => rfl
    · cases ctl with
      | ended => exact absurd rfl hc
      | _ => rfl
  · intro s c row o off ctl g hc hcons t n
    obtain ⟨u, hu, ht⟩ := s.rein_complete c row o off g hc hcons
    have hsame : (u.core c.core).reinAt n = (s.core c.core).reinAt n := Core.reinAt_of_rein hu n
    simp only [t, ht]
    cases g with
    | none => rw [State.signalLocal, ite_self, hsame]
    | some p =>
      obtain ⟨m, inc⟩ := p
      by_cases ha : ctl = .async
      · simp only [ha, if_true, hsame, ne_eq, not_true, false_and, if_false]
      · obtain ⟨hm, hne⟩ := Core.reinAt_set (u.rein_signalLocal c m inc)
        rw [if_neg ha]
        by_cases hn : n = m
        · subst hn
          rw [hm, hsame]
          simp [ha, Rein.add]
        · rw [hne n hn, hsame]
          simp [hn]

end Sys2Proof.Machine
end

