-- ==== Sys2Proof/Proofs/IssueChecks.lean ====
section
/-! What the completion of a governed-off instruction leaves in a tandem pair (R82, R425, R426). -/

namespace Sys2Proof.Machine

open Sys2Proof

/-- The EXIT of context 1 of the primary of a pair, governed off by p1, which is zero. -/
def offExit : State :=
  { State.reset with
    cur := ⟨⟨0, 0⟩, 1⟩
    op := { Fields.zero with t := 1, pg := 1 }
    cores := [(0, { Core.reset with tandem := some ⟨1, true⟩ })] }

/-- The open interval of a context of a pair has an agreed point (R426). -/
def State.agreed (s : State) (c : CtxId) : Bool := ((s.core c.core).finger c.ctx).base.isSome

/-- Governed off, the EXIT ends no interval: its record is its head address alone, and it makes no agreed point (R425). -/
theorem offExit_agreed : (issue .exit bodyExit offExit).agreed offExit.cur = false := by decide

/-- `State.after` completes the EXIT as one that was performed, which ends the interval before it and belongs to the agreed point (R426). -/
theorem offExit_after_agreed : (offExit.after .exit .next offExit.synced).agreed offExit.cur = true := by decide

/-- Refutes O12: its last clause names `State.after` as the state that a governed-off instruction leaves, which completes it as one that its
predicate let run; in a tandem pair the two differ in the fingerprint's record and its agreed point, as they do for `offExit`. -/
theorem not_issueChecks : ¬ Obligations.IssueChecks := by
  unfold Obligations.IssueChecks
  rintro ⟨-, -, hoff⟩
  obtain ⟨hx, -⟩ := hoff .exit offExit (by decide) rfl rfl (by decide) rfl (by decide) (by decide)
  have ht : issue .exit bodyExit offExit = offExit.after .exit .next offExit.synced := by
    injection hx
  exact absurd (offExit_agreed.symm.trans (ht ▸ offExit_after_agreed)) (by decide)

end Sys2Proof.Machine
end

