-- ==== Sys2Proof/Proofs/StepRuns.lean ====
section
/-! What a step runs: the decoded instruction of the context in the issue slot, or the row of an event (R71, R276, R352). -/

namespace Sys2Proof.Machine

open Sys2Proof

/-! What comes before a turn leaves the turns that are to come. -/

section
variable (s : State)

theorem State.inputs_uncover (vd k : Nat) : (s.uncover vd k).inputs = s.inputs := rfl

theorem State.inputs_putLink (vd e : Nat) (g : Nat → Nat) : (s.putLink vd e g).inputs = s.inputs := by
  simp only [State.putLink]
  split <;> rfl

theorem State.inputs_foldl {α : Type} (f : State → α → State) (hf : ∀ t x, (f t x).inputs = t.inputs) (l : List α) :
    (l.foldl f s).inputs = s.inputs := by
  induction l generalizing s with
  | nil => rfl
  | cons x r ih => exact (ih _).trans (hf s x)

theorem State.inputs_follow : s.follow.inputs = s.inputs := by
  unfold State.follow
  refine State.inputs_foldl _ _ (fun t a => ?_) _
  dsimp only
  split
  · split
    · exact t.inputs_foldl _ (fun u k => u.inputs_uncover _ k) _
    · rfl
  · split
    · exact t.inputs_putLink _ _ _
    · rfl

theorem State.inputs_pruneYields : s.pruneYields.inputs = s.inputs := by
  unfold State.pruneYields
  split <;> rfl

/-- Every row answers with a next state. -/
theorem exec_next (row : Instr) : ∃ t, exec row s = .next t := by cases row <;> exact ⟨_, rfl⟩

end

/-! The step. -/

section
variable {s : State}

/-- The first of the listed turns comes next. -/
theorem State.prepare_of_inputs {x : Turn} {rest : List Turn} (h : s.inputs = x :: rest) :
    s.prepare = ({ s.follow.pruneYields with inputs := rest } : State).turn x := by
  have hi : s.follow.pruneYields.inputs = x :: rest := by rw [State.inputs_pruneYields, State.inputs_follow, h]
  have hn : s.follow.pruneYields.nextTurn = (some x, { s.follow.pruneYields with inputs := rest }) := by simp only [State.nextTurn, hi]
  simp only [State.prepare, hn]

/-- The state in which a decoded instruction runs: the issue slot is taken, the instruction is the one executing. -/
def State.going (s : State) (c : CtxId) (i : Inst) (ahead : Bool) : State :=
  { s.granted (s.members c) with cur := c, op := i.o, ahead := ahead || s.busy c }

/-- The issue slot of a context that stands at an instruction, with no interlock before it. -/
theorem State.issueSlot_at {s1 : State} {core : CoreId} {ahead : Bool} {c : CtxId} {i : Inst} (hp : s.pick core = some c)
    (he : s.enter c = .at_ s1) (hd : decodeHead (s1.ctx c).line (headIndex (s1.ctx c).pc) = .ok i) (hi : s1.interlocked c = false) :
    s.issueSlot core ahead =
      if s1.reportDue c then .report (s1.refine c i) (s1.going c i ahead) else .run (s1.refine c i) (s1.going c i ahead) := by
  simp only [State.issueSlot, hp, he, hd, hi]
  rfl

end

/-- Settles O5: the first turn of the list is taken, and every row answers with a next state. -/
theorem stepRunsDecoded : Obligations.StepRunsDecoded := by
  refine ⟨fun s s1 core ahead rest c i hin hp he hd hi => ?_, fun s row a rest hin hrow => ?_⟩
  · have hslot : s.prepare = if s1.reportDue c then .report (s1.refine c i) (s1.going c i ahead)
        else .run (s1.refine c i) (s1.going c i ahead) :=
      (State.prepare_of_inputs hin).trans (State.issueSlot_at hp he hd hi)
    refine ⟨fun hr => ?_, fun hr => ?_⟩
    · rw [hr, if_neg Bool.false_ne_true] at hslot
      rw [step, hslot]
      rfl
    · rw [hr, if_pos rfl] at hslot
      obtain ⟨t, ht⟩ := exec_next (s1.going c i ahead) (s1.refine c i)
      refine ⟨t, ht, ?_⟩
      simp only [step, hslot, ht]
      rfl
  · have hslot : s.prepare = .run row { s.follow.pruneYields with inputs := rest, cur := a.ctx, op := Fields.zero, ev := a, ahead := false } := by
      rw [State.prepare_of_inputs hin, State.turn, State.eventSlot, if_pos hrow]
    rw [step, hslot]

end Sys2Proof.Machine
end

