-- ==== Sys2Proof/Proofs/ExactFloats.lean ====
section
/-! What the operations on exact values give (R102, R115, R119, Table 55): sums and products exactly, quotients and roots between the kept units
and the next, and the special operands. -/

namespace Sys2Proof.Machine

open Sys2Proof

/-! Numbers. -/

theorem num_eq_signedMant (n : Bool) (m : Nat) (e : Int) : Claim.num n m e = (signedMant n m : ℚ) * 2 ^ e := by
  cases n <;> simp [Claim.num, signedMant]

theorem num_false (m : Nat) (e : Int) : Claim.num false m e = m * 2 ^ e := by simp [Claim.num]

/-- A finer unit counts the same number. -/
theorem signedMant_rescale (n : Bool) (m : Nat) {e q : Int} (h : q ≤ e) :
    ((signedMant n (m * 2 ^ (e - q).toNat) : Int) : ℚ) * 2 ^ q = Claim.num n m e := by
  have hp : (2 : ℚ) ^ e = 2 ^ (e - q).toNat * 2 ^ q := by
    rw [← zpow_natCast, ← zpow_add₀ two_ne_zero, Int.toNat_of_nonneg (by omega), sub_add_cancel]
  rw [num_eq_signedMant, hp]
  cases n <;> simp [signedMant] <;> ring

theorem num_mul (n1 n2 : Bool) (m1 m2 : Nat) (e1 e2 : Int) :
    Claim.num n1 m1 e1 * Claim.num n2 m2 e2 = Claim.num (n1 != n2) (m1 * m2) (e1 + e2) := by
  have hp : (2 : ℚ) ^ (e1 + e2) = 2 ^ e1 * 2 ^ e2 := zpow_add₀ two_ne_zero e1 e2
  cases n1 <;> cases n2 <;> simp [Claim.num, hp] <;> ring

theorem signedMant_natAbs (t : Int) : signedMant (decide (t < 0)) t.natAbs = t := by
  unfold signedMant
  split
  · next h => rw [decide_eq_true_eq] at h; omega
  · next h => rw [decide_eq_true_eq] at h; omega

/-! Sums and products. -/

section
variable (mode gn : Nat) (n1 n2 n3 : Bool) (m1 m2 m3 : Nat) (e1 e2 e3 : Int)

/-- The sum of two finite values in units of the lesser exponent. -/
theorem sumFin_units : ((signedMant n1 (m1 * 2 ^ (e1 - min e1 e2).toNat) + signedMant n2 (m2 * 2 ^ (e2 - min e1 e2).toNat) : Int) : ℚ) *
    2 ^ min e1 e2 = Claim.num n1 m1 e1 + Claim.num n2 m2 e2 := by
  rw [Int.cast_add, add_mul, signedMant_rescale n1 m1 (min_le_left e1 e2), signedMant_rescale n2 m2 (min_le_right e1 e2)]

theorem value_sumFin : Claim.value (sumFin mode n1 m1 e1 n2 m2 e2) = some (Claim.num n1 m1 e1 + Claim.num n2 m2 e2) := by
  have hsum := sumFin_units n1 n2 m1 m2 e1 e2
  unfold sumFin
  extract_lets e t
  split
  · next h0 =>
    rw [← hsum, show signedMant n1 _ + signedMant n2 _ = 0 from h0]
    simp [Claim.value, Claim.num]
  · rw [← hsum, Claim.value, num_eq_signedMant, signedMant_natAbs]

/-- An exact zero sum has the sign of R102. -/
theorem sumFin_zero (h : Claim.num n1 m1 e1 + Claim.num n2 m2 e2 = 0) :
    ∃ e, sumFin mode n1 m1 e1 n2 m2 e2 = .fin (if n1 = n2 then n1 else decide (mode = 3)) 0 e false := by
  rw [← sumFin_units, mul_eq_zero_iff_right (by positivity), Int.cast_eq_zero] at h
  refine ⟨min e1 e2, ?_⟩
  simp only [sumFin, h, if_true]
  cases n1 <;> cases n2 <;> rfl

theorem opAdd_fin : opAdd mode gn (.fin n1 m1 e1) (.fin n2 m2 e2) = (sumFin mode n1 m1 e1 n2 m2 e2, 0) := rfl

theorem opMul_fin : opMul gn (.fin n1 m1 e1) (.fin n2 m2 e2) = (.fin (n1 != n2) (m1 * m2) (e1 + e2) false, 0) := rfl

theorem opFma_fin : opFma mode gn (.fin n1 m1 e1) (.fin n2 m2 e2) (.fin n3 m3 e3) =
    (sumFin mode (n1 != n2) (m1 * m2) (e1 + e2) n3 m3 e3, 0) := rfl

end

/-! Quotients and roots. -/

/-- The natural quotient a ÷ b lies below the exact one by less than one. -/
theorem natDiv_between {a b : Nat} (hb : b ≠ 0) : ((a / b : Nat) : ℚ) ≤ (a : ℚ) / b ∧ (a : ℚ) / b < ((a / b : Nat) : ℚ) + 1 ∧
    (((a / b : Nat) : ℚ) = (a : ℚ) / b ↔ a % b = 0) := by
  have hpos : (0 : ℚ) < b := by exact_mod_cast Nat.pos_of_ne_zero hb
  refine ⟨Nat.cast_div_le, ?_, ?_⟩
  · rw [div_lt_iff₀ hpos]
    exact_mod_cast Nat.lt_mul_of_div_lt (Nat.lt_succ_self _) (Nat.pos_of_ne_zero hb)
  · rw [eq_div_iff hpos.ne']
    norm_cast
    have := Nat.div_add_mod a b
    rw [mul_comm] at this
    omega

theorem opDiv_between (gn : Nat) (n1 n2 : Bool) (m1 m2 : Nat) (e1 e2 : Int) (h2 : m2 ≠ 0) :
    ∃ m e st, opDiv gn (.fin n1 m1 e1) (.fin n2 m2 e2) = (.fin (n1 != n2) m e st, 0) ∧
      Claim.num false m e ≤ Claim.num false m1 e1 / Claim.num false m2 e2 ∧
      Claim.num false m1 e1 / Claim.num false m2 e2 < Claim.num false (m + 1) e ∧
      (st = false ↔ Claim.num false m e = Claim.num false m1 e1 / Claim.num false m2 e2) := by
  let k := bitLen m2 + 80
  obtain ⟨hle, hlt, heq⟩ := natDiv_between (a := m1 * 2 ^ k) h2
  have hu : (0 : ℚ) < 2 ^ (e1 - e2 - k) := by positivity
  have hv : Claim.num false m1 e1 / Claim.num false m2 e2 = ((m1 * 2 ^ k : Nat) : ℚ) / m2 * 2 ^ (e1 - e2 - k) := by
    have hk : (2 : ℚ) ^ (e1 - e2 - k) = 2 ^ e1 / 2 ^ e2 / 2 ^ k := by rw [zpow_sub₀ two_ne_zero, zpow_sub₀ two_ne_zero, zpow_natCast]
    rw [num_false, num_false, hk]
    push_cast
    field_simp
  refine ⟨m1 * 2 ^ k / m2, e1 - e2 - k, m1 * 2 ^ k % m2 != 0, ?_, ?_, ?_, ?_⟩
  · simp only [opDiv, firstNaN, Option.map, if_neg h2, FVal.neg]
    rfl
  · rw [hv, num_false]
    gcongr
  · rw [hv, num_false]
    push_cast
    push_cast at hlt
    gcongr
  · rw [hv, num_false, mul_left_inj' hu.ne', heq]
    simp

theorem isqrtAux_eq_sqrt {k n : Nat} (h : n < 4 ^ k) : isqrtAux k n = Nat.sqrt n := by
  induction k generalizing n with
  | zero => simp_all [isqrtAux]
  | succ k ih =>
    have hd : n / 4 < 4 ^ k := by rw [pow_succ] at h; omega
    have hlo := Nat.sqrt_le' (n / 4)
    have hhi := Nat.lt_succ_sqrt' (n / 4)
    rw [isqrtAux, ih hd, Nat.eq_sqrt']
    generalize Nat.sqrt (n / 4) = r at hlo hhi
    have hn : 4 * (n / 4) ≤ n ∧ n < 4 * (n / 4) + 4 := by omega
    split
    · constructor <;> nlinarith
    · constructor <;> nlinarith

theorem lt_two_pow_bitLen (m : Nat) : m < 2 ^ bitLen m := by
  unfold bitLen
  split
  · omega
  · exact Nat.lt_log2_self

theorem two_pow_le_of_bitLen {m : Nat} (h : m ≠ 0) : 2 ^ bitLen m ≤ 2 * m := by
  rw [bitLen, if_neg h, pow_succ, mul_comm]
  have := Nat.log2_self_le h
  omega

theorem isqrt_eq_sqrt (n : Nat) : isqrt n = Nat.sqrt n := by
  refine isqrtAux_eq_sqrt ((lt_two_pow_bitLen n).trans_le ?_)
  rw [show 4 = 2 ^ 2 from rfl, ← pow_mul]
  exact Nat.pow_le_pow_right (by decide) (by omega)

/-- An even exponent is the square of half of it. -/
theorem two_zpow_even {e : Int} (h : e % 2 = 0) : (2 : ℚ) ^ e = ((2 : ℚ) ^ (e / 2)) ^ 2 := by
  rw [← zpow_natCast, ← zpow_mul]
  congr 1
  push_cast
  omega

/-- The root of m × 2^e with an even exponent, kept to whole units. -/
theorem sqrt_between (m : Nat) {e : Int} (he : e % 2 = 0) : let r := isqrt m
    Claim.num false r (e / 2) ^ 2 ≤ Claim.num false m e ∧ Claim.num false m e < Claim.num false (r + 1) (e / 2) ^ 2 ∧
      ((r * r != m) = false ↔ Claim.num false r (e / 2) ^ 2 = Claim.num false m e) := by
  intro r
  have hr : r = Nat.sqrt m := isqrt_eq_sqrt m
  have hu : (0 : ℚ) < (2 ^ (e / 2)) ^ 2 := by positivity
  simp only [num_false, two_zpow_even he, mul_pow]
  refine ⟨?_, ?_, ?_⟩
  · gcongr
    exact_mod_cast hr ▸ Nat.sqrt_le' m
  · gcongr
    exact_mod_cast hr ▸ Nat.lt_succ_sqrt' m
  · rw [mul_left_inj' hu.ne', bne_eq_false_iff_eq, ← pow_two]
    norm_cast

/-- The reciprocal root of m × 2^e with an even exponent, kept to units of 2^(−e/2 − h). -/
theorem rsqrt_between {m : Nat} (hm : m ≠ 0) {e : Int} (he : e % 2 = 0) (h : Nat) : let r := isqrt (2 ^ (2 * h) / m)
    Claim.num false r (-(e / 2) - h) ^ 2 * Claim.num false m e ≤ 1 ∧ 1 < Claim.num false (r + 1) (-(e / 2) - h) ^ 2 * Claim.num false m e ∧
      ((r * r * m != 2 ^ (2 * h)) = false ↔ Claim.num false r (-(e / 2) - h) ^ 2 * Claim.num false m e = 1) := by
  intro r
  have hr : r = Nat.sqrt (2 ^ (2 * h) / m) := isqrt_eq_sqrt _
  have hm0 : 0 < m := Nat.pos_of_ne_zero hm
  have hlo : r ^ 2 * m ≤ 2 ^ (2 * h) := (Nat.le_div_iff_mul_le hm0).1 (hr ▸ Nat.sqrt_le' _)
  have hhi : 2 ^ (2 * h) < (r + 1) ^ 2 * m := (Nat.div_lt_iff_lt_mul hm0).1 (hr ▸ Nat.lt_succ_sqrt' _)
  have hpos : (0 : ℚ) < 2 ^ (2 * h) := by positivity
  have hscale : ∀ x : Nat, Claim.num false x (-(e / 2) - h) ^ 2 * Claim.num false m e = ((x ^ 2 * m : Nat) : ℚ) / 2 ^ (2 * h) := fun x => by
    have hu : (2 : ℚ) ^ (-(e / 2) - h) = (2 ^ (e / 2))⁻¹ / 2 ^ h := by rw [zpow_sub₀ two_ne_zero, zpow_neg, zpow_natCast]
    rw [num_false, num_false, two_zpow_even he, hu]
    push_cast
    field_simp
    ring
  rw [hscale, hscale, div_le_one hpos, one_lt_div hpos, div_eq_one_iff_eq hpos.ne', bne_eq_false_iff_eq, ← pow_two]
  refine ⟨by exact_mod_cast hlo, by exact_mod_cast hhi, ?_⟩
  norm_cast

/-- Doubling the units of an odd exponent makes it even. -/
theorem num_halved (m k : Nat) (e : Int) : Claim.num false (m * 2 ^ k) (e - k) = Claim.num false m e := by
  rw [num_false, num_false, zpow_sub₀ two_ne_zero, zpow_natCast]
  push_cast
  field_simp

theorem opSqrt_between (gn : Nat) {m1 : Nat} (e1 : Int) (h : m1 ≠ 0) : let v := Claim.num false m1 e1
    ∃ m e st, opSqrt gn (.fin false m1 e1) = (.fin false m e st, 0) ∧ Claim.num false m e ^ 2 ≤ v ∧ v < Claim.num false (m + 1) e ^ 2 ∧
      (st = false ↔ Claim.num false m e ^ 2 = v) := by
  intro v
  by_cases he : e1 % 2 = 0
  · refine ⟨isqrt (m1 * 2 ^ 160), (e1 - 160) / 2, isqrt (m1 * 2 ^ 160) * isqrt (m1 * 2 ^ 160) != m1 * 2 ^ 160, ?_, ?_⟩
    · simp only [opSqrt, firstNaN, Option.map, if_neg h, he, if_true, Bool.false_eq_true, if_false]
    · have := sqrt_between (m1 * 2 ^ 160) (e := e1 - 160) (by omega)
      rwa [show Claim.num false (m1 * 2 ^ 160) (e1 - 160) = v from num_halved m1 160 e1] at this
  · refine ⟨isqrt (m1 * 2 ^ 161), (e1 - 161) / 2, isqrt (m1 * 2 ^ 161) * isqrt (m1 * 2 ^ 161) != m1 * 2 ^ 161, ?_, ?_⟩
    · simp only [opSqrt, firstNaN, Option.map, if_neg h, if_neg he, Bool.false_eq_true, if_false]
    · have := sqrt_between (m1 * 2 ^ 161) (e := e1 - 161) (by omega)
      rwa [show Claim.num false (m1 * 2 ^ 161) (e1 - 161) = v from num_halved m1 161 e1] at this

theorem opRsqrt_between (gn : Nat) {m1 : Nat} (e1 : Int) (h : m1 ≠ 0) : let v := Claim.num false m1 e1
    ∃ m e st, opRsqrt gn (.fin false m1 e1) = (.fin false m e st, 0) ∧ Claim.num false m e ^ 2 * v ≤ 1 ∧
      1 < Claim.num false (m + 1) e ^ 2 * v ∧ (st = false ↔ Claim.num false m e ^ 2 * v = 1) := by
  intro v
  have hk : ∀ b : Nat, 2 * b / 2 = b := fun b => by omega
  by_cases he : e1 % 2 = 0
  · refine ⟨isqrt (2 ^ (2 * (bitLen m1 + 80)) / m1), -(e1 / 2) - (bitLen m1 + 80 : Nat), _, ?_, rsqrt_between h he (bitLen m1 + 80)⟩
    simp only [opRsqrt, firstNaN, Option.map, if_neg h, he, if_true, Bool.false_eq_true, if_false, hk]
  · let r := isqrt (2 ^ (2 * (bitLen (m1 * 2) + 80)) / (m1 * 2))
    refine ⟨r, -((e1 - 1) / 2) - (bitLen (m1 * 2) + 80 : Nat), r * r * (m1 * 2) != 2 ^ (2 * (bitLen (m1 * 2) + 80)), ?_, ?_⟩
    · simp only [opRsqrt, firstNaN, Option.map, if_neg h, if_neg he, Bool.false_eq_true, if_false, hk]
      rfl
    · have := rsqrt_between (m := m1 * 2) (by omega) (e := e1 - 1) (by omega) (bitLen (m1 * 2) + 80)
      rwa [show Claim.num false (m1 * 2) (e1 - 1) = v from num_halved m1 1 e1] at this

/-! NaN operands. -/

theorem firstNaN_of_first {pre post : List FVal} {b : Nat} {sig : Bool} (h : ∀ v ∈ pre, v.isNaN = false) :
    firstNaN (pre ++ .nan b sig :: post) = some (.nan (quieten b), flagIf fNV ((pre ++ .nan b sig :: post).any FVal.isSig)) := by
  induction pre with
  | nil => simp [firstNaN, FVal.isSig]
  | cons x r ih =>
    have hx : x.isNaN = false := h x (by simp)
    have hr := ih fun v hv => h v (by simp [hv])
    cases x with
    | nan b s => cases hx
    | inf n => simp [firstNaN, hr, FVal.isSig, flagIf]
    | fin n m e => simp [firstNaN, hr, FVal.isSig, flagIf]

/-- An operation that answers a NaN operand with the first one follows rule 1 of R119. -/
theorem nanRule_of_firstNaN {l : List FVal} {also : Bool} {r : ExactF}
    (h : ∀ x, firstNaN l = some x → r = (x.1, x.2 ||| flagIf fNV also)) : Claim.nanRule l also r := by
  rintro pre b sig post rfl hpre
  rw [h _ (firstNaN_of_first hpre)]
  generalize (pre ++ .nan b sig :: post).any FVal.isSig = sg
  cases sg <;> cases also <;> simp [flagIf]

theorem nanRules (mode gn : Nat) (x y c : FVal) : Claim.nanRule [x, y] false (opAdd mode gn x y) ∧ Claim.nanRule [x, y] false (opMul gn x y) ∧
    Claim.nanRule [x, y] false (opDiv gn x y) ∧
    Claim.nanRule [x, y, c] ((x.isInf && y.isZero) || (y.isInf && x.isZero)) (opFma mode gn x y c) ∧ Claim.nanRule [x] false (opSqrt gn x) ∧
    Claim.nanRule [x] false (opRsqrt gn x) ∧ Claim.nanRule [x] false (opExp2 x) ∧ Claim.nanRule [x] false (opLog2 gn x) := by
  have hz : ∀ x : ExactF, x = (x.1, x.2 ||| flagIf fNV false) := fun x => by simp [flagIf]
  refine ⟨?_, ?_, ?_, ?_, ?_, ?_, ?_, ?_⟩ <;> refine nanRule_of_firstNaN fun r hr => ?_
  · unfold opAdd; rw [hr]; exact hz r
  · unfold opMul; rw [hr]; exact hz r
  · unfold opDiv; rw [hr]; exact hz r
  · unfold opFma; rw [hr]
  · unfold opSqrt; rw [hr]; exact hz r
  · unfold opRsqrt; rw [hr]; exact hz r
  · unfold opExp2; rw [hr]; exact hz r
  · unfold opLog2; rw [hr]; exact hz r

/-! Infinities, zeros and powers of two (Table 55). -/

section
variable (mode gn : Nat) (n n' : Bool) {m : Nat} (e e' : Int)

theorem opAdd_inf_inf : opAdd mode gn (.inf n) (.inf n') = if n = n' then (.inf n, 0) else (.nan gn, fNV) := by
  cases n <;> cases n' <;> rfl

theorem opMul_inf_fin (h : m ≠ 0) : opMul gn (.inf n) (.fin n' m e') = (.inf (n != n'), 0) := by
  have hz : (m == 0) = false := by simpa using h
  simp [opMul, firstNaN, mulNum, FVal.isZero, FVal.neg, FVal.exact, hz]

theorem opMul_fin_inf (h : m ≠ 0) : opMul gn (.fin n' m e') (.inf n) = (.inf (n != n'), 0) := by
  have hz : (m == 0) = false := by simpa using h
  simp [opMul, firstNaN, mulNum, FVal.isZero, FVal.neg, FVal.exact, hz, Bool.xor_comm]

theorem firstNaN_none {l : List FVal} (h : ∀ v ∈ l, v.isNaN = false) : firstNaN l = none := by
  induction l with
  | nil => rfl
  | cons x r ih =>
    have hx : x.isNaN = false := h x (by simp)
    have hr := ih fun v hv => h v (by simp [hv])
    cases x with
    | nan b s => cases hx
    | inf n => simp [firstNaN, hr]
    | fin n m e => simp [firstNaN, hr]

/-- A fused product-sum of operands that are no NaN. -/
theorem opFma_of_mulNum {x y c : FVal} (hx : x.isNaN = false) (hy : y.isNaN = false) (hc : c.isNaN = false) :
    opFma mode gn x y c = (mulNum x y).elim (.nan gn, fNV) (fun p => addNum mode gn p c) := by
  have h : firstNaN [x, y, c] = none := firstNaN_none (by simp [hx, hy, hc])
  unfold opFma
  rw [h]
  cases mulNum x y <;> rfl

theorem opAdd_of_addNum {x c : FVal} (hx : x.isNaN = false) (hc : c.isNaN = false) : opAdd mode gn x c = addNum mode gn x c := by
  have h : firstNaN [x, c] = none := firstNaN_none (by simp [hx, hc])
  unfold opAdd
  rw [h]

theorem opFma_inf {c : FVal} (hc : c.isNaN = false) :
    opFma mode gn (.inf n) (.fin n' 0 e') c = (.nan gn, fNV) ∧ opFma mode gn (.fin n' 0 e') (.inf n) c = (.nan gn, fNV) ∧
      opFma mode gn (.inf n) (.inf n') c = opAdd mode gn (.inf (n != n')) c ∧
      (m ≠ 0 → opFma mode gn (.inf n) (.fin n' m e') c = opAdd mode gn (.inf (n != n')) c) := by
  refine ⟨?_, ?_, ?_, fun h => ?_⟩
  · rw [opFma_of_mulNum mode gn rfl rfl hc]; rfl
  · rw [opFma_of_mulNum mode gn rfl rfl hc]; rfl
  · rw [opFma_of_mulNum mode gn rfl rfl hc, opAdd_of_addNum mode gn rfl hc]; rfl
  · have hz : (m == 0) = false := by simpa using h
    rw [opFma_of_mulNum mode gn rfl rfl hc, opAdd_of_addNum mode gn rfl hc]
    simp [mulNum, FVal.isZero, FVal.neg, hz]

theorem opDiv_zero (h : m ≠ 0) : opDiv gn (.fin n' m e') (.fin n 0 e) = (.inf (n' != n), fDZ) := by
  simp [opDiv, firstNaN, FVal.neg, h]

theorem roots_of_negative (h : m ≠ 0) : opSqrt gn (.fin true m e') = (.nan gn, fNV) ∧ opRsqrt gn (.fin true m e') = (.nan gn, fNV) ∧
    opLog2 gn (.fin true m e') = (.nan gn, fNV) := by
  simp [opSqrt, opRsqrt, opLog2, firstNaN, h]

theorem opExp2_integer (h : m ≠ 0) (he : 0 ≤ e') (hb : e' + bitLen m ≤ 12) :
    opExp2 (.fin n' m e') = (.fin false 1 (if n' then -(m * 2 ^ e'.toNat : Int) else m * 2 ^ e'.toNat) false, 0) := by
  simp [opExp2, firstNaN, h, he, not_lt.2 hb, signedMant]

theorem bitLen_two_pow (m : Nat) : bitLen (2 ^ m) = m + 1 := by
  rw [bitLen, if_neg (by positivity), Nat.log2_two_pow]

theorem opLog2_two_pow (m : Nat) : opLog2 gn (.fin false (2 ^ m) e) = (.fin (decide (e + m < 0)) (e + m).natAbs 0 false, 0) := by
  simp [opLog2, firstNaN, bitLen_two_pow]

end

/-- Settles O27: sums and products by their exact units, quotients and roots by whole division and root, the rest by cases of the operands. -/
theorem floatOperationsExact : Obligations.FloatOperationsExact := by
  refine ⟨fun mode gn n1 n2 m1 m2 e1 e2 => ⟨?_, rfl, ?_, ?_, _, _, opMul_fin gn n1 n2 m1 m2 e1 e2⟩,
    fun mode gn n1 n2 n3 m1 m2 m3 e1 e2 e3 => ⟨?_, rfl, ?_⟩, opDiv_between,
    fun gn m1 e1 h => ⟨opSqrt_between gn e1 h, opRsqrt_between gn e1 h⟩, nanRules, fun mode gn n n' m e e' c => ?_⟩
  · exact value_sumFin mode n1 n2 m1 m2 e1 e2
  · exact sumFin_zero mode n1 n2 m1 m2 e1 e2
  · rw [opMul_fin, num_mul]; rfl
  · rw [num_mul]; exact value_sumFin mode (n1 != n2) n3 (m1 * m2) m3 (e1 + e2) e3
  · rw [num_mul]
    intro h0
    obtain ⟨e, he⟩ := sumFin_zero mode (n1 != n2) n3 (m1 * m2) m3 (e1 + e2) e3 h0
    exact ⟨e, he.trans (by rw [ite_congr rfl id fun _ => rfl])⟩
  · refine ⟨opAdd_inf_inf mode gn n n', rfl, rfl, rfl, rfl, rfl, fun h => ⟨opMul_inf_fin gn n n' e' h, opMul_fin_inf gn n n' e' h⟩,
      opFma_inf mode gn n n' e', rfl, rfl, rfl, rfl, opDiv_zero gn n n' e e', ?_, rfl, ?_, rfl, ?_, ?_, rfl, opExp2_integer n' e', ?_, rfl,
      opLog2_two_pow gn e m⟩
    · cases n <;> rfl
    · cases n <;> rfl
    · rintro h rfl; exact roots_of_negative gn e' h
    · cases n <;> rfl
    · cases n <;> rfl

end Sys2Proof.Machine
end

