-- ==== Sys2Proof/Proofs/Rounding.lean ====
section
/-! Rounding a magnitude to whole units and to an encoding (R101, R110–R112): the magnitude codes of a format stand for increasing multiples of its
least unit, and rounding to nearest even picks the nearest of them. -/

namespace Sys2Proof.Machine

open Sys2Proof

/-! Whole units. -/

/-- Whether a magnitude of y units rounds away from zero (R110, R112). -/
def roundsUpAt (mode rnd : Nat) (neg : Bool) (y : ℚ) : Bool :=
  match mode with
  | 0 => decide (1 / 2 < Int.fract y ∨ Int.fract y = 1 / 2 ∧ ⌊y⌋₊ % 2 = 1)
  | 1 => false
  | 2 => decide (Int.fract y ≠ 0) && !neg
  | 3 => decide (Int.fract y ≠ 0) && neg
  | _ => decide (Int.fract y ≠ 0) && decide (2 ^ 24 ≤ ⌊Int.fract y * 2 ^ 24⌋₊ + rnd)

theorem roundsUpAt_whole (mode rnd : Nat) (neg : Bool) {y : ℚ} (h : Int.fract y = 0) : roundsUpAt mode rnd neg y = false := by
  unfold roundsUpAt
  split <;> simp [h]

/-- The parts of m ÷ 2^sh. -/
theorem parts_div_two_pow (m sh : Nat) : ⌊(m : ℚ) / 2 ^ sh⌋₊ = m / 2 ^ sh ∧ Int.fract ((m : ℚ) / 2 ^ sh) = ((m % 2 ^ sh : Nat) : ℚ) / 2 ^ sh ∧
    ⌊((m % 2 ^ sh : Nat) : ℚ) / 2 ^ sh * 2 ^ 24⌋₊ = m % 2 ^ sh * 2 ^ 24 / 2 ^ sh := by
  have h2 : (2 : ℚ) ^ sh = ((2 ^ sh : Nat) : ℚ) := by push_cast; rfl
  refine ⟨?_, ?_, ?_⟩
  · rw [h2, Nat.floor_div_eq_div]
  · rw [h2, Int.fract_div_natCast_eq_div_natCast_mod]
  · rw [h2, div_mul_eq_mul_div, ← Nat.floor_div_eq_div (K := ℚ)]
    push_cast
    rfl

theorem roundsUp_eq (mode rnd : Nat) (neg : Bool) (m : Nat) {sh : Nat} (h : sh ≠ 0) :
    roundsUp mode rnd neg (m / 2 ^ sh) (m % 2 ^ sh) sh false = roundsUpAt mode rnd neg ((m : ℚ) / 2 ^ sh) := by
  obtain ⟨hfloor, hfract, hscaled⟩ := parts_div_two_pow m sh
  have hpos : (0 : ℚ) < 2 ^ sh := by positivity
  have hzero : (m % 2 ^ sh != 0) = decide (Int.fract ((m : ℚ) / 2 ^ sh) ≠ 0) := by
    rw [hfract, Bool.eq_iff_iff]
    simp [hpos.ne']
  unfold roundsUp roundsUpAt
  split
  · have hlt : (1 / 2 < ((m % 2 ^ sh : Nat) : ℚ) / 2 ^ sh) ↔ 2 ^ sh < 2 * (m % 2 ^ sh) := by
      rw [div_lt_div_iff₀ two_pos hpos, one_mul, mul_comm _ (2 : ℚ)]
      norm_cast
    have heq : (((m % 2 ^ sh : Nat) : ℚ) / 2 ^ sh = 1 / 2) ↔ 2 * (m % 2 ^ sh) = 2 ^ sh := by
      rw [div_eq_div_iff hpos.ne' two_ne_zero, one_mul, mul_comm _ (2 : ℚ)]
      norm_cast
    rw [hfract, hfloor, Bool.eq_iff_iff]
    simp only [Bool.or_eq_true, Bool.and_eq_true, decide_eq_true_eq, beq_iff_eq, bne_iff_ne, Bool.false_or, hlt, heq]
    tauto
  · rfl
  · simp only [Bool.or_false, hzero]
  · simp only [Bool.or_false, hzero]
  · next h0 h1 h2 h3 =>
    simp only [Bool.or_false, hzero]
    rw [hfract, hscaled]

/-- Rounding m × 2^e to units of 2^q counts ⌊m × 2^(e − q)⌋ of them, or one more. -/
theorem roundUnits_eq (mode rnd : Nat) (neg : Bool) (m : Nat) (e q : Int) : let y : ℚ := m * 2 ^ (e - q)
    roundUnits mode rnd neg m e false q = (⌊y⌋₊ + (roundsUpAt mode rnd neg y).toNat, decide (Int.fract y ≠ 0)) := by
  intro y
  unfold roundUnits
  split
  · next hq =>
    have hy : y = ((m * 2 ^ (e - q).toNat : Nat) : ℚ) := by
      have hz : (2 : ℚ) ^ (e - q) = 2 ^ (e - q).toNat := by rw [← zpow_natCast, Int.toNat_of_nonneg (by omega)]
      simp only [y, hz]
      push_cast
      rfl
    have hf : Int.fract y = 0 := by rw [hy]; exact Int.fract_natCast _
    rw [roundsUpAt_whole mode rnd neg hf, hf, hy, Nat.floor_natCast]
    simp
  · next hq =>
    have hy : y = (m : ℚ) / 2 ^ (q - e).toNat := by
      have hz : (2 : ℚ) ^ (e - q) = (2 ^ (q - e).toNat)⁻¹ := by
        rw [← zpow_natCast, ← zpow_neg, Int.toNat_of_nonneg (by omega), neg_sub]
      simp only [y, hz, div_eq_mul_inv]
    obtain ⟨hfloor, hfract, -⟩ := parts_div_two_pow m (q - e).toNat
    extract_lets sh n r
    rw [hy, ← roundsUp_eq mode rnd neg m (by omega), hfloor, hfract, Bool.or_false]
    refine Prod.ext ?_ ?_
    · dsimp only
      cases roundsUp mode rnd neg n r sh false <;> rfl
    · rw [Bool.eq_iff_iff]
      simp [r, sh]

/-- A whole count, rounded to nearest even. -/
def Nearest (n : Nat) (y : ℚ) : Prop := |(n : ℚ) - y| ≤ 1 / 2 ∧ (|(n : ℚ) - y| = 1 / 2 → n % 2 = 0)

theorem nearest_roundsUpAt (rnd : Nat) (neg : Bool) {y : ℚ} (hy : 0 ≤ y) : Nearest (⌊y⌋₊ + (roundsUpAt 0 rnd neg y).toNat) y := by
  have hsum : (⌊y⌋₊ : ℚ) + Int.fract y = y := by rw [natCast_floor_eq_intCast_floor hy, Int.floor_add_fract]
  have h0 := Int.fract_nonneg y
  have h1 := Int.fract_lt_one y
  unfold Nearest roundsUpAt
  generalize Int.fract y = f at *
  generalize ⌊y⌋₊ = N at *
  subst hsum
  by_cases hup : 1 / 2 < f ∨ f = 1 / 2 ∧ N % 2 = 1
  · have hd : |((N + 1 : Nat) : ℚ) - (N + f)| = 1 - f := by
      push_cast
      rw [abs_of_nonneg (by linarith)]
      ring
    simp only [hup, decide_true, Bool.toNat_true, hd]
    refine ⟨?_, fun he => ?_⟩
    · rcases hup with h | ⟨h, -⟩ <;> linarith
    · rcases hup with h | ⟨-, h⟩
      · linarith
      · omega
  · have hd : |((N + 0 : Nat) : ℚ) - (N + f)| = f := by
      push_cast
      rw [abs_of_nonpos (by linarith)]
      ring
    rw [not_or, not_and, not_lt] at hup
    simp only [not_lt.2 hup.1, false_or]
    rw [decide_eq_false (not_and.2 hup.2), Bool.toNat_false, hd]
    refine ⟨hup.1, fun he => ?_⟩
    have := hup.2 he
    omega

/-- No whole number lies nearer, and one as near is half a unit away. -/
theorem Nearest.le {n : Nat} {y : ℚ} (h : Nearest n y) (k : Nat) :
    |(n : ℚ) - y| ≤ |(k : ℚ) - y| ∧ (k ≠ n → |(n : ℚ) - y| = |(k : ℚ) - y| → n % 2 = 0) := by
  by_cases hk : k = n
  · subst hk
    exact ⟨le_rfl, fun h => absurd rfl h⟩
  · have hone : (1 : ℚ) ≤ |(k : ℚ) - n| := by
      have hz : (1 : Int) ≤ |(k : Int) - n| := Int.one_le_abs (by omega)
      exact_mod_cast hz
    have htri : |(k : ℚ) - n| ≤ |(k : ℚ) - y| + |(n : ℚ) - y| := by
      have := abs_sub_le (k : ℚ) y n
      rwa [abs_sub_comm y (n : ℚ)] at this
    have hhalf := h.1
    exact ⟨by linarith, fun _ he => h.2 (by linarith)⟩

/-! Magnitude codes. -/

/-- The exponent of a format's least unit. -/
def Fmt.unit (f : Fmt) : Int := 1 - f.bias - f.mb

/-- The significand and exponent of a magnitude code (R101). -/
def Fmt.mant (f : Fmt) (c : Nat) : Nat := if c / 2 ^ f.mb = 0 then c % 2 ^ f.mb else 2 ^ f.mb + c % 2 ^ f.mb
def Fmt.expo (f : Fmt) (c : Nat) : Int := f.unit + (c / 2 ^ f.mb - 1 : Nat)

/-- The magnitude of a code in least units. -/
def Fmt.mag (f : Fmt) (c : Nat) : Nat := f.mant c * 2 ^ (c / 2 ^ f.mb - 1)

section
variable (f : Fmt)

theorem Fmt.num_mag (neg : Bool) (c : Nat) : Claim.num neg (f.mant c) (f.expo c) = Claim.num neg (f.mag c) f.unit := by
  rw [← signedMant_rescale neg (f.mant c) (show f.unit ≤ f.expo c by simp [Fmt.expo]), num_eq_signedMant]
  simp [Fmt.expo, Fmt.mag]

theorem Fmt.maxFin_lt : f.maxFin < 2 ^ (f.mb + f.eb) := by
  have hp : 0 < 2 ^ (f.mb + f.eb) := by positivity
  have hsub : (2 ^ f.eb - 1) * 2 ^ f.mb ≤ 2 ^ (f.mb + f.eb) := by
    rw [pow_add, mul_comm]
    exact Nat.mul_le_mul_left _ (Nat.sub_le _ _)
  unfold Fmt.maxFin
  rw [add_comm f.eb]
  split <;> omega

theorem Fmt.signed_parts (neg : Bool) {c : Nat} (hc : c < 2 ^ (f.mb + f.eb)) :
    f.signed neg c % 2 ^ f.mb = c % 2 ^ f.mb ∧ f.signed neg c / 2 ^ f.mb % 2 ^ f.eb = c / 2 ^ f.mb ∧
      (f.signed neg c / 2 ^ (f.mb + f.eb) % 2 == 1) = neg := by
  have hk : c / 2 ^ f.mb < 2 ^ f.eb := Nat.div_lt_of_lt_mul (by rwa [pow_add] at hc)
  unfold Fmt.signed
  cases neg with
  | false => exact ⟨rfl, Nat.mod_eq_of_lt hk, by simp [Nat.div_eq_of_lt hc]⟩
  | true =>
    refine ⟨?_, ?_, ?_⟩
    · rw [if_pos rfl, pow_add, Nat.mul_add_mod]
    · rw [if_pos rfl, pow_add, Nat.mul_add_div (by positivity), Nat.add_mod_left, Nat.mod_eq_of_lt hk]
    · rw [if_pos rfl, Nat.add_div_left _ (by positivity), Nat.div_eq_of_lt hc]
      rfl

/-- A code up to the greatest finite one is finite. -/
theorem Fmt.decode_signed (n8 : Nat) (neg : Bool) {c : Nat} (hc : c ≤ f.maxFin) (he : 0 < f.eb) :
    f.decode n8 (f.signed neg c) = .fin neg (f.mant c) (f.expo c) := by
  have hlt : c < 2 ^ (f.mb + f.eb) := hc.trans_lt f.maxFin_lt
  obtain ⟨hfrac, hexp, hneg⟩ := f.signed_parts neg hlt
  have hfin : (if c / 2 ^ f.mb = 0 then FVal.fin neg (c % 2 ^ f.mb) (1 - f.bias - f.mb)
      else .fin neg (2 ^ f.mb + c % 2 ^ f.mb) (((c / 2 ^ f.mb : Nat) : Int) - f.bias - f.mb)) = .fin neg (f.mant c) (f.expo c) := by
    unfold Fmt.mant Fmt.expo Fmt.unit
    split
    · next h0 => simp [h0]
    · congr 1
      omega
  have hdm := Nat.div_add_mod c (2 ^ f.mb)
  have hcm : c % 2 ^ f.mb < 2 ^ f.mb := Nat.mod_lt _ (by positivity)
  have h2 : 2 ≤ 2 ^ f.eb := Nat.le_self_pow he.ne' 2
  have hB : 0 < 2 ^ f.mb := by positivity
  unfold Fmt.decode
  simp only [hfrac, hexp, hneg, hfin]
  unfold Fmt.maxFin at hc
  split
  · rfl
  · next hsp =>
    rw [if_neg]
    rintro ⟨h1, h3⟩
    rw [hsp] at hc
    have hmul : 2 ^ f.mb * (2 ^ f.eb - 1) + 2 ^ f.mb = 2 ^ (f.eb + f.mb) := by
      rw [add_comm f.eb, pow_add, ← Nat.mul_succ]
      congr 1
      omega
    have hlast : c + 1 = 2 ^ (f.eb + f.mb) := by rw [← hmul, ← hdm, h1, h3, add_assoc, Nat.sub_add_cancel hB]
    have htwo : 2 ≤ 2 ^ (f.eb + f.mb) := Nat.le_self_pow (by omega) 2
    dsimp only at hc
    omega
  · next hsp =>
    rw [hsp] at hc
    dsimp only at hc
    rw [if_pos]
    have hpos : 0 < (2 ^ f.eb - 1) * 2 ^ f.mb := Nat.mul_pos (by omega) hB
    exact Nat.div_lt_of_lt_mul (by rw [mul_comm]; omega)

theorem Fmt.mag_eq (k : Nat) {r : Nat} (hr : r < 2 ^ f.mb) :
    f.mag (2 ^ f.mb * k + r) = (if k = 0 then r else 2 ^ f.mb + r) * 2 ^ (k - 1) := by
  have hB : 0 < 2 ^ f.mb := by positivity
  simp only [Fmt.mag, Fmt.mant, Nat.mul_add_div hB, Nat.mul_add_mod, Nat.div_eq_of_lt hr, Nat.mod_eq_of_lt hr, add_zero]

/-- Greater codes stand for greater magnitudes. -/
theorem Fmt.mag_strictMono : StrictMono f.mag := by
  refine strictMono_nat_of_lt_succ fun c => ?_
  have hB : 0 < 2 ^ f.mb := by positivity
  have hr : c % 2 ^ f.mb < 2 ^ f.mb := Nat.mod_lt _ hB
  obtain hc := (Nat.div_add_mod c (2 ^ f.mb)).symm
  generalize c / 2 ^ f.mb = k at hc
  generalize c % 2 ^ f.mb = r at hc hr
  subst hc
  rw [f.mag_eq k hr]
  by_cases hlast : r + 1 < 2 ^ f.mb
  · rw [add_assoc, f.mag_eq k hlast]
    refine Nat.mul_lt_mul_of_pos_right ?_ (by positivity)
    split <;> omega
  · have hnext : 2 ^ f.mb * k + r + 1 = 2 ^ f.mb * (k + 1) + 0 := by rw [mul_add, mul_one]; omega
    rw [hnext, f.mag_eq (k + 1) hB, if_neg (Nat.succ_ne_zero k), add_zero, Nat.add_sub_cancel]
    cases k with
    | zero => simpa using hr
    | succ k =>
      rw [if_neg (by omega), Nat.add_sub_cancel, pow_succ 2 k, ← mul_assoc, mul_right_comm]
      exact Nat.mul_lt_mul_of_pos_right (by omega) (by positivity)

/-- The code of n units of 2^d least units. -/
theorem Fmt.mag_code {d n : Nat} (hn : n ≤ 2 * 2 ^ f.mb) (hd : d = 0 ∨ 2 ^ f.mb ≤ n) : f.mag (d * 2 ^ f.mb + n) = n * 2 ^ d := by
  have hB : 0 < 2 ^ f.mb := by positivity
  by_cases h1 : n < 2 ^ f.mb
  · have h0 : d = 0 := by omega
    subst h0
    have := f.mag_eq 0 h1
    simpa using this
  · by_cases h2 : n < 2 * 2 ^ f.mb
    · have hc : d * 2 ^ f.mb + n = 2 ^ f.mb * (d + 1) + (n - 2 ^ f.mb) := by rw [Nat.mul_succ, mul_comm d]; omega
      rw [hc, f.mag_eq (d + 1) (by omega), if_neg (by omega), Nat.add_sub_cancel, Nat.add_sub_cancel' (by omega)]
    · have hc : d * 2 ^ f.mb + n = 2 ^ f.mb * (d + 2) + 0 := by rw [Nat.mul_add, mul_comm d]; omega
      have hn2 : n = 2 ^ f.mb * 2 := by omega
      rw [hc, f.mag_eq (d + 2) hB, if_neg (by omega), hn2, show d + 2 - 1 = d + 1 from rfl, pow_succ 2 d]
      ring

/-- A magnitude that is no multiple of 2^d lies below the codes of those units. -/
theorem Fmt.mag_lt_of_not_dvd {c d : Nat} (h : ¬2 ^ d ∣ f.mag c) : d ≠ 0 ∧ f.mag c < 2 ^ f.mb * 2 ^ d := by
  have hk : c / 2 ^ f.mb - 1 < d := by
    by_contra hge
    exact h (Dvd.dvd.mul_left (pow_dvd_pow 2 (by omega)) _)
  have hmant : f.mant c < 2 ^ f.mb * 2 := by
    have hr : c % 2 ^ f.mb < 2 ^ f.mb := Nat.mod_lt _ (by positivity)
    unfold Fmt.mant
    split <;> omega
  refine ⟨by omega, ?_⟩
  obtain ⟨j, rfl⟩ : ∃ j, d = j + 1 := ⟨d - 1, by omega⟩
  calc f.mag c < 2 ^ f.mb * 2 * 2 ^ (c / 2 ^ f.mb - 1) := Nat.mul_lt_mul_of_pos_right hmant (by positivity)
    _ ≤ 2 ^ f.mb * 2 * 2 ^ j := Nat.mul_le_mul_left _ (Nat.pow_le_pow_right (by decide) (by omega))
    _ = 2 ^ f.mb * 2 ^ (j + 1) := by rw [pow_succ 2 j]; ring

/-- The code of the nearest count of units of 2^d stands for the nearest magnitude; when another code's is as near, it is even. -/
theorem Fmt.mag_nearest {n d : Nat} {y : ℚ} (hm : 0 < f.mb) (hn : Nearest n y) (hn2 : n ≤ 2 * 2 ^ f.mb) (hd : d = 0 ∨ 2 ^ f.mb ≤ n)
    (hy : d = 0 ∨ (2 ^ f.mb : ℚ) ≤ y) (c : Nat) : let code := d * 2 ^ f.mb + n
    |(f.mag code : ℚ) - y * 2 ^ d| ≤ |(f.mag c : ℚ) - y * 2 ^ d| ∧
      (c ≠ code → |(f.mag code : ℚ) - y * 2 ^ d| = |(f.mag c : ℚ) - y * 2 ^ d| → code % 2 = 0) := by
  intro code
  have hpos : (0 : ℚ) < 2 ^ d := by positivity
  have hcode : f.mag code = n * 2 ^ d := f.mag_code hn2 hd
  have hdist : ∀ k : Nat, |((k * 2 ^ d : Nat) : ℚ) - y * 2 ^ d| = |(k : ℚ) - y| * 2 ^ d := fun k => by
    push_cast
    rw [← sub_mul, abs_mul, abs_of_pos hpos]
  by_cases hdvd : 2 ^ d ∣ f.mag c
  · obtain ⟨k, hk⟩ := hdvd
    rw [mul_comm] at hk
    obtain ⟨hle, htie⟩ := hn.le k
    rw [hcode, hk, hdist, hdist]
    refine ⟨mul_le_mul_of_nonneg_right hle hpos.le, fun hne he => ?_⟩
    have hkn : k ≠ n := by
      rintro rfl
      exact hne (f.mag_strictMono.injective (hk.trans hcode.symm))
    have hodd := htie hkn (mul_right_cancel₀ hpos.ne' he)
    have heven : 2 ∣ d * 2 ^ f.mb := (dvd_pow_self 2 hm.ne').mul_left d
    omega
  · obtain ⟨hd0, hlt⟩ := f.mag_lt_of_not_dvd hdvd
    have hyB : (2 ^ f.mb : ℚ) ≤ y := hy.resolve_left hd0
    have hB := (hn.le (2 ^ f.mb)).1
    have hfar : |(n : ℚ) - y| * 2 ^ d < |(f.mag c : ℚ) - y * 2 ^ d| := by
      have hlt' : (f.mag c : ℚ) < 2 ^ f.mb * 2 ^ d := by exact_mod_cast hlt
      have hle' : (2 ^ f.mb : ℚ) * 2 ^ d ≤ y * 2 ^ d := mul_le_mul_of_nonneg_right hyB hpos.le
      rw [abs_of_nonpos (a := (f.mag c : ℚ) - y * 2 ^ d) (by linarith)]
      push_cast at hB
      rw [abs_of_nonpos (a := (2 ^ f.mb : ℚ) - y) (by linarith)] at hB
      have := mul_le_mul_of_nonneg_right hB hpos.le
      linarith
    rw [hcode, hdist]
    exact ⟨hfar.le, fun _ he => absurd he hfar.ne⟩

end

/-! Encodings. -/

/-- The exponent of the units a magnitude is rounded to, and the code of n of them (R111). -/
def Fmt.unitOf (f : Fmt) (m : Nat) (e : Int) : Int := max f.unit (e + bitLen m - 1 - f.mb)
def Fmt.codeOf (f : Fmt) (m : Nat) (e : Int) (n : Nat) : Nat := (f.unitOf m e - f.unit).toNat * 2 ^ f.mb + n

/-- What rounding a nonzero magnitude can give: the code of its rounded units, or an overflow. -/
theorem roundTo_cases (f : Fmt) (mode rnd : Nat) (sat neg : Bool) {m : Nat} (e : Int) (st : Bool) (hm : m ≠ 0) :
    let u := roundUnits mode rnd neg m e st (f.unitOf m e)
    (f.maxFin < f.codeOf m e u.1 ∧ roundTo f mode rnd sat neg m e st = (f.overflow mode sat neg, fOF ||| fNX)) ∨
      (f.codeOf m e u.1 ≤ f.maxFin ∧ ∃ tiny : Bool,
        roundTo f mode rnd sat neg m e st = (f.signed neg (f.codeOf m e u.1), flagIf fNX u.2 ||| flagIf fUF (tiny && u.2))) := by
  intro u
  unfold roundTo
  rw [if_neg hm]
  by_cases hov : f.maxFin < f.codeOf m e u.1
  · exact .inl ⟨hov, if_pos hov⟩
  · exact .inr ⟨not_lt.1 hov, _, if_neg hov⟩

theorem roundTo_zero (f : Fmt) (mode rnd : Nat) (sat neg : Bool) (e : Int) (st : Bool) :
    roundTo f mode rnd sat neg 0 e st = (f.signed neg 0, 0) := rfl

/-- A magnitude counts at most 2^(MB+1) of the units it is rounded to, and at least 2^MB of greater units than the least. -/
theorem Fmt.units_bounds (f : Fmt) {m : Nat} (e : Int) (hm : m ≠ 0) : let y : ℚ := m * 2 ^ (e - f.unitOf m e)
    y < 2 * 2 ^ f.mb ∧ ((f.unitOf m e - f.unit).toNat = 0 ∨ (2 ^ f.mb : ℚ) ≤ y) := by
  intro y
  have hlt : (m : ℚ) < 2 ^ bitLen m := by exact_mod_cast lt_two_pow_bitLen m
  have hle : (2 : ℚ) ^ bitLen m ≤ 2 * m := by exact_mod_cast two_pow_le_of_bitLen hm
  have hfree : (2 : ℚ) ^ bitLen m * 2 ^ (e - (e + bitLen m - 1 - f.mb)) = 2 * 2 ^ f.mb := by
    rw [← zpow_natCast, ← zpow_natCast, ← zpow_add₀ two_ne_zero, ← zpow_one_add₀ two_ne_zero]
    congr 1
    omega
  constructor
  · calc y < 2 ^ bitLen m * 2 ^ (e - f.unitOf m e) := mul_lt_mul_of_pos_right hlt (by positivity)
      _ ≤ 2 ^ bitLen m * 2 ^ (e - (e + bitLen m - 1 - f.mb)) :=
        mul_le_mul_of_nonneg_left (zpow_le_zpow_right₀ one_le_two (by unfold Fmt.unitOf; omega)) (by positivity)
      _ = 2 * 2 ^ f.mb := hfree
  · rw [or_iff_not_imp_left]
    intro h0
    have hq : f.unitOf m e = e + bitLen m - 1 - f.mb := by unfold Fmt.unitOf at h0 ⊢; omega
    have hmul := mul_le_mul_of_nonneg_right hle (a := (2 : ℚ) ^ (e - (e + bitLen m - 1 - f.mb))) (by positivity)
    rw [hfree] at hmul
    simp only [y, hq]
    linarith

/-- A number in least units of a format. -/
theorem Fmt.num_units (f : Fmt) (m : Nat) (e : Int) :
    Claim.num false m e = (m : ℚ) * 2 ^ (e - f.unitOf m e) * 2 ^ (f.unitOf m e - f.unit).toNat * 2 ^ f.unit := by
  have hu : f.unit ≤ f.unitOf m e := le_max_left _ _
  rw [num_false, ← zpow_natCast, Int.toNat_of_nonneg (by omega), mul_assoc, mul_assoc, ← zpow_add₀ two_ne_zero, ← zpow_add₀ two_ne_zero]
  congr 2
  ring

theorem num_eq_num_iff (neg : Bool) (m m' : Nat) (e e' : Int) : Claim.num neg m e = Claim.num neg m' e' ↔ Claim.num false m e = Claim.num false m' e' := by
  cases neg
  · rfl
  · simp [Claim.num]

theorem flags_exact_iff (tiny inexact : Bool) : (flagIf fNX inexact ||| flagIf fUF (tiny && inexact)) &&& fNX = 0 ↔ inexact = false := by
  revert tiny inexact
  decide

section
variable (f : Fmt) {m : Nat} (e : Int) (rnd : Nat) (neg : Bool)

/-- What rounding to nearest even makes of a nonzero magnitude, when no overflow comes of it. -/
theorem Fmt.nearest_codeOf (hf : 0 < f.mb) (hm : m ≠ 0) : let u := roundUnits 0 rnd neg m e false (f.unitOf m e)
    let code := f.codeOf m e u.1
    (u.2 = false ↔ Claim.num false (f.mag code) f.unit = Claim.num false m e) ∧ ∀ c,
      |Claim.num false (f.mag code) f.unit - Claim.num false m e| ≤ |Claim.num false (f.mag c) f.unit - Claim.num false m e| ∧
      (c ≠ code → |Claim.num false (f.mag code) f.unit - Claim.num false m e| = |Claim.num false (f.mag c) f.unit - Claim.num false m e| →
        code % 2 = 0) := by
  obtain ⟨hyhi, hylo⟩ := f.units_bounds e hm
  have hround := roundUnits_eq 0 rnd neg m e (f.unitOf m e)
  have hnum := f.num_units m e
  have hy0 : 0 ≤ (m : ℚ) * 2 ^ (e - f.unitOf m e) := by positivity
  have hpos : (0 : ℚ) < 2 ^ f.unit := by positivity
  unfold Fmt.codeOf
  dsimp only at hround hyhi hylo ⊢
  generalize (m : ℚ) * 2 ^ (e - f.unitOf m e) = y at *
  generalize (f.unitOf m e - f.unit).toNat = d at *
  have hn := nearest_roundsUpAt rnd neg hy0
  rw [hround]
  dsimp only
  have hwhole : Int.fract y = 0 ↔ ((⌊y⌋₊ + (roundsUpAt 0 rnd neg y).toNat : Nat) : ℚ) = y := by
    constructor
    · intro h0
      rw [roundsUpAt_whole 0 rnd neg h0, Bool.toNat_false, add_zero, natCast_floor_eq_intCast_floor hy0]
      have := Int.floor_add_fract y
      rwa [h0, add_zero] at this
    · intro h0
      rw [← h0]
      exact Int.fract_natCast _
  generalize ⌊y⌋₊ + (roundsUpAt 0 rnd neg y).toNat = n at *
  have hhalf := abs_le.1 hn.1
  have hn2 : n ≤ 2 * 2 ^ f.mb := by
    have : (n : ℚ) < (2 * 2 ^ f.mb + 1 : Nat) := by push_cast; linarith
    exact Nat.lt_succ_iff.1 (by exact_mod_cast this)
  have hd : d = 0 ∨ 2 ^ f.mb ≤ n := hylo.imp_right fun h => by
    have : ((2 ^ f.mb : Nat) : ℚ) < (n + 1 : Nat) := by push_cast; linarith
    exact Nat.lt_succ_iff.1 (by exact_mod_cast this)
  have hdist : ∀ c, |Claim.num false (f.mag c) f.unit - Claim.num false m e| = |(f.mag c : ℚ) - y * 2 ^ d| * 2 ^ f.unit := fun c => by
    rw [hnum, num_false, ← sub_mul, abs_mul, abs_of_pos hpos]
  refine ⟨?_, fun c => ?_⟩
  · rw [decide_eq_false_iff_not, not_not, hwhole, hnum, num_false, mul_left_inj' hpos.ne', f.mag_code hn2 hd]
    push_cast
    rw [mul_left_inj' (by positivity)]
  · obtain ⟨hle, htie⟩ := f.mag_nearest hf hn hn2 hd hylo c
    rw [hdist, hdist]
    exact ⟨mul_le_mul_of_nonneg_right hle hpos.le, fun hc he => htie hc (mul_right_cancel₀ hpos.ne' he)⟩

end

/-- The formats of Table 42. -/
def formats : List Fmt := [Fmt.f32, .f16, .bf16, .e8m10, .e4m3, .e5m2, .e3m2, .e2m3, .e2m1]

theorem formats_pos {f : Fmt} (h : f ∈ formats) : 0 < f.mb ∧ 0 < f.eb := by
  have : ∀ f ∈ formats, 0 < f.mb ∧ 0 < f.eb := by decide
  exact this f h

/-- The decoded value of a finite code in least units. -/
theorem Fmt.num_of_decode (f : Fmt) {c mc : Nat} {ec : Int} (hf : 0 < f.mb ∧ 0 < f.eb) (hc : c ≤ f.maxFin) (h : f.decode 0 c = .fin false mc ec) :
    Claim.num false mc ec = Claim.num false (f.mag c) f.unit := by
  have := f.decode_signed 0 false hc hf.2
  rw [show f.signed false c = c from rfl, h] at this
  injection this with _ hm he
  rw [hm, he, f.num_mag]

/-- Settles O28: the rounded count of units is a code, and codes stand for increasing multiples of the least unit. -/
theorem roundsToNearest : Obligations.RoundsToNearest := by
  intro f rnd sat neg m e hf r hof
  have hpos : 0 < f.mb ∧ 0 < f.eb := formats_pos hf
  by_cases hm : m = 0
  · subst hm
    have hz : f.mag 0 = 0 := by simp [Fmt.mag, Fmt.mant]
    have hnum : ∀ n : Bool, Claim.num n (f.mant 0) (f.expo 0) = 0 := fun n => by rw [f.num_mag, hz]; simp [Claim.num]
    refine ⟨0, f.mant 0, f.expo 0, Nat.zero_le _, rfl, f.decode_signed 0 neg (Nat.zero_le _) hpos.2, ?_, fun c mc ec _ _ => ⟨?_, fun _ _ => rfl⟩⟩
    · rw [hnum]
      simp [Claim.num, r, roundTo_zero]
    · rw [hnum, show Claim.num false 0 e = 0 by simp [Claim.num], sub_self, abs_zero]
      exact abs_nonneg _
  · obtain ⟨hexact, hnear⟩ := f.nearest_codeOf e rnd neg hpos.1 hm
    rcases roundTo_cases f 0 rnd sat neg e false hm with ⟨-, hr⟩ | ⟨hle, tiny, hr⟩
    · simp only [r, hr] at hof
      exact absurd hof (by decide)
    · refine ⟨_, _, _, hle, by simp only [r, hr], by simp only [r, hr]; exact f.decode_signed 0 neg hle hpos.2, ?_, fun c mc ec hc hdec => ?_⟩
      · simp only [r, hr, flags_exact_iff]
        rw [hexact, num_eq_num_iff neg, f.num_mag]
      · rw [f.num_mag, f.num_of_decode hpos hc hdec]
        exact hnear c

end Sys2Proof.Machine
end

