-- ==== Sys2Proof/Proofs/FlaggedResults.lean ====
section
/-! Results that set flags and draw from SEED (R112, R115): what they leave unchanged, and the operands of a scalar float instruction that begins. -/

namespace Sys2Proof.Machine

open Sys2Proof

/-- A context with its flags and SEED put aside. -/
def Ctx.unflagged (k : Ctx) : Ctx := { k with ff := 0, seed := 0 }

section
variable {s t : State} {c : CtxId} {d : Touch} {fl : FFlags} {sd : BitVec 32}

/-- Making flags sticky and replacing SEED changes nothing else. -/
theorem Frame.flagSeed (h : Frame s t c d) (hff : d.ff = true) (hsd : d.seed = true ∨ sd = (t.ctx c).seed) :
    Frame s (t.flagSeed c fl sd) c d := by
  refine h.trans ?_
  have p : ∀ f, ((t.flagSeed c fl sd).ctx f).unflagged.regPart = (t.ctx f).unflagged.regPart := fun f =>
    t.ctx_modCtx_proj c (fun k => { k with ff := k.ff ||| fl, seed := sd }) (fun k => k.unflagged.regPart) (fun _ => rfl) fun _ _ => rfl
  have p := fun f => by simpa only [Ctx.regPart, Ctx.unflagged, Prod.mk.injEq, true_and] using p f
  have p5 := fun f => (p f).2.2.2.2.2
  exact
    { regs := fun f r _ => State.rs_of_ctx (p f).1 r
      preds := fun f r _ => State.rp_of_ctx (p f).2.1 r
      vecs := fun f r _ => by simp only [State.rv, (p f).2.2.1]
      accs := fun f r _ => by simp only [State.ra, (p f).2.2.2.1]
      latches := fun f r _ => by simp only [State.rg, (p f).2.2.2.2.1]
      flags := fun f hn => by rw [State.flagSeed, t.ctx_modCtx_ne _ fun hk => hn ⟨hk, hff⟩]
      seeds := fun f hn => by
        by_cases hk : f.key = c.key
        · have he : sd = (t.ctx c).seed := hsd.resolve_left fun h => hn ⟨hk, h⟩
          rw [State.ctx_key_proj _ Ctx.seed (fun _ _ => rfl) hk, t.ctx_key_proj Ctx.seed (fun _ _ => rfl) hk, State.flagSeed, State.ctx_modCtx_same, he]
        · rw [State.flagSeed, t.ctx_modCtx_ne _ hk]
      loops := fun f _ => (p5 f).1
      modes := fun f => (p5 f).2.1
      supervisor := fun f => (p5 f).2.2.1
      frames := fun f => (p5 f).2.2.2
      memory := fun a _ => rfl }

end

section
variable (s : State) (row : Instr)

theorem State.cur_taken : (s.taken row).cur = s.cur := State.eq_of_bare State.cur (fun _ => rfl) (s.bare_taken row)

theorem State.seed_taken : ((s.taken row).ctx s.cur).seed = (s.ctx s.cur).seed := s.ctx_taken_proj row Ctx.seed (fun _ => rfl) s.cur

theorem State.mode_taken : ((s.taken row).ctx s.cur).mode = (s.ctx s.cur).mode := s.ctx_taken_proj row Ctx.mode (fun _ => rfl) s.cur

theorem flagged_eq_flagSeed (fl : FFlags) (sd : BitVec 32) : Claim.flagged (s.taken row) fl sd = (s.taken row).flagSeed s.cur fl sd := by
  rw [Claim.flagged, s.cur_taken row]
  rfl

/-- Flags alone leave SEED. -/
theorem raise_eq_flagged (fl : FFlags) : (s.taken row).raise s.cur fl = Claim.flagged (s.taken row) fl (s.ctx s.cur).seed := by
  rw [flagged_eq_flagSeed, ← s.seed_taken row]
  rfl

theorem flagged_frame (fl : FFlags) (sd : BitVec 32) {w : Touch} (hff : w.ff = true) (hsd : w.seed = true ∨ sd = (s.ctx s.cur).seed) :
    Frame (s.taken row) (Claim.flagged (s.taken row) fl sd) s.cur w := by
  rw [flagged_eq_flagSeed]
  exact (Frame.refl _ _ _).flagSeed hff (hsd.imp_right fun h => h.trans (s.seed_taken row).symm)

/-! Operands (R139). -/

theorem Env.fx_taken : (Claim.env s row).fx (s.taken row) = Claim.single s.opA := by
  simp only [Env.fx, Env.a, fbits, Claim.env, s.rs_taken, Claim.single, State.opA]

theorem Env.a_taken : (Claim.env s row).a (s.taken row) = s.opA := s.rs_taken row s.op.s1

theorem Env.rm_taken : (Claim.env s row).rm (s.taken row) = (s.ctx s.cur).mode.toNat := congrArg BitVec.toNat (s.mode_taken row)

theorem Env.seed_taken : ((Claim.env s row).k (s.taken row)).seed = (s.ctx s.cur).seed := s.seed_taken row

end

section
variable {s : State} {row : Instr} {body : Body}

/-- A body that writes a rounded result gives it (R139). -/
theorem givesFloat_of_body {r : FpOut} (h : s.Ready row) (hx : exec row s = .next (issue row body s))
    (hb : body (Claim.env s row) (s.taken row) = (Claim.env s row).putF (s.taken row) r) : Claim.GivesFloat row s r := by
  refine gives_of_body h hx ?_ ((flagged_frame s row r.fl r.seed rfl (.inl rfl)).ws (by simp) _)
  rw [hb, flagged_eq_flagSeed]
  rfl

/-- A body that makes flags sticky, replaces SEED and writes s[D] gives that. -/
theorem gives_flagged_ws {fl : FFlags} {sd : BitVec 32} {v : Word} {w : Touch} (h : s.Ready row) (hx : exec row s = .next (issue row body s))
    (hb : body (Claim.env s row) (s.taken row) = .ok (.next, (Claim.flagged (s.taken row) fl sd).ws s.cur s.op.d v)) (hs : s.op.d ∈ w.s)
    (hff : w.ff = true) (hsd : w.seed = true ∨ sd = (s.ctx s.cur).seed) :
    Gives row s ((Claim.flagged (s.taken row) fl sd).ws s.cur s.op.d v) w :=
  gives_of_body h hx hb ((flagged_frame s row fl sd hff hsd).ws hs v)

end

end Sys2Proof.Machine
end

