-- ==== Sys2Proof/Proofs/FloatConversion.lean ====
section
/-! Conversions between floats and integers and between formats (R118, R142, Table 54). -/

namespace Sys2Proof.Machine

open Sys2Proof

/-! Rounding to an integer. -/

theorem ceil_eq_floor_add (y : ℚ) : ⌈y⌉ = ⌊y⌋ + (decide (Int.fract y ≠ 0)).toNat := by
  have hsum := Int.floor_add_fract y
  have hlt := Int.fract_lt_one y
  have hge := Int.fract_nonneg y
  rw [Int.ceil_eq_iff]
  by_cases h : Int.fract y = 0
  · simp only [h, ne_eq, not_true, decide_false, Bool.toNat_false]
    push_cast
    constructor <;> linarith
  · have hpos : 0 < Int.fract y := lt_of_le_of_ne hge (Ne.symm h)
    simp only [h, ne_eq, not_false_eq_true, decide_true, Bool.toNat_true]
    push_cast
    constructor <;> linarith

theorem roundsUpAt_rnd {mode : Nat} (h : mode < 4) (r r' : Nat) (neg : Bool) (y : ℚ) : roundsUpAt mode r neg y = roundsUpAt mode r' neg y := by
  interval_cases mode <;> rfl

section
variable {y : ℚ} (hy : 0 ≤ y) (neg : Bool) (rnd : Nat)
include hy

/-- A rounded magnitude with its sign is the integer that the rounding mode gives (R110, R112). -/
theorem roundedInt_signed {mode : Nat} (hmode : mode < 5) :
    Claim.roundedInt mode rnd (if neg then -y else y) (signedMant neg (⌊y⌋₊ + (roundsUpAt mode rnd neg y).toNat)) := by
  have hfl : ((⌊y⌋₊ : Nat) : Int) = ⌊y⌋ := Int.natCast_floor_eq_floor hy
  have habs : |if neg then -y else y| = y := by cases neg <;> simp [abs_of_nonneg hy]
  have hceil := ceil_eq_floor_add y
  have hsum := Int.floor_add_fract y
  refine ⟨fun h => ?_, fun h => ?_, fun h => ?_, fun h => ?_, fun h => ?_⟩ <;> subst h
  · obtain ⟨hle, heven⟩ := nearest_roundsUpAt rnd neg hy
    generalize ⌊y⌋₊ + (roundsUpAt 0 rnd neg y).toNat = n at hle heven
    have hd : |((signedMant neg n : Int) : ℚ) - if neg then -y else y| = |(n : ℚ) - y| := by
      cases neg
      · simp [signedMant]
      · simp only [signedMant, if_true]
        push_cast
        rw [← abs_neg]
        ring_nf
    rw [hd]
    refine ⟨hle, fun he => ?_⟩
    have := heven he
    unfold signedMant
    split <;> omega
  · have hup : (roundsUpAt 1 rnd neg y).toNat = 0 := rfl
    rw [hup]
    cases neg with
    | false => simp [signedMant, hfl, not_lt.2 hy]
    | true =>
      rcases hy.eq_or_lt with h0 | hpos
      · simp [signedMant, ← h0]
      · simp [signedMant, hpos, Int.ceil_neg, hfl]
  · cases neg with
    | false => simp [signedMant, roundsUpAt, hfl, hceil]
    | true => simp [signedMant, roundsUpAt, hfl, Int.ceil_neg]
  · cases neg with
    | false => simp [signedMant, roundsUpAt, hfl]
    | true => simp [signedMant, roundsUpAt, hfl, hceil, Int.floor_neg]
  · have hne : ((⌊y⌋ : Int) : ℚ) ≠ y ↔ Int.fract y ≠ 0 := by
      constructor
      · intro h h0; exact h (by linarith)
      · intro h h0; exact h (by linarith)
    have hscaled : ((⌊Int.fract y * 2 ^ 24⌋₊ : Nat) : Int) = ⌊Int.fract y * 2 ^ 24⌋ :=
      Int.natCast_floor_eq_floor (mul_nonneg (Int.fract_nonneg y) (by positivity))
    have hfr : y - ⌊y⌋ = Int.fract y := rfl
    have hcond : (Int.fract y ≠ 0 ∧ 2 ^ 24 ≤ ⌊Int.fract y * 2 ^ 24⌋ + (rnd : Int)) ↔ roundsUpAt 4 rnd neg y = true := by
      rw [← hscaled]
      simp only [roundsUpAt, Bool.and_eq_true, decide_eq_true_eq]
      norm_cast
    have hmag : (if ((⌊y⌋ : Int) : ℚ) ≠ y ∧ 2 ^ 24 ≤ ⌊(y - ⌊y⌋) * 2 ^ 24⌋ + (rnd : Int) then ⌊y⌋ + 1 else ⌊y⌋) =
        ((⌊y⌋₊ + (roundsUpAt 4 rnd neg y).toNat : Nat) : Int) := by
      simp only [hne, hfr, hcond]
      push_cast
      rw [hfl]
      cases roundsUpAt 4 rnd neg y <;> simp
    dsimp only
    rw [habs, hmag]
    cases neg with
    | false => simp [signedMant, not_lt.2 hy]
    | true =>
      rcases hy.eq_or_lt with h0 | hpos
      · simp [signedMant, ← h0, roundsUpAt]
      · simp [signedMant, hpos]

end

theorem num_signed (neg : Bool) (m : Nat) (e : Int) : Claim.num neg m e = if neg then -((m : ℚ) * 2 ^ e) else m * 2 ^ e := by
  cases neg <;> simp [Claim.num]

/-- A rounded magnitude is the exact one exactly when no rest was dropped. -/
theorem signed_units_eq_iff (mode rnd : Nat) (neg : Bool) {y : ℚ} (hy : 0 ≤ y) :
    ((signedMant neg (⌊y⌋₊ + (roundsUpAt mode rnd neg y).toNat) : Int) : ℚ) = (if neg then -y else y) ↔ Int.fract y = 0 := by
  have hmag : ((signedMant neg (⌊y⌋₊ + (roundsUpAt mode rnd neg y).toNat) : Int) : ℚ) = (if neg then -y else y) ↔
      ((⌊y⌋₊ + (roundsUpAt mode rnd neg y).toNat : Nat) : ℚ) = y := by
    generalize ⌊y⌋₊ + (roundsUpAt mode rnd neg y).toNat = n
    cases neg <;> simp [signedMant]
  rw [hmag]
  constructor
  · intro h
    rw [← h]
    exact Int.fract_natCast _
  · intro h
    have hsum := Int.floor_add_fract y
    rw [roundsUpAt_whole mode rnd neg h, Bool.toNat_false, add_zero, natCast_floor_eq_intCast_floor hy]
    linarith

/-- The 24 bits that stochastic rounding takes from SEED. -/
theorem seed_bits (sd : BitVec 32) : (sd.extractLsb' 8 24).toNat = sd.toNat / 2 ^ 8 := by
  rw [BitVec.extractLsb'_toNat, Nat.shiftRight_eq_div_pow, Nat.mod_eq_of_lt]
  have := sd.isLt
  omega

/-- The bits a rounding draws from SEED matter under mode 4 only. -/
theorem roundsUpAt_seed {mode : Nat} (h : mode < 5) (sd : BitVec 32) (neg : Bool) (y : ℚ) :
    roundsUpAt mode ((if mode = 4 then seedNext sd else sd).extractLsb' 8 24).toNat neg y =
      roundsUpAt mode ((seedNext sd).toNat / 2 ^ 8) neg y := by
  by_cases h4 : mode = 4
  · rw [if_pos h4, seed_bits]
  · exact roundsUpAt_rnd (by omega) _ _ neg y

/-- Rounding a number to whole units of 1 gives the mode's integer, and tells whether it changed the value. -/
theorem roundUnits_integer {mode : Nat} (h : mode < 5) (sd : BitVec 32) (neg : Bool) (m : Nat) (e : Int) :
    let r := roundUnits mode ((if mode = 4 then seedNext sd else sd).extractLsb' 8 24).toNat neg m e false 0
    Claim.roundedInt mode ((seedNext sd).toNat / 2 ^ 8) (Claim.num neg m e) (signedMant neg r.1) ∧
      r.2 = decide (((signedMant neg r.1 : Int) : ℚ) ≠ Claim.num neg m e) := by
  have hy : (0 : ℚ) ≤ m * 2 ^ e := by positivity
  have hround := roundUnits_eq mode ((if mode = 4 then seedNext sd else sd).extractLsb' 8 24).toNat neg m e 0
  dsimp only at hround ⊢
  rw [hround, sub_zero, roundsUpAt_seed h, num_signed]
  exact ⟨roundedInt_signed hy neg _ h, decide_eq_decide.2 (signed_units_eq_iff _ _ neg hy).not.symm⟩

/-- A finite value is rounded, and clamped to the range. -/
theorem toInt_fin (mode : Nat) (sd : BitVec 32) (lo hi : Int) (neg : Bool) (m : Nat) (e : Int) : let sd' := if mode = 4 then seedNext sd else sd
    let r := roundUnits mode (sd'.extractLsb' 8 24).toNat neg m e false 0
    let v := signedMant neg r.1
    toInt mode sd lo hi (.fin neg m e) = if v < lo then (lo, fNV, sd') else if hi < v then (hi, fNV, sd') else (v, flagIf fNX r.2, sd') := rfl

theorem toInt_seed (mode : Nat) (sd : BitVec 32) (lo hi : Int) (x : FVal) :
    (toInt mode sd lo hi x).2.2 = if mode = 4 then seedNext sd else sd := by
  cases x with
  | nan b sig => rfl
  | inf n => rfl
  | fin n m e => 
    rw [toInt_fin]
    generalize (if mode = 4 then seedNext sd else sd) = sd'
    split <;> [rfl; (split <;> rfl)]

theorem toInt_bounds (mode : Nat) (sd : BitVec 32) {lo hi : Int} (x : FVal) (hlo : lo ≤ 0) (hhi : 0 ≤ hi) :
    lo ≤ (toInt mode sd lo hi x).1 ∧ (toInt mode sd lo hi x).1 ≤ hi := by
  have hlh := hlo.trans hhi
  cases x with
  | nan b sig => exact ⟨hlo, hhi⟩
  | inf n =>
    cases n with
    | false => exact ⟨hlh, le_rfl⟩
    | true => exact ⟨le_rfl, hlh⟩
  | fin n m e =>
    rw [toInt_fin]
    generalize (if mode = 4 then seedNext sd else sd) = sd'
    split
    · exact ⟨le_rfl, hlh⟩
    · next hge =>
      split
      · exact ⟨hlh, le_rfl⟩
      · next hle => exact ⟨not_lt.1 hge, not_lt.1 hle⟩

/-! Widening. -/

/-- A finite value of a format with infinities: its significand and its exponent keep to the format's. -/
theorem Fmt.decode_fin_bounds (f : Fmt) (hsp : f.sp = .ieee) {n8 x m : Nat} {n : Bool} {e : Int} (h : f.decode n8 x = .fin n m e) :
    m < 2 ^ (f.mb + 1) ∧ f.unit ≤ e ∧ e ≤ f.unit + (2 ^ f.eb - 3 : Nat) := by
  have hfrac : x % 2 ^ f.mb < 2 ^ f.mb := Nat.mod_lt _ (by positivity)
  unfold Fmt.decode at h
  simp only [hsp] at h
  rw [pow_succ]
  unfold Fmt.unit
  split at h
  · next hex =>
    split at h <;> (injection h with hn hm he; omega)
  · split at h
    · cases h
    · split at h <;> cases h

theorem bitLen_le {m k : Nat} (h : m < 2 ^ k) : bitLen m ≤ k := by
  by_cases hm : m = 0
  · simp [hm, bitLen]
  · have hle := two_pow_le_of_bitLen hm
    have hlt : 2 ^ bitLen m < 2 ^ (k + 1) := by rw [pow_succ]; omega
    exact Nat.lt_succ_iff.1 ((Nat.pow_lt_pow_iff_right (by decide)).1 hlt)

/-- A number of whole units, in range, is encoded exactly and raises no flag. -/
theorem Fmt.roundTo_exact (f : Fmt) (hf : 0 < f.mb ∧ 0 < f.eb) (rnd : Nat) (sat neg : Bool) {m : Nat} {e : Int} (hm : m ≠ 0) (hq : f.unitOf m e ≤ e)
    (hcode : f.codeOf m e (m * 2 ^ (e - f.unitOf m e).toNat) ≤ f.maxFin) : let r := roundTo f 0 rnd sat neg m e false
    r.2 = 0 ∧ ∃ m' e', f.decode 0 r.1 = .fin neg m' e' ∧ Claim.num neg m' e' = Claim.num neg m e := by
  have hu : roundUnits 0 rnd neg m e false (f.unitOf m e) = (m * 2 ^ (e - f.unitOf m e).toNat, false) := if_pos hq
  have hexact := (f.nearest_codeOf e rnd neg hf.1 hm).1
  have hr := roundTo_cases f 0 rnd sat neg e false hm
  simp only [hu, true_iff] at hexact hr
  obtain ⟨-, tiny, hr⟩ := hr.resolve_left fun h => absurd h.1 (not_lt.2 hcode)
  rw [hr]
  refine ⟨by cases tiny <;> rfl, _, _, f.decode_signed 0 neg hcode hf.2, ?_⟩
  rw [f.num_mag]
  exact (num_eq_num_iff neg _ _ _ _).2 hexact

/-- FP32 holds every number of at most 24 bits within its exponents. -/
theorem f32_roundTo_exact (rnd : Nat) (sat neg : Bool) {m : Nat} {e : Int} (hbits : bitLen m ≤ 24) (hlo : -149 ≤ e) (hhi : e + bitLen m ≤ 128) :
    let r := roundTo .f32 0 rnd sat neg m e false
    r.2 = 0 ∧ ∃ m' e', f32 r.1 = .fin neg m' e' ∧ Claim.num neg m' e' = Claim.num neg m e := by
  by_cases hm : m = 0
  · subst hm
    exact ⟨rfl, _, _, Fmt.f32.decode_signed 0 neg (Nat.zero_le _) (by decide), by
      rw [Fmt.num_mag]
      simp [Claim.num, Fmt.mag, Fmt.mant]⟩
  · have hunit : Fmt.f32.unitOf m e = max (-149) (e + bitLen m - 1 - 23) := rfl
    have hq : Fmt.f32.unitOf m e ≤ e := by rw [hunit]; omega
    refine Fmt.f32.roundTo_exact (by decide) rnd sat neg hm hq ?_
    have hlt : m * 2 ^ (e - Fmt.f32.unitOf m e).toNat < 2 * 2 ^ 23 := by
      have hy := (Fmt.f32.units_bounds e hm).1
      rw [← Int.toNat_of_nonneg (sub_nonneg.2 hq), zpow_natCast] at hy
      exact_mod_cast hy
    have hcode : Fmt.f32.codeOf m e (m * 2 ^ (e - Fmt.f32.unitOf m e).toNat) =
        (Fmt.f32.unitOf m e + 149).toNat * 2 ^ 23 + m * 2 ^ (e - Fmt.f32.unitOf m e).toNat := rfl
    have hmax : Fmt.f32.maxFin = 255 * 2 ^ 23 - 1 := by decide
    rw [hcode, hmax]
    omega

/-- Widening FP16 and BF16 is exact (R115). -/
theorem widen_exact {f : Fmt} (hf : f = .f16 ∨ f = .bf16) {x m : Nat} {n : Bool} {e : Int} (h : f.decode 0 x = .fin n m e) :
    (f.widen 0 x).2 = 0 ∧ ∃ m' e', f32 (f.widen 0 x).1 = .fin n m' e' ∧ Claim.num n m' e' = Claim.num n m e := by
  have hbound : bitLen m ≤ 24 ∧ -149 ≤ e ∧ e + bitLen m ≤ 128 := by
    rcases hf with rfl | rfl
    · obtain ⟨hm, hlo, hhi⟩ := Fmt.f16.decode_fin_bounds rfl h
      have hb := bitLen_le hm
      simp only [Fmt.unit, Fmt.f16] at hb hlo hhi
      omega
    · obtain ⟨hm, hlo, hhi⟩ := Fmt.bf16.decode_fin_bounds rfl h
      have hb := bitLen_le hm
      simp only [Fmt.unit, Fmt.bf16] at hb hlo hhi
      omega
  obtain ⟨hbits, hlo, hhi⟩ := hbound
  obtain ⟨hfl, hval⟩ := f32_roundTo_exact 0 false n hbits hlo hhi
  have hw : f.widen 0 x = ((roundTo .f32 0 0 false n m e false).1, 0 ||| (roundTo .f32 0 0 false n m e false).2) := by
    unfold Fmt.widen
    rw [h]
    rfl
  rw [hw]
  exact ⟨by rw [hfl]; rfl, hval⟩

/-! The instructions. -/

section
variable (s : State) (row : Instr)

theorem bodyToInt_taken (lo hi : Int) : let r := toInt (s.ctx s.cur).mode.toNat (s.ctx s.cur).seed lo hi (Claim.single s.opA)
    bodyToInt lo hi (Claim.env s row) (s.taken row) =
      .ok (.next, (Claim.flagged (s.taken row) r.2.1 r.2.2).ws s.cur s.op.d (BitVec.ofInt 64 r.1)) := by
  unfold bodyToInt
  rw [Env.rm_taken, Env.seed_taken, Env.fx_taken]
  dsimp only
  rw [flagged_eq_flagSeed]
  rfl

theorem putRound_taken (f : Fmt) (x : ExactF) : (Claim.env s row).putRound (s.taken row) f x =
    (Claim.env s row).putF (s.taken row) (finish f (s.ctx s.cur).mode.toNat false (s.ctx s.cur).seed x) := by
  rw [Env.putRound, Env.rm_taken, Env.seed_taken]

theorem bodyNarrow_taken (f : Fmt) : bodyNarrow f (Claim.env s row) (s.taken row) =
    (Claim.env s row).putF (s.taken row) (convert f (s.ctx s.cur).mode.toNat false (s.ctx s.cur).seed (Claim.single s.opA)) := by
  rw [bodyNarrow, Env.rm_taken, Env.seed_taken, Env.fx_taken]

theorem bodyWiden_taken (f : Fmt) : let r := f.widen 0 (s.opA.toNat % 2 ^ 16)
    bodyWiden f (Claim.env s row) (s.taken row) =
      .ok (.next, (Claim.flagged (s.taken row) r.2 (s.ctx s.cur).seed).ws s.cur s.op.d (BitVec.ofNat 64 r.1)) := by
  unfold bodyWiden
  rw [Env.a_taken]
  dsimp only
  rw [← raise_eq_flagged]
  rfl

end

/-- FCVT from an integer rounds the exact value. -/
theorem fcvt_ofInt_gives {row : Instr} {v : Word → Int} {s : State} (h : s.Ready row) (hx : exec row s = .next (issue row (bodyOfInt v) s)) :
    Claim.GivesFloat row s (finish .f32 (s.ctx s.cur).mode.toNat false (s.ctx s.cur).seed (.fin (decide (v s.opA < 0)) (v s.opA).natAbs 0 false, 0)) := by
  refine givesFloat_of_body h hx ?_
  rw [bodyOfInt, Env.a_taken, putRound_taken]
  rfl

/-- FCVT to an integer writes what R118 gives. -/
theorem fcvt_toInt_gives {row : Instr} {lo hi : Int} {s : State} (h : s.Ready row) (hx : exec row s = .next (issue row (bodyToInt lo hi) s)) :
    let r := toInt (s.ctx s.cur).mode.toNat (s.ctx s.cur).seed lo hi (Claim.single s.opA)
    Gives row s ((Claim.flagged (s.taken row) r.2.1 r.2.2).ws s.cur s.op.d (BitVec.ofInt 64 r.1))
      { Touch.none with s := [s.op.d], ff := true, seed := true } :=
  gives_flagged_ws h hx (bodyToInt_taken s row lo hi) (by simp) rfl (.inl rfl)

/-- FCVT from FP16 and BF16 is exact for a finite value. -/
theorem fcvt_widen_gives {row : Instr} {f : Fmt} {s : State} (h : s.Ready row) (hx : exec row s = .next (issue row (bodyWiden f) s))
    (hf : f = .f16 ∨ f = .bf16) : let x := s.opA.toNat % 2 ^ 16
    ∃ v fl, Gives row s ((Claim.flagged (s.taken row) fl (s.ctx s.cur).seed).ws s.cur s.op.d (BitVec.ofNat 64 v))
        { Touch.none with s := [s.op.d], ff := true } ∧
      ∀ n m e, f.decode 0 x = .fin n m e → fl = 0 ∧ ∃ m' e', f32 v = .fin n m' e' ∧ Claim.num n m' e' = Claim.num n m e :=
  ⟨_, _, gives_flagged_ws h hx (bodyWiden_taken s row f) (by simp) rfl (.inr rfl), fun _ _ _ hdec => widen_exact hf hdec⟩

theorem exec_fcvtI64F32 (s : State) : exec .fcvtI64F32 s = .next (issue .fcvtI64F32 (bodyToInt (-2 ^ 63) (2 ^ 63 - 1)) s) := by
  have hlo : -((2 ^ 63 : Nat) : Int) = -2 ^ 63 := by norm_num
  have hhi : ((2 ^ 63 : Nat) : Int) - 1 = 2 ^ 63 - 1 := by norm_num
  rw [← hlo, ← hhi]
  rfl

theorem exec_fcvtU64F32 (s : State) : exec .fcvtU64F32 s = .next (issue .fcvtU64F32 (bodyToInt 0 (2 ^ 64 - 1)) s) := by
  have hhi : ((2 ^ 64 : Nat) : Int) - 1 = 2 ^ 64 - 1 := by norm_num
  rw [← hhi]
  rfl

/-- Settles O30: the rounded magnitude of a number is its mode's integer, and FP32 holds what FP16 and BF16 hold. -/
theorem floatConversions : Obligations.FloatConversions := by
  refine ⟨?_, ?_, ?_, ?_, ?_⟩
  · rintro row lo hi s hrow h
    simp only [List.mem_cons, Prod.mk.injEq, List.not_mem_nil, or_false] at hrow
    obtain ⟨rfl, rfl, rfl⟩ | ⟨rfl, rfl, rfl⟩ := hrow
    · exact fcvt_toInt_gives h (exec_fcvtI64F32 s)
    · exact fcvt_toInt_gives h (exec_fcvtU64F32 s)
  · intro mode sd lo hi x hlo hhi hmode r
    obtain ⟨hge, hle⟩ := toInt_bounds mode sd x hlo hhi
    refine ⟨hge, hle, toInt_seed mode sd lo hi x, ?_, ?_, ?_⟩
    · intro hn
      cases x with
      | nan b sig => exact ⟨rfl, rfl⟩
      | inf n => cases hn
      | fin n m e => cases hn
    · rintro n rfl
      exact ⟨rfl, rfl⟩
    · rintro n m e rfl
      obtain ⟨hint, hinexact⟩ := roundUnits_integer hmode sd n m e
      refine ⟨_, hint, fun hv => ?_, fun hv => ?_, fun hv hv' => ?_⟩
      · simp only [r, toInt_fin, if_pos hv, and_self]
      · simp only [r, toInt_fin, if_neg (not_lt.2 (hlo.trans (hhi.trans hv.le))), if_pos hv, and_self]
      · simp only [r, toInt_fin, if_neg (not_lt.2 hv), if_neg (not_lt.2 hv'), true_and, hinexact, flagIf]
        simp
  · rintro row v s (⟨rfl, rfl⟩ | ⟨rfl, rfl⟩) h
    · exact fcvt_ofInt_gives (v := fun a => a.toInt) h rfl
    · exact fcvt_ofInt_gives (v := fun a => (a.toNat : Int)) h rfl
  · rintro row f s hrow h
    simp only [List.mem_cons, Prod.mk.injEq, List.not_mem_nil, or_false] at hrow
    obtain ⟨rfl, rfl⟩ | ⟨rfl, rfl⟩ := hrow
    · exact givesFloat_of_body h rfl (bodyNarrow_taken s _ _)
    · exact givesFloat_of_body h rfl (bodyNarrow_taken s _ _)
  · rintro row f s hrow h
    simp only [List.mem_cons, Prod.mk.injEq, List.not_mem_nil, or_false] at hrow
    obtain ⟨rfl, rfl⟩ | ⟨rfl, rfl⟩ := hrow
    · exact fcvt_widen_gives h rfl (.inl rfl)
    · exact fcvt_widen_gives h rfl (.inr rfl)

end Sys2Proof.Machine
end

