-- ==== Sys2Proof/Proofs/VectorRegisters.lean ====
section
/-! Writes of vector, accumulator and latch registers: what they leave unchanged, and the elements of a vector register (R202, R203). -/

namespace Sys2Proof.Machine

open Sys2Proof

theorem Tab.set_set {α : Type} (t : Tab α) (k : Nat) (x y : α) : (t.set k x).set k y = t.set k y := by
  induction t with
  | nil => simp [Tab.set]
  | cons p r ih =>
    obtain ⟨j, z⟩ := p
    simp only [Tab.set]
    split
    · simp [Tab.set]
    · next hlt =>
      split
      · simp [Tab.set]
      · next hne => simp only [Tab.set, if_neg hlt, if_neg hne, ih]

theorem State.modCtx_modCtx (s : State) (c : CtxId) (f g : Ctx → Ctx) : (s.modCtx c f).modCtx c g = s.modCtx c (fun k => g (f k)) := by
  simp only [State.modCtx, State.ctx_setCtx_same]
  simp only [State.setCtx, Tab.set_set]

/-- The parts of a context that a write of a wide register leaves alone. -/
def Ctx.scalarPart (k : Ctx) := (k.s, k.p, k.ff, k.seed, k.lpct, k.mode, k.sup, k.cause, k.trapPc, k.trapVal, k.trapTag)

section
variable {s t : State} {e : CtxId} {d : Touch}

/-- An update of the context's own wide registers changes only those that it names. -/
theorem Frame.modWide (h : Frame s t e d) {f : Ctx → Ctx} (hs : ∀ k, (f k).scalarPart = k.scalarPart)
    (hv : ∀ k r, r ∉ d.v → (f k).v.toArray.getD r 0 = k.v.toArray.getD r 0)
    (ha : ∀ k r, r ∉ d.a → (f k).a.toArray.getD r (Vector.replicate 256 0) = k.a.toArray.getD r (Vector.replicate 256 0))
    (hg : ∀ k r, r ∉ d.g → (f k).g.toArray.getD r (Vector.replicate 16 0) = k.g.toArray.getD r (Vector.replicate 16 0)) :
    Frame s (t.modCtx e f) e d := by
  refine h.trans ?_
  have p := fun c => t.ctx_modCtx_proj e f Ctx.scalarPart hs (fun _ _ => rfl) (d := c)
  have p := fun c => by simpa only [Ctx.scalarPart, Prod.mk.injEq] using p c
  have p4 := fun c => (p c).2.2.2
  have wide : ∀ {α : Type} (g : Ctx → α), (∀ i j, g (Ctx.reset i) = g (Ctx.reset j)) → ∀ c, (c.key = e.key → g (f (t.ctx e)) = g (t.ctx e)) →
      g ((t.modCtx e f).ctx c) = g (t.ctx c) := fun g hr c hk => by
    by_cases hc : c.key = e.key
    · rw [State.ctx_key_proj _ g hr hc, State.ctx_modCtx_same, hk hc, t.ctx_key_proj g hr hc]
    · rw [t.ctx_modCtx_ne _ hc]
  exact
    { regs := fun c r _ => State.rs_of_ctx (p c).1 r
      preds := fun c r _ => State.rp_of_ctx (p c).2.1 r
      vecs := fun c r hn => wide (fun k => k.v.toArray.getD r 0) (fun _ _ => rfl) c fun hc => hv _ r fun hr => hn ⟨hc, hr⟩
      accs := fun c r hn => wide (fun k => k.a.toArray.getD r (Vector.replicate 256 0)) (fun _ _ => rfl) c fun hc => ha _ r fun hr => hn ⟨hc, hr⟩
      latches := fun c r hn => wide (fun k => k.g.toArray.getD r (Vector.replicate 16 0)) (fun _ _ => rfl) c fun hc => hg _ r fun hr => hn ⟨hc, hr⟩
      flags := fun c _ => (p c).2.2.1
      seeds := fun c _ => (p4 c).1
      loops := fun c _ => (p4 c).2.1
      modes := fun c => (p4 c).2.2.1
      supervisor := fun c => (p4 c).2.2.2.1
      frames := fun c => (p4 c).2.2.2.2
      memory := fun a _ => rfl }

theorem getD_setIfInBounds_ne {α : Type} {n : Nat} (v : Vector α n) {i r : Nat} (x z : α) (h : r ≠ i) :
    (v.setIfInBounds i x).toArray.getD r z = v.toArray.getD r z := by
  rw [Vector.toArray_setIfInBounds]
  simp [Array.getD_eq_getD_getElem?, Array.getElem?_setIfInBounds_ne h.symm]

theorem Frame.wv (h : Frame s t e d) {r : Nat} (hr : r ∈ d.v) (x : VReg) : Frame s (t.wv e r x) e d :=
  h.modWide (fun _ => rfl) (fun k _ hq => getD_setIfInBounds_ne k.v x 0 fun he => hq (he ▸ hr)) (fun _ _ _ => rfl) fun _ _ _ => rfl

theorem Frame.wa (h : Frame s t e d) {r : Nat} (hr : r ∈ d.a) (x : Acc) : Frame s (t.wa e r x) e d :=
  h.modWide (fun _ => rfl) (fun _ _ _ => rfl) (fun k _ hq => getD_setIfInBounds_ne k.a x _ fun he => hq (he ▸ hr)) fun _ _ _ => rfl

theorem Frame.wg (h : Frame s t e d) {r : Nat} (hr : r ∈ d.g) (x : Latch) : Frame s (t.wg e r x) e d :=
  h.modWide (fun _ => rfl) (fun _ _ _ => rfl) (fun _ _ _ => rfl) fun k _ hq => getD_setIfInBounds_ne k.g x _ fun he => hq (he ▸ hr)

end

/-! Elements. -/

/-- An element of packed elements. -/
theorem packEls_lane (w : Nat) (l : List Nat) (i : Nat) : packEls w l / 2 ^ (w * i) % 2 ^ w = l.getD i 0 % 2 ^ w := by
  have hp : 0 < 2 ^ w := by positivity
  induction l generalizing i with
  | nil => simp [packEls]
  | cons x r ih =>
    have hx : x % 2 ^ w < 2 ^ w := Nat.mod_lt _ hp
    cases i with
    | zero => simp [packEls, Nat.add_mul_mod_self_left]
    | succ i =>
      rw [packEls, Nat.mul_succ, Nat.add_comm (w * i), Nat.pow_add, ← Nat.div_div_eq_div_mul, Nat.add_mul_div_left _ _ hp,
        Nat.div_eq_of_lt hx, Nat.zero_add, ih]
      rfl

theorem packEls_lt (w : Nat) (l : List Nat) : packEls w l < 2 ^ (w * l.length) := by
  induction l with
  | nil => simp [packEls]
  | cons x r ih =>
    have hx : x % 2 ^ w < 2 ^ w := Nat.mod_lt _ (by positivity)
    calc packEls w (x :: r) < 2 ^ w * (packEls w r + 1) := by rw [packEls, Nat.mul_succ]; omega
      _ ≤ 2 ^ w * 2 ^ (w * r.length) := Nat.mul_le_mul_left _ ih
      _ = 2 ^ (w * (x :: r).length) := by rw [← Nat.pow_add, List.length_cons, Nat.mul_succ, Nat.add_comm]

/-- An element of a register of elements. -/
theorem lane_vof {w : Nat} {l : List Nat} (hl : w * l.length ≤ 512) (i : Nat) : Claim.lane (vof w l) w i = l.getD i 0 % 2 ^ w := by
  have hlt : packEls w l < 2 ^ 512 := (packEls_lt w l).trans_le (pow_le_pow_right₀ one_le_two hl)
  rw [Claim.lane, vof, BitVec.toNat_ofNat, Nat.mod_eq_of_lt hlt, packEls_lane]

/-- A register of n elements. -/
theorem lane_vof_range {w n : Nat} (hn : w * n ≤ 512) (f : Nat → Nat) {i : Nat} (hi : i < n) :
    Claim.lane (vof w ((List.range n).map f)) w i = f i % 2 ^ w := by
  rw [lane_vof (by simpa using hn), List.getD_eq_getElem _ _ (by simpa using hi)]
  simp

theorem lane_lt (v : VReg) (w i : Nat) : Claim.lane v w i < 2 ^ w := Nat.mod_lt _ (by positivity)

/-- The elements of a type fill a register at most. -/
theorem elems_fit {et : Nat} (h : et < 9) : elemWidth et * elemCount et ≤ 512 := by
  have : ∀ et < 9, elemWidth et * elemCount et ≤ 512 := by decide
  exact this et h

/-! The operands of a vector instruction that begins, in a context alone. -/

section
variable (s : State) (row : Instr)

theorem State.rv_taken (r : Nat) : (s.taken row).rv s.cur r = s.rv s.cur r :=
  (taken_frame s row s.cur Touch.none).vecs _ _ (by simp [Touch.none])

theorem State.rp_taken (r : BitVec 5) : (s.taken row).rp s.cur r = s.rp s.cur r :=
  (taken_frame s row s.cur Touch.none).preds _ _ (by simp [Touch.none])

theorem Env.va_taken (i : Nat) : (Claim.env s row).va (s.taken row) i = Claim.laneA s i := by
  rw [Env.va, Claim.laneA, ← s.rv_taken row]
  rfl

theorem Env.vb_taken (i : Nat) : (Claim.env s row).vb (s.taken row) i = Claim.laneB s i := by
  rw [Env.vb, Claim.laneB, ← s.rv_taken row]
  rfl

theorem Env.vc_taken (i : Nat) : (Claim.env s row).vc (s.taken row) i = Claim.laneC s i := by
  rw [Env.vc, Claim.laneC, ← s.rv_taken row]
  rfl

theorem Env.vd_taken (i : Nat) : (Claim.env s row).vd (s.taken row) i = Claim.laneD s i := by
  rw [Env.vd, Claim.laneD, ← s.rv_taken row]
  rfl

theorem Env.pgv_taken : (Claim.env s row).pgv (s.taken row) = s.rp s.cur (s.op.pg.setWidth 5) := s.rp_taken row _

theorem live_taken (w i : Nat) : live ((Claim.env s row).pgv (s.taken row)) w i = Claim.governs s w i := by
  rw [Env.pgv_taken]
  rfl

theorem Env.rmv_taken : (Claim.env s row).rmv (s.taken row) = Claim.rmode s := by
  unfold Env.rmv Claim.rmode
  rw [show ((Claim.env s row).k (s.taken row)).mode = (s.ctx s.cur).mode from s.mode_taken row]
  rfl

/-- Merging writes v[D] element by element. -/
theorem Env.merge_taken (f : Nat → Nat) : (Claim.env s row).merge (s.taken row) f = (s.taken row).wv s.cur s.op.d.toNat
    (vof (elemWidth s.op.et) ((List.range (elemCount s.op.et)).map
      fun i => if Claim.governs s (elemWidth s.op.et) i then f i else Claim.laneD s i)) := by
  unfold Env.merge
  simp only [live_taken, Env.vd_taken]
  rfl

theorem issueV_alone {s : State} (h : s.ahead = false) (row : Instr) (body : Body) : issueV row body s = issue row body s := by
  simp [issueV, h]

theorem Env.accept_ok (e : Env) (t : State) {ok : Nat → Bool} (h : ok e.o.et = true) : e.accept t ok = .ok () := by
  simp [Env.accept, trapIf, Env.et, h]

end

section
variable {s : State} {row : Instr} {body : Body}

/-- A body that writes v[D] gives that. -/
theorem givesVec_of_body {v : VReg} (h : s.Ready row) (hx : exec row s = .next (issue row body s))
    (hb : body (Claim.env s row) (s.taken row) = .ok (.next, (s.taken row).wv s.cur s.op.d.toNat v)) : Claim.GivesVec row s v :=
  gives_of_body h hx hb ((Frame.refl _ _ _).wv (by simp) _)

/-- A body that makes flags sticky, replaces SEED and writes v[D] gives that. -/
theorem givesVecF_of_body {v : VReg} {fl : FFlags} {sd : BitVec 32} (h : s.Ready row) (hx : exec row s = .next (issue row body s))
    (hb : body (Claim.env s row) (s.taken row) = .ok (.next, (Claim.flagged (s.taken row) fl sd).wv s.cur s.op.d.toNat v)) :
    Claim.GivesVecF row s v fl sd :=
  gives_of_body h hx hb ((flagged_frame s row fl sd rfl (.inl rfl)).wv (by simp) _)

/-- What a merged element reads as. -/
theorem lane_merged (he : s.op.et < 9) (f : Nat → Nat) (p : Nat → Bool) {i : Nat} (hi : i < elemCount s.op.et) :
    Claim.lane (vof (elemWidth s.op.et) ((List.range (elemCount s.op.et)).map fun i => if p i then f i else Claim.laneD s i)) (elemWidth s.op.et) i =
      if p i = true then f i % 2 ^ elemWidth s.op.et else Claim.laneD s i := by
  rw [lane_vof_range (elems_fit he) _ hi]
  split
  · rfl
  · exact Nat.mod_eq_of_lt (lane_lt _ _ _)

end

end Sys2Proof.Machine
end

