-- ==== Sys2Proof/Proofs/Encodings.lean ====
section
/-! Encodings of the formats (R101): what rounding writes fits the format, and the order of numbers tells encodings apart but for the zeros. -/

namespace Sys2Proof.Machine

open Sys2Proof

section
variable (f : Fmt)

theorem Fmt.signed_lt (neg : Bool) {c : Nat} (hc : c < 2 ^ (f.mb + f.eb)) : f.signed neg c < 2 ^ f.width := by
  rw [Fmt.width, pow_succ]
  unfold Fmt.signed
  split <;> omega

/-- What the special codes of a format take to fit it. -/
def Fmt.specialsFit (f : Fmt) : Prop :=
  0 < f.mb ∧ 0 < f.eb ∧ f.mb ≤ 23 ∧ (f.sp = .e4m3 → 0x7f < 2 ^ (f.mb + f.eb)) ∧ (f.sp = .ieee → 2 ≤ f.mb)

theorem formats_specialsFit {f : Fmt} (h : f ∈ formats) : f.specialsFit := by
  have : ∀ f ∈ formats, 0 < f.mb ∧ 0 < f.eb ∧ f.mb ≤ 23 ∧ (f.sp = .e4m3 → 0x7f < 2 ^ (f.mb + f.eb)) ∧ (f.sp = .ieee → 2 ≤ f.mb) := by decide
  exact this f h

theorem Fmt.infCode_add_lt {c : Nat} (hc : c < 2 ^ f.mb) : f.infCode + c < 2 ^ (f.mb + f.eb) := by
  have hp : 0 < 2 ^ f.eb := by positivity
  calc f.infCode + c < (2 ^ f.eb - 1 + 1) * 2 ^ f.mb := by rw [Fmt.infCode, Nat.succ_mul]; omega
    _ = 2 ^ (f.mb + f.eb) := by rw [Nat.sub_add_cancel hp, Nat.pow_add, Nat.mul_comm]

variable {f}

theorem Fmt.overflow_lt (hf : f.specialsFit) (mode : Nat) (sat neg : Bool) : f.overflow mode sat neg < 2 ^ f.width := by
  obtain ⟨-, -, -, h7f, -⟩ := hf
  have hmax := f.signed_lt neg f.maxFin_lt
  have hinf : f.infCode < 2 ^ (f.mb + f.eb) := f.infCode_add_lt (c := 0) (by positivity)
  unfold Fmt.overflow
  split
  · exact hmax
  · next hsp => split <;> [exact hmax; exact f.signed_lt neg (h7f hsp)]
  · split <;> [exact hmax; (split <;> [exact hmax; exact f.signed_lt neg hinf])]

theorem Fmt.narrowNaN_lt (hf : f.specialsFit) (b : Nat) : f.narrowNaN b < 2 ^ f.width := by
  obtain ⟨-, -, hmb, h7f, h2⟩ := hf
  unfold Fmt.narrowNaN
  dsimp only
  split
  · positivity
  · next hsp => exact f.signed_lt _ (h7f hsp)
  · split
    · next he => exact f.signed_lt _ (f.infCode_add_lt (by rw [he]; decide))
    · refine f.signed_lt _ (f.infCode_add_lt (Nat.div_lt_of_lt_mul ?_))
      rw [← Nat.pow_add, Nat.sub_add_cancel hmb]
      exact Nat.mod_lt _ (by positivity)

theorem roundTo_lt (hf : f.specialsFit) (mode rnd : Nat) (sat neg : Bool) (m : Nat) (e : Int) (st : Bool) :
    (roundTo f mode rnd sat neg m e st).1 < 2 ^ f.width := by
  by_cases hm : m = 0
  · subst hm
    exact f.signed_lt neg (by positivity)
  · rcases roundTo_cases f mode rnd sat neg e st hm with ⟨-, hr⟩ | ⟨hc, _, hr⟩
    · rw [hr]
      exact Fmt.overflow_lt hf mode sat neg
    · rw [hr]
      exact f.signed_lt neg (hc.trans_lt f.maxFin_lt)

/-- A rounded element fits its format. -/
theorem finish_lt (hf : f.specialsFit) (mode : Nat) (sat : Bool) (sd : BitVec 32) (x : ExactF) : (finish f mode sat sd x).bits < 2 ^ f.width := by
  obtain ⟨x, fl⟩ := x
  unfold finish
  cases x with
  | nan b => exact Fmt.narrowNaN_lt hf b
  | inf n =>
    have hmax := f.signed_lt n f.maxFin_lt
    dsimp only
    split
    · exact f.signed_lt n (f.infCode_add_lt (c := 0) (by positivity))
    · next hsp => exact f.signed_lt n (by split <;> [exact f.maxFin_lt; exact hf.2.2.2.1 hsp])
    · exact hmax
  | fin n m e st => exact roundTo_lt hf mode _ sat n m e st

/-! Formats with infinities. -/

theorem Fmt.exists_signed {x : Nat} (h : x < 2 ^ f.width) : ∃ neg c, c < 2 ^ (f.mb + f.eb) ∧ x = f.signed neg c := by
  rw [Fmt.width, pow_succ] at h
  by_cases hx : x < 2 ^ (f.mb + f.eb)
  · exact ⟨false, x, hx, rfl⟩
  · refine ⟨true, x - 2 ^ (f.mb + f.eb), by omega, ?_⟩
    rw [Fmt.signed, if_pos rfl]
    omega

theorem Fmt.maxFin_ieee (hsp : f.sp = .ieee) : f.maxFin = f.infCode - 1 := by rw [Fmt.maxFin, hsp]; rfl

/-- A code that is no NaN is finite or the infinity. -/
theorem Fmt.decode_number (hsp : f.sp = .ieee) (he : 0 < f.eb) (n8 : Nat) (neg : Bool) {c : Nat} (hc : c < 2 ^ (f.mb + f.eb))
    (hn : (f.decode n8 (f.signed neg c)).isNaN = false) :
    (c ≤ f.maxFin ∧ f.decode n8 (f.signed neg c) = .fin neg (f.mant c) (f.expo c)) ∨ (c = f.infCode ∧ f.decode n8 (f.signed neg c) = .inf neg) := by
  by_cases hle : c ≤ f.maxFin
  · exact .inl ⟨hle, f.decode_signed n8 neg hle he⟩
  · obtain ⟨hfrac, hexp, hneg⟩ := f.signed_parts neg hc
    have hB : 0 < 2 ^ f.mb := by positivity
    have hge : f.infCode ≤ c := by rw [f.maxFin_ieee hsp] at hle; omega
    have hlast : c / 2 ^ f.mb = 2 ^ f.eb - 1 := by
      have h1 : 2 ^ f.eb - 1 ≤ c / 2 ^ f.mb := (Nat.le_div_iff_mul_le hB).2 hge
      have h2 : c / 2 ^ f.mb < 2 ^ f.eb := Nat.div_lt_of_lt_mul (by rwa [Nat.pow_add] at hc)
      omega
    have hdm := Nat.div_add_mod c (2 ^ f.mb)
    rw [hlast, Nat.mul_comm] at hdm
    unfold Fmt.decode at hn ⊢
    simp only [hsp, hfrac, hexp, hneg, hlast, lt_irrefl, if_false] at hn ⊢
    split at hn
    · next h0 => exact .inr ⟨by rw [← hdm, h0]; rfl, by rw [if_pos h0]⟩
    · split at hn <;> cases hn

theorem Fmt.mag_eq_zero (f : Fmt) {c : Nat} : f.mag c = 0 ↔ c = 0 := by
  have hz : f.mag 0 = 0 := by simp [Fmt.mag, Fmt.mant]
  exact ⟨fun h => f.mag_strictMono.injective (h.trans hz.symm), fun h => h ▸ hz⟩

theorem Fmt.num_code (f : Fmt) (neg : Bool) (c : Nat) : Claim.num neg (f.mant c) (f.expo c) = (signedMant neg (f.mag c) : ℚ) * 2 ^ f.unit := by
  rw [f.num_mag, num_eq_signedMant]

/-! The order of numbers (R141, R143). -/

theorem cmpNum_fin (n1 n2 : Bool) (m1 m2 : Nat) (e1 e2 : Int) :
    cmpNum (.fin n1 m1 e1) (.fin n2 m2 e2) = compare (Claim.num n1 m1 e1) (Claim.num n2 m2 e2) := by
  have hpos : (0 : ℚ) < 2 ^ min e1 e2 := by positivity
  rw [← signedMant_rescale n1 m1 (min_le_left e1 e2), ← signedMant_rescale n2 m2 (min_le_right e1 e2)]
  unfold cmpNum
  dsimp only
  generalize signedMant n1 (m1 * 2 ^ (e1 - min e1 e2).toNat) = a
  generalize signedMant n2 (m2 * 2 ^ (e2 - min e1 e2).toNat) = b
  rcases lt_trichotomy a b with h | h | h
  · rw [compare_lt_iff_lt.2 h, compare_lt_iff_lt.2 (mul_lt_mul_of_pos_right (by exact_mod_cast h) hpos)]
  · rw [compare_eq_iff_eq.2 h, compare_eq_iff_eq.2 (by rw [h])]
  · rw [compare_gt_iff_gt.2 h, compare_gt_iff_gt.2 (mul_lt_mul_of_pos_right (by exact_mod_cast h) hpos)]

theorem cmpNum_self (x : FVal) : cmpNum x x = .eq := by
  cases x with
  | nan b sig => rfl
  | inf n => simp [cmpNum]
  | fin n m e => rw [cmpNum_fin, compare_eq_iff_eq]

theorem cmpNum_swap {x y : FVal} (hx : x.isNaN = false) (hy : y.isNaN = false) : cmpNum y x = (cmpNum x y).swap := by
  cases x with
  | nan b sig => cases hx
  | inf n =>
    cases y with
    | nan b sig => cases hy
    | inf n' => cases n <;> cases n' <;> rfl
    | fin n' m e => cases n <;> rfl
  | fin n m e =>
    cases y with
    | nan b sig => cases hy
    | inf n' => cases n' <;> rfl
    | fin n' m' e' => rw [cmpNum_fin, cmpNum_fin, ← cmp_eq_compare, ← cmp_eq_compare, cmp_swap]

/-- Encodings of equal numbers are the same, but for the zeros. -/
theorem Fmt.signed_of_cmp_eq (hsp : f.sp = .ieee) (he : 0 < f.eb) {n1 n2 : Bool} {c1 c2 : Nat} (h1 : c1 < 2 ^ (f.mb + f.eb)) (h2 : c2 < 2 ^ (f.mb + f.eb))
    (hn1 : (f.decode 0 (f.signed n1 c1)).isNaN = false) (hn2 : (f.decode 0 (f.signed n2 c2)).isNaN = false)
    (h : cmpNum (f.decode 0 (f.signed n1 c1)) (f.decode 0 (f.signed n2 c2)) = .eq) : c1 = c2 ∧ (n1 = n2 ∨ c1 = 0) := by
  have hpos : (0 : ℚ) < 2 ^ f.unit := by positivity
  rcases Fmt.decode_number hsp he 0 n1 h1 hn1 with ⟨-, hd1⟩ | ⟨hi1, hd1⟩ <;>
    rcases Fmt.decode_number hsp he 0 n2 h2 hn2 with ⟨-, hd2⟩ | ⟨hi2, hd2⟩ <;> rw [hd1, hd2] at h
  · rw [cmpNum_fin, compare_eq_iff_eq, f.num_code, f.num_code, mul_left_inj' hpos.ne', Int.cast_inj] at h
    have hmag : f.mag c1 = f.mag c2 := by
      cases n1 <;> cases n2 <;> simp [signedMant] at h <;> omega
    have hc := f.mag_strictMono.injective hmag
    refine ⟨hc, ?_⟩
    rw [← f.mag_eq_zero, or_iff_not_imp_left]
    intro hne
    rw [← hmag] at h
    cases n1 <;> cases n2 <;> simp [signedMant] at h hne <;> omega
  · cases n2 <;> simp [cmpNum] at h
  · cases n1 <;> simp [cmpNum] at h
  · exact ⟨hi1.trans hi2.symm, .inl (by simpa [cmpNum] using h)⟩

theorem Fmt.neg_signed (hsp : f.sp = .ieee) (he : 0 < f.eb) {neg : Bool} {c : Nat} (hc : c < 2 ^ (f.mb + f.eb))
    (hn : (f.decode 0 (f.signed neg c)).isNaN = false) : (f.decode 0 (f.signed neg c)).neg = neg := by
  rcases Fmt.decode_number hsp he 0 neg hc hn with ⟨-, hd⟩ | ⟨-, hd⟩ <;> rw [hd] <;> rfl

theorem totalLt_true {x y : FVal} (h : totalLt x y = true) : cmpNum x y ≠ .gt := by
  unfold totalLt at h
  intro hc
  rw [hc] at h
  cases h

theorem totalLt_false {x y : FVal} (h : totalLt x y = false) : cmpNum x y ≠ .lt := by
  unfold totalLt at h
  intro hc
  rw [hc] at h
  cases h

theorem totalLt_of_eq {x y : FVal} (h : cmpNum x y = .eq) : totalLt x y = (x.neg && !y.neg) := by rw [totalLt, h]

/-- The lesser and the greater of two numbers are operands bit for bit; of equal ones, −0 is below +0 (R141). -/
theorem Fmt.minMax_number (hsp : f.sp = .ieee) (he : 0 < f.eb) (mx : Bool) {x y : Nat} (hx : x < 2 ^ f.width) (hy : y < 2 ^ f.width)
    (hnx : (f.decode 0 x).isNaN = false) (hny : (f.decode 0 y).isNaN = false) : let v := (f.minMax mx x y).1
    (v = x ∨ v = y) ∧ cmpNum (f.decode 0 v) (f.decode 0 x) ≠ (if mx then .lt else .gt) ∧
      cmpNum (f.decode 0 v) (f.decode 0 y) ≠ (if mx then .lt else .gt) ∧
      (cmpNum (f.decode 0 x) (f.decode 0 y) = .eq → v = if mx then x &&& y else x ||| y) := by
  intro v
  have hv : v = if totalLt (f.decode 0 x) (f.decode 0 y) != mx then x else y := by
    simp only [v, Fmt.minMax, firstNaN_none (l := [f.decode 0 x, f.decode 0 y]) (by simp [hnx, hny])]
  have hswap := cmpNum_swap hnx hny
  clear_value v
  refine ⟨by rw [hv]; split <;> simp, ?_, ?_, fun heq => ?_⟩
  · cases ht : totalLt (f.decode 0 x) (f.decode 0 y) with
    | true => cases mx <;> simp [hv, ht, hswap, cmpNum_self, totalLt_true ht]
    | false => cases mx <;> simp [hv, ht, hswap, cmpNum_self, totalLt_false ht]
  · cases ht : totalLt (f.decode 0 x) (f.decode 0 y) with
    | true => cases mx <;> simp [hv, ht, cmpNum_self, totalLt_true ht]
    | false => cases mx <;> simp [hv, ht, cmpNum_self, totalLt_false ht]
  · rw [totalLt_of_eq heq] at hv
    obtain ⟨n1, c1, h1, rfl⟩ := Fmt.exists_signed hx
    obtain ⟨n2, c2, h2, rfl⟩ := Fmt.exists_signed hy
    rw [Fmt.neg_signed hsp he h1 hnx, Fmt.neg_signed hsp he h2 hny] at hv
    obtain ⟨rfl, rfl | rfl⟩ := Fmt.signed_of_cmp_eq hsp he h1 h2 hnx hny heq
    · cases n1 <;> cases mx <;> simp [hv]
    · cases n1 <;> cases n2 <;> cases mx <;> simp [hv, Fmt.signed]

end

end Sys2Proof.Machine
end

