-- ==== Sys2Proof/Proofs/VectorFloats.lean ====
section
/-! Vector float instructions (R206–R208, R213, R214): each active element is rounded once, in ascending order, with its own draw from SEED. -/

namespace Sys2Proof.Machine

open Sys2Proof

/-! Rounding elements. -/

/-- The elements, flags and SEED of elements rounded in ascending order from any of them on. -/
theorem roundEls_range' (f : Fmt) (mode : Nat) (act : Nat → Bool) (old : Nat → Nat) (g : Nat → ExactF) (sd : BitVec 32) (n k : Nat) :
    roundEls f mode act old g (List.range' k n) (Claim.flagsOf f mode act g sd k) (Claim.seedAt f mode act g sd k) =
      ((List.range' k n).map (fun i => if act i then (Claim.rounded f mode act g sd i).bits else old i), Claim.flagsOf f mode act g sd (k + n),
        Claim.seedAt f mode act g sd (k + n)) := by
  induction n generalizing k with
  | zero => rfl
  | succ n ih =>
    have ih := ih (k + 1)
    rw [Nat.add_right_comm] at ih
    rw [List.range'_succ, roundEls, List.map_cons]
    cases hk : act k with
    | true =>
      have hfl : Claim.flagsOf f mode act g sd (k + 1) = Claim.flagsOf f mode act g sd k ||| (Claim.rounded f mode act g sd k).fl := by
        rw [Claim.flagsOf, hk, if_pos rfl]
      have hsd : Claim.seedAt f mode act g sd (k + 1) = (Claim.rounded f mode act g sd k).seed := by
        rw [Claim.seedAt, hk, if_pos rfl]
        rfl
      rw [hfl, hsd] at ih
      simp only [if_true]
      rw [← Claim.rounded, ih]
      rfl
    | false =>
      have hfl : Claim.flagsOf f mode act g sd (k + 1) = Claim.flagsOf f mode act g sd k := by
        rw [Claim.flagsOf, hk]
        exact BitVec.or_zero
      have hsd : Claim.seedAt f mode act g sd (k + 1) = Claim.seedAt f mode act g sd k := by
        rw [Claim.seedAt, hk]
        rfl
      rw [hfl, hsd] at ih
      simp only [Bool.false_eq_true, if_false]
      rw [ih]
      rfl

theorem roundEls_range (f : Fmt) (mode : Nat) (act : Nat → Bool) (old : Nat → Nat) (g : Nat → ExactF) (sd : BitVec 32) (n : Nat) :
    roundEls f mode act old g (List.range n) 0 sd =
      ((List.range n).map (fun i => if act i then (Claim.rounded f mode act g sd i).bits else old i), Claim.flagsOf f mode act g sd n,
        Claim.seedAt f mode act g sd n) := by
  have h := roundEls_range' f mode act old g sd n 0
  rw [Nat.zero_add] at h
  rw [List.range_eq_range']
  exact h

/-- The float element types of a vector instruction, and their formats. -/
theorem floatType {et : Nat} (h : et = 6 ∨ et = 7 ∨ et = 8) :
    et < 9 ∧ etF et = true ∧ etIF et = true ∧ etNeg et = true ∧ et ≠ 2 ∧ ((fmtOf et).getD .f32) ∈ formats ∧ ((fmtOf et).getD .f32).sp = .ieee ∧
      elemWidth et = ((fmtOf et).getD .f32).width := by
  rcases h with rfl | rfl | rfl <;> decide

section
variable (s : State) (row : Instr)

theorem Env.fval_taken (x : Nat) : (Claim.env s row).fval x = Claim.felem s x := rfl

/-- Rounding all elements writes v[D], its flags and SEED. -/
theorem Env.roundAll_taken (g : Nat → ExactF) : let w := elemWidth s.op.et
    let n := elemCount s.op.et
    let r := Claim.rounded (Claim.eltFmt s) (Claim.rmode s) (Claim.governs s w) g (s.ctx s.cur).seed
    (Claim.env s row).roundAll (s.taken row) g =
      (Claim.flagged (s.taken row) (Claim.flagsOf (Claim.eltFmt s) (Claim.rmode s) (Claim.governs s w) g (s.ctx s.cur).seed n)
        (Claim.seedAt (Claim.eltFmt s) (Claim.rmode s) (Claim.governs s w) g (s.ctx s.cur).seed n)).wv s.cur s.op.d.toNat
        (vof w ((List.range n).map fun i => if Claim.governs s w i then (r i).bits else Claim.laneD s i)) := by
  intro w n r
  have hact : live ((Claim.env s row).pgv (s.taken row)) (Claim.env s row).w = Claim.governs s w := funext fun i => live_taken s row w i
  have hold : (Claim.env s row).vd (s.taken row) = Claim.laneD s := funext fun i => Env.vd_taken s row i
  unfold Env.roundAll
  rw [Env.rmv_taken, Env.seed_taken, hold]
  dsimp only
  rw [hact, roundEls_range, flagged_eq_flagSeed]
  rfl

end

section
variable {s : State} {row : Instr} {body : Body}

/-- A body that rounds all elements gives each of them rounded, flags sticky and SEED after the last. -/
theorem givesRounded_of_body {g : Nat → ExactF} (h : s.Ready row) (hx : exec row s = .next (issue row body s))
    (het : s.op.et = 6 ∨ s.op.et = 7 ∨ s.op.et = 8)
    (hb : body (Claim.env s row) (s.taken row) = .ok (.next, (Claim.env s row).roundAll (s.taken row) g)) : let w := elemWidth s.op.et
    let sd := (s.ctx s.cur).seed
    let fm := Claim.eltFmt s
    ∃ v, Claim.GivesVecF row s v (Claim.flagsOf fm (Claim.rmode s) (Claim.governs s w) g sd (elemCount s.op.et))
        (Claim.seedAt fm (Claim.rmode s) (Claim.governs s w) g sd (elemCount s.op.et)) ∧
      ∀ i < elemCount s.op.et, Claim.lane v w i =
        if Claim.governs s w i = true then (Claim.rounded fm (Claim.rmode s) (Claim.governs s w) g sd i).bits else Claim.laneD s i := by
  intro w sd fm
  obtain ⟨hlt, -, -, -, -, hmem, -, hwidth⟩ := floatType het
  refine ⟨_, givesVecF_of_body h hx (by rw [hb, Env.roundAll_taken]), fun i hi => ?_⟩
  rw [lane_merged hlt _ _ hi, Nat.mod_eq_of_lt]
  exact (finish_lt (formats_specialsFit hmem) _ _ _ _).trans_eq (by rw [hwidth])

end

/-- The body of a vector float row, and that it rounds the exact operation of the row. -/
theorem vfloat_body {row : Instr} {f : Nat → Nat → FVal → FVal → FVal → ExactF} (hf : Claim.vfloat row = some f) :
    ∃ body, (∀ s, exec row s = .next (issueV row body s)) ∧ ∀ (e : Env) (t : State), etF e.et = true → etIF e.et = true →
      body e t = .ok (.next, e.roundAll t fun i => f (e.rmv t) (vgen e.me 1 i) (e.fval (e.va t i)) (e.fval (e.vb t i)) (e.fval (e.vc t i))) := by
  have harith : ∀ (fi : Int → Int → Int) (ff : Nat → Nat → FVal → FVal → ExactF) (e : Env) (t : State), etF e.et = true → etIF e.et = true →
      bodyVarith etIF fi false ff e t =
        .ok (.next, e.roundAll t fun i => ff (e.rmv t) (vgen e.me 1 i) (e.fval (e.va t i)) (e.fval (e.vb t i))) := fun fi ff e t hF hIF => by
    rw [bodyVarith, e.accept_ok t hIF]
    exact if_pos hF
  have hspec : ∀ (ff : Nat → FVal → FVal → ExactF) (e : Env) (t : State), etF e.et = true →
      bodyVspec ff e t = .ok (.next, e.roundAll t fun i => ff (vgen e.me 1 i) (e.fval (e.va t i)) (e.fval (e.vb t i))) := fun ff e t hF => by
    rw [bodyVspec, e.accept_ok t hF]
    rfl
  have hfma : ∀ (nm ms : Bool) (e : Env) (t : State), etF e.et = true → bodyVfma nm ms e t = .ok (.next, e.roundAll t fun i =>
      opFma (e.rmv t) (vgen e.me 1 i) (if nm then (e.fval (e.va t i)).negate else e.fval (e.va t i)) (e.fval (e.vb t i))
        (if ms then (e.fval (e.vc t i)).negate else e.fval (e.vc t i))) := fun nm ms e t hF => by
    rw [bodyVfma, e.accept_ok t hF]
    rfl
  unfold Claim.vfloat at hf
  split at hf <;> cases hf
  · exact ⟨_, fun _ => rfl, harith (· + ·) opAdd⟩
  · exact ⟨_, fun _ => rfl, harith (· - ·) fun m gn x y => opAdd m gn x y.negate⟩
  · exact ⟨_, fun _ => rfl, harith (· * ·) fun _ gn x y => opMul gn x y⟩
  · exact ⟨_, fun _ => rfl, fun e t hF _ => hfma false false e t hF⟩
  · exact ⟨_, fun _ => rfl, fun e t hF _ => hfma false true e t hF⟩
  · exact ⟨_, fun _ => rfl, fun e t hF _ => hfma true false e t hF⟩
  · exact ⟨_, fun _ => rfl, fun e t hF _ => hspec (fun gn x _ => opRcp gn x) e t hF⟩
  · exact ⟨_, fun _ => rfl, fun e t hF _ => hspec (fun gn x _ => opRsqrt gn x) e t hF⟩
  · exact ⟨_, fun _ => rfl, fun e t hF _ => hspec (fun gn x _ => opSqrt gn x) e t hF⟩
  · exact ⟨_, fun _ => rfl, fun e t hF _ => hspec opDiv e t hF⟩
  · exact ⟨_, fun _ => rfl, fun e t hF _ => hspec (fun _ x _ => opExp2 x) e t hF⟩
  · exact ⟨_, fun _ => rfl, fun e t hF _ => hspec (fun gn x _ => opLog2 gn x) e t hF⟩
  · exact ⟨_, fun _ => rfl, fun e t hF _ => hspec (fun _ x _ => opTanh x) e t hF⟩

/-! Minimum, maximum and signs. -/

theorem State.wv_raise (t : State) (c : CtxId) (r : Nat) (v : VReg) (fl : FFlags) : (t.wv c r v).raise c fl = (t.raise c fl).wv c r v := by
  simp only [State.wv, State.raise, State.modCtx_modCtx]

/-- The flags of the active elements together. -/
def activeFlags (s : State) (g : Nat → FFlags) : FFlags :=
  (List.range (elemCount s.op.et)).foldl (fun fl i => if Claim.governs s (elemWidth s.op.et) i then fl ||| g i else fl) 0

/-- Writing elements that set flags writes v[D] and makes the flags of the active ones sticky. -/
theorem Env.flagAll_taken (s : State) (row : Instr) (g : Nat → Nat × FFlags) : (Claim.env s row).flagAll (s.taken row) g =
    (Claim.flagged (s.taken row) (activeFlags s fun i => (g i).2) (s.ctx s.cur).seed).wv s.cur s.op.d.toNat
      (vof (elemWidth s.op.et) ((List.range (elemCount s.op.et)).map
        fun i => if Claim.governs s (elemWidth s.op.et) i then (g i).1 else Claim.laneD s i)) := by
  rw [← raise_eq_flagged, ← State.wv_raise, ← Env.merge_taken s row]
  unfold Env.flagAll
  simp only [live_taken]
  rfl

/-- VMINMAX writes one operand bit for bit. -/
theorem vminmax_gives {row : Instr} {mx : Bool} {s : State} (h : s.Ready row) (hx : exec row s = .next (issue row (bodyVminmax mx) s))
    (het : s.op.et = 6 ∨ s.op.et = 7 ∨ s.op.et = 8) : ∃ v fl, Claim.GivesVecF row s v fl (s.ctx s.cur).seed ∧ ∀ i < elemCount s.op.et,
      Claim.lane v (elemWidth s.op.et) i = if Claim.governs s (elemWidth s.op.et) i = true then
        ((Claim.eltFmt s).minMax mx (Claim.laneA s i) (Claim.laneB s i)).1 % 2 ^ elemWidth s.op.et else Claim.laneD s i := by
  obtain ⟨hlt, hF, hIF, -⟩ := floatType het
  have hbody : bodyVminmax mx (Claim.env s row) (s.taken row) = .ok (.next, (Claim.env s row).flagAll (s.taken row)
      fun i => (Claim.eltFmt s).minMax mx (Claim.laneA s i) (Claim.laneB s i)) := by
    simp only [← Env.va_taken s row, ← Env.vb_taken s row]
    rw [bodyVminmax, Env.accept_ok _ _ hIF]
    exact if_pos hF
  exact ⟨_, _, givesVecF_of_body h hx (by rw [hbody, Env.flagAll_taken]), fun i hi => lane_merged hlt _ _ hi⟩

/-- An element with its sign changed, or cleared. -/
def signChanged (ab : Bool) (top x : Nat) : Nat := if ab then x % top else if x < top then x + top else x - top

theorem signChanged_eq (ab : Bool) {top x : Nat} (hx : x < 2 * top) :
    signChanged ab top x % (2 * top) = x % top + if ab = false ∧ x < top then top else 0 := by
  have hmod : x % top = if x < top then x else x - top := by
    split
    · next h => exact Nat.mod_eq_of_lt h
    · rw [Nat.mod_eq_sub_mod (by omega), Nat.mod_eq_of_lt (by omega)]
  unfold signChanged
  rw [hmod]
  cases ab
  · by_cases h : x < top
    · simp only [h, if_true, and_self, Bool.false_eq_true, if_false]
      exact Nat.mod_eq_of_lt (by omega)
    · simp only [h, and_false, Bool.false_eq_true, if_false, add_zero]
      exact Nat.mod_eq_of_lt (by omega)
  · simp only [if_true, Bool.true_eq_false, false_and, if_false, add_zero]
    exact Nat.mod_eq_of_lt (by split <;> omega)

/-- VNEGABS changes the sign bit only. -/
theorem vnegabs_gives {row : Instr} {ab : Bool} {s : State} (h : s.Ready row) (hx : exec row s = .next (issue row (bodyVnegabs ab) s))
    (het : s.op.et = 6 ∨ s.op.et = 7 ∨ s.op.et = 8) : let top := 2 ^ (elemWidth s.op.et - 1)
    ∃ v, Claim.GivesVec row s v ∧ ∀ i < elemCount s.op.et, Claim.lane v (elemWidth s.op.et) i =
      if Claim.governs s (elemWidth s.op.et) i = true then
        Claim.laneA s i % top + (if ab = false ∧ Claim.laneA s i < top then top else 0)
      else Claim.laneD s i := by
  intro top
  obtain ⟨hlt, hF, -, hneg, -⟩ := floatType het
  have hw : 2 ^ elemWidth s.op.et = 2 * top := by
    have : 0 < elemWidth s.op.et := by rcases het with he | he | he <;> rw [he] <;> decide
    rw [← pow_succ', Nat.sub_add_cancel this]
  have hbody : bodyVnegabs ab (Claim.env s row) (s.taken row) = .ok (.next, (Claim.env s row).merge (s.taken row)
      fun i => signChanged ab top (Claim.laneA s i)) := by
    rw [bodyVnegabs, Env.accept_ok _ _ hneg]
    have hF : etF (Claim.env s row).et = true := hF
    simp only [hF, if_true, Env.va_taken]
    rfl
  refine ⟨_, givesVec_of_body h hx (by rw [hbody, Env.merge_taken]), fun i hi => ?_⟩
  have hA : Claim.laneA s i < 2 * top := hw ▸ lane_lt _ _ _
  rw [lane_merged hlt _ _ hi, hw, signChanged_eq ab hA]

/-! VCMP. -/

theorem FVal.isSig_of_number {x : FVal} (h : x.isNaN = false) : x.isSig = false := by
  cases x with
  | nan b sig => cases h
  | inf n => rfl
  | fin n m e => rfl

/-- A relation of FCMP with a NaN: it holds for the last alone, and is invalid for a signalling NaN and for an ordered relation. -/
theorem fcmp_nan (n : Nat) {x y : FVal} (h : (x.isNaN || y.isNaN) = true) :
    fcmp n x y = (n == 3, flagIf fNV (x.isSig || y.isSig || (n == 1 || n == 2))) := by
  simp only [fcmp, h, if_true, Bool.true_and]

/-- A relation of FCMP on numbers. -/
def ordHolds (n : Nat) (o : Ordering) : Bool := match n with | 0 => o == .eq | 1 => o == .lt | 2 => o != .gt | _ => false

theorem fcmp_number (n : Nat) {x y : FVal} (hx : x.isNaN = false) (hy : y.isNaN = false) : fcmp n x y = (ordHolds n (cmpNum x y), 0) := by
  simp only [fcmp, hx, hy, Bool.or_self, Bool.false_eq_true, if_false]
  match n with
  | 0 => rfl
  | 1 => rfl
  | 2 => rfl
  | _ + 3 => rfl

/-- A relation of VCMP by the order of its operands. -/
def vcmpHolds (cc : Nat) (o : Ordering) : Bool :=
  match cc with
  | 0 => o == .eq
  | 1 => o != .eq
  | 2 => o == .lt
  | 3 => o != .lt
  | 4 => o != .gt
  | 5 => o == .gt
  | _ => false

theorem vcmpInt_eq (cc : Nat) (x y : Int) : vcmpInt cc x y = vcmpHolds cc (compare x y) := by
  unfold vcmpInt vcmpHolds
  rcases lt_trichotomy x y with h | h | h
  · rw [compare_lt_iff_lt.2 h]
    split <;> simp [bne, h, h.le, h.ne, h.not_gt]
  · rw [compare_eq_iff_eq.2 h]
    split <;> simp [h]
  · rw [compare_gt_iff_gt.2 h]
    split <;> simp [bne, h, h.le, h.ne', h.not_gt]

theorem vcmpFloat_number (cc : Nat) {x y : FVal} (hx : x.isNaN = false) (hy : y.isNaN = false) :
    vcmpFloat cc x y = (vcmpHolds cc (cmpNum x y), 0) := by
  unfold vcmpFloat vcmpHolds
  split <;> simp only [fcmp_number _ hx hy, fcmp_number _ hy hx, cmpNum_swap hx hy, ordHolds] <;> cases cmpNum x y <;> rfl

/-- The value of a relation of VCMP when an operand is a NaN, and whether a quiet one is invalid (R208). -/
theorem vcmpFloat_nan {cc : Nat} (hcc : cc ≤ 6) {x y : FVal} (h : (x.isNaN || y.isNaN) = true) :
    vcmpFloat cc x y = (cc == 1 || decide (6 ≤ cc), flagIf fNV (x.isSig || y.isSig || decide (2 ≤ cc ∧ cc ≤ 5))) := by
  have h' : (y.isNaN || x.isNaN) = true := by rwa [Bool.or_comm]
  unfold vcmpFloat
  interval_cases cc <;> simp [fcmp_nan _ h, fcmp_nan _ h', Bool.or_comm]

/-- The rows of VCMP by their number. -/
theorem vcmp_number {row : Instr} {r : Ordering → Bool} {un inv : Bool} (h : Claim.vcmp row = some (r, un, inv)) :
    ∃ cc ≤ 6, (∀ s, exec row s = .next (issueV row (bodyVcmp cc) s)) ∧ (row ≠ .vcmpUn → cc ≠ 6) ∧ r = vcmpHolds cc ∧
      un = (cc == 1 || decide (6 ≤ cc)) ∧ inv = decide (2 ≤ cc ∧ cc ≤ 5) := by
  unfold Claim.vcmp at h
  split at h <;> cases h
  · exact ⟨0, by decide, fun _ => rfl, by decide, rfl, rfl, rfl⟩
  · exact ⟨1, by decide, fun _ => rfl, by decide, rfl, rfl, rfl⟩
  · exact ⟨2, by decide, fun _ => rfl, by decide, rfl, rfl, rfl⟩
  · exact ⟨3, by decide, fun _ => rfl, by decide, rfl, rfl, rfl⟩
  · exact ⟨4, by decide, fun _ => rfl, by decide, rfl, rfl, rfl⟩
  · exact ⟨5, by decide, fun _ => rfl, by decide, rfl, rfl, rfl⟩
  · exact ⟨6, by decide, fun _ => rfl, by decide, rfl, rfl, rfl⟩

/-- Invalid operations of active elements set NV together. -/
theorem activeFlags_flagIf (s : State) (b : Nat → Bool) : activeFlags s (fun i => flagIf fNV (b i)) =
    flagIf fNV ((List.range (elemCount s.op.et)).any fun i => Claim.governs s (elemWidth s.op.et) i && b i) := by
  have hor : ∀ x y : Bool, flagIf fNV x ||| flagIf fNV y = flagIf fNV (x || y) := by decide
  have hfold : ∀ (l : List Nat) (a : Bool), l.foldl (fun fl i => if Claim.governs s (elemWidth s.op.et) i then fl ||| flagIf fNV (b i) else fl)
      (flagIf fNV a) = flagIf fNV (a || l.any fun i => Claim.governs s (elemWidth s.op.et) i && b i) := fun l => by
    induction l with
    | nil => simp
    | cons i r ih =>
      intro a
      cases hg : Claim.governs s (elemWidth s.op.et) i with
      | true => simp only [List.foldl_cons, hg, if_true, hor, ih, List.any_cons, Bool.true_and, Bool.or_assoc]
      | false => simp only [List.foldl_cons, hg, Bool.false_eq_true, if_false, ih, List.any_cons, Bool.false_and, Bool.false_or]
  exact hfold _ false

/-- A predicate of packed bits. -/
theorem getLsbD_packEls (l : List Bool) {k : Nat} (hk : k < 16) (hl : k < l.length) :
    (BitVec.ofNat 16 (packEls 1 (l.map fun b => if b then 1 else 0))).getLsbD k = l[k] := by
  have hlane := packEls_lane 1 (l.map fun b => if b then 1 else 0) k
  rw [List.getD_eq_getElem _ _ (by simpa using hl), List.getElem_map, Nat.one_mul, Nat.pow_one] at hlane
  rw [BitVec.getLsbD_ofNat, Nat.testBit_eq_decide_div_mod_eq, hlane]
  cases l[k] <;> simp [hk]

theorem elem_eq_ival {et : Nat} (h : et = 4 ∨ et = 5) (x : Nat) : ival et x = Claim.elem et x := by
  rcases h with rfl | rfl <;> exact signedOf_eq_toInt (by decide) x

/-- A relation of VCMP on element i: whether it holds, and its flags. -/
def vcmpRel (s : State) (cc i : Nat) : Bool × FFlags :=
  if s.op.et = 6 then vcmpFloat cc (f32 (Claim.laneA s i)) (f32 (Claim.laneB s i))
  else (vcmpInt cc (ival s.op.et (Claim.laneA s i)) (ival s.op.et (Claim.laneB s i)), 0)

/-- What VCMP writes to p[D]. -/
def vcmpBits (s : State) (cc : Nat) : Half :=
  BitVec.ofNat 16 (packEls 1 (((List.range 16).map fun k => let i := cmpElem (elemWidth s.op.et) k
    if Claim.governs s (elemWidth s.op.et) i then (vcmpRel s cc i).1 else (s.rp s.cur s.op.d).getLsbD k).map fun b => if b then 1 else 0))

theorem getLsbD_vcmpBits (s : State) (cc : Nat) {k : Nat} (hk : k < 16) : let i := cmpElem (elemWidth s.op.et) k
    (vcmpBits s cc).getLsbD k = if Claim.governs s (elemWidth s.op.et) i = true then (vcmpRel s cc i).1 else (s.rp s.cur s.op.d).getLsbD k := by
  rw [vcmpBits, getLsbD_packEls _ hk (by simpa using hk), List.getElem_map, List.getElem_range]

/-- VCMP writes the relation's bits and makes its flags sticky. -/
theorem bodyVcmp_taken (s : State) (row : Instr) {cc : Nat} (het : s.op.et = 6 ∨ cc ≠ 6 ∧ (s.op.et = 4 ∨ s.op.et = 5)) :
    bodyVcmp cc (Claim.env s row) (s.taken row) = .ok (.next,
      (Claim.flagged (s.taken row) (activeFlags s fun i => (vcmpRel s cc i).2) (s.ctx s.cur).seed).wp s.cur s.op.d (vcmpBits s cc)) := by
  have hok : (fun et => if cc = 6 then et == 6 else et == 4 || et == 5 || et == 6) (Claim.env s row).o.et = true := by
    show (if cc = 6 then s.op.et == 6 else s.op.et == 4 || s.op.et == 5 || s.op.et == 6) = true
    rcases het with h | ⟨hcc, h | h⟩
    · simp [h]
    · simp [h, hcc]
    · simp [h, hcc]
  rw [bodyVcmp, Env.accept_ok _ _ hok, ← raise_eq_flagged]
  simp only [live_taken, Env.va_taken, Env.vb_taken]
  have hold : (s.taken row).rp (Claim.env s row).me (Claim.env s row).o.d = s.rp s.cur s.op.d := s.rp_taken row _
  rw [hold]
  rfl

/-- The flags of VCMP on element i. -/
theorem vcmpRel_flags (s : State) {cc : Nat} (hcc : cc ≤ 6) (i : Nat) : let x := f32 (Claim.laneA s i)
    let y := f32 (Claim.laneB s i)
    (vcmpRel s cc i).2 = flagIf fNV (decide (s.op.et = 6) && (x.isSig || y.isSig || (decide (2 ≤ cc ∧ cc ≤ 5) && (x.isNaN || y.isNaN)))) := by
  intro x y
  unfold vcmpRel
  by_cases het : s.op.et = 6
  · rw [if_pos het, decide_eq_true het, Bool.true_and]
    by_cases hn : (x.isNaN || y.isNaN) = true
    · rw [vcmpFloat_nan hcc hn, hn, Bool.and_true]
    · rw [Bool.not_eq_true, Bool.or_eq_false_iff] at hn
      rw [vcmpFloat_number cc hn.1 hn.2, hn.1, hn.2, FVal.isSig_of_number hn.1, FVal.isSig_of_number hn.2]
      simp [flagIf]
  · rw [if_neg het, decide_eq_false het, Bool.false_and]
    rfl

/-- The relation of VCMP on element i. -/
theorem vcmpRel_holds (s : State) {cc : Nat} (hcc : cc ≤ 6) (het : s.op.et = 6 ∨ s.op.et = 4 ∨ s.op.et = 5) (i : Nat) : let x := f32 (Claim.laneA s i)
    let y := f32 (Claim.laneB s i)
    (vcmpRel s cc i).1 = if s.op.et ≠ 6 then vcmpHolds cc (compare (Claim.elem s.op.et (Claim.laneA s i)) (Claim.elem s.op.et (Claim.laneB s i)))
      else if x.isNaN || y.isNaN then cc == 1 || decide (6 ≤ cc) else vcmpHolds cc (cmpNum x y) := by
  intro x y
  unfold vcmpRel
  by_cases h6 : s.op.et = 6
  · rw [if_pos h6, if_neg (not_not.2 h6)]
    by_cases hn : (x.isNaN || y.isNaN) = true
    · rw [vcmpFloat_nan hcc hn, if_pos hn]
    · rw [if_neg hn]
      rw [Bool.not_eq_true, Bool.or_eq_false_iff] at hn
      rw [vcmpFloat_number cc hn.1 hn.2]
  · have hi := het.resolve_left h6
    rw [if_neg h6, if_pos h6, vcmpInt_eq, elem_eq_ival hi, elem_eq_ival hi]

theorem felem_f32 {s : State} (h : s.op.et = 6) (x : Nat) : Claim.felem s x = f32 x := by
  rw [Claim.felem, Claim.eltFmt, h]
  rfl

/-! VDOT.p. -/

/-- VDOT.p of floats rounds each lane's sum once. -/
theorem bodyVdotP_taken (s : State) (row : Instr) (het : s.op.et = 7 ∨ s.op.et = 8) : let old := fun l => Claim.lane (s.rv s.cur s.op.d.toNat) 32 l
    let x := fun l => Claim.felem s (Claim.laneA s l)
    let y := fun l => Claim.felem s (Claim.laneB s l)
    let g := fun l => dot2 (Claim.rmode s) (genNaN 1 l s.cur.ctx 1) (f32 (old l)) (x (2 * l)) (y (2 * l)) (x (2 * l + 1)) (y (2 * l + 1))
    let sd := (s.ctx s.cur).seed
    let act := Claim.governs s 32
    bodyVdotP (Claim.env s row) (s.taken row) = .ok (.next,
      (Claim.flagged (s.taken row) (Claim.flagsOf .f32 (Claim.rmode s) act g sd 16) (Claim.seedAt .f32 (Claim.rmode s) act g sd 16)).wv s.cur
        s.op.d.toNat (vof 32 ((List.range 16).map fun l => if act l then (Claim.rounded .f32 (Claim.rmode s) act g sd l).bits else old l))) := by
  intro old x y g sd act
  have hok : (fun et => et == 3 || et == 7 || et == 8) (Claim.env s row).o.et = true := by
    show (s.op.et == 3 || s.op.et == 7 || s.op.et == 8) = true
    rcases het with h | h <;> rw [h] <;> rfl
  have h3 : (Claim.env s row).et ≠ 3 := by
    show s.op.et ≠ 3
    omega
  have hact : (fun i => ((Claim.env s row).pgv (s.taken row)).getLsbD i) = act := funext fun l => by
    rw [Env.pgv_taken]
    simp [act, Claim.governs]
  have hold : vel ((s.taken row).rv (Claim.env s row).me (Claim.env s row).o.d.toNat) 32 = old := funext fun l => by
    rw [show (s.taken row).rv (Claim.env s row).me (Claim.env s row).o.d.toNat = s.rv s.cur s.op.d.toNat from s.rv_taken row _]
    rfl
  rw [bodyVdotP, Env.accept_ok _ _ hok]
  simp only [if_neg h3, hact, hold, Env.rmv_taken, Env.va_taken, Env.vb_taken, Env.seed_taken, Env.fval_taken]
  rw [flagged_eq_flagSeed]
  exact congrArg (fun r : List Nat × FFlags × BitVec 32 =>
      Except.ok (Ctl.next, ((s.taken row).flagSeed s.cur r.2.1 r.2.2).wv s.cur s.op.d.toNat (vof 32 r.1)))
    (roundEls_range .f32 (Claim.rmode s) act old g sd 16)

/-! The clauses. -/

section
variable {s : State} {row : Instr}

/-- The exact result of element i of a vector float row. -/
def exactAt (s : State) (f : Nat → Nat → FVal → FVal → FVal → ExactF) (i : Nat) : ExactF :=
  f (Claim.rmode s) (genNaN 1 i s.cur.ctx 1) (Claim.felem s (Claim.laneA s i)) (Claim.felem s (Claim.laneB s i)) (Claim.felem s (Claim.laneC s i))

theorem vfloat_gives {f : Nat → Nat → FVal → FVal → FVal → ExactF} (hf : Claim.vfloat row = some f) (h : s.Ready row) (ha : s.ahead = false)
    (het : s.op.et = 6 ∨ s.op.et = 7 ∨ s.op.et = 8) : let w := elemWidth s.op.et
    let g := exactAt s f
    let sd := (s.ctx s.cur).seed
    let fm := Claim.eltFmt s
    ∃ v, Claim.GivesVecF row s v (Claim.flagsOf fm (Claim.rmode s) (Claim.governs s w) g sd (elemCount s.op.et))
        (Claim.seedAt fm (Claim.rmode s) (Claim.governs s w) g sd (elemCount s.op.et)) ∧
      ∀ i < elemCount s.op.et, Claim.lane v w i =
        if Claim.governs s w i = true then (Claim.rounded fm (Claim.rmode s) (Claim.governs s w) g sd i).bits else Claim.laneD s i := by
  obtain ⟨-, hF, hIF, -⟩ := floatType het
  obtain ⟨body, hx, hbody⟩ := vfloat_body hf
  have hissue : exec row s = .next (issue row body s) := by rw [hx, issueV_alone ha]
  have hb : body (Claim.env s row) (s.taken row) = .ok (.next, (Claim.env s row).roundAll (s.taken row) (exactAt s f)) := by
    rw [hbody (Claim.env s row) (s.taken row) hF hIF]
    simp only [Env.rmv_taken, Env.va_taken, Env.vb_taken, Env.vc_taken]
    rfl
  exact givesRounded_of_body h hissue het hb

/-- Element i of VMINMAX. -/
theorem vminmax_lane {mx : Bool} (het : s.op.et = 6 ∨ s.op.et = 7 ∨ s.op.et = 8) {i : Nat} (hna : (Claim.felem s (Claim.laneA s i)).isNaN = false)
    (hnb : (Claim.felem s (Claim.laneB s i)).isNaN = false) : let a := Claim.felem s (Claim.laneA s i)
    let b := Claim.felem s (Claim.laneB s i)
    let x := ((Claim.eltFmt s).minMax mx (Claim.laneA s i) (Claim.laneB s i)).1 % 2 ^ elemWidth s.op.et
    (x = Claim.laneA s i ∨ x = Claim.laneB s i) ∧
      cmpNum (Claim.felem s x) a ≠ (if mx then .lt else .gt) ∧ cmpNum (Claim.felem s x) b ≠ (if mx then .lt else .gt) ∧
      (cmpNum a b = .eq → x = if mx then Claim.laneA s i &&& Claim.laneB s i else Claim.laneA s i ||| Claim.laneB s i) := by
  obtain ⟨-, -, -, -, -, hmem, hsp, hwidth⟩ := floatType het
  have hA : Claim.laneA s i < 2 ^ (Claim.eltFmt s).width := hwidth ▸ lane_lt _ _ _
  have hB : Claim.laneB s i < 2 ^ (Claim.eltFmt s).width := hwidth ▸ lane_lt _ _ _
  have hmm := Fmt.minMax_number hsp (formats_pos hmem).2 mx hA hB hna hnb
  intro a b x
  have hx : x = ((Claim.eltFmt s).minMax mx (Claim.laneA s i) (Claim.laneB s i)).1 := by
    refine Nat.mod_eq_of_lt ?_
    rw [hwidth]
    rcases hmm.1 with he | he
    · exact he.trans_lt hA
    · exact he.trans_lt hB
  rw [hx]
  exact hmm

/-- VCMP writes its relation. -/
theorem vcmp_gives {r : Ordering → Bool} {un inv : Bool} (hr : Claim.vcmp row = some (r, un, inv)) (h : s.Ready row) (ha : s.ahead = false)
    (het : s.op.et = 6 ∨ row ≠ .vcmpUn ∧ (s.op.et = 4 ∨ s.op.et = 5)) : let w := elemWidth s.op.et
    let a := fun i => f32 (Claim.laneA s i)
    let b := fun i => f32 (Claim.laneB s i)
    ∃ v, Gives row s ((Claim.flagged (s.taken row) (flagIf fNV ((List.range (elemCount s.op.et)).any fun i => Claim.governs s w i &&
          (decide (s.op.et = 6) && ((a i).isSig || (b i).isSig || (inv && ((a i).isNaN || (b i).isNaN))))))
          (s.ctx s.cur).seed).wp s.cur s.op.d v) { Touch.none with p := [s.op.d], ff := true } ∧
      ∀ k < 16, let i := cmpElem w k
        v.getLsbD k = if Claim.governs s w i = true then
          (if s.op.et ≠ 6 then r (compare (Claim.elem s.op.et (Claim.laneA s i)) (Claim.elem s.op.et (Claim.laneB s i)))
            else if (a i).isNaN || (b i).isNaN then un else r (cmpNum (a i) (b i)))
          else (s.rp s.cur s.op.d).getLsbD k := by
  intro w a b
  obtain ⟨cc, hcc, hx, h6, rfl, rfl, rfl⟩ := vcmp_number hr
  have hflags : activeFlags s (fun i => (vcmpRel s cc i).2) = _ :=
    (congrArg (activeFlags s) (funext fun i => vcmpRel_flags s hcc i)).trans (activeFlags_flagIf s _)
  refine ⟨vcmpBits s cc, gives_of_body h ((hx s).trans (by rw [issueV_alone ha])) ?_ ((flagged_frame s row _ _ rfl (.inr rfl)).wp (by simp) _), fun k hk => ?_⟩
  · rw [bodyVcmp_taken s row (het.imp_right fun h => ⟨h6 h.1, h.2⟩), hflags]
  · rw [getLsbD_vcmpBits s cc hk, vcmpRel_holds s hcc (het.imp_right fun h => h.2)]

/-- VDOT.p of floats rounds its lanes in ascending order. -/
theorem vdotP_gives (h : s.Ready .vdotP) (ha : s.ahead = false) (het : s.op.et = 7 ∨ s.op.et = 8) :
    let old := fun l => Claim.lane (s.rv s.cur s.op.d.toNat) 32 l
    let x := fun l => Claim.felem s (Claim.laneA s l)
    let y := fun l => Claim.felem s (Claim.laneB s l)
    let g := fun l => dot2 (Claim.rmode s) (genNaN 1 l s.cur.ctx 1) (f32 (old l)) (x (2 * l)) (y (2 * l)) (x (2 * l + 1)) (y (2 * l + 1))
    let sd := (s.ctx s.cur).seed
    ∃ v, Claim.GivesVecF .vdotP s v (Claim.flagsOf .f32 (Claim.rmode s) (Claim.governs s 32) g sd 16)
        (Claim.seedAt .f32 (Claim.rmode s) (Claim.governs s 32) g sd 16) ∧
      ∀ l < 16, Claim.lane v 32 l =
        if Claim.governs s 32 l = true then (Claim.rounded .f32 (Claim.rmode s) (Claim.governs s 32) g sd l).bits else old l := by
  refine ⟨_, givesVecF_of_body h (by rw [← issueV_alone ha]; rfl) (bodyVdotP_taken s .vdotP het), fun l hl => ?_⟩
  rw [lane_vof_range (by decide) _ hl]
  split
  · exact Nat.mod_eq_of_lt (finish_lt (f := .f32) (formats_specialsFit (by decide)) _ _ _ _)
  · exact Nat.mod_eq_of_lt (lane_lt _ _ _)

end

/-- Settles O40: elements are rounded in ascending order, and each clause reads one element of what is written. -/
theorem vectorFloatLanes : Obligations.VectorFloatLanes := by
  refine ⟨?_, ?_, ?_, ?_, fun s h ha het => vdotP_gives h ha het⟩
  · intro row f s hf h ha et het
    exact vfloat_gives hf h ha het
  · intro row mx s hrow h ha et het
    have hx : exec row s = .next (issue row (bodyVminmax mx) s) := by
      rw [← issueV_alone ha]
      simp only [List.mem_cons, Prod.mk.injEq, List.not_mem_nil, or_false] at hrow
      obtain ⟨rfl, rfl⟩ | ⟨rfl, rfl⟩ := hrow <;> rfl
    obtain ⟨v, fl, hv, hlane⟩ := vminmax_gives h hx het
    refine ⟨v, fl, hv, fun i hi => ?_⟩
    dsimp only
    rw [hlane i hi]
    cases hg : Claim.governs s (elemWidth s.op.et) i with
    | false => simp
    | true =>
      simp only [if_true, Bool.true_eq_false, if_false]
      exact fun hna hnb => vminmax_lane het hna hnb
  · intro row s hrow h ha et het
    rcases hrow with rfl | rfl
    · obtain ⟨v, hv, hlane⟩ := vnegabs_gives (ab := false) h (by rw [← issueV_alone ha]; rfl) het
      refine ⟨v, hv, fun i hi => ?_⟩
      rw [hlane i hi]
      simp [et]
    · obtain ⟨v, hv, hlane⟩ := vnegabs_gives (ab := true) h (by rw [← issueV_alone ha]; rfl) het
      refine ⟨v, hv, fun i hi => ?_⟩
      rw [hlane i hi]
      simp [et]
  · intro row r un inv s hr h ha et w het a b holds invalid
    obtain ⟨v, hv, hbits⟩ := vcmp_gives hr h ha het
    have hinvalid : invalid ↔ ((List.range (elemCount s.op.et)).any fun i => Claim.governs s w i && (decide (s.op.et = 6) &&
        ((f32 (Claim.laneA s i)).isSig || (f32 (Claim.laneB s i)).isSig || (inv && ((f32 (Claim.laneA s i)).isNaN || (f32 (Claim.laneB s i)).isNaN))))) = true := by
      simp only [List.any_eq_true, List.mem_range, Bool.and_eq_true, decide_eq_true_eq]
      constructor
      · rintro ⟨h6, i, hi, hg, hs⟩
        simp only [a, b, felem_f32 h6] at hs
        exact ⟨i, hi, hg, h6, hs⟩
      · rintro ⟨i, hi, hg, h6, hs⟩
        exact ⟨h6, i, hi, hg, by simpa only [a, b, felem_f32 h6] using hs⟩
    refine ⟨v, _, hv, fun hi => ?_, fun hi => ?_, fun k hk => ?_⟩
    · rw [hinvalid.1 hi]
      rfl
    · rw [Bool.eq_false_iff.2 (mt hinvalid.2 hi)]
      rfl
    · refine (hbits k hk).trans ?_
      by_cases h6 : s.op.et = 6
      · simp only [holds, a, b, felem_f32 h6]
        rfl
      · simp only [holds, et, ne_eq, h6, not_false_eq_true, if_true]
        rfl

end Sys2Proof.Machine
end

