-- ==== Sys2Proof/Proofs/QuietAccesses.lean ====
section
/-! Checked reads change no register, flag or byte, and nothing of a context or a core but what releasing messages and the order of accesses change
(R305, R314). -/

namespace Sys2Proof.Machine

open Sys2Proof

section
variable {s t : State} {P : CtxId → Prop}

theorem Quiet.commitOthers (l : List Nat) (h : Quiet s t P) (c : CtxId) (a n : Nat) : Quiet s (t.commitOthers c a n l) P := by
  induction l generalizing t with
  | nil => exact h
  | cons i r ih => exact ih ((h.commit _).ite h)

theorem Quiet.touch (h : Quiet s t P) (c : CtxId) (a n : Nat) : Quiet s (t.touch c a n) P := (h.commitOthers _ c a n).ite h

theorem Quiet.trimRels (h : Quiet s t P) (lo hi : Nat) : Quiet s (t.trimRels lo hi) P := h.other rfl rfl rfl rfl

theorem Quiet.place (h : Quiet s t P) (c : CtxId) (ea : Word) (tag : BitVec 32) (lo hi : Nat) (k : AKind) (plain : Bool) (o : Ord)
    (pre : HbInfo) (own : List Released) : Quiet s (t.place c ea tag lo hi k plain o pre own).2 P := by
  unfold State.place
  extract_lets met pre r u v own
  have hu : Quiet s u P := h.other rfl rfl rfl rfl
  have hv : Quiet s v P := (hu.trimRels lo hi).ite hu
  exact Quiet.ite (hv.other rfl rfl rfl rfl) hv

theorem Quiet.access (h : Quiet s t P) (c : CtxId) (ea : Word) (lo hi : Nat) (k : AKind) (plain : Bool) (o : Ord) :
    Quiet s (t.access c ea lo hi k plain o) P :=
  ((h.trimRels lo hi).ite h).ite ((h.place c ea _ lo hi k plain o _ _).modHb c _)

theorem Quiet.readAt (h : Quiet s t P) (c : CtxId) (ea : Word) (a n : Nat) (plain : Bool) (o : Ord) : Quiet s (t.readAt c ea a n plain o).2 P :=
  (h.touch c a n).access c ea _ _ _ plain o

end

/-- From s to t no register, flag, byte of memory or part of a core differs but what reading changes. -/
structure Unchanged (s t : State) : Prop where
  frame : ∀ e d, Frame s t e d
  quiet : Quiet s t (fun _ => True)

namespace Unchanged
variable {s t u : State}

theorem refl (s : State) : Unchanged s s := ⟨fun _ _ => Frame.refl _ _ _, Quiet.refl _ _⟩
theorem trans (h : Unchanged s t) (k : Unchanged t u) : Unchanged s u := ⟨fun e d => (h.frame e d).trans (k.frame e d), h.quiet.trans k.quiet⟩
theorem readAt (s : State) (c : CtxId) (ea : Word) (a n : Nat) (plain : Bool) (o : Ord) : Unchanged s (s.readAt c ea a n plain o).2 :=
  ⟨fun _ _ => (Frame.refl _ _ _).readAt c ea a n plain o, (Quiet.refl _ _).readAt c ea a n plain o⟩
theorem beginAccess (s : State) (c : CtxId) (row : Instr) (o : Fields) (i : HbInfo) : Unchanged s (s.beginAccess c row o i) :=
  ⟨fun _ _ => (Frame.refl _ _ _).beginAccess c row o i, (Quiet.refl _ _).beginAccess c row o i⟩
theorem taken (s : State) (row : Instr) : Unchanged s (s.taken row) := ⟨fun _ _ => taken_frame _ _ _ _, s.taken_quiet row _⟩

theorem mem (h : Unchanged s t) : t.mem = s.mem := h.quiet.mem
theorem rs (h : Unchanged s t) (c : CtxId) (r : BitVec 5) : t.rs c r = s.rs c r := (h.frame c Touch.none).regs _ _ (by simp [Touch.none])
theorem rp (h : Unchanged s t) (c : CtxId) (r : BitVec 5) : t.rp c r = s.rp c r := (h.frame c Touch.none).preds _ _ (by simp [Touch.none])
theorem rv (h : Unchanged s t) (c : CtxId) (r : Nat) : t.rv c r = s.rv c r := (h.frame c Touch.none).vecs _ _ (by simp [Touch.none])
theorem ra (h : Unchanged s t) (c : CtxId) (r : Nat) : t.ra c r = s.ra c r := (h.frame c Touch.none).accs _ _ (by simp [Touch.none])
theorem rg (h : Unchanged s t) (c : CtxId) (r : Nat) : t.rg c r = s.rg c r := (h.frame c Touch.none).latches _ _ (by simp [Touch.none])
theorem byte (h : Unchanged s t) (a : Nat) : t.byte a = s.byte a := by simp only [State.byte, h.mem]
theorem bytes (h : Unchanged s t) (a n : Nat) : t.bytes a n = s.bytes a n := State.bytes_of_mem h.mem a n
theorem load (h : Unchanged s t) (a n : Nat) : t.load a n = s.load a n := State.load_of_mem h.mem a n

/-- A part of a context that reading leaves alone. -/
theorem ctx {α : Type} (h : Unchanged s t) (g : Ctx → α) (hg : ∀ k : Ctx, g k = g k.still) (c : CtxId) : g (t.ctx c) = g (s.ctx c) := by
  rw [hg, hg (s.ctx c), h.quiet.ctxs c True.intro]

/-- A part of a core that reading leaves alone. -/
theorem core {α : Type} (h : Unchanged s t) (g : Core → α) (hg : ∀ k : Core, g k = g k.still) (c : CoreId) : g (t.core c) = g (s.core c) := by
  rw [hg, hg (s.core c), h.quiet.cores c]

end Unchanged

/-- A checked address is in one of the access's spaces. -/
theorem State.near_of_coreAddr {s t : State} {c : CtxId} {q : Req} {a : Nat} (h : s.coreAddr c q = .ok (a, t)) {n : Nat} (hn : n ∉ q.spaces) :
    pSpc q.base ≠ n := by
  obtain ⟨ea, p, he, hp, -⟩ := State.coreAddr_formed h
  rw [← State.pSpc_formEa he, ← State.pSpc_absolute hp]
  unfold State.absolute at hp
  split at hp
  · cases hp
  · split at hp
    · cases hp
    · next hc =>
      cases hp
      rintro rfl
      simp at hc
      exact hn hc.2

/-- Bytes that a checked access reads hold no error that cannot be corrected. -/
theorem State.sound_of_coreAddr {s t : State} {c : CtxId} {q : Req} {a : Nat} (h : s.coreAddr c q = .ok (a, t)) (hk : q.k.reads = true) :
    t.poisoned a q.n = false := by
  unfold State.coreAddr at h
  cases e : s.coreAddr0 c q with
  | error x => rw [e] at h; cases h
  | ok r =>
    obtain ⟨b, u⟩ := r
    rw [e, except_ok_bind] at h
    cases hp : u.poisoned b q.n with
    | true => simp only [trapIf, hp, hk, Bool.and_self, if_true] at h; cases h
    | false =>
      simp only [trapIf, hp, Bool.false_and, Bool.false_eq_true, if_false] at h
      cases h
      exact hp

theorem State.poisoned_sub {s : State} {a n b m : Nat} (h : s.poisoned a n = false) (hlo : a ≤ b) (hhi : b + m ≤ a + n) (hm : 0 < m) :
    s.poisoned b m = false := by
  rw [State.poisoned, List.any_eq_false] at h ⊢
  intro w hw
  have h1 := h w hw
  simp only [Bool.and_eq_true, decide_eq_true_eq, not_and, not_le] at h1 ⊢
  omega

end Sys2Proof.Machine
end

