-- ==== Sys2Proof/Proofs/MatrixMultiply.lean ====
section
/-! Matrix multiplies (R122, R237–R243, R252): what is read at issue, and what the operand read gives. -/

namespace Sys2Proof.Machine

open Sys2Proof

/-! The checks and reads at issue. -/

theorem Env.guardWord_unchanged (e : Env) (t : State) (r : BitVec 5) (dflt : Nat) :
    Leaves (fun _ => True) (fun x => Unchanged t x.2) (e.guardWord t r dflt) := by
  unfold Env.guardWord
  split
  · exact Unchanged.refl t
  · extract_lets p n q
    refine (Leaves.trivial _).bind fun _ _ => ?_
    refine (Leaves.trivial _).bind fun _ _ => ?_
    refine Leaves.bind (A := fun x => x.2 = t) (Leaves.intro fun x hx => ?_) ?_
    · obtain ⟨a, u⟩ := x
      exact (State.coreAddr_keeps hx).2 (State.near_of_coreAddr hx (show (5 : Nat) ∉ spTag by decide))
    · rintro ⟨a, _⟩ rfl
      dsimp only
      rw [except_pure]
      exact Unchanged.readAt _ e.me p a 8 true Ord.plain

theorem Env.guardCount_unchanged (e : Env) (t : State) (r : BitVec 5) :
    Leaves (fun _ => True) (fun x => Unchanged t x.2) (e.guardCount t r) :=
  (e.guardWord_unchanged t r 16).bind fun _ h => h

theorem Env.matIssue_unchanged (e : Env) (t : State) : Leaves (fun _ => True) (fun x => Unchanged t x.2) (e.matIssue t) := by
  unfold Env.matIssue
  refine (Leaves.trivial _).bind fun _ _ => ?_
  refine (e.guardCount_unchanged t _).bind ?_
  rintro ⟨m, u⟩ hu
  dsimp only
  split
  · exact hu
  · refine (Leaves.trivial _).bind fun _ _ => ?_
    refine (Leaves.trivial _).bind fun _ _ => ?_
    refine (Leaves.trivial _).bind fun _ _ => ?_
    refine (Leaves.trivial _).bind fun _ _ => ?_
    refine (Leaves.trivial _).bind fun _ _ => ?_
    exact (Leaves.trivial _).bind fun _ _ => hu

/-! The operand read. -/

/-- Element (i, j) of the accumulator after the instruction: z, x and y are the old element, the latch row and the column (R243, R252). -/
def Env.cell (e : Env) (t : State) (pl : MPlan) (i j : Nat) : Nat :=
  let z := ((t.ra e.me e.o.d.toNat).toArray.getD (16 * i + j) 0).toNat
  let x := ((t.rg e.me (if e.o.imm.getLsbD 0 then 1 else 0)).toArray.getD i 0).toNat
  let y := t.load (pl.base + 128 * j) 128
  let sat := !e.o.imm.getLsbD 1
  let scaled := e.row = Instr.mmas
  let ca := fun k => if scaled then (pl.scales.getD (8 * i + k) 0).toNat else 127
  let cb := fun k => if scaled then (t.byte (pl.base + 2048 + 8 * j + k)).toNat else 127
  if pl.m ≤ i then z
  else if e.row = .mgait then gaitAcc sat e.me.ctx e.et pl.gait x y (if e.et = 8 then 64 else 32) 0 z
  else Claim.accumulated sat e.me.ctx e.et x y ca cb z (matK e.et / matG e.et)

/-- Group products are accumulated in order from any group on. -/
theorem matAcc_eq (sat : Bool) (ctxn et row col : Nat) (ca cb : Nat → Nat) (z n k : Nat) :
    matAcc sat ctxn et row col ca cb n k (Claim.accumulated sat ctxn et row col ca cb z k) = Claim.accumulated sat ctxn et row col ca cb z (k + n) := by
  induction n generalizing k with
  | zero => rfl
  | succ n ih =>
    rw [Nat.add_comm n 1, ← Nat.add_assoc, ← ih]
    rw [Nat.add_comm 1 n]
    rfl

/-- With no error in the operands, the read gives every element of the result. -/
theorem Env.matRead_ok (e : Env) (t : State) (pl : MPlan) (hp : e.blockPoisoned t pl.base = false)
    (hg : (e.k t).gbad.getLsbD (if e.o.imm.getLsbD 0 then 1 else 0) = false) :
    ∃ acc, e.matRead t pl = .ok acc ∧ ∀ ix : Fin 256, acc.toArray.getD ix.val 0 = BitVec.ofNat 32 (e.cell t pl (ix.val / 16) (ix.val % 16)) := by
  unfold Env.matRead
  rw [hp, hg]
  refine ⟨_, rfl, fun ix => ?_⟩
  have hget : ∀ f : Fin 256 → BitVec 32, (Vector.ofFn f).toArray.getD ix.val 0 = f ix := fun f => by simp
  rw [hget]
  have hcol : ((List.range 16).map fun j => leNat (t.bytes (pl.base + 128 * j) 128)).getD (ix.val % 16) 0 =
      t.load (pl.base + 128 * (ix.val % 16)) 128 := by
    rw [List.getD_eq_getElem _ _ (by simp; omega)]
    simp [State.load]
  have hacc := fun ca cb x y z => matAcc_eq (!e.o.imm.getLsbD 1) e.me.ctx e.et x y ca cb z (matK e.et / matG e.et) 0
  simp only [Nat.zero_add] at hacc
  unfold Env.cell
  dsimp only
  rw [hcol, Nat.div_add_mod ix.val 16]
  split
  · rfl
  · split
    · rfl
    · exact congrArg _ (hacc _ _ _ _ _)

/-! The multiplies. -/

section
variable {s s1 : State} {row : Instr} {pl : MPlan}

theorem exec_mat (hrow : row = .mma ∨ row = .mmas ∨ row = .mgait) (ha : s.ahead = false) : exec row s = .next (issue row bodyMat s) := by
  rw [← issueV_alone ha]
  rcases hrow with rfl | rfl | rfl <;> rfl

theorem bodyMat_zero {e : Env} {t t1 : State} (h : e.matIssue t = .ok (pl, t1)) (hm : pl.m = 0) : bodyMat e t = .ok (.next, t1) := by
  rw [bodyMat, h]
  exact if_pos hm

theorem bodyMat_rows {e : Env} {t t1 : State} {acc : Acc} (h : e.matIssue t = .ok (pl, t1)) (hm : pl.m ≠ 0) (hr : e.matRead t1 pl = .ok acc) :
    bodyMat e t = .ok (.next, t1.wa e.me e.o.d.toNat acc) := by
  rw [bodyMat, h, except_ok_bind]
  dsimp only
  rw [if_neg hm, hr]
  rfl

theorem bodyMat_stops {e : Env} {t : State} {x : Stop} (h : e.matIssue t = .error x) : bodyMat e t = .error x := by
  rw [bodyMat, h]
  rfl

theorem matIssue_taken_unchanged (h : (Claim.env s row).matIssue (s.taken row) = .ok (pl, s1)) : Unchanged s s1 :=
  (Unchanged.taken s row).trans (((Claim.env s row).matIssue_unchanged (s.taken row)).ok h)

/-- A count of zero changes nothing (R239). -/
theorem mat_zero_gives (hrow : row = .mma ∨ row = .mmas ∨ row = .mgait) (h : s.Ready row) (ha : s.ahead = false)
    (hi : (Claim.env s row).matIssue (s.taken row) = .ok (pl, s1)) (hm : pl.m = 0) : Gives row s s1 Touch.none :=
  gives_of_body h (exec_mat hrow ha) (bodyMat_zero hi hm) (((Claim.env s row).matIssue_unchanged (s.taken row)).ok hi |>.frame _ _)

/-- A multiply gives each element of its accumulator. -/
theorem mat_rows_gives (hrow : row = .mma ∨ row = .mmas ∨ row = .mgait) (h : s.Ready row) (ha : s.ahead = false)
    (hi : (Claim.env s row).matIssue (s.taken row) = .ok (pl, s1)) (hm : pl.m ≠ 0) (hp : (Claim.env s row).blockPoisoned s1 pl.base = false)
    (hg : (s.ctx s.cur).gbad.getLsbD (if s.op.imm.getLsbD 0 then 1 else 0) = false) :
    ∃ acc, Gives row s (s1.wa s.cur s.op.d.toNat acc) { Touch.none with a := [s.op.d.toNat] } ∧
      ∀ ix : Fin 256, acc.toArray.getD ix.val 0 = BitVec.ofNat 32 ((Claim.env s row).cell s pl (ix.val / 16) (ix.val % 16)) := by
  have hu := matIssue_taken_unchanged hi
  have hbad : ((Claim.env s row).k s1).gbad = (s.ctx s.cur).gbad := hu.ctx Ctx.gbad (fun _ => rfl) s.cur
  obtain ⟨acc, hr, hcells⟩ := (Claim.env s row).matRead_ok s1 pl hp (by rw [hbad]; exact hg)
  refine ⟨acc, gives_of_body h (exec_mat hrow ha) (bodyMat_rows hi hm hr) ?_, fun ix => ?_⟩
  · exact ((((Claim.env s row).matIssue_unchanged (s.taken row)).ok hi).frame _ _).wa (by simp) acc
  · rw [hcells ix]
    simp only [Env.cell, hu.ra, hu.rg, hu.load, hu.byte]

/-- What stops the checks at issue stops the instruction. -/
theorem mat_stops {x : Stop} (hrow : row = .mma ∨ row = .mmas ∨ row = .mgait) (h : s.Ready row) (ha : s.ahead = false)
    (hi : (Claim.env s row).matIssue (s.taken row) = .error x) : Claim.Stops row s x :=
  stops_of_body h (exec_mat hrow ha) (bodyMat_stops hi)

end

/-! The own TCM. -/

/-- Rows of a multiply's B block, and its scales behind it. -/
def blockSize (row : Instr) : Nat := if row = .mmas then 2176 else 2048

/-- A pointer to n bytes of the own TCM, at a multiple of 64, that a core may read. -/
structure BlockAt (t : State) (c : CtxId) (p : Word) (n : Nat) : Prop where
  format : pFmt p = 0 ∧ pBlk p = 0
  space : pSpc p = 0 ∧ pRel p = false ∧ unassigned p = 0
  aligned : pOff p % 64 = 0
  high : pOff p + n ≤ 2 ^ 17
  permitted : t.permitted c.core.vt (t.ctx c).sup 0 (pOff p) n .read = true

/-- Without a guard, a B block in the own TCM passes the checks at issue for all 16 rows. -/
theorem Env.matIssue_of_block {e : Env} {t : State} (het : matEt e.row e.o.et = true) (h2 : e.o.s2 = 0) (h : BlockAt t e.me (e.a t) (blockSize e.row)) :
    ∃ pl, e.matIssue t = .ok (pl, t) ∧ pl.m = 16 ∧ pl.base = flatTcm e.me.core (pOff (e.a t)) := by
  obtain ⟨hfmt, hblk⟩ := h.format
  obtain ⟨hspc, hrel, hun⟩ := h.space
  have hhigh := h.high
  have hperm : t.permitted e.me.core.vt (e.k t).sup 0 (pOff (e.a t)) (blockSize e.row) .read = true := h.permitted
  have hguard : e.guardCount t e.o.s2 = .ok (16, t) := by
    rw [h2]
    rfl
  unfold blockSize at hhigh hperm
  unfold Env.matIssue
  rw [e.accept_ok t het, except_ok_bind, hguard, except_ok_bind]
  have hover : ¬0x20000 < pOff (e.a t) + (if e.row = .mmas then 2176 else 2048) := by omega
  simp [trapIf, hfmt, hblk, hspc, hrel, hun, h.aligned, hover, hperm, except_ok_bind, except_pure]

/-- No error in a B block and its scales is none in their parts. -/
theorem Env.blockPoisoned_of_sound {e : Env} {t : State} {base n : Nat} (hn : blockSize e.row ≤ n) (h : t.poisoned base n = false) :
    e.blockPoisoned t base = false := by
  have hcol : colBytes e.et ≤ 128 ∧ 0 < colBytes e.et := by
    unfold colBytes
    split <;> decide
  unfold blockSize at hn
  have hn0 : 2048 ≤ n := by split at hn <;> omega
  rw [Env.blockPoisoned, Bool.or_eq_false_iff, List.any_eq_false]
  refine ⟨fun j hj => ?_, ?_⟩
  · rw [List.mem_range] at hj
    rw [Bool.not_eq_true]
    exact State.poisoned_sub h (by omega) (by omega) hcol.2
  · by_cases hs : e.row = .mmas
    · rw [if_pos hs] at hn
      rw [hs, State.poisoned_sub h (by omega) (by omega) (by decide), Bool.and_false]
    · rw [beq_eq_false_iff_ne.2 hs, Bool.false_and]

/-- The element types that a multiply accepts (Table 70). -/
theorem matEt_of_mem {row : Instr} {et : Nat} (hrow : row ∈ [Instr.mma, .mmas, .mgait]) (h1 : row = .mma → et ∈ [8, 9, 10])
    (h2 : row = .mmas → et ∈ [16, 17, 18, 19, 20, 21]) (h3 : row = .mgait → et ∈ [6, 8]) : matEt row et = true := by
  simp only [List.mem_cons, List.not_mem_nil, or_false] at hrow h1 h2 h3
  rcases hrow with rfl | rfl | rfl
  · simpa [matEt, or_assoc] using h1 rfl
  · have := h2 rfl
    simp [matEt, etMx]
    omega
  · simpa [matEt] using h3 rfl

/-- A multiply through a sound B block in the own TCM completes. -/
theorem mat_block_completes {s : State} {row : Instr} (hrow : row ∈ [Instr.mma, .mmas, .mgait]) (h : s.Ready row) (ha : s.ahead = false)
    (het : matEt row s.op.et = true) (h2 : s.op.s2 = 0) (hb : BlockAt s s.cur s.opA (blockSize row))
    (hp : s.poisoned (flatTcm s.cur.core (pOff s.opA)) (blockSize row) = false)
    (hg : (s.ctx s.cur).gbad.getLsbD (if s.op.imm.getLsbD 0 then 1 else 0) = false) :
    ∃ acc, Completes row s .next ((s.taken row).wa s.cur s.op.d.toNat acc) := by
  have hrow' : row = .mma ∨ row = .mmas ∨ row = .mgait := by simpa using hrow
  have hu := Unchanged.taken s row
  have hbt : BlockAt (s.taken row) s.cur s.opA (blockSize row) := by
    refine ⟨hb.format, hb.space, hb.aligned, hb.high, ?_⟩
    have := hb.permitted
    rwa [State.eq_of_bare (fun x => x.permitted s.cur.core.vt _ _ _ _ _) (fun _ => rfl) (s.bare_taken row), hu.ctx Ctx.sup (fun _ => rfl)]
  rw [← Env.a_taken s row] at hbt
  obtain ⟨pl, hi, hm, hbase⟩ := Env.matIssue_of_block (e := Claim.env s row) (t := s.taken row) het h2 hbt
  have hsound : (s.taken row).poisoned pl.base (blockSize row) = false := by
    rw [hbase, Env.a_taken, State.eq_of_bare (fun x => x.poisoned _ _) (fun _ => rfl) (s.bare_taken row)]
    exact hp
  obtain ⟨acc, hgive, -⟩ := mat_rows_gives hrow' h ha hi (by omega) (Env.blockPoisoned_of_sound le_rfl hsound) hg
  exact ⟨acc, hgive.1⟩

/-! Group products (R122). -/

/-- The units of a group's products sum to the exact sum. -/
theorem dotUnits_sum (l : List (FVal × FVal))
    (h : ∀ p ∈ l, ∃ n1 m1 e1 n2 m2 e2, p = (.fin n1 m1 e1, .fin n2 m2 e2) ∧ -1400 ≤ e1 + e2) :
    (dotUnits l : ℚ) * 2 ^ (-1400 : Int) = (l.map (fun p => Claim.numOf p.1 * Claim.numOf p.2)).sum := by
  induction l with
  | nil => simp [dotUnits]
  | cons p r ih =>
    obtain ⟨n1, m1, e1, n2, m2, e2, rfl, he⟩ := h p (by simp)
    have ih := ih fun q hq => h q (by simp [hq])
    have hterm := signedMant_rescale (n1 != n2) (m1 * m2) he
    rw [show e1 + e2 - -1400 = e1 + e2 + 1400 by omega] at hterm
    rw [List.map_cons, List.sum_cons, ← ih, dotUnits, Claim.numOf, Claim.numOf, num_mul, ← hterm]
    generalize (2 : ℚ) ^ (-1400 : Int) = u
    push_cast
    ring

end Sys2Proof.Machine
end

