-- ==== Sys2Proof/Proofs/MatrixRows.lean ====
section
/-! Rows of memory that matrix instructions move (R170, R223, R237): their checks, what is read, and what is written. -/

namespace Sys2Proof.Machine

open Sys2Proof

theorem State.rg_wg_same (s : State) (c : CtxId) {r : Nat} (x : Latch) (h : r < 2) : (s.wg c r x).rg c r = x := by
  rw [State.rg, State.wg, State.ctx_modCtx_same, Vector.toArray_setIfInBounds]
  simp [Array.getD_eq_getD_getElem?, h]

theorem State.ra_wa_same (s : State) (c : CtxId) {r : Nat} (x : Acc) (h : r < 8) : (s.wa c r x).ra c r = x := by
  rw [State.ra, State.wa, State.ctx_modCtx_same, Vector.toArray_setIfInBounds]
  simp [Array.getD_eq_getD_getElem?, h]

theorem State.ra_wa_ne (s : State) (c : CtxId) {r q : Nat} (x : Acc) (h : q ≠ r) : (s.wa c r x).ra c q = s.ra c q := by
  rw [State.ra, State.wa, State.ctx_modCtx_same, State.ra]
  exact getD_setIfInBounds_ne _ x _ h

/-! Byte strings of equal parts. -/

theorem leNat_append (a b : List Byte) : leNat (a ++ b) = leNat a + 256 ^ a.length * leNat b := by
  induction a with
  | nil => simp [leNat]
  | cons x r ih =>
    rw [List.cons_append, leNat, ih, leNat, List.length_cons, Nat.pow_succ]
    ring

theorem leNat_lt (l : List Byte) : leNat l < 256 ^ l.length := by
  induction l with
  | nil => simp [leNat]
  | cons x r ih =>
    have hx : x.toNat < 256 := x.isLt
    rw [leNat, List.length_cons, Nat.pow_succ]
    omega

theorem pow_bytes (k : Nat) : 256 ^ k = 2 ^ (8 * k) := by rw [Nat.pow_mul]

/-- Parts of k bytes make a number whose digits are the parts. -/
theorem leNat_flatMap {k : Nat} {f : Nat → List Byte} (hf : ∀ i, (f i).length = k) (l : List Nat) :
    leNat (l.flatMap f) = packEls (8 * k) (l.map fun i => leNat (f i)) := by
  induction l with
  | nil => rfl
  | cons i r ih =>
    have hlt := leNat_lt (f i)
    rw [hf, pow_bytes] at hlt
    rw [List.flatMap_cons, leNat_append, hf, ih, pow_bytes, List.map_cons, packEls, Nat.mod_eq_of_lt hlt]

theorem State.bytes_length (s : State) (a n : Nat) : (s.bytes a n).length = n := by simp [State.bytes]

/-- A part of the bytes of n accesses. -/
theorem part_of_loads (s : State) (adr : Nat → Nat) (k n : Nat) {i : Nat} (hi : i < n) :
    leNat ((List.range n).flatMap fun i => s.bytes (adr i) k) / 2 ^ (8 * k * i) % 2 ^ (8 * k) = s.load (adr i) k := by
  have hlt := leNat_lt (s.bytes (adr i) k)
  rw [State.bytes_length, pow_bytes] at hlt
  rw [leNat_flatMap fun i => s.bytes_length (adr i) k, packEls_lane, List.getD_eq_getElem _ _ (by simpa using hi)]
  simpa [State.load] using Nat.mod_eq_of_lt hlt

/-! Checks. -/

section
variable {s : State} {c : CtxId}

theorem State.confHold_off (h : s.confOn c = false) (lo hi : Nat) (w : Bool) : s.confHold c lo hi w = s := by simp [State.confHold, h]
theorem State.confCheck_off (h : s.confOn c = false) (ea : Word) (lo hi : Nat) (w : Bool) : s.confCheck c ea lo hi w = .ok () := by
  simp [State.confCheck, h]

/-- Accesses that all pass their checks, with the detector off. -/
theorem State.checkEach_ok (hc : s.confOn c = false) {req : Nat → Req} {adr : Nat → Nat} (l : List Nat)
    (h : ∀ i ∈ l, s.coreAddr c (req i) = .ok (adr i, s)) : s.checkEach c (l.map req) = .ok (l.map fun i => (req i, adr i), s) := by
  induction l with
  | nil => rfl
  | cons i r ih =>
    rw [List.map_cons, State.checkEach, h i (by simp), except_ok_bind]
    dsimp only
    rw [State.confHold_off hc, ite_self, ih fun j hj => h j (by simp [hj])]
    rfl

/-- The first access that fails its checks stops them. -/
theorem State.checkEach_error (hc : s.confOn c = false) {req : Nat → Req} {x : Stop} (l r : List Nat) {i : Nat}
    (h : ∀ j ∈ l, ∃ a, s.coreAddr c (req j) = .ok (a, s)) (hi : s.coreAddr c (req i) = .error x) :
    s.checkEach c ((l ++ i :: r).map req) = .error x := by
  induction l with
  | nil =>
    rw [List.nil_append, List.map_cons, State.checkEach, hi]
    rfl
  | cons j l ih =>
    obtain ⟨a, ha⟩ := h j (by simp)
    rw [List.cons_append, List.map_cons, State.checkEach, ha, except_ok_bind]
    dsimp only
    rw [State.confHold_off hc, ite_self, ih fun k hk => h k (by simp [hk])]
    rfl

theorem State.checkAll_ok (hc : s.confOn c = false) {req : Nat → Req} {adr : Nat → Nat} (l : List Nat)
    (h : ∀ i ∈ l, s.coreAddr c (req i) = .ok (adr i, s)) : s.checkAll c (l.map req) = .ok (l.map fun i => (req i, adr i), s) := by
  rw [State.checkAll, State.checkEach_ok hc l h]
  rfl

/-- Rows that hold no error pass again as they are moved; a plain access does so with the detector off. -/
theorem State.recheck_ok {plain write : Bool} (hc : plain = true → s.confOn c = false) (ea : Word) (l : List Seg)
    (hp : write = false → ∀ x ∈ l, s.poisoned x.a x.n = false) : s.recheck c plain write ea l = .ok s := by
  induction l with
  | nil => rfl
  | cons x r ih =>
    have hsound : (!write && s.poisoned x.a x.n) = false := by
      cases write with
      | true => rfl
      | false => exact hp rfl x (by simp)
    have ih := ih fun hw y hy => hp hw y (by simp [hy])
    cases plain with
    | false => simp only [State.recheck, trapIf, hsound, Bool.false_eq_true, if_false, except_ok_bind, ih]
    | true => simp only [State.recheck, trapIf, hsound, Bool.false_eq_true, if_false, if_true, except_ok_bind, State.confCheck_off (hc rfl),
        State.confHold_off (hc rfl), ih]

theorem State.recheckRows_ok {plain write : Bool} (hc : plain = true → s.confOn c = false) (l : List (List Seg))
    (hp : write = false → ∀ row ∈ l, ∀ x ∈ row, s.poisoned x.a x.n = false) : s.recheckRows c plain write l = .ok ((), s) := by
  induction l with
  | nil => rfl
  | cons x r ih =>
    rw [State.recheckRows, State.recheck_ok hc _ x fun hw => hp hw x (by simp), except_ok_bind]
    exact ih fun hw y hy => hp hw y (by simp [hy])

/-! Reads. -/

theorem State.readRows_ok {plain : Bool} (hc : plain = true → s.confOn c = false) (l : List (List Seg))
    (hp : ∀ row ∈ l, ∀ x ∈ row, s.poisoned x.a x.n = false) : s.readRows c plain l = .ok (s.readEach c plain l) := by
  rw [State.readRows, State.recheckRows_ok hc l fun _ => hp]
  rfl

end

theorem State.readRow_eq (l : List Seg) (s : State) (c : CtxId) (plain : Bool) :
    (s.readRow c plain l).1 = l.flatMap (fun x => s.bytes x.a x.n) ∧ Unchanged s (s.readRow c plain l).2 := by
  induction l generalizing s with
  | nil => exact ⟨rfl, Unchanged.refl s⟩
  | cons x r ih =>
    have hu := Unchanged.readAt s c x.ea x.a x.n plain Ord.plain
    obtain ⟨hl, hr⟩ := ih (s.readAt c x.ea x.a x.n plain Ord.plain).2
    simp only [hu.bytes] at hl
    exact ⟨congrArg (s.bytes x.a x.n ++ ·) hl, hu.trans hr⟩

/-- Rows are read as they stand. -/
theorem State.readEach_eq (l : List (List Seg)) (s : State) (c : CtxId) (plain : Bool) :
    (s.readEach c plain l).1 = l.map (fun row => row.flatMap fun x => s.bytes x.a x.n) ∧ Unchanged s (s.readEach c plain l).2 := by
  induction l generalizing s with
  | nil => exact ⟨rfl, Unchanged.refl s⟩
  | cons x r ih =>
    obtain ⟨hb, hu⟩ := State.readRow_eq x s c plain
    obtain ⟨hl, hr⟩ := ih (s.readRow c plain x).2
    simp only [hu.bytes] at hl
    exact ⟨congrArg₂ List.cons hb hl, hu.trans hr⟩

/-! Writes. -/

/-- Bytes of a write that reaches no control block reach none. -/
theorem inBlocks_sub {a n i k : Nat} (h : inBlocks a n = false) (hi : i + k ≤ n) (hn : n ≤ 2 ^ 20) : inBlocks (a + i) k = false := by
  unfold inBlocks flatKind flatOff at h ⊢
  by_contra hne
  rw [Bool.not_eq_false, Bool.and_eq_true, Bool.and_eq_true, beq_iff_eq, decide_eq_true_eq, decide_eq_true_eq] at hne
  simp only [Bool.and_eq_false_iff, beq_eq_false_iff_ne, decide_eq_false_iff_not] at h
  omega

theorem State.load_congr {s t : State} {a n : Nat} (h : ∀ j < n, t.byte (a + j) = s.byte (a + j)) : t.load a n = s.load a n := by
  rw [State.load, State.load, State.bytes, State.bytes]
  exact congrArg leNat (List.map_congr_left fun j hj => h j (List.mem_range.1 hj))

/-- Writing equal parts, one after the other. -/
theorem State.writeRow_parts {a w : Nat} {ea : Nat → Word} {x : Nat → Nat} (c : CtxId) (n k : Nat) (s : State) (hs : s.memOk)
    (hb : ∀ i < k + n, inBlocks (a + w * i) w = false) :
    let t := s.writeRow c ((List.range' k n).map fun i => ⟨ea i, w, a + w * i⟩) ((List.range' k n).flatMap fun i => natLe w (x i))
    (∀ e d, d.lo ≤ a + w * k → a + w * (k + n) ≤ d.hi → Frame s t e d) ∧
      ∀ i, k ≤ i → i < k + n → t.load (a + w * i) w = x i % 256 ^ w := by
  induction n generalizing k s with
  | zero => exact ⟨fun e d _ _ => Frame.refl _ _ _, fun i h1 h2 => absurd h2 (by omega)⟩
  | succ n ih =>
    have hlen : (natLe w (x k)).length = w := natLe_length _ _
    have hk := hb k (by omega)
    have hcanon : (s.writeAt c (ea k) (a + w * k) (natLe w (x k)) true Ord.plain).memOk :=
      (State.Canon.writeAt ⟨hs⟩).wf
    obtain ⟨hframe, hload⟩ := ih (k + 1) (s.writeAt c (ea k) (a + w * k) (natLe w (x k)) true Ord.plain) hcanon
      (fun i hi => hb i (by omega))
    have hstep : s.writeRow c ((List.range' k (n + 1)).map fun i => (⟨ea i, w, a + w * i⟩ : Seg))
        ((List.range' k (n + 1)).flatMap fun i => natLe w (x i)) =
        (s.writeAt c (ea k) (a + w * k) (natLe w (x k)) true Ord.plain).writeRow c ((List.range' (k + 1) n).map fun i => ⟨ea i, w, a + w * i⟩)
          ((List.range' (k + 1) n).flatMap fun i => natLe w (x i)) := by
      rw [List.range'_succ, List.map_cons, List.flatMap_cons, State.writeRow, List.take_left' hlen, List.drop_left' hlen]
    rw [hstep]
    have hmul : w * (k + 1) = w * k + w := Nat.mul_succ w k
    refine ⟨fun e d hlo hhi => ?_, fun i h1 h2 => ?_⟩
    · have hsize : w * (k + 1) ≤ w * (k + (n + 1)) := Nat.mul_le_mul_left _ (by omega)
      exact (State.writeAt_frame hs (by rwa [hlen]) e hlo (by rw [hlen]; omega)).trans
        (hframe e d (by omega) (by rwa [show k + 1 + n = k + (n + 1) by omega]))
    · rcases Nat.eq_or_lt_of_le h1 with rfl | hlt
      · have hkeep := hframe c { Touch.none with lo := a + w * (k + 1), hi := a + w * (k + 1 + n) } le_rfl le_rfl
        have hbelow : ∀ j < w, ¬(a + w * (k + 1) ≤ a + w * k + j ∧ a + w * k + j < a + w * (k + 1 + n)) := fun j hj => by omega
        rw [State.load_congr fun j hj => hkeep.memory _ (hbelow j hj), State.load_writeAt hs hk]
      · exact hload i hlt (by omega)

end Sys2Proof.Machine
end

