-- ==== Sys2Proof/Proofs/MatrixMoves.lean ====
section
/-! MLAT, MACC and GAITL (R242, R248, R251). -/

namespace Sys2Proof.Machine

open Sys2Proof

theorem bodyMove_ok {plan : Env → State → Except Stop (MPlan × State)} {run : Env → State → MPlan → Except Stop State} {e : Env} {t t1 t2 : State}
    {pl : MPlan} (h : plan e t = .ok (pl, t1)) (hr : run e t1 pl = .ok t2) : bodyMove plan run e t = .ok (.next, t2) := by
  rw [bodyMove, h, except_ok_bind]
  dsimp only
  rw [hr]
  rfl

theorem bodyMove_stops {plan : Env → State → Except Stop (MPlan × State)} {run : Env → State → MPlan → Except Stop State} {e : Env} {t t1 : State}
    {pl : MPlan} {x : Stop} (h : plan e t = .error x ∨ plan e t = .ok (pl, t1) ∧ run e t1 pl = .error x) : bodyMove plan run e t = .error x := by
  rcases h with h | ⟨h, hr⟩
  · rw [bodyMove, h]
    rfl
  · rw [bodyMove, h, except_ok_bind]
    dsimp only
    rw [hr]
    rfl

/-! MLAT. -/

section
variable {s u : State}

/-- The offset of row i of MLAT (R242). -/
def latOfs (s : State) (i : Nat) : Int := (BitVec.ofNat 32 (Claim.lane (s.rv s.cur s.op.s2.toNat) 32 i)).toInt

theorem latReq_eq (hu : Unchanged s u) (i : Nat) : (Claim.env s .mlat).latReq u i = Claim.move s (latOfs s i) 128 64 .read false false := by
  have ha : (Claim.env s .mlat).a u = s.opA := hu.rs s.cur s.op.s1
  have hv : u.rv (Claim.env s .mlat).me (Claim.env s .mlat).o.s2.toNat = s.rv s.cur s.op.s2.toNat := hu.rv _ _
  unfold Env.latReq
  rw [ha, hv, signedOf_eq_toInt (by decide)]
  rfl

/-- The parts of the rows of MLAT. -/
def latSegs (s : State) (adr : Nat → Nat) (l : List Nat) : List (List Seg) :=
  l.map fun i => [⟨(Claim.move s (latOfs s i) 128 64 .read false false).ea, 128, adr i⟩]

theorem latCheck_ok (hu : Unchanged s u) (h4 : pSpc s.opA < 4) (hofs : (offAdd s.opA s.op.imm16.toInt).isSome = true) {adr : Nat → Nat} (l : List Nat)
    (h : ∀ i ∈ l, u.coreAddr s.cur (Claim.move s (latOfs s i) 128 64 .read false false) = .ok (adr i, u)) :
    (Claim.env s .mlat).latCheck l u = .ok (latSegs s adr l, u) := by
  induction l with
  | nil => rfl
  | cons i r ih =>
    have hi := h i (by simp)
    obtain ⟨ea, -, he, -⟩ := State.coreAddr_formed hi
    have ha : (Claim.env s .mlat).a u = s.opA := hu.rs s.cur s.op.s1
    have hnone : (offAdd s.opA s.op.imm16.toInt).isNone = false := by
      cases ho : offAdd s.opA s.op.imm16.toInt with
      | none => rw [ho] at hofs; cases hofs
      | some x => rfl
    have h5 : pSpc (Claim.move s (latOfs s i) 128 64 .read false false).base ≠ 5 := Nat.ne_of_lt (h4.trans (by decide))
    have hwhole := State.checkWhole_of_coreAddr h5 hi
    have hrest := ih fun j hj => h j (by simp [hj])
    rw [Env.latCheck, latReq_eq hu, State.lift_ok u he, except_ok_bind, ha, show ofsC (Claim.env s .mlat).o = s.op.imm16.toInt from rfl, hnone,
      show (Claim.env s .mlat).me = s.cur from rfl, hwhole]
    simp only [trapIf, Bool.false_eq_true, if_false, except_ok_bind, hrest]
    rfl

theorem latPlan_ok {m : Nat} (hu : Unchanged s u) (het : s.op.et = 0)
    (hg : (Claim.env s .mlat).guardCount (s.taken .mlat) s.op.s3 = .ok (m, u))
    (hm : m ≠ 0 → pSpc s.opA < 4 ∧ (offAdd s.opA s.op.imm16.toInt).isSome = true)
    {adr : Nat → Nat} (h : ∀ i < m, u.coreAddr s.cur (Claim.move s (latOfs s i) 128 64 .read false false) = .ok (adr i, u)) :
    (Claim.env s .mlat).latPlan (s.taken .mlat) = .ok (if m = 0 then MPlan.none_ else MPlan.ofSegs m (latSegs s adr (List.range m)), u) := by
  have hok : (fun et => et == 0) (Claim.env s .mlat).o.et = true := by simpa [Claim.env] using het
  have hg' : (Claim.env s .mlat).guardCount (s.taken .mlat) (Claim.env s .mlat).o.s3 = .ok (m, u) := hg
  rw [Env.latPlan, Env.accept_ok _ _ hok, except_ok_bind, hg', except_ok_bind]
  dsimp only
  by_cases h0 : m = 0
  · rw [if_pos h0, if_pos h0]
    rfl
  · obtain ⟨h4, hofs⟩ := hm h0
    rw [if_neg h0, if_neg h0, latCheck_ok hu h4 hofs _ fun i hi => h i (List.mem_range.1 hi)]
    rfl

/-- MLAT reads its rows and fills the latch, zero above them. -/
theorem latRun_rows {m : Nat} (hm : m ≠ 0) {adr : Nat → Nat}
    (h : ∀ i < m, u.coreAddr s.cur (Claim.move s (latOfs s i) 128 64 .read false false) = .ok (adr i, u)) :
    ∃ t x, (Claim.env s .mlat).latRun u (MPlan.ofSegs m (latSegs s adr (List.range m))) = .ok (t.wg s.cur (s.op.d.toNat % 2) x) ∧ Unchanged u t ∧
      ∀ i < 16, (x.toArray.getD i 0).toNat = if i < m then u.load (adr i) 128 else 0 := by
  have hsound : ∀ row ∈ latSegs s adr (List.range m), ∀ x ∈ row, u.poisoned x.a x.n = false := by
    simp only [latSegs, List.mem_map, List.mem_range]
    rintro _ ⟨i, hi, rfl⟩ x hx
    rw [List.mem_singleton.1 hx]
    exact State.sound_of_coreAddr (h i hi) rfl
  have hread := State.readRows_ok (s := u) (c := s.cur) (plain := false) (by simp) _ hsound
  obtain ⟨hrows, ht⟩ := State.readEach_eq (latSegs s adr (List.range m)) u s.cur false
  refine ⟨_, Vector.ofFn fun i : Fin 16 => BitVec.ofNat 1024
    (((u.readEach s.cur false (latSegs s adr (List.range m))).1.map leNat).getD i.val 0), ?_, ht, fun i hi => ?_⟩
  · have hpl : (MPlan.ofSegs m (latSegs s adr (List.range m))).m ≠ 0 := hm
    rw [Env.latRun, if_neg hpl, show (Claim.env s .mlat).me = s.cur from rfl,
      show (MPlan.ofSegs m (latSegs s adr (List.range m))).segs = latSegs s adr (List.range m) from rfl, hread]
    rfl
  · have hlt : u.load (adr i) 128 < 2 ^ 1024 := by
      have := leNat_lt (u.bytes (adr i) 128)
      rwa [State.bytes_length, pow_bytes, show 8 * 128 = 1024 from rfl] at this
    have hloads : ((latSegs s adr (List.range m)).map fun row => row.flatMap fun x => u.bytes x.a x.n).map leNat =
        (List.range m).map fun i => u.load (adr i) 128 := by
      simp [latSegs, State.load, Function.comp_def]
    have hget : ((List.range m).map fun i => u.load (adr i) 128).getD i 0 = if i < m then u.load (adr i) 128 else 0 := by
      split
      · next hlt => simp [hlt]
      · next hge => exact List.getD_eq_default _ _ (by simpa using hge)
    have hvec : ∀ f : Fin 16 → BitVec 1024, (Vector.ofFn f).toArray.getD i 0 = f ⟨i, hi⟩ := fun f => by simp [hi]
    rw [hrows, hloads, hvec, hget, BitVec.toNat_ofNat]
    split
    · exact Nat.mod_eq_of_lt hlt
    · exact Nat.zero_mod _

/-- MLAT with a count of zero completes and changes nothing. -/
theorem mlat_zero (h : s.Ready .mlat) (ha : s.ahead = false) (het : s.op.et = 0)
    (hg : (Claim.env s .mlat).guardCount (s.taken .mlat) s.op.s3 = .ok (0, u)) : Completes .mlat s .next u := by
  have hu := (Unchanged.taken s .mlat).trans (((Claim.env s .mlat).guardCount_unchanged (s.taken .mlat) s.op.s3).ok hg)
  have hx : exec .mlat s = .next (issue .mlat bodyMlat s) := by rw [← issueV_alone ha]; rfl
  have hplan := latPlan_ok (adr := fun _ => 0) hu het hg (by simp) (by simp)
  exact completes_of_body h hx (bodyMove_ok hplan rfl)

/-- MLAT fills its latch. -/
theorem mlat_gives {m : Nat} (h : s.Ready .mlat) (ha : s.ahead = false) (het : s.op.et = 0)
    (hg : (Claim.env s .mlat).guardCount (s.taken .mlat) s.op.s3 = .ok (m, u)) (hm : m ≠ 0) (h4 : pSpc s.opA < 4)
    (hofs : (offAdd s.opA s.op.imm16.toInt).isSome = true) {adr : Nat → Nat}
    (hadr : ∀ i < m, u.coreAddr s.cur (Claim.move s (latOfs s i) 128 64 .read false false) = .ok (adr i, u)) :
    ∃ s', Gives .mlat s s' { Touch.none with g := [s.op.d.toNat % 2] } ∧
      ∀ i < 16, ((s'.rg s.cur (s.op.d.toNat % 2)).toArray.getD i 0).toNat = if i < m then s.load (adr i) 128 else 0 := by
  have hgu := ((Claim.env s .mlat).guardCount_unchanged (s.taken .mlat) s.op.s3).ok hg
  have hu := (Unchanged.taken s .mlat).trans hgu
  have hx : exec .mlat s = .next (issue .mlat bodyMlat s) := by rw [← issueV_alone ha]; rfl
  have hplan := latPlan_ok hu het hg (fun _ => ⟨h4, hofs⟩) hadr
  rw [if_neg hm] at hplan
  obtain ⟨t, x, hrun, ht, hx'⟩ := latRun_rows hm hadr
  refine ⟨_, gives_of_body h hx (bodyMove_ok hplan hrun) (((hgu.trans ht).frame _ _).wg (by simp) x), fun i hi => ?_⟩
  rw [State.rg_wg_same _ _ _ (Nat.mod_lt _ (by decide)), hx' i hi, hu.load]

end

/-! MACC. -/

section
variable {s : State} {row : Instr}

/-- The parts of n bytes each that a memory form of MACC moves. -/
def maccSegs (s : State) (n : Nat) (k : AKind) (adr : Nat → Nat) : List (List Seg) :=
  (List.range 256).map fun i => [⟨(Claim.element s n k i).ea, n, adr i⟩]

/-- The memory forms of MACC: element type, bytes of an element in memory, and kind of access. -/
def MaccForm (row : Instr) (et n : Nat) (k : AKind) : Prop :=
  (row = .maccLd ∧ et = 6 ∧ n = 4 ∧ k = .read) ∨ (row = .maccSt ∧ et = 6 ∧ n = 4 ∧ k = .write) ∨
    (row = .maccCvt ∧ (7 ≤ et ∧ et ≤ 10) ∧ n = elemWidth et / 8 ∧ k = .write)

/-- The checks of elements of n bytes. -/
def Env.elements (e : Env) (t : State) (n : Nat) (k : AKind) : Except Stop (MPlan × State) := do
  let (l, t) ← t.checkAll e.me ((List.range 256).map (e.maccReq t n k))
  pure (MPlan.ofSegs 16 (l.map (fun x => segsOfParts [x])), t)

theorem maccReq_eq (s : State) (row : Instr) (n : Nat) (k : AKind) :
    (Claim.env s row).maccReq (s.taken row) n k = Claim.element s n k := funext fun i => by
  unfold Env.maccReq
  rw [Env.a_taken]
  rfl

/-- A memory form of MACC with its element type checks its elements. -/
theorem maccPlan_eq {n : Nat} {k : AKind} (hf : MaccForm row s.op.et n k) (t : State) :
    (Claim.env s row).maccPlan t = (Claim.env s row).elements t n k := by
  obtain ⟨rfl, het, rfl, rfl⟩ | ⟨rfl, het, rfl, rfl⟩ | ⟨rfl, het, rfl, rfl⟩ := hf
  · have hok : (fun et => et == 6) (Claim.env s .maccLd).o.et = true := beq_iff_eq.2 het
    unfold Env.maccPlan
    dsimp only [Claim.env]
    rw [Env.accept_ok _ _ hok]
    rfl
  · have hok : (fun et => et == 6) (Claim.env s .maccSt).o.et = true := beq_iff_eq.2 het
    unfold Env.maccPlan
    dsimp only [Claim.env]
    rw [Env.accept_ok _ _ hok]
    rfl
  · have hok : (fun et => decide (7 ≤ et ∧ et ≤ 10)) (Claim.env s .maccCvt).o.et = true := decide_eq_true het
    have hw : elemWidth s.op.et / 8 ≠ 0 := by
      have : ∀ et < 11, 7 ≤ et → elemWidth et / 8 ≠ 0 := by decide
      exact this _ (by omega) het.1
    unfold Env.maccPlan
    dsimp only [Claim.env]
    rw [Env.accept_ok _ _ hok, except_ok_bind]
    exact if_neg hw

theorem maccPlan_ok {n : Nat} {k : AKind} (hf : MaccForm row s.op.et n k) (hc : s.confOn s.cur = false) {adr : Nat → Nat}
    (h : ∀ i < 256, s.coreAddr s.cur (Claim.element s n k i) = .ok (adr i, s)) :
    (Claim.env s row).maccPlan (s.taken row) = .ok (MPlan.ofSegs 16 (maccSegs s n k adr), s) := by
  have hreq := maccReq_eq s row n k
  rw [State.taken_of_confOff row hc] at hreq ⊢
  rw [maccPlan_eq hf, Env.elements, hreq, show (Claim.env s row).me = s.cur from rfl,
    State.checkAll_ok hc _ fun i hi => h i (List.mem_range.1 hi), except_ok_bind]
  exact congrArg (fun l => (Except.ok (MPlan.ofSegs 16 l, s) : Except Stop (MPlan × State))) List.map_map

/-- The first element that fails its checks traps. -/
theorem macc_traps {run : Env → State → MPlan → Except Stop State} {n : Nat} {k : AKind} (hf : MaccForm row s.op.et n k) (hr : s.Ready row)
    (hx : exec row s = .next (issue row (bodyMove Env.maccPlan run) s)) (hc : s.confOn s.cur = false) {i : Nat} (hi : i < 256) {t : Tr} {s1 : State}
    (hbefore : ∀ j < i, ∃ a, s.coreAddr s.cur (Claim.element s n k j) = .ok (a, s))
    (herr : s.coreAddr s.cur (Claim.element s n k i) = .error (.trap t s1)) : ∃ s', Traps row s t s' := by
  have hsplit : List.range 256 = List.range i ++ i :: List.range' (i + 1) (255 - i) := by
    have happend := List.range'_append_1 (s := 0) (m := i) (n := 255 - i + 1)
    rw [Nat.zero_add] at happend
    rw [List.range_eq_range', List.range_eq_range', ← List.range'_succ, happend]
    congr 1
    omega
  have hcheck := State.checkEach_error (r := List.range' (i + 1) (255 - i)) hc (List.range i) (fun j hj => hbefore j (List.mem_range.1 hj)) herr
  rw [← hsplit] at hcheck
  have hreq := maccReq_eq s row n k
  have hplan : (Claim.env s row).maccPlan (s.taken row) = .error ((Stop.trap t s1).withRecs s.recs) := by
    rw [State.taken_of_confOff row hc] at hreq ⊢
    rw [maccPlan_eq hf, Env.elements, hreq, show (Claim.env s row).me = s.cur from rfl, State.checkAll, hcheck]
    rfl
  exact ⟨_, stops_of_body (x := .trap t _) hr hx (bodyMove_stops (t1 := s) (pl := MPlan.none_) (.inl hplan))⟩

/-- MACC.zero clears its accumulator. -/
theorem maccZero_gives (h : s.Ready .maccZero) (ha : s.ahead = false) (het : s.op.et = 0) :
    Gives .maccZero s ((s.taken .maccZero).wa s.cur s.op.d.toNat (Vector.replicate 256 0)) { Touch.none with a := [s.op.d.toNat] } := by
  have hx : exec .maccZero s = .next (issue .maccZero bodyMaccZero s) := by rw [← issueV_alone ha]; rfl
  have hok : (fun et => et == 0) (Claim.env s .maccZero).o.et = true := beq_iff_eq.2 het
  have hplan : (Claim.env s .maccZero).maccPlan (s.taken .maccZero) = .ok (MPlan.ofSegs 16 [], s.taken .maccZero) := by
    unfold Env.maccPlan
    dsimp only [Claim.env]
    rw [Env.accept_ok _ _ hok]
    rfl
  exact gives_of_body h hx (bodyMove_ok hplan rfl) ((Frame.refl _ _ _).wa (by simp) _)

/-- The rows of an accumulator's image, with all of them checked, hold no error. -/
theorem maccSegs_sound {n : Nat} {k : AKind} {adr : Nat → Nat} (hk : k.reads = true)
    (h : ∀ i < 256, s.coreAddr s.cur (Claim.element s n k i) = .ok (adr i, s)) :
    ∀ row ∈ maccSegs s n k adr, ∀ x ∈ row, s.poisoned x.a x.n = false := by
  simp only [maccSegs, List.mem_map, List.mem_range]
  rintro _ ⟨i, hi, rfl⟩ x hx
  rw [List.mem_singleton.1 hx]
  exact State.sound_of_coreAddr (h i hi) hk

/-- MACC.ld fills its accumulator from memory. -/
theorem maccLd_gives (h : s.Ready .maccLd) (ha : s.ahead = false) (het : s.op.et = 6) (hc : s.confOn s.cur = false) {adr : Nat → Nat}
    (hadr : ∀ i < 256, s.coreAddr s.cur (Claim.element s 4 .read i) = .ok (adr i, s)) :
    ∃ s', Gives .maccLd s s' { Touch.none with a := [s.op.d.toNat] } ∧
      (s.op.d.toNat < 8 → ∀ i < 256, ((s'.ra s.cur s.op.d.toNat).toArray.getD i 0).toNat = s.load (adr i) 4) := by
  have hx : exec .maccLd s = .next (issue .maccLd bodyMaccLd s) := by rw [← issueV_alone ha]; rfl
  have hplan := maccPlan_ok (row := .maccLd) (.inl ⟨rfl, het, rfl, rfl⟩) hc hadr
  have hread := State.readRows_ok (s := s) (c := s.cur) (plain := true) (fun _ => hc) _ (maccSegs_sound rfl hadr)
  obtain ⟨hrows, ht⟩ := State.readEach_eq (maccSegs s 4 .read adr) s s.cur true
  have hflat : (s.readEach s.cur true (maccSegs s 4 .read adr)).1.flatten = (List.range 256).flatMap fun i => s.bytes (adr i) 4 := by
    rw [hrows, maccSegs, List.map_map, List.flatMap_def]
    exact congrArg List.flatten (List.map_congr_left fun i _ => List.append_nil _)
  have hrun : (Claim.env s .maccLd).maccLd s (MPlan.ofSegs 16 (maccSegs s 4 .read adr)) =
      .ok ((s.readEach s.cur true (maccSegs s 4 .read adr)).2.wa s.cur s.op.d.toNat (Vector.ofFn fun i : Fin 256 =>
        BitVec.ofNat 32 (leNat ((List.range 256).flatMap fun i => s.bytes (adr i) 4) / 2 ^ (32 * i.val)))) := by
    rw [← hflat, Env.maccLd, show (MPlan.ofSegs 16 (maccSegs s 4 .read adr)).segs = maccSegs s 4 .read adr from rfl,
      show (Claim.env s .maccLd).me = s.cur from rfl, hread, except_ok_bind]
    generalize s.readEach s.cur true (maccSegs s 4 .read adr) = r
    rfl
  refine ⟨_, gives_of_body h hx (bodyMove_ok hplan hrun) ?_, fun hd i hi => ?_⟩
  · rw [State.taken_of_confOff _ hc]
    exact (ht.frame _ _).wa (by simp) _
  · have hvec : ∀ f : Fin 256 → BitVec 32, (Vector.ofFn f).toArray.getD i 0 = f ⟨i, hi⟩ := fun f => by simp [hi]
    rw [State.ra_wa_same _ _ _ hd, hvec, BitVec.toNat_ofNat]
    exact part_of_loads s adr 4 256 hi

/-- Consecutive elements of n bytes that a checked write of an accumulator's image stores. -/
theorem maccWrite_ok {n a : Nat} {x : Nat → Nat} (hc : s.confOn s.cur = false) (hw : s.memOk) (hb : inBlocks a (256 * n) = false)
    (hn : n ≤ 4) (k : AKind) : let segs := maccSegs s n k fun i => a + n * i
    ∃ t, s.writeRows s.cur segs ((List.range 256).flatMap fun i => natLe n (x i)) = .ok t ∧
      (∀ e d, d.lo ≤ a → a + 256 * n ≤ d.hi → Frame s t e d) ∧ ∀ i < 256, t.load (a + n * i) n = x i % 256 ^ n := by
  intro segs
  have hcheck := State.recheckRows_ok (s := s) (c := s.cur) (plain := true) (write := true) (fun _ => hc) segs (by simp)
  have hparts := State.writeRow_parts (a := a) (w := n) (ea := fun i => (Claim.element s n k i).ea) (x := x) s.cur 256 0 s hw fun i hi =>
    inBlocks_sub hb (by rw [← Nat.mul_succ, Nat.mul_comm]; exact Nat.mul_le_mul_right _ (by omega)) (by omega)
  have hflat : segs.flatten = (List.range' 0 256).map fun i => (⟨(Claim.element s n k i).ea, n, a + n * i⟩ : Seg) := by
    rw [← List.range_eq_range', ← List.flatMap_pure_eq_map, List.flatMap_def]
    rfl
  refine ⟨s.writeRow s.cur segs.flatten ((List.range 256).flatMap fun i => natLe n (x i)), ?_, ?_, ?_⟩
  · rw [State.writeRows, hcheck]
    rfl
  · rw [hflat, List.range_eq_range']
    exact fun e d hlo hhi => hparts.1 e d (by rwa [Nat.mul_zero, Nat.add_zero]) (by rwa [Nat.zero_add, Nat.mul_comm])
  · rw [hflat, List.range_eq_range']
    exact fun i hi => hparts.2 i (Nat.zero_le i) (by rwa [Nat.zero_add])

theorem acc_toList (x : Acc) : x.toList = (List.range 256).map fun i => x.toArray.getD i 0 := by
  refine List.ext_getElem (by simp) fun i h1 h2 => ?_
  have hi : i < 256 := by simpa using h1
  simp [hi]

/-- MACC.st stores its accumulator. -/
theorem maccSt_gives (h : s.Ready .maccSt) (ha : s.ahead = false) (het : s.op.et = 6) (hw : s.memOk) {a : Nat} (hb : inBlocks a 1024 = false)
    (hc : s.confOn s.cur = false) (hadr : ∀ i < 256, s.coreAddr s.cur (Claim.element s 4 .write i) = .ok (a + 4 * i, s)) :
    ∃ s', Gives .maccSt s s' { Touch.none with lo := a, hi := a + 1024 } ∧
      ∀ i < 256, s'.load (a + 4 * i) 4 = ((s.ra s.cur s.op.d.toNat).toArray.getD i 0).toNat := by
  have hx : exec .maccSt s = .next (issue .maccSt bodyMaccSt s) := by rw [← issueV_alone ha]; rfl
  have hplan := maccPlan_ok (row := .maccSt) (.inr (.inl ⟨rfl, het, rfl, rfl⟩)) hc hadr
  have hb : inBlocks a (256 * 4) = false := hb
  obtain ⟨t, ht, hframe, hload⟩ := maccWrite_ok (n := 4) (x := fun i => ((s.ra s.cur s.op.d.toNat).toArray.getD i 0).toNat) hc hw hb le_rfl .write
  have hrun : (Claim.env s .maccSt).maccSt s (MPlan.ofSegs 16 (maccSegs s 4 .write fun i => a + 4 * i)) = .ok t := by
    rw [← ht, Env.maccSt, acc_toList, List.flatMap_map]
    rfl
  refine ⟨t, gives_of_body h hx (bodyMove_ok hplan hrun) ?_, fun i hi => ?_⟩
  · rw [State.taken_of_confOff _ hc]
    exact hframe _ _ le_rfl le_rfl
  · rw [hload i hi]
    exact Nat.mod_eq_of_lt (BitVec.isLt _)

/-- Rounding elements asks for the exact results of those elements alone. -/
theorem roundEls_congr {f : Fmt} {mode : Nat} {act : Nat → Bool} {old : Nat → Nat} {g g' : Nat → ExactF} (l : List Nat) (h : ∀ i ∈ l, g i = g' i)
    (fl : FFlags) (sd : BitVec 32) : roundEls f mode act old g l fl sd = roundEls f mode act old g' l fl sd := by
  induction l generalizing fl sd with
  | nil => rfl
  | cons i r ih =>
    have ih := ih fun j hj => h j (by simp [hj])
    simp only [roundEls, h i (by simp), ih]

/-- Element i of the accumulator as a converted value, with the flag of a signalling NaN. -/
def cvtAt (s : State) (i : Nat) : ExactF :=
  let x := f32 ((s.ra s.cur s.op.d.toNat).toArray.getD i 0).toNat
  (x.exact, flagIf fNV x.isSig)

/-- MACC.cvt converts its accumulator and stores it. -/
theorem maccCvt_gives (h : s.Ready .maccCvt) (ha : s.ahead = false) (h7 : 7 ≤ s.op.et) (h10 : s.op.et ≤ 10) (hw : s.memOk) {a : Nat}
    (hb : inBlocks a (256 * (elemWidth s.op.et / 8)) = false) (hc : s.confOn s.cur = false)
    (hadr : ∀ i < 256, s.coreAddr s.cur (Claim.element s (elemWidth s.op.et / 8) .write i) = .ok (a + elemWidth s.op.et / 8 * i, s)) :
    ∃ s', Gives .maccCvt s s' { Touch.none with lo := a, hi := a + 256 * (elemWidth s.op.et / 8), ff := true, seed := true } ∧
      ∀ i < 256, s'.load (a + elemWidth s.op.et / 8 * i) (elemWidth s.op.et / 8) =
        (Claim.rounded (Claim.eltFmt s) (Claim.rmode s) (fun _ => true) (cvtAt s) (s.ctx s.cur).seed i).bits := by
  have hx : exec .maccCvt s = .next (issue .maccCvt bodyMaccCvt s) := by rw [← issueV_alone ha]; rfl
  have htypes : ∀ et < 11, 7 ≤ et → elemWidth et / 8 ≤ 4 ∧ ((fmtOf et).getD .f32) ∈ formats ∧
      8 * (elemWidth et / 8) = ((fmtOf et).getD .f32).width := by decide
  obtain ⟨h4, hmem, hwidth⟩ := htypes _ (by omega) h7
  have hplan := maccPlan_ok (row := .maccCvt) (.inr (.inr ⟨rfl, ⟨h7, h10⟩, rfl, rfl⟩)) hc hadr
  have htaken := State.taken_of_confOff .maccCvt hc
  let r := fun i => Claim.rounded (Claim.eltFmt s) (Claim.rmode s) (fun _ => true) (cvtAt s) (s.ctx s.cur).seed i
  obtain ⟨t, ht, hframe, hload⟩ := maccWrite_ok (x := fun i => (r i).bits) hc hw hb h4 .write
  have hrm : (Claim.env s .maccCvt).rmv s = Claim.rmode s := by
    have := Env.rmv_taken s .maccCvt
    rwa [htaken] at this
  have hround : roundEls (Claim.env s .maccCvt).fmt ((Claim.env s .maccCvt).rmv s) (fun _ => true) (fun _ => 0)
      (fun i => let x := ((s.ra s.cur s.op.d.toNat).toList.map fun x => f32 x.toNat).getD i (.fin false 0 0); (x.exact, flagIf fNV x.isSig))
      (List.range 256) 0 (s.ctx s.cur).seed = ((List.range 256).map fun i => (r i).bits,
        Claim.flagsOf (Claim.eltFmt s) (Claim.rmode s) (fun _ => true) (cvtAt s) (s.ctx s.cur).seed 256,
        Claim.seedAt (Claim.eltFmt s) (Claim.rmode s) (fun _ => true) (cvtAt s) (s.ctx s.cur).seed 256) := by
    rw [hrm, roundEls_congr (g' := cvtAt s) _ fun i hi => ?_, roundEls_range]
    · rfl
    · have hi := List.mem_range.1 hi
      rw [acc_toList, List.map_map, List.getD_eq_getElem _ _ (by simpa using hi)]
      simp [cvtAt]
  have hrun : (Claim.env s .maccCvt).maccCvt s (MPlan.ofSegs 16 (maccSegs s (elemWidth s.op.et / 8) .write fun i => a + elemWidth s.op.et / 8 * i)) =
      .ok (t.flagSeed s.cur (Claim.flagsOf (Claim.eltFmt s) (Claim.rmode s) (fun _ => true) (cvtAt s) (s.ctx s.cur).seed 256)
        (Claim.seedAt (Claim.eltFmt s) (Claim.rmode s) (fun _ => true) (cvtAt s) (s.ctx s.cur).seed 256)) := by
    rw [Env.maccCvt, show (Claim.env s .maccCvt).me = s.cur from rfl, show (Claim.env s .maccCvt).o = s.op from rfl,
      show ((Claim.env s .maccCvt).k s).seed = (s.ctx s.cur).seed from rfl]
    dsimp only
    rw [hround]
    dsimp only
    have ht : s.writeRows s.cur (MPlan.ofSegs 16 (maccSegs s (elemWidth s.op.et / 8) .write fun i => a + elemWidth s.op.et / 8 * i)).segs
        ((List.range 256).flatMap fun i => natLe ((Claim.env s .maccCvt).w / 8) (r i).bits) = .ok t := ht
    rw [List.flatMap_map, ht]
    rfl
  refine ⟨_, gives_of_body h hx (bodyMove_ok hplan hrun) ?_, fun i hi => ?_⟩
  · rw [htaken]
    exact (hframe _ _ le_rfl le_rfl).flagSeed rfl (.inl rfl)
  · refine (hload i hi).trans (Nat.mod_eq_of_lt ?_)
    rw [pow_bytes, hwidth]
    exact finish_lt (formats_specialsFit hmem) _ _ _ _

end

/-! GAITL. -/

section
variable {s : State}

/-- The checks of GAITL. -/
theorem gaitPlan_ok (h4 : pSpc s.opA < 4) {a : Nat} {s1 : State} (h : (s.taken .gaitl).coreAddr s.cur (Claim.move s 0 32 32 .read false true) = .ok (a, s1)) :
    (Claim.env s .gaitl).gaitPlan (s.taken .gaitl) =
        .ok (MPlan.ofSegs 16 [[⟨(offAdd s.opA s.op.imm16.toInt).getD s.opA, 32, a⟩]], s.taken .gaitl) ∧
      (s.taken .gaitl).poisoned a 32 = false := by
  have h5 : pSpc (Claim.move s 0 32 32 .read false true).base ≠ 5 := Nat.ne_of_lt (h4.trans (by decide))
  obtain rfl := (State.coreAddr_keeps h).2 h5
  have hq : ({ (Claim.env s .gaitl).reqC (s.taken .gaitl) 32 32 .read spStore false with held := true } : Req) = Claim.move s 0 32 32 .read false true := by
    unfold Env.reqC
    rw [Env.a_taken, Claim.move, Int.add_zero]
    rfl
  have hea : (Claim.move s 0 32 32 .read false true).ea = (offAdd s.opA s.op.imm16.toInt).getD s.opA := by
    rw [Req.ea, Claim.move, Int.add_zero]
  refine ⟨?_, State.sound_of_coreAddr h rfl⟩
  unfold Env.gaitPlan
  rw [hq, show (Claim.env s .gaitl).me = s.cur from rfl, ← hea]
  dsimp only
  rw [h]
  rfl

/-- The image that GAITL has read. -/
theorem gait_read {u : State} {a : Nat} (ea : Word) (hp : u.poisoned a 32 = false) :
    ∃ t, u.readRows s.cur false [[⟨ea, 32, a⟩]] = .ok ([u.bytes a 32], t) ∧ Unchanged u t := by
  have hread := State.readRows_ok (s := u) (c := s.cur) (plain := false) (by simp) [[⟨ea, 32, a⟩]] (by simpa using hp)
  obtain ⟨hrows, ht⟩ := State.readEach_eq [[⟨ea, 32, a⟩]] u s.cur false
  have hrows : (u.readEach s.cur false [[⟨ea, 32, a⟩]]).1 = [u.bytes a 32] := by rw [hrows]; simp
  exact ⟨_, by rw [hread, ← hrows], ht⟩

/-- GAITL loads a valid gait. -/
theorem gaitl_gives (h : s.Ready .gaitl) (ha : s.ahead = false) (h4 : pSpc s.opA < 4) {a : Nat} {s1 : State}
    (hadr : (s.taken .gaitl).coreAddr s.cur (Claim.move s 0 32 32 .read false true) = .ok (a, s1)) {g : Gait} (hg : gaitOf (s.bytes a 32) = some g) :
    ∃ s', Gives .gaitl s s' Touch.none ∧ (s'.core s.cur.core).gaits.get (s.op.d.toNat % 4) Gait.zero = g := by
  have hx : exec .gaitl s = .next (issue .gaitl bodyGaitl s) := by rw [← issueV_alone ha]; rfl
  obtain ⟨hplan, hp⟩ := gaitPlan_ok h4 hadr
  obtain ⟨t, hread, ht⟩ := gait_read (s := s) ((offAdd s.opA s.op.imm16.toInt).getD s.opA) hp
  rw [(Unchanged.taken s .gaitl).bytes] at hread
  have hrun : (Claim.env s .gaitl).gaitRead (s.taken .gaitl) (MPlan.ofSegs 16 [[⟨(offAdd s.opA s.op.imm16.toInt).getD s.opA, 32, a⟩]]) =
      .ok ((t.commit s.cur).modCore s.cur.core fun k => { k with gaits := k.gaits.set (s.op.d.toNat % 4) g }) := by
    rw [Env.gaitRead, show (Claim.env s .gaitl).me = s.cur from rfl]
    dsimp only [MPlan.ofSegs]
    rw [hread, except_ok_bind]
    dsimp only [List.flatten_cons, List.flatten_nil]
    rw [List.append_nil, hg]
    rfl
  refine ⟨_, gives_of_body h hx (bodyMove_ok hplan hrun) (((ht.frame _ _).commit _).modCore _ _), ?_⟩
  rw [State.core_modCore_same, Tab.get_set_same]

/-- GAITL traps FORMAT for an image that is not valid. -/
theorem gaitl_traps (h : s.Ready .gaitl) (ha : s.ahead = false) (h4 : pSpc s.opA < 4) {a : Nat} {s1 : State}
    (hadr : (s.taken .gaitl).coreAddr s.cur (Claim.move s 0 32 32 .read false true) = .ok (a, s1)) (hg : gaitOf (s.bytes a 32) = none) :
    ∃ s', Traps .gaitl s (Cause.format.at_ ((offAdd s.opA s.op.imm16.toInt).getD s.opA)) s' := by
  have hx : exec .gaitl s = .next (issue .gaitl bodyGaitl s) := by rw [← issueV_alone ha]; rfl
  obtain ⟨hplan, hp⟩ := gaitPlan_ok h4 hadr
  obtain ⟨t, hread, ht⟩ := gait_read (s := s) ((offAdd s.opA s.op.imm16.toInt).getD s.opA) hp
  rw [(Unchanged.taken s .gaitl).bytes] at hread
  have hrun : (Claim.env s .gaitl).gaitRead (s.taken .gaitl) (MPlan.ofSegs 16 [[⟨(offAdd s.opA s.op.imm16.toInt).getD s.opA, 32, a⟩]]) =
      .error (.trap (Cause.format.at_ ((offAdd s.opA s.op.imm16.toInt).getD s.opA)) t) := by
    rw [Env.gaitRead, show (Claim.env s .gaitl).me = s.cur from rfl]
    dsimp only [MPlan.ofSegs]
    rw [hread, except_ok_bind]
    dsimp only [List.flatten_cons, List.flatten_nil]
    rw [List.append_nil, hg]
    rfl
  exact ⟨t, stops_of_body (x := .trap _ t) h hx (bodyMove_stops (.inr ⟨hplan, hrun⟩))⟩

end

end Sys2Proof.Machine
end

