-- ==== Sys2Proof/Proofs/TcmParts.lean ====
section
/-! Parts of an access of `Claim.InTcm` are such accesses (R170). -/

namespace Sys2Proof.Machine

open Sys2Proof

theorem State.permitted_sub {s : State} {vt off n o m : Nat} {sup : Bool} {k : AKind} (h : s.permitted vt sup 0 off n k = true) (hlo : off ≤ o)
    (hhi : o + m ≤ off + n) : s.permitted vt sup 0 o m k = true := by
  unfold State.permitted at h ⊢
  rw [if_neg (by decide), if_neg (by simp), if_neg (by simp)] at h ⊢
  cases sup with
  | true => rfl
  | false =>
    rw [if_neg (by simp), if_neg (by simp), List.any_eq_true] at h ⊢
    obtain ⟨i, hi, hg⟩ := h
    refine ⟨i, hi, ?_⟩
    unfold regionGrants at hg ⊢
    simp only [Bool.and_eq_true, decide_eq_true_eq] at hg ⊢
    obtain ⟨⟨⟨⟨⟨hrest, hbase⟩, hlim⟩, hr⟩, hw⟩, hf⟩ := hg
    exact ⟨⟨⟨⟨⟨hrest, hbase.trans hlo⟩, hhi.trans hlim⟩, hr⟩, hw⟩, hf⟩

theorem State.sbHolds_sub {s : State} {c : CoreId} {lo hi lo' hi' : Nat} {w : Bool} (h : s.sbHolds c lo hi w = false) (hlo : lo ≤ lo') (hhi : hi' ≤ hi) :
    s.sbHolds c lo' hi' w = false := by
  have hover : ∀ r, overlaps r lo hi = false → overlaps r lo' hi' = false := fun r => by
    cases r with
    | none => exact id
    | some p =>
      obtain ⟨a, b⟩ := p
      simp only [overlaps, Bool.and_eq_false_iff, decide_eq_false_iff_not]
      omega
  rw [State.sbHolds, List.any_eq_false] at h ⊢
  intro e he
  have := h e he
  simp only [Bool.or_eq_true, Bool.and_eq_true, not_or, not_and, Bool.not_eq_true] at this ⊢
  exact ⟨hover _ this.1, fun hw => hover _ (this.2 hw)⟩

theorem flatTcm_add (c : CoreId) (o i : Nat) : flatTcm c (o + i) = flatTcm c o + i := by
  simp only [flatTcm, flat]
  omega

section
variable {s : State} {ofs : Int} {n N al align : Nat} {k : AKind} {a : Nat}

/-- A part of an access of the own TCM. -/
theorem inTcm_sub (h : Claim.InTcm s ofs N al k a) {i : Nat} (hn : 0 < n) (hi : i + n ≤ N) (halign : (((pOff s.opA : Int) + ofs).toNat + i) % align = 0) :
    Claim.InTcm s (ofs + (i : Nat)) n align k (a + i) := by
  have hlow := h.low
  have hhigh := h.high
  have hoff : ((pOff s.opA : Int) + (ofs + (i : Nat))).toNat = ((pOff s.opA : Int) + ofs).toNat + i := by omega
  exact
    { core := h.core
      space := h.space
      format := h.format
      low := by omega
      high := by omega
      aligned := by rw [hoff]; exact halign
      permitted := by rw [hoff]; exact State.permitted_sub h.permitted (Nat.le_add_right _ _) (by omega)
      sound := State.poisoned_sub h.sound (Nat.le_add_right _ _) (by omega) hn
      unheld := State.sbHolds_sub h.unheld (Nat.le_add_right _ _) (by omega)
      alone := h.alone
      detector := h.detector
      at_ := by rw [hoff, flatTcm_add, ← h.at_] }

/-- An element of an accumulator's image in the own TCM passes its checks. -/
theorem element_of_inTcm (h : Claim.InTcm s s.op.imm16.toInt (256 * n) 64 k a) (hn : 0 < n) (h64 : n ∣ 64) {i : Nat} (hi : i < 256) :
    s.coreAddr s.cur (Claim.element s n k i) = .ok (a + n * i, s) := by
  have hpart : n * i + n ≤ 256 * n := by
    rw [← Nat.mul_succ, Nat.mul_comm 256]
    exact Nat.mul_le_mul_left n hi
  have halign : (((pOff s.opA : Int) + s.op.imm16.toInt).toNat + n * i) % (if i = 0 then 64 else n) = 0 := by
    have h0 := h.aligned
    split
    · next hz => rw [hz, Nat.mul_zero, Nat.add_zero, h0]
    · exact Nat.mod_eq_zero_of_dvd (Nat.dvd_add (h64.trans (Nat.dvd_of_mod_eq_zero h0)) (Nat.dvd_mul_right n i))
  exact State.coreAddr_of_inTcm (inTcm_sub h hn hpart halign) hn (by decide)

theorem inBlocks_of_inTcm (h : Claim.InTcm s ofs N al k a) (hN : 0 < N) (m : Nat) : inBlocks a m = false := by
  have hlow := h.low
  have hhigh := h.high
  rw [h.at_]
  exact inBlocks_flatTcm h.core.1 h.core.2 (by omega) m

/-! The moves through the own TCM. -/

theorem mlat_tcm {adr : Nat → Nat} (hr : s.Ready .mlat) (ha : s.ahead = false) (het : s.op.et = 0) (h3 : s.op.s3 = 0)
    (hofs : (offAdd s.opA s.op.imm16.toInt).isSome = true)
    (h : ∀ i < 16, Claim.InTcm s (s.op.imm16.toInt + latOfs s i) 128 64 .read (adr i)) :
    ∃ s', Gives .mlat s s' { Touch.none with g := [s.op.d.toNat % 2] } := by
  have hspc := (h 0 (by decide)).space.1
  have hguard : (Claim.env s .mlat).guardCount (s.taken .mlat) s.op.s3 = .ok (16, s) := by
    rw [h3, State.taken_of_confOff _ (h 0 (by decide)).detector]
    rfl
  obtain ⟨s', hs, -⟩ := mlat_gives hr ha het hguard (by decide) (by omega) hofs fun i hi => State.coreAddr_of_inTcm (h i hi) (by decide) (by decide)
  exact ⟨s', hs⟩

theorem maccLd_tcm (hr : s.Ready .maccLd) (ha : s.ahead = false) (het : s.op.et = 6) (h : Claim.InTcm s s.op.imm16.toInt 1024 64 .read a) :
    ∃ s', Gives .maccLd s s' { Touch.none with a := [s.op.d.toNat] } := by
  have h : Claim.InTcm s s.op.imm16.toInt (256 * 4) 64 .read a := h
  obtain ⟨s', hs, -⟩ := maccLd_gives hr ha het h.detector fun i hi => element_of_inTcm h (by decide) (by decide) hi
  exact ⟨s', hs⟩

theorem maccSt_tcm (hr : s.Ready .maccSt) (ha : s.ahead = false) (hw : s.memOk) (het : s.op.et = 6)
    (h : Claim.InTcm s s.op.imm16.toInt 1024 64 .write a) : ∃ s', Gives .maccSt s s' { Touch.none with lo := a, hi := a + 1024 } := by
  have h : Claim.InTcm s s.op.imm16.toInt (256 * 4) 64 .write a := h
  obtain ⟨s', hs, -⟩ := maccSt_gives hr ha het hw (inBlocks_of_inTcm h (by decide) _) h.detector fun i hi =>
    element_of_inTcm h (by decide) (by decide) hi
  exact ⟨s', hs⟩

theorem maccCvt_tcm (hr : s.Ready .maccCvt) (ha : s.ahead = false) (hw : s.memOk) (het : s.op.et ∈ [7, 8, 9, 10])
    (h : Claim.InTcm s s.op.imm16.toInt (256 * elemWidth s.op.et / 8) 64 .write a) :
    ∃ s', Gives .maccCvt s s' { Touch.none with lo := a, hi := a + 256 * elemWidth s.op.et / 8, ff := true, seed := true } := by
  have hn : ∀ et ∈ [7, 8, 9, 10], 7 ≤ et ∧ et ≤ 10 ∧ 256 * elemWidth et / 8 = 256 * (elemWidth et / 8) ∧ 0 < elemWidth et / 8 ∧
      elemWidth et / 8 ∣ 64 := by
    decide
  obtain ⟨h7, h10, hlen, hpos, h64⟩ := hn _ het
  rw [hlen] at h ⊢
  obtain ⟨s', hs, -⟩ := maccCvt_gives hr ha h7 h10 hw (inBlocks_of_inTcm h (by omega) _) h.detector fun i hi => element_of_inTcm h hpos h64 hi
  exact ⟨s', hs⟩

theorem gaitl_tcm (hr : s.Ready .gaitl) (ha : s.ahead = false) (h : Claim.InTcm s s.op.imm16.toInt 32 32 .read a)
    (hg : (gaitOf (s.bytes a 32)).isSome = true) : ∃ s', Gives .gaitl s s' Touch.none := by
  obtain ⟨g, hg⟩ := Option.isSome_iff_exists.1 hg
  have hspc := h.space.1
  have hadr : (s.taken .gaitl).coreAddr s.cur (Claim.move s 0 32 32 .read false true) = .ok (a, s) := by
    rw [State.taken_of_confOff _ h.detector, Claim.move, Int.add_zero]
    exact State.coreAddr_of_inTcm h (by decide) (by decide)
  obtain ⟨s', hs, -⟩ := gaitl_gives hr ha (by omega) hadr hg
  exact ⟨s', hs⟩

end

end Sys2Proof.Machine
end

