-- ==== Sys2Proof/Proofs/MatrixQueue.lean ====
section
/-! The matrix queue (R237, R241, R245): an instruction enters it, ends its operand read and is written, and its consumed signal is raised. -/

namespace Sys2Proof.Machine

open Sys2Proof

/-- From s to t no accumulator and no byte of memory differs. -/
structure AccsKept (s t : State) : Prop where
  mem : t.mem = s.mem
  accs : ∀ d r, t.ra d r = s.ra d r

section
variable {s t u : State}

theorem Unchanged.accsKept (h : Unchanged s t) : AccsKept s t := ⟨h.mem, h.ra⟩

theorem AccsKept.trans (h : AccsKept s t) (k : AccsKept t u) : AccsKept s u :=
  ⟨k.mem.trans h.mem, fun d r => (k.accs d r).trans (h.accs d r)⟩

theorem AccsKept.modCore (h : AccsKept s t) (c : CoreId) (f : Core → Core) : AccsKept s (t.modCore c f) := ⟨h.mem, h.accs⟩

theorem AccsKept.modCtx (h : AccsKept s t) (c : CtxId) (f : Ctx → Ctx) (hf : ∀ k, (f k).a = k.a) : AccsKept s (t.modCtx c f) := by
  refine h.trans ⟨rfl, fun d r => ?_⟩
  rw [State.ra, State.ra, t.ctx_modCtx_proj c f Ctx.a hf fun _ _ => rfl]

theorem AccsKept.noteConsumed (h : AccsKept s t) (c : CtxId) (q : SeqEntry) : AccsKept s (t.noteConsumed c q) := by
  unfold State.noteConsumed
  split
  · exact h
  · exact h.modCore _ _

theorem AccsKept.seqDone (h : AccsKept s t) (c : CtxId) (k0 : Ctx) (q : SeqEntry) (o : Fields) (off : Bool) :
    AccsKept s (t.seqDone c k0 q o off .next) := by
  refine (h.trans ⟨State.mem_complete .., fun d r => ?_⟩).modCtx c _ fun _ => rfl
  exact ((Frame.refl t c Touch.none).complete c _ o off .next _).accs d r (by simp [Touch.none])

end

/-! The queues of a core, and where a context stands. -/

theorem State.ctx_noteConsumed (s : State) (c d : CtxId) (q : SeqEntry) : (s.noteConsumed c q).ctx d = s.ctx d := by
  unfold State.noteConsumed
  split
  · rfl
  · exact State.ctx_modCore ..

/-- A part of a core other than its consumed signals. -/
theorem State.core_noteConsumed {α : Type} (g : Core → α) (hg : ∀ k l, g { k with consumed := l } = g k) (s : State) (c : CtxId) (q : SeqEntry)
    (d : CoreId) : g ((s.noteConsumed c q).core d) = g (s.core d) := by
  unfold State.noteConsumed
  split
  · rfl
  · exact State.core_modCore_proj _ _ _ g (fun k => hg k _) d

/-- A part of a core that completing an instruction leaves alone. -/
theorem State.core_seqDone {α : Type} (g : Core → α) (hg : ∀ k : Core, g k = g k.still) (s : State) (c : CtxId) (k0 : Ctx) (q : SeqEntry) (o : Fields)
    (off : Bool) (d : CoreId) : g ((s.seqDone c k0 q o off .next).core d) = g (s.core d) := by
  rw [State.seqDone, State.core_modCtx, hg, hg (s.core d)]
  exact congrArg g (((Quiet.refl s fun _ => False).complete c _ o off (ctl := .next) _ (by decide) fun _ h => h.elim).cores d)

/-- The context goes on where it stood. -/
theorem State.pc_seqDone (s : State) (c : CtxId) (k0 : Ctx) (q : SeqEntry) (o : Fields) (off : Bool) (ctl : Ctl) :
    ((s.seqDone c k0 q o off ctl).ctx c).pc = k0.pc := by
  rw [State.seqDone, State.ctx_modCtx_same]
  rfl

/-! Entering the queue. -/

/-- The state in which a handed-over instruction of a core is performed. -/
def State.performing (s : State) (core : CoreId) (q : SeqEntry) : State :=
  (s.modCtx ⟨core, q.ctx⟩ fun k => k.at_ q).beginAccess ⟨core, q.ctx⟩ q.inst.row q.inst.o q.info

/-- Its environment. -/
def State.seqEnv (s : State) (core : CoreId) (q : SeqEntry) : Env := ⟨⟨core, q.ctx⟩, q.inst.row, q.inst.o, s.performing core q⟩

section
variable {s s2 : State} {core : CoreId} {q : SeqEntry} {pl : MPlan}

theorem State.bare_performing (s : State) (core : CoreId) (q : SeqEntry) : (s.performing core q).bare = s.bare := State.bare_beginAccess ..

@[simp] theorem State.core_performing (s : State) (core d : CoreId) (q : SeqEntry) : (s.performing core q).core d = s.core d :=
  State.eq_of_bare (fun x => x.core d) (fun _ => rfl) (s.bare_performing core q)

theorem State.performing_begun (s : State) (core : CoreId) (q : SeqEntry) :
    Unchanged (s.modCtx ⟨core, q.ctx⟩ fun k => k.at_ q) (s.performing core q) := Unchanged.beginAccess ..

theorem AccsKept.performing (s : State) (core : CoreId) (q : SeqEntry) : AccsKept s (s.performing core q) :=
  (AccsKept.modCtx ⟨rfl, fun _ _ => rfl⟩ _ (fun k => k.at_ q) fun _ => rfl).trans (s.performing_begun core q).accsKept

/-- The oldest matrix instruction in the sequencer of a core may enter the matrix queue. -/
structure Enters (s : State) (core : CoreId) (q : SeqEntry) : Prop where
  oldest : (s.core core).vseq.find? (fun x => !isVector x.inst.row) = some q
  first : (s.core core).vseq.find? (fun x => x.ctx == q.ctx) = some q
  room : (s.core core).mq.length < 8
  behind : s.mqBehind ⟨core, q.ctx⟩ q.inst = false
  on : (s.performing core q).predicatedOff ⟨core, q.ctx⟩ q.inst = false
  mat : q.inst.row = .mma ∨ q.inst.row = .mmas ∨ q.inst.row = .mgait

theorem Env.matPlan_mat {e : Env} {t : State} (h : e.row = .mma ∨ e.row = .mmas ∨ e.row = .mgait) : e.matPlan t = e.matIssue t := by
  unfold Env.matPlan
  rcases h with h | h | h <;> rw [h]

/-- The entry of a multiply in the matrix queue. -/
def MPlan.issued (pl : MPlan) (q : SeqEntry) (made : HbInfo) : MEntry :=
  { q := q, stage := .issued, m := pl.m, base := pl.base, scales := pl.scales, gait := pl.gait, segs := pl.segs, made := made, res := none }

/-- Out of the sequencer. -/
def State.unsequenced (s : State) (core : CoreId) (q : SeqEntry) : State := s.modCore core fun x => { x with vseq := x.vseq.erase q }

theorem Enters.matrixIssue_eq (h : Enters s core q) (hi : (s.seqEnv core q).matIssue (s.performing core q) = .ok (pl, s2)) :
    s.matrixIssue core =
      if pl.m = 0 then
        if s.mqOpen ⟨core, q.ctx⟩ then s
        else ((s2.unsequenced core q).noteConsumed ⟨core, q.ctx⟩ q).seqDone ⟨core, q.ctx⟩ (s.ctx ⟨core, q.ctx⟩) q q.plainFields false .next
      else
        (((s2.unsequenced core q).modCore core fun x => { x with mq := x.mq ++ [pl.issued q (s2.ctx ⟨core, q.ctx⟩).hb.ev] }).modCtx ⟨core, q.ctx⟩
          fun k =>
          { k.back (s.ctx ⟨core, q.ctx⟩) with hb := { k.hb with all := k.hb.all.join (s2.ctx ⟨core, q.ctx⟩).hb.ev } }) := by
  have hheld : ¬((s.core core).vseq.find? (fun x => x.ctx == q.ctx) ≠ some q ∨ 8 ≤ (s.core core).mq.length ∨
      s.mqBehind ⟨core, q.ctx⟩ q.inst = true) := by
    have hroom := h.room
    simp only [h.first, h.behind]
    simp
    omega
  have hoff : ¬(s.performing core q).predicatedOff ⟨core, q.ctx⟩ q.inst = true := by simp [h.on]
  have hplan : (s.seqEnv core q).matPlan (s.performing core q) = .ok (pl, s2) := (Env.matPlan_mat h.mat).trans hi
  rw [State.seqEnv] at hplan
  unfold State.performing at hoff hplan
  rw [State.matrixIssue, h.oldest]
  dsimp only
  rw [if_neg hheld, if_neg hoff, hplan]
  rfl

/-- Of the core only the sequencer, and what issuing reads, differ. -/
theorem Enters.core_unsequenced (hi : (s.seqEnv core q).matIssue (s.performing core q) = .ok (pl, s2)) :
    ((s2.unsequenced core q).core core).vseq = (s.core core).vseq.erase q ∧ ((s2.unsequenced core q).core core).mq = (s.core core).mq := by
  have hu := ((s.seqEnv core q).matIssue_unchanged (s.performing core q)).ok hi
  have hvseq := hu.core Core.vseq (fun _ => rfl) core
  have hmq := hu.core Core.mq (fun _ => rfl) core
  rw [State.core_performing] at hvseq hmq
  rw [State.unsequenced, State.core_modCore_same]
  exact ⟨congrArg (fun l => List.erase l q) hvseq, hmq⟩

/-- A multiply with rows enters the queue; one without completes (R237, R239). -/
theorem Enters.issues (h : Enters s core q) (hi : (s.seqEnv core q).matIssue (s.performing core q) = .ok (pl, s2))
    (hopen : pl.m = 0 → s.mqOpen ⟨core, q.ctx⟩ = false) : let t := s.matrixIssue core
    (t.core core).vseq = (s.core core).vseq.erase q ∧ (t.ctx ⟨core, q.ctx⟩).pc = (s.ctx ⟨core, q.ctx⟩).pc ∧ AccsKept s t ∧
      (pl.m = 0 → (t.core core).mq = (s.core core).mq) ∧
      (pl.m ≠ 0 → ∃ made, (t.core core).mq = (s.core core).mq ++ [pl.issued q made]) := by
  obtain ⟨hvseq, hmq⟩ := Enters.core_unsequenced hi
  have hkept : AccsKept s (s2.unsequenced core q) :=
    ((AccsKept.performing s core q).trans (((s.seqEnv core q).matIssue_unchanged (s.performing core q)).ok hi).accsKept).modCore core _
  rw [h.matrixIssue_eq hi]
  by_cases hm : pl.m = 0
  · rw [if_pos hm, if_neg (by simp [hopen hm])]
    refine ⟨?_, State.pc_seqDone .., (hkept.noteConsumed _ q).seqDone _ _ q _ _, fun _ => ?_, fun hne => absurd hm hne⟩
    · rw [State.core_seqDone Core.vseq fun _ => rfl, State.core_noteConsumed Core.vseq fun _ _ => rfl, hvseq]
    · rw [State.core_seqDone Core.mq fun _ => rfl, State.core_noteConsumed Core.mq fun _ _ => rfl, hmq]
  · rw [if_neg hm]
    refine ⟨?_, ?_, AccsKept.modCtx (hkept.modCore core _) _ _ fun _ => ?_, fun hz => absurd hz hm, fun _ => ⟨(s2.ctx ⟨core, q.ctx⟩).hb.ev, ?_⟩⟩
    · rw [State.core_modCtx, State.core_modCore_same, hvseq]
    · rw [State.ctx_modCtx_same]
      rfl
    · rfl
    · rw [State.core_modCtx, State.core_modCore_same, hmq]

/-- What a handed-over instruction reads of its context and of the core it runs on is there when it is performed. -/
theorem BlockAt.performing {p : Word} {n : Nat} (h : BlockAt s ⟨core, q.ctx⟩ p n) : BlockAt (s.performing core q) ⟨core, q.ctx⟩ p n := by
  refine ⟨h.format, h.space, h.aligned, h.high, ?_⟩
  have hsup : ((s.performing core q).ctx ⟨core, q.ctx⟩).sup = (s.ctx ⟨core, q.ctx⟩).sup := by
    rw [(s.performing_begun core q).ctx Ctx.sup (fun _ => rfl), State.ctx_modCtx_same]
    rfl
  rw [hsup, State.eq_of_bare (fun x => x.permitted core.vt _ _ _ _ _) (fun _ => rfl) (s.bare_performing core q)]
  exact h.permitted

theorem State.rs_performing (s : State) (core : CoreId) (q : SeqEntry) (r : BitVec 5) :
    (s.performing core q).rs ⟨core, q.ctx⟩ r = s.rs ⟨core, q.ctx⟩ r := by
  rw [(s.performing_begun core q).rs, State.rs, State.rs, State.ctx_modCtx_same]
  rfl

/-- A multiply through a B block in the own TCM enters the queue for its 16 rows. -/
theorem Enters.issues_block (h : Enters s core q) (het : matEt q.inst.row q.inst.o.et = true) (h2 : q.inst.o.s2 = 0)
    (hb : BlockAt s ⟨core, q.ctx⟩ (s.rs ⟨core, q.ctx⟩ q.inst.o.s1) (blockSize q.inst.row)) : ∃ m, let t := s.matrixIssue core
    (t.core core).vseq = (s.core core).vseq.erase q ∧ (t.core core).mq = (s.core core).mq ++ [m] ∧ m.q = q ∧ m.m = 16 ∧
      m.base = flatTcm core (pOff (s.rs ⟨core, q.ctx⟩ q.inst.o.s1)) ∧ m.stage = .issued := by
  have ha : (s.seqEnv core q).a (s.performing core q) = s.rs ⟨core, q.ctx⟩ q.inst.o.s1 := s.rs_performing core q _
  have hbt := hb.performing
  rw [← ha] at hbt
  obtain ⟨pl, hi, hm, hbase⟩ := Env.matIssue_of_block (e := s.seqEnv core q) (t := s.performing core q) het h2 hbt
  obtain ⟨hvseq, -, -, -, hrows⟩ := h.issues hi (by omega)
  obtain ⟨made, hmq⟩ := hrows (by omega)
  rw [ha] at hbase
  exact ⟨_, hvseq, hmq, rfl, hm, hbase, rfl⟩

end

/-! Ending the operand read. -/

section
variable {s : State} {core : CoreId} {m : MEntry} {rest : List MEntry} {r : Acc}

/-- The plan of an entry of the queue. -/
def MEntry.plan (m : MEntry) : MPlan := ⟨m.m, m.base, m.scales, m.gait, m.segs⟩

theorem isMat_of_mat {row : Instr} (h : row = .mma ∨ row = .mmas ∨ row = .mgait) : isMat row = true := by
  rcases h with rfl | rfl | rfl <;> rfl

/-- A multiply whose operands are read has its result, and stands at the head of the queue as before (R241). -/
theorem State.matrixReadEnd_ok (hq : (s.core core).mq = m :: rest) (hs : m.stage = .issued)
    (hrow : m.q.inst.row = .mma ∨ m.q.inst.row = .mmas ∨ m.q.inst.row = .mgait)
    (hr : (s.seqEnv core m.q).matRead (s.performing core m.q) m.plan = .ok r) : let t := s.matrixReadEnd core
    (∃ made, (t.core core).mq = { m with stage := .read, made := made, res := some r } :: rest) ∧
      (t.ctx ⟨core, m.q.ctx⟩).pc = (s.ctx ⟨core, m.q.ctx⟩).pc ∧ AccsKept s t := by
  have hkept := AccsKept.performing s core m.q
  unfold State.seqEnv State.performing MEntry.plan at hr
  unfold State.performing at hkept
  rw [State.matrixReadEnd, hq]
  dsimp only
  rw [if_neg (by simp [hs]), if_pos (isMat_of_mat hrow), hr]
  dsimp only
  refine ⟨⟨m.made.join ((s.performing core m.q).ctx ⟨core, m.q.ctx⟩).hb.ev, ?_⟩, ?_,
    AccsKept.noteConsumed (AccsKept.modCtx (hkept.modCore core _) _ _ fun _ => ?_) _ _⟩
  · rw [State.core_noteConsumed Core.mq fun _ _ => rfl, State.core_modCtx, State.core_modCore_same]
    rfl
  · rw [State.ctx_noteConsumed, State.ctx_modCtx_same]
    rfl
  · rfl

/-- With no error in its operands a multiply's operand read gives a result. -/
theorem State.matRead_performing (hp : s.poisoned m.base 2176 = false) (hg : (s.ctx ⟨core, m.q.ctx⟩).gbad = 0) :
    ∃ r, (s.seqEnv core m.q).matRead (s.performing core m.q) m.plan = .ok r := by
  have hsound : (s.performing core m.q).poisoned m.base 2176 = false :=
    (State.eq_of_bare (fun x => x.poisoned _ _) (fun _ => rfl) (s.bare_performing core m.q)).trans hp
  have hbad : ((s.performing core m.q).ctx ⟨core, m.q.ctx⟩).gbad = 0 := by
    rw [(s.performing_begun core m.q).ctx Ctx.gbad (fun _ => rfl), State.ctx_modCtx_same]
    exact hg
  have hsize : blockSize (s.seqEnv core m.q).row ≤ 2176 := by
    unfold blockSize
    split <;> decide
  obtain ⟨r, hr, -⟩ := (s.seqEnv core m.q).matRead_ok (s.performing core m.q) m.plan (Env.blockPoisoned_of_sound hsize hsound)
    (by rw [show (s.seqEnv core m.q).k (s.performing core m.q) = (s.performing core m.q).ctx ⟨core, m.q.ctx⟩ from rfl, hbad]; simp)
  exact ⟨r, hr⟩

/-! Writing the accumulator. -/

/-- The accumulator is written whole, and the head of the queue has gone (R241). -/
theorem State.matrixWrite_ok (hq : (s.core core).mq = m :: rest) (hs : m.stage = .read) (hr : m.res = some r) (hd : m.q.inst.o.d.toNat < 8) :
    let t := s.matrixWrite core
    let c : CtxId := ⟨core, m.q.ctx⟩
    (t.core core).mq = rest ∧ t.ra c m.q.inst.o.d.toNat = r ∧ (∀ x, x ≠ m.q.inst.o.d.toNat → t.ra c x = s.ra c x) ∧
      (t.ctx c).pc = (s.ctx c).pc ∧ t.mem = s.mem := by
  rw [State.matrixWrite, hq]
  dsimp only
  rw [if_neg (by simp [hs]), hr]
  dsimp only
  have hkept := (((AccsKept.modCore (s := s.wa ⟨core, m.q.ctx⟩ m.q.inst.o.d.toNat r) ⟨rfl, fun _ _ => rfl⟩ core
    fun x => { x with mq := rest }).modCtx ⟨core, m.q.ctx⟩ (fun k =>
      { k.at_ m.q with hb := { k.hb with pre := [], ev := m.made, acc := !m.made.isEmpty, rd := !m.made.isEmpty } }) fun _ => rfl).seqDone
        ⟨core, m.q.ctx⟩ (s.ctx ⟨core, m.q.ctx⟩) m.q m.q.plainFields false)
  refine ⟨?_, ?_, fun x hx => ?_, State.pc_seqDone .., hkept.mem⟩
  · rw [State.core_seqDone Core.mq fun _ => rfl, State.core_modCtx, State.core_modCore_same]
  · rw [hkept.accs, State.ra_wa_same _ _ _ hd]
  · rw [hkept.accs, State.ra_wa_ne _ _ _ hx]

/-! Consumed signals. -/

/-- A signal of a context counts one, saturating (R27). -/
theorem State.count_signalLocal (s : State) (c : CtxId) (n : Nat) :
    (((s.signalLocal c (some (n, 1))).core c.core).reinAt n).v.toNat = min (((s.core c.core).reinAt n).v.toNat + 1) 0xffff := by
  obtain ⟨hsame, -⟩ := Core.reinAt_set (s.rein_signalLocal c n 1)
  rw [hsame, Rein.add, BitVec.toNat_ofNat, Nat.mod_eq_of_lt (by omega)]

theorem State.consumed_signalLocal (s : State) (c : CtxId) (g : Option (Nat × Nat)) (d : CoreId) :
    ((s.signalLocal c g).core d).consumed = (s.core d).consumed := by
  have h := congrArg Core.consumed (((Quiet.refl s fun _ => False).signalLocal c g).cores d)
  exact h

theorem State.mem_signalLocal (s : State) (c : CtxId) (g : Option (Nat × Nat)) : (s.signalLocal c g).mem = s.mem :=
  ((Quiet.refl s fun _ => False).signalLocal c g).mem

/-- A consumed signal is raised once and counted (R27, R245). -/
theorem State.consumedSignal_ok {x : Nat × Nat × List Nat}
    (hx : (s.core core).consumed.find? (fun y => y.2.2.all (s.readEnded ⟨core, y.1⟩)) = some x) : let t := s.consumedSignal core
    ((t.core core).reinAt x.2.1).v.toNat = min (((s.core core).reinAt x.2.1).v.toNat + 1) 0xffff ∧
      (t.core core).consumed = (s.core core).consumed.erase x ∧ t.mem = s.mem := by
  have heq : s.consumedSignal core =
      (s.modCore core fun k => { k with consumed := k.consumed.erase x }).signalLocal ⟨core, x.1⟩ (some (x.2.1, 1)) := by
    rw [State.consumedSignal, hx]
  have hrein : ((s.modCore core fun k => { k with consumed := k.consumed.erase x }).core core).reinAt x.2.1 = (s.core core).reinAt x.2.1 := by
    rw [State.core_modCore_same]
    rfl
  rw [heq]
  refine ⟨?_, ?_, State.mem_signalLocal ..⟩
  · exact (State.count_signalLocal _ ⟨core, x.1⟩ x.2.1).trans (by rw [hrein])
  · rw [State.consumed_signalLocal, State.core_modCore_same]

end

end Sys2Proof.Machine
end

