-- ==== Sys2Proof/Proofs/MatrixUnit.lean ====
section
/-! The matrix unit (R122, R237–R252). -/

namespace Sys2Proof.Machine

open Sys2Proof

section
variable {s : State} {row : Instr}

/-- The first element of a memory form of MACC that fails its checks traps. -/
theorem maccForm_traps {n : Nat} {k : AKind}
    (hrow : (row, n, k) ∈ [(Instr.maccLd, 4, AKind.read), (.maccSt, 4, .write), (.maccCvt, elemWidth s.op.et / 8, .write)]) (hr : s.Ready row)
    (ha : s.ahead = false) (het : if row = .maccCvt then 7 ≤ s.op.et ∧ s.op.et ≤ 10 else s.op.et = 6) (hc : s.confOn s.cur = false) {i : Nat}
    (hi : i < 256) {t : Tr} {s1 : State} (hbefore : ∀ j < i, ∃ a, s.coreAddr s.cur (Claim.element s n k j) = .ok (a, s))
    (herr : s.coreAddr s.cur (Claim.element s n k i) = .error (.trap t s1)) : ∃ s', Traps row s t s' := by
  simp only [List.mem_cons, Prod.mk.injEq, List.not_mem_nil, or_false] at hrow
  obtain ⟨rfl, rfl, rfl⟩ | ⟨rfl, rfl, rfl⟩ | ⟨rfl, rfl, rfl⟩ := hrow
  · exact macc_traps (run := Env.maccLd) (.inl ⟨rfl, het, rfl, rfl⟩) hr (by rw [← issueV_alone ha]; rfl) hc hi hbefore herr
  · exact macc_traps (run := Env.maccSt) (.inr (.inl ⟨rfl, het, rfl, rfl⟩)) hr (by rw [← issueV_alone ha]; rfl) hc hi hbefore herr
  · exact macc_traps (run := Env.maccCvt) (.inr (.inr ⟨rfl, het, rfl, rfl⟩)) hr (by rw [← issueV_alone ha]; rfl) hc hi hbefore herr

end

/-- Settles O45: what the instructions give comes from their checks and moves, the queue's steps from what each leaves of the queue. -/
theorem matrixUnit : Obligations.MatrixUnit := by
  refine ⟨?_, ?_, fun row s x hrow h ha => mat_stops hrow h ha, dotUnits_sum, ?_, fun s h ha het => maccZero_gives h ha het, ?_, ?_, ?_, ?_, ?_, ?_,
    ?_, ?_, ?_, ?_, ?_, ?_, ?_⟩
  · intro row s s1 pl hrow h ha e hi
    refine ⟨fun hm => mat_zero_gives hrow h ha hi hm, fun hm hp hg => ?_⟩
    obtain ⟨acc, ⟨hdone, hframe⟩, hcells⟩ := mat_rows_gives hrow h ha hi hm hp hg
    refine ⟨acc, hdone, hframe, fun ix => ?_⟩
    rw [hcells ix, Env.cell, Nat.div_add_mod ix.val 16]
    rfl
  · intro row n k s s1 t i hrow hr ha het hc hi hbefore herr
    rw [State.taken_of_confOff row hc] at hbefore herr
    exact maccForm_traps hrow hr ha het hc hi hbefore herr
  · intro s s1 m adr h ha het hg hm hadr
    refine ⟨fun h0 => mlat_zero h ha het (h0 ▸ hg), fun h0 => ?_⟩
    obtain ⟨s', ⟨hdone, hframe⟩, hrows⟩ := mlat_gives h ha het hg h0 (hm h0).1 (hm h0).2 hadr
    exact ⟨s', hdone, hframe, hrows⟩
  · intro s adr h ha het _ hc hadr
    rw [State.taken_of_confOff _ hc] at hadr
    obtain ⟨s', ⟨hdone, hframe⟩, hvals⟩ := maccLd_gives h ha het hc hadr
    exact ⟨s', hdone, hframe, hvals⟩
  · intro s a h ha het _ hw hb hc hadr
    rw [State.taken_of_confOff _ hc] at hadr
    exact maccSt_gives h ha het hw hb hc hadr
  · intro s a h ha h7 h10 _ hw nb hb hc hadr
    rw [State.taken_of_confOff _ hc] at hadr
    exact maccCvt_gives h ha h7 h10 hw hb hc hadr
  · intro s s1 a h ha h4 hadr
    cases hg : gaitOf (s.bytes a 32) with
    | some g => exact gaitl_gives h ha h4 hadr hg
    | none => exact gaitl_traps h ha h4 hadr hg
  · intro row s hrow h ha h1 h2 h3 hs2 p n hfmt hblk hspc hrel hun hal hhigh hperm hp hg
    exact mat_block_completes hrow h ha (matEt_of_mem hrow h1 h2 h3) hs2 ⟨⟨hfmt, hblk⟩, ⟨hspc, hrel, hun⟩, hal, hhigh, hperm⟩ hp hg
  · intro s adr h ha het h3 hofs htcm
    exact mlat_tcm h ha het h3 hofs htcm
  · intro row s a h ha hw
    refine ⟨?_, ?_, ?_, ?_⟩
    · rintro rfl het htcm
      exact maccLd_tcm h ha het htcm
    · rintro rfl het htcm
      exact maccSt_tcm h ha hw het htcm
    · rintro rfl het htcm
      exact maccCvt_tcm h ha hw het htcm
    · rintro rfl htcm hg
      exact gaitl_tcm h ha htcm hg
  · intro s s2 q pl core c s1 hold hfirst hroom hbehind hon hmat hi hopen
    have hq : Enters s core q := ⟨hold, hfirst, hroom, hbehind, hon, hmat⟩
    obtain ⟨hvseq, hpc, hkept, hzero, hrows⟩ := hq.issues hi hopen
    refine ⟨s.matrixIssue core, rfl, hvseq, hpc, hkept.mem, hkept.accs c, hzero, fun hm => ?_⟩
    obtain ⟨made, hmq⟩ := hrows hm
    exact ⟨_, hmq, rfl, rfl, rfl, rfl⟩
  · intro s q core c p n hold hfirst hroom hbehind hon hrow h1 h2 h3 hs2 hfmt hblk hspc hrel hun hal hhigh hperm
    have hon' : (s.performing core q).predicatedOff ⟨core, q.ctx⟩ q.inst = false := by
      rw [State.predicatedOff, (s.performing_begun core q).rp]
      exact hon
    have hq : Enters s core q := ⟨hold, hfirst, hroom, hbehind, hon', by simpa using hrow⟩
    obtain ⟨m, hm⟩ := hq.issues_block (matEt_of_mem hrow h1 h2 h3) hs2 ⟨⟨hfmt, hblk⟩, ⟨hspc, hrel, hun⟩, hal, hhigh, hperm⟩
    exact ⟨s.matrixIssue core, m, rfl, hm⟩
  · intro s m rest core c hq hs hrow hp hg
    obtain ⟨r, hr⟩ := State.matRead_performing (core := core) hp hg
    obtain ⟨⟨made, hmq⟩, -⟩ := State.matrixReadEnd_ok hq hs hrow hr
    exact ⟨s.matrixReadEnd core, _, rfl, hmq, rfl, rfl, rfl⟩
  · intro s m rest r core c s1 hq hs hrow hr
    obtain ⟨⟨made, hmq⟩, hpc, hkept⟩ := State.matrixReadEnd_ok hq hs hrow hr
    exact ⟨s.matrixReadEnd core, _, rfl, hmq, rfl, rfl, rfl, hpc, hkept.mem, hkept.accs c⟩
  · intro s m rest r core c hq hs hr hd
    exact ⟨s.matrixWrite core, rfl, State.matrixWrite_ok hq hs hr hd⟩
  · intro s x core hx
    exact ⟨s.consumedSignal core, rfl, State.consumedSignal_ok hx⟩

end Sys2Proof.Machine
end
